-- ==== Sys2Proof/Word.lean ====
section
/-!
DEFINITION. The word sizes of R3 and the capability image of R70 as plain data.
-/
namespace Sys2Proof

/-- R3: 8 bits. -/
abbrev Byte := BitVec 8
/-- R3: 32 bits. -/
abbrev Word := BitVec 32
/-- R3: 64 bits. -/
abbrev Dbl := BitVec 64
/-- R3: 128 bits. -/
abbrev Quad := BitVec 128
/-- R3: 256 bits, the size of a capability image and of a task record. -/
abbrev Gran := BitVec 256

/-- R70: a capability as a register holds it, 256 bits and the tag beside them. -/
structure Cap where
  bits : Gran
  tag : Bool
  deriving DecidableEq, Repr

/-- R49: an untagged capability of all zeros. -/
def Cap.null : Cap := ⟨0, false⟩

/-- A table of values by number: what no entry names reads as the default its reader gives. -/
abbrev Tab (α : Type) := List (Nat × α)

end Sys2Proof
end

