-- ==== Sys2Proof/Types.lean ====
section
/-!
DEFINITION. Plain data that the steps of spec/95 take as operands: what the loader, the partition manager,
the application cores, the boot ROM and the partner package supply. No machine state and no meaning.
-/
namespace Sys2Proof

/-- R366: a firmware image as the boot ROM reads it. -/
structure FirmwareImage where
  magic : BitVec 64
  version : BitVec 32
  rollback : BitVec 32
  bodyLen : BitVec 64
  bodySha : BitVec 384
  signature : BitVec 768
  body : List Byte
  key : List Byte
  deriving DecidableEq, Repr

/-- R367, R382: what power-on reset finds: the stored image, the recovery strap, the PCIe strap and, for each quay,
whether its self-test passes. -/
structure BootInput where
  image : FirmwareImage
  recoveryStrap : Bool
  endpointStrap : Bool
  selfTest0 : Bool
  selfTest1 : Bool
  deriving DecidableEq, Repr

/-- R379: the identity flit of a Quayline partner. -/
inductive QlProduct where
  | w20 | d40 | other
  deriving DecidableEq, Repr

/-- R379: the identity a partner package states while a port trains. -/
structure QlIdentity where
  product : QlProduct
  ordering : Nat
  sameArithmetic : Bool
  deriving DecidableEq, Repr

/-- R357: where an uncorrectable error strikes. -/
inductive ErrorPlace where
  /-- A 64-byte line of memory or of a buffer, by the location key of its first byte. -/
  | line (loc : Nat)
  /-- A clean line of a berth's L1 (R359: invalidated and fetched again). -/
  | l1 (berth line : Nat)
  /-- A quay's L2 copy of a line homed at the other quay. -/
  | l2 (quay line : Nat)
  /-- A scalar register of a context. -/
  | xreg (core ctx reg : Nat)
  /-- A vector register of a context, by physical number. -/
  | vreg (core ctx reg : Nat)
  /-- A capability register of a context. -/
  | creg (core ctx reg : Nat)
  /-- A mask register, m1 to m7, of a context. -/
  | mreg (core ctx reg : Nat)
  /-- A line of a core's instruction cache, by line number. -/
  | icache (core line : Nat)
  /-- The tag cache's copy of the tags of the line that holds a location; `dirty` says that no other copy is up to date. -/
  | tags (loc : Nat) (dirty : Bool)
  /-- The staging store of a berth's matrix array: the adapters staged in it. -/
  | staging (berth : Nat)
  /-- Harbourmaster or dredger state of a quay (R360, why 1). -/
  | quayTables (quay : Nat)
  deriving DecidableEq, Repr

/-- R377: the register pages. -/
inductive RegPage where
  | glob
  | partition (p : Nat)
  | manager (p : Nat)
  deriving DecidableEq, Repr

/-- R239, R376: an access of an application core to a partition's memory, by physical address. -/
inductive AppAccess where
  | load (addr bytes : Nat)
  | store (addr : Nat) (data : List Byte)
  /-- A RISC-V fence; each flag says that the predecessor or successor set holds r and w. -/
  | fence (pred succ : Bool)
  deriving DecidableEq, Repr

/-- R380, R381: what arrives from the partner package over Quayline. -/
inductive PartnerAccess where
  | read (part addr bytes : Nat)
  | write (part addr : Nat) (data : List Byte)
  /-- An element of less than a byte: `width` bits from bit `bit` of the byte at `addr` (R84, R264). -/
  | writeBits (part addr bit width v : Nat)
  /-- A `cpred` update of one element; `bf16` says the format is BF16, else FP32. -/
  | reduce (part addr : Nat) (bf16 : Bool) (data : BitVec 32)
  /-- The arrival of R381, a `parrive.rel.sys` on the partition's `ql.phase`. -/
  | arrive (part : Nat)
  deriving DecidableEq, Repr

/-- R230: a cache that a line may leave: a berth's L1, a quay's L2, or a core's instruction cache. -/
inductive CachePlace where
  | l1 (berth : Nat)
  | l2 (quay : Nat)
  | icache (core : Nat)
  deriving DecidableEq, Repr

/-- R68: a `.handler` declaration with its label resolved to a byte address. -/
structure HandlerDecl where
  addr : BitVec 48
  channel : BitVec 4
  prio : BitVec 2
  concurrent : Bool
  deriving DecidableEq, Repr

/-- R68: a `.rule` declaration. -/
structure RuleDecl where
  kindA : BitVec 16
  kindB : BitVec 16
  addr : BitVec 48
  deriving DecidableEq, Repr

/-- R39, R68: a `.template` node. -/
structure TemplateDecl where
  dst : BitVec 10
  channel : BitVec 4
  capIndex : Nat
  count : Nat
  deriving DecidableEq, Repr

/-- R68, R385: the target that an object's header records. -/
inductive Target where
  | d30 | d40 | w20
  deriving DecidableEq, Repr

/-- R68, R387: what kind of field a specialisation slot is. -/
inductive SlotKind where
  | imm12 | imm20 | fmt | shape
  deriving DecidableEq, Repr

/-- R68, R385: a `.slot`: the instruction at an offset of a section. -/
structure SlotDecl where
  section_ : Nat
  offset : Nat
  kind : SlotKind
  deriving DecidableEq, Repr

/-- R68, R385: a `.section` with the translated address the loader has chosen for it and the largest n of its `.align n`. -/
structure SectionDecl where
  base : Nat
  align : Nat
  bytes : List Byte
  deriving DecidableEq, Repr

/-- R385: an MGO object as `mugld` receives it, its sections already at their chosen addresses. -/
structure CodeObject where
  /-- The header: the `.target`, and the `.ordering` that the source carries. -/
  target : Target
  ordering : Option Nat
  handlers : List HandlerDecl
  rules : List RuleDecl
  templates : List TemplateDecl
  /-- The code capability issued for the object (R244). -/
  code : Cap
  /-- The object's capability table (R68). -/
  caps : List Cap
  slots : List SlotDecl
  sections : List SectionDecl
  /-- Every other section's bytes, over which the signature is made. -/
  signed : List Byte
  signature : BitVec 768
  /-- R388: the highest berth number and quay the object names. -/
  maxBerth : Nat
  maxQuay : Nat
  deriving DecidableEq, Repr

/-- R29: the loader installs handlers of a resident object on one core. -/
structure ServiceInstall where
  core : Nat
  part : Nat
  handle : Nat
  root : Cap
  /-- Positions in the object's handler list. -/
  which : List Nat
  deriving DecidableEq, Repr

end Sys2Proof
end

