-- ==== Sys2Proof/Config.lean ====
section
/-!
DEFINITION. What the manual leaves to the implementation or does not state, as constants without a body: no proof can see
their values. `Nat` arguments are the state's counter of free values.
-/
namespace Sys2Proof.Config

open Sys2Proof

/-- R373: the delay that a reply reports (DESIGN CHOICE: log entry 5). -/
opaque replyDelay : Nat → BitVec 16

/-- R373: whether external memory served an L1 miss, rather than the home slice (DESIGN CHOICE: log entry 5). -/
opaque memoryServed : Nat → Bool

/-- R374: how many L2 misses (7) or accesses (8) of lines that a partition owns the slices count at a clock, by clock, partition and event
(DESIGN CHOICE: log entry 5). -/
opaque l2Events : Nat → Nat → Nat → BitVec 48

/-- R202, R306: whether a quay's matrix budget above 0 has room for one more leave (DESIGN CHOICE: log entry 6). -/
opaque budgetRoom : Nat → Bool

/-- R380: what the partner package returns for a read over Quayline, whether it refuses an access, and the flags of a
reduction that it performs (DESIGN CHOICE: log entry 7). -/
opaque partnerData : Nat → BitVec 256
opaque partnerRefuses : Nat → Bool
opaque partnerFlags : Nat → BitVec 5

/-- R379: the code by which `ql.ctl` reports each of the five port states, numbered in the order of R379's table (DESIGN CHOICE: log entry 49). -/
opaque portCode : Nat → BitVec 3

/-- R219: whether an adapter is already staged, and the read latency of the first line of one that is not (DESIGN CHOICE: log entry 8). -/
opaque adapterStaged : Nat → Bool
opaque lineLatency : Nat → BitVec 16

/-- R199: what an array column reads, by bit address, for an element of B or of its scales past the end of its slice (DESIGN CHOICE: log entry 63). -/
opaque pastSlice : Nat → BitVec 16

/-- R136: whether the home slice holds a line, so that its memory channel is not needed, by clock and line (DESIGN CHOICE: log entry 41). -/
opaque sliceHolds : Nat → Nat → Bool

/-- R383: what the bytes of a berth's windows become, by window address, when the off state loses them (DESIGN CHOICE: log entry 9). -/
opaque lostBytes : Nat → Nat → List Byte

/-- R242: whether an L2 still holds an uncompressed line when the compressed view writes it (DESIGN CHOICE: log entry 60). -/
opaque lineHeld : Nat → Bool

/-- R362: whether a checkpoint finds no room in its area, whose layout the manual does not give (DESIGN CHOICE: log entry 10). -/
opaque areaFull : Nat → Bool

/-- R395: what a queue or ring of the device's own layout reads as once an entry has been put into it, by counter and chunk (DESIGN CHOICE: log entry 33). -/
opaque ringBytes : Nat → Nat → List Byte

/-- R363: what a checkpoint area reads as once a checkpoint has been written into it, and which of its granules are tagged, by counter and
chunk of 512 bytes (DESIGN CHOICE: log entry 10). -/
opaque areaBytes : Nat → Nat → List Byte
opaque areaTags : Nat → Nat → BitVec 16

/-- R364: the eight bytes of an order-log entry, whose layout the manual does not give (DESIGN CHOICE: log entry 10). -/
opaque logWord : Nat → BitVec 64

/-- R366: the SHA-384 of the public key, as fused (DESIGN CHOICE: log entry 12). -/
opaque fusedKeyDigest : List Byte

/-- R385: the bytes of an object's sections, whose file layout the manual does not give (DESIGN CHOICE: log entry 12). -/
opaque objectBytes : CodeObject → List Byte

/-- R385: the public keys on a partition's trust list (DESIGN CHOICE: log entry 12). -/
opaque trustedKeys : Nat → List (List Byte)

end Sys2Proof.Config
end

