-- ==== Sys2Proof/Syntax.lean ====
section
/-!
DEFINITION. The instructions of Syrek: one constructor for each row of spec/opcode_table.json.
The first 272 rows are encoded instructions (R57 to R63); their arguments are the fields of the encoding,
under the table's names (f forwarding bit, eb and ea trap bits, o branch offset, and so on).
The other 129 rows are steps that no encoding names (spec/95_what_each_step_holds.md); their arguments say
which agent takes the step and what the outside world supplies to it.
-/
namespace Sys2Proof

/-- An instruction or a step of the part. -/
inductive Instr where
  /-- KREAD (R57): Reads a control register into a scalar register, waiting for flags when it reads kfflags. -/
  | kread (k : BitVec 12) (d : BitVec 5)
  /-- KWRITE (R57): Writes the RW fields of a control register from a scalar register. -/
  | kwrite (k : BitVec 12) (a : BitVec 5)
  /-- KSWAP (R57): Reads a control register and writes it in one indivisible step. -/
  | kswap (k : BitVec 12) (a : BitVec 5) (d : BitVec 5)
  /-- KCSET (R58): Copies a capability register, tag included, into kc.sa or kc.sb. -/
  | kcset (a : BitVec 4) (d : BitVec 5)
  /-- SVC (R352): Traps with SVC and detail n, resuming at the next instruction. -/
  | svc (n : BitVec 12)
  /-- TRET (R353): Sends a command to resume the trapped context named by a handle. -/
  | tret (a : BitVec 5) (d : BitVec 5)
  /-- TDROP (R353): Sends a command to discard the trapped context named by a handle. -/
  | tdrop (a : BitVec 5) (d : BitVec 5)
  /-- BRK (R352): Traps with BREAK, or halts the berth when brkhalt is set. -/
  | brk (n : BitVec 12)
  /-- HALT (R352): Asks the debug module to halt the berth, or traps as brk when halting is not enabled. -/
  | halt
  /-- C_NOP (R63): Compact no-operation. -/
  | cNop
  /-- C_MV (R63): Compact register move. -/
  | cMv (b : BitVec 5) (d : BitVec 5)
  /-- C_LI (R63): Compact load of a sign-extended 6-bit immediate. -/
  | cLi (i : BitVec 6) (d : BitVec 5)
  /-- C_ADDI (R63): Compact add of a 6-bit immediate to xd. -/
  | cAddi (i : BitVec 6) (d : BitVec 5)
  /-- C_ADD (R63): Compact add of xb to xd. -/
  | cAdd (b : BitVec 5) (d : BitVec 5)
  /-- C_SUB (R63): Compact subtract of xb from xd. -/
  | cSub (b : BitVec 5) (d : BitVec 5)
  /-- C_AND (R63): Compact and of xd with xb. -/
  | cAnd (b : BitVec 5) (d : BitVec 5)
  /-- C_OR (R63): Compact or of xd with xb. -/
  | cOr (b : BitVec 5) (d : BitVec 5)
  /-- C_SLLI (R63): Compact left shift of xd by an immediate. -/
  | cSlli (s : BitVec 6) (d : BitVec 5)
  /-- C_SRLI (R63): Compact logical right shift of xd by an immediate. -/
  | cSrli (s : BitVec 6) (d : BitVec 5)
  /-- C_BEQZ (R63): Compact branch when xd is zero. -/
  | cBeqz (i : BitVec 6) (d : BitVec 5)
  /-- C_BNEZ (R63): Compact branch when xd is nonzero. -/
  | cBnez (i : BitVec 6) (d : BitVec 5)
  /-- C_J (R63): Compact unconditional jump by an 11-bit halfword offset. -/
  | cJ (i : BitVec 11)
  /-- C_RET (R176): Compact return, as jalr x0, x26, 0. -/
  | cRet
  /-- C_DONE (R35): Compact form of done, ending the task. -/
  | cDone
  /-- ADD (R160): 64-bit add. -/
  | add (f : BitVec 1) (eb : BitVec 1) (ea : BitVec 1) (b : BitVec 5) (a : BitVec 5) (d : BitVec 5)
  /-- SUB (R160): 64-bit subtract. -/
  | sub (f : BitVec 1) (eb : BitVec 1) (ea : BitVec 1) (b : BitVec 5) (a : BitVec 5) (d : BitVec 5)
  /-- AND (R160): Bitwise and. -/
  | and (f : BitVec 1) (eb : BitVec 1) (ea : BitVec 1) (b : BitVec 5) (a : BitVec 5) (d : BitVec 5)
  /-- OR (R160): Bitwise or. -/
  | or (f : BitVec 1) (eb : BitVec 1) (ea : BitVec 1) (b : BitVec 5) (a : BitVec 5) (d : BitVec 5)
  /-- XOR (R160): Bitwise exclusive or. -/
  | xor (f : BitVec 1) (eb : BitVec 1) (ea : BitVec 1) (b : BitVec 5) (a : BitVec 5) (d : BitVec 5)
  /-- ANDN (R160): A and not B. -/
  | andn (f : BitVec 1) (eb : BitVec 1) (ea : BitVec 1) (b : BitVec 5) (a : BitVec 5) (d : BitVec 5)
  /-- SLL (R160): Left shift by B[5:0]. -/
  | sll (f : BitVec 1) (eb : BitVec 1) (ea : BitVec 1) (b : BitVec 5) (a : BitVec 5) (d : BitVec 5)
  /-- SRL (R160): Logical right shift by B[5:0]. -/
  | srl (f : BitVec 1) (eb : BitVec 1) (ea : BitVec 1) (b : BitVec 5) (a : BitVec 5) (d : BitVec 5)
  /-- SRA (R160): Arithmetic right shift by B[5:0]. -/
  | sra (f : BitVec 1) (eb : BitVec 1) (ea : BitVec 1) (b : BitVec 5) (a : BitVec 5) (d : BitVec 5)
  /-- SLT (R160): Signed set-less-than. -/
  | slt (f : BitVec 1) (eb : BitVec 1) (ea : BitVec 1) (b : BitVec 5) (a : BitVec 5) (d : BitVec 5)
  /-- SLTU (R160): Unsigned set-less-than. -/
  | sltu (f : BitVec 1) (eb : BitVec 1) (ea : BitVec 1) (b : BitVec 5) (a : BitVec 5) (d : BitVec 5)
  /-- MIN (R160): Signed minimum. -/
  | min (f : BitVec 1) (eb : BitVec 1) (ea : BitVec 1) (b : BitVec 5) (a : BitVec 5) (d : BitVec 5)
  /-- MAX (R160): Signed maximum. -/
  | max (f : BitVec 1) (eb : BitVec 1) (ea : BitVec 1) (b : BitVec 5) (a : BitVec 5) (d : BitVec 5)
  /-- MINU (R160): Unsigned minimum. -/
  | minu (f : BitVec 1) (eb : BitVec 1) (ea : BitVec 1) (b : BitVec 5) (a : BitVec 5) (d : BitVec 5)
  /-- MAXU (R160): Unsigned maximum. -/
  | maxu (f : BitVec 1) (eb : BitVec 1) (ea : BitVec 1) (b : BitVec 5) (a : BitVec 5) (d : BitVec 5)
  /-- CLZ (R160): Count leading zeros. -/
  | clz (f : BitVec 1) (ea : BitVec 1) (a : BitVec 5) (d : BitVec 5)
  /-- CTZ (R160): Count trailing zeros. -/
  | ctz (f : BitVec 1) (ea : BitVec 1) (a : BitVec 5) (d : BitVec 5)
  /-- POP (R160): Population count. -/
  | pop (f : BitVec 1) (ea : BitVec 1) (a : BitVec 5) (d : BitVec 5)
  /-- BEXT (R161): Extracts a bit field. -/
  | bext (f : BitVec 1) (eb : BitVec 1) (ea : BitVec 1) (b : BitVec 5) (a : BitVec 5) (d : BitVec 5)
  /-- BINS (R161): Inserts a bit field into xd. -/
  | bins (f : BitVec 1) (eb : BitVec 1) (ea : BitVec 1) (b : BitVec 5) (a : BitVec 5) (d : BitVec 5)
  /-- ADDW (R160): 32-bit add, sign-extended. -/
  | addw (f : BitVec 1) (eb : BitVec 1) (ea : BitVec 1) (b : BitVec 5) (a : BitVec 5) (d : BitVec 5)
  /-- SUBW (R160): 32-bit subtract, sign-extended. -/
  | subw (f : BitVec 1) (eb : BitVec 1) (ea : BitVec 1) (b : BitVec 5) (a : BitVec 5) (d : BitVec 5)
  /-- SLLW (R160): 32-bit left shift, sign-extended. -/
  | sllw (f : BitVec 1) (eb : BitVec 1) (ea : BitVec 1) (b : BitVec 5) (a : BitVec 5) (d : BitVec 5)
  /-- SRLW (R160): 32-bit logical right shift, sign-extended. -/
  | srlw (f : BitVec 1) (eb : BitVec 1) (ea : BitVec 1) (b : BitVec 5) (a : BitVec 5) (d : BitVec 5)
  /-- SRAW (R160): 32-bit arithmetic right shift. -/
  | sraw (f : BitVec 1) (eb : BitVec 1) (ea : BitVec 1) (b : BitVec 5) (a : BitVec 5) (d : BitVec 5)
  /-- ADDI (R162): Add of a sign-extended 12-bit immediate. -/
  | addi (k : BitVec 12) (a : BitVec 5) (d : BitVec 5)
  /-- ANDI (R162): And with an immediate. -/
  | andi (k : BitVec 12) (a : BitVec 5) (d : BitVec 5)
  /-- ORI (R162): Or with an immediate. -/
  | ori (k : BitVec 12) (a : BitVec 5) (d : BitVec 5)
  /-- XORI (R162): Exclusive or with an immediate. -/
  | xori (k : BitVec 12) (a : BitVec 5) (d : BitVec 5)
  /-- SLTI (R162): Signed set-less-than an immediate. -/
  | slti (k : BitVec 12) (a : BitVec 5) (d : BitVec 5)
  /-- SLTIU (R162): Unsigned set-less-than a sign-extended immediate. -/
  | sltiu (k : BitVec 12) (a : BitVec 5) (d : BitVec 5)
  /-- SLLI (R162): Left shift by an immediate count. -/
  | slli (s : BitVec 6) (a : BitVec 5) (d : BitVec 5)
  /-- SRLI (R162): Logical right shift by an immediate count. -/
  | srli (s : BitVec 6) (a : BitVec 5) (d : BitVec 5)
  /-- SRAI (R162): Arithmetic right shift by an immediate count. -/
  | srai (s : BitVec 6) (a : BitVec 5) (d : BitVec 5)
  /-- MINI (R162): Signed minimum with a 10-bit immediate. -/
  | mini (k : BitVec 10) (a : BitVec 5) (d : BitVec 5)
  /-- MAXI (R162): Signed maximum with a 10-bit immediate. -/
  | maxi (k : BitVec 10) (a : BitVec 5) (d : BitVec 5)
  /-- MINUI (R162): Unsigned minimum with a sign-extended 10-bit immediate. -/
  | minui (k : BitVec 10) (a : BitVec 5) (d : BitVec 5)
  /-- MAXUI (R162): Unsigned maximum with a sign-extended 10-bit immediate. -/
  | maxui (k : BitVec 10) (a : BitVec 5) (d : BitVec 5)
  /-- ADDIW (R162): 32-bit add of an immediate, sign-extended. -/
  | addiw (k : BitVec 12) (a : BitVec 5) (d : BitVec 5)
  /-- LUI (R163): Loads a 20-bit immediate shifted left by 12, sign-extended. -/
  | lui (i : BitVec 20) (d : BitVec 5)
  /-- MUL (R165): Low 64 bits of a product. -/
  | mul (f : BitVec 1) (eb : BitVec 1) (ea : BitVec 1) (b : BitVec 5) (a : BitVec 5) (d : BitVec 5)
  /-- MULH (R165): High 64 bits of a signed product. -/
  | mulh (f : BitVec 1) (eb : BitVec 1) (ea : BitVec 1) (b : BitVec 5) (a : BitVec 5) (d : BitVec 5)
  /-- MULHU (R165): High 64 bits of an unsigned product. -/
  | mulhu (f : BitVec 1) (eb : BitVec 1) (ea : BitVec 1) (b : BitVec 5) (a : BitVec 5) (d : BitVec 5)
  /-- DIV (R165): Signed division. -/
  | div (f : BitVec 1) (eb : BitVec 1) (ea : BitVec 1) (b : BitVec 5) (a : BitVec 5) (d : BitVec 5)
  /-- DIVU (R165): Unsigned division. -/
  | divu (f : BitVec 1) (eb : BitVec 1) (ea : BitVec 1) (b : BitVec 5) (a : BitVec 5) (d : BitVec 5)
  /-- REM (R165): Signed remainder. -/
  | rem (f : BitVec 1) (eb : BitVec 1) (ea : BitVec 1) (b : BitVec 5) (a : BitVec 5) (d : BitVec 5)
  /-- REMU (R165): Unsigned remainder. -/
  | remu (f : BitVec 1) (eb : BitVec 1) (ea : BitVec 1) (b : BitVec 5) (a : BitVec 5) (d : BitVec 5)
  /-- BEQ (R169): Branch if equal. -/
  | beq (o : BitVec 12) (b : BitVec 5) (a : BitVec 5)
  /-- BNE (R169): Branch if not equal. -/
  | bne (o : BitVec 12) (b : BitVec 5) (a : BitVec 5)
  /-- BLT (R169): Branch if signed less than. -/
  | blt (o : BitVec 12) (b : BitVec 5) (a : BitVec 5)
  /-- BGE (R169): Branch if signed greater or equal. -/
  | bge (o : BitVec 12) (b : BitVec 5) (a : BitVec 5)
  /-- BLTU (R169): Branch if unsigned less than. -/
  | bltu (o : BitVec 12) (b : BitVec 5) (a : BitVec 5)
  /-- BGEU (R169): Branch if unsigned greater or equal. -/
  | bgeu (o : BitVec 12) (b : BitVec 5) (a : BitVec 5)
  /-- JAL (R170): Jumps by a signed offset and links to x26. -/
  | jal (i : BitVec 25)
  /-- JALR (R170): Jumps to a register plus offset and links to xd, trapping on an odd target. -/
  | jalr (f : BitVec 1) (ea : BitVec 1) (k : BitVec 12) (a : BitVec 5) (d : BitVec 5)
  /-- LOOP (R172): Ends one pass of a counted loop, rotating the rotating registers and branching while passes remain. -/
  | loop (k : BitVec 12)
  /-- LCSET (R172): Sets the kernel and drain counts of a counted loop. -/
  | lcset (c : BitVec 8) (a : BitVec 5)
  /-- FOLLOW (R173): Opens a follow window on the leader or attaches a follower to the leader's stream. -/
  | follow
  /-- LD_B (R83): Loads a byte or sub-byte element, sign-extended, through a capability. -/
  | ldB (f : BitVec 1) (eb : BitVec 1) (ea : BitVec 1) (j : BitVec 5) (i : BitVec 5) (c : BitVec 4) (d : BitVec 5)
  /-- LD_BU (R83): Loads a byte or sub-byte element, zero-extended. -/
  | ldBu (f : BitVec 1) (eb : BitVec 1) (ea : BitVec 1) (j : BitVec 5) (i : BitVec 5) (c : BitVec 4) (d : BitVec 5)
  /-- LD_H (R83): Loads a half, sign-extended. -/
  | ldH (f : BitVec 1) (eb : BitVec 1) (ea : BitVec 1) (j : BitVec 5) (i : BitVec 5) (c : BitVec 4) (d : BitVec 5)
  /-- LD_HU (R83): Loads a half, zero-extended. -/
  | ldHu (f : BitVec 1) (eb : BitVec 1) (ea : BitVec 1) (j : BitVec 5) (i : BitVec 5) (c : BitVec 4) (d : BitVec 5)
  /-- LD_W (R83): Loads a word, sign-extended. -/
  | ldW (f : BitVec 1) (eb : BitVec 1) (ea : BitVec 1) (j : BitVec 5) (i : BitVec 5) (c : BitVec 4) (d : BitVec 5)
  /-- LD_WU (R83): Loads a word, zero-extended. -/
  | ldWu (f : BitVec 1) (eb : BitVec 1) (ea : BitVec 1) (j : BitVec 5) (i : BitVec 5) (c : BitVec 4) (d : BitVec 5)
  /-- LD_D (R83): Loads a double. -/
  | ldD (f : BitVec 1) (eb : BitVec 1) (ea : BitVec 1) (j : BitVec 5) (i : BitVec 5) (c : BitVec 4) (d : BitVec 5)
  /-- ST_B (R83): Stores a byte or sub-byte element through a capability. -/
  | stB (f : BitVec 1) (eb : BitVec 1) (ea : BitVec 1) (j : BitVec 5) (i : BitVec 5) (c : BitVec 4) (d : BitVec 5)
  /-- ST_H (R83): Stores a half. -/
  | stH (f : BitVec 1) (eb : BitVec 1) (ea : BitVec 1) (j : BitVec 5) (i : BitVec 5) (c : BitVec 4) (d : BitVec 5)
  /-- ST_W (R83): Stores a word. -/
  | stW (f : BitVec 1) (eb : BitVec 1) (ea : BitVec 1) (j : BitVec 5) (i : BitVec 5) (c : BitVec 4) (d : BitVec 5)
  /-- ST_D (R83): Stores a double. -/
  | stD (f : BitVec 1) (eb : BitVec 1) (ea : BitVec 1) (j : BitVec 5) (i : BitVec 5) (c : BitVec 4) (d : BitVec 5)
  /-- LDV (R85): Loads a vector along dimension 0. -/
  | ldv (j : BitVec 5) (i : BitVec 5) (c : BitVec 4) (v : BitVec 6)
  /-- LDV_S (R85): Loads a vector along dimension 1. -/
  | ldvS (j : BitVec 5) (i : BitVec 5) (c : BitVec 4) (v : BitVec 6)
  /-- STV (R85): Stores a vector along dimension 0. -/
  | stv (j : BitVec 5) (i : BitVec 5) (c : BitVec 4) (v : BitVec 6)
  /-- STV_S (R85): Stores a vector along dimension 1. -/
  | stvS (j : BitVec 5) (i : BitVec 5) (c : BitVec 4) (v : BitVec 6)
  /-- CSLICE (R90): Narrows one dimension of a capability, optionally dropping the outermost. -/
  | cslice (f : BitVec 1) (eb : BitVec 1) (b : BitVec 5) (a : BitVec 4) (d : BitVec 4)
  /-- CSTEP (R90): Multiplies a dimension's stride and divides its extent. -/
  | cstep (f : BitVec 1) (eb : BitVec 1) (b : BitVec 5) (a : BitVec 4) (d : BitVec 4)
  /-- CPERM (R90): Permutes the dimensions of a capability. -/
  | cperm (f : BitVec 1) (eb : BitVec 1) (b : BitVec 5) (a : BitVec 4) (d : BitVec 4)
  /-- CFOLD (R90): Merges two dimensions or splits one. -/
  | cfold (f : BitVec 1) (eb : BitVec 1) (b : BitVec 5) (a : BitVec 4) (d : BitVec 4)
  /-- CRESTRICT (R91): Ands the permission field with a mask. -/
  | crestrict (f : BitVec 1) (eb : BitVec 1) (b : BitVec 5) (a : BitVec 4) (d : BitVec 4)
  /-- CSCOPE (R91): Narrows the scope of a capability. -/
  | cscope (f : BitVec 1) (eb : BitVec 1) (b : BitVec 5) (a : BitVec 4) (d : BitVec 4)
  /-- CFMT (R91): Changes the element format of a capability under the cfmt table. -/
  | cfmt (f : BitVec 1) (eb : BitVec 1) (b : BitVec 5) (a : BitVec 4) (d : BitVec 4)
  /-- CGET (R92): Writes a field of a capability register to a scalar register. -/
  | cget (n : BitVec 5) (a : BitVec 4) (d : BitVec 5)
  /-- CMOVE (R92): Copies a capability register, sealed or not, with its tag. -/
  | cmove (a : BitVec 4) (d : BitVec 4)
  /-- CSEAL (R93): Seals a capability under a sealing authority. -/
  | cseal (b : BitVec 4) (a : BitVec 4) (d : BitVec 4)
  /-- CLC (R86): Loads a capability granule with its tag, under the load barrier. -/
  | clc (f : BitVec 1) (eb : BitVec 1) (ea : BitVec 1) (j : BitVec 5) (i : BitVec 5) (c : BitVec 4) (d : BitVec 4)
  /-- CSC (R86): Stores a capability with its tag, checking SC and store scope. -/
  | csc (f : BitVec 1) (eb : BitVec 1) (ea : BitVec 1) (j : BitVec 5) (i : BitVec 5) (c : BitVec 4) (d : BitVec 4)
  /-- CTAG (R86): Reads the tag of the granule holding an element. -/
  | ctag (f : BitVec 1) (eb : BitVec 1) (ea : BitVec 1) (j : BitVec 5) (i : BitVec 5) (c : BitVec 4) (d : BitVec 5)
  /-- CCALL (R100): Calls a compartment through a sealed code and data pair, pushing a return frame. -/
  | ccall (b : BitVec 4) (a : BitVec 4) (n : BitVec 5)
  /-- CRET (R101): Returns from a capability call, checking the token and popping the frame. -/
  | cret (n : BitVec 5)
  /-- CUNSEAL (R102): Unseals a capability with a sealing authority of its type. -/
  | cunseal (b : BitVec 4) (a : BitVec 4) (d : BitVec 4)
  /-- SEND_RQ (R249): Sends a message on the request network. -/
  | sendRq (f : BitVec 1) (eb : BitVec 1) (ea : BitVec 1) (b : BitVec 5) (a : BitVec 5) (d : BitVec 4)
  /-- SEND_RP (R249): Sends a message on the reply network. -/
  | sendRp (f : BitVec 1) (eb : BitVec 1) (ea : BitVec 1) (b : BitVec 5) (a : BitVec 5) (d : BitVec 4)
  /-- SEND_SY (R249): Sends a message on the system network. -/
  | sendSy (f : BitVec 1) (eb : BitVec 1) (ea : BitVec 1) (b : BitVec 5) (a : BitVec 5) (d : BitVec 4)
  /-- SENDN_N (R249): Sends a message to the north neighbour. -/
  | sendnN (f : BitVec 1) (eb : BitVec 1) (ea : BitVec 1) (b : BitVec 5) (a : BitVec 5) (d : BitVec 4)
  /-- SENDN_E (R249): Sends a message to the east neighbour. -/
  | sendnE (f : BitVec 1) (eb : BitVec 1) (ea : BitVec 1) (b : BitVec 5) (a : BitVec 5) (d : BitVec 4)
  /-- SENDN_S (R249): Sends a message to the south neighbour. -/
  | sendnS (f : BitVec 1) (eb : BitVec 1) (ea : BitVec 1) (b : BitVec 5) (a : BitVec 5) (d : BitVec 4)
  /-- SENDN_W (R249): Sends a message to the west neighbour. -/
  | sendnW (f : BitVec 1) (eb : BitVec 1) (ea : BitVec 1) (b : BitVec 5) (a : BitVec 5) (d : BitVec 4)
  /-- SENDV (R249): Sends a message whose payload comes from vector registers. -/
  | sendv (f : BitVec 1) (eb : BitVec 1) (ea : BitVec 1) (b : BitVec 5) (a : BitVec 5)
  /-- REPLY (R251): Replies to the message that started the task, with a header built from ktask. -/
  | reply (f : BitVec 1) (eb : BitVec 1) (ea : BitVec 1) (b : BitVec 5) (n : BitVec 3) (d : BitVec 4)
  /-- BOUNCE (R252): Refuses the current message, returning or dropping it, and ends the task. -/
  | bounce
  /-- DONE (R35): Ends the current task, freeing its context and releasing its lease. -/
  | done
  /-- CHMASK (R253): Changes selected channel mask bits and returns the old mask. -/
  | chmask (f : BitVec 1) (eb : BitVec 1) (ea : BitVec 1) (b : BitVec 5) (a : BitVec 5) (d : BitVec 5)
  /-- CHPRIO (R253): Sets one channel's priority and returns the old one. -/
  | chprio (f : BitVec 1) (eb : BitVec 1) (ea : BitVec 1) (b : BitVec 5) (a : BitVec 5) (d : BitVec 5)
  /-- ENQ (R297): Reads a task record and sends it to the slice agent chosen by its affinity key. -/
  | enq (f : BitVec 1) (eb : BitVec 1) (b : BitVec 5) (a : BitVec 4) (d : BitVec 5)
  /-- LAUNCH (R302): Reads a launch record and sends it to the quay's harbourmaster. -/
  | launch (f : BitVec 1) (eb : BitVec 1) (b : BitVec 5) (a : BitVec 4) (d : BitVec 5)
  /-- GDONE (R304): Marks the executing core as done for its group. -/
  | gdone
  /-- FENCE (R238): Acquire, release or both at a scope, holding later issue until complete. -/
  | fence (s : BitVec 3) (k : BitVec 2)
  /-- DCFENCE (R243): Joins the compressed and uncompressed views over a capability's box. -/
  | dcfence (a : BitVec 4) (d : BitVec 5)
  /-- PINIT (R284): Sends a request to mark a double as a phase object with an expected count. -/
  | pinit (n : BitVec 12) (a : BitVec 4) (d : BitVec 5)
  /-- PARRIVE_RLX (R284): Sends a relaxed arrival to a phase object. -/
  | parriveRlx (a : BitVec 4) (d : BitVec 5)
  /-- PARRIVE_REL (R286): Releases at a scope and sends an arrival to a phase object. -/
  | parriveRel (s : BitVec 3) (a : BitVec 4) (d : BitVec 5)
  /-- PWAIT (R285): Sends a continuation registration for a phase generation. -/
  | pwait (a : BitVec 4) (d : BitVec 5)
  /-- PINVAL (R284): Sends a request to unmark a phase object, aborting its continuations. -/
  | pinval (a : BitVec 4) (d : BitVec 5)
  /-- BOOMSET (R289): Arms or disarms a boom slot with a rectangle. -/
  | boomset (c : BitVec 4) (s : BitVec 2) (a : BitVec 5) (d : BitVec 5)
  /-- BOOM_RLX (R290): Makes the core's relaxed arrival at a boom slot. -/
  | boomRlx (s : BitVec 2) (d : BitVec 5)
  /-- BOOM_REL (R290): Releases at the rectangle's scope and arrives at a boom slot. -/
  | boomRel (s : BitVec 2) (d : BitVec 5)
  /-- AADD (R277): Atomic add performed at the owner. -/
  | aadd (eb : BitVec 1) (b : BitVec 5) (a : BitVec 4) (d : BitVec 5)
  /-- AMIN (R277): Atomic signed minimum. -/
  | amin (eb : BitVec 1) (b : BitVec 5) (a : BitVec 4) (d : BitVec 5)
  /-- AMAX (R277): Atomic signed maximum. -/
  | amax (eb : BitVec 1) (b : BitVec 5) (a : BitVec 4) (d : BitVec 5)
  /-- AMINU (R277): Atomic unsigned minimum. -/
  | aminu (eb : BitVec 1) (b : BitVec 5) (a : BitVec 4) (d : BitVec 5)
  /-- AMAXU (R277): Atomic unsigned maximum. -/
  | amaxu (eb : BitVec 1) (b : BitVec 5) (a : BitVec 4) (d : BitVec 5)
  /-- AAND (R277): Atomic and. -/
  | aand (eb : BitVec 1) (b : BitVec 5) (a : BitVec 4) (d : BitVec 5)
  /-- AOR (R277): Atomic or. -/
  | aor (eb : BitVec 1) (b : BitVec 5) (a : BitVec 4) (d : BitVec 5)
  /-- AXOR (R277): Atomic exclusive or. -/
  | axor (eb : BitVec 1) (b : BitVec 5) (a : BitVec 4) (d : BitVec 5)
  /-- ASWP (R277): Atomic swap. -/
  | aswp (eb : BitVec 1) (b : BitVec 5) (a : BitVec 4) (d : BitVec 5)
  /-- ACAS (R277): Atomic compare and swap. -/
  | acas (eb : BitVec 1) (b : BitVec 5) (a : BitVec 4) (d : BitVec 5)
  /-- AFADD (R277): Atomic FP32 add rounded RNE. -/
  | afadd (eb : BitVec 1) (b : BitVec 5) (a : BitVec 4) (d : BitVec 5)
  /-- ARED_V_ADD (R280): Adds the elements of a vector into memory as separate atomics. -/
  | aredVAdd (b : BitVec 5) (a : BitVec 4) (d : BitVec 5)
  /-- ARED_V_MAX (R280): Folds vector elements into memory by maximum. -/
  | aredVMax (b : BitVec 5) (a : BitVec 4) (d : BitVec 5)
  /-- ARED_V_MIN (R280): Folds vector elements into memory by minimum. -/
  | aredVMin (b : BitVec 5) (a : BitVec 4) (d : BitVec 5)
  /-- ARED_V_FADD (R280): Adds FP32 or BF16 vector elements into memory, rounded RNE. -/
  | aredVFadd (b : BitVec 5) (a : BitVec 4) (d : BitVec 5)
  /-- CPSET_SRC (R259): Fills the cp.src shadow of a lighter channel. -/
  | cpsetSrc (l : BitVec 1) (c : BitVec 4)
  /-- CPSET_DST (R259): Fills the cp.dst shadow. -/
  | cpsetDst (l : BitVec 1) (c : BitVec 4)
  /-- CPSET_AUX (R259): Fills the cp.aux shadow. -/
  | cpsetAux (l : BitVec 1) (c : BitVec 4)
  /-- CPSET_CTL (R259): Fills the cp.ctl shadow from a scalar register. -/
  | cpsetCtl (x : BitVec 5) (l : BitVec 1)
  /-- CPSET_MLO (R259): Fills the cp.mlo berth-mask shadow. -/
  | cpsetMlo (x : BitVec 5) (l : BitVec 1)
  /-- CPSET_MHI (R259): Fills the cp.mhi berth-mask shadow. -/
  | cpsetMhi (x : BitVec 5) (l : BitVec 1)
  /-- CPGO (R264): Starts a box copy on a lighter channel and returns its id or a refusal. -/
  | cpgo (l : BitVec 1) (d : BitVec 5)
  /-- CPSTAT (R273): Reads the state or fault record of a lighter channel. -/
  | cpstat (s : BitVec 4) (l : BitVec 1) (d : BitVec 5)
  /-- CPNOTE (R272): Registers a completion note for a transfer id. -/
  | cpnote (x : BitVec 5) (l : BitVec 1) (d : BitVec 5)
  /-- CPGATH (R266): Starts a gather of rows through an index list. -/
  | cpgath (l : BitVec 1) (d : BitVec 5)
  /-- CPSCAT (R266): Starts a scatter of rows through an index list. -/
  | cpscat (l : BitVec 1) (d : BitVec 5)
  /-- CPCAST (R267): Starts a multicast of a tile to the berths of a berth mask. -/
  | cpcast (l : BitVec 1) (d : BitVec 5)
  /-- CPRED (R268): Starts an element-wise atomic add of src into dst. -/
  | cpred (l : BitVec 1) (d : BitVec 5)
  /-- MLEASE (R209): Requests the matrix lease for n commands. -/
  | mlease (n : BitVec 8) (d : BitVec 5)
  /-- MREL (R210): Ends the context's lease or withdraws its pending request. -/
  | mrel
  /-- MCFG (R211): Sets the context's matrix completion channel and class. -/
  | mcfg (x : BitVec 5)
  /-- MMA (R212): Commands C := C + A·B on the matrix array. -/
  | mma (c : BitVec 4) (b : BitVec 4) (a : BitVec 4) (t : BitVec 5)
  /-- MMA_Z (R212): Commands C := A·B on the matrix array. -/
  | mmaZ (c : BitVec 4) (b : BitVec 4) (a : BitVec 4) (t : BitVec 5)
  /-- MAD (R215): Commands the fused adapter product with per-row adapters. -/
  | mad (x : BitVec 5) (c : BitVec 4) (b : BitVec 4) (a : BitVec 4) (t : BitVec 4)
  /-- MCVT (R220): Commands conversion of an FP32 tile into an A-buffer tile. -/
  | mcvt (x : BitVec 5) (c : BitVec 4) (a : BitVec 4) (t : BitVec 5)
  /-- MZERO (R221): Commands zeroing of an FP32 tile. -/
  | mzero (c : BitVec 4) (t : BitVec 5)
  /-- NALLOC (R329): Allocates a node from the core's free list, refilling from the pool. -/
  | nalloc (a : BitVec 4) (d : BitVec 5)
  /-- NFREE (R329): Frees a node onto the core's free list, spilling a chunk when full. -/
  | nfree (x : BitVec 5) (a : BitVec 4)
  /-- NLINK (R331): Joins two port ends in one rewiring step, pushing a new active pair. -/
  | nlink (x : BitVec 5) (a : BitVec 4) (d : BitVec 5)
  /-- NLOAD (R330): Reads a word of a node at its home. -/
  | nload (x : BitVec 5) (w : BitVec 3) (a : BitVec 4) (d : BitVec 5)
  /-- NSTORE (R330): Writes a word of a node at its home. -/
  | nstore (x : BitVec 5) (w : BitVec 3) (a : BitVec 4) (d : BitVec 5)
  /-- NPUSH (R333): Pushes a pair of nodes into the bag or the pair overflow. -/
  | npush (x : BitVec 5) (a : BitVec 4)
  /-- NBAG_BIND (R337): Binds the launch's heap and pool top. -/
  | nbagBind (x : BitVec 5) (a : BitVec 4) (d : BitVec 5)
  /-- SEXP2 (R195): Queues 2^x on four FP32 lanes in the SFU. -/
  | sexp2 (m : BitVec 3) (a : BitVec 6) (v : BitVec 6)
  /-- SLOG2 (R195): Queues log2 x in the SFU. -/
  | slog2 (m : BitVec 3) (a : BitVec 6) (v : BitVec 6)
  /-- SRCP (R195): Queues 1/x in the SFU. -/
  | srcp (m : BitVec 3) (a : BitVec 6) (v : BitVec 6)
  /-- SRSQRT (R195): Queues 1/sqrt x in the SFU. -/
  | srsqrt (m : BitVec 3) (a : BitVec 6) (v : BitVec 6)
  /-- SSQRT (R195): Queues sqrt x in the SFU. -/
  | ssqrt (m : BitVec 3) (a : BitVec 6) (v : BitVec 6)
  /-- SSIN (R195): Queues sin(pi x) in the SFU. -/
  | ssin (m : BitVec 3) (a : BitVec 6) (v : BitVec 6)
  /-- SCOS (R195): Queues cos(pi x) in the SFU. -/
  | scos (m : BitVec 3) (a : BitVec 6) (v : BitVec 6)
  /-- FADD (R166): Scalar FP32 add. -/
  | fadd (f : BitVec 1) (eb : BitVec 1) (ea : BitVec 1) (b : BitVec 5) (a : BitVec 5) (d : BitVec 5)
  /-- FSUB (R166): Scalar FP32 subtract. -/
  | fsub (f : BitVec 1) (eb : BitVec 1) (ea : BitVec 1) (b : BitVec 5) (a : BitVec 5) (d : BitVec 5)
  /-- FMUL (R166): Scalar FP32 multiply. -/
  | fmul (f : BitVec 1) (eb : BitVec 1) (ea : BitVec 1) (b : BitVec 5) (a : BitVec 5) (d : BitVec 5)
  /-- FMADD (R166): Scalar FP32 fused multiply-add into xd. -/
  | fmadd (f : BitVec 1) (eb : BitVec 1) (ea : BitVec 1) (b : BitVec 5) (a : BitVec 5) (d : BitVec 5)
  /-- FMIN (R168): Scalar FP32 minimum. -/
  | fmin (f : BitVec 1) (eb : BitVec 1) (ea : BitVec 1) (b : BitVec 5) (a : BitVec 5) (d : BitVec 5)
  /-- FMAX (R168): Scalar FP32 maximum. -/
  | fmax (f : BitVec 1) (eb : BitVec 1) (ea : BitVec 1) (b : BitVec 5) (a : BitVec 5) (d : BitVec 5)
  /-- FCMP_EQ (R168): FP32 compare equal. -/
  | fcmpEq (f : BitVec 1) (eb : BitVec 1) (ea : BitVec 1) (b : BitVec 5) (a : BitVec 5) (d : BitVec 5)
  /-- FCMP_LT (R168): FP32 compare less than. -/
  | fcmpLt (f : BitVec 1) (eb : BitVec 1) (ea : BitVec 1) (b : BitVec 5) (a : BitVec 5) (d : BitVec 5)
  /-- FCMP_LE (R168): FP32 compare less or equal. -/
  | fcmpLe (f : BitVec 1) (eb : BitVec 1) (ea : BitVec 1) (b : BitVec 5) (a : BitVec 5) (d : BitVec 5)
  /-- FCMP_UN (R168): FP32 unordered test. -/
  | fcmpUn (f : BitVec 1) (eb : BitVec 1) (ea : BitVec 1) (b : BitVec 5) (a : BitVec 5) (d : BitVec 5)
  /-- FCVT_L_F (R166): Converts FP32 to a signed 64-bit integer. -/
  | fcvtLF (f : BitVec 1) (ea : BitVec 1) (a : BitVec 5) (d : BitVec 5)
  /-- FCVT_LU_F (R166): Converts FP32 to an unsigned 64-bit integer. -/
  | fcvtLuF (f : BitVec 1) (ea : BitVec 1) (a : BitVec 5) (d : BitVec 5)
  /-- FCVT_F_L (R166): Converts a signed 64-bit integer to FP32. -/
  | fcvtFL (f : BitVec 1) (ea : BitVec 1) (a : BitVec 5) (d : BitVec 5)
  /-- FCVT_F_LU (R166): Converts an unsigned 64-bit integer to FP32. -/
  | fcvtFLu (f : BitVec 1) (ea : BitVec 1) (a : BitVec 5) (d : BitVec 5)
  /-- FSGNJ (R168): FP32 sign injection. -/
  | fsgnj (f : BitVec 1) (eb : BitVec 1) (ea : BitVec 1) (b : BitVec 5) (a : BitVec 5) (d : BitVec 5)
  /-- FSGNJN (R168): FP32 negated sign injection. -/
  | fsgnjn (f : BitVec 1) (eb : BitVec 1) (ea : BitVec 1) (b : BitVec 5) (a : BitVec 5) (d : BitVec 5)
  /-- FSGNJX (R168): FP32 xor sign injection. -/
  | fsgnjx (f : BitVec 1) (eb : BitVec 1) (ea : BitVec 1) (b : BitVec 5) (a : BitVec 5) (d : BitVec 5)
  /-- VADD (R180): Vector integer add. -/
  | vadd (m : BitVec 3) (b : BitVec 6) (a : BitVec 6) (v : BitVec 6) (w : BitVec 2)
  /-- VSUB (R180): Vector integer subtract. -/
  | vsub (m : BitVec 3) (b : BitVec 6) (a : BitVec 6) (v : BitVec 6) (w : BitVec 2)
  /-- VADDS (R180): Vector signed saturating add. -/
  | vadds (m : BitVec 3) (b : BitVec 6) (a : BitVec 6) (v : BitVec 6) (w : BitVec 2)
  /-- VADDUS (R180): Vector unsigned saturating add. -/
  | vaddus (m : BitVec 3) (b : BitVec 6) (a : BitVec 6) (v : BitVec 6) (w : BitVec 2)
  /-- VSUBS (R180): Vector signed saturating subtract. -/
  | vsubs (m : BitVec 3) (b : BitVec 6) (a : BitVec 6) (v : BitVec 6) (w : BitVec 2)
  /-- VSUBUS (R180): Vector unsigned saturating subtract. -/
  | vsubus (m : BitVec 3) (b : BitVec 6) (a : BitVec 6) (v : BitVec 6) (w : BitVec 2)
  /-- VMUL (R180): Vector low product. -/
  | vmul (m : BitVec 3) (b : BitVec 6) (a : BitVec 6) (v : BitVec 6) (w : BitVec 2)
  /-- VMULH (R180): Vector signed high product. -/
  | vmulh (m : BitVec 3) (b : BitVec 6) (a : BitVec 6) (v : BitVec 6) (w : BitVec 2)
  /-- VMIN (R180): Vector signed minimum. -/
  | vmin (m : BitVec 3) (b : BitVec 6) (a : BitVec 6) (v : BitVec 6) (w : BitVec 2)
  /-- VMAX (R180): Vector signed maximum. -/
  | vmax (m : BitVec 3) (b : BitVec 6) (a : BitVec 6) (v : BitVec 6) (w : BitVec 2)
  /-- VMINU (R180): Vector unsigned minimum. -/
  | vminu (m : BitVec 3) (b : BitVec 6) (a : BitVec 6) (v : BitVec 6) (w : BitVec 2)
  /-- VMAXU (R180): Vector unsigned maximum. -/
  | vmaxu (m : BitVec 3) (b : BitVec 6) (a : BitVec 6) (v : BitVec 6) (w : BitVec 2)
  /-- VSLL (R180): Vector left shift. -/
  | vsll (m : BitVec 3) (b : BitVec 6) (a : BitVec 6) (v : BitVec 6) (w : BitVec 2)
  /-- VSRL (R180): Vector logical right shift. -/
  | vsrl (m : BitVec 3) (b : BitVec 6) (a : BitVec 6) (v : BitVec 6) (w : BitVec 2)
  /-- VSRA (R180): Vector arithmetic right shift. -/
  | vsra (m : BitVec 3) (b : BitVec 6) (a : BitVec 6) (v : BitVec 6) (w : BitVec 2)
  /-- VMULHU (R181): Vector unsigned high product. -/
  | vmulhu (b : BitVec 6) (a : BitVec 6) (v : BitVec 6) (w : BitVec 2)
  /-- VAVGU (R181): Vector unsigned rounded average. -/
  | vavgu (b : BitVec 6) (a : BitVec 6) (v : BitVec 6) (w : BitVec 2)
  /-- VABS (R181): Vector saturating absolute value. -/
  | vabs (a : BitVec 6) (v : BitVec 6) (w : BitVec 2)
  /-- VAND (R181): Vector and. -/
  | vand (b : BitVec 6) (a : BitVec 6) (v : BitVec 6) (w : BitVec 2)
  /-- VOR (R181): Vector or. -/
  | vor (b : BitVec 6) (a : BitVec 6) (v : BitVec 6) (w : BitVec 2)
  /-- VXOR (R181): Vector exclusive or. -/
  | vxor (b : BitVec 6) (a : BitVec 6) (v : BitVec 6) (w : BitVec 2)
  /-- VANDN (R181): Vector and-not. -/
  | vandn (b : BitVec 6) (a : BitVec 6) (v : BitVec 6) (w : BitVec 2)
  /-- VFADD (R182): Vector floating-point add. -/
  | vfadd (m : BitVec 3) (b : BitVec 6) (a : BitVec 6) (v : BitVec 6) (w : BitVec 2)
  /-- VFSUB (R182): Vector floating-point subtract. -/
  | vfsub (m : BitVec 3) (b : BitVec 6) (a : BitVec 6) (v : BitVec 6) (w : BitVec 2)
  /-- VFMUL (R182): Vector floating-point multiply. -/
  | vfmul (m : BitVec 3) (b : BitVec 6) (a : BitVec 6) (v : BitVec 6) (w : BitVec 2)
  /-- VFMA (R182): Vector fused multiply-add into vd. -/
  | vfma (m : BitVec 3) (b : BitVec 6) (a : BitVec 6) (v : BitVec 6) (w : BitVec 2)
  /-- VFMIN (R182): Vector floating-point minimum. -/
  | vfmin (m : BitVec 3) (b : BitVec 6) (a : BitVec 6) (v : BitVec 6) (w : BitVec 2)
  /-- VFMAX (R182): Vector floating-point maximum. -/
  | vfmax (m : BitVec 3) (b : BitVec 6) (a : BitVec 6) (v : BitVec 6) (w : BitVec 2)
  /-- VFABS (R182): Vector floating-point absolute value. -/
  | vfabs (m : BitVec 3) (a : BitVec 6) (v : BitVec 6) (w : BitVec 2)
  /-- VFNEG (R182): Vector floating-point negation. -/
  | vfneg (m : BitVec 3) (a : BitVec 6) (v : BitVec 6) (w : BitVec 2)
  /-- VCVT (R191): Converts one part of a vector between formats under a control word. -/
  | vcvt (m : BitVec 3) (b : BitVec 5) (a : BitVec 6) (v : BitVec 6)
  /-- VMXSC (R192): Computes an MX or PS block scale from a largest magnitude. -/
  | vmxsc (f : BitVec 6) (a : BitVec 5) (d : BitVec 5)
  /-- VSHUF (R186): Byte shuffle by index vector. -/
  | vshuf (m : BitVec 3) (b : BitVec 6) (a : BitVec 6) (v : BitVec 6)
  /-- VZIP_LO (R186): Interleaves the low halves of two vectors. -/
  | vzipLo (w : BitVec 3) (b : BitVec 6) (a : BitVec 6) (v : BitVec 6)
  /-- VZIP_HI (R186): Interleaves the high halves of two vectors. -/
  | vzipHi (w : BitVec 3) (b : BitVec 6) (a : BitVec 6) (v : BitVec 6)
  /-- VUNZIP_EV (R186): Gathers even elements of two vectors. -/
  | vunzipEv (w : BitVec 3) (b : BitVec 6) (a : BitVec 6) (v : BitVec 6)
  /-- VUNZIP_OD (R186): Gathers odd elements of two vectors. -/
  | vunzipOd (w : BitVec 3) (b : BitVec 6) (a : BitVec 6) (v : BitVec 6)
  /-- VBCAST (R186): Broadcasts element k. -/
  | vbcast (w : BitVec 3) (k : BitVec 6) (a : BitVec 6) (v : BitVec 6)
  /-- VEXT_LO (R186): Extracts 16 bytes from a 32-byte pair at offset 0 to 7. -/
  | vextLo (k : BitVec 3) (b : BitVec 6) (a : BitVec 6) (v : BitVec 6)
  /-- VEXT_HI (R186): Extracts 16 bytes from a 32-byte pair at offset 8 to 15. -/
  | vextHi (k : BitVec 3) (b : BitVec 6) (a : BitVec 6) (v : BitVec 6)
  /-- VSEL (R186): Selects bytes of two vectors by a mask. -/
  | vsel (s : BitVec 3) (b : BitVec 6) (a : BitVec 6) (v : BitVec 6)
  /-- VREDADD_INT (R188): Adds integer elements into a scalar accumulator. -/
  | vredaddInt (w : BitVec 2) (m : BitVec 3) (a : BitVec 6) (d : BitVec 5)
  /-- VREDMAX_INT (R188): Signed maximum of elements and a scalar accumulator. -/
  | vredmaxInt (w : BitVec 2) (m : BitVec 3) (a : BitVec 6) (d : BitVec 5)
  /-- VREDADD_F32 (R188): Ordered FP32 sum into a scalar accumulator. -/
  | vredaddF32 (m : BitVec 3) (a : BitVec 6) (d : BitVec 5)
  /-- VREDMAX_F32 (R188): FP32 maximum into a scalar accumulator. -/
  | vredmaxF32 (m : BitVec 3) (a : BitVec 6) (d : BitVec 5)
  /-- VREDAMAX (R192): Largest magnitude of elements and accumulator, for scale choice. -/
  | vredamax (m : BitVec 3) (b : BitVec 5) (a : BitVec 6) (d : BitVec 5)
  /-- VDOT4 (R189): Signed byte dot product accumulated per 32-bit lane. -/
  | vdot4 (m : BitVec 3) (b : BitVec 6) (a : BitVec 6) (v : BitVec 6)
  /-- VDOT2 (R189): BF16 pair dot product accumulated into FP32 lanes. -/
  | vdot2 (m : BitVec 3) (b : BitVec 6) (a : BitVec 6) (v : BitVec 6)
  /-- VCMP_EQ (R184): Element compare equal into a mask. -/
  | vcmpEq (t : BitVec 3) (b : BitVec 6) (a : BitVec 6) (d : BitVec 3)
  /-- VCMP_LT (R184): Element compare less than into a mask. -/
  | vcmpLt (t : BitVec 3) (b : BitVec 6) (a : BitVec 6) (d : BitVec 3)
  /-- VCMP_LE (R184): Element compare less or equal into a mask. -/
  | vcmpLe (t : BitVec 3) (b : BitVec 6) (a : BitVec 6) (d : BitVec 3)
  /-- VCMP_LTU (R184): Unsigned element compare less than into a mask. -/
  | vcmpLtu (t : BitVec 3) (b : BitVec 6) (a : BitVec 6) (d : BitVec 3)
  /-- VCMP_LEU (R184): Unsigned element compare less or equal into a mask. -/
  | vcmpLeu (t : BitVec 3) (b : BitVec 6) (a : BitVec 6) (d : BitVec 3)
  /-- VFCMP_UN (R184): Floating-point unordered test into a mask. -/
  | vfcmpUn (t : BitVec 3) (b : BitVec 6) (a : BitVec 6) (d : BitVec 3)
  /-- MAND (R185): Mask and. -/
  | mand (b : BitVec 3) (a : BitVec 3) (d : BitVec 3)
  /-- MOR (R185): Mask or. -/
  | mor (b : BitVec 3) (a : BitVec 3) (d : BitVec 3)
  /-- MXOR (R185): Mask exclusive or. -/
  | mxor (b : BitVec 3) (a : BitVec 3) (d : BitVec 3)
  /-- MANDN (R185): Mask and-not. -/
  | mandn (b : BitVec 3) (a : BitVec 3) (d : BitVec 3)
  /-- MNOT (R185): Mask not. -/
  | mnot (a : BitVec 3) (d : BitVec 3)
  /-- MMV_MX (R185): Moves a scalar's low 16 bits into a mask. -/
  | mmvMx (a : BitVec 5) (d : BitVec 3)
  /-- MMV_XM (R185): Moves a mask into a scalar register. -/
  | mmvXm (a : BitVec 3) (d : BitVec 5)
  /-- MPOP (R185): Counts the set bits of a mask. -/
  | mpop (a : BitVec 3) (d : BitVec 5)
  /-- VMV_XV (R187): Moves a vector element to a scalar register. -/
  | vmvXv (w : BitVec 3) (k : BitVec 6) (a : BitVec 6) (d : BitVec 5)
  /-- VMV_VX (R187): Broadcasts a scalar into active vector elements. -/
  | vmvVx (m : BitVec 3) (w : BitVec 2) (a : BitVec 5) (v : BitVec 6)
  /-- VLI (R187): Loads a sign-extended 12-bit immediate into every element. -/
  | vli (w : BitVec 3) (i : BitVec 12) (v : BitVec 6)
  /-- VMV (R187): Masked byte move between vector registers. -/
  | vmv (m : BitVec 3) (a : BitVec 6) (v : BitVec 6)
  /-- MESSAGE_LEAVES_SEND_QUEUE (R247): A queued message drains from a core's send queue into the mesh. -/
  | messageLeavesSendQueue (core vn : Nat)
  /-- MESSAGE_DELIVERY (R254): A message reaches its destination and goes to the inbox, pending table, spill queue or is undeliverable. -/
  | messageDelivery (idx : Nat)
  /-- TASK_START (R34): Selects a runnable channel for a free context and starts a task from its oldest message. -/
  | taskStart (core : Nat)
  /-- LINK_VALUE_ARRIVE (R51): A pushed link-port value enters the neighbour's inbound queue. -/
  | linkValueArrive (core dir : Nat) (vec : Bool)
  /-- LOAD_DELIVERY (R83): A load's data arrives and fills its destination register. -/
  | loadDelivery (req : Nat)
  /-- CLC_DELIVERY (R86): A capability load arrives, passes the load barrier and fills its destination. -/
  | clcDelivery (req : Nat)
  /-- SFU_REQUEST_START (R194): The SFU starts the request at the head of its queue. -/
  | sfuRequestStart (berth : Nat)
  /-- SFU_RESULT_DELIVERY (R195): An SFU result and its flags are delivered to the issuing context. -/
  | sfuResultDelivery (berth idx : Nat)
  /-- ATOMIC_SERVE (R277): An owner performs an atomic in the home order and replies with the old value. -/
  | atomicServe (req : Nat)
  /-- ATOMIC_REPLY_DELIVERY (R277): An atomic's reply fills its destination or acknowledges, possibly in an error state. -/
  | atomicReplyDelivery (req : Nat)
  /-- ARED_ELEMENT_UPDATE (R280): An owner performs one element update of an ared.v. -/
  | aredElementUpdate (req elem : Nat)
  /-- ARED_ACKNOWLEDGE (R280): The acknowledgement of an ared.v arrives once every element has been updated. -/
  | aredAcknowledge (req : Nat)
  /-- PHASE_OPERATION_SERVE (R284): An owner performs pinit, parrive, pwait or pinval on a phase double. -/
  | phaseOperationServe (req : Nat)
  /-- PHASE_STATUS_DELIVERY (R283): A phase status word fills the issuing context's register. -/
  | phaseStatusDelivery (req : Nat)
  /-- PHASE_PROTECTED_WRITE (R281): A store to a marked line is judged at the owner and traps with PHASE_PROT when it touches a phase. -/
  | phaseProtectedWrite (req : Nat)
  /-- ENQUEUE_SERVE (R298): A slice agent places a task record in the segment or spill ring or refuses it. -/
  | enqueueServe (req : Nat)
  /-- ENQ_STATUS_DELIVERY (R297): The enqueue status fills the enqueuing context's register. -/
  | enqStatusDelivery (req : Nat)
  /-- RECORD_DEQUEUE (R298): A slice agent dequeues a partition's head record into a reserved inbox entry. -/
  | recordDequeue (slice part : Nat)
  /-- INBOX_RESERVATION_GRANT (R389): A core grants a slice agent's reservation, immediately or once an entry frees. -/
  | inboxReservationGrant (core slice part : Nat)
  /-- LEASE_GRANT (R202): Grants the matrix lease to the head request once free and with power leave. -/
  | leaseGrant (berth : Nat)
  /-- LEAVE_REFUSAL_TIMEOUT (R202): After 200 clk without governor leave the lease request is refused with why 3. -/
  | leaveRefusalTimeout (berth : Nat)
  /-- POWER_LEAVE_RELEASE (R202): The array gives up power leave 256 clk after its last command with no lease or request. -/
  | powerLeaveRelease (berth : Nat)
  /-- LEASE_IDLE_EXPIRY (R203): A lease idle for 1,024 clk while another request waits ends and is requeued. -/
  | leaseIdleExpiry (berth : Nat)
  /-- MATRIX_COMMAND_START (R214): The next queued matrix command starts when the one ahead completes. -/
  | matrixCommandStart (berth : Nat)
  /-- MATRIX_COMMAND_COMPLETE (R222): A matrix command completes, its writes perform and any completion message is sent. -/
  | matrixCommandComplete (berth : Nat)
  /-- COPY_BEGIN (R257): The lighter starts the next copy of a channel in round-robin order. -/
  | copyBegin (berth : Nat)
  /-- COPY_ELEMENT_WRITE (R264): The lighter writes the next element of a running copy in destination order. -/
  | copyElementWrite (berth chan : Nat)
  /-- COPY_END (R270): A copy ends normally or with a fault, sending notes or its fault status. -/
  | copyEnd (berth chan : Nat)
  /-- CPCAST_BERTH_DONE (R267): A receiving berth finishes its tile, makes its boom arrival and sends its acknowledgement. -/
  | cpcastBerthDone (berth chan recv : Nat)
  /-- CPCAST_ACK_ARRIVAL (R267): The combined acknowledgement reaches the lighter and the multicast completes. -/
  | cpcastAckArrival (berth chan : Nat)
  /-- PF_RESP_WRITE (R128): Answers a fault-buffer entry with resolve or deny, or drops a stale response. -/
  | pfRespWrite (part : Nat) (value : BitVec 64)
  /-- TR_CMD_REPLAY_ALL (R127): Advances tr.gen, invalidates the fault buffer and retries every parked agent. -/
  | trCmdReplayAll (part : Nat)
  /-- TR_CMD_INVALIDATE_ALL (R122): Invalidates every TLB entry of the partition. -/
  | trCmdInvalidateAll (part : Nat)
  /-- TR_CMD_INVALIDATE_RANGE (R122): Invalidates TLB entries of a range. -/
  | trCmdInvalidateRange (part : Nat)
  /-- TR_CMD_HARVEST (R130): Clears and harvests dirty bits of a range into a bitmap. -/
  | trCmdHarvest (part : Nat)
  /-- TR_CMD_COMPLETE (R122): A TLB command finishes and busy clears. -/
  | trCmdComplete (part : Nat)
  /-- TR_ROOT_WRITE (R122): A write of tr.root first performs an implicit invalidate-all. -/
  | trRootWrite (part : Nat) (value : BitVec 64)
  /-- L2_LIMIT_WRITE (R132): Sets per-slice L2-direct limits, refusing overcommit and lowering splits. -/
  | l2LimitWrite (part quay : Nat) (value : BitVec 64)
  /-- L2_SPLIT_WRITE (R133): Grows or shrinks the partition's L2-direct split. -/
  | l2SplitWrite (part quay : Nat) (value : BitVec 64)
  /-- BANDWIDTH_PERIOD_START (R136): At each 1,024-clk period every partition's floor and ceiling credits are reset. -/
  | bandwidthPeriodStart
  /-- SWEEP_START (R110): A sweep begins, advancing begun and invalidating revocation-map caches. -/
  | sweepStart (part : Nat)
  /-- SWEEP_REGISTERS (R110): Clears tags of revoked capabilities in registers, frames, shadows, bindings and queues. -/
  | sweepRegisters (part : Nat)
  /-- SWEEP_LOCAL_STORES (R110): Clears revoked tags in local stores and A buffers. -/
  | sweepLocalStores (part : Nat)
  /-- SWEEP_MEMORY (R110): Clears revoked tags in L2 and memory at the tag cache. -/
  | sweepMemory (part : Nat)
  /-- SWEEP_END (R110): After earlier mads complete, advances ended with a release and applies deferred register writes. -/
  | sweepEnd (part : Nat)
  /-- DREDGER_REGISTER_WRITE (R105): Writes revocation registers, deferred to the end of a running sweep. -/
  | dredgerRegisterWrite (part off : Nat) (value : BitVec 64)
  /-- IRQ_INJECT (R138): Injects a virtual interrupt into a partition. -/
  | irqInject (value : BitVec 64)
  /-- HM_DOOR_WRITE (R303): Sends the launch record at the given address to the home quay's harbourmaster. -/
  | hmDoorWrite (part : Nat) (glob : Bool) (value : BitVec 64)
  /-- LAUNCH_REQUEST_SERVE (R302): The harbourmaster checks a launch record and accepts or refuses it. -/
  | launchRequestServe (req : Nat)
  /-- LAUNCH_STATUS_DELIVERY (R302): The launch status fills the launching context's register. -/
  | launchStatusDelivery (req : Nat)
  /-- GROUP_PLACEMENT (R306): Places a ready group whole on free cores, writing bindings and sending start messages. -/
  | groupPlacement (quay : Nat) (cores : List Nat)
  /-- PLACEMENT_WAIT_RESERVATION (R306): A group unplaced for 65,536 clk reserves the next wholly free berth. -/
  | placementWaitReservation (launch berth : Nat)
  /-- LAUNCH_LEAVE_RETRY (R306): Asks the governor again for leave every 1,024 clk while refused. -/
  | launchLeaveRetry (launch : Nat)
  /-- GROUP_RETIREMENT (R308): Records a group's retirement, advances the window and frees placements. -/
  | groupRetirement (launch idx : Nat)
  /-- LAUNCH_DEADLINE_EXPIRY (R308): Raises the deadline source once when dl µs pass without completion. -/
  | launchDeadlineExpiry (launch : Nat)
  /-- PREEMPTION (R46): Pre-empts a core, saving its contexts and diverting arrivals to the spill queue. -/
  | preemption (core : Nat)
  /-- CORE_RESUMPTION (R317): Restores a berth's state and redelivers saved, spilled and new messages in order. -/
  | coreResumption (berth : Nat)
  /-- SLICE_BEGIN (R310): A time slice begins once every sliced berth has restored its partition. -/
  | sliceBegin
  /-- SLICE_END (R310): When len µs pass the master sends each sliced berth a slice end with D. -/
  | sliceEnd
  /-- BERTH_SLICE_END (R311): A berth estimates drain and save costs and chooses drain, save or discard. -/
  | berthSliceEnd (berth : Nat)
  /-- DRAIN_DEADLINE_EXPIRY (R312): A draining berth still running groups D µs after the slice end saves them and raises overrun. -/
  | drainDeadlineExpiry (berth : Nat)
  /-- LAUNCH_SUSPEND (R316): Writes the partition's launches to launch blocks when no berth runs it. -/
  | launchSuspend (part : Nat)
  /-- TRET_COMMAND_SERVE (R353): The named core checks a tret command and restores the trapped context. -/
  | tretCommandServe (req : Nat)
  /-- TDROP_COMMAND_SERVE (R353): The named core checks a tdrop command and ends the trapped task. -/
  | tdropCommandServe (req : Nat)
  /-- TRET_STATUS_DELIVERY (R353): The tret or tdrop status fills the issuer's register. -/
  | tretStatusDelivery (req : Nat)
  /-- FOLLOW_WINDOW_CLOSE (R173): The leader's follow window closes 64 clk after follow issued. -/
  | followWindowClose (core ctx : Nat)
  /-- BOOM_TOKEN_PASS (R291): A row or column sweep token reaches the next core of the rectangle. -/
  | boomTokenPass (core slot : Nat) (down : Bool)
  /-- BOOM_RELEASE (R292): The release reaches a core, which advances the generation and sends itself a completion message. -/
  | boomRelease (core slot : Nat)
  /-- NET_HOME_REQUEST (R328): A home slice agent performs a NET access or rewiring step and replies. -/
  | netHomeRequest (req : Nat)
  /-- NET_REPLY_DELIVERY (R328): The replies of every home arrive and the NET instruction completes. -/
  | netReplyDelivery (req : Nat)
  /-- PAIR_OVERFLOW_PLACE (R334): A slice places an overflow pair in its segment or the partition's ring. -/
  | pairOverflowPlace (idx : Nat)
  /-- PAIR_POP (R335): A berth pops its oldest pair, marks both nodes dead and sends the rewrite message. -/
  | pairPop (berth : Nat)
  /-- BAG_REFILL (R336): A berth with an empty bag takes up to 16 pairs from a slice segment. -/
  | bagRefill (berth slice : Nat)
  /-- DBG_HALT_WRITE (R370): Halts the berth through dbg.ctl. -/
  | dbgHaltWrite (berth : Nat)
  /-- DBG_RESUME_WRITE (R370): Resumes a halted berth's cores and lighter in one clk. -/
  | dbgResumeWrite (berth : Nat)
  /-- DBG_ACCESS (R369): Moves a double between dbg.data and a berth window or context state while halted. -/
  | dbgAccess (berth : Nat) (value : BitVec 64)
  /-- CROSS_TRIGGER_HALT (R370): A berth with xtin halts when the cross-trigger is driven. -/
  | crossTriggerHalt (berth : Nat)
  /-- THERMAL_TRIP (R384): At 105 °C every berth halts and the thermal source is raised. -/
  | thermalTrip (celsius : Nat)
  /-- PW_BERTH_TRANSITION (R383): Moves a berth to a power state. -/
  | pwBerthTransition (value : BitVec 64)
  /-- PW_SLICE_TRANSITION (R383): Moves an L2 slice to a power state. -/
  | pwSliceTransition (value : BitVec 64)
  /-- PW_CHANNEL_TRANSITION (R383): Moves a memory channel to a power state. -/
  | pwChannelTransition (value : BitVec 64)
  /-- PW_TRANSITION_DONE (R383): A power transition finishes and busy clears. -/
  | pwTransitionDone
  /-- IC_INVALIDATE_BERTH (R387): Invalidates a range in one berth's instruction caches. -/
  | icInvalidateBerth (value : BitVec 64)
  /-- IC_INVALIDATE_QUAY (R387): Invalidates a range in a quay's instruction caches. -/
  | icInvalidateQuay (value : BitVec 64)
  /-- IC_INVALIDATE_PACKAGE (R387): Invalidates a range in every instruction cache. -/
  | icInvalidatePackage (value : BitVec 64)
  /-- IC_INVALIDATE_DONE (R387): An instruction-cache invalidation finishes and busy clears. -/
  | icInvalidateDone
  /-- QUAY_FENCE_COMMAND (R360): Fences an Up quay's berth array by qf.ctl. -/
  | quayFenceCommand (quay : Nat)
  /-- QUAY_FENCE_FAULT (R360): A state error, monitor or 1 ms harbourmaster silence fences the quay. -/
  | quayFenceFault (quay why : Nat)
  /-- QUAY_PORTS_CLOSED (R360): The fenced quay's ports close, launches are rehomed and lost owners answered. -/
  | quayPortsClosed (quay : Nat)
  /-- QUAY_RESET_COMMAND (R360): Resets a fenced berth-array domain and runs self-test. -/
  | quayResetCommand (quay : Nat)
  /-- SELF_TEST_PASS (R360): The harbourmaster rejoins as non-master and the quay returns Up. -/
  | selfTestPass (quay : Nat)
  /-- SELF_TEST_FAIL (R360): The quay returns to Fenced and the fence source is raised. -/
  | selfTestFail (quay : Nat)
  /-- QL_ENABLE (R379): Starts link training on a Quayline port. -/
  | qlEnable (port : Nat)
  /-- QL_DISABLE (R379): Takes a Quayline port Down, ending remote copies. -/
  | qlDisable (port : Nat)
  /-- QL_LANES_LOCKED (R379): All lanes lock, identities are exchanged and checked, and the port goes Up or Fail. -/
  | qlLanesLocked (port : Nat) (ident : QlIdentity)
  /-- QL_TRAIN_TIMEOUT (R379): Training that does not lock within 500 ms returns Down and raises the source. -/
  | qlTrainTimeout (port : Nat)
  /-- QL_FLIT_CRC_REPLAY (R379): Replays a flit that fails its CRC. -/
  | qlFlitCrcReplay (port : Nat)
  /-- QL_LINK_FAILURE (R381): 16 consecutive uncorrectable flits take the port Down and fault remote copies. -/
  | qlLinkFailure (port : Nat)
  /-- PCIE_FLR (R378): A Function Level Reset of a virtual function raises the FLR source and holds configuration requests. -/
  | pcieFlr (part : Nat)
  /-- PM_FLR_WRITE (R378): Clears the FLR hold of a virtual function. -/
  | pmFlrWrite (value : BitVec 64)
  /-- INBOUND_DEVICE_WRITE (R378): A device write is translated through grants or dropped with the error source. -/
  | inboundDeviceWrite (part addr : Nat) (data : List (BitVec 8))
  /-- POWER_ON_RESET (R382): Brings the package up: firmware verify, spines, berth arrays, application cores. -/
  | powerOnReset (boot : BootInput)
  /-- RECOVERY_IMAGE_LOAD (R367): Loads and verifies an image over PCIe or the service port. -/
  | recoveryImageLoad (image : FirmwareImage)
  /-- CORRECTABLE_ERROR (R356): Corrects a single-bit error, counts it and raises the source at the threshold. -/
  | correctableError (array : Nat)
  /-- UNCORRECTABLE_ERROR (R357): Stops use of uncorrectable data, reports it and retires the line. -/
  | uncorrectableError (place : ErrorPlace)
  /-- CHECKPOINT_PERIOD_EXPIRY (R363): Takes a checkpoint cut every T ms. -/
  | checkpointPeriodExpiry (part : Nat)
  /-- LOG_FULL_CHECKPOINT (R363): Takes a checkpoint early when an order log fills. -/
  | logFullCheckpoint (part : Nat)
  /-- CHECKPOINT_COMPLETE (R363): The dredger finishes copying granules and seq advances. -/
  | checkpointComplete (part : Nat)
  /-- REPLAY_START (R365): Sets replay mode so inboxes, owners and harbourmaster follow the logs. -/
  | replayStart (part seq : Nat)
  /-- REPLAY_LOGS_EXHAUSTED (R365): Replay clears when the logs of the interval run out. -/
  | replayLogsExhausted (part : Nat)
  /-- COUNTER_LOW_READ (R375): A 32-bit load of a counter's low word latches its high bits in ct.latch. -/
  | counterLowRead (part core ctr : Nat)
  /-- COUNTER_HIGH_READ (R375): A 32-bit load of a counter's high word returns latched or live bits and clears valid. -/
  | counterHighRead (part core ctr : Nat)
  /-- TP_DROP_READ (R31): Reading tp.drop returns the partition's drop count and clears it. -/
  | tpDropRead (part : Nat)
  /-- TP_LOST_READ (R351): Reading tp.lost returns a lost trap handle and clears it. -/
  | tpLostRead (part : Nat)
  /-- NT_ERR_READ (R335): Reading nt.err returns the first net error record and clears it. -/
  | ntErrRead (part : Nat)
  /-- PF_STALE_READ (R129): Reading pf.stale returns the stale-response count and clears it. -/
  | pfStaleRead (part : Nat)
  /-- DBG_STAT_READ (R368): Reading dbg.stat returns and clears the lost trace count. -/
  | dbgStatRead (berth : Nat)
  /-- REGISTER_WRITE (R5): Writes a device register with no row of its own, with W1C, refusal and err handling. -/
  | registerWrite (page : RegPage) (off : Nat) (value : BitVec 64)
  /-- ILLEGAL_ENCODING (R62): Fetch of an encoding that no instruction owns traps precisely with ILLEGAL. This covers a reserved major, an unassigned function code or extension, and compact cop 15. -/
  | illegalEncoding (short : Bool) (reason : BitVec 3) (word : BitVec 32)
  /-- QUAYLINE_PARTNER_ACCESS (R380): A copy access or a remote parrive.rel.sys arrives from the partner package over Quayline. The device checks it against the named partition's grants, performs it at the home slices in destination order, and acknowledges or refuses it. -/
  | quaylinePartnerAccess (port : Nat) (acc : PartnerAccess)
  /-- PARTITION_RESET (R127): The partition manager resets a partition, which among other things adds 1 to tr.gen. -/
  | partitionReset (part : Nat)
  /-- APPLICATION_CORE_ACCESS (R239): An application core's load, store or RISC-V fence reaches the home slices as a coherent access under the partition's grants. A fence acts as a system-scope release or acquire, and a refused address raises an access fault. -/
  | applicationCoreAccess (part : Nat) (acc : AppAccess)
  /-- L1_WRITE_BACK (R230): A dirty line held in a berth L1, or in a quay L2 for a line homed at the other quay, is written back by eviction. Its writes then perform at the wider scope and take their place in the home order. -/
  | l1WriteBack (place : CachePlace) (line : Nat)
  /-- SUBLIST_SERVE (R266): An owner, either a home slice or another berth's lighter, receives a gather or scatter sub-list, reads or writes its rows, and returns rows to the requester. -/
  | sublistServe (berth chan idx : Nat)
  /-- CPCAST_LEAVE_REFUSED (R267): A cpcast that has waited 200 clk for the quay power governor's leave without receiving it is refused with why = 2. -/
  | cpcastLeaveRefused (berth chan : Nat)
  /-- HALTED_SLICE_END_OVERRUN (R370): When D passes for a slice end held at a halted berth, the partition manager's overrun source is raised. -/
  | haltedSliceEndOverrun (berth : Nat)
  /-- TRACE_BUFFER_WRITE (R372): A trace record that awaits writing is written to the trace buffer at pbase, which frees a place among the 16 records that await writing. -/
  | traceBufferWrite (berth : Nat)
  /-- RESIDENT_SERVICE_INSTALL (R29): The loader writes channel bindings, mask and priority for a resident service over the system network, after clearing the berth's stores where R318 requires it. -/
  | residentServiceInstall (svc : ServiceInstall)
  /-- CODE_OBJECT_LOAD (R385): mugld accepts a signed MGO object and makes it resident for a partition under a handle from 0 to 255, with its templates and rule table. -/
  | codeObjectLoad (part handle : Nat) (obj : CodeObject)
  deriving DecidableEq, Repr

end Sys2Proof
end

