-- ==== Sys2Proof/WellFormed.lean ====
section
/-!
DEFINITION. Which instructions are well formed: the rules on field values that come after the choice of an instruction
(R52, R57, R58, R61, R63 and the encoding rows of the chapters), each with the reason code of R64 that a breach traps with.
-/
namespace Sys2Proof

/-- R50: x28 to x31 are the link ports. -/
def isPort (r : BitVec 5) : Bool := 28 ≤ r.toNat

/-- R50: v28 to v31 are the vector link ports. -/
def isVPort (v : BitVec 6) : Bool := 28 ≤ v.toNat && v.toNat < 32

/-- R52: f = 1 needs a source that names a link port. -/
def fwdRule (f : BitVec 1) (sources : List (BitVec 5)) : Option (BitVec 3) :=
  if f = 1 ∧ sources.any isPort = false then some 3 else none

/-- A register that may not be a link port. -/
def portRule (r : BitVec 5) : Option (BitVec 3) := if isPort r then some 3 else none

/-- R178: a vector destination that is read as a source may not be a link port. -/
def vportRule (v : BitVec 6) : Option (BitVec 3) := if isVPort v then some 3 else none

/-- R177, R178: under a mask other than m0 the destination is read as a source. -/
def mergeRule (m : BitVec 3) (v : BitVec 6) : Option (BitVec 3) := if m ≠ 0 then vportRule v else none

/-- A literal that must lie below a limit (R64: value not permitted). -/
def below (n limit : Nat) : Option (BitVec 3) := if n < limit then none else some 4

/-- R55, R56, R374: the assigned control-register numbers. -/
def kAssigned (k : BitVec 12) : Bool :=
  let n := k.toNat
  n ≤ 4 || (8 ≤ n && n ≤ 0xA) || (0x10 ≤ n && n ≤ 0x12) || n == 0x30 || n == 0x31 || n == 0x40 || n == 0x48 || n == 0x49
    || (0x50 ≤ n && n ≤ 0x52) || n == 0x60 || n == 0x61 || (0x100 ≤ n && n ≤ 0x10F) || (0x140 ≤ n && n ≤ 0x16F)

/-- R139: the MX and PS formats. -/
def scaledFormat (f : BitVec 6) : Bool := 0x16 ≤ f.toNat && f.toNat ≤ 0x21

/-- Why the field values of an instruction make it illegal, as R64's reason code; `none` where they do not. -/
def Instr.fieldFault : Instr → Option (BitVec 3)
  | .kread k _ => if kAssigned k then none else some 4
  | .kwrite k _ => if kAssigned k then none else some 4
  | .kswap k _ _ => if kAssigned k then none else some 4
  | .kcset _ d => below d.toNat 2
  | .tret _ d => portRule d
  | .tdrop _ d => portRule d
  | .add f _ _ b a _ => fwdRule f [a, b]
  | .sub f _ _ b a _ => fwdRule f [a, b]
  | .and f _ _ b a _ => fwdRule f [a, b]
  | .or f _ _ b a _ => fwdRule f [a, b]
  | .xor f _ _ b a _ => fwdRule f [a, b]
  | .andn f _ _ b a _ => fwdRule f [a, b]
  | .sll f _ _ b a _ => fwdRule f [a, b]
  | .srl f _ _ b a _ => fwdRule f [a, b]
  | .sra f _ _ b a _ => fwdRule f [a, b]
  | .slt f _ _ b a _ => fwdRule f [a, b]
  | .sltu f _ _ b a _ => fwdRule f [a, b]
  | .min f _ _ b a _ => fwdRule f [a, b]
  | .max f _ _ b a _ => fwdRule f [a, b]
  | .minu f _ _ b a _ => fwdRule f [a, b]
  | .maxu f _ _ b a _ => fwdRule f [a, b]
  | .clz f _ a _ => fwdRule f [a]
  | .ctz f _ a _ => fwdRule f [a]
  | .pop f _ a _ => fwdRule f [a]
  | .bext f _ _ b a _ => fwdRule f [a, b]
  | .bins f _ _ b a d => (fwdRule f [a, b]).or (portRule d)
  | .addw f _ _ b a _ => fwdRule f [a, b]
  | .subw f _ _ b a _ => fwdRule f [a, b]
  | .sllw f _ _ b a _ => fwdRule f [a, b]
  | .srlw f _ _ b a _ => fwdRule f [a, b]
  | .sraw f _ _ b a _ => fwdRule f [a, b]
  | .mul f _ _ b a _ => fwdRule f [a, b]
  | .mulh f _ _ b a _ => fwdRule f [a, b]
  | .mulhu f _ _ b a _ => fwdRule f [a, b]
  | .div f _ _ b a _ => fwdRule f [a, b]
  | .divu f _ _ b a _ => fwdRule f [a, b]
  | .rem f _ _ b a _ => fwdRule f [a, b]
  | .remu f _ _ b a _ => fwdRule f [a, b]
  | .jalr f _ _ a _ => fwdRule f [a]
  | .ldB f _ _ j i _ _ => fwdRule f [i, j]
  | .ldBu f _ _ j i _ _ => fwdRule f [i, j]
  | .ldH f _ _ j i _ _ => fwdRule f [i, j]
  | .ldHu f _ _ j i _ _ => fwdRule f [i, j]
  | .ldW f _ _ j i _ _ => fwdRule f [i, j]
  | .ldWu f _ _ j i _ _ => fwdRule f [i, j]
  | .ldD f _ _ j i _ _ => fwdRule f [i, j]
  | .stB f _ _ j i _ d => fwdRule f [i, j, d]
  | .stH f _ _ j i _ d => fwdRule f [i, j, d]
  | .stW f _ _ j i _ d => fwdRule f [i, j, d]
  | .stD f _ _ j i _ d => fwdRule f [i, j, d]
  | .cslice f _ b _ _ => fwdRule f [b]
  | .cstep f _ b _ _ => fwdRule f [b]
  | .cperm f _ b _ _ => fwdRule f [b]
  | .cfold f _ b _ _ => fwdRule f [b]
  | .crestrict f _ b _ _ => fwdRule f [b]
  | .cscope f _ b _ _ => fwdRule f [b]
  | .cfmt f _ b _ _ => fwdRule f [b]
  | .cget n _ _ => below n.toNat 16
  | .clc f _ _ j i _ _ => fwdRule f [i, j]
  | .csc f _ _ j i _ _ => fwdRule f [i, j]
  | .ctag f _ _ j i _ _ => fwdRule f [i, j]
  | .ccall _ _ n => below n.toNat 12
  | .cret n => below n.toNat 12
  | .sendRq f _ _ b a _ => (fwdRule f [b]).or (portRule a)
  | .sendRp f _ _ b a _ => (fwdRule f [b]).or (portRule a)
  | .sendSy f _ _ b a _ => (fwdRule f [b]).or (portRule a)
  | .sendnN f _ _ b a _ => (fwdRule f [b]).or (portRule a)
  | .sendnE f _ _ b a _ => (fwdRule f [b]).or (portRule a)
  | .sendnS f _ _ b a _ => (fwdRule f [b]).or (portRule a)
  | .sendnW f _ _ b a _ => (fwdRule f [b]).or (portRule a)
  | .sendv f _ _ b a => (fwdRule f [b]).or (portRule a)
  | .reply f _ _ b _ _ => fwdRule f [b]
  | .chmask f _ _ b a _ => fwdRule f [a, b]
  | .chprio f _ _ b a _ => fwdRule f [a, b]
  | .enq f _ b _ d => (fwdRule f [b]).or (portRule d)
  | .launch f _ b _ d => (fwdRule f [b]).or (portRule d)
  | .fence s k => if k = 0 then some 1 else below s.toNat 6
  | .pinit n _ d => (portRule d).or (if n = 0 then some 4 else none)
  | .parriveRlx _ d => portRule d
  | .parriveRel s _ d => (portRule d).or (below s.toNat 6)
  | .pwait _ d => if d.toNat > 24 then some 3 else none
  | .pinval _ d => portRule d
  | .aadd _ b _ _ => if b.toNat < 1 ∨ b.toNat > 25 then some 3 else none
  | .amin _ b _ _ => if b.toNat < 1 ∨ b.toNat > 25 then some 3 else none
  | .amax _ b _ _ => if b.toNat < 1 ∨ b.toNat > 25 then some 3 else none
  | .aminu _ b _ _ => if b.toNat < 1 ∨ b.toNat > 25 then some 3 else none
  | .amaxu _ b _ _ => if b.toNat < 1 ∨ b.toNat > 25 then some 3 else none
  | .aand _ b _ _ => if b.toNat < 1 ∨ b.toNat > 25 then some 3 else none
  | .aor _ b _ _ => if b.toNat < 1 ∨ b.toNat > 25 then some 3 else none
  | .axor _ b _ _ => if b.toNat < 1 ∨ b.toNat > 25 then some 3 else none
  | .aswp _ b _ _ => if b.toNat < 1 ∨ b.toNat > 25 then some 3 else none
  | .acas _ b _ _ => if b.toNat < 1 ∨ b.toNat > 24 then some 3 else none
  | .afadd _ b _ _ => if b.toNat < 1 ∨ b.toNat > 25 then some 3 else none
  | .aredVAdd b _ d => if d.toNat < 1 ∨ d.toNat > 26 ∨ b.toNat > 27 then some 3 else none
  | .aredVMax b _ d => if d.toNat < 1 ∨ d.toNat > 26 ∨ b.toNat > 27 then some 3 else none
  | .aredVMin b _ d => if d.toNat < 1 ∨ d.toNat > 26 ∨ b.toNat > 27 then some 3 else none
  | .aredVFadd b _ d => if d.toNat < 1 ∨ d.toNat > 26 ∨ b.toNat > 27 then some 3 else none
  | .cpstat s _ _ => if s.toNat < 3 then none else some 1
  | .mlease n _ => if n.toNat < 1 ∨ n.toNat > 64 then some 4 else none
  | .nalloc _ d => portRule d
  | .nlink x _ d => (if x.toNat < 1 ∨ x.toNat > 26 then some 3 else none).or (portRule d)
  | .nload _ _ _ d => portRule d
  | .npush x _ => if x.toNat < 1 ∨ x.toNat > 26 then some 3 else none
  | .nbagBind _ _ d => portRule d
  | .sexp2 m _ v => mergeRule m v
  | .slog2 m _ v => mergeRule m v
  | .srcp m _ v => mergeRule m v
  | .srsqrt m _ v => mergeRule m v
  | .ssqrt m _ v => mergeRule m v
  | .ssin m _ v => mergeRule m v
  | .scos m _ v => mergeRule m v
  | .fadd f _ _ b a _ => fwdRule f [a, b]
  | .fsub f _ _ b a _ => fwdRule f [a, b]
  | .fmul f _ _ b a _ => fwdRule f [a, b]
  | .fmadd f _ _ b a d => (fwdRule f [a, b]).or (portRule d)
  | .fmin f _ _ b a _ => fwdRule f [a, b]
  | .fmax f _ _ b a _ => fwdRule f [a, b]
  | .fcmpEq f _ _ b a _ => fwdRule f [a, b]
  | .fcmpLt f _ _ b a _ => fwdRule f [a, b]
  | .fcmpLe f _ _ b a _ => fwdRule f [a, b]
  | .fcmpUn f _ _ b a _ => fwdRule f [a, b]
  | .fcvtLF f _ a _ => fwdRule f [a]
  | .fcvtLuF f _ a _ => fwdRule f [a]
  | .fcvtFL f _ a _ => fwdRule f [a]
  | .fcvtFLu f _ a _ => fwdRule f [a]
  | .fsgnj f _ _ b a _ => fwdRule f [a, b]
  | .fsgnjn f _ _ b a _ => fwdRule f [a, b]
  | .fsgnjx f _ _ b a _ => fwdRule f [a, b]
  | .vadd m _ _ v _ => mergeRule m v
  | .vsub m _ _ v _ => mergeRule m v
  | .vadds m _ _ v _ => mergeRule m v
  | .vaddus m _ _ v _ => mergeRule m v
  | .vsubs m _ _ v _ => mergeRule m v
  | .vsubus m _ _ v _ => mergeRule m v
  | .vmul m _ _ v _ => mergeRule m v
  | .vmulh m _ _ v _ => mergeRule m v
  | .vmin m _ _ v _ => mergeRule m v
  | .vmax m _ _ v _ => mergeRule m v
  | .vminu m _ _ v _ => mergeRule m v
  | .vmaxu m _ _ v _ => mergeRule m v
  | .vsll m _ _ v _ => mergeRule m v
  | .vsrl m _ _ v _ => mergeRule m v
  | .vsra m _ _ v _ => mergeRule m v
  | .vfadd m _ _ v w => (if w = 3 then some 1 else none).or (mergeRule m v)
  | .vfsub m _ _ v w => (if w = 3 then some 1 else none).or (mergeRule m v)
  | .vfmul m _ _ v w => (if w = 3 then some 1 else none).or (mergeRule m v)
  | .vfma _ _ _ v w => (if w = 3 then some 1 else none).or (vportRule v)
  | .vfmin m _ _ v w => (if w = 3 then some 1 else none).or (mergeRule m v)
  | .vfmax m _ _ v w => (if w = 3 then some 1 else none).or (mergeRule m v)
  | .vfabs m _ v w => (if w = 3 then some 1 else none).or (mergeRule m v)
  | .vfneg m _ v w => (if w = 3 then some 1 else none).or (mergeRule m v)
  | .vcvt m _ _ v => mergeRule m v
  | .vmxsc f _ _ => if scaledFormat f then none else some 4
  | .vshuf m _ _ v => mergeRule m v
  | .vzipLo w _ _ _ => if w.toNat < 4 then none else some 1
  | .vzipHi w _ _ _ => if w.toNat < 4 then none else some 1
  | .vunzipEv w _ _ _ => if w.toNat < 4 then none else some 1
  | .vunzipOd w _ _ _ => if w.toNat < 4 then none else some 1
  | .vbcast w k _ _ => if w.toNat < 4 then below k.toNat (16 >>> w.toNat) else some 1
  | .vredaddInt _ _ _ d => portRule d
  | .vredmaxInt _ _ _ d => portRule d
  | .vredaddF32 _ _ d => portRule d
  | .vredmaxF32 _ _ d => portRule d
  | .vredamax _ _ _ d => portRule d
  | .vdot4 _ _ _ v => vportRule v
  | .vdot2 _ _ _ v => vportRule v
  | .vcmpEq t _ _ _ => if t = 7 then some 1 else none
  | .vcmpLt t _ _ _ => if t = 7 then some 1 else none
  | .vcmpLe t _ _ _ => if t = 7 then some 1 else none
  | .vcmpLtu t _ _ _ => if t.toNat < 4 then none else some 1
  | .vcmpLeu t _ _ _ => if t.toNat < 4 then none else some 1
  | .vfcmpUn t _ _ _ => if t.toNat < 4 ∨ t = 7 then some 1 else none
  | .vmvXv w k _ _ => if w.toNat < 4 then below k.toNat (16 >>> w.toNat) else some 1
  | .vmvVx m _ _ v => mergeRule m v
  | .vli w _ _ => if w.toNat < 4 then none else some 1
  | .vmv m _ v => mergeRule m v
  | .svc ..
  | .brk ..
  | .halt ..
  | .cNop ..
  | .cMv ..
  | .cLi ..
  | .cAddi ..
  | .cAdd ..
  | .cSub ..
  | .cAnd ..
  | .cOr ..
  | .cSlli ..
  | .cSrli ..
  | .cBeqz ..
  | .cBnez ..
  | .cJ ..
  | .cRet ..
  | .cDone ..
  | .addi ..
  | .andi ..
  | .ori ..
  | .xori ..
  | .slti ..
  | .sltiu ..
  | .slli ..
  | .srli ..
  | .srai ..
  | .mini ..
  | .maxi ..
  | .minui ..
  | .maxui ..
  | .addiw ..
  | .lui ..
  | .beq ..
  | .bne ..
  | .blt ..
  | .bge ..
  | .bltu ..
  | .bgeu ..
  | .jal ..
  | .loop ..
  | .lcset ..
  | .follow ..
  | .ldv ..
  | .ldvS ..
  | .stv ..
  | .stvS ..
  | .cmove ..
  | .cseal ..
  | .cunseal ..
  | .bounce ..
  | .done ..
  | .gdone ..
  | .dcfence ..
  | .boomset ..
  | .boomRlx ..
  | .boomRel ..
  | .cpsetSrc ..
  | .cpsetDst ..
  | .cpsetAux ..
  | .cpsetCtl ..
  | .cpsetMlo ..
  | .cpsetMhi ..
  | .cpgo ..
  | .cpnote ..
  | .cpgath ..
  | .cpscat ..
  | .cpcast ..
  | .cpred ..
  | .mrel ..
  | .mcfg ..
  | .mma ..
  | .mmaZ ..
  | .mad ..
  | .mcvt ..
  | .mzero ..
  | .nfree ..
  | .nstore ..
  | .vmulhu ..
  | .vavgu ..
  | .vabs ..
  | .vand ..
  | .vor ..
  | .vxor ..
  | .vandn ..
  | .vextLo ..
  | .vextHi ..
  | .vsel ..
  | .mand ..
  | .mor ..
  | .mxor ..
  | .mandn ..
  | .mnot ..
  | .mmvMx ..
  | .mmvXm ..
  | .mpop ..
  | .messageLeavesSendQueue ..
  | .messageDelivery ..
  | .taskStart ..
  | .linkValueArrive ..
  | .loadDelivery ..
  | .clcDelivery ..
  | .sfuRequestStart ..
  | .sfuResultDelivery ..
  | .atomicServe ..
  | .atomicReplyDelivery ..
  | .aredElementUpdate ..
  | .aredAcknowledge ..
  | .phaseOperationServe ..
  | .phaseStatusDelivery ..
  | .phaseProtectedWrite ..
  | .enqueueServe ..
  | .enqStatusDelivery ..
  | .recordDequeue ..
  | .inboxReservationGrant ..
  | .leaseGrant ..
  | .leaveRefusalTimeout ..
  | .powerLeaveRelease ..
  | .leaseIdleExpiry ..
  | .matrixCommandStart ..
  | .matrixCommandComplete ..
  | .copyBegin ..
  | .copyElementWrite ..
  | .copyEnd ..
  | .cpcastBerthDone ..
  | .cpcastAckArrival ..
  | .pfRespWrite ..
  | .trCmdReplayAll ..
  | .trCmdInvalidateAll ..
  | .trCmdInvalidateRange ..
  | .trCmdHarvest ..
  | .trCmdComplete ..
  | .trRootWrite ..
  | .l2LimitWrite ..
  | .l2SplitWrite ..
  | .bandwidthPeriodStart ..
  | .sweepStart ..
  | .sweepRegisters ..
  | .sweepLocalStores ..
  | .sweepMemory ..
  | .sweepEnd ..
  | .dredgerRegisterWrite ..
  | .irqInject ..
  | .hmDoorWrite ..
  | .launchRequestServe ..
  | .launchStatusDelivery ..
  | .groupPlacement ..
  | .placementWaitReservation ..
  | .launchLeaveRetry ..
  | .groupRetirement ..
  | .launchDeadlineExpiry ..
  | .preemption ..
  | .coreResumption ..
  | .sliceBegin ..
  | .sliceEnd ..
  | .berthSliceEnd ..
  | .drainDeadlineExpiry ..
  | .launchSuspend ..
  | .tretCommandServe ..
  | .tdropCommandServe ..
  | .tretStatusDelivery ..
  | .followWindowClose ..
  | .boomTokenPass ..
  | .boomRelease ..
  | .netHomeRequest ..
  | .netReplyDelivery ..
  | .pairOverflowPlace ..
  | .pairPop ..
  | .bagRefill ..
  | .dbgHaltWrite ..
  | .dbgResumeWrite ..
  | .dbgAccess ..
  | .crossTriggerHalt ..
  | .thermalTrip ..
  | .pwBerthTransition ..
  | .pwSliceTransition ..
  | .pwChannelTransition ..
  | .pwTransitionDone ..
  | .icInvalidateBerth ..
  | .icInvalidateQuay ..
  | .icInvalidatePackage ..
  | .icInvalidateDone ..
  | .quayFenceCommand ..
  | .quayFenceFault ..
  | .quayPortsClosed ..
  | .quayResetCommand ..
  | .selfTestPass ..
  | .selfTestFail ..
  | .qlEnable ..
  | .qlDisable ..
  | .qlLanesLocked ..
  | .qlTrainTimeout ..
  | .qlFlitCrcReplay ..
  | .qlLinkFailure ..
  | .pcieFlr ..
  | .pmFlrWrite ..
  | .inboundDeviceWrite ..
  | .powerOnReset ..
  | .recoveryImageLoad ..
  | .correctableError ..
  | .uncorrectableError ..
  | .checkpointPeriodExpiry ..
  | .logFullCheckpoint ..
  | .checkpointComplete ..
  | .replayStart ..
  | .replayLogsExhausted ..
  | .counterLowRead ..
  | .counterHighRead ..
  | .tpDropRead ..
  | .tpLostRead ..
  | .ntErrRead ..
  | .pfStaleRead ..
  | .dbgStatRead ..
  | .registerWrite ..
  | .illegalEncoding ..
  | .quaylinePartnerAccess ..
  | .partitionReset ..
  | .applicationCoreAccess ..
  | .l1WriteBack ..
  | .sublistServe ..
  | .cpcastLeaveRefused ..
  | .haltedSliceEndOverrun ..
  | .traceBufferWrite ..
  | .residentServiceInstall ..
  | .codeObjectLoad .. => none

/-- The rows of the opcode table that have an encoding; the others are steps that no encoding names. -/
def Instr.encoded : Instr → Bool
  | .messageLeavesSendQueue ..
  | .messageDelivery ..
  | .taskStart ..
  | .linkValueArrive ..
  | .loadDelivery ..
  | .clcDelivery ..
  | .sfuRequestStart ..
  | .sfuResultDelivery ..
  | .atomicServe ..
  | .atomicReplyDelivery ..
  | .aredElementUpdate ..
  | .aredAcknowledge ..
  | .phaseOperationServe ..
  | .phaseStatusDelivery ..
  | .phaseProtectedWrite ..
  | .enqueueServe ..
  | .enqStatusDelivery ..
  | .recordDequeue ..
  | .inboxReservationGrant ..
  | .leaseGrant ..
  | .leaveRefusalTimeout ..
  | .powerLeaveRelease ..
  | .leaseIdleExpiry ..
  | .matrixCommandStart ..
  | .matrixCommandComplete ..
  | .copyBegin ..
  | .copyElementWrite ..
  | .copyEnd ..
  | .cpcastBerthDone ..
  | .cpcastAckArrival ..
  | .pfRespWrite ..
  | .trCmdReplayAll ..
  | .trCmdInvalidateAll ..
  | .trCmdInvalidateRange ..
  | .trCmdHarvest ..
  | .trCmdComplete ..
  | .trRootWrite ..
  | .l2LimitWrite ..
  | .l2SplitWrite ..
  | .bandwidthPeriodStart ..
  | .sweepStart ..
  | .sweepRegisters ..
  | .sweepLocalStores ..
  | .sweepMemory ..
  | .sweepEnd ..
  | .dredgerRegisterWrite ..
  | .irqInject ..
  | .hmDoorWrite ..
  | .launchRequestServe ..
  | .launchStatusDelivery ..
  | .groupPlacement ..
  | .placementWaitReservation ..
  | .launchLeaveRetry ..
  | .groupRetirement ..
  | .launchDeadlineExpiry ..
  | .preemption ..
  | .coreResumption ..
  | .sliceBegin ..
  | .sliceEnd ..
  | .berthSliceEnd ..
  | .drainDeadlineExpiry ..
  | .launchSuspend ..
  | .tretCommandServe ..
  | .tdropCommandServe ..
  | .tretStatusDelivery ..
  | .followWindowClose ..
  | .boomTokenPass ..
  | .boomRelease ..
  | .netHomeRequest ..
  | .netReplyDelivery ..
  | .pairOverflowPlace ..
  | .pairPop ..
  | .bagRefill ..
  | .dbgHaltWrite ..
  | .dbgResumeWrite ..
  | .dbgAccess ..
  | .crossTriggerHalt ..
  | .thermalTrip ..
  | .pwBerthTransition ..
  | .pwSliceTransition ..
  | .pwChannelTransition ..
  | .pwTransitionDone ..
  | .icInvalidateBerth ..
  | .icInvalidateQuay ..
  | .icInvalidatePackage ..
  | .icInvalidateDone ..
  | .quayFenceCommand ..
  | .quayFenceFault ..
  | .quayPortsClosed ..
  | .quayResetCommand ..
  | .selfTestPass ..
  | .selfTestFail ..
  | .qlEnable ..
  | .qlDisable ..
  | .qlLanesLocked ..
  | .qlTrainTimeout ..
  | .qlFlitCrcReplay ..
  | .qlLinkFailure ..
  | .pcieFlr ..
  | .pmFlrWrite ..
  | .inboundDeviceWrite ..
  | .powerOnReset ..
  | .recoveryImageLoad ..
  | .correctableError ..
  | .uncorrectableError ..
  | .checkpointPeriodExpiry ..
  | .logFullCheckpoint ..
  | .checkpointComplete ..
  | .replayStart ..
  | .replayLogsExhausted ..
  | .counterLowRead ..
  | .counterHighRead ..
  | .tpDropRead ..
  | .tpLostRead ..
  | .ntErrRead ..
  | .pfStaleRead ..
  | .dbgStatRead ..
  | .registerWrite ..
  | .illegalEncoding ..
  | .quaylinePartnerAccess ..
  | .partitionReset ..
  | .applicationCoreAccess ..
  | .l1WriteBack ..
  | .sublistServe ..
  | .cpcastLeaveRefused ..
  | .haltedSliceEndOverrun ..
  | .traceBufferWrite ..
  | .residentServiceInstall ..
  | .codeObjectLoad .. => false
  | _ => true

/-- A well-formed encoded instruction: its word names it, and its field values break no rule. -/
def Instr.WF (i : Instr) : Bool := i.encoded && i.fieldFault.isNone

end Sys2Proof
end

