-- ==== Sys2Proof/Decode.lean ====
section
/-!
DEFINITION. The decoder (R59 to R64, and the encoding table of each chapter) and, after it, the encoder written from the
same tables. The decoder is total; a word that no row owns is rejected by the name of R64's reason. The rules on field
values that R61 and the chapters add are judged by `Instr.fieldFault`, in the order R64 gives.
-/
namespace Sys2Proof

/-- R64: why an encoding names no instruction. -/
inductive Reject where
  | reservedMajor
  | unassigned
  | unusedNonzero
  | fieldRule
  | valueNotPermitted
  deriving DecidableEq, Repr

/-- R64: the reason code of a rejection. -/
def Reject.reason : Reject → BitVec 3
  | .reservedMajor => 0
  | .unassigned => 1
  | .unusedNonzero => 2
  | .fieldRule => 3
  | .valueNotPermitted => 4

/-- Major 0x00 (OP), format R. A nonzero unused field of `clz`, `ctz` and `pop` gives reason 2 (DESIGN CHOICE: log entry 62). -/
def decOp (w : BitVec 32) : Except Reject Instr :=
  match (w.extractLsb' 22 7).toNat with
  | 0 => .ok (.add (w.extractLsb' 31 1) (w.extractLsb' 30 1) (w.extractLsb' 29 1) (w.extractLsb' 17 5) (w.extractLsb' 12 5) (w.extractLsb' 7 5))
  | 1 => .ok (.sub (w.extractLsb' 31 1) (w.extractLsb' 30 1) (w.extractLsb' 29 1) (w.extractLsb' 17 5) (w.extractLsb' 12 5) (w.extractLsb' 7 5))
  | 2 => .ok (.and (w.extractLsb' 31 1) (w.extractLsb' 30 1) (w.extractLsb' 29 1) (w.extractLsb' 17 5) (w.extractLsb' 12 5) (w.extractLsb' 7 5))
  | 3 => .ok (.or (w.extractLsb' 31 1) (w.extractLsb' 30 1) (w.extractLsb' 29 1) (w.extractLsb' 17 5) (w.extractLsb' 12 5) (w.extractLsb' 7 5))
  | 4 => .ok (.xor (w.extractLsb' 31 1) (w.extractLsb' 30 1) (w.extractLsb' 29 1) (w.extractLsb' 17 5) (w.extractLsb' 12 5) (w.extractLsb' 7 5))
  | 5 => .ok (.andn (w.extractLsb' 31 1) (w.extractLsb' 30 1) (w.extractLsb' 29 1) (w.extractLsb' 17 5) (w.extractLsb' 12 5) (w.extractLsb' 7 5))
  | 6 => .ok (.sll (w.extractLsb' 31 1) (w.extractLsb' 30 1) (w.extractLsb' 29 1) (w.extractLsb' 17 5) (w.extractLsb' 12 5) (w.extractLsb' 7 5))
  | 7 => .ok (.srl (w.extractLsb' 31 1) (w.extractLsb' 30 1) (w.extractLsb' 29 1) (w.extractLsb' 17 5) (w.extractLsb' 12 5) (w.extractLsb' 7 5))
  | 8 => .ok (.sra (w.extractLsb' 31 1) (w.extractLsb' 30 1) (w.extractLsb' 29 1) (w.extractLsb' 17 5) (w.extractLsb' 12 5) (w.extractLsb' 7 5))
  | 9 => .ok (.slt (w.extractLsb' 31 1) (w.extractLsb' 30 1) (w.extractLsb' 29 1) (w.extractLsb' 17 5) (w.extractLsb' 12 5) (w.extractLsb' 7 5))
  | 10 => .ok (.sltu (w.extractLsb' 31 1) (w.extractLsb' 30 1) (w.extractLsb' 29 1) (w.extractLsb' 17 5) (w.extractLsb' 12 5) (w.extractLsb' 7 5))
  | 11 => .ok (.min (w.extractLsb' 31 1) (w.extractLsb' 30 1) (w.extractLsb' 29 1) (w.extractLsb' 17 5) (w.extractLsb' 12 5) (w.extractLsb' 7 5))
  | 12 => .ok (.max (w.extractLsb' 31 1) (w.extractLsb' 30 1) (w.extractLsb' 29 1) (w.extractLsb' 17 5) (w.extractLsb' 12 5) (w.extractLsb' 7 5))
  | 13 => .ok (.minu (w.extractLsb' 31 1) (w.extractLsb' 30 1) (w.extractLsb' 29 1) (w.extractLsb' 17 5) (w.extractLsb' 12 5) (w.extractLsb' 7 5))
  | 14 => .ok (.maxu (w.extractLsb' 31 1) (w.extractLsb' 30 1) (w.extractLsb' 29 1) (w.extractLsb' 17 5) (w.extractLsb' 12 5) (w.extractLsb' 7 5))
  | 15 => if w.extractLsb' 17 5 ≠ 0 then .error .unusedNonzero else if w.extractLsb' 30 1 ≠ 0 then .error .fieldRule else .ok (.clz (w.extractLsb' 31 1) (w.extractLsb' 29 1) (w.extractLsb' 12 5) (w.extractLsb' 7 5))
  | 16 => if w.extractLsb' 17 5 ≠ 0 then .error .unusedNonzero else if w.extractLsb' 30 1 ≠ 0 then .error .fieldRule else .ok (.ctz (w.extractLsb' 31 1) (w.extractLsb' 29 1) (w.extractLsb' 12 5) (w.extractLsb' 7 5))
  | 17 => if w.extractLsb' 17 5 ≠ 0 then .error .unusedNonzero else if w.extractLsb' 30 1 ≠ 0 then .error .fieldRule else .ok (.pop (w.extractLsb' 31 1) (w.extractLsb' 29 1) (w.extractLsb' 12 5) (w.extractLsb' 7 5))
  | 18 => .ok (.bext (w.extractLsb' 31 1) (w.extractLsb' 30 1) (w.extractLsb' 29 1) (w.extractLsb' 17 5) (w.extractLsb' 12 5) (w.extractLsb' 7 5))
  | 19 => .ok (.bins (w.extractLsb' 31 1) (w.extractLsb' 30 1) (w.extractLsb' 29 1) (w.extractLsb' 17 5) (w.extractLsb' 12 5) (w.extractLsb' 7 5))
  | _ => .error .unassigned

/-- Major 0x01 (OPI), format K. -/
def decOpi (w : BitVec 32) : Except Reject Instr :=
  match (w.extractLsb' 29 3).toNat with
  | 0 => .ok (.addi (w.extractLsb' 17 12) (w.extractLsb' 12 5) (w.extractLsb' 7 5))
  | 1 => .ok (.andi (w.extractLsb' 17 12) (w.extractLsb' 12 5) (w.extractLsb' 7 5))
  | 2 => .ok (.ori (w.extractLsb' 17 12) (w.extractLsb' 12 5) (w.extractLsb' 7 5))
  | 3 => .ok (.xori (w.extractLsb' 17 12) (w.extractLsb' 12 5) (w.extractLsb' 7 5))
  | 4 => .ok (.slti (w.extractLsb' 17 12) (w.extractLsb' 12 5) (w.extractLsb' 7 5))
  | 5 => .ok (.sltiu (w.extractLsb' 17 12) (w.extractLsb' 12 5) (w.extractLsb' 7 5))
  | 6 =>
    match (w.extractLsb' 23 6).toNat with
    | 0 => .ok (.slli (w.extractLsb' 17 6) (w.extractLsb' 12 5) (w.extractLsb' 7 5))
    | 1 => .ok (.srli (w.extractLsb' 17 6) (w.extractLsb' 12 5) (w.extractLsb' 7 5))
    | 2 => .ok (.srai (w.extractLsb' 17 6) (w.extractLsb' 12 5) (w.extractLsb' 7 5))
    | _ => .error .unassigned
  | 7 =>
    match (w.extractLsb' 27 2).toNat with
    | 0 => .ok (.mini (w.extractLsb' 17 10) (w.extractLsb' 12 5) (w.extractLsb' 7 5))
    | 1 => .ok (.maxi (w.extractLsb' 17 10) (w.extractLsb' 12 5) (w.extractLsb' 7 5))
    | 2 => .ok (.minui (w.extractLsb' 17 10) (w.extractLsb' 12 5) (w.extractLsb' 7 5))
    | 3 => .ok (.maxui (w.extractLsb' 17 10) (w.extractLsb' 12 5) (w.extractLsb' 7 5))
    | _ => .error .unassigned
  | _ => .error .unassigned

/-- Major 0x02 (OPW), format R. -/
def decOpw (w : BitVec 32) : Except Reject Instr :=
  match (w.extractLsb' 22 7).toNat with
  | 0 => .ok (.addw (w.extractLsb' 31 1) (w.extractLsb' 30 1) (w.extractLsb' 29 1) (w.extractLsb' 17 5) (w.extractLsb' 12 5) (w.extractLsb' 7 5))
  | 1 => .ok (.subw (w.extractLsb' 31 1) (w.extractLsb' 30 1) (w.extractLsb' 29 1) (w.extractLsb' 17 5) (w.extractLsb' 12 5) (w.extractLsb' 7 5))
  | 2 => .ok (.sllw (w.extractLsb' 31 1) (w.extractLsb' 30 1) (w.extractLsb' 29 1) (w.extractLsb' 17 5) (w.extractLsb' 12 5) (w.extractLsb' 7 5))
  | 3 => .ok (.srlw (w.extractLsb' 31 1) (w.extractLsb' 30 1) (w.extractLsb' 29 1) (w.extractLsb' 17 5) (w.extractLsb' 12 5) (w.extractLsb' 7 5))
  | 4 => .ok (.sraw (w.extractLsb' 31 1) (w.extractLsb' 30 1) (w.extractLsb' 29 1) (w.extractLsb' 17 5) (w.extractLsb' 12 5) (w.extractLsb' 7 5))
  | _ => .error .unassigned

/-- Major 0x03 (OPIW), format K. -/
def decOpiw (w : BitVec 32) : Except Reject Instr :=
  match (w.extractLsb' 29 3).toNat with
  | 0 => .ok (.addiw (w.extractLsb' 17 12) (w.extractLsb' 12 5) (w.extractLsb' 7 5))
  | _ => .error .unassigned

/-- Major 0x04 (LUI), format U. -/
def decLui (w : BitVec 32) : Except Reject Instr :=
  .ok (.lui (w.extractLsb' 12 20) (w.extractLsb' 7 5))

/-- Major 0x05 (MULDIV), format R. -/
def decMuldiv (w : BitVec 32) : Except Reject Instr :=
  match (w.extractLsb' 22 7).toNat with
  | 0 => .ok (.mul (w.extractLsb' 31 1) (w.extractLsb' 30 1) (w.extractLsb' 29 1) (w.extractLsb' 17 5) (w.extractLsb' 12 5) (w.extractLsb' 7 5))
  | 1 => .ok (.mulh (w.extractLsb' 31 1) (w.extractLsb' 30 1) (w.extractLsb' 29 1) (w.extractLsb' 17 5) (w.extractLsb' 12 5) (w.extractLsb' 7 5))
  | 2 => .ok (.mulhu (w.extractLsb' 31 1) (w.extractLsb' 30 1) (w.extractLsb' 29 1) (w.extractLsb' 17 5) (w.extractLsb' 12 5) (w.extractLsb' 7 5))
  | 3 => .ok (.div (w.extractLsb' 31 1) (w.extractLsb' 30 1) (w.extractLsb' 29 1) (w.extractLsb' 17 5) (w.extractLsb' 12 5) (w.extractLsb' 7 5))
  | 4 => .ok (.divu (w.extractLsb' 31 1) (w.extractLsb' 30 1) (w.extractLsb' 29 1) (w.extractLsb' 17 5) (w.extractLsb' 12 5) (w.extractLsb' 7 5))
  | 5 => .ok (.rem (w.extractLsb' 31 1) (w.extractLsb' 30 1) (w.extractLsb' 29 1) (w.extractLsb' 17 5) (w.extractLsb' 12 5) (w.extractLsb' 7 5))
  | 6 => .ok (.remu (w.extractLsb' 31 1) (w.extractLsb' 30 1) (w.extractLsb' 29 1) (w.extractLsb' 17 5) (w.extractLsb' 12 5) (w.extractLsb' 7 5))
  | _ => .error .unassigned

/-- Major 0x06 (BR), format B. -/
def decBr (w : BitVec 32) : Except Reject Instr :=
  match (w.extractLsb' 22 3).toNat with
  | 0 => .ok (.beq (w.extractLsb' 25 7 ++ w.extractLsb' 7 5) (w.extractLsb' 17 5) (w.extractLsb' 12 5))
  | 1 => .ok (.bne (w.extractLsb' 25 7 ++ w.extractLsb' 7 5) (w.extractLsb' 17 5) (w.extractLsb' 12 5))
  | 2 => .ok (.blt (w.extractLsb' 25 7 ++ w.extractLsb' 7 5) (w.extractLsb' 17 5) (w.extractLsb' 12 5))
  | 3 => .ok (.bge (w.extractLsb' 25 7 ++ w.extractLsb' 7 5) (w.extractLsb' 17 5) (w.extractLsb' 12 5))
  | 4 => .ok (.bltu (w.extractLsb' 25 7 ++ w.extractLsb' 7 5) (w.extractLsb' 17 5) (w.extractLsb' 12 5))
  | 5 => .ok (.bgeu (w.extractLsb' 25 7 ++ w.extractLsb' 7 5) (w.extractLsb' 17 5) (w.extractLsb' 12 5))
  | _ => .error .unassigned

/-- Major 0x07 (JAL), format J. -/
def decJal (w : BitVec 32) : Except Reject Instr :=
  .ok (.jal (w.extractLsb' 7 25))

/-- Major 0x08 (JALR), format I. -/
def decJalr (w : BitVec 32) : Except Reject Instr :=
  if w.extractLsb' 30 1 ≠ 0 then .error .unusedNonzero else .ok (.jalr (w.extractLsb' 31 1) (w.extractLsb' 29 1) (w.extractLsb' 17 12) (w.extractLsb' 12 5) (w.extractLsb' 7 5))

/-- Major 0x09 (LOOP), format K. -/
def decLoop (w : BitVec 32) : Except Reject Instr :=
  match (w.extractLsb' 29 3).toNat with
  | 0 => if w.extractLsb' 7 10 ≠ 0 then .error .unusedNonzero else .ok (.loop (w.extractLsb' 17 12))
  | 1 => if w.extractLsb' 7 5 ≠ 0 then .error .unusedNonzero else if w.extractLsb' 25 4 ≠ 0 then .error .unusedNonzero else .ok (.lcset (w.extractLsb' 17 8) (w.extractLsb' 12 5))
  | 2 => if w.extractLsb' 7 22 ≠ 0 then .error .unusedNonzero else .ok (.follow)
  | _ => .error .unassigned

/-- Major 0x0A (LDX), format C. -/
def decLdx (w : BitVec 32) : Except Reject Instr :=
  match (w.extractLsb' 26 3).toNat with
  | 0 => .ok (.ldB (w.extractLsb' 31 1) (w.extractLsb' 30 1) (w.extractLsb' 29 1) (w.extractLsb' 21 5) (w.extractLsb' 16 5) (w.extractLsb' 12 4) (w.extractLsb' 7 5))
  | 1 => .ok (.ldBu (w.extractLsb' 31 1) (w.extractLsb' 30 1) (w.extractLsb' 29 1) (w.extractLsb' 21 5) (w.extractLsb' 16 5) (w.extractLsb' 12 4) (w.extractLsb' 7 5))
  | 2 => .ok (.ldH (w.extractLsb' 31 1) (w.extractLsb' 30 1) (w.extractLsb' 29 1) (w.extractLsb' 21 5) (w.extractLsb' 16 5) (w.extractLsb' 12 4) (w.extractLsb' 7 5))
  | 3 => .ok (.ldHu (w.extractLsb' 31 1) (w.extractLsb' 30 1) (w.extractLsb' 29 1) (w.extractLsb' 21 5) (w.extractLsb' 16 5) (w.extractLsb' 12 4) (w.extractLsb' 7 5))
  | 4 => .ok (.ldW (w.extractLsb' 31 1) (w.extractLsb' 30 1) (w.extractLsb' 29 1) (w.extractLsb' 21 5) (w.extractLsb' 16 5) (w.extractLsb' 12 4) (w.extractLsb' 7 5))
  | 5 => .ok (.ldWu (w.extractLsb' 31 1) (w.extractLsb' 30 1) (w.extractLsb' 29 1) (w.extractLsb' 21 5) (w.extractLsb' 16 5) (w.extractLsb' 12 4) (w.extractLsb' 7 5))
  | 6 => .ok (.ldD (w.extractLsb' 31 1) (w.extractLsb' 30 1) (w.extractLsb' 29 1) (w.extractLsb' 21 5) (w.extractLsb' 16 5) (w.extractLsb' 12 4) (w.extractLsb' 7 5))
  | _ => .error .unassigned

/-- Major 0x0B (STX), format C. -/
def decStx (w : BitVec 32) : Except Reject Instr :=
  match (w.extractLsb' 26 3).toNat with
  | 0 => .ok (.stB (w.extractLsb' 31 1) (w.extractLsb' 30 1) (w.extractLsb' 29 1) (w.extractLsb' 21 5) (w.extractLsb' 16 5) (w.extractLsb' 12 4) (w.extractLsb' 7 5))
  | 1 => .ok (.stH (w.extractLsb' 31 1) (w.extractLsb' 30 1) (w.extractLsb' 29 1) (w.extractLsb' 21 5) (w.extractLsb' 16 5) (w.extractLsb' 12 4) (w.extractLsb' 7 5))
  | 2 => .ok (.stW (w.extractLsb' 31 1) (w.extractLsb' 30 1) (w.extractLsb' 29 1) (w.extractLsb' 21 5) (w.extractLsb' 16 5) (w.extractLsb' 12 4) (w.extractLsb' 7 5))
  | 3 => .ok (.stD (w.extractLsb' 31 1) (w.extractLsb' 30 1) (w.extractLsb' 29 1) (w.extractLsb' 21 5) (w.extractLsb' 16 5) (w.extractLsb' 12 4) (w.extractLsb' 7 5))
  | _ => .error .unassigned

/-- Major 0x0C (LDV), format VC. -/
def decLdv (w : BitVec 32) : Except Reject Instr :=
  match (w.extractLsb' 27 3).toNat with
  | 0 => if w.extractLsb' 30 2 ≠ 0 then .error .unusedNonzero else .ok (.ldv (w.extractLsb' 22 5) (w.extractLsb' 17 5) (w.extractLsb' 13 4) (w.extractLsb' 7 6))
  | 1 => if w.extractLsb' 30 2 ≠ 0 then .error .unusedNonzero else .ok (.ldvS (w.extractLsb' 22 5) (w.extractLsb' 17 5) (w.extractLsb' 13 4) (w.extractLsb' 7 6))
  | _ => .error .unassigned

/-- Major 0x0D (STV), format VC. -/
def decStv (w : BitVec 32) : Except Reject Instr :=
  match (w.extractLsb' 27 3).toNat with
  | 0 => if w.extractLsb' 30 2 ≠ 0 then .error .unusedNonzero else .ok (.stv (w.extractLsb' 22 5) (w.extractLsb' 17 5) (w.extractLsb' 13 4) (w.extractLsb' 7 6))
  | 1 => if w.extractLsb' 30 2 ≠ 0 then .error .unusedNonzero else .ok (.stvS (w.extractLsb' 22 5) (w.extractLsb' 17 5) (w.extractLsb' 13 4) (w.extractLsb' 7 6))
  | _ => .error .unassigned

/-- Major 0x0E (CAPD), format R. -/
def decCapd (w : BitVec 32) : Except Reject Instr :=
  match (w.extractLsb' 22 7).toNat with
  | 0 => if w.extractLsb' 11 1 ≠ 0 then .error .fieldRule else if w.extractLsb' 16 1 ≠ 0 then .error .fieldRule else if w.extractLsb' 29 1 ≠ 0 then .error .fieldRule else .ok (.cslice (w.extractLsb' 31 1) (w.extractLsb' 30 1) (w.extractLsb' 17 5) (w.extractLsb' 12 4) (w.extractLsb' 7 4))
  | 1 => if w.extractLsb' 11 1 ≠ 0 then .error .fieldRule else if w.extractLsb' 16 1 ≠ 0 then .error .fieldRule else if w.extractLsb' 29 1 ≠ 0 then .error .fieldRule else .ok (.cstep (w.extractLsb' 31 1) (w.extractLsb' 30 1) (w.extractLsb' 17 5) (w.extractLsb' 12 4) (w.extractLsb' 7 4))
  | 2 => if w.extractLsb' 11 1 ≠ 0 then .error .fieldRule else if w.extractLsb' 16 1 ≠ 0 then .error .fieldRule else if w.extractLsb' 29 1 ≠ 0 then .error .fieldRule else .ok (.cperm (w.extractLsb' 31 1) (w.extractLsb' 30 1) (w.extractLsb' 17 5) (w.extractLsb' 12 4) (w.extractLsb' 7 4))
  | 3 => if w.extractLsb' 11 1 ≠ 0 then .error .fieldRule else if w.extractLsb' 16 1 ≠ 0 then .error .fieldRule else if w.extractLsb' 29 1 ≠ 0 then .error .fieldRule else .ok (.cfold (w.extractLsb' 31 1) (w.extractLsb' 30 1) (w.extractLsb' 17 5) (w.extractLsb' 12 4) (w.extractLsb' 7 4))
  | 4 => if w.extractLsb' 11 1 ≠ 0 then .error .fieldRule else if w.extractLsb' 16 1 ≠ 0 then .error .fieldRule else if w.extractLsb' 29 1 ≠ 0 then .error .fieldRule else .ok (.crestrict (w.extractLsb' 31 1) (w.extractLsb' 30 1) (w.extractLsb' 17 5) (w.extractLsb' 12 4) (w.extractLsb' 7 4))
  | 5 => if w.extractLsb' 11 1 ≠ 0 then .error .fieldRule else if w.extractLsb' 16 1 ≠ 0 then .error .fieldRule else if w.extractLsb' 29 1 ≠ 0 then .error .fieldRule else .ok (.cscope (w.extractLsb' 31 1) (w.extractLsb' 30 1) (w.extractLsb' 17 5) (w.extractLsb' 12 4) (w.extractLsb' 7 4))
  | 6 => if w.extractLsb' 11 1 ≠ 0 then .error .fieldRule else if w.extractLsb' 16 1 ≠ 0 then .error .fieldRule else if w.extractLsb' 29 1 ≠ 0 then .error .fieldRule else .ok (.cfmt (w.extractLsb' 31 1) (w.extractLsb' 30 1) (w.extractLsb' 17 5) (w.extractLsb' 12 4) (w.extractLsb' 7 4))
  | 7 => if w.extractLsb' 16 1 ≠ 0 then .error .fieldRule else if w.extractLsb' 29 3 ≠ 0 then .error .fieldRule else .ok (.cget (w.extractLsb' 17 5) (w.extractLsb' 12 4) (w.extractLsb' 7 5))
  | 8 => if w.extractLsb' 17 5 ≠ 0 then .error .unusedNonzero else if w.extractLsb' 11 1 ≠ 0 then .error .fieldRule else if w.extractLsb' 16 1 ≠ 0 then .error .fieldRule else if w.extractLsb' 29 3 ≠ 0 then .error .fieldRule else .ok (.cmove (w.extractLsb' 12 4) (w.extractLsb' 7 4))
  | 9 => if w.extractLsb' 11 1 ≠ 0 then .error .fieldRule else if w.extractLsb' 16 1 ≠ 0 then .error .fieldRule else if w.extractLsb' 21 1 ≠ 0 then .error .fieldRule else if w.extractLsb' 29 3 ≠ 0 then .error .fieldRule else .ok (.cseal (w.extractLsb' 17 4) (w.extractLsb' 12 4) (w.extractLsb' 7 4))
  | _ => .error .unassigned

/-- Major 0x0F (CAPM), format C. -/
def decCapm (w : BitVec 32) : Except Reject Instr :=
  match (w.extractLsb' 26 3).toNat with
  | 0 => if w.extractLsb' 11 1 ≠ 0 then .error .fieldRule else .ok (.clc (w.extractLsb' 31 1) (w.extractLsb' 30 1) (w.extractLsb' 29 1) (w.extractLsb' 21 5) (w.extractLsb' 16 5) (w.extractLsb' 12 4) (w.extractLsb' 7 4))
  | 1 => if w.extractLsb' 11 1 ≠ 0 then .error .fieldRule else .ok (.csc (w.extractLsb' 31 1) (w.extractLsb' 30 1) (w.extractLsb' 29 1) (w.extractLsb' 21 5) (w.extractLsb' 16 5) (w.extractLsb' 12 4) (w.extractLsb' 7 4))
  | 2 => .ok (.ctag (w.extractLsb' 31 1) (w.extractLsb' 30 1) (w.extractLsb' 29 1) (w.extractLsb' 21 5) (w.extractLsb' 16 5) (w.extractLsb' 12 4) (w.extractLsb' 7 5))
  | _ => .error .unassigned

/-- Major 0x10 (CALL), format R. -/
def decCall (w : BitVec 32) : Except Reject Instr :=
  match (w.extractLsb' 22 7).toNat with
  | 0 => if w.extractLsb' 16 1 ≠ 0 then .error .fieldRule else if w.extractLsb' 21 1 ≠ 0 then .error .fieldRule else if w.extractLsb' 29 3 ≠ 0 then .error .fieldRule else .ok (.ccall (w.extractLsb' 17 4) (w.extractLsb' 12 4) (w.extractLsb' 7 5))
  | 1 => if w.extractLsb' 12 10 ≠ 0 then .error .fieldRule else if w.extractLsb' 29 3 ≠ 0 then .error .fieldRule else .ok (.cret (w.extractLsb' 7 5))
  | 2 => if w.extractLsb' 11 1 ≠ 0 then .error .fieldRule else if w.extractLsb' 16 1 ≠ 0 then .error .fieldRule else if w.extractLsb' 21 1 ≠ 0 then .error .fieldRule else if w.extractLsb' 29 3 ≠ 0 then .error .fieldRule else .ok (.cunseal (w.extractLsb' 17 4) (w.extractLsb' 12 4) (w.extractLsb' 7 4))
  | _ => .error .unassigned

/-- Major 0x11 (MSG), format R. -/
def decMsg (w : BitVec 32) : Except Reject Instr :=
  match (w.extractLsb' 22 7).toNat with
  | 0 => if w.extractLsb' 11 1 ≠ 0 then .error .fieldRule else .ok (.sendRq (w.extractLsb' 31 1) (w.extractLsb' 30 1) (w.extractLsb' 29 1) (w.extractLsb' 17 5) (w.extractLsb' 12 5) (w.extractLsb' 7 4))
  | 1 => if w.extractLsb' 11 1 ≠ 0 then .error .fieldRule else .ok (.sendRp (w.extractLsb' 31 1) (w.extractLsb' 30 1) (w.extractLsb' 29 1) (w.extractLsb' 17 5) (w.extractLsb' 12 5) (w.extractLsb' 7 4))
  | 2 => if w.extractLsb' 11 1 ≠ 0 then .error .fieldRule else .ok (.sendSy (w.extractLsb' 31 1) (w.extractLsb' 30 1) (w.extractLsb' 29 1) (w.extractLsb' 17 5) (w.extractLsb' 12 5) (w.extractLsb' 7 4))
  | 3 => if w.extractLsb' 11 1 ≠ 0 then .error .fieldRule else .ok (.sendnN (w.extractLsb' 31 1) (w.extractLsb' 30 1) (w.extractLsb' 29 1) (w.extractLsb' 17 5) (w.extractLsb' 12 5) (w.extractLsb' 7 4))
  | 4 => if w.extractLsb' 11 1 ≠ 0 then .error .fieldRule else .ok (.sendnE (w.extractLsb' 31 1) (w.extractLsb' 30 1) (w.extractLsb' 29 1) (w.extractLsb' 17 5) (w.extractLsb' 12 5) (w.extractLsb' 7 4))
  | 5 => if w.extractLsb' 11 1 ≠ 0 then .error .fieldRule else .ok (.sendnS (w.extractLsb' 31 1) (w.extractLsb' 30 1) (w.extractLsb' 29 1) (w.extractLsb' 17 5) (w.extractLsb' 12 5) (w.extractLsb' 7 4))
  | 6 => if w.extractLsb' 11 1 ≠ 0 then .error .fieldRule else .ok (.sendnW (w.extractLsb' 31 1) (w.extractLsb' 30 1) (w.extractLsb' 29 1) (w.extractLsb' 17 5) (w.extractLsb' 12 5) (w.extractLsb' 7 4))
  | 7 => if w.extractLsb' 7 5 ≠ 0 then .error .unusedNonzero else .ok (.sendv (w.extractLsb' 31 1) (w.extractLsb' 30 1) (w.extractLsb' 29 1) (w.extractLsb' 17 5) (w.extractLsb' 12 5))
  | 8 => if w.extractLsb' 15 2 ≠ 0 then .error .unusedNonzero else if w.extractLsb' 11 1 ≠ 0 then .error .fieldRule else .ok (.reply (w.extractLsb' 31 1) (w.extractLsb' 30 1) (w.extractLsb' 29 1) (w.extractLsb' 17 5) (w.extractLsb' 12 3) (w.extractLsb' 7 4))
  | 9 => if w.extractLsb' 7 15 ≠ 0 then .error .unusedNonzero else if w.extractLsb' 29 3 ≠ 0 then .error .unusedNonzero else .ok (.bounce)
  | 10 => if w.extractLsb' 7 15 ≠ 0 then .error .unusedNonzero else if w.extractLsb' 29 3 ≠ 0 then .error .unusedNonzero else .ok (.done)
  | 11 => .ok (.chmask (w.extractLsb' 31 1) (w.extractLsb' 30 1) (w.extractLsb' 29 1) (w.extractLsb' 17 5) (w.extractLsb' 12 5) (w.extractLsb' 7 5))
  | 12 => .ok (.chprio (w.extractLsb' 31 1) (w.extractLsb' 30 1) (w.extractLsb' 29 1) (w.extractLsb' 17 5) (w.extractLsb' 12 5) (w.extractLsb' 7 5))
  | _ => .error .unassigned

/-- Major 0x12 (TASK), format R. -/
def decTask (w : BitVec 32) : Except Reject Instr :=
  match (w.extractLsb' 22 7).toNat with
  | 0 => if w.extractLsb' 16 1 ≠ 0 then .error .fieldRule else if w.extractLsb' 29 1 ≠ 0 then .error .fieldRule else .ok (.enq (w.extractLsb' 31 1) (w.extractLsb' 30 1) (w.extractLsb' 17 5) (w.extractLsb' 12 4) (w.extractLsb' 7 5))
  | 1 => if w.extractLsb' 16 1 ≠ 0 then .error .fieldRule else if w.extractLsb' 29 1 ≠ 0 then .error .fieldRule else .ok (.launch (w.extractLsb' 31 1) (w.extractLsb' 30 1) (w.extractLsb' 17 5) (w.extractLsb' 12 4) (w.extractLsb' 7 5))
  | 2 => if w.extractLsb' 7 15 ≠ 0 then .error .unusedNonzero else if w.extractLsb' 29 3 ≠ 0 then .error .unusedNonzero else .ok (.gdone)
  | _ => .error .unassigned

/-- Major 0x13 (SYNC), format K. -/
def decSync (w : BitVec 32) : Except Reject Instr :=
  match (w.extractLsb' 29 3).toNat with
  | 0 => if w.extractLsb' 7 10 ≠ 0 then .error (if w.extractLsb' 17 2 = 0 then .unassigned else .unusedNonzero) else if w.extractLsb' 22 7 ≠ 0 then .error (if w.extractLsb' 17 2 = 0 then .unassigned else .unusedNonzero) else .ok (.fence (w.extractLsb' 19 3) (w.extractLsb' 17 2))
  | 1 => if w.extractLsb' 17 12 ≠ 0 then .error .unusedNonzero else if w.extractLsb' 16 1 ≠ 0 then .error .fieldRule else .ok (.dcfence (w.extractLsb' 12 4) (w.extractLsb' 7 5))
  | 2 => if w.extractLsb' 16 1 ≠ 0 then .error .fieldRule else .ok (.pinit (w.extractLsb' 17 12) (w.extractLsb' 12 4) (w.extractLsb' 7 5))
  | 3 =>
    match (w.extractLsb' 17 2).toNat with
    | 1 => if w.extractLsb' 22 7 ≠ 0 then .error .unusedNonzero else if w.extractLsb' 16 1 ≠ 0 then .error .fieldRule else if w.extractLsb' 19 3 ≠ 0 then .error (if 28 ≤ (w.extractLsb' 7 5).toNat then .fieldRule else .valueNotPermitted) else .ok (.parriveRlx (w.extractLsb' 12 4) (w.extractLsb' 7 5))
    | 2 => if w.extractLsb' 22 7 ≠ 0 then .error .unusedNonzero else if w.extractLsb' 16 1 ≠ 0 then .error .fieldRule else .ok (.parriveRel (w.extractLsb' 19 3) (w.extractLsb' 12 4) (w.extractLsb' 7 5))
    | _ => .error (if w.extractLsb' 22 7 ≠ 0 then .unusedNonzero else if w.extractLsb' 16 1 ≠ 0 ∨ 28 ≤ (w.extractLsb' 7 5).toNat then .fieldRule else .valueNotPermitted)
  | 4 => if w.extractLsb' 17 12 ≠ 0 then .error .unusedNonzero else if w.extractLsb' 16 1 ≠ 0 then .error .fieldRule else .ok (.pwait (w.extractLsb' 12 4) (w.extractLsb' 7 5))
  | 5 => if w.extractLsb' 17 12 ≠ 0 then .error .unusedNonzero else if w.extractLsb' 16 1 ≠ 0 then .error .fieldRule else .ok (.pinval (w.extractLsb' 12 4) (w.extractLsb' 7 5))
  | 6 => if w.extractLsb' 19 6 ≠ 0 then .error .unusedNonzero else .ok (.boomset (w.extractLsb' 25 4) (w.extractLsb' 17 2) (w.extractLsb' 12 5) (w.extractLsb' 7 5))
  | 7 =>
    match (w.extractLsb' 17 1).toNat with
    | 0 => if w.extractLsb' 12 5 ≠ 0 then .error .unusedNonzero else if w.extractLsb' 20 9 ≠ 0 then .error .unusedNonzero else .ok (.boomRlx (w.extractLsb' 18 2) (w.extractLsb' 7 5))
    | 1 => if w.extractLsb' 12 5 ≠ 0 then .error .unusedNonzero else if w.extractLsb' 20 9 ≠ 0 then .error .unusedNonzero else .ok (.boomRel (w.extractLsb' 18 2) (w.extractLsb' 7 5))
    | _ => .error .unassigned
  | _ => .error .unassigned

/-- Major 0x14 (ATOM), format R. -/
def decAtom (w : BitVec 32) : Except Reject Instr :=
  match (w.extractLsb' 22 7).toNat with
  | 0 => if w.extractLsb' 16 1 ≠ 0 then .error .fieldRule else if w.extractLsb' 29 1 ≠ 0 then .error .fieldRule else if w.extractLsb' 31 1 ≠ 0 then .error .fieldRule else .ok (.aadd (w.extractLsb' 30 1) (w.extractLsb' 17 5) (w.extractLsb' 12 4) (w.extractLsb' 7 5))
  | 1 => if w.extractLsb' 16 1 ≠ 0 then .error .fieldRule else if w.extractLsb' 29 1 ≠ 0 then .error .fieldRule else if w.extractLsb' 31 1 ≠ 0 then .error .fieldRule else .ok (.amin (w.extractLsb' 30 1) (w.extractLsb' 17 5) (w.extractLsb' 12 4) (w.extractLsb' 7 5))
  | 2 => if w.extractLsb' 16 1 ≠ 0 then .error .fieldRule else if w.extractLsb' 29 1 ≠ 0 then .error .fieldRule else if w.extractLsb' 31 1 ≠ 0 then .error .fieldRule else .ok (.amax (w.extractLsb' 30 1) (w.extractLsb' 17 5) (w.extractLsb' 12 4) (w.extractLsb' 7 5))
  | 3 => if w.extractLsb' 16 1 ≠ 0 then .error .fieldRule else if w.extractLsb' 29 1 ≠ 0 then .error .fieldRule else if w.extractLsb' 31 1 ≠ 0 then .error .fieldRule else .ok (.aminu (w.extractLsb' 30 1) (w.extractLsb' 17 5) (w.extractLsb' 12 4) (w.extractLsb' 7 5))
  | 4 => if w.extractLsb' 16 1 ≠ 0 then .error .fieldRule else if w.extractLsb' 29 1 ≠ 0 then .error .fieldRule else if w.extractLsb' 31 1 ≠ 0 then .error .fieldRule else .ok (.amaxu (w.extractLsb' 30 1) (w.extractLsb' 17 5) (w.extractLsb' 12 4) (w.extractLsb' 7 5))
  | 5 => if w.extractLsb' 16 1 ≠ 0 then .error .fieldRule else if w.extractLsb' 29 1 ≠ 0 then .error .fieldRule else if w.extractLsb' 31 1 ≠ 0 then .error .fieldRule else .ok (.aand (w.extractLsb' 30 1) (w.extractLsb' 17 5) (w.extractLsb' 12 4) (w.extractLsb' 7 5))
  | 6 => if w.extractLsb' 16 1 ≠ 0 then .error .fieldRule else if w.extractLsb' 29 1 ≠ 0 then .error .fieldRule else if w.extractLsb' 31 1 ≠ 0 then .error .fieldRule else .ok (.aor (w.extractLsb' 30 1) (w.extractLsb' 17 5) (w.extractLsb' 12 4) (w.extractLsb' 7 5))
  | 7 => if w.extractLsb' 16 1 ≠ 0 then .error .fieldRule else if w.extractLsb' 29 1 ≠ 0 then .error .fieldRule else if w.extractLsb' 31 1 ≠ 0 then .error .fieldRule else .ok (.axor (w.extractLsb' 30 1) (w.extractLsb' 17 5) (w.extractLsb' 12 4) (w.extractLsb' 7 5))
  | 8 => if w.extractLsb' 16 1 ≠ 0 then .error .fieldRule else if w.extractLsb' 29 1 ≠ 0 then .error .fieldRule else if w.extractLsb' 31 1 ≠ 0 then .error .fieldRule else .ok (.aswp (w.extractLsb' 30 1) (w.extractLsb' 17 5) (w.extractLsb' 12 4) (w.extractLsb' 7 5))
  | 9 => if w.extractLsb' 16 1 ≠ 0 then .error .fieldRule else if w.extractLsb' 29 1 ≠ 0 then .error .fieldRule else if w.extractLsb' 31 1 ≠ 0 then .error .fieldRule else .ok (.acas (w.extractLsb' 30 1) (w.extractLsb' 17 5) (w.extractLsb' 12 4) (w.extractLsb' 7 5))
  | 10 => if w.extractLsb' 16 1 ≠ 0 then .error .fieldRule else if w.extractLsb' 29 1 ≠ 0 then .error .fieldRule else if w.extractLsb' 31 1 ≠ 0 then .error .fieldRule else .ok (.afadd (w.extractLsb' 30 1) (w.extractLsb' 17 5) (w.extractLsb' 12 4) (w.extractLsb' 7 5))
  | 11 => if w.extractLsb' 16 1 ≠ 0 then .error .fieldRule else if w.extractLsb' 29 3 ≠ 0 then .error .fieldRule else .ok (.aredVAdd (w.extractLsb' 17 5) (w.extractLsb' 12 4) (w.extractLsb' 7 5))
  | 12 => if w.extractLsb' 16 1 ≠ 0 then .error .fieldRule else if w.extractLsb' 29 3 ≠ 0 then .error .fieldRule else .ok (.aredVMax (w.extractLsb' 17 5) (w.extractLsb' 12 4) (w.extractLsb' 7 5))
  | 13 => if w.extractLsb' 16 1 ≠ 0 then .error .fieldRule else if w.extractLsb' 29 3 ≠ 0 then .error .fieldRule else .ok (.aredVMin (w.extractLsb' 17 5) (w.extractLsb' 12 4) (w.extractLsb' 7 5))
  | 14 => if w.extractLsb' 16 1 ≠ 0 then .error .fieldRule else if w.extractLsb' 29 3 ≠ 0 then .error .fieldRule else .ok (.aredVFadd (w.extractLsb' 17 5) (w.extractLsb' 12 4) (w.extractLsb' 7 5))
  | _ => .error .unassigned

/-- Major 0x15 (COPY), format M. -/
def decCopy (w : BitVec 32) : Except Reject Instr :=
  match (w.extractLsb' 29 3).toNat with
  | 0 =>
    match (w.extractLsb' 20 4).toNat with
    | 0 => if w.extractLsb' 7 5 ≠ 0 then .error .unusedNonzero else if w.extractLsb' 17 3 ≠ 0 then .error .unusedNonzero else if w.extractLsb' 24 5 ≠ 0 then .error .unusedNonzero else .ok (.cpsetSrc (w.extractLsb' 16 1) (w.extractLsb' 12 4))
    | 1 => if w.extractLsb' 7 5 ≠ 0 then .error .unusedNonzero else if w.extractLsb' 17 3 ≠ 0 then .error .unusedNonzero else if w.extractLsb' 24 5 ≠ 0 then .error .unusedNonzero else .ok (.cpsetDst (w.extractLsb' 16 1) (w.extractLsb' 12 4))
    | 2 => if w.extractLsb' 7 5 ≠ 0 then .error .unusedNonzero else if w.extractLsb' 17 3 ≠ 0 then .error .unusedNonzero else if w.extractLsb' 24 5 ≠ 0 then .error .unusedNonzero else .ok (.cpsetAux (w.extractLsb' 16 1) (w.extractLsb' 12 4))
    | 3 => if w.extractLsb' 7 9 ≠ 0 then .error .unusedNonzero else if w.extractLsb' 17 3 ≠ 0 then .error .unusedNonzero else .ok (.cpsetCtl (w.extractLsb' 24 5) (w.extractLsb' 16 1))
    | 4 => if w.extractLsb' 7 9 ≠ 0 then .error .unusedNonzero else if w.extractLsb' 17 3 ≠ 0 then .error .unusedNonzero else .ok (.cpsetMlo (w.extractLsb' 24 5) (w.extractLsb' 16 1))
    | 5 => if w.extractLsb' 7 9 ≠ 0 then .error .unusedNonzero else if w.extractLsb' 17 3 ≠ 0 then .error .unusedNonzero else .ok (.cpsetMhi (w.extractLsb' 24 5) (w.extractLsb' 16 1))
    | _ => .error .unassigned
  | 1 => if w.extractLsb' 12 4 ≠ 0 then .error .unusedNonzero else if w.extractLsb' 17 12 ≠ 0 then .error .unusedNonzero else .ok (.cpgo (w.extractLsb' 16 1) (w.extractLsb' 7 5))
  | 2 => if w.extractLsb' 12 4 ≠ 0 then .error (if 3 ≤ (w.extractLsb' 20 4).toNat then .unassigned else .unusedNonzero) else if w.extractLsb' 17 3 ≠ 0 then .error (if 3 ≤ (w.extractLsb' 20 4).toNat then .unassigned else .unusedNonzero) else if w.extractLsb' 24 5 ≠ 0 then .error (if 3 ≤ (w.extractLsb' 20 4).toNat then .unassigned else .unusedNonzero) else .ok (.cpstat (w.extractLsb' 20 4) (w.extractLsb' 16 1) (w.extractLsb' 7 5))
  | 3 => if w.extractLsb' 12 4 ≠ 0 then .error .unusedNonzero else if w.extractLsb' 17 7 ≠ 0 then .error .unusedNonzero else .ok (.cpnote (w.extractLsb' 24 5) (w.extractLsb' 16 1) (w.extractLsb' 7 5))
  | 4 => if w.extractLsb' 12 4 ≠ 0 then .error .unusedNonzero else if w.extractLsb' 17 12 ≠ 0 then .error .unusedNonzero else .ok (.cpgath (w.extractLsb' 16 1) (w.extractLsb' 7 5))
  | 5 => if w.extractLsb' 12 4 ≠ 0 then .error .unusedNonzero else if w.extractLsb' 17 12 ≠ 0 then .error .unusedNonzero else .ok (.cpscat (w.extractLsb' 16 1) (w.extractLsb' 7 5))
  | 6 => if w.extractLsb' 12 4 ≠ 0 then .error .unusedNonzero else if w.extractLsb' 17 12 ≠ 0 then .error .unusedNonzero else .ok (.cpcast (w.extractLsb' 16 1) (w.extractLsb' 7 5))
  | 7 => if w.extractLsb' 12 4 ≠ 0 then .error .unusedNonzero else if w.extractLsb' 17 12 ≠ 0 then .error .unusedNonzero else .ok (.cpred (w.extractLsb' 16 1) (w.extractLsb' 7 5))
  | _ => .error .unassigned

/-- Major 0x16 (MAT), format M. -/
def decMat (w : BitVec 32) : Except Reject Instr :=
  match (w.extractLsb' 29 3).toNat with
  | 0 => if w.extractLsb' 12 4 ≠ 0 then .error .unusedNonzero else if w.extractLsb' 24 5 ≠ 0 then .error .unusedNonzero else .ok (.mlease (w.extractLsb' 16 8) (w.extractLsb' 7 5))
  | 1 => if w.extractLsb' 7 22 ≠ 0 then .error .unusedNonzero else .ok (.mrel)
  | 2 => if w.extractLsb' 7 17 ≠ 0 then .error .unusedNonzero else .ok (.mcfg (w.extractLsb' 24 5))
  | 3 => if w.extractLsb' 24 5 ≠ 0 then .error .unusedNonzero else .ok (.mma (w.extractLsb' 20 4) (w.extractLsb' 16 4) (w.extractLsb' 12 4) (w.extractLsb' 7 5))
  | 4 => if w.extractLsb' 24 5 ≠ 0 then .error .unusedNonzero else .ok (.mmaZ (w.extractLsb' 20 4) (w.extractLsb' 16 4) (w.extractLsb' 12 4) (w.extractLsb' 7 5))
  | 5 => if w.extractLsb' 11 1 ≠ 0 then .error .fieldRule else .ok (.mad (w.extractLsb' 24 5) (w.extractLsb' 20 4) (w.extractLsb' 16 4) (w.extractLsb' 12 4) (w.extractLsb' 7 4))
  | 6 => if w.extractLsb' 16 4 ≠ 0 then .error .unusedNonzero else .ok (.mcvt (w.extractLsb' 24 5) (w.extractLsb' 20 4) (w.extractLsb' 12 4) (w.extractLsb' 7 5))
  | 7 => if w.extractLsb' 12 8 ≠ 0 then .error .unusedNonzero else if w.extractLsb' 24 5 ≠ 0 then .error .unusedNonzero else .ok (.mzero (w.extractLsb' 20 4) (w.extractLsb' 7 5))
  | _ => .error .unassigned

/-- Major 0x17 (NET), format M. -/
def decNet (w : BitVec 32) : Except Reject Instr :=
  match (w.extractLsb' 29 3).toNat with
  | 0 => if w.extractLsb' 16 13 ≠ 0 then .error .unusedNonzero else .ok (.nalloc (w.extractLsb' 12 4) (w.extractLsb' 7 5))
  | 1 => if w.extractLsb' 7 5 ≠ 0 then .error .unusedNonzero else if w.extractLsb' 16 8 ≠ 0 then .error .unusedNonzero else .ok (.nfree (w.extractLsb' 24 5) (w.extractLsb' 12 4))
  | 2 => if w.extractLsb' 16 8 ≠ 0 then .error .unusedNonzero else .ok (.nlink (w.extractLsb' 24 5) (w.extractLsb' 12 4) (w.extractLsb' 7 5))
  | 3 => if w.extractLsb' 19 5 ≠ 0 then .error .unusedNonzero else .ok (.nload (w.extractLsb' 24 5) (w.extractLsb' 16 3) (w.extractLsb' 12 4) (w.extractLsb' 7 5))
  | 4 => if w.extractLsb' 19 5 ≠ 0 then .error .unusedNonzero else .ok (.nstore (w.extractLsb' 24 5) (w.extractLsb' 16 3) (w.extractLsb' 12 4) (w.extractLsb' 7 5))
  | 5 => if w.extractLsb' 7 5 ≠ 0 then .error .unusedNonzero else if w.extractLsb' 16 8 ≠ 0 then .error .unusedNonzero else .ok (.npush (w.extractLsb' 24 5) (w.extractLsb' 12 4))
  | 6 => if w.extractLsb' 16 8 ≠ 0 then .error .unusedNonzero else .ok (.nbagBind (w.extractLsb' 24 5) (w.extractLsb' 12 4) (w.extractLsb' 7 5))
  | _ => .error .unassigned

/-- Major 0x18 (SFU), format V. -/
def decSfu (w : BitVec 32) : Except Reject Instr :=
  match (w.extractLsb' 28 4).toNat with
  | 0 => if w.extractLsb' 19 6 ≠ 0 then .error .unusedNonzero else .ok (.sexp2 (w.extractLsb' 25 3) (w.extractLsb' 13 6) (w.extractLsb' 7 6))
  | 1 => if w.extractLsb' 19 6 ≠ 0 then .error .unusedNonzero else .ok (.slog2 (w.extractLsb' 25 3) (w.extractLsb' 13 6) (w.extractLsb' 7 6))
  | 2 => if w.extractLsb' 19 6 ≠ 0 then .error .unusedNonzero else .ok (.srcp (w.extractLsb' 25 3) (w.extractLsb' 13 6) (w.extractLsb' 7 6))
  | 3 => if w.extractLsb' 19 6 ≠ 0 then .error .unusedNonzero else .ok (.srsqrt (w.extractLsb' 25 3) (w.extractLsb' 13 6) (w.extractLsb' 7 6))
  | 4 => if w.extractLsb' 19 6 ≠ 0 then .error .unusedNonzero else .ok (.ssqrt (w.extractLsb' 25 3) (w.extractLsb' 13 6) (w.extractLsb' 7 6))
  | 5 => if w.extractLsb' 19 6 ≠ 0 then .error .unusedNonzero else .ok (.ssin (w.extractLsb' 25 3) (w.extractLsb' 13 6) (w.extractLsb' 7 6))
  | 6 => if w.extractLsb' 19 6 ≠ 0 then .error .unusedNonzero else .ok (.scos (w.extractLsb' 25 3) (w.extractLsb' 13 6) (w.extractLsb' 7 6))
  | _ => .error .unassigned

/-- Major 0x19 (KREG), format K. -/
def decKreg (w : BitVec 32) : Except Reject Instr :=
  match (w.extractLsb' 29 3).toNat with
  | 0 => if w.extractLsb' 12 5 ≠ 0 then .error .unusedNonzero else .ok (.kread (w.extractLsb' 17 12) (w.extractLsb' 7 5))
  | 1 => if w.extractLsb' 7 5 ≠ 0 then .error .unusedNonzero else .ok (.kwrite (w.extractLsb' 17 12) (w.extractLsb' 12 5))
  | 2 => .ok (.kswap (w.extractLsb' 17 12) (w.extractLsb' 12 5) (w.extractLsb' 7 5))
  | _ => .error .unassigned

/-- Major 0x1A (SYS), format K. -/
def decSys (w : BitVec 32) : Except Reject Instr :=
  match (w.extractLsb' 29 3).toNat with
  | 0 => if w.extractLsb' 7 10 ≠ 0 then .error .unusedNonzero else .ok (.svc (w.extractLsb' 17 12))
  | 1 => if w.extractLsb' 17 12 ≠ 0 then .error .unusedNonzero else .ok (.tret (w.extractLsb' 12 5) (w.extractLsb' 7 5))
  | 2 => if w.extractLsb' 17 12 ≠ 0 then .error .unusedNonzero else .ok (.tdrop (w.extractLsb' 12 5) (w.extractLsb' 7 5))
  | 3 => if w.extractLsb' 7 10 ≠ 0 then .error .unusedNonzero else .ok (.brk (w.extractLsb' 17 12))
  | 4 => if w.extractLsb' 7 22 ≠ 0 then .error .unusedNonzero else .ok (.halt)
  | 5 => if w.extractLsb' 17 12 ≠ 0 then .error .unusedNonzero else if w.extractLsb' 16 1 ≠ 0 then .error .fieldRule else .ok (.kcset (w.extractLsb' 12 4) (w.extractLsb' 7 5))
  | _ => .error .unassigned

/-- Major 0x1B (FPS), format R. A nonzero unused field of the unary `fcvt` forms gives reason 2 (DESIGN CHOICE: log entry 62). -/
def decFps (w : BitVec 32) : Except Reject Instr :=
  match (w.extractLsb' 22 7).toNat with
  | 0 => .ok (.fadd (w.extractLsb' 31 1) (w.extractLsb' 30 1) (w.extractLsb' 29 1) (w.extractLsb' 17 5) (w.extractLsb' 12 5) (w.extractLsb' 7 5))
  | 1 => .ok (.fsub (w.extractLsb' 31 1) (w.extractLsb' 30 1) (w.extractLsb' 29 1) (w.extractLsb' 17 5) (w.extractLsb' 12 5) (w.extractLsb' 7 5))
  | 2 => .ok (.fmul (w.extractLsb' 31 1) (w.extractLsb' 30 1) (w.extractLsb' 29 1) (w.extractLsb' 17 5) (w.extractLsb' 12 5) (w.extractLsb' 7 5))
  | 3 => .ok (.fmadd (w.extractLsb' 31 1) (w.extractLsb' 30 1) (w.extractLsb' 29 1) (w.extractLsb' 17 5) (w.extractLsb' 12 5) (w.extractLsb' 7 5))
  | 4 => .ok (.fmin (w.extractLsb' 31 1) (w.extractLsb' 30 1) (w.extractLsb' 29 1) (w.extractLsb' 17 5) (w.extractLsb' 12 5) (w.extractLsb' 7 5))
  | 5 => .ok (.fmax (w.extractLsb' 31 1) (w.extractLsb' 30 1) (w.extractLsb' 29 1) (w.extractLsb' 17 5) (w.extractLsb' 12 5) (w.extractLsb' 7 5))
  | 6 => .ok (.fcmpEq (w.extractLsb' 31 1) (w.extractLsb' 30 1) (w.extractLsb' 29 1) (w.extractLsb' 17 5) (w.extractLsb' 12 5) (w.extractLsb' 7 5))
  | 7 => .ok (.fcmpLt (w.extractLsb' 31 1) (w.extractLsb' 30 1) (w.extractLsb' 29 1) (w.extractLsb' 17 5) (w.extractLsb' 12 5) (w.extractLsb' 7 5))
  | 8 => .ok (.fcmpLe (w.extractLsb' 31 1) (w.extractLsb' 30 1) (w.extractLsb' 29 1) (w.extractLsb' 17 5) (w.extractLsb' 12 5) (w.extractLsb' 7 5))
  | 9 => .ok (.fcmpUn (w.extractLsb' 31 1) (w.extractLsb' 30 1) (w.extractLsb' 29 1) (w.extractLsb' 17 5) (w.extractLsb' 12 5) (w.extractLsb' 7 5))
  | 10 => if w.extractLsb' 17 5 ≠ 0 then .error .unusedNonzero else if w.extractLsb' 30 1 ≠ 0 then .error .fieldRule else .ok (.fcvtLF (w.extractLsb' 31 1) (w.extractLsb' 29 1) (w.extractLsb' 12 5) (w.extractLsb' 7 5))
  | 11 => if w.extractLsb' 17 5 ≠ 0 then .error .unusedNonzero else if w.extractLsb' 30 1 ≠ 0 then .error .fieldRule else .ok (.fcvtLuF (w.extractLsb' 31 1) (w.extractLsb' 29 1) (w.extractLsb' 12 5) (w.extractLsb' 7 5))
  | 12 => if w.extractLsb' 17 5 ≠ 0 then .error .unusedNonzero else if w.extractLsb' 30 1 ≠ 0 then .error .fieldRule else .ok (.fcvtFL (w.extractLsb' 31 1) (w.extractLsb' 29 1) (w.extractLsb' 12 5) (w.extractLsb' 7 5))
  | 13 => if w.extractLsb' 17 5 ≠ 0 then .error .unusedNonzero else if w.extractLsb' 30 1 ≠ 0 then .error .fieldRule else .ok (.fcvtFLu (w.extractLsb' 31 1) (w.extractLsb' 29 1) (w.extractLsb' 12 5) (w.extractLsb' 7 5))
  | 14 => .ok (.fsgnj (w.extractLsb' 31 1) (w.extractLsb' 30 1) (w.extractLsb' 29 1) (w.extractLsb' 17 5) (w.extractLsb' 12 5) (w.extractLsb' 7 5))
  | 15 => .ok (.fsgnjn (w.extractLsb' 31 1) (w.extractLsb' 30 1) (w.extractLsb' 29 1) (w.extractLsb' 17 5) (w.extractLsb' 12 5) (w.extractLsb' 7 5))
  | 16 => .ok (.fsgnjx (w.extractLsb' 31 1) (w.extractLsb' 30 1) (w.extractLsb' 29 1) (w.extractLsb' 17 5) (w.extractLsb' 12 5) (w.extractLsb' 7 5))
  | _ => .error .unassigned

/-- Major 0x20 (VI), format V. -/
def decVi (w : BitVec 32) : Except Reject Instr :=
  match (w.extractLsb' 28 4).toNat with
  | 0 => .ok (.vadd (w.extractLsb' 25 3) (w.extractLsb' 19 6) (w.extractLsb' 13 6) (w.extractLsb' 7 6) (w.extractLsb' 1 2))
  | 1 => .ok (.vsub (w.extractLsb' 25 3) (w.extractLsb' 19 6) (w.extractLsb' 13 6) (w.extractLsb' 7 6) (w.extractLsb' 1 2))
  | 2 => .ok (.vadds (w.extractLsb' 25 3) (w.extractLsb' 19 6) (w.extractLsb' 13 6) (w.extractLsb' 7 6) (w.extractLsb' 1 2))
  | 3 => .ok (.vaddus (w.extractLsb' 25 3) (w.extractLsb' 19 6) (w.extractLsb' 13 6) (w.extractLsb' 7 6) (w.extractLsb' 1 2))
  | 4 => .ok (.vsubs (w.extractLsb' 25 3) (w.extractLsb' 19 6) (w.extractLsb' 13 6) (w.extractLsb' 7 6) (w.extractLsb' 1 2))
  | 5 => .ok (.vsubus (w.extractLsb' 25 3) (w.extractLsb' 19 6) (w.extractLsb' 13 6) (w.extractLsb' 7 6) (w.extractLsb' 1 2))
  | 6 => .ok (.vmul (w.extractLsb' 25 3) (w.extractLsb' 19 6) (w.extractLsb' 13 6) (w.extractLsb' 7 6) (w.extractLsb' 1 2))
  | 7 => .ok (.vmulh (w.extractLsb' 25 3) (w.extractLsb' 19 6) (w.extractLsb' 13 6) (w.extractLsb' 7 6) (w.extractLsb' 1 2))
  | 8 => .ok (.vmin (w.extractLsb' 25 3) (w.extractLsb' 19 6) (w.extractLsb' 13 6) (w.extractLsb' 7 6) (w.extractLsb' 1 2))
  | 9 => .ok (.vmax (w.extractLsb' 25 3) (w.extractLsb' 19 6) (w.extractLsb' 13 6) (w.extractLsb' 7 6) (w.extractLsb' 1 2))
  | 10 => .ok (.vminu (w.extractLsb' 25 3) (w.extractLsb' 19 6) (w.extractLsb' 13 6) (w.extractLsb' 7 6) (w.extractLsb' 1 2))
  | 11 => .ok (.vmaxu (w.extractLsb' 25 3) (w.extractLsb' 19 6) (w.extractLsb' 13 6) (w.extractLsb' 7 6) (w.extractLsb' 1 2))
  | 12 => .ok (.vsll (w.extractLsb' 25 3) (w.extractLsb' 19 6) (w.extractLsb' 13 6) (w.extractLsb' 7 6) (w.extractLsb' 1 2))
  | 13 => .ok (.vsrl (w.extractLsb' 25 3) (w.extractLsb' 19 6) (w.extractLsb' 13 6) (w.extractLsb' 7 6) (w.extractLsb' 1 2))
  | 14 => .ok (.vsra (w.extractLsb' 25 3) (w.extractLsb' 19 6) (w.extractLsb' 13 6) (w.extractLsb' 7 6) (w.extractLsb' 1 2))
  | 15 =>
    match (w.extractLsb' 25 3).toNat with
    | 0 => .ok (.vmulhu (w.extractLsb' 19 6) (w.extractLsb' 13 6) (w.extractLsb' 7 6) (w.extractLsb' 1 2))
    | 1 => .ok (.vavgu (w.extractLsb' 19 6) (w.extractLsb' 13 6) (w.extractLsb' 7 6) (w.extractLsb' 1 2))
    | 2 => if w.extractLsb' 19 6 ≠ 0 then .error .unusedNonzero else .ok (.vabs (w.extractLsb' 13 6) (w.extractLsb' 7 6) (w.extractLsb' 1 2))
    | 3 => .ok (.vand (w.extractLsb' 19 6) (w.extractLsb' 13 6) (w.extractLsb' 7 6) (w.extractLsb' 1 2))
    | 4 => .ok (.vor (w.extractLsb' 19 6) (w.extractLsb' 13 6) (w.extractLsb' 7 6) (w.extractLsb' 1 2))
    | 5 => .ok (.vxor (w.extractLsb' 19 6) (w.extractLsb' 13 6) (w.extractLsb' 7 6) (w.extractLsb' 1 2))
    | 6 => .ok (.vandn (w.extractLsb' 19 6) (w.extractLsb' 13 6) (w.extractLsb' 7 6) (w.extractLsb' 1 2))
    | _ => .error .unassigned
  | _ => .error .unassigned

/-- Major 0x24 (VF), format V. -/
def decVf (w : BitVec 32) : Except Reject Instr :=
  match (w.extractLsb' 28 4).toNat with
  | 0 => .ok (.vfadd (w.extractLsb' 25 3) (w.extractLsb' 19 6) (w.extractLsb' 13 6) (w.extractLsb' 7 6) (w.extractLsb' 1 2))
  | 1 => .ok (.vfsub (w.extractLsb' 25 3) (w.extractLsb' 19 6) (w.extractLsb' 13 6) (w.extractLsb' 7 6) (w.extractLsb' 1 2))
  | 2 => .ok (.vfmul (w.extractLsb' 25 3) (w.extractLsb' 19 6) (w.extractLsb' 13 6) (w.extractLsb' 7 6) (w.extractLsb' 1 2))
  | 3 => .ok (.vfma (w.extractLsb' 25 3) (w.extractLsb' 19 6) (w.extractLsb' 13 6) (w.extractLsb' 7 6) (w.extractLsb' 1 2))
  | 4 => .ok (.vfmin (w.extractLsb' 25 3) (w.extractLsb' 19 6) (w.extractLsb' 13 6) (w.extractLsb' 7 6) (w.extractLsb' 1 2))
  | 5 => .ok (.vfmax (w.extractLsb' 25 3) (w.extractLsb' 19 6) (w.extractLsb' 13 6) (w.extractLsb' 7 6) (w.extractLsb' 1 2))
  | 6 => if w.extractLsb' 19 6 ≠ 0 then .error .unusedNonzero else .ok (.vfabs (w.extractLsb' 25 3) (w.extractLsb' 13 6) (w.extractLsb' 7 6) (w.extractLsb' 1 2))
  | 7 => if w.extractLsb' 19 6 ≠ 0 then .error .unusedNonzero else .ok (.vfneg (w.extractLsb' 25 3) (w.extractLsb' 13 6) (w.extractLsb' 7 6) (w.extractLsb' 1 2))
  | _ => .error .unassigned

/-- Major 0x27 (VCVT), format V. -/
def decVcvt (w : BitVec 32) : Except Reject Instr :=
  match (w.extractLsb' 28 4).toNat with
  | 0 => if w.extractLsb' 24 1 ≠ 0 then .error .unusedNonzero else .ok (.vcvt (w.extractLsb' 25 3) (w.extractLsb' 19 5) (w.extractLsb' 13 6) (w.extractLsb' 7 6))
  | 1 => if w.extractLsb' 12 1 ≠ 0 then .error .unusedNonzero else if w.extractLsb' 18 1 ≠ 0 then .error .unusedNonzero else if w.extractLsb' 25 3 ≠ 0 then .error .unusedNonzero else .ok (.vmxsc (w.extractLsb' 19 6) (w.extractLsb' 13 5) (w.extractLsb' 7 5))
  | _ => .error .unassigned

/-- Major 0x28 (VPERM), format V. -/
noncomputable def decVperm (w : BitVec 32) : Except Reject Instr :=
  match (w.extractLsb' 28 4).toNat with
  | 0 => .ok (.vshuf (w.extractLsb' 25 3) (w.extractLsb' 19 6) (w.extractLsb' 13 6) (w.extractLsb' 7 6))
  | 1 => .ok (.vzipLo (w.extractLsb' 25 3) (w.extractLsb' 19 6) (w.extractLsb' 13 6) (w.extractLsb' 7 6))
  | 2 => .ok (.vzipHi (w.extractLsb' 25 3) (w.extractLsb' 19 6) (w.extractLsb' 13 6) (w.extractLsb' 7 6))
  | 3 => .ok (.vunzipEv (w.extractLsb' 25 3) (w.extractLsb' 19 6) (w.extractLsb' 13 6) (w.extractLsb' 7 6))
  | 4 => .ok (.vunzipOd (w.extractLsb' 25 3) (w.extractLsb' 19 6) (w.extractLsb' 13 6) (w.extractLsb' 7 6))
  | 5 => .ok (.vbcast (w.extractLsb' 25 3) (w.extractLsb' 19 6) (w.extractLsb' 13 6) (w.extractLsb' 7 6))
  | 6 => .ok (.vextLo (w.extractLsb' 25 3) (w.extractLsb' 19 6) (w.extractLsb' 13 6) (w.extractLsb' 7 6))
  | 7 => .ok (.vextHi (w.extractLsb' 25 3) (w.extractLsb' 19 6) (w.extractLsb' 13 6) (w.extractLsb' 7 6))
  | 8 => .ok (.vsel (w.extractLsb' 25 3) (w.extractLsb' 19 6) (w.extractLsb' 13 6) (w.extractLsb' 7 6))
  | _ => .error .unassigned

/-- Major 0x29 (VRED), format V. -/
noncomputable def decVred (w : BitVec 32) : Except Reject Instr :=
  match (w.extractLsb' 28 4).toNat with
  | 0 => if w.extractLsb' 12 1 ≠ 0 then .error .unusedNonzero else if w.extractLsb' 19 6 ≠ 0 then .error .unusedNonzero else .ok (.vredaddInt (w.extractLsb' 28 2) (w.extractLsb' 25 3) (w.extractLsb' 13 6) (w.extractLsb' 7 5))
  | 1 => if w.extractLsb' 12 1 ≠ 0 then .error .unusedNonzero else if w.extractLsb' 19 6 ≠ 0 then .error .unusedNonzero else .ok (.vredaddInt (w.extractLsb' 28 2) (w.extractLsb' 25 3) (w.extractLsb' 13 6) (w.extractLsb' 7 5))
  | 2 => if w.extractLsb' 12 1 ≠ 0 then .error .unusedNonzero else if w.extractLsb' 19 6 ≠ 0 then .error .unusedNonzero else .ok (.vredaddInt (w.extractLsb' 28 2) (w.extractLsb' 25 3) (w.extractLsb' 13 6) (w.extractLsb' 7 5))
  | 3 => if w.extractLsb' 12 1 ≠ 0 then .error .unusedNonzero else if w.extractLsb' 19 6 ≠ 0 then .error .unusedNonzero else .ok (.vredaddInt (w.extractLsb' 28 2) (w.extractLsb' 25 3) (w.extractLsb' 13 6) (w.extractLsb' 7 5))
  | 4 => if w.extractLsb' 12 1 ≠ 0 then .error .unusedNonzero else if w.extractLsb' 19 6 ≠ 0 then .error .unusedNonzero else .ok (.vredmaxInt (w.extractLsb' 28 2) (w.extractLsb' 25 3) (w.extractLsb' 13 6) (w.extractLsb' 7 5))
  | 5 => if w.extractLsb' 12 1 ≠ 0 then .error .unusedNonzero else if w.extractLsb' 19 6 ≠ 0 then .error .unusedNonzero else .ok (.vredmaxInt (w.extractLsb' 28 2) (w.extractLsb' 25 3) (w.extractLsb' 13 6) (w.extractLsb' 7 5))
  | 6 => if w.extractLsb' 12 1 ≠ 0 then .error .unusedNonzero else if w.extractLsb' 19 6 ≠ 0 then .error .unusedNonzero else .ok (.vredmaxInt (w.extractLsb' 28 2) (w.extractLsb' 25 3) (w.extractLsb' 13 6) (w.extractLsb' 7 5))
  | 7 => if w.extractLsb' 12 1 ≠ 0 then .error .unusedNonzero else if w.extractLsb' 19 6 ≠ 0 then .error .unusedNonzero else .ok (.vredmaxInt (w.extractLsb' 28 2) (w.extractLsb' 25 3) (w.extractLsb' 13 6) (w.extractLsb' 7 5))
  | 8 => if w.extractLsb' 12 1 ≠ 0 then .error .unusedNonzero else if w.extractLsb' 19 6 ≠ 0 then .error .unusedNonzero else .ok (.vredaddF32 (w.extractLsb' 25 3) (w.extractLsb' 13 6) (w.extractLsb' 7 5))
  | 9 => if w.extractLsb' 12 1 ≠ 0 then .error .unusedNonzero else if w.extractLsb' 19 6 ≠ 0 then .error .unusedNonzero else .ok (.vredmaxF32 (w.extractLsb' 25 3) (w.extractLsb' 13 6) (w.extractLsb' 7 5))
  | 10 => if w.extractLsb' 12 1 ≠ 0 then .error .unusedNonzero else if w.extractLsb' 24 1 ≠ 0 then .error .unusedNonzero else .ok (.vredamax (w.extractLsb' 25 3) (w.extractLsb' 19 5) (w.extractLsb' 13 6) (w.extractLsb' 7 5))
  | 11 => .ok (.vdot4 (w.extractLsb' 25 3) (w.extractLsb' 19 6) (w.extractLsb' 13 6) (w.extractLsb' 7 6))
  | 12 => .ok (.vdot2 (w.extractLsb' 25 3) (w.extractLsb' 19 6) (w.extractLsb' 13 6) (w.extractLsb' 7 6))
  | _ => .error .unassigned

/-- Major 0x2A (VMSK), format V. -/
noncomputable def decVmsk (w : BitVec 32) : Except Reject Instr :=
  match (w.extractLsb' 28 4).toNat with
  | 0 => if w.extractLsb' 10 3 ≠ 0 then .error (if w.extractLsb' 25 3 = 7 then .unassigned else .unusedNonzero) else .ok (.vcmpEq (w.extractLsb' 25 3) (w.extractLsb' 19 6) (w.extractLsb' 13 6) (w.extractLsb' 7 3))
  | 1 => if w.extractLsb' 10 3 ≠ 0 then .error (if w.extractLsb' 25 3 = 7 then .unassigned else .unusedNonzero) else .ok (.vcmpLt (w.extractLsb' 25 3) (w.extractLsb' 19 6) (w.extractLsb' 13 6) (w.extractLsb' 7 3))
  | 2 => if w.extractLsb' 10 3 ≠ 0 then .error (if w.extractLsb' 25 3 = 7 then .unassigned else .unusedNonzero) else .ok (.vcmpLe (w.extractLsb' 25 3) (w.extractLsb' 19 6) (w.extractLsb' 13 6) (w.extractLsb' 7 3))
  | 3 => if w.extractLsb' 10 3 ≠ 0 then .error (if 4 ≤ (w.extractLsb' 25 3).toNat then .unassigned else .unusedNonzero) else .ok (.vcmpLtu (w.extractLsb' 25 3) (w.extractLsb' 19 6) (w.extractLsb' 13 6) (w.extractLsb' 7 3))
  | 4 => if w.extractLsb' 10 3 ≠ 0 then .error (if 4 ≤ (w.extractLsb' 25 3).toNat then .unassigned else .unusedNonzero) else .ok (.vcmpLeu (w.extractLsb' 25 3) (w.extractLsb' 19 6) (w.extractLsb' 13 6) (w.extractLsb' 7 3))
  | 5 => if w.extractLsb' 10 3 ≠ 0 then .error (if (w.extractLsb' 25 3).toNat < 4 ∨ w.extractLsb' 25 3 = 7 then .unassigned else .unusedNonzero) else .ok (.vfcmpUn (w.extractLsb' 25 3) (w.extractLsb' 19 6) (w.extractLsb' 13 6) (w.extractLsb' 7 3))
  | 6 => if w.extractLsb' 10 3 ≠ 0 then .error .unusedNonzero else if w.extractLsb' 16 3 ≠ 0 then .error .unusedNonzero else if w.extractLsb' 22 6 ≠ 0 then .error .unusedNonzero else .ok (.mand (w.extractLsb' 19 3) (w.extractLsb' 13 3) (w.extractLsb' 7 3))
  | 7 => if w.extractLsb' 10 3 ≠ 0 then .error .unusedNonzero else if w.extractLsb' 16 3 ≠ 0 then .error .unusedNonzero else if w.extractLsb' 22 6 ≠ 0 then .error .unusedNonzero else .ok (.mor (w.extractLsb' 19 3) (w.extractLsb' 13 3) (w.extractLsb' 7 3))
  | 8 => if w.extractLsb' 10 3 ≠ 0 then .error .unusedNonzero else if w.extractLsb' 16 3 ≠ 0 then .error .unusedNonzero else if w.extractLsb' 22 6 ≠ 0 then .error .unusedNonzero else .ok (.mxor (w.extractLsb' 19 3) (w.extractLsb' 13 3) (w.extractLsb' 7 3))
  | 9 => if w.extractLsb' 10 3 ≠ 0 then .error .unusedNonzero else if w.extractLsb' 16 3 ≠ 0 then .error .unusedNonzero else if w.extractLsb' 22 6 ≠ 0 then .error .unusedNonzero else .ok (.mandn (w.extractLsb' 19 3) (w.extractLsb' 13 3) (w.extractLsb' 7 3))
  | 10 => if w.extractLsb' 10 3 ≠ 0 then .error .unusedNonzero else if w.extractLsb' 16 12 ≠ 0 then .error .unusedNonzero else .ok (.mnot (w.extractLsb' 13 3) (w.extractLsb' 7 3))
  | 11 => if w.extractLsb' 10 3 ≠ 0 then .error .unusedNonzero else if w.extractLsb' 18 10 ≠ 0 then .error .unusedNonzero else .ok (.mmvMx (w.extractLsb' 13 5) (w.extractLsb' 7 3))
  | 12 => if w.extractLsb' 12 1 ≠ 0 then .error .unusedNonzero else if w.extractLsb' 16 12 ≠ 0 then .error .unusedNonzero else .ok (.mmvXm (w.extractLsb' 13 3) (w.extractLsb' 7 5))
  | 13 => if w.extractLsb' 12 1 ≠ 0 then .error .unusedNonzero else if w.extractLsb' 16 12 ≠ 0 then .error .unusedNonzero else .ok (.mpop (w.extractLsb' 13 3) (w.extractLsb' 7 5))
  | _ => .error .unassigned

/-- Major 0x2B (VMOV), format V. -/
noncomputable def decVmov (w : BitVec 32) : Except Reject Instr :=
  match (w.extractLsb' 28 4).toNat with
  | 0 => if w.extractLsb' 12 1 ≠ 0 then .error (if 4 ≤ (w.extractLsb' 25 3).toNat then .unassigned else .unusedNonzero) else .ok (.vmvXv (w.extractLsb' 25 3) (w.extractLsb' 19 6) (w.extractLsb' 13 6) (w.extractLsb' 7 5))
  | 1 => if w.extractLsb' 18 1 ≠ 0 then .error .unusedNonzero else if w.extractLsb' 21 4 ≠ 0 then .error .unusedNonzero else .ok (.vmvVx (w.extractLsb' 25 3) (w.extractLsb' 19 2) (w.extractLsb' 13 5) (w.extractLsb' 7 6))
  | 2 => .ok (.vli (w.extractLsb' 25 3) (w.extractLsb' 13 12) (w.extractLsb' 7 6))
  | 3 => if w.extractLsb' 19 6 ≠ 0 then .error .unusedNonzero else .ok (.vmv (w.extractLsb' 25 3) (w.extractLsb' 13 6) (w.extractLsb' 7 6))
  | _ => .error .unassigned

/-- R62: a 32-bit instruction by its major opcode. -/
noncomputable def decode32 (w : BitVec 32) : Except Reject Instr :=
  match (w.extractLsb' 1 6).toNat with
  | 0x00 => decOp w
  | 0x01 => decOpi w
  | 0x02 => decOpw w
  | 0x03 => decOpiw w
  | 0x04 => decLui w
  | 0x05 => decMuldiv w
  | 0x06 => decBr w
  | 0x07 => decJal w
  | 0x08 => decJalr w
  | 0x09 => decLoop w
  | 0x0A => decLdx w
  | 0x0B => decStx w
  | 0x0C => decLdv w
  | 0x0D => decStv w
  | 0x0E => decCapd w
  | 0x0F => decCapm w
  | 0x10 => decCall w
  | 0x11 => decMsg w
  | 0x12 => decTask w
  | 0x13 => decSync w
  | 0x14 => decAtom w
  | 0x15 => decCopy w
  | 0x16 => decMat w
  | 0x17 => decNet w
  | 0x18 => decSfu w
  | 0x19 => decKreg w
  | 0x1A => decSys w
  | 0x1B => decFps w
  | 0x20 => decVi w
  | 0x21 => decVi w
  | 0x22 => decVi w
  | 0x23 => decVi w
  | 0x24 => decVf w
  | 0x25 => decVf w
  | 0x26 => decVf w
  | 0x27 => decVcvt w
  | 0x28 => decVperm w
  | 0x29 => decVred w
  | 0x2A => decVmsk w
  | 0x2B => decVmov w
  | _ => .error .reservedMajor

/-- R63: a 16-bit instruction by its cop. -/
def decode16 (w : BitVec 16) : Except Reject Instr :=
  match (w.extractLsb' 1 4).toNat with
  | 0 => if w.extractLsb' 5 11 ≠ 0 then .error .unusedNonzero else .ok (.cNop)
  | 1 => if w.extractLsb' 15 1 ≠ 0 then .error .unusedNonzero else .ok (.cMv (w.extractLsb' 10 5) (w.extractLsb' 5 5))
  | 2 => .ok (.cLi (w.extractLsb' 10 6) (w.extractLsb' 5 5))
  | 3 => .ok (.cAddi (w.extractLsb' 10 6) (w.extractLsb' 5 5))
  | 4 => if w.extractLsb' 15 1 ≠ 0 then .error .unusedNonzero else .ok (.cAdd (w.extractLsb' 10 5) (w.extractLsb' 5 5))
  | 5 => if w.extractLsb' 15 1 ≠ 0 then .error .unusedNonzero else .ok (.cSub (w.extractLsb' 10 5) (w.extractLsb' 5 5))
  | 6 => if w.extractLsb' 15 1 ≠ 0 then .error .unusedNonzero else .ok (.cAnd (w.extractLsb' 10 5) (w.extractLsb' 5 5))
  | 7 => if w.extractLsb' 15 1 ≠ 0 then .error .unusedNonzero else .ok (.cOr (w.extractLsb' 10 5) (w.extractLsb' 5 5))
  | 8 => .ok (.cSlli (w.extractLsb' 10 6) (w.extractLsb' 5 5))
  | 9 => .ok (.cSrli (w.extractLsb' 10 6) (w.extractLsb' 5 5))
  | 10 => .ok (.cBeqz (w.extractLsb' 10 6) (w.extractLsb' 5 5))
  | 11 => .ok (.cBnez (w.extractLsb' 10 6) (w.extractLsb' 5 5))
  | 12 => .ok (.cJ (w.extractLsb' 5 11))
  | 13 => if w.extractLsb' 5 11 ≠ 0 then .error .unusedNonzero else .ok (.cRet)
  | 14 => if w.extractLsb' 5 11 ≠ 0 then .error .unusedNonzero else .ok (.cDone)
  | _ => .error .unassigned

/-- R59: bit 0 of the first halfword selects the length. -/
def isShort (w : BitVec 32) : Bool := !w.getLsbD 0

/-- R59: the instruction in a 32-bit value whose low halfword is the first halfword. -/
noncomputable def decode (w : BitVec 32) : Except Reject Instr :=
  if isShort w then decode16 (w.extractLsb' 0 16) else decode32 w

/-- The word of KREAD. -/
def encKread (k : BitVec 12) (d : BitVec 5) : BitVec 32 := 0#3 ++ k ++ 0#5 ++ d ++ 51#7

/-- The word of KWRITE. -/
def encKwrite (k : BitVec 12) (a : BitVec 5) : BitVec 32 := 1#3 ++ k ++ a ++ 51#12

/-- The word of KSWAP. -/
def encKswap (k : BitVec 12) (a : BitVec 5) (d : BitVec 5) : BitVec 32 := 2#3 ++ k ++ a ++ d ++ 51#7

/-- The word of KCSET. -/
def encKcset (a : BitVec 4) (d : BitVec 5) : BitVec 32 := 40960#16 ++ a ++ d ++ 53#7

/-- The word of SVC. -/
def encSvc (n : BitVec 12) : BitVec 32 := 0#3 ++ n ++ 53#17

/-- The word of TRET. -/
def encTret (a : BitVec 5) (d : BitVec 5) : BitVec 32 := 4096#15 ++ a ++ d ++ 53#7

/-- The word of TDROP. -/
def encTdrop (a : BitVec 5) (d : BitVec 5) : BitVec 32 := 8192#15 ++ a ++ d ++ 53#7

/-- The word of BRK. -/
def encBrk (n : BitVec 12) : BitVec 32 := 3#3 ++ n ++ 53#17

/-- The word of HALT. -/
def encHalt : BitVec 32 := 2147483701#32

/-- The word of C_NOP. -/
def encCNop : BitVec 32 := 0#16 ++ 0#16

/-- The word of C_MV. -/
def encCMv (b : BitVec 5) (d : BitVec 5) : BitVec 32 := 0#16 ++ (0#1 ++ b ++ d ++ 2#5)

/-- The word of C_LI. -/
def encCLi (i : BitVec 6) (d : BitVec 5) : BitVec 32 := 0#16 ++ (i ++ d ++ 4#5)

/-- The word of C_ADDI. -/
def encCAddi (i : BitVec 6) (d : BitVec 5) : BitVec 32 := 0#16 ++ (i ++ d ++ 6#5)

/-- The word of C_ADD. -/
def encCAdd (b : BitVec 5) (d : BitVec 5) : BitVec 32 := 0#16 ++ (0#1 ++ b ++ d ++ 8#5)

/-- The word of C_SUB. -/
def encCSub (b : BitVec 5) (d : BitVec 5) : BitVec 32 := 0#16 ++ (0#1 ++ b ++ d ++ 10#5)

/-- The word of C_AND. -/
def encCAnd (b : BitVec 5) (d : BitVec 5) : BitVec 32 := 0#16 ++ (0#1 ++ b ++ d ++ 12#5)

/-- The word of C_OR. -/
def encCOr (b : BitVec 5) (d : BitVec 5) : BitVec 32 := 0#16 ++ (0#1 ++ b ++ d ++ 14#5)

/-- The word of C_SLLI. -/
def encCSlli (s : BitVec 6) (d : BitVec 5) : BitVec 32 := 0#16 ++ (s ++ d ++ 16#5)

/-- The word of C_SRLI. -/
def encCSrli (s : BitVec 6) (d : BitVec 5) : BitVec 32 := 0#16 ++ (s ++ d ++ 18#5)

/-- The word of C_BEQZ. -/
def encCBeqz (i : BitVec 6) (d : BitVec 5) : BitVec 32 := 0#16 ++ (i ++ d ++ 20#5)

/-- The word of C_BNEZ. -/
def encCBnez (i : BitVec 6) (d : BitVec 5) : BitVec 32 := 0#16 ++ (i ++ d ++ 22#5)

/-- The word of C_J. -/
def encCJ (i : BitVec 11) : BitVec 32 := 0#16 ++ (i ++ 24#5)

/-- The word of C_RET. -/
def encCRet : BitVec 32 := 0#16 ++ 26#16

/-- The word of C_DONE. -/
def encCDone : BitVec 32 := 0#16 ++ 28#16

/-- The word of ADD. -/
def encAdd (f : BitVec 1) (eb : BitVec 1) (ea : BitVec 1) (b : BitVec 5) (a : BitVec 5) (d : BitVec 5) : BitVec 32 := f ++ eb ++ ea ++ 0#7 ++ b ++ a ++ d ++ 1#7

/-- The word of SUB. -/
def encSub (f : BitVec 1) (eb : BitVec 1) (ea : BitVec 1) (b : BitVec 5) (a : BitVec 5) (d : BitVec 5) : BitVec 32 := f ++ eb ++ ea ++ 1#7 ++ b ++ a ++ d ++ 1#7

/-- The word of AND. -/
def encAnd (f : BitVec 1) (eb : BitVec 1) (ea : BitVec 1) (b : BitVec 5) (a : BitVec 5) (d : BitVec 5) : BitVec 32 := f ++ eb ++ ea ++ 2#7 ++ b ++ a ++ d ++ 1#7

/-- The word of OR. -/
def encOr (f : BitVec 1) (eb : BitVec 1) (ea : BitVec 1) (b : BitVec 5) (a : BitVec 5) (d : BitVec 5) : BitVec 32 := f ++ eb ++ ea ++ 3#7 ++ b ++ a ++ d ++ 1#7

/-- The word of XOR. -/
def encXor (f : BitVec 1) (eb : BitVec 1) (ea : BitVec 1) (b : BitVec 5) (a : BitVec 5) (d : BitVec 5) : BitVec 32 := f ++ eb ++ ea ++ 4#7 ++ b ++ a ++ d ++ 1#7

/-- The word of ANDN. -/
def encAndn (f : BitVec 1) (eb : BitVec 1) (ea : BitVec 1) (b : BitVec 5) (a : BitVec 5) (d : BitVec 5) : BitVec 32 := f ++ eb ++ ea ++ 5#7 ++ b ++ a ++ d ++ 1#7

/-- The word of SLL. -/
def encSll (f : BitVec 1) (eb : BitVec 1) (ea : BitVec 1) (b : BitVec 5) (a : BitVec 5) (d : BitVec 5) : BitVec 32 := f ++ eb ++ ea ++ 6#7 ++ b ++ a ++ d ++ 1#7

/-- The word of SRL. -/
def encSrl (f : BitVec 1) (eb : BitVec 1) (ea : BitVec 1) (b : BitVec 5) (a : BitVec 5) (d : BitVec 5) : BitVec 32 := f ++ eb ++ ea ++ 7#7 ++ b ++ a ++ d ++ 1#7

/-- The word of SRA. -/
def encSra (f : BitVec 1) (eb : BitVec 1) (ea : BitVec 1) (b : BitVec 5) (a : BitVec 5) (d : BitVec 5) : BitVec 32 := f ++ eb ++ ea ++ 8#7 ++ b ++ a ++ d ++ 1#7

/-- The word of SLT. -/
def encSlt (f : BitVec 1) (eb : BitVec 1) (ea : BitVec 1) (b : BitVec 5) (a : BitVec 5) (d : BitVec 5) : BitVec 32 := f ++ eb ++ ea ++ 9#7 ++ b ++ a ++ d ++ 1#7

/-- The word of SLTU. -/
def encSltu (f : BitVec 1) (eb : BitVec 1) (ea : BitVec 1) (b : BitVec 5) (a : BitVec 5) (d : BitVec 5) : BitVec 32 := f ++ eb ++ ea ++ 10#7 ++ b ++ a ++ d ++ 1#7

/-- The word of MIN. -/
def encMin (f : BitVec 1) (eb : BitVec 1) (ea : BitVec 1) (b : BitVec 5) (a : BitVec 5) (d : BitVec 5) : BitVec 32 := f ++ eb ++ ea ++ 11#7 ++ b ++ a ++ d ++ 1#7

/-- The word of MAX. -/
def encMax (f : BitVec 1) (eb : BitVec 1) (ea : BitVec 1) (b : BitVec 5) (a : BitVec 5) (d : BitVec 5) : BitVec 32 := f ++ eb ++ ea ++ 12#7 ++ b ++ a ++ d ++ 1#7

/-- The word of MINU. -/
def encMinu (f : BitVec 1) (eb : BitVec 1) (ea : BitVec 1) (b : BitVec 5) (a : BitVec 5) (d : BitVec 5) : BitVec 32 := f ++ eb ++ ea ++ 13#7 ++ b ++ a ++ d ++ 1#7

/-- The word of MAXU. -/
def encMaxu (f : BitVec 1) (eb : BitVec 1) (ea : BitVec 1) (b : BitVec 5) (a : BitVec 5) (d : BitVec 5) : BitVec 32 := f ++ eb ++ ea ++ 14#7 ++ b ++ a ++ d ++ 1#7

/-- The word of CLZ. -/
def encClz (f : BitVec 1) (ea : BitVec 1) (a : BitVec 5) (d : BitVec 5) : BitVec 32 := f ++ 0#1 ++ ea ++ 480#12 ++ a ++ d ++ 1#7

/-- The word of CTZ. -/
def encCtz (f : BitVec 1) (ea : BitVec 1) (a : BitVec 5) (d : BitVec 5) : BitVec 32 := f ++ 0#1 ++ ea ++ 512#12 ++ a ++ d ++ 1#7

/-- The word of POP. -/
def encPop (f : BitVec 1) (ea : BitVec 1) (a : BitVec 5) (d : BitVec 5) : BitVec 32 := f ++ 0#1 ++ ea ++ 544#12 ++ a ++ d ++ 1#7

/-- The word of BEXT. -/
def encBext (f : BitVec 1) (eb : BitVec 1) (ea : BitVec 1) (b : BitVec 5) (a : BitVec 5) (d : BitVec 5) : BitVec 32 := f ++ eb ++ ea ++ 18#7 ++ b ++ a ++ d ++ 1#7

/-- The word of BINS. -/
def encBins (f : BitVec 1) (eb : BitVec 1) (ea : BitVec 1) (b : BitVec 5) (a : BitVec 5) (d : BitVec 5) : BitVec 32 := f ++ eb ++ ea ++ 19#7 ++ b ++ a ++ d ++ 1#7

/-- The word of ADDW. -/
def encAddw (f : BitVec 1) (eb : BitVec 1) (ea : BitVec 1) (b : BitVec 5) (a : BitVec 5) (d : BitVec 5) : BitVec 32 := f ++ eb ++ ea ++ 0#7 ++ b ++ a ++ d ++ 5#7

/-- The word of SUBW. -/
def encSubw (f : BitVec 1) (eb : BitVec 1) (ea : BitVec 1) (b : BitVec 5) (a : BitVec 5) (d : BitVec 5) : BitVec 32 := f ++ eb ++ ea ++ 1#7 ++ b ++ a ++ d ++ 5#7

/-- The word of SLLW. -/
def encSllw (f : BitVec 1) (eb : BitVec 1) (ea : BitVec 1) (b : BitVec 5) (a : BitVec 5) (d : BitVec 5) : BitVec 32 := f ++ eb ++ ea ++ 2#7 ++ b ++ a ++ d ++ 5#7

/-- The word of SRLW. -/
def encSrlw (f : BitVec 1) (eb : BitVec 1) (ea : BitVec 1) (b : BitVec 5) (a : BitVec 5) (d : BitVec 5) : BitVec 32 := f ++ eb ++ ea ++ 3#7 ++ b ++ a ++ d ++ 5#7

/-- The word of SRAW. -/
def encSraw (f : BitVec 1) (eb : BitVec 1) (ea : BitVec 1) (b : BitVec 5) (a : BitVec 5) (d : BitVec 5) : BitVec 32 := f ++ eb ++ ea ++ 4#7 ++ b ++ a ++ d ++ 5#7

/-- The word of ADDI. -/
def encAddi (k : BitVec 12) (a : BitVec 5) (d : BitVec 5) : BitVec 32 := 0#3 ++ k ++ a ++ d ++ 3#7

/-- The word of ANDI. -/
def encAndi (k : BitVec 12) (a : BitVec 5) (d : BitVec 5) : BitVec 32 := 1#3 ++ k ++ a ++ d ++ 3#7

/-- The word of ORI. -/
def encOri (k : BitVec 12) (a : BitVec 5) (d : BitVec 5) : BitVec 32 := 2#3 ++ k ++ a ++ d ++ 3#7

/-- The word of XORI. -/
def encXori (k : BitVec 12) (a : BitVec 5) (d : BitVec 5) : BitVec 32 := 3#3 ++ k ++ a ++ d ++ 3#7

/-- The word of SLTI. -/
def encSlti (k : BitVec 12) (a : BitVec 5) (d : BitVec 5) : BitVec 32 := 4#3 ++ k ++ a ++ d ++ 3#7

/-- The word of SLTIU. -/
def encSltiu (k : BitVec 12) (a : BitVec 5) (d : BitVec 5) : BitVec 32 := 5#3 ++ k ++ a ++ d ++ 3#7

/-- The word of SLLI. -/
def encSlli (s : BitVec 6) (a : BitVec 5) (d : BitVec 5) : BitVec 32 := 384#9 ++ s ++ a ++ d ++ 3#7

/-- The word of SRLI. -/
def encSrli (s : BitVec 6) (a : BitVec 5) (d : BitVec 5) : BitVec 32 := 385#9 ++ s ++ a ++ d ++ 3#7

/-- The word of SRAI. -/
def encSrai (s : BitVec 6) (a : BitVec 5) (d : BitVec 5) : BitVec 32 := 386#9 ++ s ++ a ++ d ++ 3#7

/-- The word of MINI. -/
def encMini (k : BitVec 10) (a : BitVec 5) (d : BitVec 5) : BitVec 32 := 28#5 ++ k ++ a ++ d ++ 3#7

/-- The word of MAXI. -/
def encMaxi (k : BitVec 10) (a : BitVec 5) (d : BitVec 5) : BitVec 32 := 29#5 ++ k ++ a ++ d ++ 3#7

/-- The word of MINUI. -/
def encMinui (k : BitVec 10) (a : BitVec 5) (d : BitVec 5) : BitVec 32 := 30#5 ++ k ++ a ++ d ++ 3#7

/-- The word of MAXUI. -/
def encMaxui (k : BitVec 10) (a : BitVec 5) (d : BitVec 5) : BitVec 32 := 31#5 ++ k ++ a ++ d ++ 3#7

/-- The word of ADDIW. -/
def encAddiw (k : BitVec 12) (a : BitVec 5) (d : BitVec 5) : BitVec 32 := 0#3 ++ k ++ a ++ d ++ 7#7

/-- The word of LUI. -/
def encLui (i : BitVec 20) (d : BitVec 5) : BitVec 32 := i ++ d ++ 9#7

/-- The word of MUL. -/
def encMul (f : BitVec 1) (eb : BitVec 1) (ea : BitVec 1) (b : BitVec 5) (a : BitVec 5) (d : BitVec 5) : BitVec 32 := f ++ eb ++ ea ++ 0#7 ++ b ++ a ++ d ++ 11#7

/-- The word of MULH. -/
def encMulh (f : BitVec 1) (eb : BitVec 1) (ea : BitVec 1) (b : BitVec 5) (a : BitVec 5) (d : BitVec 5) : BitVec 32 := f ++ eb ++ ea ++ 1#7 ++ b ++ a ++ d ++ 11#7

/-- The word of MULHU. -/
def encMulhu (f : BitVec 1) (eb : BitVec 1) (ea : BitVec 1) (b : BitVec 5) (a : BitVec 5) (d : BitVec 5) : BitVec 32 := f ++ eb ++ ea ++ 2#7 ++ b ++ a ++ d ++ 11#7

/-- The word of DIV. -/
def encDiv (f : BitVec 1) (eb : BitVec 1) (ea : BitVec 1) (b : BitVec 5) (a : BitVec 5) (d : BitVec 5) : BitVec 32 := f ++ eb ++ ea ++ 3#7 ++ b ++ a ++ d ++ 11#7

/-- The word of DIVU. -/
def encDivu (f : BitVec 1) (eb : BitVec 1) (ea : BitVec 1) (b : BitVec 5) (a : BitVec 5) (d : BitVec 5) : BitVec 32 := f ++ eb ++ ea ++ 4#7 ++ b ++ a ++ d ++ 11#7

/-- The word of REM. -/
def encRem (f : BitVec 1) (eb : BitVec 1) (ea : BitVec 1) (b : BitVec 5) (a : BitVec 5) (d : BitVec 5) : BitVec 32 := f ++ eb ++ ea ++ 5#7 ++ b ++ a ++ d ++ 11#7

/-- The word of REMU. -/
def encRemu (f : BitVec 1) (eb : BitVec 1) (ea : BitVec 1) (b : BitVec 5) (a : BitVec 5) (d : BitVec 5) : BitVec 32 := f ++ eb ++ ea ++ 6#7 ++ b ++ a ++ d ++ 11#7

/-- The word of BEQ. -/
def encBeq (o : BitVec 12) (b : BitVec 5) (a : BitVec 5) : BitVec 32 := o.extractLsb' 5 7 ++ 0#3 ++ b ++ a ++ o.extractLsb' 0 5 ++ 13#7

/-- The word of BNE. -/
def encBne (o : BitVec 12) (b : BitVec 5) (a : BitVec 5) : BitVec 32 := o.extractLsb' 5 7 ++ 1#3 ++ b ++ a ++ o.extractLsb' 0 5 ++ 13#7

/-- The word of BLT. -/
def encBlt (o : BitVec 12) (b : BitVec 5) (a : BitVec 5) : BitVec 32 := o.extractLsb' 5 7 ++ 2#3 ++ b ++ a ++ o.extractLsb' 0 5 ++ 13#7

/-- The word of BGE. -/
def encBge (o : BitVec 12) (b : BitVec 5) (a : BitVec 5) : BitVec 32 := o.extractLsb' 5 7 ++ 3#3 ++ b ++ a ++ o.extractLsb' 0 5 ++ 13#7

/-- The word of BLTU. -/
def encBltu (o : BitVec 12) (b : BitVec 5) (a : BitVec 5) : BitVec 32 := o.extractLsb' 5 7 ++ 4#3 ++ b ++ a ++ o.extractLsb' 0 5 ++ 13#7

/-- The word of BGEU. -/
def encBgeu (o : BitVec 12) (b : BitVec 5) (a : BitVec 5) : BitVec 32 := o.extractLsb' 5 7 ++ 5#3 ++ b ++ a ++ o.extractLsb' 0 5 ++ 13#7

/-- The word of JAL. -/
def encJal (i : BitVec 25) : BitVec 32 := i ++ 15#7

/-- The word of JALR. -/
def encJalr (f : BitVec 1) (ea : BitVec 1) (k : BitVec 12) (a : BitVec 5) (d : BitVec 5) : BitVec 32 := f ++ 0#1 ++ ea ++ k ++ a ++ d ++ 17#7

/-- The word of LOOP. -/
def encLoop (k : BitVec 12) : BitVec 32 := 0#3 ++ k ++ 19#17

/-- The word of LCSET. -/
def encLcset (c : BitVec 8) (a : BitVec 5) : BitVec 32 := 16#7 ++ c ++ a ++ 19#12

/-- The word of FOLLOW. -/
def encFollow : BitVec 32 := 1073741843#32

/-- The word of LD_B. -/
def encLdB (f : BitVec 1) (eb : BitVec 1) (ea : BitVec 1) (j : BitVec 5) (i : BitVec 5) (c : BitVec 4) (d : BitVec 5) : BitVec 32 := f ++ eb ++ ea ++ 0#3 ++ j ++ i ++ c ++ d ++ 21#7

/-- The word of LD_BU. -/
def encLdBu (f : BitVec 1) (eb : BitVec 1) (ea : BitVec 1) (j : BitVec 5) (i : BitVec 5) (c : BitVec 4) (d : BitVec 5) : BitVec 32 := f ++ eb ++ ea ++ 1#3 ++ j ++ i ++ c ++ d ++ 21#7

/-- The word of LD_H. -/
def encLdH (f : BitVec 1) (eb : BitVec 1) (ea : BitVec 1) (j : BitVec 5) (i : BitVec 5) (c : BitVec 4) (d : BitVec 5) : BitVec 32 := f ++ eb ++ ea ++ 2#3 ++ j ++ i ++ c ++ d ++ 21#7

/-- The word of LD_HU. -/
def encLdHu (f : BitVec 1) (eb : BitVec 1) (ea : BitVec 1) (j : BitVec 5) (i : BitVec 5) (c : BitVec 4) (d : BitVec 5) : BitVec 32 := f ++ eb ++ ea ++ 3#3 ++ j ++ i ++ c ++ d ++ 21#7

/-- The word of LD_W. -/
def encLdW (f : BitVec 1) (eb : BitVec 1) (ea : BitVec 1) (j : BitVec 5) (i : BitVec 5) (c : BitVec 4) (d : BitVec 5) : BitVec 32 := f ++ eb ++ ea ++ 4#3 ++ j ++ i ++ c ++ d ++ 21#7

/-- The word of LD_WU. -/
def encLdWu (f : BitVec 1) (eb : BitVec 1) (ea : BitVec 1) (j : BitVec 5) (i : BitVec 5) (c : BitVec 4) (d : BitVec 5) : BitVec 32 := f ++ eb ++ ea ++ 5#3 ++ j ++ i ++ c ++ d ++ 21#7

/-- The word of LD_D. -/
def encLdD (f : BitVec 1) (eb : BitVec 1) (ea : BitVec 1) (j : BitVec 5) (i : BitVec 5) (c : BitVec 4) (d : BitVec 5) : BitVec 32 := f ++ eb ++ ea ++ 6#3 ++ j ++ i ++ c ++ d ++ 21#7

/-- The word of ST_B. -/
def encStB (f : BitVec 1) (eb : BitVec 1) (ea : BitVec 1) (j : BitVec 5) (i : BitVec 5) (c : BitVec 4) (d : BitVec 5) : BitVec 32 := f ++ eb ++ ea ++ 0#3 ++ j ++ i ++ c ++ d ++ 23#7

/-- The word of ST_H. -/
def encStH (f : BitVec 1) (eb : BitVec 1) (ea : BitVec 1) (j : BitVec 5) (i : BitVec 5) (c : BitVec 4) (d : BitVec 5) : BitVec 32 := f ++ eb ++ ea ++ 1#3 ++ j ++ i ++ c ++ d ++ 23#7

/-- The word of ST_W. -/
def encStW (f : BitVec 1) (eb : BitVec 1) (ea : BitVec 1) (j : BitVec 5) (i : BitVec 5) (c : BitVec 4) (d : BitVec 5) : BitVec 32 := f ++ eb ++ ea ++ 2#3 ++ j ++ i ++ c ++ d ++ 23#7

/-- The word of ST_D. -/
def encStD (f : BitVec 1) (eb : BitVec 1) (ea : BitVec 1) (j : BitVec 5) (i : BitVec 5) (c : BitVec 4) (d : BitVec 5) : BitVec 32 := f ++ eb ++ ea ++ 3#3 ++ j ++ i ++ c ++ d ++ 23#7

/-- The word of LDV. -/
def encLdv (j : BitVec 5) (i : BitVec 5) (c : BitVec 4) (v : BitVec 6) : BitVec 32 := 0#5 ++ j ++ i ++ c ++ v ++ 25#7

/-- The word of LDV_S. -/
def encLdvS (j : BitVec 5) (i : BitVec 5) (c : BitVec 4) (v : BitVec 6) : BitVec 32 := 1#5 ++ j ++ i ++ c ++ v ++ 25#7

/-- The word of STV. -/
def encStv (j : BitVec 5) (i : BitVec 5) (c : BitVec 4) (v : BitVec 6) : BitVec 32 := 0#5 ++ j ++ i ++ c ++ v ++ 27#7

/-- The word of STV_S. -/
def encStvS (j : BitVec 5) (i : BitVec 5) (c : BitVec 4) (v : BitVec 6) : BitVec 32 := 1#5 ++ j ++ i ++ c ++ v ++ 27#7

/-- The word of CSLICE. -/
def encCslice (f : BitVec 1) (eb : BitVec 1) (b : BitVec 5) (a : BitVec 4) (d : BitVec 4) : BitVec 32 := f ++ eb ++ 0#8 ++ b ++ 0#1 ++ a ++ 0#1 ++ d ++ 29#7

/-- The word of CSTEP. -/
def encCstep (f : BitVec 1) (eb : BitVec 1) (b : BitVec 5) (a : BitVec 4) (d : BitVec 4) : BitVec 32 := f ++ eb ++ 1#8 ++ b ++ 0#1 ++ a ++ 0#1 ++ d ++ 29#7

/-- The word of CPERM. -/
def encCperm (f : BitVec 1) (eb : BitVec 1) (b : BitVec 5) (a : BitVec 4) (d : BitVec 4) : BitVec 32 := f ++ eb ++ 2#8 ++ b ++ 0#1 ++ a ++ 0#1 ++ d ++ 29#7

/-- The word of CFOLD. -/
def encCfold (f : BitVec 1) (eb : BitVec 1) (b : BitVec 5) (a : BitVec 4) (d : BitVec 4) : BitVec 32 := f ++ eb ++ 3#8 ++ b ++ 0#1 ++ a ++ 0#1 ++ d ++ 29#7

/-- The word of CRESTRICT. -/
def encCrestrict (f : BitVec 1) (eb : BitVec 1) (b : BitVec 5) (a : BitVec 4) (d : BitVec 4) : BitVec 32 := f ++ eb ++ 4#8 ++ b ++ 0#1 ++ a ++ 0#1 ++ d ++ 29#7

/-- The word of CSCOPE. -/
def encCscope (f : BitVec 1) (eb : BitVec 1) (b : BitVec 5) (a : BitVec 4) (d : BitVec 4) : BitVec 32 := f ++ eb ++ 5#8 ++ b ++ 0#1 ++ a ++ 0#1 ++ d ++ 29#7

/-- The word of CFMT. -/
def encCfmt (f : BitVec 1) (eb : BitVec 1) (b : BitVec 5) (a : BitVec 4) (d : BitVec 4) : BitVec 32 := f ++ eb ++ 6#8 ++ b ++ 0#1 ++ a ++ 0#1 ++ d ++ 29#7

/-- The word of CGET. -/
def encCget (n : BitVec 5) (a : BitVec 4) (d : BitVec 5) : BitVec 32 := 7#10 ++ n ++ 0#1 ++ a ++ d ++ 29#7

/-- The word of CMOVE. -/
def encCmove (a : BitVec 4) (d : BitVec 4) : BitVec 32 := 512#16 ++ a ++ 0#1 ++ d ++ 29#7

/-- The word of CSEAL. -/
def encCseal (b : BitVec 4) (a : BitVec 4) (d : BitVec 4) : BitVec 32 := 18#11 ++ b ++ 0#1 ++ a ++ 0#1 ++ d ++ 29#7

/-- The word of CLC. -/
def encClc (f : BitVec 1) (eb : BitVec 1) (ea : BitVec 1) (j : BitVec 5) (i : BitVec 5) (c : BitVec 4) (d : BitVec 4) : BitVec 32 := f ++ eb ++ ea ++ 0#3 ++ j ++ i ++ c ++ 0#1 ++ d ++ 31#7

/-- The word of CSC. -/
def encCsc (f : BitVec 1) (eb : BitVec 1) (ea : BitVec 1) (j : BitVec 5) (i : BitVec 5) (c : BitVec 4) (d : BitVec 4) : BitVec 32 := f ++ eb ++ ea ++ 1#3 ++ j ++ i ++ c ++ 0#1 ++ d ++ 31#7

/-- The word of CTAG. -/
def encCtag (f : BitVec 1) (eb : BitVec 1) (ea : BitVec 1) (j : BitVec 5) (i : BitVec 5) (c : BitVec 4) (d : BitVec 5) : BitVec 32 := f ++ eb ++ ea ++ 2#3 ++ j ++ i ++ c ++ d ++ 31#7

/-- The word of CCALL. -/
def encCcall (b : BitVec 4) (a : BitVec 4) (n : BitVec 5) : BitVec 32 := 0#11 ++ b ++ 0#1 ++ a ++ n ++ 33#7

/-- The word of CRET. -/
def encCret (n : BitVec 5) : BitVec 32 := 1024#20 ++ n ++ 33#7

/-- The word of CUNSEAL. -/
def encCunseal (b : BitVec 4) (a : BitVec 4) (d : BitVec 4) : BitVec 32 := 4#11 ++ b ++ 0#1 ++ a ++ 0#1 ++ d ++ 33#7

/-- The word of SEND_RQ. -/
def encSendRq (f : BitVec 1) (eb : BitVec 1) (ea : BitVec 1) (b : BitVec 5) (a : BitVec 5) (d : BitVec 4) : BitVec 32 := f ++ eb ++ ea ++ 0#7 ++ b ++ a ++ 0#1 ++ d ++ 35#7

/-- The word of SEND_RP. -/
def encSendRp (f : BitVec 1) (eb : BitVec 1) (ea : BitVec 1) (b : BitVec 5) (a : BitVec 5) (d : BitVec 4) : BitVec 32 := f ++ eb ++ ea ++ 1#7 ++ b ++ a ++ 0#1 ++ d ++ 35#7

/-- The word of SEND_SY. -/
def encSendSy (f : BitVec 1) (eb : BitVec 1) (ea : BitVec 1) (b : BitVec 5) (a : BitVec 5) (d : BitVec 4) : BitVec 32 := f ++ eb ++ ea ++ 2#7 ++ b ++ a ++ 0#1 ++ d ++ 35#7

/-- The word of SENDN_N. -/
def encSendnN (f : BitVec 1) (eb : BitVec 1) (ea : BitVec 1) (b : BitVec 5) (a : BitVec 5) (d : BitVec 4) : BitVec 32 := f ++ eb ++ ea ++ 3#7 ++ b ++ a ++ 0#1 ++ d ++ 35#7

/-- The word of SENDN_E. -/
def encSendnE (f : BitVec 1) (eb : BitVec 1) (ea : BitVec 1) (b : BitVec 5) (a : BitVec 5) (d : BitVec 4) : BitVec 32 := f ++ eb ++ ea ++ 4#7 ++ b ++ a ++ 0#1 ++ d ++ 35#7

/-- The word of SENDN_S. -/
def encSendnS (f : BitVec 1) (eb : BitVec 1) (ea : BitVec 1) (b : BitVec 5) (a : BitVec 5) (d : BitVec 4) : BitVec 32 := f ++ eb ++ ea ++ 5#7 ++ b ++ a ++ 0#1 ++ d ++ 35#7

/-- The word of SENDN_W. -/
def encSendnW (f : BitVec 1) (eb : BitVec 1) (ea : BitVec 1) (b : BitVec 5) (a : BitVec 5) (d : BitVec 4) : BitVec 32 := f ++ eb ++ ea ++ 6#7 ++ b ++ a ++ 0#1 ++ d ++ 35#7

/-- The word of SENDV. -/
def encSendv (f : BitVec 1) (eb : BitVec 1) (ea : BitVec 1) (b : BitVec 5) (a : BitVec 5) : BitVec 32 := f ++ eb ++ ea ++ 7#7 ++ b ++ a ++ 35#12

/-- The word of REPLY. -/
def encReply (f : BitVec 1) (eb : BitVec 1) (ea : BitVec 1) (b : BitVec 5) (n : BitVec 3) (d : BitVec 4) : BitVec 32 := f ++ eb ++ ea ++ 8#7 ++ b ++ 0#2 ++ n ++ 0#1 ++ d ++ 35#7

/-- The word of BOUNCE. -/
def encBounce : BitVec 32 := 37748771#32

/-- The word of DONE. -/
def encDone : BitVec 32 := 41943075#32

/-- The word of CHMASK. -/
def encChmask (f : BitVec 1) (eb : BitVec 1) (ea : BitVec 1) (b : BitVec 5) (a : BitVec 5) (d : BitVec 5) : BitVec 32 := f ++ eb ++ ea ++ 11#7 ++ b ++ a ++ d ++ 35#7

/-- The word of CHPRIO. -/
def encChprio (f : BitVec 1) (eb : BitVec 1) (ea : BitVec 1) (b : BitVec 5) (a : BitVec 5) (d : BitVec 5) : BitVec 32 := f ++ eb ++ ea ++ 12#7 ++ b ++ a ++ d ++ 35#7

/-- The word of ENQ. -/
def encEnq (f : BitVec 1) (eb : BitVec 1) (b : BitVec 5) (a : BitVec 4) (d : BitVec 5) : BitVec 32 := f ++ eb ++ 0#8 ++ b ++ 0#1 ++ a ++ d ++ 37#7

/-- The word of LAUNCH. -/
def encLaunch (f : BitVec 1) (eb : BitVec 1) (b : BitVec 5) (a : BitVec 4) (d : BitVec 5) : BitVec 32 := f ++ eb ++ 1#8 ++ b ++ 0#1 ++ a ++ d ++ 37#7

/-- The word of GDONE. -/
def encGdone : BitVec 32 := 8388645#32

/-- The word of FENCE. -/
def encFence (s : BitVec 3) (k : BitVec 2) : BitVec 32 := 0#10 ++ s ++ k ++ 39#17

/-- The word of DCFENCE. -/
def encDcfence (a : BitVec 4) (d : BitVec 5) : BitVec 32 := 8192#16 ++ a ++ d ++ 39#7

/-- The word of PINIT. -/
def encPinit (n : BitVec 12) (a : BitVec 4) (d : BitVec 5) : BitVec 32 := 2#3 ++ n ++ 0#1 ++ a ++ d ++ 39#7

/-- The word of PARRIVE_RLX. -/
def encParriveRlx (a : BitVec 4) (d : BitVec 5) : BitVec 32 := 24578#16 ++ a ++ d ++ 39#7

/-- The word of PARRIVE_REL. -/
def encParriveRel (s : BitVec 3) (a : BitVec 4) (d : BitVec 5) : BitVec 32 := 384#10 ++ s ++ 4#3 ++ a ++ d ++ 39#7

/-- The word of PWAIT. -/
def encPwait (a : BitVec 4) (d : BitVec 5) : BitVec 32 := 32768#16 ++ a ++ d ++ 39#7

/-- The word of PINVAL. -/
def encPinval (a : BitVec 4) (d : BitVec 5) : BitVec 32 := 40960#16 ++ a ++ d ++ 39#7

/-- The word of BOOMSET. -/
def encBoomset (c : BitVec 4) (s : BitVec 2) (a : BitVec 5) (d : BitVec 5) : BitVec 32 := 6#3 ++ c ++ 0#6 ++ s ++ a ++ d ++ 39#7

/-- The word of BOOM_RLX. -/
def encBoomRlx (s : BitVec 2) (d : BitVec 5) : BitVec 32 := 3584#12 ++ s ++ 0#6 ++ d ++ 39#7

/-- The word of BOOM_REL. -/
def encBoomRel (s : BitVec 2) (d : BitVec 5) : BitVec 32 := 3584#12 ++ s ++ 32#6 ++ d ++ 39#7

/-- The word of AADD. -/
def encAadd (eb : BitVec 1) (b : BitVec 5) (a : BitVec 4) (d : BitVec 5) : BitVec 32 := 0#1 ++ eb ++ 0#8 ++ b ++ 0#1 ++ a ++ d ++ 41#7

/-- The word of AMIN. -/
def encAmin (eb : BitVec 1) (b : BitVec 5) (a : BitVec 4) (d : BitVec 5) : BitVec 32 := 0#1 ++ eb ++ 1#8 ++ b ++ 0#1 ++ a ++ d ++ 41#7

/-- The word of AMAX. -/
def encAmax (eb : BitVec 1) (b : BitVec 5) (a : BitVec 4) (d : BitVec 5) : BitVec 32 := 0#1 ++ eb ++ 2#8 ++ b ++ 0#1 ++ a ++ d ++ 41#7

/-- The word of AMINU. -/
def encAminu (eb : BitVec 1) (b : BitVec 5) (a : BitVec 4) (d : BitVec 5) : BitVec 32 := 0#1 ++ eb ++ 3#8 ++ b ++ 0#1 ++ a ++ d ++ 41#7

/-- The word of AMAXU. -/
def encAmaxu (eb : BitVec 1) (b : BitVec 5) (a : BitVec 4) (d : BitVec 5) : BitVec 32 := 0#1 ++ eb ++ 4#8 ++ b ++ 0#1 ++ a ++ d ++ 41#7

/-- The word of AAND. -/
def encAand (eb : BitVec 1) (b : BitVec 5) (a : BitVec 4) (d : BitVec 5) : BitVec 32 := 0#1 ++ eb ++ 5#8 ++ b ++ 0#1 ++ a ++ d ++ 41#7

/-- The word of AOR. -/
def encAor (eb : BitVec 1) (b : BitVec 5) (a : BitVec 4) (d : BitVec 5) : BitVec 32 := 0#1 ++ eb ++ 6#8 ++ b ++ 0#1 ++ a ++ d ++ 41#7

/-- The word of AXOR. -/
def encAxor (eb : BitVec 1) (b : BitVec 5) (a : BitVec 4) (d : BitVec 5) : BitVec 32 := 0#1 ++ eb ++ 7#8 ++ b ++ 0#1 ++ a ++ d ++ 41#7

/-- The word of ASWP. -/
def encAswp (eb : BitVec 1) (b : BitVec 5) (a : BitVec 4) (d : BitVec 5) : BitVec 32 := 0#1 ++ eb ++ 8#8 ++ b ++ 0#1 ++ a ++ d ++ 41#7

/-- The word of ACAS. -/
def encAcas (eb : BitVec 1) (b : BitVec 5) (a : BitVec 4) (d : BitVec 5) : BitVec 32 := 0#1 ++ eb ++ 9#8 ++ b ++ 0#1 ++ a ++ d ++ 41#7

/-- The word of AFADD. -/
def encAfadd (eb : BitVec 1) (b : BitVec 5) (a : BitVec 4) (d : BitVec 5) : BitVec 32 := 0#1 ++ eb ++ 10#8 ++ b ++ 0#1 ++ a ++ d ++ 41#7

/-- The word of ARED_V_ADD. -/
def encAredVAdd (b : BitVec 5) (a : BitVec 4) (d : BitVec 5) : BitVec 32 := 11#10 ++ b ++ 0#1 ++ a ++ d ++ 41#7

/-- The word of ARED_V_MAX. -/
def encAredVMax (b : BitVec 5) (a : BitVec 4) (d : BitVec 5) : BitVec 32 := 12#10 ++ b ++ 0#1 ++ a ++ d ++ 41#7

/-- The word of ARED_V_MIN. -/
def encAredVMin (b : BitVec 5) (a : BitVec 4) (d : BitVec 5) : BitVec 32 := 13#10 ++ b ++ 0#1 ++ a ++ d ++ 41#7

/-- The word of ARED_V_FADD. -/
def encAredVFadd (b : BitVec 5) (a : BitVec 4) (d : BitVec 5) : BitVec 32 := 14#10 ++ b ++ 0#1 ++ a ++ d ++ 41#7

/-- The word of CPSET_SRC. -/
def encCpsetSrc (l : BitVec 1) (c : BitVec 4) : BitVec 32 := 0#15 ++ l ++ c ++ 43#12

/-- The word of CPSET_DST. -/
def encCpsetDst (l : BitVec 1) (c : BitVec 4) : BitVec 32 := 8#15 ++ l ++ c ++ 43#12

/-- The word of CPSET_AUX. -/
def encCpsetAux (l : BitVec 1) (c : BitVec 4) : BitVec 32 := 16#15 ++ l ++ c ++ 43#12

/-- The word of CPSET_CTL. -/
def encCpsetCtl (x : BitVec 5) (l : BitVec 1) : BitVec 32 := 0#3 ++ x ++ 24#7 ++ l ++ 43#16

/-- The word of CPSET_MLO. -/
def encCpsetMlo (x : BitVec 5) (l : BitVec 1) : BitVec 32 := 0#3 ++ x ++ 32#7 ++ l ++ 43#16

/-- The word of CPSET_MHI. -/
def encCpsetMhi (x : BitVec 5) (l : BitVec 1) : BitVec 32 := 0#3 ++ x ++ 40#7 ++ l ++ 43#16

/-- The word of CPGO. -/
def encCpgo (l : BitVec 1) (d : BitVec 5) : BitVec 32 := 4096#15 ++ l ++ 0#4 ++ d ++ 43#7

/-- The word of CPSTAT. -/
def encCpstat (s : BitVec 4) (l : BitVec 1) (d : BitVec 5) : BitVec 32 := 64#8 ++ s ++ 0#3 ++ l ++ 0#4 ++ d ++ 43#7

/-- The word of CPNOTE. -/
def encCpnote (x : BitVec 5) (l : BitVec 1) (d : BitVec 5) : BitVec 32 := 3#3 ++ x ++ 0#7 ++ l ++ 0#4 ++ d ++ 43#7

/-- The word of CPGATH. -/
def encCpgath (l : BitVec 1) (d : BitVec 5) : BitVec 32 := 16384#15 ++ l ++ 0#4 ++ d ++ 43#7

/-- The word of CPSCAT. -/
def encCpscat (l : BitVec 1) (d : BitVec 5) : BitVec 32 := 20480#15 ++ l ++ 0#4 ++ d ++ 43#7

/-- The word of CPCAST. -/
def encCpcast (l : BitVec 1) (d : BitVec 5) : BitVec 32 := 24576#15 ++ l ++ 0#4 ++ d ++ 43#7

/-- The word of CPRED. -/
def encCpred (l : BitVec 1) (d : BitVec 5) : BitVec 32 := 28672#15 ++ l ++ 0#4 ++ d ++ 43#7

/-- The word of MLEASE. -/
def encMlease (n : BitVec 8) (d : BitVec 5) : BitVec 32 := 0#8 ++ n ++ 0#4 ++ d ++ 45#7

/-- The word of MREL. -/
def encMrel : BitVec 32 := 536870957#32

/-- The word of MCFG. -/
def encMcfg (x : BitVec 5) : BitVec 32 := 2#3 ++ x ++ 45#24

/-- The word of MMA. -/
def encMma (c : BitVec 4) (b : BitVec 4) (a : BitVec 4) (t : BitVec 5) : BitVec 32 := 96#8 ++ c ++ b ++ a ++ t ++ 45#7

/-- The word of MMA_Z. -/
def encMmaZ (c : BitVec 4) (b : BitVec 4) (a : BitVec 4) (t : BitVec 5) : BitVec 32 := 128#8 ++ c ++ b ++ a ++ t ++ 45#7

/-- The word of MAD. -/
def encMad (x : BitVec 5) (c : BitVec 4) (b : BitVec 4) (a : BitVec 4) (t : BitVec 4) : BitVec 32 := 5#3 ++ x ++ c ++ b ++ a ++ 0#1 ++ t ++ 45#7

/-- The word of MCVT. -/
def encMcvt (x : BitVec 5) (c : BitVec 4) (a : BitVec 4) (t : BitVec 5) : BitVec 32 := 6#3 ++ x ++ c ++ 0#4 ++ a ++ t ++ 45#7

/-- The word of MZERO. -/
def encMzero (c : BitVec 4) (t : BitVec 5) : BitVec 32 := 224#8 ++ c ++ 0#8 ++ t ++ 45#7

/-- The word of NALLOC. -/
def encNalloc (a : BitVec 4) (d : BitVec 5) : BitVec 32 := 0#16 ++ a ++ d ++ 47#7

/-- The word of NFREE. -/
def encNfree (x : BitVec 5) (a : BitVec 4) : BitVec 32 := 1#3 ++ x ++ 0#8 ++ a ++ 47#12

/-- The word of NLINK. -/
def encNlink (x : BitVec 5) (a : BitVec 4) (d : BitVec 5) : BitVec 32 := 2#3 ++ x ++ 0#8 ++ a ++ d ++ 47#7

/-- The word of NLOAD. -/
def encNload (x : BitVec 5) (w : BitVec 3) (a : BitVec 4) (d : BitVec 5) : BitVec 32 := 3#3 ++ x ++ 0#5 ++ w ++ a ++ d ++ 47#7

/-- The word of NSTORE. -/
def encNstore (x : BitVec 5) (w : BitVec 3) (a : BitVec 4) (d : BitVec 5) : BitVec 32 := 4#3 ++ x ++ 0#5 ++ w ++ a ++ d ++ 47#7

/-- The word of NPUSH. -/
def encNpush (x : BitVec 5) (a : BitVec 4) : BitVec 32 := 5#3 ++ x ++ 0#8 ++ a ++ 47#12

/-- The word of NBAG_BIND. -/
def encNbagBind (x : BitVec 5) (a : BitVec 4) (d : BitVec 5) : BitVec 32 := 6#3 ++ x ++ 0#8 ++ a ++ d ++ 47#7

/-- The word of SEXP2. -/
def encSexp2 (m : BitVec 3) (a : BitVec 6) (v : BitVec 6) : BitVec 32 := 0#4 ++ m ++ 0#6 ++ a ++ v ++ 49#7

/-- The word of SLOG2. -/
def encSlog2 (m : BitVec 3) (a : BitVec 6) (v : BitVec 6) : BitVec 32 := 1#4 ++ m ++ 0#6 ++ a ++ v ++ 49#7

/-- The word of SRCP. -/
def encSrcp (m : BitVec 3) (a : BitVec 6) (v : BitVec 6) : BitVec 32 := 2#4 ++ m ++ 0#6 ++ a ++ v ++ 49#7

/-- The word of SRSQRT. -/
def encSrsqrt (m : BitVec 3) (a : BitVec 6) (v : BitVec 6) : BitVec 32 := 3#4 ++ m ++ 0#6 ++ a ++ v ++ 49#7

/-- The word of SSQRT. -/
def encSsqrt (m : BitVec 3) (a : BitVec 6) (v : BitVec 6) : BitVec 32 := 4#4 ++ m ++ 0#6 ++ a ++ v ++ 49#7

/-- The word of SSIN. -/
def encSsin (m : BitVec 3) (a : BitVec 6) (v : BitVec 6) : BitVec 32 := 5#4 ++ m ++ 0#6 ++ a ++ v ++ 49#7

/-- The word of SCOS. -/
def encScos (m : BitVec 3) (a : BitVec 6) (v : BitVec 6) : BitVec 32 := 6#4 ++ m ++ 0#6 ++ a ++ v ++ 49#7

/-- The word of FADD. -/
def encFadd (f : BitVec 1) (eb : BitVec 1) (ea : BitVec 1) (b : BitVec 5) (a : BitVec 5) (d : BitVec 5) : BitVec 32 := f ++ eb ++ ea ++ 0#7 ++ b ++ a ++ d ++ 55#7

/-- The word of FSUB. -/
def encFsub (f : BitVec 1) (eb : BitVec 1) (ea : BitVec 1) (b : BitVec 5) (a : BitVec 5) (d : BitVec 5) : BitVec 32 := f ++ eb ++ ea ++ 1#7 ++ b ++ a ++ d ++ 55#7

/-- The word of FMUL. -/
def encFmul (f : BitVec 1) (eb : BitVec 1) (ea : BitVec 1) (b : BitVec 5) (a : BitVec 5) (d : BitVec 5) : BitVec 32 := f ++ eb ++ ea ++ 2#7 ++ b ++ a ++ d ++ 55#7

/-- The word of FMADD. -/
def encFmadd (f : BitVec 1) (eb : BitVec 1) (ea : BitVec 1) (b : BitVec 5) (a : BitVec 5) (d : BitVec 5) : BitVec 32 := f ++ eb ++ ea ++ 3#7 ++ b ++ a ++ d ++ 55#7

/-- The word of FMIN. -/
def encFmin (f : BitVec 1) (eb : BitVec 1) (ea : BitVec 1) (b : BitVec 5) (a : BitVec 5) (d : BitVec 5) : BitVec 32 := f ++ eb ++ ea ++ 4#7 ++ b ++ a ++ d ++ 55#7

/-- The word of FMAX. -/
def encFmax (f : BitVec 1) (eb : BitVec 1) (ea : BitVec 1) (b : BitVec 5) (a : BitVec 5) (d : BitVec 5) : BitVec 32 := f ++ eb ++ ea ++ 5#7 ++ b ++ a ++ d ++ 55#7

/-- The word of FCMP_EQ. -/
def encFcmpEq (f : BitVec 1) (eb : BitVec 1) (ea : BitVec 1) (b : BitVec 5) (a : BitVec 5) (d : BitVec 5) : BitVec 32 := f ++ eb ++ ea ++ 6#7 ++ b ++ a ++ d ++ 55#7

/-- The word of FCMP_LT. -/
def encFcmpLt (f : BitVec 1) (eb : BitVec 1) (ea : BitVec 1) (b : BitVec 5) (a : BitVec 5) (d : BitVec 5) : BitVec 32 := f ++ eb ++ ea ++ 7#7 ++ b ++ a ++ d ++ 55#7

/-- The word of FCMP_LE. -/
def encFcmpLe (f : BitVec 1) (eb : BitVec 1) (ea : BitVec 1) (b : BitVec 5) (a : BitVec 5) (d : BitVec 5) : BitVec 32 := f ++ eb ++ ea ++ 8#7 ++ b ++ a ++ d ++ 55#7

/-- The word of FCMP_UN. -/
def encFcmpUn (f : BitVec 1) (eb : BitVec 1) (ea : BitVec 1) (b : BitVec 5) (a : BitVec 5) (d : BitVec 5) : BitVec 32 := f ++ eb ++ ea ++ 9#7 ++ b ++ a ++ d ++ 55#7

/-- The word of FCVT_L_F. -/
def encFcvtLF (f : BitVec 1) (ea : BitVec 1) (a : BitVec 5) (d : BitVec 5) : BitVec 32 := f ++ 0#1 ++ ea ++ 320#12 ++ a ++ d ++ 55#7

/-- The word of FCVT_LU_F. -/
def encFcvtLuF (f : BitVec 1) (ea : BitVec 1) (a : BitVec 5) (d : BitVec 5) : BitVec 32 := f ++ 0#1 ++ ea ++ 352#12 ++ a ++ d ++ 55#7

/-- The word of FCVT_F_L. -/
def encFcvtFL (f : BitVec 1) (ea : BitVec 1) (a : BitVec 5) (d : BitVec 5) : BitVec 32 := f ++ 0#1 ++ ea ++ 384#12 ++ a ++ d ++ 55#7

/-- The word of FCVT_F_LU. -/
def encFcvtFLu (f : BitVec 1) (ea : BitVec 1) (a : BitVec 5) (d : BitVec 5) : BitVec 32 := f ++ 0#1 ++ ea ++ 416#12 ++ a ++ d ++ 55#7

/-- The word of FSGNJ. -/
def encFsgnj (f : BitVec 1) (eb : BitVec 1) (ea : BitVec 1) (b : BitVec 5) (a : BitVec 5) (d : BitVec 5) : BitVec 32 := f ++ eb ++ ea ++ 14#7 ++ b ++ a ++ d ++ 55#7

/-- The word of FSGNJN. -/
def encFsgnjn (f : BitVec 1) (eb : BitVec 1) (ea : BitVec 1) (b : BitVec 5) (a : BitVec 5) (d : BitVec 5) : BitVec 32 := f ++ eb ++ ea ++ 15#7 ++ b ++ a ++ d ++ 55#7

/-- The word of FSGNJX. -/
def encFsgnjx (f : BitVec 1) (eb : BitVec 1) (ea : BitVec 1) (b : BitVec 5) (a : BitVec 5) (d : BitVec 5) : BitVec 32 := f ++ eb ++ ea ++ 16#7 ++ b ++ a ++ d ++ 55#7

/-- The word of VADD. -/
def encVadd (m : BitVec 3) (b : BitVec 6) (a : BitVec 6) (v : BitVec 6) (w : BitVec 2) : BitVec 32 := 0#4 ++ m ++ b ++ a ++ v ++ 8#4 ++ w ++ 1#1

/-- The word of VSUB. -/
def encVsub (m : BitVec 3) (b : BitVec 6) (a : BitVec 6) (v : BitVec 6) (w : BitVec 2) : BitVec 32 := 1#4 ++ m ++ b ++ a ++ v ++ 8#4 ++ w ++ 1#1

/-- The word of VADDS. -/
def encVadds (m : BitVec 3) (b : BitVec 6) (a : BitVec 6) (v : BitVec 6) (w : BitVec 2) : BitVec 32 := 2#4 ++ m ++ b ++ a ++ v ++ 8#4 ++ w ++ 1#1

/-- The word of VADDUS. -/
def encVaddus (m : BitVec 3) (b : BitVec 6) (a : BitVec 6) (v : BitVec 6) (w : BitVec 2) : BitVec 32 := 3#4 ++ m ++ b ++ a ++ v ++ 8#4 ++ w ++ 1#1

/-- The word of VSUBS. -/
def encVsubs (m : BitVec 3) (b : BitVec 6) (a : BitVec 6) (v : BitVec 6) (w : BitVec 2) : BitVec 32 := 4#4 ++ m ++ b ++ a ++ v ++ 8#4 ++ w ++ 1#1

/-- The word of VSUBUS. -/
def encVsubus (m : BitVec 3) (b : BitVec 6) (a : BitVec 6) (v : BitVec 6) (w : BitVec 2) : BitVec 32 := 5#4 ++ m ++ b ++ a ++ v ++ 8#4 ++ w ++ 1#1

/-- The word of VMUL. -/
def encVmul (m : BitVec 3) (b : BitVec 6) (a : BitVec 6) (v : BitVec 6) (w : BitVec 2) : BitVec 32 := 6#4 ++ m ++ b ++ a ++ v ++ 8#4 ++ w ++ 1#1

/-- The word of VMULH. -/
def encVmulh (m : BitVec 3) (b : BitVec 6) (a : BitVec 6) (v : BitVec 6) (w : BitVec 2) : BitVec 32 := 7#4 ++ m ++ b ++ a ++ v ++ 8#4 ++ w ++ 1#1

/-- The word of VMIN. -/
def encVmin (m : BitVec 3) (b : BitVec 6) (a : BitVec 6) (v : BitVec 6) (w : BitVec 2) : BitVec 32 := 8#4 ++ m ++ b ++ a ++ v ++ 8#4 ++ w ++ 1#1

/-- The word of VMAX. -/
def encVmax (m : BitVec 3) (b : BitVec 6) (a : BitVec 6) (v : BitVec 6) (w : BitVec 2) : BitVec 32 := 9#4 ++ m ++ b ++ a ++ v ++ 8#4 ++ w ++ 1#1

/-- The word of VMINU. -/
def encVminu (m : BitVec 3) (b : BitVec 6) (a : BitVec 6) (v : BitVec 6) (w : BitVec 2) : BitVec 32 := 10#4 ++ m ++ b ++ a ++ v ++ 8#4 ++ w ++ 1#1

/-- The word of VMAXU. -/
def encVmaxu (m : BitVec 3) (b : BitVec 6) (a : BitVec 6) (v : BitVec 6) (w : BitVec 2) : BitVec 32 := 11#4 ++ m ++ b ++ a ++ v ++ 8#4 ++ w ++ 1#1

/-- The word of VSLL. -/
def encVsll (m : BitVec 3) (b : BitVec 6) (a : BitVec 6) (v : BitVec 6) (w : BitVec 2) : BitVec 32 := 12#4 ++ m ++ b ++ a ++ v ++ 8#4 ++ w ++ 1#1

/-- The word of VSRL. -/
def encVsrl (m : BitVec 3) (b : BitVec 6) (a : BitVec 6) (v : BitVec 6) (w : BitVec 2) : BitVec 32 := 13#4 ++ m ++ b ++ a ++ v ++ 8#4 ++ w ++ 1#1

/-- The word of VSRA. -/
def encVsra (m : BitVec 3) (b : BitVec 6) (a : BitVec 6) (v : BitVec 6) (w : BitVec 2) : BitVec 32 := 14#4 ++ m ++ b ++ a ++ v ++ 8#4 ++ w ++ 1#1

/-- The word of VMULHU. -/
def encVmulhu (b : BitVec 6) (a : BitVec 6) (v : BitVec 6) (w : BitVec 2) : BitVec 32 := 120#7 ++ b ++ a ++ v ++ 8#4 ++ w ++ 1#1

/-- The word of VAVGU. -/
def encVavgu (b : BitVec 6) (a : BitVec 6) (v : BitVec 6) (w : BitVec 2) : BitVec 32 := 121#7 ++ b ++ a ++ v ++ 8#4 ++ w ++ 1#1

/-- The word of VABS. -/
def encVabs (a : BitVec 6) (v : BitVec 6) (w : BitVec 2) : BitVec 32 := 7808#13 ++ a ++ v ++ 8#4 ++ w ++ 1#1

/-- The word of VAND. -/
def encVand (b : BitVec 6) (a : BitVec 6) (v : BitVec 6) (w : BitVec 2) : BitVec 32 := 123#7 ++ b ++ a ++ v ++ 8#4 ++ w ++ 1#1

/-- The word of VOR. -/
def encVor (b : BitVec 6) (a : BitVec 6) (v : BitVec 6) (w : BitVec 2) : BitVec 32 := 124#7 ++ b ++ a ++ v ++ 8#4 ++ w ++ 1#1

/-- The word of VXOR. -/
def encVxor (b : BitVec 6) (a : BitVec 6) (v : BitVec 6) (w : BitVec 2) : BitVec 32 := 125#7 ++ b ++ a ++ v ++ 8#4 ++ w ++ 1#1

/-- The word of VANDN. -/
def encVandn (b : BitVec 6) (a : BitVec 6) (v : BitVec 6) (w : BitVec 2) : BitVec 32 := 126#7 ++ b ++ a ++ v ++ 8#4 ++ w ++ 1#1

/-- The word of VFADD. -/
def encVfadd (m : BitVec 3) (b : BitVec 6) (a : BitVec 6) (v : BitVec 6) (w : BitVec 2) : BitVec 32 := 0#4 ++ m ++ b ++ a ++ v ++ 9#4 ++ w ++ 1#1

/-- The word of VFSUB. -/
def encVfsub (m : BitVec 3) (b : BitVec 6) (a : BitVec 6) (v : BitVec 6) (w : BitVec 2) : BitVec 32 := 1#4 ++ m ++ b ++ a ++ v ++ 9#4 ++ w ++ 1#1

/-- The word of VFMUL. -/
def encVfmul (m : BitVec 3) (b : BitVec 6) (a : BitVec 6) (v : BitVec 6) (w : BitVec 2) : BitVec 32 := 2#4 ++ m ++ b ++ a ++ v ++ 9#4 ++ w ++ 1#1

/-- The word of VFMA. -/
def encVfma (m : BitVec 3) (b : BitVec 6) (a : BitVec 6) (v : BitVec 6) (w : BitVec 2) : BitVec 32 := 3#4 ++ m ++ b ++ a ++ v ++ 9#4 ++ w ++ 1#1

/-- The word of VFMIN. -/
def encVfmin (m : BitVec 3) (b : BitVec 6) (a : BitVec 6) (v : BitVec 6) (w : BitVec 2) : BitVec 32 := 4#4 ++ m ++ b ++ a ++ v ++ 9#4 ++ w ++ 1#1

/-- The word of VFMAX. -/
def encVfmax (m : BitVec 3) (b : BitVec 6) (a : BitVec 6) (v : BitVec 6) (w : BitVec 2) : BitVec 32 := 5#4 ++ m ++ b ++ a ++ v ++ 9#4 ++ w ++ 1#1

/-- The word of VFABS. -/
def encVfabs (m : BitVec 3) (a : BitVec 6) (v : BitVec 6) (w : BitVec 2) : BitVec 32 := 6#4 ++ m ++ 0#6 ++ a ++ v ++ 9#4 ++ w ++ 1#1

/-- The word of VFNEG. -/
def encVfneg (m : BitVec 3) (a : BitVec 6) (v : BitVec 6) (w : BitVec 2) : BitVec 32 := 7#4 ++ m ++ 0#6 ++ a ++ v ++ 9#4 ++ w ++ 1#1

/-- The word of VCVT. -/
def encVcvt (m : BitVec 3) (b : BitVec 5) (a : BitVec 6) (v : BitVec 6) : BitVec 32 := 0#4 ++ m ++ 0#1 ++ b ++ a ++ v ++ 79#7

/-- The word of VMXSC. -/
def encVmxsc (f : BitVec 6) (a : BitVec 5) (d : BitVec 5) : BitVec 32 := 8#7 ++ f ++ 0#1 ++ a ++ 0#1 ++ d ++ 79#7

/-- The word of VSHUF. -/
def encVshuf (m : BitVec 3) (b : BitVec 6) (a : BitVec 6) (v : BitVec 6) : BitVec 32 := 0#4 ++ m ++ b ++ a ++ v ++ 81#7

/-- The word of VZIP_LO. -/
def encVzipLo (w : BitVec 3) (b : BitVec 6) (a : BitVec 6) (v : BitVec 6) : BitVec 32 := 1#4 ++ w ++ b ++ a ++ v ++ 81#7

/-- The word of VZIP_HI. -/
def encVzipHi (w : BitVec 3) (b : BitVec 6) (a : BitVec 6) (v : BitVec 6) : BitVec 32 := 2#4 ++ w ++ b ++ a ++ v ++ 81#7

/-- The word of VUNZIP_EV. -/
def encVunzipEv (w : BitVec 3) (b : BitVec 6) (a : BitVec 6) (v : BitVec 6) : BitVec 32 := 3#4 ++ w ++ b ++ a ++ v ++ 81#7

/-- The word of VUNZIP_OD. -/
def encVunzipOd (w : BitVec 3) (b : BitVec 6) (a : BitVec 6) (v : BitVec 6) : BitVec 32 := 4#4 ++ w ++ b ++ a ++ v ++ 81#7

/-- The word of VBCAST. -/
def encVbcast (w : BitVec 3) (k : BitVec 6) (a : BitVec 6) (v : BitVec 6) : BitVec 32 := 5#4 ++ w ++ k ++ a ++ v ++ 81#7

/-- The word of VEXT_LO. -/
def encVextLo (k : BitVec 3) (b : BitVec 6) (a : BitVec 6) (v : BitVec 6) : BitVec 32 := 6#4 ++ k ++ b ++ a ++ v ++ 81#7

/-- The word of VEXT_HI. -/
def encVextHi (k : BitVec 3) (b : BitVec 6) (a : BitVec 6) (v : BitVec 6) : BitVec 32 := 7#4 ++ k ++ b ++ a ++ v ++ 81#7

/-- The word of VSEL. -/
def encVsel (s : BitVec 3) (b : BitVec 6) (a : BitVec 6) (v : BitVec 6) : BitVec 32 := 8#4 ++ s ++ b ++ a ++ v ++ 81#7

/-- The word of VREDADD_INT. -/
def encVredaddInt (w : BitVec 2) (m : BitVec 3) (a : BitVec 6) (d : BitVec 5) : BitVec 32 := 0#2 ++ w ++ m ++ 0#6 ++ a ++ 0#1 ++ d ++ 83#7

/-- The word of VREDMAX_INT. -/
def encVredmaxInt (w : BitVec 2) (m : BitVec 3) (a : BitVec 6) (d : BitVec 5) : BitVec 32 := 1#2 ++ w ++ m ++ 0#6 ++ a ++ 0#1 ++ d ++ 83#7

/-- The word of VREDADD_F32. -/
def encVredaddF32 (m : BitVec 3) (a : BitVec 6) (d : BitVec 5) : BitVec 32 := 8#4 ++ m ++ 0#6 ++ a ++ 0#1 ++ d ++ 83#7

/-- The word of VREDMAX_F32. -/
def encVredmaxF32 (m : BitVec 3) (a : BitVec 6) (d : BitVec 5) : BitVec 32 := 9#4 ++ m ++ 0#6 ++ a ++ 0#1 ++ d ++ 83#7

/-- The word of VREDAMAX. -/
def encVredamax (m : BitVec 3) (b : BitVec 5) (a : BitVec 6) (d : BitVec 5) : BitVec 32 := 10#4 ++ m ++ 0#1 ++ b ++ a ++ 0#1 ++ d ++ 83#7

/-- The word of VDOT4. -/
def encVdot4 (m : BitVec 3) (b : BitVec 6) (a : BitVec 6) (v : BitVec 6) : BitVec 32 := 11#4 ++ m ++ b ++ a ++ v ++ 83#7

/-- The word of VDOT2. -/
def encVdot2 (m : BitVec 3) (b : BitVec 6) (a : BitVec 6) (v : BitVec 6) : BitVec 32 := 12#4 ++ m ++ b ++ a ++ v ++ 83#7

/-- The word of VCMP_EQ. -/
def encVcmpEq (t : BitVec 3) (b : BitVec 6) (a : BitVec 6) (d : BitVec 3) : BitVec 32 := 0#4 ++ t ++ b ++ a ++ 0#3 ++ d ++ 85#7

/-- The word of VCMP_LT. -/
def encVcmpLt (t : BitVec 3) (b : BitVec 6) (a : BitVec 6) (d : BitVec 3) : BitVec 32 := 1#4 ++ t ++ b ++ a ++ 0#3 ++ d ++ 85#7

/-- The word of VCMP_LE. -/
def encVcmpLe (t : BitVec 3) (b : BitVec 6) (a : BitVec 6) (d : BitVec 3) : BitVec 32 := 2#4 ++ t ++ b ++ a ++ 0#3 ++ d ++ 85#7

/-- The word of VCMP_LTU. -/
def encVcmpLtu (t : BitVec 3) (b : BitVec 6) (a : BitVec 6) (d : BitVec 3) : BitVec 32 := 3#4 ++ t ++ b ++ a ++ 0#3 ++ d ++ 85#7

/-- The word of VCMP_LEU. -/
def encVcmpLeu (t : BitVec 3) (b : BitVec 6) (a : BitVec 6) (d : BitVec 3) : BitVec 32 := 4#4 ++ t ++ b ++ a ++ 0#3 ++ d ++ 85#7

/-- The word of VFCMP_UN. -/
def encVfcmpUn (t : BitVec 3) (b : BitVec 6) (a : BitVec 6) (d : BitVec 3) : BitVec 32 := 5#4 ++ t ++ b ++ a ++ 0#3 ++ d ++ 85#7

/-- The word of MAND. -/
def encMand (b : BitVec 3) (a : BitVec 3) (d : BitVec 3) : BitVec 32 := 384#10 ++ b ++ 0#3 ++ a ++ 0#3 ++ d ++ 85#7

/-- The word of MOR. -/
def encMor (b : BitVec 3) (a : BitVec 3) (d : BitVec 3) : BitVec 32 := 448#10 ++ b ++ 0#3 ++ a ++ 0#3 ++ d ++ 85#7

/-- The word of MXOR. -/
def encMxor (b : BitVec 3) (a : BitVec 3) (d : BitVec 3) : BitVec 32 := 512#10 ++ b ++ 0#3 ++ a ++ 0#3 ++ d ++ 85#7

/-- The word of MANDN. -/
def encMandn (b : BitVec 3) (a : BitVec 3) (d : BitVec 3) : BitVec 32 := 576#10 ++ b ++ 0#3 ++ a ++ 0#3 ++ d ++ 85#7

/-- The word of MNOT. -/
def encMnot (a : BitVec 3) (d : BitVec 3) : BitVec 32 := 40960#16 ++ a ++ 0#3 ++ d ++ 85#7

/-- The word of MMV_MX. -/
def encMmvMx (a : BitVec 5) (d : BitVec 3) : BitVec 32 := 11264#14 ++ a ++ 0#3 ++ d ++ 85#7

/-- The word of MMV_XM. -/
def encMmvXm (a : BitVec 3) (d : BitVec 5) : BitVec 32 := 49152#16 ++ a ++ 0#1 ++ d ++ 85#7

/-- The word of MPOP. -/
def encMpop (a : BitVec 3) (d : BitVec 5) : BitVec 32 := 53248#16 ++ a ++ 0#1 ++ d ++ 85#7

/-- The word of VMV_XV. -/
def encVmvXv (w : BitVec 3) (k : BitVec 6) (a : BitVec 6) (d : BitVec 5) : BitVec 32 := 0#4 ++ w ++ k ++ a ++ 0#1 ++ d ++ 87#7

/-- The word of VMV_VX. -/
def encVmvVx (m : BitVec 3) (w : BitVec 2) (a : BitVec 5) (v : BitVec 6) : BitVec 32 := 1#4 ++ m ++ 0#4 ++ w ++ 0#1 ++ a ++ v ++ 87#7

/-- The word of VLI. -/
def encVli (w : BitVec 3) (i : BitVec 12) (v : BitVec 6) : BitVec 32 := 2#4 ++ w ++ i ++ v ++ 87#7

/-- The word of VMV. -/
def encVmv (m : BitVec 3) (a : BitVec 6) (v : BitVec 6) : BitVec 32 := 3#4 ++ m ++ 0#6 ++ a ++ v ++ 87#7

/-- R60, R63: the word of an instruction (a 16-bit one zero-extended; a step that no encoding names has none and gives 0). -/
def encode : Instr → BitVec 32
  | .kread k d => encKread k d
  | .kwrite k a => encKwrite k a
  | .kswap k a d => encKswap k a d
  | .kcset a d => encKcset a d
  | .svc n => encSvc n
  | .tret a d => encTret a d
  | .tdrop a d => encTdrop a d
  | .brk n => encBrk n
  | .halt => encHalt
  | .cNop => encCNop
  | .cMv b d => encCMv b d
  | .cLi i d => encCLi i d
  | .cAddi i d => encCAddi i d
  | .cAdd b d => encCAdd b d
  | .cSub b d => encCSub b d
  | .cAnd b d => encCAnd b d
  | .cOr b d => encCOr b d
  | .cSlli s d => encCSlli s d
  | .cSrli s d => encCSrli s d
  | .cBeqz i d => encCBeqz i d
  | .cBnez i d => encCBnez i d
  | .cJ i => encCJ i
  | .cRet => encCRet
  | .cDone => encCDone
  | .add f eb ea b a d => encAdd f eb ea b a d
  | .sub f eb ea b a d => encSub f eb ea b a d
  | .and f eb ea b a d => encAnd f eb ea b a d
  | .or f eb ea b a d => encOr f eb ea b a d
  | .xor f eb ea b a d => encXor f eb ea b a d
  | .andn f eb ea b a d => encAndn f eb ea b a d
  | .sll f eb ea b a d => encSll f eb ea b a d
  | .srl f eb ea b a d => encSrl f eb ea b a d
  | .sra f eb ea b a d => encSra f eb ea b a d
  | .slt f eb ea b a d => encSlt f eb ea b a d
  | .sltu f eb ea b a d => encSltu f eb ea b a d
  | .min f eb ea b a d => encMin f eb ea b a d
  | .max f eb ea b a d => encMax f eb ea b a d
  | .minu f eb ea b a d => encMinu f eb ea b a d
  | .maxu f eb ea b a d => encMaxu f eb ea b a d
  | .clz f ea a d => encClz f ea a d
  | .ctz f ea a d => encCtz f ea a d
  | .pop f ea a d => encPop f ea a d
  | .bext f eb ea b a d => encBext f eb ea b a d
  | .bins f eb ea b a d => encBins f eb ea b a d
  | .addw f eb ea b a d => encAddw f eb ea b a d
  | .subw f eb ea b a d => encSubw f eb ea b a d
  | .sllw f eb ea b a d => encSllw f eb ea b a d
  | .srlw f eb ea b a d => encSrlw f eb ea b a d
  | .sraw f eb ea b a d => encSraw f eb ea b a d
  | .addi k a d => encAddi k a d
  | .andi k a d => encAndi k a d
  | .ori k a d => encOri k a d
  | .xori k a d => encXori k a d
  | .slti k a d => encSlti k a d
  | .sltiu k a d => encSltiu k a d
  | .slli s a d => encSlli s a d
  | .srli s a d => encSrli s a d
  | .srai s a d => encSrai s a d
  | .mini k a d => encMini k a d
  | .maxi k a d => encMaxi k a d
  | .minui k a d => encMinui k a d
  | .maxui k a d => encMaxui k a d
  | .addiw k a d => encAddiw k a d
  | .lui i d => encLui i d
  | .mul f eb ea b a d => encMul f eb ea b a d
  | .mulh f eb ea b a d => encMulh f eb ea b a d
  | .mulhu f eb ea b a d => encMulhu f eb ea b a d
  | .div f eb ea b a d => encDiv f eb ea b a d
  | .divu f eb ea b a d => encDivu f eb ea b a d
  | .rem f eb ea b a d => encRem f eb ea b a d
  | .remu f eb ea b a d => encRemu f eb ea b a d
  | .beq o b a => encBeq o b a
  | .bne o b a => encBne o b a
  | .blt o b a => encBlt o b a
  | .bge o b a => encBge o b a
  | .bltu o b a => encBltu o b a
  | .bgeu o b a => encBgeu o b a
  | .jal i => encJal i
  | .jalr f ea k a d => encJalr f ea k a d
  | .loop k => encLoop k
  | .lcset c a => encLcset c a
  | .follow => encFollow
  | .ldB f eb ea j i c d => encLdB f eb ea j i c d
  | .ldBu f eb ea j i c d => encLdBu f eb ea j i c d
  | .ldH f eb ea j i c d => encLdH f eb ea j i c d
  | .ldHu f eb ea j i c d => encLdHu f eb ea j i c d
  | .ldW f eb ea j i c d => encLdW f eb ea j i c d
  | .ldWu f eb ea j i c d => encLdWu f eb ea j i c d
  | .ldD f eb ea j i c d => encLdD f eb ea j i c d
  | .stB f eb ea j i c d => encStB f eb ea j i c d
  | .stH f eb ea j i c d => encStH f eb ea j i c d
  | .stW f eb ea j i c d => encStW f eb ea j i c d
  | .stD f eb ea j i c d => encStD f eb ea j i c d
  | .ldv j i c v => encLdv j i c v
  | .ldvS j i c v => encLdvS j i c v
  | .stv j i c v => encStv j i c v
  | .stvS j i c v => encStvS j i c v
  | .cslice f eb b a d => encCslice f eb b a d
  | .cstep f eb b a d => encCstep f eb b a d
  | .cperm f eb b a d => encCperm f eb b a d
  | .cfold f eb b a d => encCfold f eb b a d
  | .crestrict f eb b a d => encCrestrict f eb b a d
  | .cscope f eb b a d => encCscope f eb b a d
  | .cfmt f eb b a d => encCfmt f eb b a d
  | .cget n a d => encCget n a d
  | .cmove a d => encCmove a d
  | .cseal b a d => encCseal b a d
  | .clc f eb ea j i c d => encClc f eb ea j i c d
  | .csc f eb ea j i c d => encCsc f eb ea j i c d
  | .ctag f eb ea j i c d => encCtag f eb ea j i c d
  | .ccall b a n => encCcall b a n
  | .cret n => encCret n
  | .cunseal b a d => encCunseal b a d
  | .sendRq f eb ea b a d => encSendRq f eb ea b a d
  | .sendRp f eb ea b a d => encSendRp f eb ea b a d
  | .sendSy f eb ea b a d => encSendSy f eb ea b a d
  | .sendnN f eb ea b a d => encSendnN f eb ea b a d
  | .sendnE f eb ea b a d => encSendnE f eb ea b a d
  | .sendnS f eb ea b a d => encSendnS f eb ea b a d
  | .sendnW f eb ea b a d => encSendnW f eb ea b a d
  | .sendv f eb ea b a => encSendv f eb ea b a
  | .reply f eb ea b n d => encReply f eb ea b n d
  | .bounce => encBounce
  | .done => encDone
  | .chmask f eb ea b a d => encChmask f eb ea b a d
  | .chprio f eb ea b a d => encChprio f eb ea b a d
  | .enq f eb b a d => encEnq f eb b a d
  | .launch f eb b a d => encLaunch f eb b a d
  | .gdone => encGdone
  | .fence s k => encFence s k
  | .dcfence a d => encDcfence a d
  | .pinit n a d => encPinit n a d
  | .parriveRlx a d => encParriveRlx a d
  | .parriveRel s a d => encParriveRel s a d
  | .pwait a d => encPwait a d
  | .pinval a d => encPinval a d
  | .boomset c s a d => encBoomset c s a d
  | .boomRlx s d => encBoomRlx s d
  | .boomRel s d => encBoomRel s d
  | .aadd eb b a d => encAadd eb b a d
  | .amin eb b a d => encAmin eb b a d
  | .amax eb b a d => encAmax eb b a d
  | .aminu eb b a d => encAminu eb b a d
  | .amaxu eb b a d => encAmaxu eb b a d
  | .aand eb b a d => encAand eb b a d
  | .aor eb b a d => encAor eb b a d
  | .axor eb b a d => encAxor eb b a d
  | .aswp eb b a d => encAswp eb b a d
  | .acas eb b a d => encAcas eb b a d
  | .afadd eb b a d => encAfadd eb b a d
  | .aredVAdd b a d => encAredVAdd b a d
  | .aredVMax b a d => encAredVMax b a d
  | .aredVMin b a d => encAredVMin b a d
  | .aredVFadd b a d => encAredVFadd b a d
  | .cpsetSrc l c => encCpsetSrc l c
  | .cpsetDst l c => encCpsetDst l c
  | .cpsetAux l c => encCpsetAux l c
  | .cpsetCtl x l => encCpsetCtl x l
  | .cpsetMlo x l => encCpsetMlo x l
  | .cpsetMhi x l => encCpsetMhi x l
  | .cpgo l d => encCpgo l d
  | .cpstat s l d => encCpstat s l d
  | .cpnote x l d => encCpnote x l d
  | .cpgath l d => encCpgath l d
  | .cpscat l d => encCpscat l d
  | .cpcast l d => encCpcast l d
  | .cpred l d => encCpred l d
  | .mlease n d => encMlease n d
  | .mrel => encMrel
  | .mcfg x => encMcfg x
  | .mma c b a t => encMma c b a t
  | .mmaZ c b a t => encMmaZ c b a t
  | .mad x c b a t => encMad x c b a t
  | .mcvt x c a t => encMcvt x c a t
  | .mzero c t => encMzero c t
  | .nalloc a d => encNalloc a d
  | .nfree x a => encNfree x a
  | .nlink x a d => encNlink x a d
  | .nload x w a d => encNload x w a d
  | .nstore x w a d => encNstore x w a d
  | .npush x a => encNpush x a
  | .nbagBind x a d => encNbagBind x a d
  | .sexp2 m a v => encSexp2 m a v
  | .slog2 m a v => encSlog2 m a v
  | .srcp m a v => encSrcp m a v
  | .srsqrt m a v => encSrsqrt m a v
  | .ssqrt m a v => encSsqrt m a v
  | .ssin m a v => encSsin m a v
  | .scos m a v => encScos m a v
  | .fadd f eb ea b a d => encFadd f eb ea b a d
  | .fsub f eb ea b a d => encFsub f eb ea b a d
  | .fmul f eb ea b a d => encFmul f eb ea b a d
  | .fmadd f eb ea b a d => encFmadd f eb ea b a d
  | .fmin f eb ea b a d => encFmin f eb ea b a d
  | .fmax f eb ea b a d => encFmax f eb ea b a d
  | .fcmpEq f eb ea b a d => encFcmpEq f eb ea b a d
  | .fcmpLt f eb ea b a d => encFcmpLt f eb ea b a d
  | .fcmpLe f eb ea b a d => encFcmpLe f eb ea b a d
  | .fcmpUn f eb ea b a d => encFcmpUn f eb ea b a d
  | .fcvtLF f ea a d => encFcvtLF f ea a d
  | .fcvtLuF f ea a d => encFcvtLuF f ea a d
  | .fcvtFL f ea a d => encFcvtFL f ea a d
  | .fcvtFLu f ea a d => encFcvtFLu f ea a d
  | .fsgnj f eb ea b a d => encFsgnj f eb ea b a d
  | .fsgnjn f eb ea b a d => encFsgnjn f eb ea b a d
  | .fsgnjx f eb ea b a d => encFsgnjx f eb ea b a d
  | .vadd m b a v w => encVadd m b a v w
  | .vsub m b a v w => encVsub m b a v w
  | .vadds m b a v w => encVadds m b a v w
  | .vaddus m b a v w => encVaddus m b a v w
  | .vsubs m b a v w => encVsubs m b a v w
  | .vsubus m b a v w => encVsubus m b a v w
  | .vmul m b a v w => encVmul m b a v w
  | .vmulh m b a v w => encVmulh m b a v w
  | .vmin m b a v w => encVmin m b a v w
  | .vmax m b a v w => encVmax m b a v w
  | .vminu m b a v w => encVminu m b a v w
  | .vmaxu m b a v w => encVmaxu m b a v w
  | .vsll m b a v w => encVsll m b a v w
  | .vsrl m b a v w => encVsrl m b a v w
  | .vsra m b a v w => encVsra m b a v w
  | .vmulhu b a v w => encVmulhu b a v w
  | .vavgu b a v w => encVavgu b a v w
  | .vabs a v w => encVabs a v w
  | .vand b a v w => encVand b a v w
  | .vor b a v w => encVor b a v w
  | .vxor b a v w => encVxor b a v w
  | .vandn b a v w => encVandn b a v w
  | .vfadd m b a v w => encVfadd m b a v w
  | .vfsub m b a v w => encVfsub m b a v w
  | .vfmul m b a v w => encVfmul m b a v w
  | .vfma m b a v w => encVfma m b a v w
  | .vfmin m b a v w => encVfmin m b a v w
  | .vfmax m b a v w => encVfmax m b a v w
  | .vfabs m a v w => encVfabs m a v w
  | .vfneg m a v w => encVfneg m a v w
  | .vcvt m b a v => encVcvt m b a v
  | .vmxsc f a d => encVmxsc f a d
  | .vshuf m b a v => encVshuf m b a v
  | .vzipLo w b a v => encVzipLo w b a v
  | .vzipHi w b a v => encVzipHi w b a v
  | .vunzipEv w b a v => encVunzipEv w b a v
  | .vunzipOd w b a v => encVunzipOd w b a v
  | .vbcast w k a v => encVbcast w k a v
  | .vextLo k b a v => encVextLo k b a v
  | .vextHi k b a v => encVextHi k b a v
  | .vsel s b a v => encVsel s b a v
  | .vredaddInt w m a d => encVredaddInt w m a d
  | .vredmaxInt w m a d => encVredmaxInt w m a d
  | .vredaddF32 m a d => encVredaddF32 m a d
  | .vredmaxF32 m a d => encVredmaxF32 m a d
  | .vredamax m b a d => encVredamax m b a d
  | .vdot4 m b a v => encVdot4 m b a v
  | .vdot2 m b a v => encVdot2 m b a v
  | .vcmpEq t b a d => encVcmpEq t b a d
  | .vcmpLt t b a d => encVcmpLt t b a d
  | .vcmpLe t b a d => encVcmpLe t b a d
  | .vcmpLtu t b a d => encVcmpLtu t b a d
  | .vcmpLeu t b a d => encVcmpLeu t b a d
  | .vfcmpUn t b a d => encVfcmpUn t b a d
  | .mand b a d => encMand b a d
  | .mor b a d => encMor b a d
  | .mxor b a d => encMxor b a d
  | .mandn b a d => encMandn b a d
  | .mnot a d => encMnot a d
  | .mmvMx a d => encMmvMx a d
  | .mmvXm a d => encMmvXm a d
  | .mpop a d => encMpop a d
  | .vmvXv w k a d => encVmvXv w k a d
  | .vmvVx m w a v => encVmvVx m w a v
  | .vli w i v => encVli w i v
  | .vmv m a v => encVmv m a v
  | .messageLeavesSendQueue _ _ => 0
  | .messageDelivery _ => 0
  | .taskStart _ => 0
  | .linkValueArrive _ _ _ => 0
  | .loadDelivery _ => 0
  | .clcDelivery _ => 0
  | .sfuRequestStart _ => 0
  | .sfuResultDelivery _ _ => 0
  | .atomicServe _ => 0
  | .atomicReplyDelivery _ => 0
  | .aredElementUpdate _ _ => 0
  | .aredAcknowledge _ => 0
  | .phaseOperationServe _ => 0
  | .phaseStatusDelivery _ => 0
  | .phaseProtectedWrite _ => 0
  | .enqueueServe _ => 0
  | .enqStatusDelivery _ => 0
  | .recordDequeue _ _ => 0
  | .inboxReservationGrant _ _ _ => 0
  | .leaseGrant _ => 0
  | .leaveRefusalTimeout _ => 0
  | .powerLeaveRelease _ => 0
  | .leaseIdleExpiry _ => 0
  | .matrixCommandStart _ => 0
  | .matrixCommandComplete _ => 0
  | .copyBegin _ => 0
  | .copyElementWrite _ _ => 0
  | .copyEnd _ _ => 0
  | .cpcastBerthDone _ _ _ => 0
  | .cpcastAckArrival _ _ => 0
  | .pfRespWrite _ _ => 0
  | .trCmdReplayAll _ => 0
  | .trCmdInvalidateAll _ => 0
  | .trCmdInvalidateRange _ => 0
  | .trCmdHarvest _ => 0
  | .trCmdComplete _ => 0
  | .trRootWrite _ _ => 0
  | .l2LimitWrite _ _ _ => 0
  | .l2SplitWrite _ _ _ => 0
  | .bandwidthPeriodStart => 0
  | .sweepStart _ => 0
  | .sweepRegisters _ => 0
  | .sweepLocalStores _ => 0
  | .sweepMemory _ => 0
  | .sweepEnd _ => 0
  | .dredgerRegisterWrite _ _ _ => 0
  | .irqInject _ => 0
  | .hmDoorWrite _ _ _ => 0
  | .launchRequestServe _ => 0
  | .launchStatusDelivery _ => 0
  | .groupPlacement _ _ => 0
  | .placementWaitReservation _ _ => 0
  | .launchLeaveRetry _ => 0
  | .groupRetirement _ _ => 0
  | .launchDeadlineExpiry _ => 0
  | .preemption _ => 0
  | .coreResumption _ => 0
  | .sliceBegin => 0
  | .sliceEnd => 0
  | .berthSliceEnd _ => 0
  | .drainDeadlineExpiry _ => 0
  | .launchSuspend _ => 0
  | .tretCommandServe _ => 0
  | .tdropCommandServe _ => 0
  | .tretStatusDelivery _ => 0
  | .followWindowClose _ _ => 0
  | .boomTokenPass _ _ _ => 0
  | .boomRelease _ _ => 0
  | .netHomeRequest _ => 0
  | .netReplyDelivery _ => 0
  | .pairOverflowPlace _ => 0
  | .pairPop _ => 0
  | .bagRefill _ _ => 0
  | .dbgHaltWrite _ => 0
  | .dbgResumeWrite _ => 0
  | .dbgAccess _ _ => 0
  | .crossTriggerHalt _ => 0
  | .thermalTrip _ => 0
  | .pwBerthTransition _ => 0
  | .pwSliceTransition _ => 0
  | .pwChannelTransition _ => 0
  | .pwTransitionDone => 0
  | .icInvalidateBerth _ => 0
  | .icInvalidateQuay _ => 0
  | .icInvalidatePackage _ => 0
  | .icInvalidateDone => 0
  | .quayFenceCommand _ => 0
  | .quayFenceFault _ _ => 0
  | .quayPortsClosed _ => 0
  | .quayResetCommand _ => 0
  | .selfTestPass _ => 0
  | .selfTestFail _ => 0
  | .qlEnable _ => 0
  | .qlDisable _ => 0
  | .qlLanesLocked _ _ => 0
  | .qlTrainTimeout _ => 0
  | .qlFlitCrcReplay _ => 0
  | .qlLinkFailure _ => 0
  | .pcieFlr _ => 0
  | .pmFlrWrite _ => 0
  | .inboundDeviceWrite _ _ _ => 0
  | .powerOnReset _ => 0
  | .recoveryImageLoad _ => 0
  | .correctableError _ => 0
  | .uncorrectableError _ => 0
  | .checkpointPeriodExpiry _ => 0
  | .logFullCheckpoint _ => 0
  | .checkpointComplete _ => 0
  | .replayStart _ _ => 0
  | .replayLogsExhausted _ => 0
  | .counterLowRead _ _ _ => 0
  | .counterHighRead _ _ _ => 0
  | .tpDropRead _ => 0
  | .tpLostRead _ => 0
  | .ntErrRead _ => 0
  | .pfStaleRead _ => 0
  | .dbgStatRead _ => 0
  | .registerWrite _ _ _ => 0
  | .illegalEncoding _ _ word => word
  | .quaylinePartnerAccess _ _ => 0
  | .partitionReset _ => 0
  | .applicationCoreAccess _ _ => 0
  | .l1WriteBack _ _ => 0
  | .sublistServe _ _ _ => 0
  | .cpcastLeaveRefused _ _ => 0
  | .haltedSliceEndOverrun _ => 0
  | .traceBufferWrite _ => 0
  | .residentServiceInstall _ => 0
  | .codeObjectLoad _ _ _ => 0

/-- R63: whether an instruction is a 16-bit one. -/
def Instr.short : Instr → Bool
  | .cNop ..
  | .cMv ..
  | .cLi ..
  | .cAddi ..
  | .cAdd ..
  | .cSub ..
  | .cAnd ..
  | .cOr ..
  | .cSlli ..
  | .cSrli ..
  | .cBeqz ..
  | .cBnez ..
  | .cJ ..
  | .cRet ..
  | .cDone .. => true
  | .illegalEncoding s _ _ => s
  | _ => false

/-- R59: how many bytes an instruction occupies. -/
def Instr.length (i : Instr) : Nat := if i.short then 2 else 4

/-- R2, R59: four bytes at rising addresses as one value. -/
def wordOfBytes (b0 b1 b2 b3 : Byte) : BitVec 32 := b3 ++ b2 ++ b1 ++ b0

/-- R59: decodes the bytes at the start of a list: a 16-bit instruction needs two of them, a 32-bit one four. -/
noncomputable def decodeBytes : List Byte → Option (Except Reject Instr)
  | b0 :: b1 :: rest =>
    if b0.getLsbD 0 then
      match rest with
      | b2 :: b3 :: _ => some (decode (wordOfBytes b0 b1 b2 b3))
      | _ => none
    else some (decode (wordOfBytes b0 b1 0 0))
  | _ => none

/-- The instruction the decoder reads from a word numbered as the opcode table numbers it. -/
noncomputable def decodeTableWord (_nbits w : Nat) : Option Instr :=
  let v := BitVec.ofNat 32 w
  match decodeBytes [v.extractLsb' 0 8, v.extractLsb' 8 8, v.extractLsb' 16 8, v.extractLsb' 24 8] with
  | some (.ok i) => some i
  | _ => none

end Sys2Proof
end

