-- ==== Sys2Proof/Machine/Bits.lean ====
section
/-!
DEFINITION. Bit fields, byte order and small arithmetic that every part of the machine shares (R2, R3, R7).
-/
namespace Sys2Proof.Machine

open Sys2Proof

/-- R7: bits `[lo + n - 1 : lo]` of a number. -/
def bitsAt (v lo n : Nat) : Nat := v / 2 ^ lo % 2 ^ n

/-- R7: bit `i` of a number. -/
def bitAt (v i : Nat) : Bool := v / 2 ^ i % 2 == 1

/-- R7: SignExtend of the low `n` bits of a number to an integer. -/
def signedNat (v n : Nat) : Int :=
  let w := v % 2 ^ n
  if 2 * w < 2 ^ n then (w : Int) else (w : Int) - (2 ^ n : Nat)

/-- The low `n` bits of an integer in two's complement. -/
def wrapInt (i : Int) (n : Nat) : Nat := (i % ((2 ^ n : Nat) : Int)).toNat

/-- A field of a double. -/
def fieldOf (x : Dbl) (lo n : Nat) : Nat := bitsAt x.toNat lo n

/-- A double with the field at `lo`, `n` bits wide, replaced. -/
def setField (x : Dbl) (lo n v : Nat) : Dbl :=
  BitVec.ofNat 64 (x.toNat - bitsAt x.toNat lo n * 2 ^ lo + v % 2 ^ n * 2 ^ lo)

/-- 1 for true, 0 for false. -/
def boolBit (b : Bool) : Nat := if b then 1 else 0

/-- 1 or 0 as a double. -/
def boolDbl (b : Bool) : Dbl := if b then 1 else 0

/-- R2: the `n` bytes of a number, lowest first. -/
def bytesOf : Nat → Nat → List Byte
  | 0, _ => []
  | n + 1, v => BitVec.ofNat 8 v :: bytesOf n (v / 256)

/-- R2: the number that bytes hold, the first being bits 7 to 0. -/
def natOfBytes : List Byte → Nat
  | [] => 0
  | b :: r => b.toNat + 256 * natOfBytes r

/-- How many of the low `n` bits of a number are 1. -/
def popCount : Nat → Nat → Nat
  | 0, _ => 0
  | n + 1, v => v % 2 + popCount n (v / 2)

/-- The number of zero bits below the lowest 1 among the low `n` bits; `n` when there is none. -/
def trailingZeros : Nat → Nat → Nat
  | 0, _ => 0
  | n + 1, v => if v % 2 = 1 then 0 else 1 + trailingZeros n (v / 2)

/-- The number of bits up to and including the highest 1 (0 for 0). -/
def bitLength (v : Nat) : Nat := if v = 0 then 0 else Nat.log2 v + 1

/-- Rounding a quotient up. -/
def ceilDiv (a b : Nat) : Nat := (a + b - 1) / b

/-- R131, R146: elements of `e` bits packed from bit 0 upward. -/
def elemOf (v e j : Nat) : Nat := bitsAt v (e * j) e

/-- Packs elements of `e` bits, element 0 lowest. -/
def packElems (e : Nat) : List Nat → Nat
  | [] => 0
  | x :: r => x % 2 ^ e + 2 ^ e * packElems e r

/-- The elements 0 to `n - 1` of `e` bits. -/
def unpackElems (e n v : Nat) : List Nat := (List.range n).map (elemOf v e)

end Sys2Proof.Machine
end

