-- ==== Sys2Proof/Machine/Float.lean ====
section
/-!
DEFINITION. The number formats (R139 to R152) and rounding (R154 to R158). A number is held exactly: a magnitude m·2^e, with
`tail` when its true value lies strictly between m·2^e and (m + 1)·2^e (only a special function produces such a number).
-/
namespace Sys2Proof.Machine

open Sys2Proof

/-- R140: what DecodeElem returns. NaR is a NaN. -/
inductive FpNum where
  | nan
  | inf (neg : Bool)
  | zero (neg : Bool)
  | fin (neg : Bool) (m : Nat) (e : Int) (tail : Bool)
  deriving DecidableEq, Repr

-- Flags of `kfflags` (R56, R157).
def fNV : BitVec 5 := 16
def fDZ : BitVec 5 := 8
def fOF : BitVec 5 := 4
def fUF : BitVec 5 := 2
def fNX : BitVec 5 := 1

/-- R155: the hash of stochastic rounding. -/
def srHash (seed j : Nat) : Nat :=
  let x := (seed ^^^ (j * 0x9E3779B9 % 2 ^ 32)) % 2 ^ 32
  let x := x ^^^ (x / 2 ^ 16)
  let x := x * 0x7FEB352D % 2 ^ 32
  let x := x ^^^ (x / 2 ^ 15)
  let x := x * 0x846CA68B % 2 ^ 32
  x ^^^ (x / 2 ^ 16)

/-- How an operation rounds: `kround.mode`, and the hash of the result under SR. -/
structure Rounding where
  mode : Nat
  hash : Nat
  deriving DecidableEq, Repr

/-- A binary floating-point format: exponent and fraction bits, bias, largest finite magnitude as a code without sign, whether
it has infinities, whether a finite value can overflow to one (R154), and its default NaN if it has one. -/
structure FloatFmt where
  ebits : Nat
  fbits : Nat
  bias : Nat
  maxCode : Nat
  hasInf : Bool
  overInf : Bool
  nan : Option Nat
  deriving DecidableEq, Repr

/-- R142, R143, R145: the binary formats by code. F19 is held without its 13 zero bits. -/
def floatFmt (f : Nat) : Option FloatFmt :=
  match f with
  | 0x08 => some ⟨8, 23, 127, 0x7F7FFFFF, true, true, some 0x7FC00000⟩
  | 0x09 => some ⟨8, 7, 127, 0x7F7F, true, true, some 0x7FC0⟩
  | 0x0A => some ⟨5, 10, 15, 0x7BFF, true, true, some 0x7E00⟩
  | 0x0B => some ⟨8, 10, 127, 0x3FBFF, true, true, some 0x3FE00⟩
  | 0x0C => some ⟨4, 3, 7, 0x7E, false, false, some 0x7F⟩
  | 0x0D => some ⟨5, 2, 15, 0x7B, true, false, some 0x7E⟩
  | 0x0E => some ⟨3, 2, 3, 0x1F, false, false, none⟩
  | 0x0F => some ⟨2, 3, 1, 0x1F, false, false, none⟩
  | 0x10 => some ⟨2, 1, 1, 0x7, false, false, none⟩
  | _ => none

/-- The magnitude of a finite code without sign, as m·2^e. -/
def floatMag (f : FloatFmt) (code : Nat) : Nat × Int :=
  let ex := code / 2 ^ f.fbits
  let fr := code % 2 ^ f.fbits
  if ex = 0 then (fr, 1 - (f.bias : Int) - f.fbits) else (2 ^ f.fbits + fr, (ex : Int) - f.bias - f.fbits)

/-- R142, R145: decodes a code of a binary format. -/
def decodeFloat (f : FloatFmt) (code : Nat) : FpNum :=
  let neg := bitAt code (f.ebits + f.fbits)
  let c := code % 2 ^ (f.ebits + f.fbits)
  if f.maxCode < c then
    if f.hasInf && c == f.maxCode + 1 then .inf neg else .nan
  else
    let (m, e) := floatMag f c
    if m = 0 then .zero neg else .fin neg m e false

/-- How many leading bits of the low `n` bits of a number equal `b`, from the top. -/
def leadRun (v : Nat) (b : Bool) : Nat → Nat
  | 0 => 0
  | n + 1 => if bitAt v n == b then 1 + leadRun v b n else 0

/-- R146: the magnitude of an Ochre code of `n` bits from its body, as m·2^e. -/
def ochreMag (n body : Nat) : Nat × Int :=
  let b := bitAt body (n - 2)
  let m := leadRun body b (n - 1)
  let k : Int := if b then (m : Int) - 1 else -(m : Int)
  let rest := if m = n - 1 then 0 else n - 2 - m
  if rest = 0 then (1, 2 * k)
  else
    let ex := bitAt body (rest - 1)
    let fb := rest - 1
    (2 ^ fb + body % 2 ^ fb, 2 * k + boolBit ex - fb)

/-- R146: decodes an Ochre code of `n` bits. -/
def decodeOchre (n code : Nat) : FpNum :=
  let c := code % 2 ^ n
  let body := c % 2 ^ (n - 1)
  if c = 0 then .zero false
  else if body = 0 then .nan
  else
    let (m, e) := ochreMag n body
    .fin (bitAt c (n - 1)) m e false

/-- An integer as a number. -/
def numInt (i : Int) : FpNum := if i = 0 then .zero false else .fin (i < 0) i.natAbs 0 false

/-- R141: the signed integer formats' widths. -/
def intBits (f : Nat) : Option Nat :=
  match f with
  | 0x01 => some 8
  | 0x03 => some 16
  | 0x05 => some 32
  | 0x07 => some 64
  | 0x11 => some 4
  | _ => none

/-- R141: the unsigned integer formats' widths. -/
def natBits (f : Nat) : Option Nat :=
  match f with
  | 0x02 => some 8
  | 0x04 => some 16
  | 0x06 => some 32
  | 0x12 => some 4
  | _ => none

/-- R146: the Ochre formats' widths. -/
def ochreBits (f : Nat) : Option Nat :=
  match f with
  | 0x14 => some 8
  | 0x15 => some 6
  | _ => none

/-- R150, R151, R191: the element format of a scaled format; every other format maps to itself. -/
def elemFmt (f : Nat) : Nat :=
  match f with
  | 0x16 => 0x0C
  | 0x17 => 0x0D
  | 0x18 => 0x0E
  | 0x19 => 0x0F
  | 0x1A => 0x10
  | 0x1B => 0x01
  | 0x1C => 0x01
  | 0x1D => 0x11
  | 0x1E => 0x14
  | 0x1F => 0x15
  | 0x20 => 0x14
  | 0x21 => 0x15
  | n => n

/-- R149: E8M0. -/
def decodeE8M0 (x : Nat) : FpNum := if x % 256 = 255 then .nan else .fin false 1 ((x % 256 : Nat) - 127 : Int) false

/-- R140: DecodeElem. A scaled format gives its element's value without the scale. -/
def decodeElem (fmt bits : Nat) : FpNum :=
  let f := elemFmt fmt
  match floatFmt f with
  | some g => if f = 0x0B then decodeFloat g (bits / 2 ^ 13) else decodeFloat g bits
  | none =>
    match ochreBits f with
    | some n => decodeOchre n bits
    | none =>
      match intBits f with
      | some n => numInt (signedNat bits n)
      | none =>
        match natBits f with
        | some n => numInt ((bits % 2 ^ n : Nat) : Int)
        | none =>
          if f = 0x13 then (match bits % 4 with
            | 1 => numInt 1
            | 3 => numInt (-1)
            | _ => .zero false)
          else if f = 0x32 then decodeE8M0 bits
          else .nan

/-! ### Exact arithmetic -/

def negNum : FpNum → FpNum
  | .nan => .nan
  | .inf n => .inf (!n)
  | .zero n => .zero (!n)
  | .fin n m e t => .fin (!n) m e t

def isNeg : FpNum → Bool
  | .nan => false
  | .inf n => n
  | .zero n => n
  | .fin n _ _ _ => n

def isNan : FpNum → Bool
  | .nan => true
  | _ => false

/-- A number times a power of two. -/
def scaleNum (k : Int) : FpNum → FpNum
  | .fin n m e t => .fin n m (e + k) t
  | x => x

/-- m·2^e as an integer over 2^lo, for lo ≤ e. -/
def atExp (m : Nat) (e lo : Int) : Nat := m * 2 ^ (e - lo).toNat

/-- The sign of an exact zero sum of operands of opposite sign (R167). -/
def zeroSum (mode : Nat) : FpNum := .zero (mode == 3)

/-- R167: an exact sum; the flag says that infinities of opposite sign met. -/
def addNum (mode : Nat) (a b : FpNum) : FpNum × Bool :=
  match a, b with
  | .nan, _ => (.nan, false)
  | _, .nan => (.nan, false)
  | .inf n, .inf k => if n = k then (.inf n, false) else (.nan, true)
  | .inf n, _ => (.inf n, false)
  | _, .inf n => (.inf n, false)
  | .zero n, .zero k => if n = k then (.zero n, false) else (zeroSum mode, false)
  | .zero _, x => (x, false)
  | x, .zero _ => (x, false)
  | .fin n m e _, .fin k p g _ =>
    let lo := min e g
    let x : Int := if n then -(atExp m e lo : Int) else atExp m e lo
    let y : Int := if k then -(atExp p g lo : Int) else atExp p g lo
    if x + y = 0 then (zeroSum mode, false) else (.fin (x + y < 0) (x + y).natAbs lo false, false)

/-- R167: an exact product; the flag says that zero met infinity. -/
def mulNum (a b : FpNum) : FpNum × Bool :=
  match a, b with
  | .nan, _ => (.nan, false)
  | _, .nan => (.nan, false)
  | .inf _, .zero _ => (.nan, true)
  | .zero _, .inf _ => (.nan, true)
  | .inf n, x => (.inf (n != isNeg x), false)
  | x, .inf n => (.inf (n != isNeg x), false)
  | .zero n, x => (.zero (n != isNeg x), false)
  | x, .zero n => (.zero (n != isNeg x), false)
  | .fin n m e _, .fin k p g _ => (.fin (n != k) (m * p) (e + g) false, false)

/-- Compares two numbers that are not NaN; −0 and +0 are equal. -/
def cmpNum (a b : FpNum) : Ordering :=
  let key : FpNum → Int × Nat × Int := fun x =>
    match x with
    | .nan => (0, 0, 0)
    | .inf n => (if n then -2 else 2, 0, 0)
    | .zero _ => (0, 0, 0)
    | .fin n m e _ => (if n then -1 else 1, m, e)
  let x := key a
  let y := key b
  if x.1 ≠ y.1 then compare x.1 y.1
  else
    let lo := min x.2.2 y.2.2
    let c := compare (atExp x.2.1 x.2.2 lo) (atExp y.2.1 y.2.2 lo)
    if x.1 = -1 then c.swap else c

/-! ### Rounding -/

/-- ⌊log2⌋ of m·2^e, for m > 0. -/
def floorLog (m : Nat) (e : Int) : Int := e + Nat.log2 m

/-- Whether a magnitude n + frac, with frac = (rem + tail)/2^s of one unit, rounds up to n + 1 (R154, R155). -/
def roundsUp (r : Rounding) (neg : Bool) (n rem s : Nat) (tail : Bool) : Bool :=
  if rem = 0 ∧ tail = false then false
  else
    match r.mode with
    | 0 => decide (2 ^ s < 2 * rem) || (2 * rem == 2 ^ s && (tail || n % 2 == 1))
    | 1 => false
    | 2 => !neg
    | 3 => neg
    | _ =>
      if neg then !(decide (r.hash * 2 ^ s + rem * 2 ^ 32 < 2 ^ s * 2 ^ 32))
      else decide (r.hash * 2 ^ s < rem * 2 ^ 32) || (r.hash * 2 ^ s == rem * 2 ^ 32 && tail)

/-- Rounds a magnitude to a multiple of 2^q: the multiple, and whether it is inexact (DEDUCED: log entry 25). -/
def roundAt (r : Rounding) (neg : Bool) (m : Nat) (e q : Int) (tail : Bool) : Nat × Bool :=
  if q ≤ e then
    let n := atExp m e q
    (if roundsUp r neg n 0 0 tail then n + 1 else n, tail)
  else
    let s := (q - e).toNat
    let n := m / 2 ^ s
    let rem := m % 2 ^ s
    (if roundsUp r neg n rem s tail then n + 1 else n, rem != 0 || tail)

/-- Whether n·2^q exceeds m·2^e (DEDUCED: log entry 25). -/
def exceeds (n : Nat) (q : Int) (m : Nat) (e : Int) : Bool :=
  let lo := min q e
  decide (atExp m e lo < atExp n q lo)

/-- The code without sign of n·2^q in a format in which it is representable. -/
def floatCode (f : FloatFmt) (n : Nat) (q : Int) : Nat :=
  if n = 0 then 0
  else
    let qmin : Int := 1 - (f.bias : Int) - f.fbits
    let lg := floorLog n q
    if lg < 1 - (f.bias : Int) then atExp n q qmin
    else
      let d := lg - f.fbits
      let k := if d ≤ q then atExp n q d else n / 2 ^ (d - q).toNat
      ((lg + f.bias).toNat) * 2 ^ f.fbits + (k - 2 ^ f.fbits)

/-- R154, R157: EncodeElem into a binary format (DEDUCED: log entry 25). -/
def encodeFloat (f : FloatFmt) (r : Rounding) (v : FpNum) : Nat × BitVec 5 :=
  let sgn := fun (neg : Bool) => boolBit neg * 2 ^ (f.ebits + f.fbits)
  match v with
  | .nan =>
    match f.nan with
    | some c => (c, 0)
    | none => (0, fNV)
  | .inf neg => if f.hasInf then (sgn neg + f.maxCode + 1, 0) else (sgn neg + f.maxCode, fNV ||| fNX)
  | .zero neg => (sgn neg, 0)
  | .fin neg m e tail =>
    let qmin : Int := 1 - (f.bias : Int) - f.fbits
    let lg := floorLog m e
    let qn := lg - f.fbits
    let (n, inexact) := roundAt r neg m e (max qmin qn) tail
    let q := max qmin qn
    let (mx, ex) := floatMag f f.maxCode
    let tooBig := exceeds n q mx ex || (r.mode == 4 && (exceeds m e mx ex || (tail && !exceeds mx ex m e)))
    if tooBig then
      let toInf := f.overInf && (match r.mode with
        | 0 => true
        | 2 => !neg
        | 3 => neg
        | _ => false)
      (sgn neg + f.maxCode + boolBit toInf, fOF ||| fNX)
    else
      let (u, _) := roundAt r neg m e qn tail
      let small := exceeds 1 (1 - (f.bias : Int)) u qn
      (sgn neg + floatCode f n q, if inexact then (if small then fUF ||| fNX else fNX) else 0)

/-- R154: the largest positive Ochre code whose value does not exceed m·2^e; `fuel` counts the codes left. -/
def ochreBelow (n m : Nat) (e : Int) : Nat → Nat
  | 0 => 0
  | c + 1 =>
    let (p, g) := ochreMag n (c + 1)
    if exceeds p g m e then ochreBelow n m e c else c + 1

/-- R154, R157: EncodeElem into an Ochre format of `n` bits. -/
def encodeOchre (n : Nat) (r : Rounding) (v : FpNum) : Nat × BitVec 5 :=
  let top := 2 ^ (n - 1) - 1
  let sgn := fun (neg : Bool) => boolBit neg * 2 ^ (n - 1)
  match v with
  | .nan => (2 ^ (n - 1), 0)
  | .inf _ => (2 ^ (n - 1), fNV ||| fNX)
  | .zero _ => (0, 0)
  | .fin neg m e _ =>
    let lo := ochreBelow n m e top
    if lo = 0 then (sgn neg + 1, fUF ||| fNX)
    else
      let (pl, gl) := ochreMag n lo
      if exceeds m e pl gl = false then (sgn neg + lo, 0)
      else if lo = top then (sgn neg + top, fOF ||| fNX)
      else
        let (ph, gh) := ochreMag n (lo + 1)
        let b := min e (min gl gh)
        let x := atExp m e b
        let l := atExp pl gl b
        let h := atExp ph gh b
        let up := match r.mode with
          | 0 => decide (l + h < 2 * x) || (2 * x == l + h && lo % 2 == 1)
          | 1 => false
          | 2 => !neg
          | 3 => neg
          | _ => if neg then !(decide (r.hash * (h - l) < (h - x) * 2 ^ 32)) else decide (r.hash * (h - l) < (x - l) * 2 ^ 32)
        (sgn neg + (if up then lo + 1 else lo), fNX)

/-- R154, R155, R157: rounds to an integer and saturates to a range; answers the integer. A stochastic choice is made only inside the
range (DEDUCED: log entry 25). -/
def encodeRange (lo hi : Int) (r : Rounding) (v : FpNum) : Int × BitVec 5 :=
  match v with
  | .nan => (0, fNV)
  | .inf neg => (if neg then lo else hi, fNV ||| fNX)
  | .zero _ => (0, 0)
  | .fin neg m e tail =>
    let (n, inexact) := roundAt r neg m e 0 tail
    let i : Int := if neg then -(n : Int) else n
    let bound := (if neg then lo else hi).natAbs
    let outside := exceeds m e bound 0 || (tail && !exceeds bound 0 m e)
    if r.mode == 4 && outside then (if neg then lo else hi, fNV ||| fNX)
    else if i < lo then (lo, fNV ||| fNX)
    else if hi < i then (hi, fNV ||| fNX)
    else (i, if inexact then fNX else 0)

/-- R154: EncodeElem. A scaled format is encoded as its element format. -/
def encodeElem (fmt : Nat) (r : Rounding) (v : FpNum) : Nat × BitVec 5 :=
  let f := elemFmt fmt
  match floatFmt f with
  | some g =>
    let (c, fl) := encodeFloat g r v
    (if f = 0x0B then c * 2 ^ 13 else c, fl)
  | none =>
    match ochreBits f with
    | some n => encodeOchre n r v
    | none =>
      match intBits f with
      | some n =>
        let (i, fl) := encodeRange (-(2 ^ (n - 1) : Nat)) ((2 ^ (n - 1) : Nat) - 1) r v
        (wrapInt i n, fl)
      | none =>
        match natBits f with
        | some n =>
          let (i, fl) := encodeRange 0 ((2 ^ n : Nat) - 1) r v
          (wrapInt i n, fl)
        | none =>
          let (i, fl) := encodeRange (-1) 1 r v
          (wrapInt i 2, fl)

/-- FP32 both ways. -/
def decF32 (w : Nat) : FpNum := decodeElem 0x08 (w % 2 ^ 32)
def encF32 (r : Rounding) (v : FpNum) : Nat × BitVec 5 := encodeElem 0x08 r v

/-- R152, R192: the emax that MXScale subtracts. -/
def scaleEmax (f : Nat) : Int :=
  match f with
  | 0x16 => 8
  | 0x17 => 15
  | 0x18 => 4
  | 0x19 => 2
  | 0x1A => 2
  | 0x1C => 6
  | 0x1D => 2
  | _ => 0

/-- R152: MXScale of a group whose largest magnitude is given. -/
def mxScale (f : Nat) (amax : FpNum) : Nat :=
  match amax with
  | .nan => 0xFF
  | .inf _ => 0xFF
  | .zero _ => 0x7F
  | .fin _ m e _ => ((min 127 (max (-127) (floorLog m e - scaleEmax f))) + 127).toNat

end Sys2Proof.Machine
end

