-- ==== Sys2Proof/Machine/Sparse.lean ====
section
/-!
DEFINITION. Tables by number and memory as sorted cells. A table keeps its keys strictly rising; memory lists no byte that
is zero, which is what an unlisted byte reads as (R318; for external memory log entry 3).
-/
namespace Sys2Proof.Machine

open Sys2Proof

/-- The entry under a key, if one is listed. -/
def tabFind? {α : Type} : Tab α → Nat → Option α
  | [], _ => none
  | (k, v) :: r, n => if k = n then some v else tabFind? r n

/-- The entry under a key, or the default. -/
def tabGet {α : Type} (d : α) (t : Tab α) (k : Nat) : α := (tabFind? t k).getD d

/-- A table with one entry written. -/
def tabPut {α : Type} : Tab α → Nat → α → Tab α
  | [], n, x => [(n, x)]
  | (k, v) :: r, n, x =>
    if n < k then (n, x) :: (k, v) :: r
    else if k = n then (n, x) :: r
    else (k, v) :: tabPut r n x

/-- A table without the entry under a key. -/
def tabErase {α : Type} (t : Tab α) (k : Nat) : Tab α := t.filter fun e => e.1 != k

/-- The byte at an address; an unlisted one is zero (DESIGN CHOICE: log entry 3). -/
def memByte : List Host.Cell → Nat → Byte
  | [], _ => 0
  | (k, v) :: r, a => if k = a then v else if a < k then 0 else memByte r a

/-- The cells of bytes laid out from an address, zero bytes left out. -/
def cellsFrom : Nat → List Byte → List Host.Cell
  | _, [] => []
  | a, b :: r => if b = 0 then cellsFrom (a + 1) r else (a, b) :: cellsFrom (a + 1) r

/-- Memory with bytes written at rising addresses. -/
def memWrite (m : List Host.Cell) (a : Nat) (bs : List Byte) : List Host.Cell :=
  m.filter (fun c => c.1 < a) ++ cellsFrom a bs ++ m.filter (fun c => a + bs.length ≤ c.1)

/-- The bytes at `n` rising addresses. -/
def memRead (m : List Host.Cell) (a n : Nat) : List Byte :=
  let w := m.filter fun c => a ≤ c.1 && c.1 < a + n
  (List.range n).map fun i => memByte w (a + i)

/-- The canonical form: addresses strictly rising and no listed byte zero. -/
def Memory.wf : List Host.Cell → Bool
  | [] => true
  | [c] => c.2 != 0
  | c :: d :: r => c.2 != 0 && c.1 < d.1 && Memory.wf (d :: r)

/-- A strictly rising list of numbers with one more. -/
def setInsert : List Nat → Nat → List Nat
  | [], n => [n]
  | k :: r, n => if n < k then n :: k :: r else if k = n then k :: r else k :: setInsert r n

/-- A set of numbers without those of a range. -/
def setClearRange (t : List Nat) (lo n : Nat) : List Nat := t.filter fun k => !(lo ≤ k && k < lo + n)

/-- Replaces position `i` of a list. -/
def listSet {α : Type} : List α → Nat → α → List α
  | [], _, _ => []
  | _ :: r, 0, x => x :: r
  | y :: r, i + 1, x => y :: listSet r i x

/-- Changes the first element that satisfies a test. -/
def replaceFirst {α : Type} (p : α → Bool) (f : α → α) : List α → List α
  | [] => []
  | x :: r => if p x then f x :: r else x :: replaceFirst p f r

/-- A list without its element at a position. -/
def removeAt {α : Type} : List α → Nat → List α
  | [], _ => []
  | _ :: r, 0 => r
  | x :: r, i + 1 => x :: removeAt r i

end Sys2Proof.Machine
end

