-- ==== Sys2Proof/Machine/State.lean ====
section
/-!
DEFINITION. The state of a Syrek package as plain data, its reset, and the reasons a step can stop.
A table (Tab) lists by number what differs from its default; an unlisted core, berth, slice, partition or register
reads as the default value its reader gives (the reset value).
-/
namespace Sys2Proof.Machine

open Sys2Proof

/-- Why a step stops with a fault: nothing does. The spec gives every instruction and step of the package an effect, so this
type has no value and no step of the model ends in a fault. -/
inductive Fault where
  deriving DecidableEq, Repr

/-- Why a step refuses an instruction. -/
inductive Refusal where
  /-- Raised by an arm of exec whose meaning is not written yet. Safe: the model stops. -/
  | notModelled (mnemonic : String)
  deriving DecidableEq, Repr

/-- Where a result goes (R54). -/
inductive Dest where
  | none
  | x (n : Nat)
  | v (phys : Nat)
  | c (n : Nat)
  | port (dir : Nat) (vec : Bool)
  deriving DecidableEq, Repr

/-- R48, R279, R361: the full/empty state of a register; an error state keeps the detail word its first reader reports. -/
inductive RegState where
  | full
  | empty
  | error (detail : Dbl)
  | lost (detail : Dbl)
  deriving DecidableEq, Repr

/-- R251: what kind of message started a task. -/
inductive MsgKind where
  | sent | start | pair | copyDone | matrixDone | trap | bounced | other
  /-- R389: a task record on its way; the core that has kept an inbox entry for it, until it arrives. -/
  | record (entry : Option Nat)
  /-- R45: the entry of a send queue that a request to an owner takes; it leaves the queue as that request. -/
  | request (id : Nat)
  deriving DecidableEq, Repr

/-- R246, R393: the agent from whose router a message leaves; with the destination, network and class it fixes order. -/
inductive Origin where
  | core (k : Nat) | slice (s : Nat) | atomicUnit (k : Nat) | lighter (b : Nat) | array (b : Nat)
  | harbour (q : Nat) | boom (k : Nat) | berth (b : Nat)
  deriving DecidableEq, Repr

/-- R41, R306: the group that occupies a core: launch id, the number of the launch's acceptance, sweep index, stage, member,
placement generation. -/
structure Place where
  launch : Nat
  seq : Nat
  idx : Nat
  stage : Nat
  member : Nat
  gen : Nat
  deriving DecidableEq, Repr

/-- R24: a message with what the hardware knows of it: partition, kind, origin, the sending core, the net launch a pair message
counts for, and the group relative to which a logical destination is resolved (R25). `words` holds payload words 1 to n, without words 4 to 7
when the header's capword is 1. -/
structure Flight where
  header : Dbl
  words : List Dbl
  cap : Cap
  part : Nat
  kind : MsgKind
  origin : Origin
  sender : Nat
  net : Option Nat
  place : Option Place
  /-- R255: the harbourmaster has released it from a pending table. -/
  early : Bool
  /-- R364: its number among the messages of its src to its dst. -/
  num : Nat
  /-- R393: when it entered the mesh, in the numbering of what owners send. -/
  left : Nat
  deriving DecidableEq, Repr

/-- R29: a channel binding (present means bound). -/
structure Binding where
  entry : Cap
  epc : BitVec 48
  root : Cap
  concurrent : Bool
  launch : Nat
  rewrite : Bool
  part : Nat
  deriving DecidableEq, Repr

/-- R99: a return frame. -/
structure Frame where
  pcc : Cap
  rpc : Dbl
  root : Cap
  ret : Cap
  nonce : BitVec 32
  deriving DecidableEq, Repr

/-- R259: the shadow registers of one lighter channel. -/
structure Shadow where
  src : Cap
  dst : Cap
  aux : Cap
  ctl : Dbl
  mlo : Dbl
  mhi : Dbl
  deriving DecidableEq, Repr

/-- R259: the values at task start. -/
def Shadow.null : Shadow := ⟨Cap.null, Cap.null, Cap.null, 0, 0, 0⟩

/-- R257, R258, R271 to R273: a context's transfer numbering on one lighter channel. -/
structure Xfer where
  next : BitVec 16
  count : BitVec 16
  frec : Option (Dbl × Dbl)
  notes : List Dbl
  /-- The class of each copy that has completed, by id, for the late message of R272. -/
  classes : Tab Nat
  deriving DecidableEq, Repr

/-- R257: the numbering after the core's reset. -/
def Xfer.reset : Xfer := ⟨1, 0, none, [], []⟩

/-- R194, R347: an SFU request with what it captured; dst is the physical vector register, or 28 to 31 for a link port, whose
reserved entry `port` names. -/
structure SfuReq where
  core : Nat
  ctx : Nat
  fn : BitVec 4
  dst : Nat
  va : Quad
  vd : Quad
  mask : BitVec 16
  mode : BitVec 3
  seed : BitVec 32
  port : Nat
  /-- R35: the task that made it. -/
  epoch : Nat
  deriving DecidableEq, Repr

/-- R123, R126: where a faulting agent is parked: on a fault-buffer entry or on the partition's drop list; `answered` is an
agent of a saved berth whose entry was answered meanwhile. -/
inductive ParkPlace where
  | entry (i : Nat)
  | drop
  | answered (deny : Bool)
  deriving DecidableEq, Repr

/-- R294, R346, R123, R328: what a task context does. -/
inductive CtxMode where
  | free
  | running
  /-- R346 steps 1 and 2: the trap is decided and earlier producers are still to deliver; `next` says rpc is the next
  instruction (R354). -/
  | trapping (cause : BitVec 8) (detail : Dbl) (next : Bool)
  | trapped
  | parked (place : ParkPlace)
  /-- R328, R281: the instruction waits for the replies of request `req`. -/
  | waiting (req : Nat)
  deriving DecidableEq, Repr

/-- R48: a task context. Register tables default to zero, register-state tables to full. -/
structure Ctx where
  mode : CtxMode
  x : Tab Dbl
  v : Tab Quad
  m : Tab (BitVec 16)
  c : Tab Cap
  xs : Tab RegState
  vs : Tab RegState
  cs : Tab RegState
  /-- R357: mask registers with an uncorrectable error. -/
  ms : Tab RegState
  pcc : Cap
  pc : Dbl
  kcsa : Cap
  kcsb : Cap
  ch : BitVec 4
  rev1 : Bool
  drain : Bool
  ktask : Dbl
  kstage : Dbl
  kgroup : Dbl
  krrb : BitVec 5
  klc : BitVec 32
  kec : BitVec 8
  rmode : BitVec 3
  seed : BitVec 32
  fflags : BitVec 5
  vtrap : Bool
  ktrap : BitVec 8
  ktdetail : Dbl
  ktrpc : BitVec 48
  mcfg : BitVec 6
  frames : List Frame
  nonce : BitVec 32
  seq : BitVec 16
  sh0 : Shadow
  sh1 : Shadow
  xf0 : Xfer
  xf1 : Xfer
  /-- R251, R252: the kind of the starting message. -/
  kind : MsgKind
  /-- R29, R43: launch field of the binding the task started from (128 and above name a suspended launch), and the partition
  it runs for. -/
  launch : Nat
  part : Nat
  /-- Counts the tasks of this context, so that results of an ended task are discarded (R35). -/
  epoch : Nat
  /-- R249: words already popped by a stalled or suspended send, and the network of its reserved entry. -/
  popped : List Dbl
  sendHold : Option Nat
  /-- R197: SFU requests saved at a suspension, to be re-entered. -/
  sfuSaved : List SfuReq
  /-- R197: those whose results go to link ports, for which the record has no place (R347), each with how many of the record's precede it. -/
  sfuLink : List (Nat × SfuReq)
  /-- R204: lease count saved at a suspension, and the `mlease` destination still to be filled. -/
  leaseSaved : BitVec 8
  leaseDst : Option (Dest × Nat)
  /-- R354: the watchpoint not taken again in the coming re-execution. -/
  watchSkip : Option Nat
  /-- R279: the cause and detail of a failed acknowledgement, reported by the first instruction that waits for it. -/
  ackErr : Option (BitVec 8 × Dbl)
  /-- R339: the net launch whose rewrite this task performs. -/
  netTask : Option Nat
  /-- R173: the leader core this context follows; the clk at which this leader opened its window. -/
  follows : Option Nat
  window : Option Nat
  leading : Bool
  /-- R267: a `cpcast` that waits for power leave: its lighter channel, the clk at which it asked, its destination. -/
  leaveAsk : Option (Nat × Nat × BitVec 5)
  /-- R364: how many places in home orders the context's requests have taken. -/
  reqNum : Nat
  deriving DecidableEq, Repr

/-- A free context after the core's reset (R56: control registers 0) (DESIGN CHOICE: log entry 1). -/
def Ctx.reset : Ctx where
  mode := .free
  x := []
  v := []
  m := []
  c := []
  xs := []
  vs := []
  cs := []
  ms := []
  pcc := Cap.null
  pc := 0
  kcsa := Cap.null
  kcsb := Cap.null
  ch := 0
  rev1 := false
  drain := false
  ktask := 0
  kstage := 0
  kgroup := 0
  krrb := 0
  klc := 0
  kec := 0
  rmode := 0
  seed := 0
  fflags := 0
  vtrap := false
  ktrap := 0
  ktdetail := 0
  ktrpc := 0
  mcfg := 0
  frames := []
  nonce := 0
  seq := 0
  sh0 := Shadow.null
  sh1 := Shadow.null
  xf0 := Xfer.reset
  xf1 := Xfer.reset
  kind := .other
  launch := 0
  part := 0
  epoch := 0
  popped := []
  sendHold := none
  sfuSaved := []
  sfuLink := []
  leaseSaved := 0
  leaseDst := none
  watchSkip := none
  ackErr := none
  netTask := none
  follows := none
  window := none
  leading := false
  leaveAsk := none
  reqNum := 0

/-- R50, R51, R54: an entry of an inbound link queue. -/
inductive LinkEntry where
  | ready (v : Quad)
  | flying (v : Quad)
  | reserved (req : Nat)
  /-- R279, R361: a result that could not be read or whose owner was lost; the pop that reads it traps. -/
  | bad (lost : Bool) (detail : Dbl)
  /-- R197: an entry of a saved queue whose request was discarded; it is not restored. -/
  | gone
  deriving DecidableEq, Repr

/-- R288: a boom slot. -/
structure Boom where
  armed : Bool
  rect : BitVec 18
  ch : BitVec 4
  utag : BitVec 16
  gen : BitVec 16
  arrived : Bool
  held : Bool
  rowTok : Bool
  colTok : Bool
  rowDone : Bool
  /-- The column token has gone on to the south (R291). -/
  colDone : Bool
  /-- The release of generation gen is on its way to this core (R291). -/
  releasing : Bool
  deriving DecidableEq, Repr

/-- R288: a disarmed slot. -/
def Boom.reset : Boom := ⟨false, 0, 0, 0, 0, false, false, false, false, false, false, false⟩

/-- R12: a control core. -/
structure Core where
  ctxs : Tab Ctx
  inbox : List Flight
  /-- R389: entries reserved for task records, as (slice, partition), and refused requests in order. -/
  reserved : List (Nat × Nat)
  refused : List (Nat × Nat)
  /-- R389: entries kept for task records that are on their way, as (slice, partition). -/
  owed : List (Nat × Nat)
  sendq : Tab (List Flight)
  /-- R364: how many messages with this core as src have gone to each dst, by the low ten bits of the header. -/
  outNum : Tab Nat
  bind : Tab Binding
  chmask : BitVec 16
  chprio : BitVec 32
  /-- R32: the clk since which a channel has been continuously runnable. -/
  since : Tab Nat
  /-- R32: the channel last selected at each level; default 15. -/
  lastSel : Tab Nat
  /-- R50: inbound queues; key dir for scalars and 4 + dir for vectors. -/
  links : Tab (List LinkEntry)
  drop : BitVec 32
  /-- R374: counters, selectors and accumulators by control-register number. -/
  obs : Tab Dbl
  boom : Tab Boom
  /-- R291: tokens that wait at the core until its slot has their rectangle: slot, rectangle, whether it is the column's. -/
  boomWait : List (Nat × BitVec 18 × Bool)
  /-- R329: the net free list, most recent first, and its launch. -/
  freeList : List Nat
  freeLaunch : Nat
  place : Option Place
  gdone : Bool
  kstage : Dbl
  kgroup : Dbl
  /-- R12, R227, R387: instruction-cache lines by physical line number. -/
  icache : Tab (BitVec 512)
  /-- R387: the halfword after a line, with its location, as the cache took it with the line. -/
  itail : Tab (Nat × BitVec 16)
  /-- R46, R254: spill queues by partition. -/
  spill : Tab (List Flight)
  /-- R46: the core's contexts are saved for a pre-emption. -/
  preempted : Bool
  /-- R159: the context that issued last, and the clk in which the core last issued. -/
  rr : Nat
  issuedAt : Option Nat
  deriving DecidableEq, Repr

/-- A core after its reset: registers at their reset values, nothing queued (DESIGN CHOICE: log entry 1). -/
def Core.reset : Core where
  ctxs := []
  inbox := []
  reserved := []
  refused := []
  owed := []
  sendq := []
  outNum := []
  bind := []
  chmask := 0
  chprio := 0
  since := []
  lastSel := []
  links := []
  drop := 0
  obs := []
  boom := []
  boomWait := []
  freeList := []
  freeLaunch := 0
  place := none
  gdone := false
  kstage := 0
  kgroup := 0
  icache := []
  itail := []
  spill := []
  preempted := false
  rr := 3
  issuedAt := none

/-- R230: a line of translated memory held in a cache: data, bytes held and bytes dirty. -/
structure Line where
  data : BitVec 512
  valid : BitVec 64
  dirty : BitVec 64
  deriving DecidableEq, Repr

/-- R121: a TLB entry: partition, first and last 64 KiB unit of the leaf, the leaf, its level and where it lies. -/
structure TlbEntry where
  part : Nat
  page : Nat
  leaf : Dbl
  level : Nat
  slot : Nat
  deriving DecidableEq, Repr

/-- R216, R218: an adapter as sampled at acceptance: index, r, the codes of D (K by r) and U (r by N), and their formats. -/
structure Adapter where
  index : Nat
  r : Nat
  d : List Nat
  dfmt : BitVec 6
  u : List Nat
  ufmt : BitVec 6
  deriving DecidableEq, Repr

/-- R206, R207: an accepted matrix command with what it sampled. -/
structure MatCmd where
  fn : BitVec 3
  core : Nat
  ctx : Nat
  part : Nat
  tag : BitVec 5
  cfg : BitVec 6
  a : Cap
  b : Cap
  c : Cap
  sa : Cap
  sb : Cap
  alpha : Word
  rows : List Nat
  adapters : List Adapter
  dfmt : BitVec 6
  mode : BitVec 3
  seed : BitVec 32
  cycles : Nat
  /-- The clk of its acceptance (R110 stage 6). -/
  issued : Nat
  started : Option Nat
  /-- Byte ranges (first key, count) read and written, for R218 and R223. -/
  reads : List (Nat × Nat)
  writes : List (Nat × Nat)
  /-- R224, R356: what the staging store holds for it has an uncorrectable error. -/
  bad : Bool
  deriving DecidableEq, Repr

/-- R201, R203: the lease. -/
structure Lease where
  core : Nat
  ctx : Nat
  left : Nat
  idleFrom : Nat
  deriving DecidableEq, Repr

/-- R202, R209: a lease request; `dst` is the `mlease` destination still to be filled, a link port's entry by its number. -/
structure LeaseReq where
  core : Nat
  ctx : Nat
  n : Nat
  dst : Option (Dest × Nat)
  epoch : Nat
  askedAt : Option Nat
  deriving DecidableEq, Repr

/-- R201 to R224: the matrix array of a berth. -/
structure MatArray where
  queue : List MatCmd
  lease : Option Lease
  reqs : List LeaseReq
  leave : Bool
  lastDone : Nat
  lastHolder : Option Nat
  deriving DecidableEq, Repr

/-- R201: an idle array (DESIGN CHOICE: log entry 1). -/
def MatArray.reset : MatArray := ⟨[], none, [], false, 0, none⟩

/-- R270: how a copy ended. -/
structure CopyOutcome where
  cause : BitVec 8
  reason : BitVec 3
  count : Nat
  deriving DecidableEq, Repr

/-- R257 to R270: a copy on a lighter channel. -/
structure Copy where
  id : BitVec 16
  core : Nat
  ctx : Nat
  part : Nat
  launch : Nat
  otype : BitVec 12
  fn : BitVec 3
  /-- The number of the copy's acceptance in the package: ownership is granted in this order (R241). -/
  seq : Nat
  src : Cap
  dst : Cap
  aux : Cap
  ctl : Dbl
  mask : List Nat
  /-- R266: the index list, once all of it is read, and its entries by position as far as they were read at acceptance. -/
  list : Option (List Nat)
  entries : Tab Nat
  count : Nat
  running : Bool
  parked : Option ParkPlace
  outcome : Option CopyOutcome
  flags : BitVec 5
  /-- R241: lines of translated memory still to be written, each with the last element that writes it. -/
  owned : Tab Nat
  /-- R380, R381: the Quayline ports that have carried elements of the destination, the last first. -/
  remote : List Nat
  /-- R266: rows returned by their owners. R267: berths whose tile is written, and the combined acknowledgement. -/
  rowsBack : List Nat
  castDone : List Nat
  acked : Bool
  deriving DecidableEq, Repr

/-- R368: the debug module's registers. -/
structure Debug where
  ctl : BitVec 7
  lost : BitVec 32
  err : Bool
  why : BitVec 3
  halted : Bool
  acc : Dbl
  data : Dbl
  trace : Dbl
  /-- R372: records written so far. -/
  traceAt : Nat
  wp : Tab Dbl
  haltedAt : Nat
  deriving DecidableEq, Repr

/-- R368: the reset values. -/
def Debug.reset : Debug := ⟨0, 0, false, 0, false, 0, 0, 0, 0, [], 0⟩

/-- R310, R311: a slice end that a berth has received: when, D in clk, and whether the berth drains or saves. -/
structure SliceEnd where
  at_ : Nat
  deadline : Nat
  draining : Bool
  saving : Bool
  overrunRaised : Bool
  deriving DecidableEq, Repr

/-- R281, R285: a continuation registered on a phase. -/
structure Cont where
  flight : Flight
  gen : BitVec 16
  user : Dbl
  deriving DecidableEq, Repr

/-- R313, R317: what a save keeps beside the save area because R314 gives it no place: the cores as saved
(bindings, placements, waiting records), the lighter queues with their origins, the phases of the berth's windows
(R287), and the cores whose group was discarded meanwhile, each with the channels it was bound to (R29, R315). -/
structure SavedBerth where
  part : Nat
  cores : List (Nat × Core)
  chans : Tab (List Copy)
  phases : Tab (List Cont)
  freed : List (Nat × List Nat)
  deriving DecidableEq, Repr

/-- R333, R334: an active pair waiting: lower node, higher node, launch, partition. -/
structure Pair where
  a : Nat
  b : Nat
  launch : Nat
  part : Nat
  deriving DecidableEq, Repr

/-- R11: a berth. -/
structure Berth where
  owner : Byte
  power : BitVec 2
  /-- The partition whose work the berth runs now, and whose data its stores hold (R114, R318). -/
  runs : Option Nat
  holds : Option Nat
  saved : List SavedBerth
  /-- R311, R314: W blocks written since the last restore, and the partitions whose image of this berth the save area holds. -/
  wDirty : List Nat
  imaged : List Nat
  l1 : Tab Line
  tlb : List TlbEntry
  sfuQ : List SfuReq
  sfuRun : List SfuReq
  mat : MatArray
  chans : Tab (List Copy)
  chanRr : Nat
  dbg : Debug
  bag : List Pair
  discards : Nat
  bagRr : Nat
  traceQ : List Gran
  sliceEnd : Option SliceEnd
  /-- R306: the launch and group a reservation keeps this berth for. -/
  reservedFor : Option (Nat × Nat)
  deriving DecidableEq, Repr

/-- R114: a vacant berth, nothing held (DESIGN CHOICE: log entry 1). -/
def Berth.reset : Berth where
  owner := 0x40
  power := 0
  runs := none
  holds := none
  saved := []
  wDirty := []
  imaged := []
  l1 := []
  tlb := []
  sfuQ := []
  sfuRun := []
  mat := MatArray.reset
  chans := []
  chanRr := 7
  dbg := Debug.reset
  bag := []
  discards := 0
  bagRr := 31
  traceQ := []
  sliceEnd := none
  reservedFor := none

/-- R39, R298: a queued task record with its enqueuer. -/
structure TaskRec where
  rec_ : Gran
  core : Nat
  part : Nat
  place : Option Place
  /-- The clk of its placement (R389: dequeued no earlier than the next). -/
  at_ : Nat
  deriving DecidableEq, Repr

/-- R10, R296, R298, R334: an L2 slice with its slice agent. -/
structure Slice where
  seg : List TaskRec
  rings : Tab (List TaskRec)
  ringTurn : Nat
  turn : Nat
  pairs : List Pair
  pairRings : Tab (List Pair)
  pairTurn : Nat
  power : BitVec 2
  deriving DecidableEq, Repr

/-- An empty slice (DESIGN CHOICE: log entry 1). -/
def Slice.reset : Slice := ⟨[], [], 15, 15, [], [], 15, 0⟩

/-- R306 to R308: a placed group. -/
structure Placed where
  idx : Nat
  cores : List Nat
  gen : Nat
  at_ : Nat
  deriving DecidableEq, Repr

/-- R337 to R339: the net of a launch. -/
structure Net where
  heap : Option Cap
  heapPart : Nat
  outstanding : Nat
  note : Option (Nat × Nat)
  deriving DecidableEq, Repr

/-- R299 to R308: an active or suspended launch. -/
structure Launch where
  d0 : Dbl
  d1 : Dbl
  d2 : Dbl
  d3 : Dbl
  root : Cap
  part : Nat
  seqNo : Nat
  base : Nat
  bits : List Nat
  placed : List Placed
  gens : Tab Nat
  retired : Nat
  failed : Bool
  avg : Option Nat
  acceptedAt : Nat
  deadlineRaised : Bool
  /-- R314: the deadline time left in µs when suspended. -/
  dlLeft : Nat
  leave : Bool
  askedAt : Nat
  /-- R306: the groups that have been found ready, each with the clk since which it has waited unplaced. -/
  readySince : Tab Nat
  /-- R391: groups that a discard has returned to the ready set, not to be placed before the partition's next slice. -/
  later : List Nat
  /-- R305, R309: the quay whose harbourmaster homes the launch: that of its slot, or the survivor after a fence. -/
  home : Nat
  net : Option Net
  deriving DecidableEq, Repr

/-- R125: a fault-buffer entry. -/
structure FaultEntry where
  wr : Bool
  fx : Bool
  tg : Bool
  reason : BitVec 3
  quay : Nat
  waiters : Nat
  page : Nat
  gen : BitVec 16
  deriving DecidableEq, Repr

/-- R130: a harvest whose bitmap is still to be written: the old dirty bits of its units, and where it is parked. -/
structure Harvest where
  bits : List Bool
  place : Option ParkPlace
  /-- The address of the bitmap, as `tr.bmap` held it when the command began. -/
  bmap : Nat
  deriving DecidableEq, Repr

/-- R105 to R110: the dredger's registers and sweep of one partition. -/
structure Dredger where
  heap : Dbl
  size : Dbl
  map : Dbl
  ctl : Dbl
  begun : BitVec 16
  ended : BitVec 16
  err : Bool
  pend : Bool
  stage : BitVec 3
  /-- The clk at which the running sweep began. -/
  startedAt : Nat
  deferred : List (Nat × Dbl)
  deriving DecidableEq, Repr

/-- R105: the reset values. -/
def Dredger.reset : Dredger := ⟨0, 0, 0, 0, 0, 0, false, false, 0, 0, []⟩

/-- R242, R243: a compressed block: its image, with the granules whose tags the image has set (R226), and which bytes the plain view
wrote since the last join. -/
structure Block where
  image : List Byte
  tags : List Nat
  plain : List Nat
  imaged : Bool
  deriving DecidableEq, Repr

/-- R364: an order-log entry. -/
inductive LogEntry where
  /-- `sender`: the number of the message among those of its sender to its destination. -/
  | arrival (core src vn cls ch : Nat) (sender : Nat)
  /-- `seq`: the number of the request, or of an element of a vector reduction, among those of its context. -/
  | atomic (loc core ctx : Nat) (seq : Nat)
  | placed (launch idx berth : Nat)
  | retired (launch idx : Nat)
  | sliceChoice (berth choice : Nat)
  deriving DecidableEq, Repr

/-- R363: a checkpoint: its number; the memory, tags and berths at the cut; what the hardware holds of the partition in memory of
its own layout (R395) and beside it; the messages under way; and the log of the interval that follows. -/
structure Checkpoint where
  seq : BitVec 32
  mem : List Host.Cell
  tags : List Nat
  saved : List (Nat × SavedBerth)
  launches : List (Nat × Launch)
  suspended : List (Nat × Nat × Launch)
  spill : List (Nat × List Flight)
  pending : List (Nat × List Flight)
  ring : List (Nat × List Flight)
  recs : List (Nat × List TaskRec × List TaskRec)
  pairs : List (Nat × List Pair × List Pair)
  phases : Tab (List Cont)
  blocks : Tab Block
  /-- R357: the lines of the grants that were bad at the cut, with the bytes written since. -/
  bad : List (Nat × List Nat)
  mesh : List Flight
  log : List LogEntry
  deriving DecidableEq, Repr

/-- R362 to R365. -/
structure Ckpt where
  ctl : Dbl
  area : Dbl
  log : Dbl
  seq : BitVec 32
  early : Bool
  full : Bool
  busy : Bool
  err : Bool
  cutAt : Nat
  entries : List LogEntry
  replaying : List LogEntry
  kept : List Checkpoint
  pending : Option Checkpoint
  deriving DecidableEq, Repr

/-- R362: the reset values. -/
def Ckpt.reset : Ckpt := ⟨0, 0, 0, 0, false, false, false, false, 0, [], [], [], none⟩

/-- R114 to R137: what belongs to one partition: its register page, the manager's page, and hardware-held tables. -/
structure Partition where
  trGen : BitVec 16
  trOp : BitVec 3
  trBusy : Bool
  trArg : Dbl
  trCnt : Dbl
  trBmap : Dbl
  /-- R122: requests numbered below this were made before the running command. -/
  trMark : Nat
  /-- R122: the range of the running command, in 64 KiB units. -/
  trFirst : Nat
  trCount : Nat
  harvest : Option Harvest
  pfErr : Bool
  dropped : Bool
  pfResp : Dbl
  stale : BitVec 32
  ents : Tab FaultEntry
  split0 : Dbl
  split1 : Dbl
  lim0 : Dbl
  lim1 : Dbl
  door : Dbl
  hmStat : Dbl
  tpLost : Dbl
  ctLatch : Dbl
  tpDrop : BitVec 32
  ntErr : Dbl
  /-- R279: the address that the memory-error source last named. -/
  errorNamed : Option Dbl
  grant : Tab Dbl
  gsize : Tab Dbl
  /-- R359: 64 KiB pages that a retired line took out of every grant. -/
  holes : List Nat
  trRoot : Dbl
  bands : Tab Dbl
  qlMap : Dbl
  qlPhase : Dbl
  tqRing : Dbl
  tqFull : BitVec 32
  /-- R40: the record that the task-record source last named. -/
  recordNamed : Option Gran
  peSave : Dbl
  sqBase : Dbl
  nbRing : Dbl
  dr : Dredger
  ck : Ckpt
  /-- R97: the compartment table by sealing type. -/
  comp : Tab Dbl
  /-- R385: resident code objects by handle. -/
  objs : Tab CodeObject
  /-- R316: launches suspended with the partition, with the slot each had and its launch block. -/
  suspended : List (Nat × Nat × Launch)
  /-- R136: floor and ceiling credits left in this period, by resource. -/
  floorCr : Tab Nat
  ceilCr : Tab Nat
  deriving DecidableEq, Repr

/-- R105, R129, R132, R135: the reset values (DESIGN CHOICE: log entry 2 where the map gives none). -/
def Partition.reset : Partition where
  trGen := 0
  trOp := 0
  trBusy := false
  trArg := 0
  trCnt := 0
  trBmap := 0
  trMark := 0
  trFirst := 0
  trCount := 0
  harvest := none
  pfErr := false
  dropped := false
  pfResp := 0
  stale := 0
  ents := []
  split0 := 0
  split1 := 0
  lim0 := 0
  lim1 := 0
  door := 0
  hmStat := 0
  tpLost := 0
  ctLatch := 0
  tpDrop := 0
  ntErr := 0
  errorNamed := none
  grant := []
  gsize := []
  holes := []
  trRoot := 0
  bands := []
  qlMap := 0
  qlPhase := 0
  tqRing := 0
  tqFull := 0
  recordNamed := none
  peSave := 0
  sqBase := 0
  nbRing := 0
  dr := Dredger.reset
  ck := Ckpt.reset
  comp := []
  objs := []
  suspended := []
  floorCr := []
  ceilCr := []

/-- R360: the state of a quay's berth array. -/
inductive QuayMode where
  | up | fencing | fenced | resetting
  deriving DecidableEq, Repr

/-- R230, R121, R254, R360, R383: what belongs to one quay. -/
structure Quay where
  mode : QuayMode
  why : BitVec 4
  /-- R230: copies of lines homed at the other quay. -/
  l2 : Tab Line
  tlb : List TlbEntry
  /-- R254, R255: the pending table's messages, at most 256, in arrival order. -/
  pending : List Flight
  /-- R255: the messages in the pending spill rings of the launches, in arrival order. -/
  ring : List Flight
  budget : BitVec 16
  badLines : List (Nat × List Nat)
  /-- R56: the clk at which the quay's cores were last reset: their release at bring-up (R382), or the reset of the array (R360). -/
  resetAt : Nat
  deriving DecidableEq, Repr

/-- R360: the reset values (DESIGN CHOICE: log entry 2). -/
def Quay.reset : Quay := ⟨.up, 0, [], [], [], [], 0, [], 0⟩

/-- R379: the state of a Quayline port. -/
inductive QlState where
  | down | train | check | up | fail
  deriving DecidableEq, Repr

/-- R379. -/
structure QlPort where
  en : Bool
  state : QlState
  lanes : BitVec 8
  trainFrom : Nat
  /-- Flits replayed after a CRC failure (R379). -/
  replays : Nat
  deriving DecidableEq, Repr

/-- R379: a port that is down. -/
def QlPort.reset : QlPort := ⟨false, .down, 0, 0, 0⟩

/-- R137: a source of the cause table. -/
structure Irq where
  pend : Bool
  en : Bool
  pmonly : Bool
  owner : BitVec 4
  vec : BitVec 8
  deriving DecidableEq, Repr

/-- R137: the reset values. -/
def Irq.reset : Irq := ⟨false, false, false, 0, 0⟩

/-- R382: how far bring-up has come. -/
inductive BootStage where
  | held
  | waitImage
  | done
  deriving DecidableEq, Repr

/-- R380, R381: what has gone to the partner package: 0 a write, 1 a reduction of an FP32 element, 2 of a BF16 element, 3 the
arrival at the partner's `ql.phase`. -/
structure QlOut where
  port : Nat
  kind : BitVec 2
  part : Nat
  addr : Nat
  bit : Nat
  width : Nat
  data : List Byte
  deriving DecidableEq, Repr

/-- R333, R334: a pair on its way to a slice, with the request that waits for its placement and the value it then returns. -/
structure Overflow where
  slice : Nat
  pair : Pair
  req : Nat
  status : Dbl
  /-- R343: a pair from a saved bag is counted already. -/
  counted : Bool
  deriving DecidableEq, Repr

/-- R138: a virtual interrupt that the device has sent: in endpoint mode an MSI-X vector of a virtual function, in root-port mode
the guest external interrupt of the guest that runs a partition. -/
inductive Injection where
  | msix (function vector : Nat)
  | guest (part vector : Nat)
  deriving DecidableEq, Repr

/-- The package-wide registers and units (R137, R310, R320, R366, R377, R379, R383, R384, R387). -/
structure Glob where
  boot : BootStage
  bootInput : Option BootInput
  fusedRollback : BitVec 32
  /-- R367: the verified image that a recovery has written to flash. -/
  flash : Option FirmwareImage
  endpoint : Bool
  pmErr : Bool
  irq : Tab Irq
  injected : List Injection
  irqInject : Dbl
  ceThresh : BitVec 16
  ceCount : Tab Nat
  flr : BitVec 16
  door : Dbl
  hmStat : Dbl
  icInv : Dbl
  icBusy : Bool
  icArg : Dbl
  pwCmd : Dbl
  pwBusy : Bool
  chanPower : Tab (BitVec 2)
  trip : Bool
  temp : BitVec 8
  ql0 : QlPort
  ql1 : QlPort
  qlOut : List QlOut
  tsEnt : Tab Dbl
  rtEnt : Tab Dbl
  /-- R320: class-0 messages sent in the current window, by core, and the window. -/
  rtUsed : Tab (Nat × Nat)
  /-- R310: the schedule entry whose slice runs, the clk it began, and whether its end is being carried out. -/
  slice : Option Nat
  sliceAt : Nat
  sliceEnding : Bool
  lastSlice : Nat
  master : Nat
  xtrig : Option Nat
  launchSeq : Nat
  /-- What the outside last read, and whether its last access was refused. -/
  readOut : Dbl
  accessFault : Bool
  blocks : Tab Block
  /-- R334: overflow pairs on their way to a slice. -/
  overflow : List Overflow
  /-- R136: the clk at which the arbitration period began. -/
  periodAt : Nat
  deriving DecidableEq, Repr

/-- R137, R310, R320, R383, R387: the reset values (DESIGN CHOICE: log entries 2, 4 where the map gives none). -/
def Glob.reset : Glob where
  boot := .held
  bootInput := none
  fusedRollback := 0
  flash := none
  endpoint := false
  pmErr := false
  irq := []
  injected := []
  irqInject := 0
  ceThresh := 0
  ceCount := []
  flr := 0
  door := 0
  hmStat := 0
  icInv := 0
  icBusy := false
  icArg := 0
  pwCmd := 0
  pwBusy := false
  chanPower := []
  trip := false
  temp := 0
  ql0 := QlPort.reset
  ql1 := QlPort.reset
  qlOut := []
  tsEnt := []
  rtEnt := []
  rtUsed := []
  slice := none
  sliceAt := 0
  sliceEnding := false
  lastSlice := 15
  master := 0
  xtrig := none
  launchSeq := 0
  readOut := 0
  accessFault := false
  blocks := []
  overflow := []
  periodAt := 0

/-- One piece of an access: location key of its first byte, bit within it, width in bits, and whether it is cached
(translated memory, R230). -/
structure Piece where
  key : Nat
  bit : Nat
  width : Nat
  cached : Bool
  deriving DecidableEq, Repr

/-- R327: the operands of a NET request. -/
inductive NetOp where
  | alloc (d : Nat)
  | free (node : Nat)
  | link (d : Nat) (p q : Word)
  | load (d : Nat) (node w : Nat)
  | store (node w : Nat) (value : Word)
  | push (a b : Nat)
  | bind (d : Nat) (top : Nat)
  | note (d : Nat) (ch : Nat)
  | stat (d : Nat)
  | park (d : Nat) (node : Nat)
  | unpark (d : Nat) (node : Nat)
  deriving DecidableEq, Repr

/-- What a request asks of its owner (R45, R275, R297, R302, R353). -/
inductive Body where
  /-- Pieces in rising bit order; `signed` extends a scalar result from its top bit. -/
  | load (pieces : List Piece) (signed : Bool)
  | clc (piece : Piece) (keepTag : Bool)
  | atomic (fn : BitVec 7) (fmt : BitVec 6) (piece : Piece) (v nv : Dbl)
  /-- Each updated element has the number of its owner's acknowledgement (R393). -/
  | ared (fn : BitVec 7) (fmt : BitVec 6) (elems : List (Piece × Nat × Nat)) (updated : Tab Nat)
  | phase (fn : BitVec 3) (piece : Piece) (n : BitVec 12) (cont : Option Cont)
  /-- Each write is a piece, its value and the address of its first byte; `back` has the values popped from inbound queues, with
  their keys (R8). -/
  | store (writes : List (Piece × Nat × Nat)) (cap : Option Cap) (back : List (Nat × Quad))
  | enq (rec_ : Gran) (slice : Nat) (place : Option Place)
  | launch (d0 d1 d2 d3 : Dbl) (root : Cap)
  | resume (handle : Dbl) (drop : Bool)
  /-- `reg` names the capability register in detail words; `back` is as in a store. -/
  | net (op : NetOp) (heap : Cap) (reg : Nat) (back : List (Nat × Quad))
  deriving DecidableEq, Repr

/-- What an owner answers. -/
inductive Reply where
  | value (v : Dbl)
  | error (detail : Dbl)
  | lost (detail : Dbl)
  | trap (cause : BitVec 8) (detail : Dbl)
  deriving DecidableEq, Repr

/-- A request in flight from a context (or, with no context, from `hm.door`). -/
structure Req where
  core : Nat
  ctx : Nat
  epoch : Nat
  part : Nat
  dst : Dest
  /-- R358: the address through which the request names its data. -/
  addr : Dbl
  body : Body
  reply : Option Reply
  /-- The class-0 door writes of R303 have no context: 0 context, 1 partition page, 2 global page. -/
  door : Nat
  /-- R353: the command waits at a saved core and its status 5 has been sent; R333: the push waits for a place. -/
  held : Bool
  /-- R45: the request has left the send queue. -/
  sent : Bool
  /-- R364: its first place among those of its context's requests. -/
  num : Nat
  /-- R393: when its reply left the owner: larger numbers are later. -/
  served : Nat
  deriving DecidableEq, Repr

/-- Which context executes. -/
structure Cur where
  core : Nat
  ctx : Nat
  deriving DecidableEq, Repr

/-- R367, R396: what the firmware and the security core do of their own accord: they raise their interrupt source, or command the fused
rollback counter up to a value. -/
inductive FirmwareAct where
  | raise
  | advanceRollback (to_ : BitVec 32)
  deriving DecidableEq, Repr

/-- One turn of the schedule the outside and the timing choose: a core issues, a step of spec/95 happens, the package clock advances, or
the firmware acts. -/
inductive Turn where
  | issue (core : Nat)
  | event (i : Instr)
  | clk (n : Nat)
  | firmware (a : FirmwareAct)
  deriving DecidableEq, Repr

/-- The state of the package. `agenda`, `cur`, `freeCtr`, `stalled` and `nextReq` are the model's own. -/
structure State where
  agenda : List Turn
  cur : Cur
  clk : Nat
  freeCtr : Nat
  stalled : Bool
  /-- Bytes by location key, strictly rising, no zero byte: physical external memory, window addresses, L2-direct keys. -/
  mem : List Host.Cell
  /-- Granule numbers (key / 32) whose tag is set, strictly rising. -/
  tags : List Nat
  cores : Tab Core
  berths : Tab Berth
  slices : Tab Slice
  quays : Tab Quay
  parts : Tab Partition
  launches : Tab Launch
  glob : Glob
  mesh : List Flight
  reqs : Tab Req
  nextReq : Nat
  /-- R281: marked doubles by location key, with their continuations in registration order. -/
  phases : Tab (List Cont)
  deriving DecidableEq, Repr

/-- The package right after power-on reset: nothing listed, every berth vacant (R114), memory windows zero (R318),
tags clear (R74) (DESIGN CHOICE: log entry 13). -/
def State.reset : State where
  agenda := []
  cur := ⟨0, 0⟩
  clk := 0
  freeCtr := 0
  stalled := false
  mem := []
  tags := []
  cores := []
  berths := []
  slices := []
  quays := []
  parts := []
  launches := []
  glob := Glob.reset
  mesh := []
  reqs := []
  nextReq := 0
  phases := []

end Sys2Proof.Machine
end

