-- ==== Sys2Proof/Machine/Access.lean ====
section
/-!
DEFINITION. Where the parts of the state lie (cores, contexts, berths, slices, quays, partitions), the identifiers of R13
to R15 and R17, and the monad in which a meaning is written: it either ends with a state or stops for a named reason, and
a stop keeps nothing of what the meaning did (R8).
-/
namespace Sys2Proof.Machine

open Sys2Proof

/-- R374: what a stalled instruction waits for: an empty register, a link port, or something else. -/
inductive Wait where
  | empty | link | other
  deriving DecidableEq, Repr

/-- Why a meaning ends without its effect. -/
inductive Stop where
  /-- The step's condition does not hold: nothing happens. -/
  | disabled
  /-- R36, R37: the instruction waits and issues again later. -/
  | stall (why : Wait)
  /-- R345: a precise trap. -/
  | trap (cause : BitVec 8) (detail : Dbl)
  /-- R354: a trap whose resume address is the next instruction. -/
  | trapNext (cause : BitVec 8) (detail : Dbl)
  /-- R119, R123: a failed walk, with its reason and the detail word a deny would deliver. -/
  | page (reason : Nat) (detail : Dbl)
  /-- R371: a watchpoint halts the berth before the access. -/
  | watchHalt (wp : Nat)
  /-- R105: a map word that cannot be read is noted before what needs it goes on; nothing that follows undoes the note. -/
  | noted (part : Nat)
  deriving DecidableEq, Repr

/-- The three outcomes of a step. -/
abbrev Outcome := Host.Outcome State Fault Refusal

/-- A meaning under way. -/
abbrev Act (α : Type) := StateT State (Except Stop) α

/-- Ends a meaning for a reason. -/
def halt {α : Type} (x : Stop) : Act α := fun _ => .error x

/-- Goes on only when a step's condition holds. -/
def need (b : Bool) : Act Unit := if b then pure () else halt .disabled

/-- The value of an option, or the step's condition does not hold. -/
def needSome {α : Type} : Option α → Act α
  | some x => pure x
  | none => halt .disabled

/-- Traps unless a check holds. -/
def check (b : Bool) (cause : BitVec 8) (detail : Dbl) : Act Unit :=
  if b then pure () else halt (.trap cause detail)

/-- Runs a meaning for each element of a list, in order. -/
def each {α : Type} (f : α → Act Unit) : List α → Act Unit
  | [] => pure ()
  | x :: r => do f x; each f r

/-- Runs a meaning for each element of a list and keeps the results in order. -/
def collect {α β : Type} (f : α → Act β) : List α → Act (List β)
  | [] => pure []
  | x :: r => do
    let y ← f x
    let ys ← collect f r
    pure (y :: ys)

def coreOf (s : State) (k : Nat) : Core := tabGet Core.reset s.cores k
def setCore (s : State) (k : Nat) (c : Core) : State := { s with cores := tabPut s.cores k c }
def ctxOf (s : State) (k c : Nat) : Ctx := tabGet Ctx.reset (coreOf s k).ctxs c
def setCtx (s : State) (k c : Nat) (x : Ctx) : State :=
  setCore s k { coreOf s k with ctxs := tabPut (coreOf s k).ctxs c x }
def berthOf (s : State) (b : Nat) : Berth := tabGet Berth.reset s.berths b
def setBerth (s : State) (b : Nat) (x : Berth) : State := { s with berths := tabPut s.berths b x }
def sliceOf (s : State) (n : Nat) : Slice := tabGet Slice.reset s.slices n
def setSlice (s : State) (n : Nat) (x : Slice) : State := { s with slices := tabPut s.slices n x }
def quayOf (s : State) (q : Nat) : Quay := tabGet Quay.reset s.quays q
def setQuay (s : State) (q : Nat) (x : Quay) : State := { s with quays := tabPut s.quays q x }
def partOf (s : State) (p : Nat) : Partition := tabGet Partition.reset s.parts p
def setPart (s : State) (p : Nat) (x : Partition) : State := { s with parts := tabPut s.parts p x }
def setLaunch (s : State) (n : Nat) (x : Launch) : State := { s with launches := tabPut s.launches n x }

/-- R114: the partition that a berth works for now: its owner, or the partition whose slice a sliced berth runs. -/
def berthPart (s : State) (b : Nat) : Option Nat :=
  let x := berthOf s b
  if x.owner.getLsbD 6 then none
  else if x.owner.getLsbD 7 then x.runs
  else some (x.owner.toNat % 16)

/-- The executing context. -/
def here : Act Ctx := fun s => .ok (ctxOf s s.cur.core s.cur.ctx, s)
def putHere (x : Ctx) : Act Unit := fun s => .ok ((), setCtx s s.cur.core s.cur.ctx x)
def modHere (f : Ctx → Ctx) : Act Unit := do putHere (f (← here))
/-- The executing core. -/
def hereCore : Act Core := fun s => .ok (coreOf s s.cur.core, s)
def modCore (k : Nat) (f : Core → Core) : Act Unit := modify fun s => setCore s k (f (coreOf s k))
def modCtx (k c : Nat) (f : Ctx → Ctx) : Act Unit := modify fun s => setCtx s k c (f (ctxOf s k c))
def modBerth (b : Nat) (f : Berth → Berth) : Act Unit := modify fun s => setBerth s b (f (berthOf s b))
def modSlice (n : Nat) (f : Slice → Slice) : Act Unit := modify fun s => setSlice s n (f (sliceOf s n))
def modQuay (q : Nat) (f : Quay → Quay) : Act Unit := modify fun s => setQuay s q (f (quayOf s q))
def modPart (p : Nat) (f : Partition → Partition) : Act Unit := modify fun s => setPart s p (f (partOf s p))
def modGlob (f : Glob → Glob) : Act Unit := modify fun s => { s with glob := f s.glob }
/-- The number of the executing core. -/
def hereId : Act Nat := fun s => .ok (s.cur.core, s)

/-- R15: the berth number of a core. -/
def coreBerth (k : Nat) : Nat := k / 4
/-- R15: the quay of a core. -/
def coreQuay (k : Nat) : Nat := k / 256
def berthQuay (b : Nat) : Nat := b / 64
/-- R13: the mesh column and row of a core. -/
def meshX (k : Nat) : Nat := 16 * (k / 256) + 2 * (k / 4 % 8) + k % 2
def meshY (k : Nat) : Nat := 2 * (k / 32 % 8) + k / 2 % 2
/-- R13, R15: the core at a mesh position. -/
def coreAt (x y : Nat) : Nat := 256 * (x / 16) + 32 * (y / 2) + 4 * (x % 16 / 2) + 2 * (y % 2) + x % 2

/-- R13, R14: the neighbour in a direction (0 N, 1 E, 2 S, 3 W), unless the port is unconnected. -/
def neighbour (k dir : Nat) : Option Nat :=
  match dir with
  | 0 => if meshY k = 0 then none else some (coreAt (meshX k) (meshY k - 1))
  | 1 => if meshX k = 31 then none else some (coreAt (meshX k + 1) (meshY k))
  | 2 => if meshY k = 15 then none else some (coreAt (meshX k) (meshY k + 1))
  | _ => if meshX k = 0 then none else some (coreAt (meshX k - 1) (meshY k))

/-- The opposite of a direction. -/
def opposite (dir : Nat) : Nat := (dir + 2) % 4

/-- R26: the scope that the distance between two cores requires. -/
def distance (a b : Nat) : Nat :=
  if a = b then 0 else if coreBerth a = coreBerth b then 1 else if coreQuay a = coreQuay b then 2 else 3

/-- R17: the end of external memory that data can use, and where the second quay's part begins. -/
def extEnd : Nat := 0x1FE0000000
def extSplit : Nat := 0x0FF0000000
/-- R17: the quay and the quay offset of a physical address. -/
def paQuay (pa : Nat) : Nat := if pa < extSplit then 0 else 1
def paOffset (pa : Nat) : Nat := if pa < extSplit then pa else pa - extSplit
/-- R17: the channel, 0 to 15 over both quays. -/
def paChannel (pa : Nat) : Nat :=
  let l := paOffset pa / 64
  8 * paQuay pa + (bitsAt l 0 3 ^^^ bitsAt l 6 3 ^^^ bitsAt l 12 3)
/-- R17: the home slice, 0 to 31 over both quays. -/
def paSlice (pa : Nat) : Nat :=
  let l := paOffset pa / 64
  16 * paQuay pa + (bitsAt l 0 4 ^^^ bitsAt l 8 4 ^^^ bitsAt l 16 4)

/-- R77: the window of an address by bits 47 to 44. -/
def windowOf (a : Nat) : Nat := bitsAt a 44 4
/-- R77: an address in translated memory. -/
def isTranslated (a : Nat) : Bool := windowOf a ≤ 0xB
/-- R77: the berth and core fields and the size of each window. -/
def winBerth (a : Nat) : Nat := bitsAt a 31 7
def winCore (a : Nat) : Nat := bitsAt a 29 2
def winSize (w : Nat) : Nat :=
  match w with
  | 0xC => 0x40000
  | 0xD => 0x200000
  | 0xE => 0x100000
  | _ => 0x800000
/-- R77: the first address of a window of a berth (and core, for L). -/
def winBase (w berth core : Nat) : Nat := w * 2 ^ 44 + berth * 2 ^ 31 + core * 2 ^ 29
/-- R77: the L window address of a core's local store. -/
def localBase (k : Nat) : Nat := winBase 0xC (k / 4) (k % 4)
/-- R77: the region scope of a location. -/
def regionScope (a : Nat) : Nat :=
  match windowOf a with
  | 0xC => 0
  | 0xD | 0xE | 0xF => 1
  | _ => 4

/-- R134: location keys of L2-direct units lie above every address: partition, slice and offset. -/
def l2Key (part slice off : Nat) : Nat := 2 ^ 50 + (part * 32 + slice) * 2 ^ 22 + off
def isL2Key (key : Nat) : Bool := 2 ^ 50 ≤ key
def l2KeySlice (key : Nat) : Nat := (key - 2 ^ 50) / 2 ^ 22 % 32

/-- The quay in which a location is homed. -/
def keyQuay (key : Nat) : Nat :=
  if isL2Key key then l2KeySlice key / 16
  else if key < extEnd then paQuay key
  else winBerth key / 64

/-- R275: the slice that owns a location of translated or L2-direct memory. -/
def keySlice (key : Nat) : Nat := if isL2Key key then l2KeySlice key else paSlice key

end Sys2Proof.Machine
end

