-- ==== Sys2Proof/Machine/Caps.lean ====
section
/-!
DEFINITION. The capability record (R70 to R76), the index tuple and address (R78, R79), the checks of an access (R80) and
the detail word (R81).
-/
namespace Sys2Proof.Machine

open Sys2Proof

-- Cause codes (R355).
def cILLEGAL : BitVec 8 := 0x01
def cEMPTY : BitVec 8 := 0x02
def cNOLINK : BitVec 8 := 0x03
def cTAG : BitVec 8 := 0x04
def cBOUNDS : BitVec 8 := 0x05
def cPERM : BitVec 8 := 0x06
def cSCOPE : BitVec 8 := 0x07
def cSEALED : BitVec 8 := 0x08
def cFORMAT : BitVec 8 := 0x09
def cREVOKED : BitVec 8 := 0x0A
def cWIDEN : BitVec 8 := 0x0B
def cALIGN : BitVec 8 := 0x0C
def cPAGENR : BitVec 8 := 0x0D
def cPAGEPERM : BitVec 8 := 0x0E
def cSENDQ : BitVec 8 := 0x0F
def cLEASE : BitVec 8 := 0x10
def cSHAPE : BitVec 8 := 0x11
def cCOPY : BitVec 8 := 0x12
def cGATHER : BitVec 8 := 0x13
def cPHASE : BitVec 8 := 0x14
def cNETFREE : BitVec 8 := 0x15
def cNETLINK : BitVec 8 := 0x16
def cUNCORR : BitVec 8 := 0x17
def cSVC : BitVec 8 := 0x18
def cBREAK : BitVec 8 := 0x19
def cWATCH : BitVec 8 := 0x1A
def cPREEMPT : BitVec 8 := 0x1B
def cORDER : BitVec 8 := 0x1C
def cCYCLE : BitVec 8 := 0x1D
def cLOST : BitVec 8 := 0x1E

-- Permission bits (R71).
def pL : Nat := 0x01
def pS : Nat := 0x02
def pLC : Nat := 0x04
def pSC : Nat := 0x08
def pM : Nat := 0x10
def pX : Nat := 0x20
def pD : Nat := 0x40
def pK : Nat := 0x80

/-- A field of a capability image. -/
def capField (c : Cap) (lo n : Nat) : Nat := bitsAt c.bits.toNat lo n
def capSet (c : Cap) (lo n v : Nat) : Cap :=
  let b := c.bits.toNat
  { c with bits := BitVec.ofNat 256 (b - bitsAt b lo n * 2 ^ lo + v % 2 ^ n * 2 ^ lo) }
def capBase (c : Cap) : Nat := capField c 0 48
def capFmt (c : Cap) : Nat := capField c 48 6
/-- R70: rank 1 to 4. -/
def capRank (c : Cap) : Nat := capField c 54 2 + 1
def capPerm (c : Cap) : Nat := capField c 224 8
def capScope (c : Cap) : Nat := capField c 232 3
def capSealed (c : Cap) : Bool := capField c 235 1 == 1
def capOtype (c : Cap) : Nat := capField c 236 12
/-- R73: the extent a dimension's field stands for, whatever the rank. -/
def capExtField (c : Cap) (d : Nat) : Nat :=
  let v := capField c (56 + 18 * d) 18
  if v = 0 then 262144 else v
/-- R73: the extent an access uses: 1 at and above the rank. -/
def capExt (c : Cap) (d : Nat) : Nat := if d < capRank c then capExtField c d else 1
def capStrField (c : Cap) (d : Nat) : Nat := capField c (128 + 24 * d) 24
def capStr (c : Cap) (d : Nat) : Nat := if d < capRank c then capStrField c d else 0
def capSetBase (c : Cap) (v : Nat) : Cap := capSet c 0 48 v
def capSetFmt (c : Cap) (v : Nat) : Cap := capSet c 48 6 v
def capSetRank (c : Cap) (r : Nat) : Cap := capSet c 54 2 (r - 1)
/-- R73: an extent of 262,144 is written as 0. -/
def capSetExt (c : Cap) (d v : Nat) : Cap := capSet c (56 + 18 * d) 18 v
def capSetStr (c : Cap) (d v : Nat) : Cap := capSet c (128 + 24 * d) 24 v
def capSetPerm (c : Cap) (v : Nat) : Cap := capSet c 224 8 v
def capHas (c : Cap) (perm : Nat) : Bool := capPerm c &&& perm == perm
def capUntag (c : Cap) : Cap := { c with tag := false }

/-- Builds a rank-1 capability. -/
def capMake1 (base fmt ext perm scope : Nat) : Cap :=
  ⟨BitVec.ofNat 256 (base + fmt * 2 ^ 48 + ext % 2 ^ 18 * 2 ^ 56 + 2 ^ 74 + 2 ^ 92 + 2 ^ 110 + 2 ^ 128 +
    perm * 2 ^ 224 + scope * 2 ^ 232), true⟩

/-- R76: the element size of a format code; `none` for a reserved code. -/
def elemBits (f : Nat) : Option Nat :=
  match f with
  | 0x13 => some 2
  | 0x10 | 0x11 | 0x12 | 0x1A | 0x1D => some 4
  | 0x0E | 0x0F | 0x15 | 0x18 | 0x19 | 0x1F | 0x21 => some 6
  | 0x00 | 0x01 | 0x02 | 0x0C | 0x0D | 0x14 | 0x16 | 0x17 | 0x1B | 0x1C | 0x1E | 0x20 | 0x32 => some 8
  | 0x03 | 0x04 | 0x09 | 0x0A => some 16
  | 0x05 | 0x06 | 0x08 | 0x0B => some 32
  | 0x07 => some 64
  | 0x30 | 0x31 => some 256
  | _ => none

def fRAW8 : Nat := 0x00
def fI8 : Nat := 0x01
def fN8 : Nat := 0x02
def fFP32 : Nat := 0x08
def fBF16 : Nat := 0x09
def fCAP : Nat := 0x30
def fNODE : Nat := 0x31

/-- R81: the detail word of a capability trap. Of an element number above 31 the low five bits stand in elem (DESIGN CHOICE: log entry 62). -/
def det (step reg dim elem value : Nat) : Dbl :=
  BitVec.ofNat 64 (step * 2 ^ 60 + reg * 2 ^ 56 + dim * 2 ^ 54 + elem % 32 * 2 ^ 49 + value % 2 ^ 48)

/-- R78: an index tuple. -/
structure Idx where
  i0 : Nat
  i1 : Nat
  i2 : Nat
  i3 : Nat
  deriving DecidableEq, Repr

def Idx.get (x : Idx) (d : Nat) : Nat :=
  match d with
  | 0 => x.i0
  | 1 => x.i1
  | 2 => x.i2
  | _ => x.i3

/-- R78: the tuple that two scalar values form. -/
def tuple (a b : Dbl) : Idx := ⟨a.toNat, fieldOf b 0 21, fieldOf b 21 21, fieldOf b 42 21⟩

/-- R79: the element offset of a tuple. -/
def capOff (c : Cap) (x : Idx) : Nat :=
  x.i0 * capStr c 0 + x.i1 * capStr c 1 + x.i2 * capStr c 2 + x.i3 * capStr c 3

/-- R79: the bit address of the element with a tuple. -/
def capBitAddr (c : Cap) (e : Nat) (x : Idx) : Nat := capBase c * 8 + capOff c x * e

/-- The result of a check: a trap's cause and detail, or the value. -/
abbrev Chk (α : Type) := Except (BitVec 8 × Dbl) α

/-- Fails with a cause and detail unless a condition holds. -/
def demand (b : Bool) (cause : BitVec 8) (detail : Dbl) : Chk Unit := if b then .ok () else .error (cause, detail)

/-- R77: a window access stays in the window, berth and core of its base, and within the window's size. -/
def sameWindow (base a : Nat) : Bool :=
  a < 2 ^ 48 && (windowOf a == windowOf base || (isTranslated a && isTranslated base)) &&
    (isTranslated base || (bitsAt a 38 6 == 0 && winBerth a == winBerth base &&
      (windowOf base != 0xC || winCore a == winCore base) &&
      (let low := if windowOf base = 0xC then bitsAt a 0 29 else bitsAt a 0 31
       low < winSize (windowOf base))))

/-- R77, R80: WindowCheck for a control core of a berth. -/
def windowCheck (berth : Nat) (c : Cap) (reg elem first last : Nat) (ctag : Bool) : Chk Unit := do
  demand (sameWindow (capBase c) first) cBOUNDS (det 6 reg 0 elem first)
  demand (sameWindow (capBase c) last) cBOUNDS (det 6 reg 0 elem first)
  if isTranslated first then pure ()
  else do
    demand (windowOf first != 0xF) cPERM (det 7 reg 0 elem first)
    demand (winBerth first == berth) cSCOPE (det 7 reg 0 elem first)
    demand (windowOf first != 0xE || ctag || capFmt c == fFP32) cFORMAT (det 7 reg 0 elem first)

/-- R80 steps 1 to 4: tag, seal, permission, format. -/
def capUse (c : Cap) (reg elem perm : Nat) : Chk Nat := do
  demand c.tag cTAG (det 1 reg 0 elem 0)
  demand (!capSealed c) cSEALED (det 2 reg 0 elem 0)
  demand (capHas c perm) cPERM (det 3 reg 0 elem (perm - (perm &&& capPerm c)))
  match elemBits (capFmt c) with
  | none => .error (cFORMAT, det 4 reg 0 elem (capFmt c))
  | some e => pure e

/-- R80: the index checks, dimension by dimension. -/
def indexCheck (c : Cap) (reg elem extra : Nat) (x : Idx) : Chk Unit := do
  demand (x.i0 + extra < capExt c 0) cBOUNDS (det 5 reg 0 elem x.i0)
  demand (x.i1 < capExt c 1) cBOUNDS (det 5 reg 1 elem x.i1)
  demand (x.i2 < capExt c 2) cBOUNDS (det 5 reg 2 elem x.i2)
  demand (x.i3 < capExt c 3) cBOUNDS (det 5 reg 3 elem x.i3)

/-- R80: CapAccess. `width` is in bits, 0 for `ctag`, whose last byte is the element's first (DESIGN CHOICE: log entry 62). Answers
the bit address and the bits moved. -/
def capAccess (berth : Nat) (c : Cap) (reg elem perm : Nat) (x : Idx) (width : Nat) : Chk (Nat × Nat) := do
  let e ← capUse c reg elem perm
  let raw := capFmt c == fRAW8
  demand (width == 0 || (if raw then (width == 8 || ((width == 16 || width == 32 || width == 64) && capStr c 0 == 1))
    else width == e || (e < 8 && width == 8))) cFORMAT (det 4 reg 0 elem (capFmt c))
  indexCheck c reg elem (if raw && 8 < width then width / 8 - 1 else 0) x
  let bit := capBitAddr c e x
  let w := if width = 0 then 0 else if e < 8 then e else width
  let last := if width = 0 then bit / 8 else (bit + width - 1) / 8
  windowCheck berth c reg elem (bit / 8) last (width == 0)
  demand (!(8 ≤ width && 8 ≤ e) || (bit / 8) % (width / 8) == 0) cALIGN (det 8 reg 0 elem (bit / 8))
  pure (bit, w)

/-- R86: the access of `clc` and `csc`, whose capability has format CAP. -/
def granuleAccess (berth : Nat) (c : Cap) (reg perm : Nat) (x : Idx) : Chk (Nat × Nat) := do
  let _ ← capUse c reg 0 perm
  demand (capFmt c == fCAP) cFORMAT (det 4 reg 0 0 (capFmt c))
  capAccess berth c reg 0 perm x 256

/-- A check as part of a meaning. -/
def liftChk {α : Type} (c : Chk α) : Act α :=
  match c with
  | .ok x => pure x
  | .error (cause, d) => halt (.trap cause d)

end Sys2Proof.Machine
end

