-- ==== Sys2Proof/Machine/Cache.lean ====
section
/-!
DEFINITION. The memory of R230: the home of every location (`State.mem`), the copies a quay's L2 keeps of lines homed at
the other quay, and each berth's L1. A line held in a cache says which of its 64 bytes it holds and which of them it alone
has written. A release writes dirty bytes towards the home, an acquire drops clean ones (R238).
-/
namespace Sys2Proof.Machine

open Sys2Proof

/-- Bytes `off` to `off + n - 1` of a line. -/
def maskRange (off n : Nat) : BitVec 64 := BitVec.ofNat 64 ((2 ^ n - 1) * 2 ^ off)

/-- The bits of the bytes that a mask names. -/
def maskBits (m : BitVec 64) : BitVec 512 :=
  BitVec.ofNat 512 ((List.range 64).foldr (fun i acc => (if m.getLsbD i then 255 else 0) + 256 * acc) 0)

/-- The bytes of `new` where the mask names them, the others from `old`. -/
def mergeLine (old new : BitVec 512) (m : BitVec 64) : BitVec 512 :=
  (old &&& ~~~ maskBits m) ||| (new &&& maskBits m)

/-- The home bytes of a line. -/
def memLine (s : State) (line : Nat) : BitVec 512 := BitVec.ofNat 512 (natOfBytes (memRead s.mem (line * 64) 64))

/-- R359: writes to a bad line are remembered, and the line clears once each byte has been written. -/
def badWrite (t : List (Nat × List Nat)) (key n : Nat) : List (Nat × List Nat) :=
  t.filterMap fun e =>
    if key < e.1 * 64 + 64 ∧ e.1 * 64 < key + n then
      let w := (List.range 64).foldl (fun acc i => if key ≤ e.1 * 64 + i ∧ e.1 * 64 + i < key + n then setInsert acc i else acc) e.2
      if w.length = 64 then none else some (e.1, w)
    else some e

/-- R359: whether a range of locations meets a line that is marked bad. -/
def isBad (s : State) (key n : Nat) : Bool :=
  [0, 1].any fun q => (quayOf s q).badLines.any fun e => decide (key < e.1 * 64 + 64 ∧ e.1 * 64 < key + n)

/-- R358: the detail word of UNCORRECTABLE: 0 data read, 1 owner reply, 2 fetch, 3 register file. -/
def errorDetail (src addr : Nat) : Dbl := BitVec.ofNat 64 (src * 2 ^ 62 + addr % 2 ^ 48)

/-- R242: bytes that the uncompressed view writes in an imaged block. -/
def plainMark (t : Tab Block) (key n : Nat) : Tab Block :=
  t.map fun e =>
    if key < e.1 * 256 + 256 ∧ e.1 * 256 < key + n then
      (e.1, { e.2 with plain := (List.range n).foldl (fun acc i =>
        if e.1 * 256 ≤ key + i ∧ key + i < e.1 * 256 + 256 then setInsert acc (key + i - e.1 * 256) else acc) e.2.plain })
    else e

/-- A write that performs at the home of its locations: the bytes, and the tags of every granule it meets cleared (R75). -/
def homeWrite (s : State) (key : Nat) (bs : List Byte) : State :=
  let s := { s with
    mem := memWrite s.mem key bs
    tags := setClearRange s.tags (key / 32) ((key + bs.length + 31) / 32 - key / 32)
    glob := if s.glob.blocks.isEmpty then s.glob else { s.glob with blocks := plainMark s.glob.blocks key bs.length } }
  if (quayOf s 0).badLines.isEmpty && (quayOf s 1).badLines.isEmpty then s
  else [0, 1].foldl (fun s q => setQuay s q { quayOf s q with badLines := badWrite (quayOf s q).badLines key bs.length }) s

/-- R318: the lines of an instruction cache that are of external memory, and of no berth's or partition's own storage. -/
def sharedLines (t : Tab (BitVec 512)) : Tab (BitVec 512) := t.filter fun l => decide (l.1 * 64 < extEnd)

/-- R11: the 64 KiB of an L1, in lines. -/
def l1Lines : Nat := 1024

/-- R133: the units of a partition's split on a slice. -/
def splitUnits (p : Partition) (slice : Nat) : Nat :=
  fieldOf (if slice < 16 then p.split0 else p.split1) (4 * (slice % 16)) 4

/-- R10, R133: the 4 MiB of an L2 slice in lines, less the units of 256 KiB that partitions have as L2-direct memory. -/
def sliceLines (s : State) (slice : Nat) : Nat := 4096 * (16 - ((List.range 16).map fun p => splitUnits (partOf s p) slice).sum)

/-- The slice of a quay that keeps its copy of a line homed at the other quay (DESIGN CHOICE: log entry 16). -/
def copySlice (q line : Nat) : Nat := 16 * q + paSlice (line * 64) % 16

/-- Whether a cache can hold a line: it does, or it has room. A full cache takes no line in until one leaves it, which
`L1_WRITE_BACK` lets happen at any time (DESIGN CHOICE: log entry 16). -/
def lineFits (t : Tab Line) (line cap : Nat) : Bool := (tabFind? t line).isSome || t.length < cap

/-- Whether a quay's L2 can hold a copy of a line: its slice is in run (R383), and holds the line or has room. -/
def l2Fits (s : State) (q line : Nat) : Bool :=
  let t := (quayOf s q).l2
  (sliceOf s (copySlice q line)).power == 0 && ((tabFind? t line).isSome || (t.filter fun e => copySlice q e.1 == copySlice q line).length < sliceLines s (copySlice q line))

/-- A cached line reduced to its dirty bytes; nothing is left of a clean one. -/
def dropClean (t : Tab Line) (line : Nat) : Tab Line :=
  match tabFind? t line with
  | none => t
  | some l => if l.dirty = 0 then tabErase t line else tabPut t line { l with valid := l.dirty }

def dropCleanAll (t : Tab Line) : Tab Line :=
  t.filterMap fun e => if e.2.dirty = 0 then none else some (e.1, { e.2 with valid := e.2.dirty })

/-- The home takes a line's bytes under a mask. -/
def homeMask (s : State) (line : Nat) (data : BitVec 512) (m : BitVec 64) : State :=
  (List.range 64).foldl (fun s i =>
    if m.getLsbD i then homeWrite s (line * 64 + i) [data.extractLsb' (8 * i) 8] else s) s

/-- R230: a quay's L2 writes back the dirty bytes of a copy to the line's home; the copy stays, clean. -/
def l2WriteBack (s : State) (q line : Nat) : State :=
  match tabFind? (quayOf s q).l2 line with
  | none => s
  | some l =>
    if l.dirty = 0 then s
    else homeMask (setQuay s q { quayOf s q with l2 := tabPut (quayOf s q).l2 line { l with dirty := 0 } }) line l.data l.dirty

/-- Bytes performed at a quay's L2: at the home slice for a line homed there, or one that the L2 has no room for, else in the copy. -/
def l2Put (s : State) (q line : Nat) (data : BitVec 512) (m : BitVec 64) : State :=
  if keyQuay (line * 64) = q ∨ l2Fits s q line = false then homeMask s line data m
  else
    let l := tabGet ⟨0, 0, 0⟩ (quayOf s q).l2 line
    setQuay s q { quayOf s q with
      l2 := tabPut (quayOf s q).l2 line ⟨mergeLine l.data data m, l.valid ||| m, l.dirty ||| m⟩ }

/-- R230, R238: a berth's L1 writes back the dirty bytes of a line to the quay's L2; the line stays, clean (DESIGN CHOICE: log entry 16). -/
def l1WriteBack (s : State) (b line : Nat) : State :=
  match tabFind? (berthOf s b).l1 line with
  | none => s
  | some l =>
    if l.dirty = 0 then s
    else l2Put (setBerth s b { berthOf s b with l1 := tabPut (berthOf s b).l1 line { l with dirty := 0 } }) (berthQuay b) line
      l.data l.dirty

/-- A line as a quay's L2 gives it. -/
def l2View (s : State) (q line : Nat) : BitVec 512 :=
  match tabFind? (quayOf s q).l2 line with
  | none => memLine s line
  | some l => mergeLine (memLine s line) l.data l.valid

/-- The L2 of a quay fetches a line homed at the other quay, if it has room. -/
def l2Fetch (s : State) (q line : Nat) : State :=
  if keyQuay (line * 64) = q ∨ l2Fits s q line = false then s
  else
    let d := (tabGet ⟨0, 0, 0⟩ (quayOf s q).l2 line).dirty
    setQuay s q { quayOf s q with l2 := tabPut (quayOf s q).l2 line ⟨l2View s q line, maskRange 0 64, d⟩ }

/-- The L1 of a berth fetches the bytes of a line that it does not hold, if it has room. -/
def l1Fetch (s : State) (b line : Nat) : State :=
  let s := l2Fetch s (berthQuay b) line
  let l := tabGet ⟨0, 0, 0⟩ (berthOf s b).l1 line
  if lineFits (berthOf s b).l1 line l1Lines = false then s
  else setBerth s b { berthOf s b with
    l1 := tabPut (berthOf s b).l1 line ⟨mergeLine (l2View s (berthQuay b) line) l.data l.valid, maskRange 0 64, l.dirty⟩ }

/-- A line as a berth's L1 gives it, or the quay's L2 where the L1 does not hold it. -/
def l1View (s : State) (b line : Nat) : BitVec 512 :=
  match tabFind? (berthOf s b).l1 line with
  | none => l2View s (berthQuay b) line
  | some l => l.data

/-- Everything a berth and its quay have written to a line reaches the home, and the berth's L1 and the quay's L2 forget
the line, so that their next access obtains the home's bytes. -/
def syncHome (s : State) (b line : Nat) : State :=
  let q := berthQuay b
  let s := l2WriteBack (l1WriteBack s b line) q line
  let s := setBerth s b { berthOf s b with l1 := tabErase (berthOf s b).l1 line }
  setQuay s q { quayOf s q with l2 := tabErase (quayOf s q).l2 line }

/-- The clean copies of lines leave both L2s. -/
def dropLines (s : State) (lines : List Nat) : State :=
  [0, 1].foldl (fun s q =>
    if (quayOf s q).l2.isEmpty then s
    else setQuay s q { quayOf s q with l2 := lines.foldl dropClean (quayOf s q).l2 }) s

/-- A write that performs at package scope or wider: at the home, with the copies in both L2s dropped (R230). -/
def wideWrite (s : State) (key : Nat) (bs : List Byte) : State :=
  dropLines (homeWrite s key bs) ((List.range ((key + bs.length + 63) / 64 - key / 64)).map (· + key / 64))

/-- R281: what a unit's write leaves at its place: the bytes of a marked double stay, for no write but a phase operation's reaches it. -/
def sparing (s : State) (key : Nat) (bs : List Byte) : List Byte :=
  if s.phases.any fun e => decide (e.1 < key + bs.length ∧ key < e.1 + 8) then
    bs.zipIdx.map fun e =>
      if s.phases.any fun d => decide (d.1 ≤ key + e.2 ∧ key + e.2 < d.1 + 8) then memByte s.mem (key + e.2) else e.1
  else bs

/-- R281: a write by a unit of the package, which no context or copy issued. -/
def unitWrite (s : State) (key : Nat) (bs : List Byte) : State := wideWrite s key (sparing s key bs)

/-- R242: the home takes the bytes that differ from what it holds. -/
def homeDiff (s : State) (key : Nat) (bs : List Byte) : State :=
  bs.zipIdx.foldl (fun s e => if memByte s.mem (key + e.2) = e.1 then s else homeWrite s (key + e.2) [e.1]) s

/-- R238: Release(scope) by a context of a berth. At berth scope and wider the L1 writes its dirty bytes back to the quay's
L2; at package scope and wider they reach their homes, and the other quay's copies of lines homed here are invalidated (DESIGN CHOICE: log entry 16). -/
def release (s : State) (b scope : Nat) : State :=
  if scope = 0 then s
  else
    let s := (berthOf s b).l1.foldl (fun s e => l1WriteBack s b e.1) s
    if scope < 3 then s
    else
      let q := berthQuay b
      let s := (quayOf s q).l2.foldl (fun s e => l2WriteBack s q e.1) s
      let o := quayOf s (1 - q)
      if o.l2.isEmpty then s
      else setQuay s (1 - q) { o with l2 := o.l2.foldl (fun t e => if keyQuay (e.1 * 64) = q then dropClean t e.1 else t) o.l2 }

/-- R238: Acquire(scope): at quay scope and wider, clean L1 bytes are invalidated (DESIGN CHOICE: log entry 16). -/
def acquire (s : State) (b scope : Nat) : State :=
  if scope < 2 then s else setBerth s b { berthOf s b with l1 := dropCleanAll (berthOf s b).l1 }

/-- The bytes that a piece of an access touches. -/
def pieceBytes (p : Piece) : Nat := (p.bit + p.width + 7) / 8

def pieceMeets (p : Piece) (key n : Nat) : Bool := p.key < key + n && key < p.key + pieceBytes p

/-- Replaces the bits of a piece in the bytes that hold it. -/
def pieceMerge (p : Piece) (old : List Byte) (v : Nat) : List Byte :=
  let o := natOfBytes old
  bytesOf (pieceBytes p) (o - bitsAt o p.bit p.width * 2 ^ p.bit + v % 2 ^ p.width * 2 ^ p.bit)

/-- R359: a piece of a bad line, not every byte of which has been written again; the bytes of a mask, which caches that the reader reads
through have taken, count. -/
def badThrough (s : State) (p : Piece) (taken : BitVec 64) : Bool :=
  let written := ((quayOf s (keyQuay p.key)).badLines.find? fun e => e.1 == p.key / 64).map (·.2)
  let m := BitVec.ofNat 64 ((written.getD []).map fun i => 2 ^ i).sum
  isBad s p.key (pieceBytes p) && !(p.cached && (m ||| taken) == maskRange 0 64)

/-- The bytes of a line that a cache alone holds. -/
def dirtyOf (t : Tab Line) (line : Nat) : BitVec 64 := (tabGet ⟨0, 0, 0⟩ t line).dirty

/-- R359: a core of a berth, which reads through its L1 and its quay's L2, cannot read a piece. -/
def unreadable (s : State) (b : Nat) (p : Piece) : Bool :=
  badThrough s p (dirtyOf (berthOf s b).l1 (p.key / 64) ||| dirtyOf (quayOf s (berthQuay b)).l2 (p.key / 64))

/-- R240, R359: an engine or an instruction cache of a quay, which reads through its L2, cannot read a piece. -/
def engineUnreadable (s : State) (q : Nat) (p : Piece) : Bool := badThrough s p (dirtyOf (quayOf s q).l2 (p.key / 64))

/-- R230, R245: a core of a berth reads a piece. Windows and L2-direct units are read at the storage, translated memory
through the L1, or at its home in ordering revision 1. -/
def readPiece (s : State) (b : Nat) (rev1 : Bool) (p : Piece) : Nat × State :=
  let n := pieceBytes p
  let line := p.key / 64
  let off := p.key % 64
  let take (bs : List Byte) := bitsAt (natOfBytes bs) p.bit p.width
  if p.cached = false then (take (memRead s.mem p.key n), s)
  else if rev1 then
    let s := syncHome s b line
    (take (memRead s.mem p.key n), s)
  else
    let have_ := (tabGet ⟨0, 0, 0⟩ (berthOf s b).l1 line).valid
    let s := if have_ &&& maskRange off n = maskRange off n then s else l1Fetch s b line
    (bitsAt (l1View s b line).toNat (8 * off + p.bit) p.width, s)

/-- R230, R245, R84: a core of a berth writes a piece. A part of a byte is merged at the home, so that concurrent merges into
one byte all take effect. -/
def writePiece (s : State) (b : Nat) (rev1 : Bool) (p : Piece) (v : Nat) : State :=
  let n := pieceBytes p
  let line := p.key / 64
  if p.cached = false then homeWrite s p.key (pieceMerge p (memRead s.mem p.key n) v)
  else if rev1 || p.bit != 0 || p.width % 8 != 0 then
    let s := syncHome s b line
    wideWrite s p.key (pieceMerge p (memRead s.mem p.key n) v)
  else
    let l := tabGet ⟨0, 0, 0⟩ (berthOf s b).l1 line
    let m := maskRange (p.key % 64) n
    let d := BitVec.ofNat 512 (v % 2 ^ p.width * 2 ^ (8 * (p.key % 64)))
    if lineFits (berthOf s b).l1 line l1Lines = false then l2Put s (berthQuay b) line d m
    else setBerth s b { berthOf s b with l1 := tabPut (berthOf s b).l1 line ⟨mergeLine l.data d m, l.valid ||| m, l.dirty ||| m⟩ }

/-- The bits of several pieces, the first lowest (DESIGN CHOICE: log entry 15). -/
def readPieces (s : State) (b : Nat) (rev1 : Bool) : List Piece → Nat × State
  | [] => (0, s)
  | p :: r =>
    let (v, s) := readPiece s b rev1 p
    let (w, s) := readPieces s b rev1 r
    (v + w * 2 ^ p.width, s)

/-- Writes several pieces from the low bits of a value upward (DESIGN CHOICE: log entry 15). -/
def writePieces (s : State) (b : Nat) (rev1 : Bool) : List Piece → Nat → State
  | [], _ => s
  | p :: r, v => writePieces (writePiece s b rev1 p v) b rev1 r (v / 2 ^ p.width)

/-- R87: a granule's bytes and tag, read at the home after the reader's own writes have reached it. -/
def readGranule (s : State) (b : Nat) (p : Piece) : Cap × State :=
  let s := if p.cached then syncHome s b (p.key / 64) else s
  (⟨BitVec.ofNat 256 (natOfBytes (memRead s.mem p.key 32)), s.tags.contains (p.key / 32) && windowOf p.key != 0xE⟩, s)

/-- R87, R75: a granule and its tag written as one. C and W windows and L2-direct units keep no tags (R74, R134). -/
def writeGranule (s : State) (b : Nat) (p : Piece) (c : Cap) : State :=
  let s := if p.cached then syncHome s b (p.key / 64) else s
  let s := wideWrite s p.key (bytesOf 32 c.bits.toNat)
  if c.tag && !isL2Key p.key && windowOf p.key != 0xE && windowOf p.key != 0xF then
    { s with tags := setInsert s.tags (p.key / 32) }
  else s

/-- R240: an engine of a quay reads bytes at its L2. -/
def engineRead (s : State) (q key n : Nat) (cached : Bool) : List Byte :=
  if cached && !(quayOf s q).l2.isEmpty then
    (List.range n).map fun i => (l2View s q ((key + i) / 64)).extractLsb' (8 * ((key + i) % 64)) 8
  else memRead s.mem key n

/-- R383: the home slice of a line of a range of memory is not in run, and serves none of its lines. -/
def sliceIdle (s : State) (key n : Nat) : Bool :=
  s.slices.any (fun e => e.2.power != 0) && (isTranslated key || isL2Key key) &&
    (List.range ((key + n + 63) / 64 - key / 64)).any fun i => (sliceOf s (keySlice ((key / 64 + i) * 64))).power != 0

/-- R135: the fields of a band. -/
def bandCeil (v : Dbl) : Nat := fieldOf v 16 8
def bandFloor (v : Dbl) : Nat := fieldOf v 8 8
def bandWeight (v : Dbl) : Nat := fieldOf v 0 8

/-- R136: a resource never serves a partition whose band gives it nothing: no floor, and no ceiling or no share of the rest (DEDUCED: log entry 41). The
partition manager, 16, has the share of R135 that is nobody's. -/
def barred (s : State) (part i : Nat) : Bool :=
  let b := tabGet 0 (partOf s part).bands i
  decide (part < 16) && bandFloor b == 0 && (bandCeil b == 0 || bandWeight b == 0)

/-- R135: the quay bridge, by the quay that sends over it. -/
def bridgeBarred (s : State) (part quay : Nat) : Bool := barred s part (16 + quay)

/-- R17, R135, R136: a line is not in its home slice, and its memory channel does not serve the partition (DEDUCED: log entry 41). -/
def channelHeld (s : State) (part key : Nat) : Bool :=
  decide (key < extEnd) && barred s part (paChannel key) && !Config.sliceHolds s.clk (key / 64)

/-- R17: the same for any line of a range. -/
def rangeHeld (s : State) (part key n : Nat) : Bool :=
  (List.range 16).any (barred s part) &&
    (List.range ((key + n + 63) / 64 - key / 64)).any fun i => channelHeld s part ((key / 64 + i) * 64)

/-- R135, R136: a message or request between two quays crosses the quay bridge, which does not serve the partition. -/
def crossingHeld (s : State) (part from_ to_ : Nat) : Bool := from_ != to_ && (bridgeBarred s part 0 || bridgeBarred s part 1)

/-- R17, R135, R136: a request of a berth to the home of a location has to cross the quay bridge, or to fetch the line over a memory
channel, that does not serve the partition (DEDUCED: log entry 41). -/
def homeHeld (s : State) (b part key : Nat) : Bool :=
  crossingHeld s part (keyQuay key) (berthQuay b) || channelHeld s part key

/-- R136: a berth reads a piece that neither its L1 nor its quay's L2 holds, and no resource obtains it for the partition. -/
def bandHeld (s : State) (b part : Nat) (ps : List Piece) : Bool :=
  ps.any fun p =>
    let m := maskRange (p.key % 64) (pieceBytes p)
    let lacks := fun (t : Tab Line) => (tabGet ⟨0, 0, 0⟩ t (p.key / 64)).valid &&& m != m
    homeHeld s b part p.key && lacks (berthOf s b).l1 && lacks (quayOf s (berthQuay b)).l2

/-- R241: some copy still owns a line of a range of translated memory, or its home does not serve it (R383). -/
def copyOwns (s : State) (key n : Nat) : Bool :=
  sliceIdle s key n || s.berths.any fun e => e.2.chans.any fun ch => ch.2.any fun c =>
    c.owned.any fun l => decide (l.1 * 64 < key + n ∧ key < l.1 * 64 + 64)

/-- R241: what both L2s alone hold of a line reaches the home. -/
def recallL2 (s : State) (line : Nat) : State := l2WriteBack (l2WriteBack s 0 line) 1 line

/-- The lines of a range in the L2s reach their homes. -/
def recallRange (s : State) (key n : Nat) : State :=
  ((List.range ((key + n + 63) / 64 - key / 64)).map (· + key / 64)).foldl recallL2 s

/-- R87, R240: a granule's bytes and tag as an engine of a quay reads them as one: what its L2 alone holds of the line reaches the
home first, and the copy leaves. -/
def engineGranule (s : State) (q key : Nat) (cached : Bool) : Cap × State :=
  let line := key / 64
  let s := if cached then
      let s := l2WriteBack s q line
      setQuay s q { quayOf s q with l2 := tabErase (quayOf s q).l2 line }
    else s
  (⟨BitVec.ofNat 256 (natOfBytes (memRead s.mem key 32)), s.tags.contains (key / 32) && windowOf key != 0xE⟩, s)

/-- R218, R223: a queued matrix command of a berth uses some bytes: it writes them, or it reads them and the access would
write. -/
def matrixUses (s : State) (b key n : Nat) (write : Bool) : Bool :=
  (berthOf s b).mat.queue.any fun c =>
    let meets := fun (r : Nat × Nat) => decide (r.1 < key + n ∧ key < r.1 + r.2)
    c.writes.any meets || (write && c.reads.any meets)

/-- R218: a queued matrix command of some berth reads or writes bytes. -/
def matrixBusy (s : State) (key n : Nat) : Bool := s.berths.any fun e => matrixUses s e.1 key n true

/-- R218, R241: a copy takes a line at its home: no L2 and no L1 keeps a clean byte of it, so that a later read returns the copy's bytes.
What both L2s alone hold of it reaches the home now, or, where a matrix command uses the line, when the copy writes it, after the command
(DEDUCED: log entry 36). -/
def takeLine (s : State) (line : Nat) : State :=
  let s := dropLines (if matrixBusy s (line * 64) 64 then s else recallL2 s line) [line]
  { s with berths := s.berths.map fun e => (e.1, { e.2 with l1 := dropClean e.2.l1 line }) }

/-- R218, R241: a write to bytes of translated memory waits for a copy that owns them or a matrix command that uses them. -/
def storeHeld (s : State) (key n : Nat) : Bool := copyOwns s key n || matrixBusy s key n

/-- R218: what a quay's L2 alone holds of the line of a piece may reach the home now. -/
def granuleReady (s : State) (q : Nat) (p : Piece) : Bool :=
  !p.cached || dirtyOf (quayOf s q).l2 (p.key / 64) == 0 || !matrixBusy s (p.key / 64 * 64) 64

/-- R136, R241, R383: a unit that is no berth's has to wait for a line of a partition's memory: a copy owns it, a matrix command uses it
and the unit would write, its home slice is not in run, or its channel does not serve the partition. -/
def unitWaits (s : State) (part key n : Nat) (write : Bool) : Bool :=
  (if write then storeHeld s key n else copyOwns s key n) || rangeHeld s part key n

/-- R218, R241: a release by a berth at a scope finds no line to write back that a copy owns, or whose bytes a matrix command reads. -/
def linesReady (s : State) (b scope : Nat) : Bool :=
  let free := fun (e : Nat × Line) => e.2.dirty == 0 || !storeHeld s (e.1 * 64) 64
  scope == 0 || ((berthOf s b).l1.all free && (decide (scope < 3) || (quayOf s (berthQuay b)).l2.all free))

/-- R135, R136: nothing that a berth's L1 and its quay's L2 have to write back crosses a bridge which does not serve the partition the
berth works for (DEDUCED: log entry 41). -/
def crossingsServed (s : State) (b : Nat) : Bool :=
  let free := fun (e : Nat × Line) => match berthPart s b with
    | some part => e.2.dirty == 0 || !crossingHeld s part (keyQuay (e.1 * 64)) (berthQuay b)
    | none => true
  (berthOf s b).l1.all free && (quayOf s (berthQuay b)).l2.all free

/-- R136, R218, R241: a release by a berth at a scope can perform. -/
def releaseReady (s : State) (b scope : Nat) : Bool := linesReady s b scope && (decide (scope < 3) || crossingsServed s b)

/-- R136, R241: what a berth's L1 and its quay's L2 alone hold of a line may reach the home now. -/
def syncReady (s : State) (b line : Nat) : Bool :=
  ((tabGet ⟨0, 0, 0⟩ (berthOf s b).l1 line).dirty == 0 && (tabGet ⟨0, 0, 0⟩ (quayOf s (berthQuay b)).l2 line).dirty == 0) ||
    (!storeHeld s (line * 64) 64 && match berthPart s b with
      | some part => !crossingHeld s part (keyQuay (line * 64)) (berthQuay b)
      | none => true)

/-- R241: the same for the lines of some pieces. -/
def piecesReady (s : State) (b : Nat) (ps : List Piece) : Bool := ps.all fun p => !p.cached || syncReady s b (p.key / 64)

/-- R136, R218, R241: everything that the caches alone hold can reach its home. -/
def cachesReady (s : State) : Bool := s.berths.all fun e => releaseReady s e.1 3

/-- Whether an access must wait for an engine (R223, R241). -/
def engineHolds (s : State) (p : Piece) (write : Bool) : Bool :=
  if isL2Key p.key ∨ isTranslated p.key then
    if write then storeHeld s p.key (pieceBytes p) else copyOwns s p.key (pieceBytes p)
  else matrixUses s (winBerth p.key) p.key (pieceBytes p) write

/-- The pieces that a request of a context still has to access. -/
def bodyPieces : Body → List Piece
  | .load ps _ => ps
  | .clc p _ => [p]
  | .atomic _ _ p _ _ => [p]
  | .ared _ _ es _ => es.map (·.1)
  | .phase _ p _ _ => [p]
  | .store ws _ _ => ws.map (·.1)
  | _ => []

/-- R122, R232: a request has accesses still to perform: a vector reduction each element of which has not been updated, and any other that
its owner has not answered. -/
def performing (r : Req) : Bool :=
  match r.body with
  | .ared _ _ es updated => updated.length < es.length
  | _ => r.reply.isNone

/-- Whether a request only reads. -/
def bodyReads : Body → Bool
  | .load .. => true
  | .clc .. => true
  | _ => false

/-- Whether a request is a plain access (R245). -/
def bodyPlain : Body → Bool
  | .load .. => true
  | .clc .. => true
  | .store .. => true
  | _ => false

/-- R228, R238: a context has accesses for a partition on their way, those that a task of it which has ended left included. -/
def pendingAccesses (s : State) (core ctx part : Nat) : Bool :=
  s.reqs.any fun e => e.2.core == core && e.2.ctx == ctx && e.2.door == 0 && e.2.part == part && !(bodyPieces e.2.body).isEmpty

/-- R238: whether an earlier access of a context is still to perform. -/
def accessOutstanding (s : State) (core ctx : Nat) : Bool := pendingAccesses s core ctx (ctxOf s core ctx).part

/-- R83, R228, R278: an access must wait for an earlier access of its context, in whichever of its tasks, to the same bytes until its
reply has arrived; in ordering revision 1 also for a plain one to the same line of translated memory (R245). -/
def ownConflict (s : State) (core ctx : Nat) (p : Piece) (write : Bool) : Bool :=
  let x := ctxOf s core ctx
  s.reqs.any fun e =>
    e.2.core == core && e.2.ctx == ctx && e.2.door == 0 && e.2.part == x.part &&
      (((write || !bodyReads e.2.body) && (bodyPieces e.2.body).any fun q => pieceMeets q p.key (pieceBytes p)) ||
        (x.rev1 && p.cached && bodyPlain e.2.body && (bodyPieces e.2.body).any fun q => q.cached && q.key / 64 == p.key / 64))

end Sys2Proof.Machine
end

