-- ==== Sys2Proof/Machine/Translate.lean ====
section
/-!
DEFINITION. Translation: the grants (R118), the walk (R116, R117, R119), the TLBs (R121) and the dirty bit (R120).
-/
namespace Sys2Proof.Machine

open Sys2Proof

/-- R118, R359: whether a range lies wholly inside one valid grant of a partition, free of pages that were mapped out. -/
def inGrants (p : Partition) (pa n : Nat) : Bool :=
  !(p.holes.any fun h => decide (h * 65536 < pa + n ∧ pa < (h + 1) * 65536)) && (List.range 8).any fun g =>
    let r := tabGet 0 p.grant g
    let base := fieldOf r 16 24 * 65536
    let size := fieldOf (tabGet 0 p.gsize g) 0 32 * 65536
    bitAt r.toNat 63 && base ≤ pa && pa + n ≤ base + size

/-- R377, R380: a frame in the Quayline window. -/
def isQlPa (pa : Nat) : Bool := 0x8000000000 ≤ pa && pa < 0xC000000000

/-- R118, R377: whether the walker may read a table: it lies wholly inside one grant, and in memory that exists, since the grants are
of physical memory (DEDUCED: log entry 59). -/
def tableGranted (p : Partition) (pa n : Nat) : Bool := decide (pa + n ≤ extEnd) && inGrants p pa n

/-- R118, R377, R380: the same for a leaf's frame, which may lie in the Quayline window too (DEDUCED: log entry 59). -/
def frameGranted (p : Partition) (pa n : Nat) : Bool := (decide (pa + n ≤ extEnd) || isQlPa pa) && inGrants p pa n

/-- A double at its home. -/
def homeDouble (s : State) (key : Nat) : Dbl := BitVec.ofNat 64 (natOfBytes (memRead s.mem key 8))

/-- R117: the fields of a table entry. -/
def pteV (e : Dbl) : Bool := e.getLsbD 0
def pteLeaf (e : Dbl) : Bool := e.getLsbD 1
def pteW (e : Dbl) : Bool := e.getLsbD 2
def pteX (e : Dbl) : Bool := e.getLsbD 3
def pteTag (e : Dbl) : Bool := e.getLsbD 4
def pteD (e : Dbl) : Bool := e.getLsbD 5
def pteMtype (e : Dbl) : Nat := fieldOf e 6 2

/-- R116: the bytes a leaf of a level maps. -/
def leafSize (level : Nat) : Nat :=
  match level with
  | 1 => 2 ^ 30
  | 2 => 2 ^ 21
  | _ => 2 ^ 16

/-- R117, R134: a malformed entry. A set bit among the address bits that R134 gives no meaning counts as one (DESIGN CHOICE: log
entry 62). -/
def pteMalformed (e : Dbl) (level : Nat) : Bool :=
  fieldOf e 40 24 != 0 || pteMtype e ≥ 2 || (pteLeaf e && level == 0) || (!pteLeaf e && level == 3) ||
    (pteLeaf e && (fieldOf e 8 8 != 0 || (pteMtype e == 1 && (level != 3 || fieldOf e 27 13 != 0)) ||
      (pteMtype e == 0 && (fieldOf e 16 24 * 65536) % leafSize level != 0)))

/-- R116: the index of an address at a level. -/
def walkIndex (va level : Nat) : Nat :=
  match level with
  | 0 => bitsAt va 39 9
  | 1 => bitsAt va 30 9
  | 2 => bitsAt va 21 9
  | _ => bitsAt va 16 5

/-- R116, R118: the bytes of a table of a level. -/
def tableSize (level : Nat) : Nat := if level = 3 then 256 else 4096

/-- R116 to R119: the walk from a table at a level, up to the check of the access. Answers the leaf, its level and where it
lies, or the reason and level at which the walk failed. `fuel` is the number of levels left. -/
def walkFrom (s : State) (p : Partition) (va : Nat) : Nat → Nat → Nat → Except (Nat × Nat) (Dbl × Nat × Nat)
  | 0, _, level => .error (6, level)
  | fuel + 1, table, level =>
    if tableGranted p table (tableSize level) = false then .error (4, level)
    else
      let slot := table + 8 * walkIndex va level
      let e := homeDouble s slot
      if isBad s slot 8 then .error (6, level)
      else if pteV e = false then .error (0, level)
      else if pteMalformed e level then .error (6, level)
      else if pteLeaf e then
        if pteMtype e = 0 ∧ frameGranted p (fieldOf e 16 24 * 65536) (leafSize level) = false then .error (4, level)
        else .ok (e, level, slot)
      else walkFrom s p va fuel (fieldOf e 8 32 * 256) (level + 1)

def walk (s : State) (part va : Nat) : Except (Nat × Nat) (Dbl × Nat × Nat) :=
  let p := partOf s part
  walkFrom s p va 4 (fieldOf p.trRoot 8 32 * 256) 0

/-- R121: whether a TLB entry covers a 64 KiB unit of a partition. -/
def tlbHit (part unit : Nat) (e : TlbEntry) : Bool :=
  e.part == part && e.page ≤ unit && unit < e.page + leafSize e.level / 65536

/-- A TLB that keeps at most `n` entries, the newest first (DESIGN CHOICE: log entry 17). -/
def tlbAdd (t : List TlbEntry) (n : Nat) (e : TlbEntry) : List TlbEntry := (e :: t).take n

/-- The leaf for an address: from the berth's TLB, the quay's, or a walk that fills both. -/
def leafFor (s : State) (b part va : Nat) : Except (Nat × Nat) (TlbEntry × State) :=
  let unit := va / 65536
  match (berthOf s b).tlb.find? (tlbHit part unit) with
  | some e => .ok (e, s)
  | none =>
    let q := berthQuay b
    match (quayOf s q).tlb.find? (tlbHit part unit) with
    | some e => .ok (e, setBerth s b { berthOf s b with tlb := tlbAdd (berthOf s b).tlb 64 e })
    | none =>
      match walk s part va with
      | .error f => .error f
      | .ok (leaf, level, slot) =>
        let n := leafSize level / 65536
        let e : TlbEntry := ⟨part, unit / n * n, leaf, level, slot⟩
        let s := setBerth s b { berthOf s b with tlb := tlbAdd (berthOf s b).tlb 64 e }
        .ok (e, setQuay s q { quayOf s q with tlb := tlbAdd (quayOf s q).tlb 4096 e })

/-- R119 step 5: the check of an access (0 load, 1 store or atomic, 2 fetch, 3 tagged store) at a leaf. `remote` says that a
Quayline frame may be used (R380). -/
def leafCheck (p : Partition) (leaf : Dbl) (kind : Nat) (remote : Bool) : Option Nat :=
  let direct := pteMtype leaf = 1
  let ql := isQlPa (fieldOf leaf 16 24 * 65536) && pteMtype leaf = 0
  if ql && !remote then some 4
  else if (kind = 1 ∨ kind = 3) ∧ pteW leaf = false then some 1
  else if kind = 2 ∧ pteX leaf = false then some 2
  else if kind = 3 ∧ (pteTag leaf = false ∨ direct ∨ ql) then some 3
  else if direct ∧ splitUnits p (fieldOf leaf 16 5) * 4 ≤ fieldOf leaf 21 6 then some 5
  else none

/-- R119: the detail word of a page fault. -/
def pageDetail (kind reason level va : Nat) : Dbl :=
  BitVec.ofNat 64 (kind * 2 ^ 62 + reason * 2 ^ 59 + level * 2 ^ 56 + va % 2 ^ 48)

/-- What an address translates to: the location key, whether caches hold it, and whether its page lets tags through. -/
structure Phys where
  key : Nat
  cached : Bool
  tagOk : Bool
  deriving DecidableEq, Repr

/-- The location of an address in a leaf. -/
def leafPhys (part : Nat) (e : TlbEntry) (va : Nat) : Phys :=
  let off := va % leafSize e.level
  if pteMtype e.leaf = 1 then
    ⟨l2Key part (fieldOf e.leaf 16 5) (fieldOf e.leaf 21 6 * 65536 + off), false, false⟩
  else ⟨fieldOf e.leaf 16 24 * 65536 + off, true, pteTag e.leaf⟩

/-- R120: a store through a leaf whose D bit is 0 sets it at the entry's home; the TLBs that hold the leaf follow. -/
def setDirty (s : State) (b : Nat) (e : TlbEntry) : State :=
  if pteD e.leaf then s
  else
    let s := unitWrite s e.slot (bytesOf 8 (homeDouble s e.slot ||| 0x20).toNat)
    let fix := fun (t : List TlbEntry) => t.map fun x => if x.slot = e.slot then { x with leaf := x.leaf ||| 0x20 } else x
    let s := setBerth s b { berthOf s b with tlb := fix (berthOf s b).tlb }
    setQuay s (berthQuay b) { quayOf s (berthQuay b) with tlb := fix (quayOf s (berthQuay b)).tlb }

/-- R118, R119: whether the walk for an address from a table at a level meets a slot that is held before it fails or ends: it reads no
table that is not granted, and goes through no entry that cannot be read or is malformed. -/
def walkMeets (s : State) (p : Partition) (held : Nat → Bool) (va : Nat) : Nat → Nat → Nat → Bool
  | 0, _, _ => false
  | fuel + 1, table, level =>
    let slot := table + 8 * walkIndex va level
    let e := homeDouble s slot
    tableGranted p table (tableSize level) && (held slot ||
      (!isBad s slot 8 && pteV e && !pteMalformed e level && !pteLeaf e &&
        walkMeets s p held va fuel (fieldOf e 8 32 * 256) (level + 1)))

/-- The same from the root of a partition's tables. -/
def walkHeld (s : State) (held : Nat → Bool) (part va : Nat) : Bool :=
  walkMeets s (partOf s part) held va 4 (fieldOf (partOf s part).trRoot 8 32 * 256) 0

/-- R136, R241, R383: an address that no TLB of a berth or its quay holds waits while its walk needs a line that a copy owns, or that its
home slice, or the bridge or channel to it, does not serve. -/
def walkWaits (s : State) (b part va : Nat) : Bool :=
  ((berthOf s b).tlb.find? (tlbHit part (va / 65536))).isNone &&
    ((quayOf s (berthQuay b)).tlb.find? (tlbHit part (va / 65536))).isNone &&
    walkHeld s (fun slot => copyOwns s slot 8 || homeHeld s b part slot) part va

/-- R120, R241, R383: a store has to set the D bit of a leaf whose line is not to be had. -/
def dirtyWaits (s : State) (b part : Nat) (e : TlbEntry) (kind : Nat) : Bool :=
  (kind == 1 || kind == 3) && !pteD e.leaf && (storeHeld s e.slot 8 || homeHeld s b part e.slot)

/-- R119, R357: a store has to set the D bit of a leaf that can no longer be read. -/
def dirtyBad (s : State) (e : TlbEntry) (kind : Nat) : Bool :=
  (kind == 1 || kind == 3) && !pteD e.leaf && isBad s e.slot 8

/-- R136, R241, R383: what a unit that is no berth's needs of a partition's memory for an access of `n` bytes: the walk of the address,
and the bytes. -/
def unitHeld (s : State) (part va n : Nat) (write : Bool) : Bool :=
  walkHeld s (fun slot => unitWaits s part slot 8 write) part va ||
    match walk s part va with
    | .ok (leaf, level, slot) => unitWaits s part (leafPhys part ⟨part, 0, leaf, level, slot⟩ va).key n write
    | .error _ => false


/-- Translates one byte of an access by a berth's agent under a partition. A window address is its own location (DEDUCED: log entry 59). -/
def translate (b part va kind : Nat) (remote : Bool) : Act Phys := fun s =>
  if isTranslated va = false then .ok (⟨va, false, true⟩, s)
  else if walkWaits s b part va then .error (.stall .other)
  else
    match leafFor s b part va with
    | .error (reason, level) => .error (.page reason (pageDetail kind reason level va))
    | .ok (e, s) =>
      match leafCheck (partOf s part) e.leaf kind remote with
      | some reason => .error (.page reason (pageDetail kind reason e.level va))
      | none =>
        if dirtyWaits s b part e kind then .error (.stall .other)
        else if dirtyBad s e kind then .error (.page 6 (pageDetail kind 6 e.level va))
        else .ok (leafPhys part e va, if kind = 1 ∨ kind = 3 then setDirty s b e else s)

/-- R107, R120, R130, R381: a store to a partition's memory by a unit that is no berth's, once D of its leaf is set; or the detail
word of its fault. -/
def unitStore (s : State) (part va : Nat) : Except Dbl (Phys × State) :=
  match walk s part va with
  | .error (reason, level) => .error (pageDetail 1 reason level va)
  | .ok (leaf, level, slot) =>
    match leafCheck (partOf s part) leaf 1 false with
    | some reason => .error (pageDetail 1 reason level va)
    | none =>
      let s := if pteD leaf then s else unitWrite s slot (bytesOf 8 (leaf ||| 0x20).toNat)
      .ok (leafPhys part ⟨part, 0, leaf, level, slot⟩ va, s)

/-- The pieces of `width` bits from a bit address: one for each run of bytes within a line. `fuel` bounds the number of
lines met. -/
def pieces (b part kind : Nat) : Nat → Nat → Nat → Act (List Piece)
  | 0, _, _ => pure []
  | fuel + 1, bit, width =>
    if width = 0 then pure []
    else do
      let here_ := min width (512 - bit % 512)
      let p ← translate b part (bit / 8) kind false
      let r ← pieces b part kind fuel (bit + here_) (width - here_)
      pure (⟨p.key, bit % 8, here_, p.cached⟩ :: r)

end Sys2Proof.Machine
end

