-- ==== Sys2Proof/Machine/Record.lean ====
section
/-!
DEFINITION. The trap record of a context (R347, R348): its bytes and tags, the check of R394, and what a resumption takes
from it (R349). Saving a core (R314) and the debug path (R369) use the same layout.
-/
namespace Sys2Proof.Machine

open Sys2Proof

/-- R347: the position of a register in the register-state field. -/
def statePosX (n : Nat) : Nat := n
def statePosV (phys : Nat) : Nat := if phys < 32 then 32 + phys else 28 + phys
def statePosC (n : Nat) : Nat := 92 + n

def stateCode : RegState → Nat
  | .full => 0
  | .empty => 1
  | .error _ => 2
  | .lost _ => 3

/-- R347: the register states, 2 bits each. -/
def stateBits (x : Ctx) : Nat :=
  let sum := fun (t : Tab RegState) (pos : Nat → Nat) =>
    t.foldl (fun acc e => acc + stateCode e.2 * 4 ^ pos e.1) 0
  sum x.xs statePosX + sum (x.vs.filter fun e => e.1 < 28 || 32 ≤ e.1) statePosV + sum x.cs statePosC

/-- R347: the saved form of an SFU request. -/
def sfuBytes (r : SfuReq) : List Byte :=
  bytesOf 16 r.va.toNat ++ bytesOf 16 r.vd.toNat ++
    bytesOf 8 (r.fn.toNat + r.dst % 64 * 2 ^ 4 + r.mode.toNat * 2 ^ 10 + r.mask.toNat * 2 ^ 16 + r.seed.toNat * 2 ^ 32) ++
    bytesOf 8 0

def kroundOf (x : Ctx) : Nat := x.rmode.toNat + x.seed.toNat * 2 ^ 32

def capBytes (c : Cap) : List Byte := bytesOf 32 c.bits.toNat
def dblBytes (v : Dbl) : List Byte := bytesOf 8 v.toNat

/-- A list cut or filled with zero bytes to a length. -/
def padTo (n : Nat) (bs : List Byte) : List Byte := bs.take n ++ List.replicate (n - bs.length) 0

/-- R347: the capabilities of the record, each with its offset. -/
def recordCaps (x : Ctx) : List (Nat × Cap) :=
  ((List.range 16).map fun n => (0x600 + 32 * n, if n = 0 then Cap.null else tabGet Cap.null x.c n)) ++
  [(0x800, x.pcc), (0x820, x.kcsa), (0x840, x.kcsb),
   (0x860, x.sh0.src), (0x880, x.sh0.dst), (0x8A0, x.sh0.aux), (0x8C0, x.sh1.src), (0x8E0, x.sh1.dst), (0x900, x.sh1.aux)] ++
  ((x.frames.take 8).zipIdx.flatMap fun f =>
    [(0xA00 + 96 * f.2, f.1.pcc), (0xA20 + 96 * f.2, f.1.root), (0xA40 + 96 * f.2, f.1.ret)])

/-- R347: the 4 KiB of the record, given the status double, `ktdetail`, `ktrpc` and rpc. -/
def recordBytes (x : Ctx) (status detail trpc rpc : Dbl) (lease : Nat) : List Byte :=
  let d := fun (n : Nat) => bytesOf 8 n
  let head := dblBytes status ++ dblBytes detail ++ dblBytes trpc ++ dblBytes rpc ++ dblBytes x.ktask ++
    d x.krrb.toNat ++ d x.klc.toNat ++ d x.kec.toNat ++ d (kroundOf x) ++ d x.fflags.toNat ++ d (boolBit x.vtrap) ++
    dblBytes x.kstage ++ dblBytes x.kgroup ++ d x.mcfg.toNat ++ d lease ++
    d (x.nonce.toNat + x.frames.length * 2 ^ 32 + x.sfuSaved.length * 2 ^ 36)
  let states := bytesOf 32 (stateBits x)
  let masks := padTo 16 ((List.range 7).flatMap fun i => bytesOf 2 (tabGet 0 x.m (i + 1)).toNat)
  let popped := padTo 56 (x.popped.flatMap dblBytes) ++ d x.popped.length
  let xs := (List.range 32).flatMap fun n => if n = 0 ∨ 28 ≤ n then d 0 else dblBytes (tabGet 0 x.x n)
  let vs := ((List.range 28).flatMap fun n => bytesOf 16 (tabGet 0 x.v n).toNat) ++
    ((List.range 32).flatMap fun n => bytesOf 16 (tabGet 0 x.v (32 + n)).toNat)
  let caps := ((recordCaps x).take 25).flatMap fun e => capBytes e.2
  let shadows := dblBytes x.sh0.ctl ++ dblBytes x.sh0.mlo ++ dblBytes x.sh0.mhi ++ dblBytes x.sh1.ctl ++ dblBytes x.sh1.mlo ++
    dblBytes x.sh1.mhi
  let fr1 := padTo 160 ((x.frames.take 8).flatMap fun f => dblBytes f.rpc ++ d f.nonce.toNat)
  let fr2 := padTo 768 ((x.frames.take 8).flatMap fun f => capBytes f.pcc ++ capBytes f.root ++ capBytes f.ret)
  let sfu := padTo 768 (x.sfuSaved.flatMap sfuBytes)
  head ++ states ++ masks ++ popped ++ padTo 16 [] ++ xs ++ vs ++ padTo 64 [] ++ caps ++ shadows ++ padTo 16 [] ++
    fr1 ++ fr2 ++ sfu

/-- A record written at a location, bytes and tags as one. -/
def putRecord (s : State) (base : Nat) (x : Ctx) (bs : List Byte) : State :=
  let s := homeWrite s base (sparing s base (padTo 4096 bs))
  { s with tags := (recordCaps x).foldl (fun t e => if e.2.tag then setInsert t ((base + e.1) / 32) else t) s.tags }

/-- R347: where the record of a context lies. -/
def recordBase (k c : Nat) : Nat := localBase k + 0x3C000 + 0x1000 * c

/-- R348: the status double. -/
def statusWord (cause seq otype ch state : Nat) (nested : Bool) : Dbl :=
  BitVec.ofNat 64 (cause % 256 * 2 ^ 48 + seq % 65536 * 2 ^ 32 + otype % 4096 * 2 ^ 20 + ch % 16 * 2 ^ 16 + state * 2 ^ 13 +
    boolBit nested * 2 ^ 12)

/-- A double of a record. -/
def recDouble (s : State) (base off : Nat) : Dbl := homeDouble s (base + off)

/-- A granule of a record with its tag. -/
def recCap (s : State) (base off : Nat) : Cap :=
  ⟨BitVec.ofNat 256 (natOfBytes (memRead s.mem (base + off) 32)), s.tags.contains ((base + off) / 32)⟩

/-- R394: the offset of the first double of the record that fails a check. -/
def recordFault (s : State) (base : Nat) : Option Nat :=
  let d := recDouble s base
  if 4 < fieldOf (d 0x040) 0 3 then some 0x040
  else if 8 < fieldOf (d 0x078) 32 4 then some 0x078
  else
    let n := fieldOf (d 0x078) 36 5
    if 16 < n then some 0x078
    else if 7 < fieldOf (d 0x0E8) 0 3 then some 0x0E8
    else (List.range n).findSome? fun i =>
      let o := 0xD00 + 48 * i
      let w := d (o + 32)
      let dst := fieldOf w 4 6
      if 6 < fieldOf w 0 4 ∨ 4 < fieldOf w 10 3 ∨ (28 ≤ dst ∧ dst < 32) ∨ fieldOf w 13 3 ≠ 0 then some (o + 32)
      else if d (o + 40) ≠ 0 then some (o + 40)
      else none

/-- R357: the offset of the first double of a record that lies on a bad line. -/
def recordBad (s : State) (base : Nat) : Option Nat :=
  if isBad s base 4096 then (List.range 512).findSome? fun i => if isBad s (base + 8 * i) 8 then some (8 * i) else none else none

/-- R394, R357: why a resumption cannot use a record: the cause and the detail of the trap in its place (DESIGN CHOICE: log entry 50). -/
def recordRefused (s : State) (base : Nat) : Option (BitVec 8 × Dbl) :=
  match recordBad s base with
  | some off => some (cUNCORR, errorDetail 0 (base + off))
  | none => (recordFault s base).map fun off => (cILLEGAL, BitVec.ofNat 64 off)

/-- R349: a saved SFU request as the record holds it. -/
def sfuOf (s : State) (base k c i : Nat) : SfuReq :=
  let o := base + 0xD00 + 48 * i
  let w := homeDouble s (o + 32)
  let q := fun (a : Nat) => BitVec.ofNat 128 (natOfBytes (memRead s.mem a 16))
  ⟨k, c, BitVec.ofNat 4 (fieldOf w 0 4), fieldOf w 4 6, q o, q (o + 16), BitVec.ofNat 16 (fieldOf w 16 16),
    BitVec.ofNat 3 (fieldOf w 10 3), BitVec.ofNat 32 (fieldOf w 32 32), 0, (ctxOf s k c).epoch⟩

/-- R349: a register state as restored. An empty register stays empty only when a saved SFU request will fill it; an error
keeps the detail it had, or names the register file (R358) when the record alone says so. -/
def stateOf (code : Nat) (sfu : Bool) (old : RegState) (reg : Nat) : RegState :=
  match code with
  | 0 => .full
  | 1 => if sfu then .empty else .full
  | 2 => match old with
    | .error d => .error d
    | _ => .error (BitVec.ofNat 64 (3 * 2 ^ 62 + reg))
  | _ => match old with
    | .lost d => .lost d
    | _ => .lost 0

/-- Only what differs from full is listed. -/
def statesTab (l : List (Nat × RegState)) : Tab RegState := l.filter fun e => e.2 != .full

/-- R349: the context that a record restores. `ktrap` and its companions, `ktask`, the channel and the start facts stay. -/
def restored (s : State) (k c : Nat) : Ctx :=
  let base := recordBase k c
  let x := ctxOf s k c
  let d := recDouble s base
  let st := natOfBytes (memRead s.mem (base + 0x80) 32)
  let n := fieldOf (d 0x078) 36 5
  let depth := fieldOf (d 0x078) 32 4
  let sfu := (List.range n).map (sfuOf s base k c)
  let capAt := fun (o : Nat) => recCap s base o
  { x with
    mode := .running
    pc := d 0x018
    krrb := BitVec.ofNat 5 (fieldOf (d 0x028) 0 5)
    klc := BitVec.ofNat 32 (fieldOf (d 0x030) 0 32)
    kec := BitVec.ofNat 8 (fieldOf (d 0x038) 0 8)
    rmode := BitVec.ofNat 3 (fieldOf (d 0x040) 0 3)
    seed := BitVec.ofNat 32 (fieldOf (d 0x040) 32 32)
    fflags := BitVec.ofNat 5 (fieldOf (d 0x048) 0 5)
    vtrap := (d 0x050).getLsbD 0
    kstage := d 0x058
    kgroup := d 0x060
    mcfg := BitVec.ofNat 6 (fieldOf (d 0x068) 0 6)
    leaseSaved := BitVec.ofNat 8 (fieldOf (d 0x070) 0 8)
    nonce := BitVec.ofNat 32 (fieldOf (d 0x078) 0 32)
    frames := (List.range depth).map fun i =>
      ⟨capAt (0xA00 + 96 * i), setField 0 0 48 (fieldOf (d (0x960 + 16 * i)) 0 48), capAt (0xA20 + 96 * i), capAt (0xA40 + 96 * i),
        BitVec.ofNat 32 (fieldOf (d (0x968 + 16 * i)) 0 32)⟩
    sfuSaved := sfu
    m := (List.range 7).map fun i => (i + 1, BitVec.ofNat 16 (natOfBytes (memRead s.mem (base + 0xA0 + 2 * i) 2)))
    popped := (List.range (fieldOf (d 0x0E8) 0 3)).map fun i => d (0x0B0 + 8 * i)
    x := (List.range 27).map fun i => (i + 1, d (0x108 + 8 * i))
    v := ((List.range 28).map fun i => (i, BitVec.ofNat 128 (natOfBytes (memRead s.mem (base + 0x200 + 16 * i) 16)))) ++
      ((List.range 32).map fun i => (32 + i, BitVec.ofNat 128 (natOfBytes (memRead s.mem (base + 0x3C0 + 16 * i) 16))))
    c := (List.range 15).map fun i => (i + 1, capAt (0x620 + 32 * i))
    xs := statesTab ((List.range 27).map fun i =>
      (i + 1, stateOf (bitsAt st (2 * statePosX (i + 1)) 2) false (tabGet .full x.xs (i + 1)) (i + 1)))
    vs := statesTab (((List.range 28) ++ (List.range 32).map (· + 32)).map fun i =>
      (i, stateOf (bitsAt st (2 * statePosV i) 2) (sfu.any fun r => r.dst == i) (tabGet .full x.vs i) i))
    cs := statesTab ((List.range 15).map fun i =>
      (i + 1, stateOf (bitsAt st (2 * statePosC (i + 1)) 2) false (tabGet .full x.cs (i + 1)) (i + 1)))
    pcc := capAt 0x800
    rev1 := capFmt (capAt 0x800) == fN8
    kcsa := capAt 0x820
    kcsb := capAt 0x840
    sh0 := ⟨capAt 0x860, capAt 0x880, capAt 0x8A0, d 0x920, d 0x928, d 0x930⟩
    sh1 := ⟨capAt 0x8C0, capAt 0x8E0, capAt 0x900, d 0x938, d 0x940, d 0x948⟩ }

end Sys2Proof.Machine
end

