-- ==== Sys2Proof/Machine/Ops.lean ====
section
/-!
DEFINITION. The operations that meanings share: reading and writing registers and link ports (R49 to R54), counting and
tracing (R372, R374), interrupts (R137), page faults (R123 to R128), TAKING A TRAP and RESUMING from one (R345 to R354),
ending a task (R35), and running one instruction.
-/
namespace Sys2Proof.Machine

open Sys2Proof

/-! ### Registers and link ports -/

/-- R355: the detail of EMPTY_TRAP. -/
def emptyDetail (file reg : Nat) : Dbl := BitVec.ofNat 64 (reg + 256 * file)

/-- R355: the detail of NO_LINK. -/
def linkDetail (dir : Nat) (vec fwd : Bool) : Dbl := BitVec.ofNat 64 (dir + 4 * boolBit vec + 8 * boolBit fwd)

/-- The key of an inbound queue. -/
def linkKey (dir : Nat) (vec : Bool) : Nat := if vec then 4 + dir else dir

/-- R14, R64 step 3: a link-port operand, and its forward target, must be connected. -/
def linkCheck (dir : Nat) (vec fwd : Bool) : Act Unit := do
  let k ← hereId
  check (neighbour k dir).isSome cNOLINK (linkDetail dir vec false)
  if fwd then check (neighbour k (opposite dir)).isSome cNOLINK (linkDetail (opposite dir) vec true) else pure ()

/-- R51, R313: whether a berth holds a partition saved while another runs there, so that a push finds the saved queue. -/
def heldSaved (s : State) (part b : Nat) : Bool :=
  berthPart s b != some part && (berthOf s b).saved.any fun x => x.part == part

/-- R313: a core as a berth holds it saved for a partition. -/
def savedCore (s : State) (part n : Nat) : Core :=
  match (berthOf s (coreBerth n)).saved.find? fun x => x.part == part with
  | some x => tabGet Core.reset x.cores n
  | none => Core.reset

def setSavedCore (s : State) (part n : Nat) (c : Core) : State :=
  let y := berthOf s (coreBerth n)
  setBerth s (coreBerth n) { y with saved := y.saved.map fun x => if x.part = part then { x with cores := tabPut x.cores n c } else x }

/-- R50, R51: the inbound queue of a core that a push of a partition's task reaches. -/
def inboundQueue (s : State) (part n key : Nat) : List LinkEntry :=
  tabGet [] (if heldSaved s part (coreBerth n) then savedCore s part n else coreOf s n).links key

/-- R8: what an instruction that waits for its owner's verdict popped. -/
def bodyBack : Body → List (Nat × Quad)
  | .store _ _ back => back
  | .net _ _ _ back => back
  | _ => []

/-- R8, R281, R328: values popped from an inbound queue by instructions that may still have to put them back. -/
def heldPops (s : State) (n key : Nat) : Nat :=
  (s.reqs.map fun e => if e.2.core = n then ((bodyBack e.2.body).filter fun p => p.1 == key).length else 0).sum

/-- R50: whether a push finds no room in an inbound queue. -/
def queueFull (s : State) (part n key : Nat) : Bool := 4 ≤ (inboundQueue s part n key).length + heldPops s n key

/-- R50, R51: that queue becomes another. -/
def setInbound (s : State) (part n key : Nat) (q : List LinkEntry) : State :=
  let put := fun (c : Core) => { c with links := tabPut c.links key q }
  if heldSaved s part (coreBerth n) then setSavedCore s part n (put (savedCore s part n)) else setCore s n (put (coreOf s n))

/-- R50, R51: an entry joins that queue. -/
def joinQueue (s : State) (part n key : Nat) (e : LinkEntry) : State := setInbound s part n key (inboundQueue s part n key ++ [e])

/-- R50, R51, R54: an entry joins a neighbour's queue, or the instruction stalls while that queue is full. -/
def intoLink (dir : Nat) (vec : Bool) (e : LinkEntry) : Act Unit := do
  let s ← get
  match neighbour s.cur.core dir with
  | none => halt (.trap cNOLINK (linkDetail dir vec false))
  | some n =>
    let part := (← here).part
    let key := linkKey (opposite dir) vec
    if queueFull s part n key then halt (.stall .link) else set (joinQueue s part n key e)

/-- R50: pushes a value, or stalls while the neighbour's queue is full. -/
def pushLink (dir : Nat) (vec : Bool) (v : Quad) : Act Unit := intoLink dir vec (.flying v)

/-- R54: reserves the next entry of a neighbour's queue for a request. -/
def reserveLink (dir : Nat) (vec : Bool) (req : Nat) : Act Unit := intoLink dir vec (.reserved req)

/-- R54, R313: a queue that has an entry which a request reserved changes, the live one or that of a saved core. -/
def changeQueue (s : State) (n key id : Nat) (live saved : List LinkEntry → List LinkEntry) : State :=
  let has := fun (c : Core) => (tabGet [] c.links key).contains (.reserved id)
  let put := fun (f : List LinkEntry → List LinkEntry) (c : Core) => { c with links := tabPut c.links key (f (tabGet [] c.links key)) }
  match (berthOf s (coreBerth n)).saved.find? fun x => has (tabGet Core.reset x.cores n) with
  | some x => setSavedCore s x.part n (put saved (tabGet Core.reset x.cores n))
  | none => setCore s n (put live (coreOf s n))

/-- R54: the entry of a queue that a request reserved is filled; it can be popped at once, or once its core is restored. -/
def fillEntry (s : State) (n key id : Nat) (e : LinkEntry) : State :=
  let into := fun (e : LinkEntry) (q : List LinkEntry) => q.map fun x => if x = .reserved id then e else x
  changeQueue s n key id (into e) (into (match e with
    | .ready v => .flying v
    | x => x))

/-- R197: the entry that a discarded request reserved leaves its queue (DEDUCED: log entry 28). -/
def dropEntry (s : State) (n key id : Nat) : State :=
  changeQueue s n key id (fun q => q.filter (· != .reserved id)) fun q => q.map fun x => if x = .reserved id then .gone else x

/-- R8: the values that an instruction popped go back to the heads of their queues, its later pops first. -/
def putBack (s : State) (k : Nat) (back : List (Nat × Quad)) : State :=
  back.reverse.foldl (fun s e =>
    let c := coreOf s k
    setCore s k { c with links := tabPut c.links e.1 (.ready e.2 :: tabGet [] c.links e.1) }) s

/-- R8, R52: what the executing instruction has just pushed is a reserved entry until the verdict on it. -/
def holdPushed (dir id : Nat) : Act Unit := do
  let s ← get
  match neighbour s.cur.core dir with
  | none => pure ()
  | some n =>
    let part := (← here).part
    let key := linkKey (opposite dir) false
    set (setInbound s part n key ((inboundQueue s part n key).dropLast ++ [.reserved id]))

/-- R50, R54: pops a port. An empty queue stalls, or traps when the trap bit is set; a reserved entry is waited for. -/
def popLink (dir : Nat) (vec : Bool) (trapBit : Bool) (reg : Nat) : Act Quad := do
  let s ← get
  let c := coreOf s s.cur.core
  let key := linkKey dir vec
  match tabGet [] c.links key with
  | .ready v :: r => do
    set (setCore s s.cur.core { c with links := tabPut c.links key r })
    pure v
  | .reserved _ :: _ => halt (.stall .link)
  | .bad lost d :: _ => halt (.trap (if lost then cLOST else cUNCORR) d)
  | _ => if trapBit then halt (.trap cEMPTY (emptyDetail (boolBit vec) reg)) else halt (.stall .link)

/-- R52: pops a port and, when the operand forwards, pushes the value out of the opposite side in the same step. The room for the push is
awaited first, also where the inbound queue is empty and the trap bit is set (DESIGN CHOICE: log entry 28). -/
def popForward (dir : Nat) (vec fwd trapBit : Bool) (reg : Nat) : Act Quad := do
  if fwd then do
    let s ← get
    match neighbour s.cur.core (opposite dir) with
    | none => halt (.trap cNOLINK (linkDetail (opposite dir) vec true))
    | some n =>
      if queueFull s (← here).part n (linkKey dir vec) then halt (.stall .link)
      else do
        let v ← popLink dir vec trapBit reg
        pushLink (opposite dir) vec v
        pure v
  else popLink dir vec trapBit reg

/-- R54, R279, R349, R361: a register must be full to be read: an empty one stalls or traps, one in an error state reports
its error. -/
def needFull (st : RegState) (trapBit : Bool) (file reg : Nat) : Act Unit :=
  match st with
  | .full => pure ()
  | .empty => if trapBit then halt (.trap cEMPTY (emptyDetail file reg)) else halt (.stall .empty)
  | .error d => halt (.trap cUNCORR d)
  | .lost d => halt (.trap cLOST d)

/-- R9, R49: ReadX of a scalar register. -/
def readX (r : BitVec 5) (trapBit fwd : Bool) : Act Dbl := do
  let n := r.toNat
  if n = 0 then pure 0
  else if 28 ≤ n then do
    let v ← popForward (n - 28) false fwd trapBit n
    pure (v.extractLsb' 0 64)
  else do
    let x ← here
    needFull (tabGet .full x.xs n) trapBit 0 n
    pure (tabGet 0 x.x n)

/-- Marks a scalar register full with a value. -/
def putX (x : Ctx) (n : Nat) (v : Dbl) : Ctx := { x with x := tabPut x.x n v, xs := tabErase x.xs n }

/-- R54: an instruction that writes a register which an earlier producer has yet to fill waits for it. -/
def waitFilled (st : RegState) : Act Unit := if st = .empty then halt (.stall .empty) else pure ()

/-- R9, R49: WriteX of a scalar register. -/
def writeX (r : BitVec 5) (v : Dbl) : Act Unit := do
  let n := r.toNat
  if n = 0 then pure ()
  else if 28 ≤ n then pushLink (n - 28) false (v.setWidth 128)
  else do
    let x ← here
    waitFilled (tabGet .full x.xs n)
    putHere (putX x n v)

/-- R53: the physical vector register that a number names. -/
def physV (x : Ctx) (n : Nat) : Nat := if n < 32 then n else 32 + (n - 32 + x.krrb.toNat) % 32

/-- R9, R53: ReadX of a vector register, tested against `kempty`. -/
def readV (r : BitVec 6) : Act Quad := do
  let x ← here
  let n := r.toNat
  if 28 ≤ n ∧ n < 32 then popLink (n - 28) true x.vtrap n
  else do
    needFull (tabGet .full x.vs (physV x n)) x.vtrap 1 n
    pure (tabGet 0 x.v (physV x n))

def putV (x : Ctx) (phys : Nat) (v : Quad) : Ctx := { x with v := tabPut x.v phys v, vs := tabErase x.vs phys }

/-- R9: WriteX of a vector register. -/
def writeV (r : BitVec 6) (v : Quad) : Act Unit := do
  let x ← here
  let n := r.toNat
  if 28 ≤ n ∧ n < 32 then pushLink (n - 28) true v
  else do
    waitFilled (tabGet .full x.vs (physV x n))
    putHere (putV x (physV x n) v)

/-- R49, R54: a capability register; an empty one always stalls. -/
def readC (r : Nat) : Act Cap := do
  if r = 0 then pure Cap.null
  else do
    let x ← here
    needFull (tabGet .full x.cs r) false 2 r
    pure (tabGet Cap.null x.c r)

def putC (x : Ctx) (n : Nat) (v : Cap) : Ctx := { x with c := tabPut x.c n v, cs := tabErase x.cs n }

/-- R49: a write to c0 is discarded. -/
def writeC (r : Nat) (v : Cap) : Act Unit := do
  if r = 0 then pure ()
  else do
    let x ← here
    waitFilled (tabGet .full x.cs r)
    putHere (putC x r v)

/-- R49, R357: m0 reads all ones; a mask register with an uncorrectable error traps its reader. -/
def readM (r : BitVec 3) : Act (BitVec 16) := do
  if r = 0 then pure 0xFFFF
  else do
    let x ← here
    needFull (tabGet .full x.ms r.toNat) false 2 r.toNat
    pure (tabGet 0 x.m r.toNat)

/-- R49: a write to m0 is discarded. -/
def writeM (r : BitVec 3) (v : BitVec 16) : Act Unit := do
  if r = 0 then pure () else modHere fun x => { x with m := tabPut x.m r.toNat v, ms := tabErase x.ms r.toNat }

/-- R54: marks a scalar destination of a request empty, or reserves the entry of the port it names. -/
def claimX (r : BitVec 5) (req : Nat) : Act Dest := do
  let n := r.toNat
  if n = 0 then pure .none
  else if 28 ≤ n then do
    reserveLink (n - 28) false req
    pure (.port (n - 28) false)
  else do
    let x ← here
    waitFilled (tabGet .full x.xs n)
    putHere { x with xs := tabPut x.xs n .empty }
    pure (.x n)

/-- R54: the same for a vector destination. -/
def claimV (r : BitVec 6) (req : Nat) : Act Dest := do
  let x ← here
  let n := r.toNat
  if 28 ≤ n ∧ n < 32 then do
    reserveLink (n - 28) true req
    pure (.port (n - 28) true)
  else do
    waitFilled (tabGet .full x.vs (physV x n))
    putHere { x with vs := tabPut x.vs (physV x n) .empty }
    pure (.v (physV x n))

/-- R54: the same for a capability destination. -/
def claimC (r : Nat) : Act Dest := do
  if r = 0 then pure .none
  else do
    let x ← here
    waitFilled (tabGet .full x.cs r)
    putHere { x with cs := tabPut x.cs r .empty }
    pure (.c r)

/-- R364: how many places a request takes in the home orders of its locations. -/
def bodyPlaces : Body → Nat
  | .atomic .. => 1
  | .ared _ _ es _ => es.length
  | .phase .. => 1
  | _ => 0

/-- R364: a context numbers its requests to owners, one number for each place. -/
def numberRequest (s : State) (k c : Nat) (body : Body) : State :=
  if bodyPlaces body = 0 then s else setCtx s k c { ctxOf s k c with reqNum := (ctxOf s k c).reqNum + bodyPlaces body }

/-- Sends a request to its owner. -/
def request (dst : Dest) (addr : Dbl) (body : Body) : Act Unit := do
  let s ← get
  let x := ctxOf s s.cur.core s.cur.ctx
  let r : Req := ⟨s.cur.core, s.cur.ctx, x.epoch, x.part, dst, addr, body, none, 0, false, true, x.reqNum, 0⟩
  set { numberRequest s s.cur.core s.cur.ctx body with reqs := tabPut s.reqs s.nextReq r, nextReq := s.nextReq + 1 }

/-- R247, R249: the entries of a send queue that are taken or reserved. -/
def sendQueued (s : State) (k vn : Nat) : Nat :=
  (tabGet [] (coreOf s k).sendq vn).length + ((coreOf s k).ctxs.filter fun e => e.2.sendHold == some vn).length

/-- R45, R277, R297: a request enters the core's request send queue, and the instruction stalls while that is full; its owner accepts
it when it leaves the queue. -/
def requestQueued (dst : Dest) (addr : Dbl) (body : Body) : Act Unit := do
  let s ← get
  let k := s.cur.core
  if 8 ≤ sendQueued s k 0 then halt (.stall .other)
  else do
    let x := ctxOf s k s.cur.ctx
    let c := coreOf s k
    let f : Flight := ⟨0, [], Cap.null, x.part, .request s.nextReq, .core k, k, none, none, false, 0, 0⟩
    let r : Req := ⟨k, s.cur.ctx, x.epoch, x.part, dst, addr, body, none, 0, false, false, x.reqNum, 0⟩
    let s := setCore s k { c with sendq := tabPut c.sendq 0 (tabGet [] c.sendq 0 ++ [f]) }
    set { numberRequest s k s.cur.ctx body with reqs := tabPut s.reqs s.nextReq r, nextReq := s.nextReq + 1 }

/-- Whether a request or a started SFU operation of a context is still to be delivered (DEDUCED: log entry 18). -/
def outstanding (s : State) (k c : Nat) : Bool :=
  let mine := fun (r : SfuReq) => r.core == k && r.ctx == c && r.epoch == (ctxOf s k c).epoch
  s.reqs.any (fun e => e.2.core == k && e.2.ctx == c && e.2.door == 0 && e.2.epoch == (ctxOf s k c).epoch) ||
    (berthOf s (coreBerth k)).sfuRun.any mine

/-- R54: an earlier producer of a context has yet to deliver. -/
def undelivered (s : State) (k c : Nat) : Bool :=
  let x := ctxOf s k c
  outstanding s k c || !x.sfuSaved.isEmpty || (berthOf s (coreBerth k)).sfuQ.any (fun r => r.core == k && r.ctx == c && r.epoch == x.epoch) ||
    x.xs.any (fun e => e.2 == .empty) || x.vs.any (fun e => e.2 == .empty) || x.cs.any fun e => e.2 == .empty

/-- R100, R101, R279: WaitDelivered. A failed acknowledgement is reported here. -/
def waitDelivered : Act Unit := do
  let s ← get
  if undelivered s s.cur.core s.cur.ctx then halt (.stall .other)
  else
    match (← here).ackErr with
    | some (cause, d) => halt (.trap cause d)
    | none => pure ()

/-! ### Counting, tracing, interrupts -/

/-- R374: the selectors of a core count an event of a context. -/
def countEvent (s : State) (k ctx event n : Nat) : State :=
  let c := coreOf s k
  if c.obs.isEmpty || (berthOf s (coreBerth k)).dbg.halted then s
  else
    let bump := fun (t : Tab Dbl) (i : Nat) =>
      let sel := tabGet 0 t (0x108 + i)
      if bitAt sel.toNat 16 && bitAt sel.toNat (20 + ctx) && fieldOf sel 0 16 == event then
        tabPut t (0x100 + i) (BitVec.ofNat 64 (((tabGet 0 t (0x100 + i)).toNat + n) % 2 ^ 48))
      else t
    setCore s k { c with obs := (List.range 8).foldl bump c.obs }

/-- R372: a trace record of a berth, if tracing is enabled and a place is free (DEDUCED: log entries 46, 56). -/
def traceRecord (s : State) (b type cause core ctx ch : Nat) (d2 d3 : Dbl) : State :=
  let x := berthOf s b
  if x.dbg.ctl.getLsbD 6 = false then s
  else
    let cap := 2 ^ (fieldOf x.dbg.trace 0 4 + 7)
    let full := x.dbg.trace.getLsbD 4 = false ∧ cap ≤ x.dbg.traceAt + x.traceQ.length
    if 16 ≤ x.traceQ.length ∨ full then
      setBerth s b { x with dbg := { x.dbg with lost := if x.dbg.lost = 0xFFFFFFFF then x.dbg.lost else x.dbg.lost + 1 } }
    else
      let w1 := type * 2 ^ 56 + cause * 2 ^ 48 + core * 2 ^ 36 + ctx * 2 ^ 34 + ch * 2 ^ 30
      setBerth s b { x with traceQ := x.traceQ ++
        [BitVec.ofNat 256 (s.clk % 2 ^ 64 + w1 * 2 ^ 64 + d2.toNat * 2 ^ 128 + d3.toNat * 2 ^ 192)] }

/-- R370: a berth halts; with xtout it drives the cross-trigger. -/
def haltBerth (s : State) (b why core ctx : Nat) : State :=
  let x := berthOf s b
  if x.dbg.halted then s
  else
    let s := traceRecord s b 6 0 core ctx (ctxOf s core ctx).ch.toNat (ctxOf s core ctx).pc (ctxOf s core ctx).ktask
    let x := berthOf s b
    let s := setBerth s b { x with dbg := { x.dbg with halted := true, why := BitVec.ofNat 3 why, haltedAt := s.clk } }
    if x.dbg.ctl.getLsbD 5 then
      let t := (s.glob.xtrig.filter fun t => decide (s.clk ≤ t + 64)).getD s.clk
      { s with glob := { s.glob with xtrig := some t } }
    else s

/-- R137: raises a source of the cause table. -/
def raiseIrq (s : State) (src owner : Nat) : State :=
  let i := tabGet Irq.reset s.glob.irq src
  let i := if i.pend then i else { i with pend := true, owner := BitVec.ofNat 4 owner }
  { s with glob := { s.glob with irq := tabPut s.glob.irq src i } }

/-- R396: raises source k of a partition. -/
def raisePart (s : State) (p k : Nat) : State := raiseIrq s (32 * p + k) p

/-- R105: a map word could not be read. -/
def mapError (s : State) (part : Nat) : State :=
  let p := partOf s part
  raisePart (setPart s part { p with dr := { p.dr with err := true } }) part 1

/-- R364, R365: the log that an entry belongs to: arrivals of a core, atomics of an owner, the harbourmaster's choices. -/
def logOf : LogEntry → Nat × Nat
  | .arrival core _ _ _ _ _ => (0, core)
  | .atomic loc _ _ _ => (1, if windowOf loc = 0xC ∧ !isL2Key loc then 32 + 4 * winBerth loc + winCore loc else keySlice loc)
  | _ => (2, 0)

/-- R364: the eight bytes of the n-th log entry of an interval reach the log area, if its page can be written (DESIGN CHOICE: log entry 10). -/
def writeLog (s : State) (part n : Nat) : State :=
  let c := (partOf s part).ck
  let va := fieldOf c.log 16 32 * 65536 + 8 * n
  if fieldOf c.log 0 12 * 2 ^ 20 < 8 * n + 8 then s
  else
    match unitStore s part va with
    | .error _ => s
    | .ok (p, t) => { unitWrite t p.key (dblBytes (Config.logWord s.freeCtr)) with freeCtr := s.freeCtr + 1 }

/-- R136, R241, R383: the log's writer has to wait for the line of the n-th entry. -/
def logHeld (s : State) (part n : Nat) : Bool :=
  let c := (partOf s part).ck
  decide (8 * n + 8 ≤ fieldOf c.log 0 12 * 2 ^ 20) && unitHeld s part (fieldOf c.log 16 32 * 65536 + 8 * n) 8 true

/-- R395: the device has put an entry into a queue or ring that lies in a partition's memory: its bytes become what the device keeps
there, in chunks of 512 bytes; a chunk that cannot be written, or not now (R136, R241, R383), keeps its bytes (DESIGN CHOICE: log entry 33). -/
def touchRing (s : State) (part va size : Nat) : State :=
  let n := s.freeCtr
  (List.range (size / 512)).foldl (fun s i =>
    if unitHeld s part (va + 512 * i) 512 true then s
    else
      match unitStore s part (va + 512 * i) with
      | .error _ => s
      | .ok (p, t) => unitWrite t p.key (padTo 512 (Config.ringBytes n i))) { s with freeCtr := n + 1 }

/-- R364, R365: an ordered event of a partition is logged between checkpoints; in replay it happens only as its log's next
entry. -/
def ordered (part : Nat) (e : LogEntry) : Act Unit := do
  let s ← get
  let p := partOf s part
  if p.ck.ctl.getLsbD 1 then
    match p.ck.replaying.find? fun x => logOf x == logOf e with
    | none => pure ()
    | some x => do
      need (x == e)
      set (setPart s part { p with ck := { p.ck with replaying := p.ck.replaying.erase e } })
  else if p.ck.ctl.getLsbD 0 then do
    need (!logHeld s part p.ck.entries.length)
    set (setPart (writeLog s part p.ck.entries.length) part { p with ck := { p.ck with entries := p.ck.entries ++ [e] } })
  else pure ()

/-- R364, R365: a request, or an element of a vector reduction, takes its place in the home order of a location. -/
def orderedAtomic (r : Req) (key elem : Nat) : Act Unit := ordered r.part (.atomic key r.core r.ctx (r.num + elem))

/-! ### Messages -/

/-- R24: fields of a header. -/
def hdrDst (h : Dbl) : Nat := fieldOf h 0 9
def hdrLogical (h : Dbl) : Bool := h.getLsbD 9
def hdrCh (h : Dbl) : Nat := fieldOf h 10 4
def hdrVn (h : Dbl) : Nat := fieldOf h 14 2
def hdrN (h : Dbl) : Nat := fieldOf h 16 3
def hdrCapword (h : Dbl) : Bool := h.getLsbD 19
def hdrSrc (h : Dbl) : Nat := fieldOf h 20 9
def hdrRch (h : Dbl) : Nat := fieldOf h 29 4
def hdrBounce (h : Dbl) : Bool := h.getLsbD 33
def hdrClass (h : Dbl) : Nat := fieldOf h 34 2
def hdrOtype (h : Dbl) : Nat := fieldOf h 36 12
def hdrUtag (h : Dbl) : Nat := fieldOf h 48 16

/-- R24: a header from its fields. -/
def header (utag otype cls bounce rch src capword n vn ch dst : Nat) : Dbl :=
  BitVec.ofNat 64 (utag * 2 ^ 48 + otype * 2 ^ 36 + cls * 2 ^ 34 + bounce * 2 ^ 33 + rch * 2 ^ 29 + src * 2 ^ 20 +
    capword * 2 ^ 19 + n * 2 ^ 16 + vn * 2 ^ 14 + ch * 2 ^ 10 + dst)

/-- R364: the number that a message has among those of its src to its dst. -/
def nextNumber (s : State) (h : Dbl) : Nat × State :=
  let c := coreOf s (hdrSrc h)
  let n := tabGet 0 c.outNum (fieldOf h 0 10)
  (n, setCore s (hdrSrc h) { c with outNum := tabPut c.outNum (fieldOf h 0 10) (n + 1) })

/-- R393: an agent whose messages keep an order of their own, whatever their src. -/
def isOwner (o : Origin) : Bool :=
  match o with
  | .slice _ => true
  | .atomicUnit _ => true
  | _ => false

/-- A message enters the mesh; what an owner sends is numbered (R393). -/
def post (s : State) (f : Flight) : State :=
  let (n, s) := nextNumber s f.header
  { s with
    mesh := s.mesh ++ [{ f with num := n, left := s.nextReq }]
    nextReq := if isOwner f.origin then s.nextReq + 1 else s.nextReq }

/-! ### Page faults -/

/-- R124, R125: whether an entry takes another fault of a quay on a page with a reason. -/
def entryMatches (e : FaultEntry) (quay reason page : Nat) : Bool :=
  e.quay == quay && e.reason.toNat == reason && e.page == page

/-- R124 to R126: a fault joins an entry of its partition, takes the lowest free one, or goes to the drop list. -/
def enterFault (s : State) (part quay : Nat) (detail : Dbl) : ParkPlace × State :=
  let p := partOf s part
  let kind := fieldOf detail 62 2
  let reason := fieldOf detail 59 3
  let page := fieldOf detail 16 32
  let wr := kind == 1 || kind == 3
  match p.ents.find? fun e => entryMatches e.2 quay reason page with
  | some (i, e) =>
    let e := { e with wr := e.wr || wr, fx := e.fx || kind == 2, tg := e.tg || kind == 3, waiters := min 255 (e.waiters + 1) }
    (.entry i, setPart s part { p with ents := tabPut p.ents i e })
  | none =>
    match (List.range 8).find? fun i => (tabFind? p.ents i).isNone with
    | some i =>
      let e : FaultEntry := ⟨wr, kind == 2, kind == 3, BitVec.ofNat 3 reason, quay, 1, page, p.trGen⟩
      (.entry i, raisePart (setPart s part { p with ents := tabPut p.ents i e }) part 0)
    | none => (.drop, raisePart (setPart s part { p with dropped := true }) part 0)

/-- R119: the cause of a failed walk. -/
def pageCause (reason : Nat) : BitVec 8 := if reason = 0 ∨ reason = 6 then cPAGENR else cPAGEPERM

/-! ### The matrix lease of a context -/

def isLeaseReq (k c : Nat) (r : LeaseReq) : Bool := r.core == k && r.ctx == c
def holdsLease (m : MatArray) (k c : Nat) : Bool :=
  match m.lease with
  | some l => l.core == k && l.ctx == c
  | none => false

/-- R209: the status of a lease request reaches the `mlease` destination. -/
def fillLease (s : State) (k c : Nat) (dst : Option (Dest × Nat)) (v : Dbl) : State :=
  match dst with
  | some (.x n, _) => setCtx s k c (putX (ctxOf s k c) n v)
  | some (.port dir vec, id) =>
    match neighbour k dir with
    | none => s
    | some n => fillEntry s n (linkKey (opposite dir) vec) id (.ready (v.setWidth 128))
  | _ => s

/-- R202: another array of the quay waits for power leave. -/
def leaveAwaited (s : State) (b : Nat) : Bool :=
  s.berths.any fun e => e.1 != b && berthQuay e.1 == berthQuay b && e.2.mat.reqs.any fun r => r.askedAt.isSome

/-- R202, R203: the lease of a berth ends; the array gives its leave up when another array waits for leave. -/
def leaseEnds (s : State) (b : Nat) : State :=
  let m := (berthOf s b).mat
  setBerth s b { berthOf s b with mat := { m with lease := none, leave := m.leave && !leaveAwaited s b } }

/-- R203: a request is entered at the tail; when it is the first to wait, the holder's idle time starts. -/
def enterLease (s : State) (b : Nat) (r : LeaseReq) : State :=
  let m := (berthOf s b).mat
  setBerth s b { berthOf s b with mat := { m with
    reqs := m.reqs ++ [r]
    lease := if m.reqs.isEmpty then m.lease.map fun l => { l with idleFrom := s.clk } else m.lease } }

/-- A context's request leaves the queue. -/
def dropLeaseReq (s : State) (k c : Nat) : State :=
  let b := coreBerth k
  let m := (berthOf s b).mat
  setBerth s b { berthOf s b with mat := { m with reqs := m.reqs.filter fun r => !isLeaseReq k c r } }

/-- R204: a suspended context loses its lease or request; the count goes with the context. -/
def suspendLease (s : State) (k c : Nat) : State :=
  let m := (berthOf s (coreBerth k)).mat
  let x := ctxOf s k c
  if holdsLease m k c then
    let left := (m.lease.map (·.left)).getD 0
    leaseEnds (setCtx s k c { x with leaseSaved := BitVec.ofNat 8 left, leaseDst := none }) (coreBerth k)
  else
    match m.reqs.find? (isLeaseReq k c) with
    | some r => dropLeaseReq (setCtx s k c { x with leaseSaved := BitVec.ofNat 8 r.n, leaseDst := r.dst }) k c
    | none => setCtx s k c { x with leaseSaved := 0, leaseDst := none }

/-- R204: on resumption the saved request is entered again at the tail. -/
def resumeLease (s : State) (k c : Nat) : State :=
  let x := ctxOf s k c
  if x.leaseSaved = 0 then s
  else
    enterLease (setCtx s k c { x with leaseSaved := 0, leaseDst := none }) (coreBerth k)
      ⟨k, c, x.leaseSaved.toNat, x.leaseDst, x.epoch, none⟩

/-- R203, R210: ends the lease or withdraws the request of a context; a withdrawn request's destination gets why = 2. -/
def endLease (s : State) (k c : Nat) : State :=
  let m := (berthOf s (coreBerth k)).mat
  if holdsLease m k c then leaseEnds s (coreBerth k)
  else
    match m.reqs.find? (isLeaseReq k c) with
    | none => s
    | some r => fillLease (dropLeaseReq s k c) k c r.dst 4

/-! ### SFU requests of a context -/

def isSfuOf (k c : Nat) (r : SfuReq) : Bool := r.core == k && r.ctx == c

/-- R194: a request whose result goes to a link port. -/
def toLink (r : SfuReq) : Bool := 28 ≤ r.dst && r.dst < 32

/-- R197, R347: requests as the record holds them, and those for link ports, each with how many of the record's precede it; `n` count so far. -/
def splitLinks : Nat → List SfuReq → List SfuReq × List (Nat × SfuReq)
  | _, [] => ([], [])
  | n, r :: rest =>
    if toLink r then ((splitLinks n rest).1, (n, r) :: (splitLinks n rest).2)
    else (r :: (splitLinks (n + 1) rest).1, (splitLinks (n + 1) rest).2)

/-- R197: the two lists of a suspended context in acceptance order again. -/
def mergeLinks : Nat → List SfuReq → List (Nat × SfuReq) → List SfuReq
  | _, [], ls => ls.map (·.2)
  | n, r :: rest, ls => (ls.takeWhile fun e => e.1 ≤ n).map (·.2) ++ r :: mergeLinks (n + 1) rest (ls.dropWhile fun e => e.1 ≤ n)

/-- R197: requests of a suspended context that have not started leave the queue and are saved with it, ahead of later ones that had not
yet entered it again; those for link ports keep the entries they reserved (DEDUCED: log entry 28). -/
def suspendSfu (s : State) (k c : Nat) : State :=
  let b := coreBerth k
  let x := ctxOf s k c
  let mine := fun (r : SfuReq) => isSfuOf k c r && r.epoch == x.epoch
  let (kept, links) := splitLinks 0 ((berthOf s b).sfuQ.filter mine ++ x.sfuSaved)
  setBerth (setCtx s k c { x with sfuSaved := kept, sfuLink := links }) b
    { berthOf s b with sfuQ := (berthOf s b).sfuQ.filter fun r => !mine r }

/-- R197: the saved requests of a context that resumes, those for link ports in their places. -/
def rejoinSfu (x : Ctx) : Ctx :=
  { x with sfuSaved := (mergeLinks 0 x.sfuSaved x.sfuLink).map fun r => { r with epoch := x.epoch }, sfuLink := [] }

/-- R197: the entries that the saved requests of a discarded context reserved leave their queues. -/
def discardSfu (s : State) (k : Nat) (x : Ctx) : State :=
  ((x.sfuSaved ++ x.sfuLink.map (·.2)).filter toLink).foldl (fun s r =>
    match neighbour k (r.dst - 28) with
    | none => s
    | some n => dropEntry s n (linkKey (opposite (r.dst - 28)) true) r.port) s

/-- R197: saved requests are entered again, in order, as entries free. -/
def reenterSfu (s : State) (k c : Nat) : State :=
  let b := coreBerth k
  let x := ctxOf s k c
  let room := 16 - (berthOf s b).sfuQ.length
  setBerth (setCtx s k c { x with sfuSaved := x.sfuSaved.drop room }) b
    { berthOf s b with sfuQ := (berthOf s b).sfuQ ++ x.sfuSaved.take room }

/-! ### Following -/

/-- R175: a context leaves its follow relation; a leader whose last follower is gone stops leading (DESIGN CHOICE: log entry 56). -/
def detach (s : State) (k c : Nat) : State :=
  let x := ctxOf s k c
  let s := if x.follows.isNone ∧ !x.leading then s else setCtx s k c { x with follows := none, leading := false, window := none }
  if x.leading then
    [1, 2, 3].foldl (fun s i =>
      if (ctxOf s (k + i) c).follows = some k then setCtx s (k + i) c { ctxOf s (k + i) c with follows := none } else s) s
  else
    match x.follows with
    | none => s
    | some l =>
      if [1, 2, 3].any fun i => (ctxOf s (l + i) c).follows == some l then s
      else setCtx s l c { ctxOf s l c with leading := false }

/-! ### Taking a trap -/

/-- R95: the compartment of a context. -/
def otypeOf (x : Ctx) : Nat := capOtype (tabGet Cap.null x.c 14)

/-- R97: the entry of a compartment; `none` when it is not valid or a reserved field is nonzero. -/
def compEntry (s : State) (part otype : Nat) : Option Dbl :=
  let e := tabGet 0 (partOf s part).comp otype
  if e.getLsbD 15 && fieldOf e 32 32 == 0 && !e.getLsbD 9 then some e else none

/-- R351: whether the trap of a context goes to the partition manager. -/
def trapNested (s : State) (k : Nat) (x : Ctx) : Bool :=
  match compEntry s x.part (otypeOf x) with
  | none => true
  | some e =>
    let target := if e.getLsbD 14 then k else fieldOf e 0 9
    target == k && fieldOf e 10 4 == x.ch.toNat

/-- R350: the handle that names a suspended context (DEDUCED: log entry 53). -/
def trapHandle (k c : Nat) (seq : BitVec 16) : Dbl := BitVec.ofNat 64 (k + c * 2 ^ 9 + seq.toNat * 2 ^ 16)

/-- R346 step 6, R350, R351: the trap message, or the interrupt in its place (DEDUCED: log entry 53). -/
def sendTrap (s : State) (k c : Nat) : State :=
  let x := ctxOf s k c
  if trapNested s k x then raisePart s x.part 6
  else
    match compEntry s x.part (otypeOf x) with
    | none => s
    | some e =>
      let target := if e.getLsbD 14 then k else fieldOf e 0 9
      let near := coreBerth target == coreBerth k
      let h := header (fieldOf e 16 16) (otypeOf x) 0 0 0 k (boolBit near) (if near then 7 else 3) 1 (fieldOf e 10 4) target
      let words := [trapHandle k c x.seq, BitVec.ofNat 64 (x.ktrpc.toNat + x.ktrap.toNat * 2 ^ 48), x.ktdetail]
      let cap := if near then capMake1 (recordBase k c) fRAW8 4096 (pL + pS + pLC) 1 else Cap.null
      post s ⟨h, words, cap, x.part, .trap, .core k, k, none, none, false, 0, 0⟩

/-- R346 step 2, R232, R241: a trap is taken once the context's earlier producers have delivered, the accesses that its earlier tasks left
have performed, and its writes can be released. -/
def trapSettles (s : State) (k c : Nat) : Bool := !outstanding s k c && !accessOutstanding s k c && releaseReady s (coreBerth k) 4

/-- R346 steps 3 to 6, R354, for a context whose earlier producers have all delivered, its writes released at partition scope
(R232). A failed walk parks the context on its fault-buffer entry and sends no message (R123) (DEDUCED: log entries 18, 19). -/
def settleTrap (s : State) (k c : Nat) : State :=
  match (ctxOf s k c).mode with
  | .trapping cause detail next =>
    let s := release s (coreBerth k) 4
    let x := ctxOf s k c
    let parks := cause == cPAGENR || cause == cPAGEPERM
    let rpc := if next then x.pc + 4 else x.pc
    let nested := !parks && trapNested s k x
    let status := statusWord cause.toNat (x.seq + 1).toNat (otypeOf x) x.ch.toNat (if parks then 2 else 1) nested
    let trpc := BitVec.ofNat 64 (fieldOf x.pc 0 48)
    let s := putRecord s (recordBase k c) x (recordBytes x status detail trpc rpc x.leaseSaved.toNat)
    let x := { x with
      seq := x.seq + 1
      ktrap := cause
      ktdetail := detail
      ktrpc := trpc.setWidth 48
      watchSkip := if cause = cWATCH then some (fieldOf detail 62 2) else none }
    if parks then
      let (place, s) := enterFault s x.part (coreQuay k) detail
      traceRecord (setCtx s k c { x with mode := .parked place }) (coreBerth k) 4 cause.toNat k c x.ch.toNat x.pc x.ktask
    else
      let s := setCtx s k c { x with mode := .trapped }
      sendTrap (traceRecord s (coreBerth k) 3 cause.toNat k c x.ch.toNat x.pc x.ktask) k c
  | _ => s

/-- R345, R346: a context takes a trap. It stops issuing at once, its SFU requests that have not started, its lease and its
follow relation going with it (R175, R197, R204); the record is written and the message sent when its earlier producers have
delivered, which may be now. -/
def trapAt (s : State) (k c : Nat) (cause : BitVec 8) (detail : Dbl) (next : Bool) : State :=
  let x := ctxOf s k c
  let s := setCtx s k c { x with
    mode := .trapping cause detail next
    sendHold := none
    leaveAsk := none
    ackErr := if x.ackErr = some (cause, detail) then none else x.ackErr }
  let s := suspendLease (suspendSfu (detach s k c) k c) k c
  if trapSettles s k c then settleTrap s k c else s

/-- The executing context takes a trap (DEDUCED: log entry 18). -/
def takeTrap (s : State) (cause : BitVec 8) (detail : Dbl) (next : Bool) : State :=
  trapAt s s.cur.core s.cur.ctx cause detail next

/-- R349, R394, R232: the resumption of a context from its record, an acquire at partition scope, or the trap in place
of it (DEDUCED: log entry 19): ILLEGAL, or UNCORRECTABLE for a record on a bad line (R357) (DESIGN CHOICE: log entry 50). -/
def resume (s : State) (k c : Nat) : State :=
  let base := recordBase k c
  let s := acquire s (coreBerth k) 4
  match recordRefused s base with
  | none =>
    let x := rejoinSfu (restored s k c)
    let dst := (ctxOf s k c).leaseDst
    let xs := match dst with
      | some (.x n, _) => if x.leaseSaved = 0 then x.xs else tabPut x.xs n .empty
      | _ => x.xs
    reenterSfu (resumeLease (setCtx s k c { x with xs := xs, leaseDst := dst }) k c) k c
  | some (cause, detail) =>
    let x := ctxOf s k c
    let rpc := if isBad s (base + 0x018) 8 then x.ktrpc else (recDouble s base 0x018).setWidth 48
    let x := { x with seq := x.seq + 1, ktrap := cause, ktdetail := detail, ktrpc := rpc, mode := .trapped }
    let status := statusWord cause.toNat x.seq.toNat (otypeOf x) x.ch.toNat 1 (trapNested s k x)
    let s := setCtx (homeWrite s base (sparing s base (dblBytes status))) k c x
    sendTrap (traceRecord s (coreBerth k) 3 cause.toNat k c x.ch.toNat x.pc x.ktask) k c

/-! ### The end of a task -/

/-- R35, R99: a task ends: its context becomes free and its registers are discarded; the nonce, the trap sequence number and
the transfer numbering stay with the context. Results still due to its registers find a later epoch (DEDUCED: log entry 19). -/
def endTask (s : State) (k c : Nat) : State :=
  let x := ctxOf s k c
  let s := discardSfu (endLease (detach s k c) k c) k x
  let b := coreBerth k
  let gone := fun (r : SfuReq) => isSfuOf k c r && !toLink r
  let s := setBerth s b { berthOf s b with
    sfuQ := (berthOf s b).sfuQ.filter fun r => !gone r
    sfuRun := (berthOf s b).sfuRun.filter fun r => !gone r }
  let s := traceRecord s b 2 0 k c x.ch.toNat x.pc x.ktask
  setCtx s k c { Ctx.reset with
    nonce := x.nonce
    seq := x.seq
    ktrap := x.ktrap
    ktdetail := x.ktdetail
    ktrpc := x.ktrpc
    xf0 := x.xf0
    xf1 := x.xf1
    epoch := x.epoch + 1
    reqNum := x.reqNum }

/-! ### Running an instruction -/

/-- What an instruction that has had its effect leaves for its context. -/
inductive Next where
  /-- The next instruction in sequence. -/
  | seq
  /-- A jump to an address. -/
  | jump (pc : Dbl)
  /-- The context issues nothing more, or its pc is already set. -/
  | stay
  deriving DecidableEq, Repr

/-- R64: the detail word of an ILLEGAL found at decode. -/
def illegalDetail (reason : BitVec 3) (short : Bool) (word : BitVec 32) : Dbl :=
  BitVec.ofNat 64 (reason.toNat * 2 ^ 33 + boolBit short * 2 ^ 32 + word.toNat)

/-- Moves the pc of the executing context on. -/
def advance (s : State) (n : Next) (len : Nat) : State :=
  let x := ctxOf s s.cur.core s.cur.ctx
  match n with
  | .seq => setCtx s s.cur.core s.cur.ctx { x with pc := x.pc + BitVec.ofNat 64 len, watchSkip := none }
  | .jump pc => setCtx s s.cur.core s.cur.ctx { x with pc := pc, watchSkip := none }
  | .stay => s

/-- What happens when a meaning stops: everything it did is undone (R8), and the reason decides. -/
def stopped (s : State) : Stop → Host.Outcome State Fault Refusal
  | .disabled => .next s
  | .stall .empty => .next { countEvent s s.cur.core s.cur.ctx 4 1 with stalled := true }
  | .stall .link => .next { countEvent s s.cur.core s.cur.ctx 5 1 with stalled := true }
  | .stall .other => .next { s with stalled := true }
  | .trap cause detail => .next { takeTrap s cause detail false with stalled := false }
  | .trapNext cause detail => .next { takeTrap s cause detail true with stalled := false }
  | .page reason detail => .next { takeTrap s (pageCause reason) detail false with stalled := false }
  | .watchHalt wp =>
    let x := ctxOf s s.cur.core s.cur.ctx
    let s := haltBerth s (coreBerth s.cur.core) 5 s.cur.core s.cur.ctx
    .next { setCtx s s.cur.core s.cur.ctx { x with watchSkip := some wp } with stalled := false }
  | .noted part => .next { mapError s part with stalled := true }

/-- R64: runs an instruction of the executing context. `legal` is the field rule it breaks, if any; `word` is its encoding,
`len` its length in bytes. -/
def runInstr (legal : Option (BitVec 3)) (word : BitVec 32) (len : Nat) (act : Act Next) (s : State) :
    Host.Outcome State Fault Refusal :=
  match legal with
  | some reason => stopped s (.trap cILLEGAL (illegalDetail reason (len == 2) word))
  | none =>
    match act s with
    | .error x => stopped s x
    | .ok (n, t) => .next { advance t n len with stalled := false }

/-- Runs a step that no encoding names; one whose condition does not hold changes nothing. -/
def runEvent (act : Act Unit) (s : State) : Host.Outcome State Fault Refusal :=
  match act s with
  | .ok ((), t) => .next t
  | .error (.noted part) => .next (mapError s part)
  | .error _ => .next s

end Sys2Proof.Machine
end

