-- ==== Sys2Proof/Machine/Flags.lean ====
section
/-!
DEFINITION. The floating-point flags and the rounding state of a context (R56, R156, R157, R166, R167, R183).
-/
namespace Sys2Proof.Machine

open Sys2Proof

/-- R157: adds flags to `kfflags`. -/
def addFlags (f : BitVec 5) : Act Unit := modHere fun x => { x with fflags := x.fflags ||| f }

/-- NV when a flag of the exact arithmetic says that the operation is invalid. -/
def invalid (b : Bool) : BitVec 5 := if b then fNV else 0

/-- R156, R183: the mode and seed an operation rounds with; under SR the seed advances once, now. -/
def takeRound : Act (Nat × Nat) := do
  let x ← here
  if x.rmode = 4 then putHere { x with seed := x.seed + 1 } else pure ()
  pure (x.rmode.toNat, x.seed.toNat)

/-- R155: the rounding of result j of an operation. -/
def roundingOf (ms : Nat × Nat) (j : Nat) : Rounding := ⟨ms.1, if ms.1 = 4 then srHash ms.2 j else 0⟩

/-- R166, R182: a rounded sum, difference, product or fused product-sum of one format, with its flags. -/
def fpAdd (fmt : Nat) (r : Rounding) (a b : FpNum) : Nat × BitVec 5 :=
  let (v, nv) := addNum r.mode a b
  let (c, fl) := encodeElem fmt r v
  (c, fl ||| invalid nv)

def fpMul (fmt : Nat) (r : Rounding) (a b : FpNum) : Nat × BitVec 5 :=
  let (v, nv) := mulNum a b
  let (c, fl) := encodeElem fmt r v
  (c, fl ||| invalid nv)

/-- R166, R167: A · B + D with one rounding; 0 · ∞ sets NV even when D is a NaN. -/
def fpFma (fmt : Nat) (r : Rounding) (a b d : FpNum) : Nat × BitVec 5 :=
  let (p, nv1) := mulNum a b
  let (v, nv2) := addNum r.mode p d
  let (c, fl) := encodeElem fmt r v
  (c, fl ||| invalid (nv1 || nv2))

/-- R168: the smaller (`big` false) or larger of two elements by code; −0 is smaller than +0, a NaN gives way to a number. -/
def fpPick (fmt : Nat) (big : Bool) (ca cb : Nat) : Nat :=
  let a := decodeElem fmt ca
  let b := decodeElem fmt cb
  if isNan a then (if isNan b then (encodeElem fmt ⟨0, 0⟩ .nan).1 else cb)
  else if isNan b then ca
  else
    let less := match cmpNum a b with
      | .lt => true
      | .gt => false
      | .eq => isNeg a && !isNeg b
    if less == big then cb else ca

/-- R168, R184: the comparisons; a NaN makes eq, lt and le false. -/
def fpEq (a b : FpNum) : Bool := !isNan a && !isNan b && cmpNum a b == .eq
def fpLt (a b : FpNum) : Bool := !isNan a && !isNan b && cmpNum a b == .lt
def fpLe (a b : FpNum) : Bool := !isNan a && !isNan b && cmpNum a b != .gt

end Sys2Proof.Machine
end

