-- ==== Sys2Proof/Machine/Operands.lean ====
section
/-!
DEFINITION. The operand forms of the scalar formats (R52, R60, R61, R63, R64): which link ports are checked, which source
forwards, the order in which sources are read, and where the result goes.
-/
namespace Sys2Proof.Machine

open Sys2Proof

/-- R64 step 3: NO_LINK for one scalar operand. -/
def scalarLink (r : BitVec 5) (fwd : Bool) : Act Unit :=
  if isPort r then linkCheck (r.toNat - 28) false fwd else pure ()

/-- R64 step 3: NO_LINK for one vector operand. -/
def vectorLink (r : BitVec 6) : Act Unit :=
  if isVPort r then linkCheck (r.toNat - 28) true false else pure ()

/-- R52: f acts on the first source that names a link port: whether it is this one, after those before it. -/
def forwards (f : BitVec 1) (before : List (BitVec 5)) (r : BitVec 5) : Bool :=
  f == 1 && isPort r && !before.any isPort

/-- R8: the values that sources popped, in order, with the keys of their queues. -/
def portPops (sources : List (BitVec 5 × Dbl)) : List (Nat × Quad) :=
  (sources.filter fun e => isPort e.1).map fun e => (linkKey (e.1.toNat - 28) false, e.2.setWidth 128)

/-- R52: the port out of which the first source that names a link port is pushed. -/
def forwardDir (f : BitVec 1) (sources : List (BitVec 5)) : Option Nat :=
  if f = 1 then (sources.find? isPort).map fun r => opposite (r.toNat - 28) else none

/-- A trap bit as a Bool. -/
def bit (b : BitVec 1) : Bool := b == 1

/-- R60 format R: two scalar sources, a read before b, and a scalar destination. -/
def formR (f eb ea : BitVec 1) (b a d : BitVec 5) (g : Dbl → Dbl → Act Dbl) : Act Next := do
  scalarLink a (forwards f [] a)
  scalarLink b (forwards f [a] b)
  scalarLink d false
  let x ← readX a (bit ea) (forwards f [] a)
  let y ← readX b (bit eb) (forwards f [a] b)
  let v ← g x y
  writeX d v
  pure .seq

/-- R160: the same where d is read as a third source. -/
def formRD (f eb ea : BitVec 1) (b a d : BitVec 5) (g : Dbl → Dbl → Dbl → Act Dbl) : Act Next := do
  scalarLink a (forwards f [] a)
  scalarLink b (forwards f [a] b)
  let x ← readX a (bit ea) (forwards f [] a)
  let y ← readX b (bit eb) (forwards f [a] b)
  let z ← readX d false false
  let v ← g x y z
  writeX d v
  pure .seq

/-- R160, R166: one scalar source in format R. -/
def formU (f ea : BitVec 1) (a d : BitVec 5) (g : Dbl → Act Dbl) : Act Next := do
  scalarLink a (forwards f [] a)
  scalarLink d false
  let x ← readX a (bit ea) (forwards f [] a)
  let v ← g x
  writeX d v
  pure .seq

/-- R162: one scalar source without trap bit, as formats K and the compact form have it. -/
def formK (a d : BitVec 5) (g : Dbl → Act Dbl) : Act Next := do
  scalarLink a false
  scalarLink d false
  let x ← readX a false false
  let v ← g x
  writeX d v
  pure .seq

/-- R63: compact forms on xd and xb, d read before b. -/
def formC2 (b d : BitVec 5) (g : Dbl → Dbl → Dbl) : Act Next := do
  scalarLink d false
  scalarLink b false
  let x ← readX d false false
  let y ← readX b false false
  writeX d (g x y)
  pure .seq

/-- R169: a branch on two sources, a popped before b. -/
def formB (o : BitVec 12) (b a : BitVec 5) (g : Dbl → Dbl → Bool) : Act Next := do
  scalarLink a false
  scalarLink b false
  let x ← readX a false false
  let y ← readX b false false
  let c ← here
  if g x y then pure (.jump (c.pc + 2 * o.signExtend 64)) else pure .seq

end Sys2Proof.Machine
end

