-- ==== Sys2Proof/Machine/Memory.lean ====
section
/-!
DEFINITION. What every access of a context shares: the watchpoints (R371), the marks of phase objects (R281), the waits of
R83, R223, R241 and R278, and the moving of the bits.
-/
namespace Sys2Proof.Machine

open Sys2Proof

/-- R371: whether a watchpoint is enabled for a kind of access (0 load, 1 store or atomic, 3 fetch). -/
def watchKind (wp : Dbl) (kind : Nat) : Bool :=
  let k := fieldOf wp 61 2
  wp.getLsbD 63 && fieldOf wp 48 6 == 0 && (k == kind || (k == 2 && kind < 2))

/-- R371: the first byte of an access that a watchpoint's range holds. -/
def watchByte (wp : Dbl) (addr n : Nat) : Option Nat :=
  let size := 2 ^ min 47 (fieldOf wp 54 6)
  let base := fieldOf wp 0 48 / size * size
  let first := max addr base
  if first < addr + n ∧ first < base + size then some first else none

/-- R371: the first watchpoint that an access of a berth meets, with the byte; the one that the context's re-execution passes over
(R354) is left out. -/
def watchMatch (s : State) (b : Nat) (skip : Option Nat) (kind addr n : Nat) : Option (Nat × Nat) :=
  (List.range 4).findSome? fun w =>
    let wp := tabGet 0 (berthOf s b).dbg.wp w
    if watchKind wp kind && skip != some w then (watchByte wp addr n).map fun a => (w, a) else none

/-- R371: the watchpoints see each part of an access, (byte address, bytes) (DEDUCED: log entry 46). -/
def watchTest (kind : Nat) (parts : List (Nat × Nat)) : Act Unit := do
  let s ← get
  let b := coreBerth s.cur.core
  let d := (berthOf s b).dbg
  if d.wp.isEmpty then pure ()
  else
    let skip := (← here).watchSkip
    match parts.findSome? fun p => watchMatch s b skip kind p.1 p.2 with
    | none => pure ()
    | some (w, a) =>
      if (tabGet 0 d.wp w).getLsbD 60 && d.ctl.getLsbD 2 then halt (.watchHalt w)
      else halt (.trap cWATCH (BitVec.ofNat 64 (w * 2 ^ 62 + kind * 2 ^ 60 + a)))

/-- The bytes that some bits of memory touch. -/
def bitsBytes (bit w : Nat) : Nat × Nat := (bit / 8, (bit % 8 + w + 7) / 8)

/-- R281: the marked doubles that a piece meets. -/
def marksMet (s : State) (p : Piece) : List Nat := (s.phases.map (·.1)).filter fun k => pieceMeets p k 8

/-- R281: whether the line of a piece holds a mark. -/
def lineMarked (s : State) (p : Piece) : Bool := s.phases.any fun e => e.1 / 64 == p.key / 64

/-- R223, R241, R83, R278: an access waits for engines that use its bytes and for earlier accesses of its context to them. -/
def waitPieces (ps : List Piece) (write : Bool) : Act Unit := do
  let s ← get
  if ps.any fun p => engineHolds s p write || ownConflict s s.cur.core s.cur.ctx p write then halt (.stall .other) else pure ()

/-- R83, R228: an access that performs at once waits for every earlier access of its context to the same bytes. -/
def waitOwn (ps : List Piece) : Act Unit := do
  let s ← get
  if ps.any fun p => ownConflict s s.cur.core s.cur.ctx p true then halt (.stall .other) else pure ()

/-- R136, R241: an access that performs at once at its home waits until what its own caches have to write back can go there, and until the
bridge and the channel serve it. -/
def waitHome (ps : List Piece) : Act Unit := do
  let s ← get
  let b := coreBerth s.cur.core
  let part := (← here).part
  if ps.any (fun p => p.cached && homeHeld s b part p.key) || !piecesReady s b ps then halt (.stall .other) else pure ()

/-- R84, R87, R245: a store performs at its home: one of a granule with its tag, one of a part of a byte, and every one in ordering
revision 1. -/
def performsHome (rev1 : Bool) (cap : Option Cap) (p : Piece) : Bool :=
  p.cached && (cap.isSome || rev1 || p.bit != 0 || p.width % 8 != 0)

/-- R373: a reply's delay enters an accumulator of the issuing core: 0x140 + slice, or 0x160 + channel (DESIGN CHOICE: log entry 5). -/
def addDelay (s : State) (k acc : Nat) : State :=
  let c := coreOf s k
  if (berthOf s (coreBerth k)).dbg.halted then s
  else
    let v := tabGet 0 c.obs acc
    let n := min (2 ^ 24 - 1) (fieldOf v 40 24 + 1)
    let d := min (2 ^ 40 - 1) (fieldOf v 0 40 + (Config.replyDelay s.freeCtr).toNat)
    { setCore s k { c with obs := tabPut c.obs acc (BitVec.ofNat 64 (n * 2 ^ 40 + d)) } with freeCtr := s.freeCtr + 1 }

/-- R373: the reply to an L1 miss on a line (DESIGN CHOICE: log entry 5). -/
def missDelay (s : State) (k key : Nat) : State :=
  if Config.memoryServed s.freeCtr then addDelay s k (0x160 + paChannel key) else addDelay s k (0x140 + keySlice key)

/-- R373, R374: what an access of a core to pieces counts: each cached line that the L1 must obtain (DESIGN CHOICE: log entry 5). -/
def countMisses (s : State) (k ctx : Nat) (ps : List Piece) : State :=
  ps.foldl (fun s p =>
    let m := maskRange (p.key % 64) (pieceBytes p)
    if p.cached && (tabGet ⟨0, 0, 0⟩ (berthOf s (coreBerth k)).l1 (p.key / 64)).valid &&& m != m then
      missDelay (countEvent s k ctx 6 1) k p.key
    else s) s

/-- The pieces of an access by the executing context: a kind as in `translate`, a bit address and a width. -/
def herePieces (kind bit width : Nat) : Act (List Piece) := do
  let s ← get
  pieces (coreBerth s.cur.core) (← here).part kind (width / 512 + 2) bit width

/-- Sends a load of pieces to a destination already claimed (DESIGN CHOICE: log entry 15). -/
def sendLoad (dst : Dest) (addr : Nat) (ps : List Piece) (signed : Bool) : Act Unit :=
  request dst (BitVec.ofNat 64 addr) (.load ps signed)

/-- R83, R281: stores values to pieces. A store to a line that holds a phase mark goes to the owner and waits for its verdict; until then
what it popped (`back`) can be put back, and what it forwarded (out of port `fwd`) is a reserved entry (R8, R52)
(DESIGN CHOICE: log entry 15). -/
def storePieces (ws : List (Piece × Nat × Nat)) (addr : Nat) (cap : Option Cap) (back : List (Nat × Quad)) (fwd : Option Nat) : Act Next := do
  let s ← get
  let b := coreBerth s.cur.core
  let x ← here
  if ws.any fun w => lineMarked s w.1 then do
    match fwd with
    | some dir => do
      holdPushed dir s.nextReq
      request (.port dir false) (BitVec.ofNat 64 addr) (.store ws cap back)
    | none => request .none (BitVec.ofNat 64 addr) (.store ws cap back)
    modHere fun x => { x with mode := .waiting s.nextReq }
    pure .stay
  else do
    waitHome ((ws.map (·.1)).filter (performsHome x.rev1 cap))
    match cap, ws with
    | some c, (p, _) :: _ => do
      set (writeGranule s b p c)
      pure .seq
    | _, _ => do
      set (ws.foldl (fun s w => writePiece s b x.rev1 w.1 w.2.1) s)
      pure .seq

/-- The values that the pieces of one element take. -/
def pieceValues : List Piece → Nat → Nat → List (Piece × Nat × Nat)
  | [], _, _ => []
  | p :: r, v, bit => (p, v % 2 ^ p.width, bit / 8) :: pieceValues r (v / 2 ^ p.width) (bit + p.width)

/-- R78: the values of two index registers, i0 read before i1. -/
def readPair (f eb ea : BitVec 1) (j i : BitVec 5) : Act (Dbl × Dbl) := do
  let a ← readX i (bit ea) (forwards f [] i)
  let b ← readX j (bit eb) (forwards f [i] j)
  pure (a, b)

/-- R78: the index tuple of two registers. -/
def readTuple (f eb ea : BitVec 1) (j i : BitVec 5) : Act Idx := do
  let e ← readPair f eb ea j i
  pure (tuple e.1 e.2)

end Sys2Proof.Machine
end

