-- ==== Sys2Proof/Machine/Revoke.lean ====
section
/-!
DEFINITION. The revocation map (R105, R106) and the load barrier (R109).
-/
namespace Sys2Proof.Machine

open Sys2Proof

/-- R105: where a translated address of a partition lies for its dredger; `none` where it cannot be read. -/
def dredgerKey (s : State) (part va : Nat) : Option Nat :=
  if isTranslated va = false then none
  else
    match walk s part va with
    | .error _ => none
    | .ok (leaf, level, slot) =>
      match leafCheck (partOf s part) leaf 0 false with
      | some _ => none
      | none => some (leafPhys part ⟨part, 0, leaf, level, slot⟩ va).key

/-- R105: the map word that governs a revocation granule; `none` where the dredger cannot read it. -/
def mapWord (s : State) (part gran : Nat) : Option Dbl :=
  match dredgerKey s part (fieldOf (partOf s part).dr.map 3 45 * 8 + 8 * (gran / 64)) with
  | none => none
  | some key => if isBad s key 8 then none else some (homeDouble s key)

/-- R106: the revocation granule of an address in the heap. -/
def heapGranule (p : Partition) (addr : Nat) : Option Nat :=
  let base := fieldOf p.dr.heap 9 39 * 512
  if windowOf addr ≤ 0xB ∧ base ≤ addr ∧ addr < base + 512 * fieldOf p.dr.size 0 28 then some ((addr - base) / 512) else none

/-- R105, R106: Revoked(addr). A map word that cannot be read counts as all ones, sets err and raises the source. -/
def revoked (s : State) (part addr : Nat) : Bool × State :=
  let p := partOf s part
  match heapGranule p addr with
  | none => (false, s)
  | some g =>
    match mapWord s part g with
    | some w => (w.getLsbD (g % 64), s)
    | none => (true, mapError s part)

/-- R136, R241, R383: the dredger has to wait for the map word that governs a capability. -/
def mapHeld (s : State) (part : Nat) (c : Cap) : Bool :=
  let p := partOf s part
  c.tag && match heapGranule p (capBase c) with
    | some g => unitHeld s part (fieldOf p.dr.map 3 45 * 8 + 8 * (g / 64)) 8 false
    | none => false

/-- R105: that map word cannot be read. -/
def mapUnread (s : State) (part : Nat) (c : Cap) : Bool :=
  c.tag && match heapGranule (partOf s part) (capBase c) with
    | some g => (mapWord s part g).isNone
    | none => false

/-- R105: the map word is to be had before what needs it goes on; one that cannot be read is noted first. -/
def noteFirst (part : Nat) (c : Cap) : Act Unit := do
  let s ← get
  if mapHeld s part c then halt (.stall .other)
  else if mapUnread s part c && !((partOf s part).dr.err && (tabGet Irq.reset s.glob.irq (32 * part + 1)).pend) then halt (.noted part)
  else pure ()

/-- R109: a capability that passes a barrier point loses its tag when its base is revoked. -/
def barrier (s : State) (part : Nat) (c : Cap) : Cap × State :=
  if c.tag then
    let (r, s) := revoked s part (capBase c)
    (if r then capUntag c else c, s)
  else (c, s)

end Sys2Proof.Machine
end

