-- ==== Sys2Proof/Machine/Deliver.lean ====
section
/-!
DEFINITION. The delivery of results to the registers and ports that wait for them (R54), the steps LOAD_DELIVERY and
CLC_DELIVERY, and the verdict on a store to a line that holds a phase mark (R281).
-/
namespace Sys2Proof.Machine

open Sys2Proof

/-- A request by its number; the step's condition does not hold when there is none. -/
def reqOf (id : Nat) : Act Req := do needSome (tabFind? (← get).reqs id)

/-- A request leaves the table. -/
def dropReq (id : Nat) : Act Unit := modify fun s => { s with reqs := tabErase s.reqs id }

/-- R35: whether the task that made a request has ended. -/
def taskGone (s : State) (r : Req) : Bool := (ctxOf s r.core r.ctx).epoch != r.epoch || (ctxOf s r.core r.ctx).mode == .free

/-- R54: a result is pushed into the entry of a neighbour's queue that its request reserved (DEDUCED: log entry 29). -/
def fillPort (s : State) (k dir : Nat) (vec : Bool) (id : Nat) (e : LinkEntry) : State :=
  match neighbour k dir with
  | none => s
  | some n => fillEntry s n (linkKey (opposite dir) vec) id e

/-- R54: a value reaches its destination; results due to the registers of a task that has ended are discarded (R35). -/
def fill (s : State) (r : Req) (id : Nat) (v : Quad) : State :=
  match r.dst with
  | .port dir vec => fillPort s r.core dir vec id (.ready v)
  | .x n => if taskGone s r then s else setCtx s r.core r.ctx (putX (ctxOf s r.core r.ctx) n (v.extractLsb' 0 64))
  | .v n => if taskGone s r then s else setCtx s r.core r.ctx (putV (ctxOf s r.core r.ctx) n v)
  | _ => s

/-- R279: the memory-error source of a partition is raised and names the address. -/
def nameError (s : State) (part : Nat) (addr : Dbl) : State :=
  raisePart (setPart s part { partOf s part with errorNamed := some addr }) part 7

/-- R279, R361: an error reaches the destination of a request: a register takes the error state, an acknowledgement is kept
for the first instruction that waits for it, and a task that has ended raises the memory-error source (DEDUCED: log entry 29). -/
def fillError (s : State) (r : Req) (id : Nat) (lost : Bool) (detail : Dbl) : State :=
  let st : RegState := if lost then .lost detail else .error detail
  let x := ctxOf s r.core r.ctx
  match r.dst with
  | .port dir vec => fillPort s r.core dir vec id (.bad lost detail)
  | d =>
    if taskGone s r then (if lost then s else nameError s r.part (BitVec.ofNat 64 (fieldOf detail 0 48)))
    else
      setCtx s r.core r.ctx (match d with
        | .x n => { x with xs := tabPut x.xs n st }
        | .v n => { x with vs := tabPut x.vs n st }
        | .c n => { x with cs := tabPut x.cs n st }
        | _ => { x with ackErr := x.ackErr.or (some (if lost then cLOST else cUNCORR, detail)) })

/-- The answer of an owner reaches a request's destination. -/
def fillReply (s : State) (r : Req) (id : Nat) (y : Reply) : State :=
  match y with
  | .value v => fill s r id (v.setWidth 128)
  | .error d => fillError s r id false d
  | .lost d => fillError s r id true d
  | .trap _ _ => s

/-- R228, R234: the accesses of one context to the same bytes are performed in program order. -/
def firstOfOverlap (s : State) (id : Nat) (r : Req) : Bool :=
  !s.reqs.any fun e => e.1 < id && e.2.core == r.core && e.2.ctx == r.ctx && e.2.part == r.part && performing e.2 &&
    (bodyPieces e.2.body).any fun q => (bodyPieces r.body).any fun p => pieceMeets q p.key (pieceBytes p)

/-- R241, R383: whether a copy owns a line that a request needs, or its slice serves none. -/
def recalled (s : State) (ps : List Piece) : Bool := ps.any fun p => (p.cached || isL2Key p.key) && copyOwns s p.key (pieceBytes p)

/-- R86, R87, R302: a granule that an instruction loads itself as `clc` loads it, from the address that `p` came from; `keep` says that
its tag may stay (DESIGN CHOICE: log entry 38). -/
def loadGranule (addr : Nat) (p : Phys) (keep : Bool) : Act Cap := do
  let piece : Piece := ⟨p.key, 0, 256, p.cached⟩
  waitPieces [piece] false
  waitOwn [piece]
  waitHome [piece]
  let s ← get
  let k := s.cur.core
  check (!unreadable s (coreBerth k) piece) cUNCORR (errorDetail 0 addr)
  let (c, s) := readGranule (countMisses s k s.cur.ctx [piece]) (coreBerth k) piece
  let part := (ctxOf s k s.cur.ctx).part
  let c := if keep && p.tagOk then c else capUntag c
  noteFirst part c
  let (c, s) := barrier s part c
  set s
  pure c

/-- R54, R83. A load performs and delivers; unreadable data puts the register in an error state (R357) (DESIGN CHOICE: log entry 15). -/
def execLoadDelivery (req : Nat) (s : State) : Outcome :=
  runEvent (do
    let r ← reqOf req
    match r.body with
    | .load ps signed => do
      let s ← get
      need (firstOfOverlap s req r && !recalled s ps && !bandHeld s (coreBerth r.core) r.part ps &&
        (!(ctxOf s r.core r.ctx).rev1 || piecesReady s (coreBerth r.core) ps))
      dropReq req
      modify fun s => countMisses s r.core r.ctx ps
      match ps.find? (unreadable s (coreBerth r.core)) with
      | some _ => modify fun s => fillError s r req false (errorDetail 0 r.addr.toNat)
      | none => do
        let s ← get
        let (v, s) := readPieces s (coreBerth r.core) (ctxOf s r.core r.ctx).rev1 ps
        let w := (ps.map (·.width)).sum
        let v := if signed then wrapInt (signedNat v w) 64 else v
        set (fill s r req (BitVec.ofNat 128 v))
    | _ => halt .disabled) s

/-- R86, R106, R109. A capability load performs, passes the load barrier and delivers. -/
def execClcDelivery (req : Nat) (s : State) : Outcome :=
  runEvent (do
    let r ← reqOf req
    match r.body with
    | .clc p keep => do
      let s ← get
      need (firstOfOverlap s req r && !recalled s [p] && !bandHeld s (coreBerth r.core) r.part [p] && !mapHeld s r.part (readGranule s (coreBerth r.core) p).1 &&
        piecesReady s (coreBerth r.core) [p])
      dropReq req
      modify fun s => countMisses s r.core r.ctx [p]
      if unreadable s (coreBerth r.core) p then modify fun s => fillError s r req false (errorDetail 0 r.addr.toNat)
      else do
        let s ← get
        let (c, s) := readGranule s (coreBerth r.core) p
        let (c, s) := barrier s r.part (if keep then c else capUntag c)
        set (match r.dst with
          | .c n => if taskGone s r then s else setCtx s r.core r.ctx (putC (ctxOf s r.core r.ctx) n c)
          | _ => s)
    | _ => halt .disabled) s

/-- R281: the address of a marked double that a write meets, from the write's own address. -/
def markAddr (s : State) (w : Piece × Nat × Nat) : Option Nat := (marksMet s w.1).head?.map fun d => w.2.2 + d - w.1.key

/-- R8: a request gives its reserved entry of a neighbour's queue up, and the values that its instruction popped go back. -/
def undoLinks (s : State) (r : Req) (id : Nat) : State :=
  let s := match r.dst with
    | .port dir vec => match neighbour r.core dir with
      | some n => dropEntry s n (linkKey (opposite dir) vec) id
      | none => s
    | _ => s
  putBack s r.core (bodyBack r.body)

/-- A context goes on behind the instruction that has waited. -/
def passOn (s : State) (k c : Nat) : State :=
  let x := ctxOf s k c
  setCtx s k c { x with pc := x.pc + 4, watchSkip := none }

/-- R281. The owner's verdict on a store to a line that holds a mark. A trap undoes its pops and its forward (R8, R52). The store of a task that was discarded meanwhile (R35) performs unless it meets a mark (DEDUCED: log entry 19). -/
def execPhaseProtectedWrite (req : Nat) (s : State) : Outcome :=
  runEvent (do
    let r ← reqOf req
    match r.body with
    | .store ws cap back => do
      let s ← get
      let gone := taskGone s r
      need ((gone || (ctxOf s r.core r.ctx).mode == .waiting req) &&
        !(ws.any fun w => engineHolds s w.1 true || homeHeld s (coreBerth r.core) r.part w.1.key) && piecesReady s (coreBerth r.core) (ws.map (·.1)))
      dropReq req
      modify fun s => if gone then s else setCtx s r.core r.ctx { ctxOf s r.core r.ctx with mode := .running }
      match ws.findSome? (markAddr s) with
      | some va => modify fun s =>
        if gone then undoLinks s { r with body := .store ws cap [] } req
        else trapAt (undoLinks s r req) r.core r.ctx cPHASE (BitVec.ofNat 64 va) false
      | none => do
        let b := coreBerth r.core
        modify fun s => match cap, ws with
          | some c, (p, _) :: _ => writeGranule s b p c
          | _, _ => ws.foldl (fun s w => writePiece s b true w.1 w.2.1) s
        modify fun s => fill s r req (back.headD (0, 0)).2
        modify fun s => if gone then s else passOn s r.core r.ctx
    | _ => halt .disabled) s

end Sys2Proof.Machine
end

