-- ==== Sys2Proof/Machine/Groups.lean ====
section
/-!
DEFINITION. Launch records and their grids (R41, R299 to R301, R307), and the checking and resolving of message headers and
logical destinations (R25, R26).
-/
namespace Sys2Proof.Machine

open Sys2Proof

/-- R299: fields of a launch. -/
def lnGx (l : Launch) : Nat := fieldOf l.d0 16 16
def lnGy (l : Launch) : Nat := fieldOf l.d0 32 16
def lnGz (l : Launch) : Nat := fieldOf l.d0 48 16
def lnObject (l : Launch) : Nat := fieldOf l.d0 8 8
def lnStart (l : Launch) : Nat := fieldOf l.d0 4 4
def lnShape (l : Launch) : Nat := fieldOf l.d0 2 2
def lnClass (l : Launch) : Nat := fieldOf l.d0 0 2
def lnReissuable (l : Launch) : Bool := l.d1.getLsbD 61
def lnStages (l : Launch) : Nat := if lnShape l = 3 then fieldOf l.d1 57 4 + 1 else 1
def lnPerm (l : Launch) : Nat := fieldOf l.d1 51 3
def lnNvec (l : Launch) : Nat := fieldOf l.d1 48 3
def lnRwch (l : Launch) : Nat := fieldOf l.d2 53 4
def lnRwv (l : Launch) : Bool := l.d2.getLsbD 52
def lnTotal (l : Launch) : Nat := lnGx l * lnGy l * lnGz l
/-- R299: the raw 24 bits of declared vector i, 1 to 4. -/
def lnVector (l : Launch) (i : Nat) : Nat :=
  match i with
  | 1 => fieldOf l.d1 0 24
  | 2 => fieldOf l.d1 24 24
  | 3 => fieldOf l.d2 0 24
  | _ => fieldOf l.d2 24 24

/-- A group index as integers, x, y, z. -/
structure Coord where
  x : Int
  y : Int
  z : Int
  deriving DecidableEq, Repr

def Coord.axis (g : Coord) (a : Nat) : Int :=
  match a with
  | 0 => g.x
  | 1 => g.y
  | _ => g.z

/-- R299: a vector's signed bytes. -/
def vectorOf (l : Launch) (i : Nat) : Coord :=
  let v := lnVector l i
  ⟨signedNat v 8, signedNat (v / 2 ^ 8) 8, signedNat (v / 2 ^ 16) 8⟩

/-- R299: the axes (0 x, 1 y, 2 z) that a perm code names, outermost first. -/
def axesOf (perm : Nat) : List Nat :=
  match perm with
  | 0 => [2, 1, 0]
  | 1 => [2, 0, 1]
  | 2 => [1, 2, 0]
  | 3 => [1, 0, 2]
  | 4 => [0, 2, 1]
  | _ => [0, 1, 2]

def extentOf (l : Launch) (a : Nat) : Nat :=
  match a with
  | 0 => lnGx l
  | 1 => lnGy l
  | _ => lnGz l

/-- R299: whether an axis is swept in descending order (sign bits for z, y, x). -/
def descends (l : Launch) (a : Nat) : Bool := l.d1.getLsbD (54 + a)

/-- R300: the sweep index of a group inside the grid. -/
def sweepIndex (l : Launch) (g : Coord) : Nat :=
  (axesOf (lnPerm l)).foldl (fun acc a =>
    let n := extentOf l a
    let c := (g.axis a).toNat
    acc * n + (if descends l a then n - 1 - c else c)) 0

/-- R300: the group of a sweep index. -/
def groupAt (l : Launch) (idx : Nat) : Coord :=
  match axesOf (lnPerm l) with
  | [a0, a1, a2] =>
    let n1 := extentOf l a1
    let n2 := extentOf l a2
    let at_ := fun (a v : Nat) => if descends l a then extentOf l a - 1 - v else v
    let c := [(a0, at_ a0 (idx / n2 / n1)), (a1, at_ a1 (idx / n2 % n1)), (a2, at_ a2 (idx % n2))]
    let get := fun (a : Nat) => (tabFind? c a).getD 0
    ⟨get 0, get 1, get 2⟩
  | _ => ⟨0, 0, 0⟩

def insideGrid (l : Launch) (g : Coord) : Bool :=
  0 ≤ g.x && g.x < lnGx l && 0 ≤ g.y && g.y < lnGy l && 0 ≤ g.z && g.z < lnGz l

def addCoord (g v : Coord) : Coord := ⟨g.x + v.x, g.y + v.y, g.z + v.z⟩
def subCoord (g v : Coord) : Coord := ⟨g.x - v.x, g.y - v.y, g.z - v.z⟩

/-- R301: whether a declared vector makes the sweep order respect its edges. -/
def vectorForward (l : Launch) (i : Nat) : Bool :=
  let v := vectorOf l i
  let cs := (axesOf (lnPerm l)).map fun a => if descends l a then -(v.axis a) else v.axis a
  match cs.find? fun c => decide (c ≠ 0) with
  | some c => decide (0 < c)
  | none => false

/-- R307, R308: whether a group has retired. -/
def groupRetired (l : Launch) (idx : Nat) : Bool := idx < l.base || l.bits.contains idx

/-- R26: a malformed header. -/
def hdrMalformed (h : Dbl) : Bool := hdrVn h == 3 || (hdrCapword h && hdrN h != 7)

/-- R25: where a logical destination leads. -/
inductive Where where
  | core (k : Nat)
  /-- The group of a launch is not placed yet. -/
  | later (launch idx : Nat)
  | nowhere
  deriving DecidableEq, Repr

/-- R25, R306: the core of a placed group at a stage and a place in its berth. -/
def placedCore (p : Placed) (stage member : Nat) : Option Nat :=
  ((p.cores.zipIdx.find? fun e => e.1 % 4 == member && e.2 / 4 == stage).map (·.1))

/-- R316: the launches that are suspended with their partitions, each with the slot it had. -/
def suspendedLaunches (s : State) : List (Nat × Launch) := s.parts.flatMap fun p => p.2.suspended.map fun e => (e.1, e.2.2)

/-- R316: a launch by its slot, or one that is suspended with its partition by 128 and its number. -/
def launchOf (s : State) (id : Nat) : Option Launch :=
  (tabFind? s.launches id).or (((suspendedLaunches s).find? fun e => 128 + e.2.seqNo == id).map (·.2))

/-- R25, R254: resolves a group-relative index for a core's placement, in a suspended launch (R316) as in an active one; `none` where
the index is illegal. -/
def resolveLogical (s : State) (place : Option Place) (dst : Nat) : Option Where :=
  let gsel := bitsAt dst 6 3
  let stage := bitsAt dst 2 4
  let member := bitsAt dst 0 2
  match place with
  | none => none
  | some p =>
    match launchOf s p.launch with
    | none => none
    | some l =>
      if l.seqNo ≠ p.seq then some .nowhere
      else if 4 < gsel ∨ lnNvec l < gsel then none
      else
        let g := groupAt l p.idx
        let g := if gsel = 0 then g else addCoord g (vectorOf l gsel)
        if insideGrid l g = false ∨ lnStages l ≤ stage then some .nowhere
        else
          let idx := sweepIndex l g
          if groupRetired l idx then some .nowhere
          else
            match l.placed.find? fun q => q.idx == idx with
            | none => some (.later p.launch idx)
            | some q => some (match placedCore q stage member with
              | some k => .core k
              | none => .nowhere)

/-- R25: whether a send of a header by a core may leave: a logical destination must be legal. -/
def logicalOk (s : State) (core : Nat) (h : Dbl) : Bool :=
  !hdrLogical h || (resolveLogical s (coreOf s core).place (hdrDst h)).isSome

/-- R24: a header as it leaves: src and sotype are what the hardware knows. -/
def stampHeader (h : Dbl) (core otype : Nat) : Dbl := setField (setField h 20 9 core) 36 12 otype

/-- The core that a message reaches, as its group is placed now. -/
def destCore (s : State) (f : Flight) : Option Nat :=
  if hdrLogical f.header then
    match resolveLogical s f.place (hdrDst f.header) with
    | some (.core k) => some k
    | _ => none
  else some (hdrDst f.header)

end Sys2Proof.Machine
end

