-- ==== Sys2Proof/Machine/VecMem.lean ====
section
/-!
DEFINITION. Vector loads and stores (R85).
-/
namespace Sys2Proof.Machine

open Sys2Proof

/-- R85: how many elements of `e` bits a vector holds. -/
def vecCount (e : Nat) : Nat := if e = 6 then 20 else 128 / e

/-- R85: the tuple of element j, along dimension 0 or 1. -/
def vecTuple (t : Idx) (strided : Bool) (j : Nat) : Idx :=
  if strided then { t with i1 := t.i1 + j } else { t with i0 := t.i0 + j }

/-- R85: every element's check, in order; answers the elements' bit addresses and their width. -/
def vecAccess (berth : Nat) (cap : Cap) (reg perm : Nat) (t : Idx) (strided : Bool) : Chk (List Nat × Nat) := do
  let e ← capUse cap reg 0 perm
  demand (e != 256) cFORMAT (det 4 reg 0 0 (capFmt cap))
  let rec go : List Nat → Chk (List Nat)
    | [] => .ok []
    | j :: r => do
      let a ← capAccess berth cap reg j perm (vecTuple t strided j) e
      let rest ← go r
      pure (a.1 :: rest)
  let as_ ← go (List.range (vecCount e))
  pure (as_, e)

/-- R85: a vector load. -/
def vectorLoad (j i : BitVec 5) (c : BitVec 4) (v : BitVec 6) (strided : Bool) : Act Next := do
  scalarLink i false
  scalarLink j false
  vectorLink v
  let t ← readTuple 0 0 0 j i
  let cap ← readC c.toNat
  let s ← get
  let (as_, e) ← liftChk (vecAccess (coreBerth s.cur.core) cap c.toNat pL t strided)
  watchTest 0 (as_.map fun a => bitsBytes a e)
  let ps ← collect (fun a => herePieces 0 a e) as_
  waitPieces ps.flatten false
  let dst ← claimV v (← get).nextReq
  sendLoad dst ((as_.headD 0) / 8) ps.flatten false
  pure .seq

/-- R85: a vector store. The vector is read before the capability checks. -/
def vectorStore (j i : BitVec 5) (c : BitVec 4) (v : BitVec 6) (strided : Bool) : Act Next := do
  scalarLink i false
  scalarLink j false
  vectorLink v
  let x ← readPair 0 0 0 j i
  let val ← readV v
  let cap ← readC c.toNat
  let s ← get
  let (as_, e) ← liftChk (vecAccess (coreBerth s.cur.core) cap c.toNat pS (tuple x.1 x.2) strided)
  watchTest 1 (as_.map fun a => bitsBytes a e)
  let ps ← collect (fun (a : Nat × Nat) => do
    let p ← herePieces 1 a.1 e
    pure (pieceValues p (elemOf val.toNat e a.2) a.1)) as_.zipIdx
  waitPieces (ps.flatten.map (·.1)) true
  let back := portPops [(i, x.1), (j, x.2)] ++ (if isVPort v then [(linkKey (v.toNat - 28) true, val)] else [])
  storePieces ps.flatten ((as_.headD 0) / 8) none back none

/-- R85. Loads a vector along dimension 0. -/
def execLdv (j : BitVec 5) (i : BitVec 5) (c : BitVec 4) (v : BitVec 6) (s : State) : Outcome :=
  runInstr none (encLdv j i c v) 4 (vectorLoad j i c v false) s

/-- R85. Loads a vector along dimension 1. -/
def execLdvS (j : BitVec 5) (i : BitVec 5) (c : BitVec 4) (v : BitVec 6) (s : State) : Outcome :=
  runInstr none (encLdvS j i c v) 4 (vectorLoad j i c v true) s

/-- R85. Stores a vector along dimension 0. -/
def execStv (j : BitVec 5) (i : BitVec 5) (c : BitVec 4) (v : BitVec 6) (s : State) : Outcome :=
  runInstr none (encStv j i c v) 4 (vectorStore j i c v false) s

/-- R85. Stores a vector along dimension 1. -/
def execStvS (j : BitVec 5) (i : BitVec 5) (c : BitVec 4) (v : BitVec 6) (s : State) : Outcome :=
  runInstr none (encStvS j i c v) 4 (vectorStore j i c v true) s

end Sys2Proof.Machine
end

