-- ==== Sys2Proof/Machine/Atomic.lean ====
section
/-!
DEFINITION. Atomics and vector reductions into memory (R275 to R280): what a context sends, what the owner does, and the
reply.
-/
namespace Sys2Proof.Machine

open Sys2Proof

/-- R275: the windows as owners see them: a core's L window is reached when the scope covers the distance to that core (DEDUCED: log entry 22). -/
def ownerCheck (core : Nat) (c : Cap) (reg elem first last : Nat) : Chk Unit := do
  demand (sameWindow (capBase c) first) cBOUNDS (det 6 reg 0 elem first)
  demand (sameWindow (capBase c) last) cBOUNDS (det 6 reg 0 elem first)
  let b := winBerth first
  let d := distance core (4 * b + winCore first)
  match windowOf first with
  | 0xC => demand (d ≤ capScope c) cSCOPE (det 7 reg 0 elem first)
  | 0xD => demand (b == coreBerth core) cSCOPE (det 7 reg 0 elem first)
  | 0xE => do
    demand (b == coreBerth core) cSCOPE (det 7 reg 0 elem first)
    demand (capFmt c == fFP32) cFORMAT (det 7 reg 0 elem first)
  | 0xF => .error (cPERM, det 7 reg 0 elem first)
  | _ => pure ()

/-- R276, R277: CapAccess of one element with {L, S}, its width the element size of a format the instruction takes. -/
def atomicAccess (core : Nat) (c : Cap) (reg elem : Nat) (fmts : List Nat) (t : Idx) : Chk (Nat × Nat) := do
  let e ← capUse c reg elem (pL + pS)
  demand (fmts.contains (capFmt c)) cFORMAT (det 4 reg 0 elem (capFmt c))
  indexCheck c reg elem 0 t
  let a := capBitAddr c e t / 8
  ownerCheck core c reg elem a (a + e / 8 - 1)
  demand (a % (e / 8) == 0) cALIGN (det 8 reg 0 elem a)
  pure (a, e)

/-- R276: the integer formats, with FP32 for `aswp` and `acas`, or FP32 alone for `afadd`. -/
def atomicFormats (fn : Nat) : List Nat :=
  if fn = 10 then [0x08] else if 8 ≤ fn then [0x05, 0x06, 0x07, 0x08] else [0x05, 0x06, 0x07]

/-- Every line of some pieces goes home before an owner acts on it (R277). -/
def syncPieces (s : State) (b : Nat) (ps : List Piece) : State :=
  ps.foldl (fun s p => if p.cached then syncHome s b (p.key / 64) else s) s

/-- R281: an access that a mark forbids traps before anything is sent. -/
def checkMarks (s : State) (ps : List (Piece × Nat × Nat)) : Act Unit :=
  match ps.findSome? (markAddr s) with
  | some va => halt (.trap cPHASE (BitVec.ofNat 64 va))
  | none => pure ()

/-- R277: a scalar atomic, up to its departure. -/
def atomicIssue (fn : Nat) (eb : BitVec 1) (b : BitVec 5) (a : BitVec 4) (d : BitVec 5) : Act Next := do
  scalarLink d false
  let i0 ← readX b (bit eb) false
  let i1 ← readX (b + 1) (bit eb) false
  let v ← readX (b + 2) (bit eb) false
  let nv ← if fn = 9 then readX (b + 3) (bit eb) false else pure 0
  let cap ← readC a.toNat
  let s ← get
  let core := s.cur.core
  let (addr, w) ← liftChk (atomicAccess core cap a.toNat 0 (atomicFormats fn) (tuple i0 i1))
  watchTest 1 [(addr, w / 8)]
  let p ← translate (coreBerth core) (← here).part addr 1 false
  let piece : Piece := ⟨p.key, 0, w, p.cached⟩
  checkMarks (← get) [(piece, 0, addr)]
  let s ← get
  if ownConflict s core s.cur.ctx piece true || !piecesReady s (coreBerth core) [piece] then halt (.stall .other) else pure ()
  set (syncPieces s (coreBerth core) [piece])
  let dst ← claimX d s.nextReq
  requestQueued dst (BitVec.ofNat 64 addr) (.atomic (BitVec.ofNat 7 fn) (BitVec.ofNat 6 (capFmt cap)) piece v nv)
  pure .seq

/-- R276, R277. Atomic add. -/
def execAadd (eb : BitVec 1) (b : BitVec 5) (a : BitVec 4) (d : BitVec 5) (s : State) : Outcome :=
  runInstr (if b.toNat < 1 ∨ b.toNat > 25 then some 3 else none) (encAadd eb b a d) 4 (atomicIssue 0 eb b a d) s

/-- R276, R277. Atomic signed minimum. -/
def execAmin (eb : BitVec 1) (b : BitVec 5) (a : BitVec 4) (d : BitVec 5) (s : State) : Outcome :=
  runInstr (if b.toNat < 1 ∨ b.toNat > 25 then some 3 else none) (encAmin eb b a d) 4 (atomicIssue 1 eb b a d) s

/-- R276, R277. Atomic signed maximum. -/
def execAmax (eb : BitVec 1) (b : BitVec 5) (a : BitVec 4) (d : BitVec 5) (s : State) : Outcome :=
  runInstr (if b.toNat < 1 ∨ b.toNat > 25 then some 3 else none) (encAmax eb b a d) 4 (atomicIssue 2 eb b a d) s

/-- R276, R277. Atomic unsigned minimum. -/
def execAminu (eb : BitVec 1) (b : BitVec 5) (a : BitVec 4) (d : BitVec 5) (s : State) : Outcome :=
  runInstr (if b.toNat < 1 ∨ b.toNat > 25 then some 3 else none) (encAminu eb b a d) 4 (atomicIssue 3 eb b a d) s

/-- R276, R277. Atomic unsigned maximum. -/
def execAmaxu (eb : BitVec 1) (b : BitVec 5) (a : BitVec 4) (d : BitVec 5) (s : State) : Outcome :=
  runInstr (if b.toNat < 1 ∨ b.toNat > 25 then some 3 else none) (encAmaxu eb b a d) 4 (atomicIssue 4 eb b a d) s

/-- R276, R277. Atomic and. -/
def execAand (eb : BitVec 1) (b : BitVec 5) (a : BitVec 4) (d : BitVec 5) (s : State) : Outcome :=
  runInstr (if b.toNat < 1 ∨ b.toNat > 25 then some 3 else none) (encAand eb b a d) 4 (atomicIssue 5 eb b a d) s

/-- R276, R277. Atomic or. -/
def execAor (eb : BitVec 1) (b : BitVec 5) (a : BitVec 4) (d : BitVec 5) (s : State) : Outcome :=
  runInstr (if b.toNat < 1 ∨ b.toNat > 25 then some 3 else none) (encAor eb b a d) 4 (atomicIssue 6 eb b a d) s

/-- R276, R277. Atomic exclusive or. -/
def execAxor (eb : BitVec 1) (b : BitVec 5) (a : BitVec 4) (d : BitVec 5) (s : State) : Outcome :=
  runInstr (if b.toNat < 1 ∨ b.toNat > 25 then some 3 else none) (encAxor eb b a d) 4 (atomicIssue 7 eb b a d) s

/-- R276, R277. Atomic swap. -/
def execAswp (eb : BitVec 1) (b : BitVec 5) (a : BitVec 4) (d : BitVec 5) (s : State) : Outcome :=
  runInstr (if b.toNat < 1 ∨ b.toNat > 25 then some 3 else none) (encAswp eb b a d) 4 (atomicIssue 8 eb b a d) s

/-- R276, R277. Atomic compare and swap. -/
def execAcas (eb : BitVec 1) (b : BitVec 5) (a : BitVec 4) (d : BitVec 5) (s : State) : Outcome :=
  runInstr (if b.toNat < 1 ∨ b.toNat > 24 then some 3 else none) (encAcas eb b a d) 4 (atomicIssue 9 eb b a d) s

/-- R276, R277. Atomic FP32 add. -/
def execAfadd (eb : BitVec 1) (b : BitVec 5) (a : BitVec 4) (d : BitVec 5) (s : State) : Outcome :=
  runInstr (if b.toNat < 1 ∨ b.toNat > 25 then some 3 else none) (encAfadd eb b a d) 4 (atomicIssue 10 eb b a d) s

/-- R276: the sum of two codes of a floating format, rounded to nearest even, with no flag. -/
def atomicSum (fmt x y : Nat) : Nat := (fpAdd fmt ⟨0, 0⟩ (decodeElem fmt x) (decodeElem fmt y)).1

/-- R276: the value that an atomic writes, if it writes one. -/
def atomicNew (fn fmt w old v nv : Nat) : Option Nat :=
  let less := fun (x y : Nat) => decide (signedNat x w < signedNat y w)
  match fn with
  | 0 => some ((old + v) % 2 ^ w)
  | 1 => some (if less v old then v else old)
  | 2 => some (if less old v then v else old)
  | 3 => some (min old v)
  | 4 => some (max old v)
  | 5 => some (old &&& v)
  | 6 => some (old ||| v)
  | 7 => some (old ^^^ v)
  | 8 => some v
  | 9 => if old = v then some nv else none
  | _ => some (atomicSum fmt old v)

/-- R277: the old value as the destination receives it. -/
def atomicResult (fmt w old : Nat) : Dbl := BitVec.ofNat 64 (if fmt = 0x05 then wrapInt (signedNat old w) 64 else old)

/-- R275: whether the owner of a location can serve a requester's partition now: a core of another berth serves while its
berth runs that partition. -/
def ownerServes (s : State) (r : Req) (key : Nat) : Bool :=
  windowOf key != 0xC || isL2Key key || winBerth key == coreBerth r.core || berthPart s (winBerth key) == some r.part

/-- R361: the owner of a location in a local store is lost with its fenced quay (DEDUCED: log entry 48). -/
def ownerLost (s : State) (key : Nat) : Bool :=
  windowOf key == 0xC && !isL2Key key && (match (quayOf s (winBerth key / 64)).mode with
    | .fenced => true
    | .resetting => true
    | _ => false)

/-- R275, R393: the owner of a location as the origin of messages. -/
def ownerOrigin (key : Nat) : Origin :=
  if isL2Key key || isTranslated key then .slice (keySlice key)
  else if windowOf key = 0xC then .atomicUnit (4 * winBerth key + winCore key)
  else .lighter (winBerth key)

/-- R393: an owner's reply leaves it, after those that it sent before. -/
def sendReply (s : State) (id : Nat) (r : Req) (y : Reply) : State :=
  { s with reqs := tabPut s.reqs id { r with reply := some y, served := s.nextReq }, nextReq := s.nextReq + 1 }

/-- R361: the reply in place of a lost owner's. -/
def lostReply (r : Req) : Reply := .lost (BitVec.ofNat 64 (fieldOf r.addr 0 48))

/-- R136, R223, R241: an owner's access waits for the engines that use its bytes, and for resources that serve the partition. -/
def ownerFree (s : State) (r : Req) (p : Piece) : Bool :=
  !engineHolds s p true && !homeHeld s (coreBerth r.core) r.part p.key

/-- R107: an atomic on word 0 of the partition's control granule requests a sweep. -/
def sweepRequest (s : State) (part key : Nat) : State :=
  let p := partOf s part
  if fieldOf p.dr.size 0 28 = 0 then s
  else
    match dredgerKey s part (fieldOf p.dr.ctl 5 43 * 32) with
    | some k => if k / 8 = key / 8 then setPart s part { p with dr := { p.dr with pend := true } } else s
    | none => s

/-- R277. The owner performs an atomic in the home order of its location; a double marked meanwhile is not written (R281) (DESIGN CHOICE: log entry 64). -/
def execAtomicServe (req : Nat) (s : State) : Outcome :=
  runEvent (do
    let r ← reqOf req
    match r.body with
    | .atomic fn fmt p v nv => do
      let s ← get
      need (r.sent && r.reply.isNone && (ownerLost s p.key || (ownerServes s r p.key && ownerFree s r p)))
      let n := pieceBytes p
      if ownerLost s p.key then modify fun s => sendReply s req r (lostReply r)
      else if isBad s p.key n then do
        orderedAtomic r p.key 0
        modify fun s => sendReply s req r (.error (errorDetail 1 r.addr.toNat))
      else do
        orderedAtomic r p.key 0
        let old := natOfBytes (memRead s.mem p.key n)
        match atomicNew fn.toNat fmt.toNat p.width old (v.toNat % 2 ^ p.width) (nv.toNat % 2 ^ p.width) with
        | some x => if (marksMet s p).isEmpty then modify fun s => wideWrite s p.key (bytesOf n x) else pure ()
        | none => pure ()
        modify fun s => sweepRequest s r.part p.key
        modify fun s => sendReply s req r (.value (atomicResult fmt.toNat p.width old))
    | _ => halt .disabled) s

/-- R373: the reply of a slice agent reports its delay. -/
def sliceDelay (s : State) (k key : Nat) : State :=
  if isTranslated key ∨ isL2Key key then addDelay s k (0x140 + keySlice key) else s

/-- R324: the index tuple of a node. -/
def nodeTuple (c : Cap) (n : Nat) : Idx := ⟨n % capExt c 0, n / capExt c 0, 0, 0⟩

/-- R328: the nodes whose homes have replied to a NET request: those that it names, the node that an allocation took or else the pool
owner's node 0, and node 0 where it names none (DESIGN CHOICE: log entry 57). -/
def repliedNodes (op : NetOp) (y : Reply) : List Nat :=
  match op, y with
  | .alloc _, .value v => [v.toNat]
  | .free n, _ => [n]
  | .load _ n _, _ => [n]
  | .store n _ _, _ => [n]
  | .link _ p q, _ => [p.toNat / 4, q.toNat / 4].eraseDups
  | .push a b, _ => [a, b]
  | .park _ n, _ => [n]
  | .unpark _ n, _ => [n]
  | _, _ => [0]

/-- The home of a node as the hardware finds it; `none` where its page is not mapped. -/
def nodeHome (s : State) (part : Nat) (heap : Cap) (n : Nat) : Option Nat :=
  dredgerKey s part (capBitAddr heap 256 (nodeTuple heap n) / 8)

/-- R393: the owners that have replied to a request, each with the number of its reply; a vector reduction is acknowledged once each of
its elements is updated. -/
def ownersSent (s : State) (r : Req) : List (Origin × Nat) :=
  match r.body, r.reply with
  | .ared _ _ es updated, _ =>
    if updated.length = es.length then updated.filterMap fun e => es[e.1]?.map fun x => (ownerOrigin x.1.key, e.2) else []
  | .atomic _ _ p _ _, some _ => [(ownerOrigin p.key, r.served)]
  | .phase _ p _ _, some _ => [(ownerOrigin p.key, r.served)]
  | .enq _ n _, some _ => [(.slice n, r.served)]
  | .net op heap _ _, some y => (repliedNodes op y).filterMap fun n => (nodeHome s r.part heap n).map fun key => (ownerOrigin key, r.served)
  | _, _ => []

/-- R393: the one owner of all of a request's replies, with the number of the last; the replies of several owners arrive each on its own. -/
def lastSent (s : State) (r : Req) : Option (Origin × Nat) :=
  match ownersSent s r with
  | [] => none
  | x :: l => if l.all fun y => y.1 == x.1 then some (x.1, l.foldl (fun m y => max m y.2) x.2) else none

/-- R246, R393: a reply travels on the reply network in class 0, the class of the requests (DEDUCED: log entry 31). -/
def onReplies (h : Dbl) : Bool := hdrVn h == 1 && hdrClass h == 0

/-- R393: a reply to a request waits for what its owners sent the same core before it: other replies, and continuations on their network
and in their class. -/
def earlierReply (s : State) (id : Nat) (r : Req) : Bool :=
  let mine := ownersSent s r
  (s.reqs.any fun e => e.1 != id && e.2.core == r.core && e.2.door == 0 &&
      (lastSent s e.2).any fun x => mine.any fun y => x.1 == y.1 && x.2 < y.2) ||
    s.mesh.any fun f => onReplies f.header && destCore s f == some r.core && mine.any fun y => f.origin == y.1 && f.left < y.2

/-- R393: a message of an owner waits for the replies that the owner sent the same core before it. -/
def repliesBefore (s : State) (f : Flight) : Bool :=
  isOwner f.origin && onReplies f.header && s.reqs.any fun e => destCore s f == some e.2.core && e.2.door == 0 &&
    (lastSent s e.2).any fun x => x.1 == f.origin && x.2 < f.left

/-- R277, R278, R393. The old value fills the destination, and the berth's L1 forgets the line; replies of one owner to one core arrive in the order in which it sent them. -/
def execAtomicReplyDelivery (req : Nat) (s : State) : Outcome :=
  runEvent (do
    let r ← reqOf req
    match r.body, r.reply with
    | .atomic _ _ p _ _, some y => do
      need (!earlierReply (← get) req r && piecesReady (← get) (coreBerth r.core) [p])
      dropReq req
      modify fun s => sliceDelay (fillReply (syncPieces s (coreBerth r.core) [p]) r req y) r.core p.key
    | _, _ => halt .disabled) s

/-- R280: a vector reduction, up to its departure. -/
def aredIssue (fn : Nat) (b : BitVec 5) (a : BitVec 4) (d : BitVec 5) : Act Next := do
  let cap ← readC a.toNat
  let v ← readV (b.setWidth 6)
  let i0 ← readX d false false
  let i1 ← readX (d + 1) false false
  let s ← get
  let core := s.cur.core
  let fmts := if fn = 14 then [0x08, 0x09] else [0x01, 0x02, 0x03, 0x04, 0x05, 0x06, 0x07]
  let e ← liftChk (capUse cap a.toNat 0 (pL + pS))
  let n := if fmts.contains (capFmt cap) then vecCount e else 1
  let rec addrs : List Nat → Chk (List Nat)
    | [] => .ok []
    | j :: r => do
      let x ← atomicAccess core cap a.toNat j fmts (vecTuple (tuple i0 i1) false j)
      let rest ← addrs r
      pure (x.1 :: rest)
  let as_ ← liftChk (addrs (List.range n))
  watchTest 1 (as_.map fun x => (x, e / 8))
  let elems ← collect (fun (x : Nat × Nat) => do
    let p ← translate (coreBerth core) (← here).part x.1 1 false
    pure ((⟨p.key, 0, e, p.cached⟩ : Piece), elemOf v.toNat e x.2, x.1)) as_.zipIdx
  checkMarks (← get) elems
  let s ← get
  if elems.any (fun x => ownConflict s core s.cur.ctx x.1 true) || !piecesReady s (coreBerth core) (elems.map (·.1)) then halt (.stall .other) else pure ()
  set (syncPieces s (coreBerth core) (elems.map (·.1)))
  requestQueued .none (BitVec.ofNat 64 (as_.headD 0)) (.ared (BitVec.ofNat 7 fn) (BitVec.ofNat 6 (capFmt cap)) elems [])
  pure .seq

/-- R280. Adds a vector into memory. -/
def execAredVAdd (b : BitVec 5) (a : BitVec 4) (d : BitVec 5) (s : State) : Outcome :=
  runInstr (if d.toNat < 1 ∨ d.toNat > 26 ∨ b.toNat > 27 then some 3 else none) (encAredVAdd b a d) 4 (aredIssue 11 b a d) s

/-- R280. Folds a vector into memory by maximum. -/
def execAredVMax (b : BitVec 5) (a : BitVec 4) (d : BitVec 5) (s : State) : Outcome :=
  runInstr (if d.toNat < 1 ∨ d.toNat > 26 ∨ b.toNat > 27 then some 3 else none) (encAredVMax b a d) 4 (aredIssue 12 b a d) s

/-- R280. Folds a vector into memory by minimum. -/
def execAredVMin (b : BitVec 5) (a : BitVec 4) (d : BitVec 5) (s : State) : Outcome :=
  runInstr (if d.toNat < 1 ∨ d.toNat > 26 ∨ b.toNat > 27 then some 3 else none) (encAredVMin b a d) 4 (aredIssue 13 b a d) s

/-- R280. Adds a floating-point vector into memory. -/
def execAredVFadd (b : BitVec 5) (a : BitVec 4) (d : BitVec 5) (s : State) : Outcome :=
  runInstr (if d.toNat < 1 ∨ d.toNat > 26 ∨ b.toNat > 27 then some 3 else none) (encAredVFadd b a d) 4 (aredIssue 14 b a d) s

/-- R280: one element's update. -/
def aredNew (fn fmt w old v : Nat) : Nat :=
  let signed := (intBits fmt).isSome
  let less := fun (x y : Nat) => if signed then decide (signedNat x w < signedNat y w) else decide (x < y)
  match fn with
  | 11 => (old + v) % 2 ^ w
  | 12 => if less old v then v else old
  | 13 => if less v old then v else old
  | _ => atomicSum fmt old v

/-- R280. An owner updates one element of a vector reduction, unless it is in a double marked meanwhile (R281) (DESIGN CHOICE: log entry 64). -/
def execAredElementUpdate (req : Nat) (elem : Nat) (s : State) : Outcome :=
  runEvent (do
    let r ← reqOf req
    match r.body with
    | .ared fn fmt elems updated => do
      let s ← get
      let (p, v, va) ← needSome elems[elem]?
      need (r.sent && (tabFind? updated elem).isNone && (ownerLost s p.key || (ownerServes s r p.key && ownerFree s r p)))
      let n := pieceBytes p
      if ownerLost s p.key then pure () else orderedAtomic r p.key elem
      let reply ← if ownerLost s p.key then pure (r.reply.or (some (.lost (BitVec.ofNat 64 va))))
        else if isBad s p.key n then pure (r.reply.or (some (.error (errorDetail 1 va))))
        else do
          let old := natOfBytes (memRead s.mem p.key n)
          let s ← get
          let s := if (marksMet s p).isEmpty then wideWrite s p.key (bytesOf n (aredNew fn.toNat fmt.toNat p.width old v)) else s
          set (sweepRequest s r.part p.key)
          pure r.reply
      modify fun s => { s with
        reqs := tabPut s.reqs req { r with body := .ared fn fmt elems (tabPut updated elem s.nextReq), reply := reply }
        nextReq := s.nextReq + 1 }
    | _ => halt .disabled) s

/-- R280, R373. Every element is updated; the context's one acknowledgement arrives, its delay counted at the first element's home (DESIGN CHOICE: log entry 5). -/
def execAredAcknowledge (req : Nat) (s : State) : Outcome :=
  runEvent (do
    let r ← reqOf req
    match r.body with
    | .ared _ _ elems updated => do
      need (updated.length == elems.length && !earlierReply (← get) req r && piecesReady (← get) (coreBerth r.core) (elems.map (·.1)))
      dropReq req
      modify fun s => syncPieces s (coreBerth r.core) (elems.map (·.1))
      modify fun s => ((elems.take 1).map fun e => e.1.key).foldl (fun s key => sliceDelay s r.core key) s
      match r.reply with
      | some y => modify fun s => fillReply s r req y
      | none => pure ()
    | _ => halt .disabled) s

end Sys2Proof.Machine
end

