-- ==== Sys2Proof/Machine/Sync.lean ====
section
/-!
DEFINITION. Fences (R236 to R238) and the joining of compressed views (R242, R243).
-/
namespace Sys2Proof.Machine

open Sys2Proof

/-- R238, R279: waits for the context's earlier accesses; a failed acknowledgement is reported here. -/
def waitAccesses : Act Unit := do
  let s ← get
  if accessOutstanding s s.cur.core s.cur.ctx then halt (.stall .other)
  else
    match (← here).ackErr with
    | some (cause, d) => halt (.trap cause d)
    | none => pure ()

/-- R238, R241: Release(scope) by the executing context, its earlier accesses having performed and no copy owning a line that it writes
back (DEDUCED: log entry 19). -/
def releaseHere (scope : Nat) : Act Unit := do
  waitAccesses
  let s ← get
  let b := coreBerth s.cur.core
  if releaseReady s b scope then set (release s b scope) else halt (.stall .other)

/-- R238: Acquire(scope) by the executing context. -/
def acquireHere (scope : Nat) : Act Unit := modify fun s => acquire s (coreBerth s.cur.core) scope

/-- R237, R238. Waits for and orders the context's accesses. -/
def execFence (sel : BitVec 3) (k : BitVec 2) (s : State) : Outcome :=
  runInstr (if k = 0 then some 1 else below sel.toNat 6) (encFence sel k) 4 (do
    waitAccesses
    if k.getLsbD 1 then releaseHere sel.toNat else pure ()
    if k.getLsbD 0 then acquireHere sel.toNat else pure ()
    pure .seq) s

/-- R79, R243: the first and the last byte of a capability's box. -/
def boxRange (c : Cap) (e : Nat) : Nat × Nat :=
  (capBase c, (capBase c * 8 + ((List.range 4).map fun d => (capExt c d - 1) * capStr c d).sum * e + e - 1) / 8)

/-- R243: the bytes of a block with its image overlaid by what the uncompressed view wrote. -/
def joinedBytes (s : State) (blk : Nat) (b : Block) : List Byte :=
  (List.range 256).map fun i =>
    if b.plain.contains i then memByte s.mem (blk * 256 + i) else b.image.getD i 0

/-- R226, R243: the granules whose tags a joined block has: the uncompressed view's where it wrote, else the image's. -/
def joinedTags (s : State) (blk : Nat) (b : Block) : List Nat :=
  (List.range 8).filter fun g =>
    if b.plain.any fun i => i / 32 == g then s.tags.contains (blk * 8 + g) else b.tags.contains g

/-- R243: joins the two views of a block, counting it when both had written it (DESIGN CHOICE: log entry 60). -/
def joinBlock (s : State) (blk : Nat) : Nat × State :=
  match tabFind? s.glob.blocks blk with
  | none => (0, s)
  | some b =>
    let bs := joinedBytes s blk b
    let gs := joinedTags s blk b
    let s := dropLines (homeDiff s (blk * 256) bs) ((List.range 4).map (· + blk * 4))
    (boolBit (b.imaged && !b.plain.isEmpty), { s with
      tags := (gs.map (blk * 8 + ·)).foldl setInsert (setClearRange s.tags (blk * 8) 8)
      glob := { s.glob with blocks := tabPut s.glob.blocks blk ⟨bs, gs, [], false⟩ } })

/-- R136, R241: the bytes of a block that has an image cannot be joined yet: a copy owns them, a matrix command reads them, or a resource
does not serve the partition. -/
def joinWaits (s : State) (b part : Nat) (p : Phys) : Bool :=
  (tabFind? s.glob.blocks (p.key / 256)).isSome && (storeHeld s (p.key / 256 * 256) 256 || homeHeld s b part p.key)

/-- R243: joins every block of a range of addresses and counts the merged ones; unmapped pages are skipped, and what an access would
wait for is waited for. -/
def joinRange (b part : Nat) : List Nat → Act Nat
  | [] => pure 0
  | blk :: r => do
    let n ← fun s => match translate b part (blk * 256) 0 false s with
      | .ok (p, s) =>
        if p.cached = false then .ok (0, s)
        else if joinWaits s b part p then .error (.stall .other)
        else .ok (joinBlock s (p.key / 256))
      | .error (.page _ _) => .ok (0, s)
      | .error x => .error x
    let m ← joinRange b part r
    pure (n + m)

/-- R243. Joins the compressed and the plain view over the blocks of a capability's box (DEDUCED: log entry 23). -/
def execDcfence (a : BitVec 4) (d : BitVec 5) (s : State) : Outcome :=
  runInstr none (encDcfence a d) 4 (do
    scalarLink d false
    let c ← readC a.toNat
    let r := a.toNat
    check c.tag cTAG (det 1 r 0 0 0)
    check (!capSealed c) cSEALED (det 2 r 0 0 0)
    check (capHas c pL) cPERM (det 3 r 0 0 pL)
    check (windowOf (capBase c) ≤ 0xB) cPERM (det 7 r 0 0 (capBase c))
    match elemBits (capFmt c) with
    | none => halt (.trap cFORMAT (det 4 r 0 0 (capFmt c)))
    | some e => do
      let (lo, hi) := boxRange c e
      check (hi - lo < 2 ^ 24) cILLEGAL (BitVec.ofNat 64 (hi - lo + 1))
      releaseHere 4
      let n ← joinRange (coreBerth (← get).cur.core) (← here).part ((List.range (hi / 256 + 1 - lo / 256)).map (· + lo / 256))
      acquireHere 4
      writeX d (BitVec.ofNat 64 n)
      pure .seq) s

end Sys2Proof.Machine
end

