-- ==== Sys2Proof/Machine/Boom.lean ====
section
/-!
DEFINITION. Booms (R288 to R293).
-/
namespace Sys2Proof.Machine

open Sys2Proof

/-- R289: the corners of a rectangle word: x0, x1, y0, y1. -/
def rectX0 (r : BitVec 18) : Nat := bitsAt r.toNat 0 5
def rectX1 (r : BitVec 18) : Nat := bitsAt r.toNat 5 5
def rectY0 (r : BitVec 18) : Nat := bitsAt r.toNat 10 4
def rectY1 (r : BitVec 18) : Nat := bitsAt r.toNat 14 4

/-- R289: whether a rectangle holds a mesh position. -/
def rectHolds (r : BitVec 18) (x y : Nat) : Bool := rectX0 r ≤ x && x ≤ rectX1 r && rectY0 r ≤ y && y ≤ rectY1 r

/-- The cores of a rectangle. -/
def rectCores (r : BitVec 18) : List Nat :=
  ((List.range 32).flatMap fun x => (List.range 16).map fun y => (x, y)).filterMap fun e =>
    if rectHolds r e.1 e.2 then some (coreAt e.1 e.2) else none

/-- R114: a berth that is a partition's own and not sliced. -/
def ownedBerth (s : State) (b part : Nat) : Bool :=
  let o := (berthOf s b).owner
  !o.getLsbD 7 && !o.getLsbD 6 && bitsAt o.toNat 0 4 == part

def boomOf (s : State) (k slot : Nat) : Boom := tabGet Boom.reset (coreOf s k).boom slot
def setBoom (s : State) (k slot : Nat) (b : Boom) : State :=
  setCore s k { coreOf s k with boom := tabPut (coreOf s k).boom slot b }

/-- R291: whether a token of a rectangle waits at a core for its slot to match. -/
def boomWaits (s : State) (k slot : Nat) (r : BitVec 18) (down : Bool) : Bool := (coreOf s k).boomWait.contains (slot, r, down)

/-- R291: the tokens that waited for a slot to be armed with their rectangle wait no more. -/
def boomTaken (s : State) (k slot : Nat) (r : BitVec 18) : State :=
  setCore s k { coreOf s k with boomWait := (coreOf s k).boomWait.filter fun t => !(t.1 == slot && t.2.1 == r) }

/-- R289, R291. Arms or disarms a boom slot; a slot that is armed takes the tokens of its rectangle that wait at the core. -/
def execBoomset (c : BitVec 4) (sel : BitVec 2) (a : BitVec 5) (d : BitVec 5) (s : State) : Outcome :=
  runInstr none (encBoomset c sel a d) 4 (do
    scalarLink a false
    scalarLink d false
    let v ← readX a false false
    let s ← get
    let k := s.cur.core
    let x ← here
    let off := v.getLsbD 63
    let r := BitVec.ofNat 18 v.toNat
    check (off || (fieldOf v 48 15 == 0 && fieldOf v 18 14 == 0 && rectX0 r ≤ rectX1 r && rectY0 r ≤ rectY1 r &&
      rectHolds r (meshX k) (meshY k) && (rectCores r).all fun j => ownedBerth s (coreBerth j) x.part)) cILLEGAL v
    let b := boomOf s k sel.toNat
    if b.armed && (b.arrived || b.rowTok || b.colTok) then do
      writeX d 1
      pure .seq
    else do
      let new : Boom :=
        if off then { Boom.reset with held := b.held }
        else { Boom.reset with
          armed := true
          rect := r
          ch := c
          utag := v.extractLsb' 32 16
          arrived := b.held
          rowTok := boomWaits s k sel.toNat r false
          colTok := boomWaits s k sel.toNat r true }
      set (setBoom (if off then s else boomTaken s k sel.toNat r) k sel.toNat new)
      writeX d 0
      pure .seq) s

/-- R290: an arrival at a slot: its code and the slot afterwards. -/
def boomArrive (b : Boom) : Nat × Boom :=
  if b.armed && !b.arrived then (0, { b with arrived := true })
  else if b.held then (2, b)
  else (if b.armed then 1 else 3, { b with held := true })

/-- R290: the narrowest scope that holds a slot's rectangle; package for a slot that is not armed (DEDUCED: log entry 30). -/
def boomScope (b : Boom) : Nat :=
  if b.armed = false then 3
  else
    let r := b.rect
    if rectX0 r / 2 = rectX1 r / 2 ∧ rectY0 r / 2 = rectY1 r / 2 then 1
    else if rectX0 r / 16 = rectX1 r / 16 then 2 else 3

/-- R290: the core's arrival. -/
def boomHere (slot : BitVec 2) (d : BitVec 5) (rel : Bool) : Act Next := do
  scalarLink d false
  let s ← get
  let k := s.cur.core
  if rel then releaseHere (boomScope (boomOf s k slot.toNat)) else pure ()
  let (code, b) := boomArrive (boomOf s k slot.toNat)
  modify fun s => setBoom s k slot.toNat b
  writeX d (BitVec.ofNat 64 code)
  pure .seq

/-- R290. Arrives without ordering. -/
def execBoomRlx (sel : BitVec 2) (d : BitVec 5) (s : State) : Outcome :=
  runInstr none (encBoomRlx sel d) 4 (boomHere sel d false) s

/-- R290. Arrives after a release (DEDUCED: log entry 30). -/
def execBoomRel (sel : BitVec 2) (d : BitVec 5) (s : State) : Outcome :=
  runInstr none (encBoomRel sel d) 4 (boomHere sel d true) s

/-- R291: the south-eastern corner completes the generation when its row is done and the column token has reached it. -/
def boomCorner (s : State) (k slot : Nat) : State :=
  let b := boomOf s k slot
  let r := b.rect
  if meshX k = rectX1 r ∧ meshY k = rectY1 r ∧ b.rowDone ∧ (b.colTok ∨ rectY0 r = rectY1 r) ∧ b.releasing = false then
    setBoom s k slot { b with releasing := true }
  else s

/-- R291: whether a core's slot is armed with a rectangle; a token waits until it is. -/
def boomMatches (s : State) (k slot : Nat) (r : BitVec 18) : Bool := (boomOf s k slot).armed && (boomOf s k slot).rect == r

/-- R291: a token reaches a core: its slot takes it, or it waits there until the slot has its rectangle. -/
def boomReach (s : State) (n slot : Nat) (r : BitVec 18) (down : Bool) : State :=
  if boomMatches s n slot r then
    if down then boomCorner (setBoom s n slot { boomOf s n slot with colTok := true }) n slot
    else setBoom s n slot { boomOf s n slot with rowTok := true }
  else setCore s n { coreOf s n with boomWait := (coreOf s n).boomWait ++ [(slot, r, down)] }

/-- R291. A core passes the row token east, or the column token south along the eastern column (DEDUCED: log entry 30). -/
def execBoomTokenPass (core : Nat) (slot : Nat) (down : Bool) (s : State) : Outcome :=
  runEvent (do
    let s ← get
    let b := boomOf s core slot
    let r := b.rect
    let x := meshX core
    let y := meshY core
    need (b.armed && b.arrived && !b.releasing)
    if down then do
      need (x == rectX1 r && b.rowDone && !b.colDone && y < rectY1 r && (y == rectY0 r || b.colTok))
      set (boomReach (setBoom s core slot { b with colDone := true }) (coreAt x (y + 1)) slot r true)
    else do
      need (!b.rowDone && (x == rectX0 r || b.rowTok))
      let s := setBoom s core slot { b with rowDone := true }
      set (if x < rectX1 r then boomReach s (coreAt (x + 1) y) slot r false else boomCorner s core slot)) s

/-- R291: a core still takes part in the generation of a rectangle that completes: its group has not retired meanwhile, nor has its slot
another rectangle. -/
def boomTakes (s : State) (k slot : Nat) (r : BitVec 18) : Bool := boomMatches s k slot r && (boomOf s k slot).rowDone

/-- R291: the release goes west from a column of a row to the next core that takes part (DEDUCED: log entry 30). -/
def releaseWest (s : State) (slot : Nat) (r : BitVec 18) (y : Nat) : Nat → State
  | 0 => s
  | x + 1 =>
    let n := coreAt x y
    if x < rectX0 r then s
    else if boomTakes s n slot r then setBoom s n slot { boomOf s n slot with releasing := true }
    else releaseWest s slot r y x

/-- R291: the release goes north along the eastern column from a row, and west along each row whose eastern core takes no part any
more. -/
def releaseNorth (s : State) (slot : Nat) (r : BitVec 18) : Nat → State
  | 0 => s
  | y + 1 =>
    let n := coreAt (rectX1 r) y
    if y < rectY0 r then s
    else if boomTakes s n slot r then setBoom s n slot { boomOf s n slot with releasing := true }
    else releaseNorth (releaseWest s slot r y (rectX1 r)) slot r y

/-- R292. The release reaches a core: the generation advances and the core sends itself its message. -/
def execBoomRelease (core : Nat) (slot : Nat) (s : State) : Outcome :=
  runEvent (do
    let s ← get
    let b := boomOf s core slot
    let r := b.rect
    let x := meshX core
    let y := meshY core
    need b.releasing
    let corner := coreAt (rectX1 r) (rectY1 r)
    let h := header b.utag.toNat 0 0 0 0 corner 0 1 1 b.ch.toNat core
    let f : Flight := ⟨h, [BitVec.ofNat 64 (b.gen.toNat + slot * 2 ^ 16)], Cap.null, (berthPart s (coreBerth core)).getD 0,
      .other, .boom core, core, none, none, false, 0, 0⟩
    let s := setBoom s core slot { b with
      gen := b.gen + 1
      arrived := b.held
      held := false
      rowTok := false
      colTok := false
      rowDone := false
      colDone := false
      releasing := false }
    let s := releaseWest s slot r y x
    let s := if x = rectX1 r then releaseNorth s slot r y else s
    set (post s f)) s

end Sys2Proof.Machine
end

