-- ==== Sys2Proof/Machine/Phase.lean ====
section
/-!
DEFINITION. Phase objects (R281 to R287).
-/
namespace Sys2Proof.Machine

open Sys2Proof

/-- R282: the access of a phase instruction: {L, S}, format I64, translated memory or an L window. -/
def phaseAccess (core : Nat) (c : Cap) (reg : Nat) (t : Idx) : Chk Nat := do
  let _ ← capUse c reg 0 (pL + pS)
  demand (capFmt c == 0x07) cFORMAT (det 4 reg 0 0 (capFmt c))
  indexCheck c reg 0 0 t
  let a := capBitAddr c 64 t / 8
  demand (isTranslated a || windowOf a == 0xC || !sameWindow (capBase c) a || !sameWindow (capBase c) (a + 7)) cPERM (det 7 reg 0 0 a)
  ownerCheck core c reg 0 a (a + 7)
  demand (a % 8 == 0) cALIGN (det 8 reg 0 0 a)
  pure a

/-- R282: a phase instruction, up to its departure: fn 0 pinit, 1 parrive, 2 pwait, 3 pinval. -/
def phaseIssue (fn : Nat) (n : BitVec 12) (rel : Option Nat) (a : BitVec 4) (d : BitVec 5) (i : Dbl)
    (cont : Option Cont) : Act Next := do
  let cap ← readC a.toNat
  let s ← get
  let core := s.cur.core
  let addr ← liftChk (phaseAccess core cap a.toNat ⟨i.toNat, 0, 0, 0⟩)
  watchTest 1 [(addr, 8)]
  let p ← translate (coreBerth core) (← here).part addr 1 false
  let piece : Piece := ⟨p.key, 0, 64, p.cached⟩
  let s ← get
  if ownConflict s core s.cur.ctx piece true then halt (.stall .other) else pure ()
  match rel with
  | some scope => releaseHere scope
  | none => pure ()
  if piecesReady (← get) (coreBerth core) [piece] then pure () else halt (.stall .other)
  modify fun s => syncPieces s (coreBerth core) [piece]
  let dst ← claimX d (← get).nextReq
  request dst (BitVec.ofNat 64 addr) (.phase (BitVec.ofNat 3 fn) piece n cont)
  pure .seq

/-- R282, R284. Marks a double as a phase with an expected count. -/
def execPinit (n : BitVec 12) (a : BitVec 4) (d : BitVec 5) (s : State) : Outcome :=
  runInstr ((portRule d).or (if n = 0 then some 4 else none)) (encPinit n a d) 4 (do
    let i ← readX d false false
    phaseIssue 0 n none a d i none) s

/-- R282, R284. Arrives at a phase without ordering. -/
def execParriveRlx (a : BitVec 4) (d : BitVec 5) (s : State) : Outcome :=
  runInstr (portRule d) (encParriveRlx a d) 4 (do
    let i ← readX d false false
    phaseIssue 1 0 none a d i none) s

/-- R282, R284, R286. Arrives at a phase after a release. -/
def execParriveRel (sel : BitVec 3) (a : BitVec 4) (d : BitVec 5) (s : State) : Outcome :=
  runInstr ((portRule d).or (below sel.toNat 6)) (encParriveRel sel a d) 4 (do
    let i ← readX d false false
    phaseIssue 1 0 (some sel.toNat) a d i none) s

/-- R282, R284. Removes the mark of a phase. -/
def execPinval (a : BitVec 4) (d : BitVec 5) (s : State) : Outcome :=
  runInstr (portRule d) (encPinval a d) 4 (do
    let i ← readX d false false
    phaseIssue 3 0 none a d i none) s

/-- R282, R285. Registers a continuation message with a phase (DESIGN CHOICE: log entry 62). -/
def execPwait (a : BitVec 4) (d : BitVec 5) (s : State) : Outcome :=
  runInstr (if d.toNat > 24 then some 3 else none) (encPwait a d) 4 (do
    let _ ← readC a.toNat
    let i ← readX d false false
    let h ← readX (d + 1) false false
    let g ← readX (d + 2) false false
    let u ← readX (d + 3) false false
    let h := setField (setField h 16 3 2) 19 1 0
    let s ← get
    let x ← here
    check (!hdrMalformed h) cILLEGAL h
    check (hdrVn h != 2) cILLEGAL (illegalDetail 4 false (encPwait a d))
    check (logicalOk s s.cur.core h) cILLEGAL h
    check (fieldOf g 16 48 == 0) cILLEGAL (illegalDetail 4 false (encPwait a d))
    let h := stampHeader h s.cur.core (otypeOf x)
    let f : Flight := ⟨h, [], Cap.null, x.part, .sent, .core s.cur.core, s.cur.core, none, (coreOf s s.cur.core).place, false, 0, 0⟩
    phaseIssue 2 0 none a d i (some ⟨f, g.setWidth 16, u⟩)) s

/-- R285: the message of a continuation, sent by the owner. -/
def contMessage (key : Nat) (c : Cont) (aborted late : Bool) : Flight :=
  { c.flight with
    words := [BitVec.ofNat 64 (c.gen.toNat + boolBit aborted * 2 ^ 16 + boolBit late * 2 ^ 17), c.user]
    origin := ownerOrigin key }

/-- R284: the owner releases continuations in registration order. -/
def releaseConts (s : State) (key : Nat) (cs : List Cont) (aborted : Bool) : State :=
  cs.foldl (fun s c => post s (contMessage key c aborted false)) s

/-- R285: the continuations that an owner holds: a slice agent 1,024, an atomic unit 64. -/
def contRoom (s : State) (key : Nat) : Bool :=
  let held := ((s.phases.filter fun e => ownerOrigin e.1 == ownerOrigin key).map fun e => e.2.length).sum
  match ownerOrigin key with
  | .atomicUnit _ => held < 64
  | _ => held < 1024

/-- R281: the double of a phase. -/
def phaseDouble (gen pending expected : Nat) : Dbl :=
  BitVec.ofNat 64 (gen % 2 ^ 16 * 2 ^ 32 + pending * 2 ^ 16 + expected)

/-- R283: the status word. -/
def phaseStatus (np : Bool) (pw released : Nat) (v : Dbl) : Dbl :=
  BitVec.ofNat 64 (boolBit np * 2 ^ 63 + pw * 2 ^ 61 + released * 2 ^ 32 + fieldOf v 16 16 * 2 ^ 16 + fieldOf v 32 16)

/-- R283: what an operation on an unmarked double returns. -/
def notPhase : Dbl := BitVec.ofNat 64 (2 ^ 63)

/-- R281: no berth's L1 holds a line that is being marked: what any of them wrote reaches the home. -/
def recallLine (s : State) (line : Nat) : State := s.berths.foldl (fun s e => syncHome s e.1 line) s

/-- R284, R285: a phase operation at its owner; the double is `v` and its continuations, if it is marked, `conts`. Answers the
status and the state. -/
def phaseServe (s : State) (fn key : Nat) (n : BitVec 12) (cont : Option Cont) : Dbl × State :=
  let v := homeDouble s key
  let put := fun (s : State) (w : Dbl) => wideWrite s key (dblBytes w)
  match tabFind? s.phases key with
  | none =>
    if fn = 0 then
      let w := phaseDouble 0 n.toNat n.toNat
      (phaseStatus false 0 0 w, { put s w with phases := tabPut s.phases key [] })
    else (notPhase, s)
  | some cs =>
    let gen := fieldOf v 32 16
    match fn with
    | 0 =>
      let w := phaseDouble (gen + 1) n.toNat n.toNat
      (phaseStatus false 0 cs.length w, { put (releaseConts s key cs true) w with phases := tabPut s.phases key [] })
    | 1 =>
      let pending := fieldOf v 16 16
      if pending ≤ 1 then
        let now := cs.filter fun c => c.gen.toNat == gen
        let w := phaseDouble (gen + 1) (fieldOf v 0 16) (fieldOf v 0 16)
        (phaseStatus false 0 now.length w,
          { put (releaseConts s key now false) w with phases := tabPut s.phases key (cs.filter fun c => c.gen.toNat != gen) })
      else
        let w := phaseDouble gen (pending - 1) (fieldOf v 0 16)
        (phaseStatus false 0 0 w, put s w)
    | 2 =>
      match cont with
      | none => (phaseStatus false 0 0 v, s)
      | some c =>
        if c.gen.toNat = gen then
          if contRoom s key then (phaseStatus false 0 0 v, { s with phases := tabPut s.phases key (cs ++ [c]) })
          else (phaseStatus false 2 0 v, s)
        else (phaseStatus false 1 0 v, post s (contMessage key c false true))
    | _ => (phaseStatus false 0 cs.length v, { releaseConts s key cs true with phases := tabErase s.phases key })

/-- R284, R285. The owner performs a phase operation in the home order of its double. -/
def execPhaseOperationServe (req : Nat) (s : State) : Outcome :=
  runEvent (do
    let r ← reqOf req
    match r.body with
    | .phase fn p n cont => do
      let s ← get
      need (r.reply.isNone && (ownerLost s p.key || (ownerServes s r p.key && ownerFree s r p)))
      if ownerLost s p.key then modify fun s => sendReply s req r (lostReply r)
      else if isBad s p.key 8 then do
        orderedAtomic r p.key 0
        modify fun s => sendReply s req r (.error (errorDetail 1 r.addr.toNat))
      else do
        orderedAtomic r p.key 0
        let s ← get
        let (v, s) := phaseServe (if p.cached && fn == 0 then recallLine s (p.key / 64) else s) fn.toNat p.key n cont
        set (sendReply s req r (.value v))
    | _ => halt .disabled) s

/-- R283, R393. The owner's status fills the destination. -/
def execPhaseStatusDelivery (req : Nat) (s : State) : Outcome :=
  runEvent (do
    let r ← reqOf req
    match r.body, r.reply with
    | .phase _ p _ _, some y => do
      need (!earlierReply (← get) req r && piecesReady (← get) (coreBerth r.core) [p])
      dropReq req
      modify fun s => sliceDelay (fillReply (syncPieces s (coreBerth r.core) [p]) r req y) r.core p.key
    | _, _ => halt .disabled) s

end Sys2Proof.Machine
end

