-- ==== Sys2Proof/Machine/Channel.lean ====
section
/-!
DEFINITION. Channels and what ends on them: which are runnable (R30, R32), the count of a net (R338, R339), undeliverable
messages (R31, R351), and the end of a task (R35).
-/
namespace Sys2Proof.Machine

open Sys2Proof

/-- R30: whether a context of a core has a task of a channel. -/
def channelBusy (c : Core) (ch : Nat) : Bool := c.ctxs.any fun e => e.2.mode != .free && e.2.ch.toNat == ch

/-- R30: whether a channel is runnable. -/
def runnable (c : Core) (ch : Nat) : Bool :=
  c.inbox.any (fun f => hdrCh f.header == ch) && !c.chmask.getLsbD ch &&
    (match tabFind? c.bind ch with
    | none => false
    | some b => b.concurrent || !channelBusy c ch)

/-- R32: since when each channel has been runnable; a channel that is not has no entry. -/
def refreshSince (s : State) (k : Nat) : State :=
  let c := coreOf s k
  let t := (List.range 16).filterMap fun ch => if runnable c ch then some (ch, tabGet s.clk c.since ch) else none
  if t = c.since then s else setCore s k { c with since := t }

/-- R299, R316: the six-bit id of a launch: its slot, or the one it had when it was suspended. -/
def slotOf (s : State) (id : Nat) : Nat := ((((suspendedLaunches s).find? fun e => 128 + e.2.seqNo == id).map (·.1)).getD id) % 64

/-- R316: a launch changes, active or suspended. -/
def putLaunch (s : State) (id : Nat) (l : Launch) : State :=
  if (tabFind? s.launches id).isSome then setLaunch s id l
  else { s with parts := s.parts.map fun e => (e.1, { e.2 with suspended := e.2.suspended.map fun x =>
    if 128 + x.2.2.seqNo = id then (x.1, x.2.1, l) else x }) }

/-- R338: the message that says a net's count has reached 0. -/
def netNote (id : Nat) (l : Launch) (core ch : Nat) : Flight :=
  ⟨header 0 0 (lnClass l) 0 0 (256 * l.home) 0 1 1 ch core, [BitVec.ofNat 64 id], Cap.null, l.part, .other, .harbour l.home,
    256 * l.home, none, none, false, 0, 0⟩

/-- R338, R339: the outstanding count of a launch, active or suspended, changes; at 0 a registered note is sent. -/
def netCount (s : State) (id : Nat) (d : Int) : State :=
  match launchOf s id with
  | none => s
  | some l =>
    match l.net with
    | none => s
    | some n =>
      let o := ((n.outstanding : Int) + d).toNat
      match n.note with
      | some (core, ch) =>
        if o = 0 then post (putLaunch s id { l with net := some { n with outstanding := 0, note := none } }) (netNote (slotOf s id) l core ch)
        else putLaunch s id { l with net := some { n with outstanding := o } }
      | none => putLaunch s id { l with net := some { n with outstanding := o } }

/-- R31: one more drop: at the core that holds the message when it runs the sender's partition, else in `tp.drop` (DEDUCED: log entry 56). -/
def countDrop (s : State) (part : Nat) (holder : Option Nat) : State :=
  let p := partOf s part
  let page := setPart s part { p with tpDrop := if p.tpDrop = 0xFFFFFFFF then p.tpDrop else p.tpDrop + 1 }
  match holder with
  | none => page
  | some k =>
    if berthPart s (coreBerth k) = some part then
      let c := coreOf s k
      let s := setCore s k { c with drop := if c.drop = 0xFFFFFFFF then c.drop else c.drop + 1 }
      countEvent s k 0 0xC 1
    else page

/-- R31: a message that cannot be delivered returns to its sender when it asks for that and has not bounced before (DEDUCED: log entry 31).
Its src and sotype stay those of the message that could not be delivered (DESIGN CHOICE: log entry 62). -/
def bounceBack (f : Flight) (holder : Option Nat) : Flight :=
  let h := setField (setField (setField (setField f.header 0 9 (hdrSrc f.header)) 9 1 0) 10 4 (hdrRch f.header)) 14 2 1
  { f with header := h, kind := .bounced, net := none, place := none, origin := match holder with
    | some k => .core k
    | none => .harbour (coreQuay f.sender) }

/-- R31, R339, R351: an undeliverable message. -/
def undeliverable (s : State) (f : Flight) (holder : Option Nat) : State :=
  let s := match f.net with
    | some id => netCount s id (-1)
    | none => s
  if f.kind = .trap then
    let s := setPart s f.part { partOf s f.part with tpLost := f.words.headD 0 }
    countDrop (raisePart s f.part 5) f.part holder
  else if hdrBounce f.header && f.kind != .bounced then post s (bounceBack f holder)
  else countDrop s f.part holder

/-- R35, R252, R339: the task of a context ends. -/
def finishTask (s : State) (k c : Nat) : State :=
  let net := (ctxOf s k c).netTask
  let s := endTask s k c
  let s := match net with
    | some id => netCount s id (-1)
    | none => s
  refreshSince s k

end Sys2Proof.Machine
end

