-- ==== Sys2Proof/Machine/Kreg.lean ====
section
/-!
DEFINITION. The control registers (R55, R56, R374) and `kread`, `kwrite`, `kswap` (R57).
-/
namespace Sys2Proof.Machine

open Sys2Proof

/-- R56: `kstat`. -/
def kstatOf (s : State) : Dbl :=
  let k := s.cur.core
  let c := s.cur.ctx
  let x := ctxOf s k c
  BitVec.ofNat 64 (x.ch.toNat * 2 ^ 8 + boolBit x.rev1 * 2 ^ 7 + boolBit (x.follows.isSome || x.leading) * 2 ^ 6 +
    boolBit (holdsLease (berthOf s (coreBerth k)).mat k c) * 2 ^ 5 + boolBit x.drain * 2 ^ 2 + c)

/-- R56, R205: `klease`. -/
def kleaseOf (s : State) : Dbl :=
  let k := s.cur.core
  let m := (berthOf s (coreBerth k)).mat
  if holdsLease m k s.cur.ctx then BitVec.ofNat 64 (2 ^ 7 + (m.lease.map (·.left)).getD 0)
  else BitVec.ofNat 64 (((m.reqs.find? (isLeaseReq k s.cur.ctx)).map (·.n)).getD 0)

/-- R258: the newest transfer id of a channel's count below which all transfers of the context have completed. -/
def kxferOf (x : Xfer) : Dbl := x.count.setWidth 64

/-- R374: event codes that a counter counts or, for fabric events, accepts. -/
def eventKnown (e : Nat) : Bool := (1 ≤ e && e ≤ 0xC) || (0x100 ≤ e && e ≤ 0x1FF)

/-- R374: a counter whose selector names a fabric event or an unsupported one reads zero. -/
def counterOf (t : Tab Dbl) (i : Nat) : Dbl :=
  let e := fieldOf (tabGet 0 t (0x108 + i)) 0 16
  if (tabGet 0 t (0x108 + i)).getLsbD 17 || 0x100 ≤ e then 0 else tabGet 0 t (0x100 + i)

/-- R57: WaitFlags. The flags of SFU instructions are the only ones that arrive later. -/
def waitFlags (k : Nat) : Act Unit := do
  if k = 0x011 then do
    let s ← get
    let b := berthOf s (coreBerth s.cur.core)
    let mine := isSfuOf s.cur.core s.cur.ctx
    if b.sfuQ.any mine || b.sfuRun.any mine || !(← here).sfuSaved.isEmpty then halt (.stall .other) else pure ()
  else pure ()

/-- R56: the value of a control register. A read of `kdrop` clears it; a read of a transfer count acquires (R258). -/
def readK (k : Nat) : Act Dbl := do
  let s ← get
  let x ← here
  let c := coreOf s s.cur.core
  match k with
  | 0x000 => pure (kstatOf s)
  | 0x001 => pure x.ktask
  | 0x002 => pure (BitVec.ofNat 64 s.cur.core)
  | 0x003 => pure x.kstage
  | 0x004 => pure x.kgroup
  | 0x008 => pure (x.krrb.setWidth 64)
  | 0x009 => pure (x.klc.setWidth 64)
  | 0x00A => pure (x.kec.setWidth 64)
  | 0x010 => pure (BitVec.ofNat 64 (kroundOf x))
  | 0x011 => pure (x.fflags.setWidth 64)
  | 0x012 => pure (boolDbl x.vtrap)
  | 0x030 => pure (c.chmask.setWidth 64)
  | 0x031 => pure (c.chprio.setWidth 64)
  | 0x040 => pure (kleaseOf s)
  | 0x048 => do
    set (acquire s (coreBerth s.cur.core) 4)
    pure (kxferOf x.xf0)
  | 0x049 => do
    set (acquire s (coreBerth s.cur.core) 4)
    pure (kxferOf x.xf1)
  | 0x050 => pure (x.ktrap.setWidth 64)
  | 0x051 => pure x.ktdetail
  | 0x052 => pure (x.ktrpc.setWidth 64)
  | 0x060 => pure (BitVec.ofNat 64 (s.clk - (quayOf s (coreQuay s.cur.core)).resetAt))
  | 0x061 => do
    modCore s.cur.core fun c => { c with drop := 0 }
    pure (c.drop.setWidth 64)
  | n =>
    if 0x100 ≤ n ∧ n < 0x108 then pure (counterOf c.obs (n - 0x100))
    else pure (tabGet 0 c.obs n)

/-- R374: a selector as written. -/
def selectorOf (v : Dbl) : Dbl :=
  BitVec.ofNat 64 (fieldOf v 20 4 * 2 ^ 20 + boolBit (!eventKnown (fieldOf v 0 16)) * 2 ^ 17 + fieldOf v 16 1 * 2 ^ 16 + fieldOf v 0 16)

/-- R32, R56: a write of `kchmask`; masking a channel resets its waiting time. -/
def setMask (s : State) (k : Nat) (m : BitVec 16) : State := refreshSince (setCore s k { coreOf s k with chmask := m }) k

/-- R5, R6, R56, R374: a write to the RW fields of a control register (DEDUCED: log entry 56). -/
def writeK (k : Nat) (v : Dbl) : Act Unit := do
  let core := (← get).cur.core
  match k with
  | 0x008 => modHere fun x => { x with krrb := v.setWidth 5 }
  | 0x009 => modHere fun x => { x with klc := v.setWidth 32 }
  | 0x00A => modHere fun x => { x with kec := v.setWidth 8 }
  | 0x010 => modHere fun x => { x with rmode := v.setWidth 3, seed := v.extractLsb' 32 32 }
  | 0x011 => modHere fun x => { x with fflags := v.setWidth 5 }
  | 0x012 => modHere fun x => { x with vtrap := v.getLsbD 0 }
  | 0x030 => modify fun s => setMask s core (v.setWidth 16)
  | 0x031 => modCore core fun c => { c with chprio := v.setWidth 32 }
  | n =>
    if 0x100 ≤ n ∧ n < 0x108 then
      modCore core fun c => { c with obs := tabPut c.obs n (BitVec.ofNat 64 (fieldOf v 0 48)) }
    else if 0x108 ≤ n ∧ n < 0x110 then modCore core fun c => { c with obs := tabPut c.obs n (selectorOf v) }
    else if 0x140 ≤ n ∧ n < 0x170 ∧ v = 0 then modCore core fun c => { c with obs := tabPut c.obs n 0 }
    else pure ()

/-- R57: a `kround` mode above 4 is not permitted. -/
def checkRound (k : Nat) (v : Dbl) (word : BitVec 32) : Act Unit :=
  check (k != 0x010 || fieldOf v 0 3 ≤ 4) cILLEGAL (illegalDetail 4 false word)

/-- R57. Reads a control register. -/
def execKread (k : BitVec 12) (d : BitVec 5) (s : State) : Outcome :=
  runInstr (if kAssigned k then none else some 4) (encKread k d) 4 (do
    scalarLink d false
    waitFlags k.toNat
    let v ← readK k.toNat
    writeX d v
    pure .seq) s

/-- R57. Writes the RW fields of a control register. -/
def execKwrite (k : BitVec 12) (a : BitVec 5) (s : State) : Outcome :=
  runInstr (if kAssigned k then none else some 4) (encKwrite k a) 4 (do
    scalarLink a false
    let v ← readX a false false
    checkRound k.toNat v (encKwrite k a)
    writeK k.toNat v
    pure .seq) s

/-- R57. Reads and writes a control register in one step. -/
def execKswap (k : BitVec 12) (a : BitVec 5) (d : BitVec 5) (s : State) : Outcome :=
  runInstr (if kAssigned k then none else some 4) (encKswap k a d) 4 (do
    scalarLink a false
    scalarLink d false
    let v ← readX a false false
    checkRound k.toNat v (encKswap k a d)
    waitFlags k.toNat
    let old ← readK k.toNat
    writeK k.toNat v
    writeX d old
    pure .seq) s

end Sys2Proof.Machine
end

