-- ==== Sys2Proof/Machine/Derive.lean ====
section
/-!
DEFINITION. Deriving capabilities (R88 to R93).
-/
namespace Sys2Proof.Machine

open Sys2Proof

/-- R89: the failure of check 5, step 10 with the operand value. -/
def widen (cause : BitVec 8) (reg v : Nat) : BitVec 8 × Dbl := (cause, det 10 reg 0 0 v)

/-- R89 checks 1 to 4 on a source register: tag, seal, D where needed, reserved operand bits zero. -/
def deriveCheck (c : Cap) (reg : Nat) (needsD : Bool) (v : Dbl) (used : Nat) : Chk Unit := do
  demand c.tag cTAG (det 1 reg 0 0 0)
  demand (!capSealed c) cSEALED (det 2 reg 0 0 0)
  demand (!needsD || capHas c pD) cPERM (det 3 reg 0 0 pD)
  demand (v.toNat &&& (2 ^ 64 - 1 - used) == 0) cILLEGAL v

/-- R73: a dimension that a derivation removed has extent 1 and stride 0. -/
def capSetDim (c : Cap) (d ext str : Nat) : Cap := capSetStr (capSetExt c d ext) d str

/-- R90: `cslice` after the common checks. Used by task-record delivery too (R40). A new base that breaks both its limit and the byte-start
rule reports CAP_WIDEN (DESIGN CHOICE: log entry 62). -/
def sliceCap (c : Cap) (reg v dim : Nat) (drop : Bool) (start count : Nat) : Chk Cap :=
  match elemBits (capFmt c) with
  | none => .error (cFORMAT, det 4 reg 0 0 (capFmt c))
  | some e => do
    let rank := capRank c
    let fail := widen cWIDEN reg v
    demand (dim < rank && 1 ≤ count && start + count ≤ capExt c dim) fail.1 fail.2
    demand (!drop || (count == 1 && dim + 1 == rank && 2 ≤ rank)) fail.1 fail.2
    let bits := start * capStr c dim * e
    demand (capBase c + bits / 8 < 2 ^ 48) fail.1 fail.2
    demand (8 ≤ e || bits % 8 == 0) cFORMAT (det 10 reg 0 0 v)
    let r := capSetBase c (capBase c + bits / 8)
    if drop then pure (capSetRank (capSetDim r dim 1 0) (rank - 1)) else pure (capSetExt r dim count)

/-- R90: `cstep`. -/
def stepCap (c : Cap) (reg : Nat) (v : Dbl) : Chk Cap := do
  let dim := fieldOf v 0 2
  let k := fieldOf v 2 24
  let fail := widen cWIDEN reg v.toNat
  demand (dim < capRank c && 1 ≤ k && capStr c dim * k < 2 ^ 24) fail.1 fail.2
  pure (capSetDim c dim (ceilDiv (capExt c dim) k) (capStr c dim * k))

/-- R90: `cperm`. -/
def permCap (c : Cap) (reg : Nat) (v : Dbl) : Chk Cap := do
  let rank := capRank c
  let p := fun (j : Nat) => fieldOf v (2 * j) 2
  let fail := widen cWIDEN reg v.toNat
  let used := List.range rank
  demand (used.all (fun j => p j < rank && used.all fun i => i == j || p i != p j) &&
    (List.range 4).all fun j => j < rank || p j == j) fail.1 fail.2
  pure (used.foldl (fun r j => capSetDim r j (capExt c (p j)) (capStr c (p j))) c)

/-- R90: `cfold`, merging dimensions j and j + 1 or splitting dimension j. -/
def foldCap (c : Cap) (reg : Nat) (v : Dbl) : Chk Cap := do
  let j := fieldOf v 0 2
  let f := fieldOf v 3 19
  let rank := capRank c
  let fail := widen cWIDEN reg v.toNat
  if v.getLsbD 2 then do
    demand (j < rank && rank < 4 && 1 ≤ f && capExt c j % f == 0 && capStr c j * f < 2 ^ 24) fail.1 fail.2
    let up := (List.range rank).foldl (fun r d => if j < d then capSetDim r (d + 1) (capExt c d) (capStr c d) else r) c
    pure (capSetRank (capSetDim (capSetDim up j f (capStr c j)) (j + 1) (capExt c j / f) (capStr c j * f)) (rank + 1))
  else do
    demand (j + 1 < rank && capStr c (j + 1) == capExt c j * capStr c j && capExt c j * capExt c (j + 1) ≤ 262144) fail.1 fail.2
    let down := (List.range rank).foldl (fun r d => if j + 1 < d then capSetDim r (d - 1) (capExt c d) (capStr c d) else r) c
    pure (capSetRank (capSetDim (capSetExt down j (capExt c j * capExt c (j + 1))) (rank - 1) 1 0) (rank - 1))

/-- R91: `cscope`. -/
def scopeCap (c : Cap) (reg : Nat) (v : Dbl) : Chk Cap := do
  let fail := widen cWIDEN reg v.toNat
  demand (fieldOf v 0 3 ≤ 5 && fieldOf v 0 3 ≤ capScope c) fail.1 fail.2
  pure (capSet c 232 3 (fieldOf v 0 3))

/-- R91: the `cfmt` table (DEDUCED: log entry 24). -/
def fmtCap (c : Cap) (reg : Nat) (v : Dbl) : Chk Cap :=
  let new := fieldOf v 0 6
  let old := capFmt c
  match elemBits new, elemBits old with
  | none, _ => .error (widen cFORMAT reg v.toNat)
  | _, none => .error (cFORMAT, det 4 reg 0 0 old)
  | some en, some eo =>
    let format := widen cFORMAT reg v.toNat
    if new = old then .ok c
    else if new = fRAW8 then do
      let q := eo / 8
      let dims := (List.range (capRank c)).filter (1 ≤ ·)
      let fail := widen cWIDEN reg v.toNat
      demand (eo % 8 == 0 && (eo == 8 || capStr c 0 == 1)) fail.1 fail.2
      demand (capExt c 0 * q ≤ 262144 && dims.all fun d => capStr c d * q < 2 ^ 24) fail.1 fail.2
      let r := dims.foldl (fun r d => capSetStr r d (capStr c d * q)) (capSetExt (capSetFmt c fRAW8) 0 (capExt c 0 * q))
      pure (capSetPerm r (capPerm c &&& pL))
    else if 0x30 ≤ old ∧ old ≤ 0x31 ∨ 0x30 ≤ new ∧ new ≤ 0x31 then .error format
    else if en = eo then .ok (capSetFmt c new)
    else .error format

/-- R88, R89: a derivation on a source register and a scalar operand. `used` has the operand bits that are not reserved. -/
def derive (f eb : BitVec 1) (b : BitVec 5) (a d : BitVec 4) (needsD : Bool) (used : Nat)
    (g : Cap → Nat → Dbl → Chk Cap) : Act Next := do
  scalarLink b (forwards f [] b)
  let c ← readC a.toNat
  let v ← readX b (bit eb) (forwards f [] b)
  liftChk (deriveCheck c a.toNat needsD v used)
  let r ← liftChk (g c a.toNat v)
  writeC d.toNat { r with tag := true }
  pure .seq

/-- R90. Narrows one dimension, optionally dropping the outermost. -/
def execCslice (f : BitVec 1) (eb : BitVec 1) (b : BitVec 5) (a : BitVec 4) (d : BitVec 4) (s : State) : Outcome :=
  runInstr (fwdRule f [b]) (encCslice f eb b a d) 4 (derive f eb b a d true (2 ^ 41 - 1 - 2 ^ 3) fun c r v =>
      sliceCap c r v.toNat (fieldOf v 0 2) (v.getLsbD 2) (fieldOf v 4 18) (fieldOf v 22 19)) s

/-- R90. Multiplies a dimension's stride. -/
def execCstep (f : BitVec 1) (eb : BitVec 1) (b : BitVec 5) (a : BitVec 4) (d : BitVec 4) (s : State) : Outcome :=
  runInstr (fwdRule f [b]) (encCstep f eb b a d) 4 (derive f eb b a d true (2 ^ 26 - 1) stepCap) s

/-- R90. Permutes the dimensions. -/
def execCperm (f : BitVec 1) (eb : BitVec 1) (b : BitVec 5) (a : BitVec 4) (d : BitVec 4) (s : State) : Outcome :=
  runInstr (fwdRule f [b]) (encCperm f eb b a d) 4 (derive f eb b a d true (2 ^ 8 - 1) permCap) s

/-- R90. Merges two dimensions or splits one; a merge reserves bits 21 to 3. -/
def execCfold (f : BitVec 1) (eb : BitVec 1) (b : BitVec 5) (a : BitVec 4) (d : BitVec 4) (s : State) : Outcome :=
  runInstr (fwdRule f [b]) (encCfold f eb b a d) 4 (do
    derive f eb b a d true (2 ^ 22 - 1) fun c r v => do
      demand (v.getLsbD 2 || fieldOf v 3 19 == 0) cILLEGAL v
      foldCap c r v) s

/-- R91. Ands the permission field with a mask. -/
def execCrestrict (f : BitVec 1) (eb : BitVec 1) (b : BitVec 5) (a : BitVec 4) (d : BitVec 4) (s : State) : Outcome :=
  runInstr (fwdRule f [b]) (encCrestrict f eb b a d) 4 (derive f eb b a d false (2 ^ 8 - 1) fun c _ v => pure (capSetPerm c (capPerm c &&& fieldOf v 0 8))) s

/-- R91. Narrows the scope. -/
def execCscope (f : BitVec 1) (eb : BitVec 1) (b : BitVec 5) (a : BitVec 4) (d : BitVec 4) (s : State) : Outcome :=
  runInstr (fwdRule f [b]) (encCscope f eb b a d) 4 (derive f eb b a d true (2 ^ 3 - 1) scopeCap) s

/-- R91. Changes the element format. -/
def execCfmt (f : BitVec 1) (eb : BitVec 1) (b : BitVec 5) (a : BitVec 4) (d : BitVec 4) (s : State) : Outcome :=
  runInstr (fwdRule f [b]) (encCfmt f eb b a d) 4 (derive f eb b a d true (2 ^ 6 - 1) fmtCap) s

/-- R92: a field of a capability register. -/
def capGet (c : Cap) (n : Nat) : Nat :=
  match n with
  | 0 => capBase c
  | 1 => capFmt c
  | 2 => capRank c
  | 3 => capExtField c 0
  | 4 => capExtField c 1
  | 5 => capExtField c 2
  | 6 => capExtField c 3
  | 7 => capStrField c 0
  | 8 => capStrField c 1
  | 9 => capStrField c 2
  | 10 => capStrField c 3
  | 11 => capPerm c
  | 12 => capScope c
  | 13 => boolBit (capSealed c)
  | 14 => capOtype c
  | _ => boolBit c.tag

/-- R92. Writes a field of a capability register to a scalar register. -/
def execCget (n : BitVec 5) (a : BitVec 4) (d : BitVec 5) (s : State) : Outcome :=
  runInstr (below n.toNat 16) (encCget n a d) 4 (do
    scalarLink d false
    let c ← readC a.toNat
    writeX d (BitVec.ofNat 64 (capGet c n.toNat))
    pure .seq) s

/-- R92. Copies a capability register with its tag. -/
def execCmove (a : BitVec 4) (d : BitVec 4) (s : State) : Outcome :=
  runInstr none (encCmove a d) 4 (do
    let c ← readC a.toNat
    writeC d.toNat c
    pure .seq) s

/-- R93. Seals a capability under a sealing authority. -/
def execCseal (b : BitVec 4) (a : BitVec 4) (d : BitVec 4) (s : State) : Outcome :=
  runInstr none (encCseal b a d) 4 (do
    let c ← readC a.toNat
    let k ← readC b.toNat
    check k.tag cTAG (det 1 b.toNat 0 0 0)
    check (!capSealed k) cSEALED (det 2 b.toNat 0 0 0)
    check (capHas k pK) cPERM (det 3 b.toNat 0 0 pK)
    check c.tag cTAG (det 1 a.toNat 0 0 0)
    check (!capSealed c) cSEALED (det 2 a.toNat 0 0 0)
    writeC d.toNat (capSet (capSet c 235 1 1) 236 12 (capOtype k))
    pure .seq) s

end Sys2Proof.Machine
end

