-- ==== Sys2Proof/Machine/Compact.lean ====
section
/-!
DEFINITION. The compact instructions (R63, R176), and the jump and task end that their 32-bit forms share.
-/
namespace Sys2Proof.Machine

open Sys2Proof

/-- R35, R338: the executing context ends its task; what a counted rewrite task wrote is released to its partition. -/
def doneTask : Act Next := do
  if (← here).netTask.isSome then releaseHere 4 else pure ()
  modify fun s => finishTask s s.cur.core s.cur.ctx
  pure .stay

/-- R63. No effect. -/
def execCNop (s : State) : Outcome :=
  runInstr none encCNop 2 (pure .seq) s

/-- R63. xd := xb. -/
def execCMv (b : BitVec 5) (d : BitVec 5) (s : State) : Outcome :=
  runInstr none (encCMv b d) 2 (formK b d pure) s

/-- R63. xd := the sign-extended immediate. -/
def execCLi (i : BitVec 6) (d : BitVec 5) (s : State) : Outcome :=
  runInstr none (encCLi i d) 2 (do
    scalarLink d false
    writeX d (i.signExtend 64)
    pure .seq) s

/-- R63. xd := xd + the immediate. -/
def execCAddi (i : BitVec 6) (d : BitVec 5) (s : State) : Outcome :=
  runInstr none (encCAddi i d) 2 (formK d d fun x => pure (x + i.signExtend 64)) s

/-- R63, R176. xd := xd + xb. -/
def execCAdd (b : BitVec 5) (d : BitVec 5) (s : State) : Outcome :=
  runInstr none (encCAdd b d) 2 (formC2 b d fun x y => x + y) s

/-- R63, R176. xd := xd − xb. -/
def execCSub (b : BitVec 5) (d : BitVec 5) (s : State) : Outcome :=
  runInstr none (encCSub b d) 2 (formC2 b d fun x y => x - y) s

/-- R63, R176. xd := xd and xb. -/
def execCAnd (b : BitVec 5) (d : BitVec 5) (s : State) : Outcome :=
  runInstr none (encCAnd b d) 2 (formC2 b d fun x y => x &&& y) s

/-- R63, R176. xd := xd or xb. -/
def execCOr (b : BitVec 5) (d : BitVec 5) (s : State) : Outcome :=
  runInstr none (encCOr b d) 2 (formC2 b d fun x y => x ||| y) s

/-- R63, R176. xd := xd · 2^sh. -/
def execCSlli (sh : BitVec 6) (d : BitVec 5) (s : State) : Outcome :=
  runInstr none (encCSlli sh d) 2 (formK d d fun x => pure (x <<< sh.toNat)) s

/-- R63, R176. xd := ⌊xd / 2^sh⌋. -/
def execCSrli (sh : BitVec 6) (d : BitVec 5) (s : State) : Outcome :=
  runInstr none (encCSrli sh d) 2 (formK d d fun x => pure (x >>> sh.toNat)) s

/-- R63: a compact branch on xd. -/
def compactBranch (i : BitVec 6) (d : BitVec 5) (g : Dbl → Bool) : Act Next := do
  scalarLink d false
  let x ← readX d false false
  let c ← here
  if g x then pure (.jump (c.pc + 2 * i.signExtend 64)) else pure .seq

/-- R63. Branches when xd is zero. -/
def execCBeqz (i : BitVec 6) (d : BitVec 5) (s : State) : Outcome :=
  runInstr none (encCBeqz i d) 2 (compactBranch i d fun x => x == 0) s

/-- R63. Branches when xd is not zero. -/
def execCBnez (i : BitVec 6) (d : BitVec 5) (s : State) : Outcome :=
  runInstr none (encCBnez i d) 2 (compactBranch i d fun x => x != 0) s

/-- R63. Jumps. -/
def execCJ (i : BitVec 11) (s : State) : Outcome :=
  runInstr none (encCJ i) 2 (do pure (.jump ((← here).pc + 2 * i.signExtend 64))) s

/-- R170: a jump to a register plus an offset, linking to xd; an odd target traps with ALIGN. -/
def jumpReg (f ea : BitVec 1) (k : BitVec 12) (a d : BitVec 5) (len : Nat) : Act Next := do
  scalarLink a (forwards f [] a)
  scalarLink d false
  let x ← readX a (bit ea) (forwards f [] a)
  let target := x + k.signExtend 64
  check (!target.getLsbD 0) cALIGN (BitVec.ofNat 64 (target.toNat % 2 ^ 48))
  let c ← here
  writeX d (c.pc + BitVec.ofNat 64 len)
  pure (.jump target)

/-- R63, R176. As jalr x0, x26, 0. -/
def execCRet (s : State) : Outcome :=
  runInstr none encCRet 2 (jumpReg 0 0 0 26 0 2) s

/-- R35, R63. Ends the task. -/
def execCDone (s : State) : Outcome :=
  runInstr none encCDone 2 (doneTask) s

end Sys2Proof.Machine
end

