-- ==== Sys2Proof/Machine/Inbox.lean ====
section
/-!
DEFINITION. Inboxes and who may use them: the limits of R28, the cores whose work is put away (R254), the destination of a task record
(R40, R297, R298) and the entries that cores keep for records (R389).
-/
namespace Sys2Proof.Machine

open Sys2Proof

/-- R28: whether an inbox accepts a message of a network, reserved entries counted as requests. -/
def inboxRoom (c : Core) (vn : Nat) : Bool :=
  let count := fun (n : Nat) => (c.inbox.filter fun f => hdrVn f.header == n).length
  let rq := count 0 + c.reserved.length + c.owed.length
  let total := rq + count 1 + count 2
  total < 32 && (vn == 2 || (rq + count 1 < 30 && (vn == 1 || rq < 26)))

/-- R309: whether a quay's berth array is fenced, so that nothing reaches its cores. -/
def quayLost (s : State) (q : Nat) : Bool :=
  match (quayOf s q).mode with
  | .fenced => true
  | .resetting => true
  | _ => false

/-- R310: fields of a schedule entry (DEDUCED: log entry 33). -/
def tsPart (v : Dbl) : Nat := fieldOf v 0 4
def tsValid (v : Dbl) : Bool := v.getLsbD 4

/-- R114, R254: whether a time-sliced berth is shared by a partition, by the schedule of R310 (DEDUCED: log entry 33). -/
def slicedFor (s : State) (b part : Nat) : Bool :=
  (berthOf s b).owner.getLsbD 7 && !(berthOf s b).owner.getLsbD 6 &&
    s.glob.tsEnt.any fun e => tsValid e.2 && tsPart e.2 == part

/-- R254: whether a message to a core goes to a spill queue: the core's own work is put away, or its queue still holds messages. -/
def goesAway (s : State) (k part : Nat) : Bool :=
  let c := coreOf s k
  c.preempted || berthPart s (coreBerth k) != some part || !(tabGet [] c.spill part).isEmpty

/-- R254: whether a berth runs a partition, is shared by it or holds it saved. -/
def inhabits (s : State) (part b : Nat) : Bool :=
  berthPart s b == some part || slicedFor s b part || (berthOf s b).saved.any fun x => x.part == part

/-! ### Task records -/

/-- A double of a granule. -/
def granDouble (g : Gran) (i : Nat) : Dbl := g.extractLsb' (64 * i) 64

/-- R39: word w of a task record. -/
def recWord (g : Gran) (w : Nat) : Nat := bitsAt g.toNat (32 * w) 32

/-- R297: the template that a record names. -/
def templateOf (s : State) (part : Nat) (g : Gran) : Option (CodeObject × TemplateDecl) :=
  match tabFind? (partOf s part).objs (bitsAt (recWord g 0) 16 8) with
  | none => none
  | some o => (o.templates[bitsAt (recWord g 0) 0 16]?).map fun t => (o, t)

/-- R298: the core that a record's message goes to, where it names one that runs or holds its partition (DEDUCED: log entry 35). -/
def recordCore (s : State) (r : TaskRec) : Option Nat :=
  match templateOf s r.part r.rec_ with
  | none => none
  | some (_, t) =>
    let k := if t.dst.getLsbD 9 then
        match resolveLogical s r.place (t.dst.toNat % 512) with
        | some (.core k) => some k
        | _ => none
      else some (t.dst.toNat % 512)
    k.filter fun k => !quayLost s (coreQuay k) && inhabits s r.part (coreBerth k)

/-- R40: whether a record can be delivered: its instance is in range and its argument capability can be sliced there. -/
def recordCap (s : State) (r : TaskRec) : Option Cap :=
  match templateOf s r.part r.rec_ with
  | none => none
  | some (o, t) =>
    let inst := recWord r.rec_ 1
    let c := o.caps.getD t.capIndex Cap.null
    if t.count ≤ inst ∨ !c.tag ∨ capSealed c ∨ capRank c < 2 ∨ capExt c (capRank c - 1) ≤ inst then none
    else
      match sliceCap c 0 0 (capRank c - 1) true inst 1 with
      | .ok d => some d
      | .error _ => none

/-- R298: the head record of a partition in a segment. -/
def headRecord (sl : Slice) (part : Nat) : Option TaskRec := sl.seg.find? fun r => r.part == part

/-- R389: a slice agent's request of a core for an inbox entry, granted or refused, stands while the partition's head record can be delivered
to that core. -/
def askStands (s : State) (k : Nat) (key : Nat × Nat) : Bool :=
  match headRecord (sliceOf s key.1) key.2 with
  | none => false
  | some r => (recordCap s r).isSome && recordCore s r == some k

/-- R28, R389: a core with the entries that it keeps, and the requests that it has refused, as they stand now. -/
def inboxOf (s : State) (k : Nat) : Core :=
  let c := coreOf s k
  { c with reserved := c.reserved.filter (askStands s k), refused := c.refused.filter (askStands s k) }

end Sys2Proof.Machine
end

