-- ==== Sys2Proof/Machine/Vector.lean ====
section
/-!
DEFINITION. The operand forms of the vector instructions (R177, R178, R183): which elements are active, how sources are read,
how a masked result merges, and how a rounding form collects its flags.
-/
namespace Sys2Proof.Machine

open Sys2Proof

/-- R177: whether element j of `e` bits is active under a mask. -/
def active (mask : BitVec 16) (e j : Nat) : Bool := mask.getLsbD (e * j / 8)

/-- R177: a quad from the elements that a function gives for the active ones; the others keep their value in `old`. -/
def mergeElems (mask : BitVec 16) (e : Nat) (old : Quad) (g : Nat → Nat) : Quad :=
  BitVec.ofNat 128 (packElems e ((List.range (vecCount e)).map fun j => if active mask e j then g j else elemOf old.toNat e j))

/-- R177, R178: vd as a source where a mask other than m0 merges into it. -/
def readOld (m : BitVec 3) (v : BitVec 6) : Act Quad := if m = 0 then pure 0 else readV v

/-- R178, R180: two vector sources, element by element; the function has the element width. -/
def formV (m : BitVec 3) (e : Nat) (b a v : BitVec 6) (g : Nat → Nat → Nat → Nat) : Act Next := do
  vectorLink a
  vectorLink b
  vectorLink v
  let x ← readV a
  let y ← readV b
  let old ← readOld m v
  let mask ← readM m
  writeV v (mergeElems mask e old fun j => g e (elemOf x.toNat e j) (elemOf y.toNat e j))
  pure .seq

/-- R178: one vector source, element by element. -/
def formV1 (m : BitVec 3) (e : Nat) (a v : BitVec 6) (g : Nat → Nat → Nat) : Act Next := do
  vectorLink a
  vectorLink v
  let x ← readV a
  let old ← readOld m v
  let mask ← readM m
  writeV v (mergeElems mask e old fun j => g e (elemOf x.toNat e j))
  pure .seq

/-- R183: the union of the flags that active elements raise. -/
def flagsOf (mask : BitVec 16) (e : Nat) (g : Nat → BitVec 5) : BitVec 5 :=
  (List.range (vecCount e)).foldl (fun acc j => if active mask e j then acc ||| g j else acc) 0

/-- R182, R183: a rounding form on a floating format; `acc` says that vd is read as a third source. -/
def formVF (m : BitVec 3) (fmt : Nat) (b a v : BitVec 6) (acc : Bool)
    (g : Nat → Rounding → Nat → Nat → Nat → Nat × BitVec 5) : Act Next := do
  let e := (elemBits fmt).getD 32
  vectorLink a
  vectorLink b
  vectorLink v
  let x ← readV a
  let y ← readV b
  let old ← if acc then readV v else readOld m v
  let mask ← readM m
  let ms ← takeRound
  let r := fun (j : Nat) => g fmt (roundingOf ms j) (elemOf x.toNat e j) (elemOf y.toNat e j) (elemOf old.toNat e j)
  addFlags (flagsOf mask e fun j => (r j).2)
  writeV v (mergeElems mask e old fun j => (r j).1)
  pure .seq

end Sys2Proof.Machine
end

