-- ==== Sys2Proof/Machine/Msg.lean ====
section
/-!
DEFINITION. The message instructions (R248 to R253), the way of a message (R246, R247, R254 to R256, R320), and the start of
a task (R32 to R34, R326).
-/
namespace Sys2Proof.Machine

open Sys2Proof

/-- A message enters the send queue of its network; it counts as sent by the executing context (R374). -/
def enqueueSend (f : Flight) : Act Unit := do
  let s ← get
  let k := s.cur.core
  let vn := hdrVn f.header
  let c := coreOf s k
  set (countEvent (setCore s k { c with sendq := tabPut c.sendq vn (tabGet [] c.sendq vn ++ [f]) }) k s.cur.ctx 0xB 1)

/-- Runs a meaning; when it stalls, nothing of it happened. -/
def tryAct {α : Type} (act : Act α) : Act (Except Wait α) := fun s =>
  match act s with
  | .ok (v, t) => .ok (.ok v, t)
  | .error (.stall why) => .ok (.error why, s)
  | .error e => .error e

/-- R249: payload read j, counted from 0, of a block that starts at register b: one word, or two for a vector. Only the first
read of a link port can trap when the port is empty. -/
def payloadRead (vec : Bool) (f eb : BitVec 1) (b : BitVec 5) (j : Nat) : Act (List Dbl) := do
  let x ← here
  let port := isPort b
  let trap := (if vec then x.vtrap else bit eb) && !(port && 0 < j)
  let n := if port then b.toNat else b.toNat + j
  if vec then do
    let v ← if port then popForward (n - 28) true (f == 1) trap n
      else do
        needFull (tabGet .full x.vs n) trap 1 n
        pure (tabGet 0 x.v n)
    pure [v.extractLsb' 0 64, v.extractLsb' 64 64]
  else if port then do
    let v ← popForward (n - 28) false (f == 1) trap n
    pure [v.extractLsb' 0 64]
  else do
    let v ← readX (BitVec.ofNat 5 n) trap false
    pure [v]

/-- R249: the payload reads still to make, until one stalls: the words, and what it waits for (DEDUCED: log entry 31). -/
def gather (read : Nat → Act (List Dbl)) : Nat → Nat → List Dbl → Act (List Dbl × Option Wait)
  | 0, _, ws => pure (ws, none)
  | n + 1, j, ws => do
    match ← tryAct (read j) with
    | .ok v => gather read n (j + 1) (ws ++ v)
    | .error why => pure (ws, some why)

/-- R26: the scope that the distance to a destination requires of a carried capability. -/
def sendScope (core : Nat) (h : Dbl) (cap : Cap) (reg : Nat) : Act Unit :=
  let w := distance core (hdrDst h)
  check (hdrLogical h || !cap.tag || w ≤ capScope cap) cSCOPE (det 9 reg 0 0 (capScope cap + w * 2 ^ 8))

/-- R249: a send form once its header is known (DEDUCED: log entry 31). -/
def sendForm (vec : Bool) (word : BitVec 32) (f eb ea : BitVec 1) (b : BitVec 5) (d : Nat) (h : Dbl) : Act Next := do
  let s ← get
  let k := s.cur.core
  let x ← here
  let cnt := if vec then (hdrN h + 1) / 2 else if hdrCapword h then 3 else hdrN h
  check (!hdrMalformed h && !(hdrCapword h && vec)) cILLEGAL h
  check (hdrCapword h || d == 0) cILLEGAL h
  check (cnt == 0 || isPort b || b.toNat + cnt ≤ 28) cILLEGAL h
  check (cnt != 0 || b == 0) cILLEGAL (illegalDetail 2 false word)
  let cap ← if hdrCapword h then readC d else pure Cap.null
  sendScope k h cap d
  check (logicalOk s k h) cILLEGAL h
  let h := stampHeader h k (otypeOf x)
  let vn := hdrVn h
  if x.sendHold != some vn && 8 ≤ sendQueued s k vn then
    halt (if bit ea && x.popped.isEmpty then .trap cSENDQ h else .stall .other)
  else pure ()
  let done := if vec then x.popped.length / 2 else x.popped.length
  let (ws, stall) ← gather (payloadRead vec f eb b) (cnt - done) done x.popped
  match stall with
  | none => do
    modHere fun x => { x with popped := [], sendHold := none }
    enqueueSend ⟨h, ws.take (if hdrCapword h then 3 else hdrN h), cap, x.part, .sent, .core k, k, none, (coreOf s k).place, false, 0, 0⟩
    pure .seq
  | some why =>
    if x.sendHold = some vn ∧ ws.length = x.popped.length then halt (.stall why)
    else do
      modHere fun x => { x with popped := if isPort b then ws else [], sendHold := some vn }
      pure .stay

/-- R64 step 3: the link-port operands of a send form. -/
def payloadLink (vec : Bool) (f : BitVec 1) (b : BitVec 5) : Act Unit :=
  if isPort b then linkCheck (b.toNat - 28) vec (f == 1) else pure ()

/-- R248: `send` on a network (DEDUCED: log entry 31). -/
def sendOn (vn : Nat) (word : BitVec 32) (f eb ea : BitVec 1) (b a : BitVec 5) (d : BitVec 4) : Act Next := do
  payloadLink false f b
  let h ← readX a (bit ea) false
  sendForm false word f eb ea b d.toNat (setField h 14 2 vn)

/-- R249. Sends a message on the request network. -/
def execSendRq (f : BitVec 1) (eb : BitVec 1) (ea : BitVec 1) (b : BitVec 5) (a : BitVec 5) (d : BitVec 4) (s : State) : Outcome :=
  runInstr ((fwdRule f [b]).or (portRule a)) (encSendRq f eb ea b a d) 4 (sendOn 0 (encSendRq f eb ea b a d) f eb ea b a d) s

/-- R249. Sends a message on the reply network. -/
def execSendRp (f : BitVec 1) (eb : BitVec 1) (ea : BitVec 1) (b : BitVec 5) (a : BitVec 5) (d : BitVec 4) (s : State) : Outcome :=
  runInstr ((fwdRule f [b]).or (portRule a)) (encSendRp f eb ea b a d) 4 (sendOn 1 (encSendRp f eb ea b a d) f eb ea b a d) s

/-- R249. Sends a message on the system network. -/
def execSendSy (f : BitVec 1) (eb : BitVec 1) (ea : BitVec 1) (b : BitVec 5) (a : BitVec 5) (d : BitVec 4) (s : State) : Outcome :=
  runInstr ((fwdRule f [b]).or (portRule a)) (encSendSy f eb ea b a d) 4 (sendOn 2 (encSendSy f eb ea b a d) f eb ea b a d) s

/-- R248: `sendn` to the neighbour in a direction. -/
def sendNear (dir : Nat) (word : BitVec 32) (f eb ea : BitVec 1) (b a : BitVec 5) (d : BitVec 4) : Act Next := do
  match neighbour (← get).cur.core dir with
  | none => halt (.trap cNOLINK (linkDetail dir false false))
  | some n => do
    payloadLink false f b
    let h ← readX a (bit ea) false
    sendForm false word f eb ea b d.toNat (setField (setField h 0 9 n) 9 1 0)

/-- R249. Sends to the north neighbour. -/
def execSendnN (f : BitVec 1) (eb : BitVec 1) (ea : BitVec 1) (b : BitVec 5) (a : BitVec 5) (d : BitVec 4) (s : State) : Outcome :=
  runInstr ((fwdRule f [b]).or (portRule a)) (encSendnN f eb ea b a d) 4 (sendNear 0 (encSendnN f eb ea b a d) f eb ea b a d) s

/-- R249. Sends to the east neighbour. -/
def execSendnE (f : BitVec 1) (eb : BitVec 1) (ea : BitVec 1) (b : BitVec 5) (a : BitVec 5) (d : BitVec 4) (s : State) : Outcome :=
  runInstr ((fwdRule f [b]).or (portRule a)) (encSendnE f eb ea b a d) 4 (sendNear 1 (encSendnE f eb ea b a d) f eb ea b a d) s

/-- R249. Sends to the south neighbour. -/
def execSendnS (f : BitVec 1) (eb : BitVec 1) (ea : BitVec 1) (b : BitVec 5) (a : BitVec 5) (d : BitVec 4) (s : State) : Outcome :=
  runInstr ((fwdRule f [b]).or (portRule a)) (encSendnS f eb ea b a d) 4 (sendNear 2 (encSendnS f eb ea b a d) f eb ea b a d) s

/-- R249. Sends to the west neighbour. -/
def execSendnW (f : BitVec 1) (eb : BitVec 1) (ea : BitVec 1) (b : BitVec 5) (a : BitVec 5) (d : BitVec 4) (s : State) : Outcome :=
  runInstr ((fwdRule f [b]).or (portRule a)) (encSendnW f eb ea b a d) 4 (sendNear 3 (encSendnW f eb ea b a d) f eb ea b a d) s

/-- R249. Sends a message whose payload comes from vector registers. -/
def execSendv (f : BitVec 1) (eb : BitVec 1) (ea : BitVec 1) (b : BitVec 5) (a : BitVec 5) (s : State) : Outcome :=
  runInstr ((fwdRule f [b]).or (portRule a)) (encSendv f eb ea b a) 4 (do
    payloadLink true f b
    let h ← readX a (bit ea) false
    sendForm true (encSendv f eb ea b a) f eb ea b 0 h) s

/-- R251: whether the message that started a task can be replied to and bounced. -/
def replies (m : MsgKind) : Bool :=
  match m with
  | .start | .record _ | .pair | .copyDone | .matrixDone | .bounced => false
  | _ => true

/-- R251: the header of a reply. -/
def replyHeader (t : Dbl) (n : Nat) (capword : Bool) : Dbl :=
  header (hdrUtag t) 0 (hdrClass t) 0 0 0 (boolBit capword) n 1 (hdrRch t) (hdrSrc t)

/-- R249, R251. Replies to the message that started the task. -/
def execReply (f : BitVec 1) (eb : BitVec 1) (ea : BitVec 1) (b : BitVec 5) (n : BitVec 3) (d : BitVec 4) (s : State) : Outcome :=
  runInstr (fwdRule f [b]) (encReply f eb ea b n d) 4 (do
    payloadLink false f b
    let x ← here
    check (replies x.kind) cILLEGAL x.ktask
    sendForm false (encReply f eb ea b n d) f eb ea b d.toNat (replyHeader x.ktask n.toNat (d != 0))) s

/-- R252: the header of the message that `bounce` returns (DESIGN CHOICE: log entry 62). -/
def bounceHeader (t : Dbl) (core otype : Nat) : Dbl :=
  stampHeader (setField (setField (setField (setField t 0 9 (hdrSrc t)) 9 1 0) 10 4 (hdrRch t)) 14 2 1) core otype

/-- R252. Returns the task's message to its sender, or counts it as dropped, and ends the task. -/
def execBounce (s : State) : Outcome :=
  runInstr none encBounce 4 (do
    let s ← get
    let k := s.cur.core
    let x ← here
    if hdrBounce x.ktask && replies x.kind then do
      let n := if hdrCapword x.ktask then 3 else hdrN x.ktask
      let ws ← collect (fun i => readX (BitVec.ofNat 5 (i + 1)) false false) (List.range n)
      let cap ← if hdrCapword x.ktask then readC 13 else pure Cap.null
      let h := bounceHeader x.ktask k (otypeOf x)
      sendScope k h cap 13
      if 8 ≤ sendQueued s k 1 then halt (.stall .other) else pure ()
      enqueueSend ⟨h, ws, cap, x.part, .bounced, .core k, k, none, none, false, 0, 0⟩
    else do
      modCore k fun c => { c with drop := if c.drop = 0xFFFFFFFF then c.drop else c.drop + 1 }
      modify fun s => countEvent s k s.cur.ctx 0xC 1
    doneTask) s

/-- R252. Ends the task. -/
def execDone (s : State) : Outcome :=
  runInstr none encDone 4 (doneTask) s

/-- R253: sources of `chmask` and `chprio`. -/
def chanSources (f eb ea : BitVec 1) (b a d : BitVec 5) : Act (Dbl × Dbl) := do
  scalarLink a (forwards f [] a)
  scalarLink b (forwards f [a] b)
  scalarLink d false
  let x ← readX a (bit ea) (forwards f [] a)
  let y ← readX b (bit eb) (forwards f [a] b)
  pure (x, y)

/-- R253. Changes selected bits of `kchmask` and returns the old value. -/
def execChmask (f : BitVec 1) (eb : BitVec 1) (ea : BitVec 1) (b : BitVec 5) (a : BitVec 5) (d : BitVec 5) (s : State) : Outcome :=
  runInstr (fwdRule f [a, b]) (encChmask f eb ea b a d) 4 (do
    let (x, y) ← chanSources f eb ea b a d
    check (fieldOf x 16 48 == 0 && fieldOf y 16 48 == 0) cILLEGAL (illegalDetail 4 false (encChmask f eb ea b a d))
    let s ← get
    let k := s.cur.core
    let old := (coreOf s k).chmask
    let sel := y.setWidth 16
    let m := (old &&& ~~~ sel) ||| (x.setWidth 16 &&& sel)
    modify fun s => refreshSince (setCore s k { coreOf s k with chmask := m }) k
    writeX d (old.setWidth 64)
    pure .seq) s

/-- R253. Changes the priority of a channel and returns the old one. -/
def execChprio (f : BitVec 1) (eb : BitVec 1) (ea : BitVec 1) (b : BitVec 5) (a : BitVec 5) (d : BitVec 5) (s : State) : Outcome :=
  runInstr (fwdRule f [a, b]) (encChprio f eb ea b a d) 4 (do
    let (x, y) ← chanSources f eb ea b a d
    check (fieldOf x 4 60 == 0 && fieldOf y 2 62 == 0) cILLEGAL (illegalDetail 4 false (encChprio f eb ea b a d))
    let s ← get
    let k := s.cur.core
    let old := (coreOf s k).chprio
    let lo := 2 * fieldOf x 0 4
    let v := old.toNat - bitsAt old.toNat lo 2 * 2 ^ lo + fieldOf y 0 2 * 2 ^ lo
    modCore k fun c => { c with chprio := BitVec.ofNat 32 v }
    writeX d (BitVec.ofNat 64 (bitsAt old.toNat lo 2))
    pure .seq) s

/-! ### The way of a message -/

/-- R320: the rate that the stream table grants a core of a partition (DEDUCED: log entry 32). -/
def streamRate (g : Glob) (core part : Nat) : Option Nat :=
  (g.rtEnt.find? fun e => e.2.getLsbD 13 && fieldOf e.2 9 4 == part && fieldOf e.2 0 9 == core).map fun e => fieldOf e.2 16 8

/-- R320: a class-0 message of software leaves in class 1 unless its stream's rate has room in this window of 1,024 clk (DEDUCED: log entry 32). -/
def demote (s : State) (k : Nat) (f : Flight) : Flight × State :=
  if hdrClass f.header ≠ 0 then (f, s)
  else
    let low := { f with header := setField f.header 34 2 1 }
    match streamRate s.glob k f.part with
    | none => (low, s)
    | some rate =>
      let key := 16 * k + f.part
      let w := s.clk / 1024
      let u := tabGet (w, 0) s.glob.rtUsed key
      let n := if u.1 = w then u.2 else 0
      if n < rate then (f, { s with glob := { s.glob with rtUsed := tabPut s.glob.rtUsed key (w, n + 1) } }) else (low, s)

/-- R45, R246, R247. The oldest message of a send queue enters the mesh; a request's owner accepts it. -/
def execMessageLeavesSendQueue (core : Nat) (vn : Nat) (s : State) : Outcome :=
  runEvent (do
    let s ← get
    let c := coreOf s core
    match tabGet [] c.sendq vn with
    | [] => halt .disabled
    | f :: r => do
      let s := setCore s core { c with sendq := tabPut c.sendq vn r }
      match f.kind with
      | .request id => set (match tabFind? s.reqs id with
        | some q => { s with reqs := tabPut s.reqs id { q with sent := true } }
        | none => s)
      | _ => do
        let (f, s) := demote s core f
        set (post s f)) s

/-- R27, R393: whether an earlier message of the mesh must arrive before another: one of the same src, dst, network and class, or, from
one slice agent or atomic unit, one to the same core on the same network and class. -/
def sameStream (s : State) (a b : Flight) : Bool :=
  hdrVn a.header == hdrVn b.header && hdrClass a.header == hdrClass b.header &&
    (if isOwner a.origin || isOwner b.origin then
      a.origin == b.origin && (destCore s a == destCore s b || (hdrDst a.header == hdrDst b.header && hdrLogical a.header == hdrLogical b.header))
    else hdrSrc a.header == hdrSrc b.header && hdrDst a.header == hdrDst b.header && hdrLogical a.header == hdrLogical b.header)

/-- R319: how many messages a core's spill queue of a partition holds (DEDUCED: log entry 33). -/
def spillRoom (p : Partition) : Nat := 2 ^ (min 8 (fieldOf p.sqBase 0 4) + 4)

/-- R319: an entry goes into the spill queue of core n, or into the pending spill ring of launch slot n - 512. -/
def touchSpill (s : State) (part n : Nat) : State :=
  let p := partOf s part
  let size := 64 * spillRoom p
  touchRing s part (fieldOf p.sqBase 12 36 * 4096 + n * size) size

/-- R310: the other fields of a schedule entry (DEDUCED: log entry 33). -/
def tsDeadline (v : Dbl) : Nat := fieldOf v 8 12
def tsLength (v : Dbl) : Nat := fieldOf v 20 20

/-- R326: the handler of the rule table of a launch for two kinds. -/
def ruleFor (s : State) (id : Nat) (k1 k2 : Nat) : Option (Cap × BitVec 48) :=
  match launchOf s id with
  | none => none
  | some l =>
    match tabFind? (partOf s l.part).objs (lnObject l) with
    | none => none
    | some o =>
      (o.rules.find? fun r => (r.kindA.toNat == k1 && r.kindB.toNat == k2) || (r.kindA.toNat == k2 && r.kindB.toNat == k1)).map
        fun r => (o.code, r.addr)

/-- R29, R326: the handler that a message starts: the rule of its pair's kinds on a rewrite channel, else the binding's entry;
`none` on a rewrite channel without an entry. -/
def handlerOf (s : State) (b : Binding) (f : Flight) : Option (Cap × BitVec 48) :=
  let plain := if b.rewrite && !b.entry.tag then none else some (b.entry, b.epc)
  match f.kind, f.net with
  | .pair, some id =>
    if b.rewrite then
      let w := f.words.getD 2 0
      (ruleFor s id (fieldOf w 0 16) (fieldOf w 16 16)).or plain
    else plain
  | _, _ => plain

/-- R306: the berths' reservations for the named groups end. -/
def unreserve (s : State) (of : Nat × Nat → Bool) : State :=
  { s with berths := s.berths.map fun (e : Nat × Berth) => (e.1, if e.2.reservedFor.any of then { e.2 with reservedFor := none } else e.2) }

/-- R305, R309: the quay whose harbourmaster serves for a quay: the other one after a fence. -/
def livingQuay (s : State) (q : Nat) : Nat := if quayLost s q then 1 - q else q

/-- R305, R309, R316: the quay that homes a launch, suspended ones included. -/
def launchQuay (s : State) (id : Nat) : Nat :=
  match launchOf s id with
  | some l => l.home
  | none => id / 32 % 2

/-- R364: an inbox acceptance, with the sender's number of the message. In replay it is the log's number (DEDUCED: log entry 51). -/
def logArrival (k : Nat) (f : Flight) : Act Unit := do
  let p := partOf (← get) f.part
  let e := fun (n : Nat) => LogEntry.arrival k (hdrSrc f.header) (hdrVn f.header) (hdrClass f.header) (hdrCh f.header) n
  match p.ck.ctl.getLsbD 1, p.ck.replaying.find? fun x => logOf x == (0, k) with
  | true, some (.arrival _ _ _ _ _ n) => ordered f.part (e n)
  | _, _ => ordered f.part (e f.num)

/-- R254: a message enters an inbox, or a spill queue while the core's own work is put away. -/
def intoInbox (k : Nat) (f : Flight) : Act Unit := do
  let s ← get
  let c := coreOf s k
  if goesAway s k f.part then
    let q := tabGet [] c.spill f.part
    if q.length < spillRoom (partOf s f.part) then
      set (touchSpill (setCore s k { c with spill := tabPut c.spill f.part (q ++ [f]) }) f.part k)
    else halt .disabled
  else
    match tabFind? c.bind (hdrCh f.header) with
    | none => set (undeliverable s f (some k))
    | some b =>
      if b.part ≠ f.part ∨ (handlerOf s b f).isNone then set (undeliverable s f (some k))
      else do
        need (inboxRoom (inboxOf s k) (hdrVn f.header))
        logArrival k f
        modify fun s => refreshSince (setCore s k { coreOf s k with inbox := (coreOf s k).inbox ++ [f] }) k

/-- R28, R389: a task record that arrives leaves the entry that a core has kept for it, wherever it goes now. -/
def takeReserved (s : State) (f : Flight) : Flight × State :=
  match f.kind, f.origin with
  | .record (some k), .slice n =>
    let free := fun (c : Core) => { c with owed := c.owed.erase (n, f.part) }
    ({ f with kind := .record none },
      if heldSaved s f.part (coreBerth k) then setSavedCore s f.part k (free (savedCore s f.part k)) else setCore s k (free (coreOf s k)))
  | _, _ => (f, s)

/-- R254, R309: a message whose destination core is known (DEDUCED: log entry 35). -/
def arriveAt (k : Nat) (f : Flight) : Act Unit := do
  let s ← get
  let b := coreBerth k
  if quayLost s (coreQuay k) then set (undeliverable s f none)
  else if hdrLogical f.header && f.cap.tag && capScope f.cap < distance f.sender k then set (undeliverable s f (some k))
  else if inhabits s f.part b then intoInbox k f
  else set (undeliverable s f (some k))

/-- R255: two messages wait for the same logical destination. -/
def sameDest (s : State) (e f : Flight) : Bool :=
  hdrDst e.header % 64 == hdrDst f.header % 64 &&
    resolveLogical s e.place (hdrDst e.header) == resolveLogical s f.place (hdrDst f.header)

/-- R254, R255: a pending message goes to the spill ring: the table is full, or the ring holds a message for its destination. -/
def toRing (s : State) (q : Nat) (f : Flight) : Bool :=
  decide (256 ≤ (quayOf s q).pending.length) || (quayOf s q).ring.any fun e => sameDest s e f

/-- R255, R319: a quay's pending table, or the spill ring of the message's launch, has room for it. -/
def pendingRoom (s : State) (q id : Nat) (f : Flight) : Bool :=
  !toRing s q f ||
    decide (((quayOf s q).ring.filter fun e => (e.place.map fun p => p.launch) == some id).length < spillRoom (partOf s f.part))

/-- R254, R255: a message waits for the placement of its destination. -/
def holdPending (s : State) (q id : Nat) (f : Flight) : State :=
  let y := quayOf s q
  if toRing s q f then touchSpill (setQuay s q { y with ring := y.ring ++ [f] }) f.part (512 + slotOf s id)
  else setQuay s q { y with pending := y.pending ++ [f] }

/-- R254, R255: where a message goes that has crossed the mesh. -/
def arrive (f : Flight) : Act Unit := do
  let (f, s) := takeReserved (← get) f
  set s
  if hdrLogical f.header then
    match resolveLogical s f.place (hdrDst f.header) with
    | some (.core k) => arriveAt k f
    | some (.later id _) => do
      need (pendingRoom s (launchQuay s id) id f)
      set (holdPending s (launchQuay s id) id f)
    | _ => set (undeliverable s f none)
  else arriveAt (hdrDst f.header) f

/-- R256: the ring or spill queue that a message waits for is full. -/
def ringFull (s : State) (f : Flight) : Bool :=
  let atCore := fun (k : Nat) => goesAway s k f.part && decide (spillRoom (partOf s f.part) ≤ (tabGet [] (coreOf s k).spill f.part).length)
  if hdrLogical f.header then
    match resolveLogical s f.place (hdrDst f.header) with
    | some (.core k) => atCore k
    | some (.later id _) => !pendingRoom s (launchQuay s id) id f
    | _ => false
  else atCore (hdrDst f.header)

/-- R246: the quay from whose mesh an agent sends. -/
def originQuay : Origin → Nat
  | .core k => coreQuay k
  | .boom k => coreQuay k
  | .atomicUnit k => coreQuay k
  | .slice n => n / 16
  | .lighter b => berthQuay b
  | .array b => berthQuay b
  | .berth b => berthQuay b
  | .harbour q => q

/-- R135, R136: a message has to cross the quay bridge, which does not serve its partition. -/
def messageHeld (s : State) (f : Flight) : Bool :=
  match destCore s f with
  | some k => coreQuay k != originQuay f.origin && bridgeBarred s f.part (originQuay f.origin)
  | none => false

/-- R246, R256: a message waits in the mesh for room at its destination, or for a resource. -/
def arrivalWaits (s : State) (f : Flight) : Bool :=
  messageHeld s f || ringFull s f ||
    match destCore s f with
    | some k => !goesAway s k f.part && !inboxRoom (inboxOf s k) (hdrVn f.header)
    | none => false

/-- R255: a start message and what the pending table and its ring released reach a destination in this order, before later arrivals for
the same logical destination. One that waits holds back only those of its own network and class (R246, R256) (DEDUCED: log entry 35). -/
def beforeArrivals (s : State) (a b : Flight) : Bool :=
  let alike := hdrVn a.header == hdrVn b.header && hdrClass a.header == hdrClass b.header
  (a.early || a.kind == .start) && hdrLogical b.header && match destCore s a, destCore s b with
    | some j, some k => j == k && (alike || !arrivalWaits s a)
    | none, none => alike && a.place == b.place && hdrDst a.header == hdrDst b.header
    | _, _ => false

/-- R254, R393. A message of the mesh arrives; while the place it goes to is full, it waits (R256). -/
def execMessageDelivery (idx : Nat) (s : State) : Outcome :=
  runEvent (do
    let s ← get
    let f ← needSome s.mesh[idx]?
    need (!messageHeld s f && !((s.mesh.take idx).any fun e => sameStream s e f || beforeArrivals s e f) && !repliesBefore s f)
    let full := raisePart s f.part 9
    match (do set { s with mesh := removeAt s.mesh idx }; arrive f : Act Unit) s with
    | .ok ((), t) => set t
    | .error _ => if ringFull s f then set full else halt .disabled) s

/-- R51. The oldest value still on its way into a link queue can be popped. -/
def execLinkValueArrive (core : Nat) (dir : Nat) (vec : Bool) (s : State) : Outcome :=
  runEvent (do
    let c := coreOf (← get) core
    let key := linkKey dir vec
    let q := tabGet [] c.links key
    let flying := fun (e : LinkEntry) => match e with
      | .flying _ => true
      | _ => false
    need (q.any flying)
    modCore core fun c => { c with links := tabPut c.links key (replaceFirst flying (fun e => match e with
      | .flying v => .ready v
      | e => e) q) }) s

/-! ### The start of a task -/

/-- R32: the effective priority of a channel. -/
def effective (c : Core) (now ch : Nat) : Nat :=
  bitsAt c.chprio.toNat (2 * ch) 2 - (now - tabGet now c.since ch) / 4096

/-- R32: the channel that a core selects, with its level. -/
def selectChannel (c : Core) (now : Nat) : Option (Nat × Nat) :=
  let cs := (List.range 16).filter (runnable c)
  match cs.map (effective c now) with
  | [] => none
  | e :: es =>
    let level := es.foldl min e
    let last := tabGet 15 c.lastSel level
    let order := (List.range 16).map fun i => (last + 1 + i) % 16
    (order.find? fun ch => cs.contains ch && effective c now ch == level).map fun ch => (ch, level)

/-- R34: the capability for a core's own local store. -/
def localCap (k : Nat) : Cap := capMake1 (localBase k) fRAW8 262144 (pL + pS + pLC + pSC + pD) 0

/-- R34: the context of a task at its start. What outlives tasks stays. -/
def startCtx (c : Core) (old : Ctx) (k : Nat) (b : Binding) (f : Flight) (entry : Cap) (epc : BitVec 48) (cap : Cap) : Ctx :=
  { Ctx.reset with
    mode := .running
    x := ((List.range 7).map fun i => (i + 1, f.words.getD i 0)) ++ [(8, f.header)]
    c := [(1, localCap k), (13, cap), (14, b.root)]
    pcc := entry
    pc := epc.setWidth 64
    rev1 := capFmt entry == fN8
    ch := BitVec.ofNat 4 (hdrCh f.header)
    ktask := f.header
    kstage := c.kstage
    kgroup := c.kgroup
    kind := f.kind
    launch := b.launch
    part := b.part
    netTask := f.net
    nonce := old.nonce
    seq := old.seq
    ktrap := old.ktrap
    ktdetail := old.ktdetail
    ktrpc := old.ktrpc
    xf0 := old.xf0
    xf1 := old.xf1
    epoch := old.epoch
    reqNum := old.reqNum }

/-- R232, R286: the scope of the acquire that a task's start makes (DEDUCED: log entry 19). -/
def startScope (k : Nat) (f : Flight) : Nat :=
  match f.kind, f.origin with
  | .sent, .core _ => distance f.sender k
  | .bounced, _ => distance f.sender k
  | .matrixDone, _ => 1
  | _, _ => 4

/-- R32, R33, R34, R244: a core starts a task from a channel's oldest message, after the release that an entry into ordering revision 1
begins with (DEDUCED: log entry 19). -/
def startTask (k ch level c : Nat) : Act Unit := do
  let s ← get
  let x := coreOf s k
  let b ← needSome (tabFind? x.bind ch)
  let f ← needSome (x.inbox.find? fun f => hdrCh f.header == ch)
  let (entry, epc) ← needSome (handlerOf s b f)
  let enters := capFmt entry == fN8 && !(ctxOf s k c).rev1
  need ((!enters || (!pendingAccesses s k c b.part && releaseReady s (coreBerth k) 3)) && !(hdrCapword f.header && mapHeld s b.part f.cap))
  let s := if enters then release s (coreBerth k) 3 else s
  let (cap, s) := barrier s b.part (if hdrCapword f.header then f.cap else Cap.null)
  let s := acquire s (coreBerth k) (startScope k f)
  let x := coreOf s k
  let new := startCtx x (ctxOf s k c) k b f entry epc cap
  let s := setCore s k { x with
    inbox := x.inbox.erase f
    since := tabErase x.since ch
    lastSel := tabPut x.lastSel level ch
    ctxs := tabPut x.ctxs c new }
  let s := traceRecord s (coreBerth k) 1 0 k c ch new.pc new.ktask
  set (countEvent (refreshSince s k) k c 3 1)

/-- R32, R34, R294. A core with a free context starts a task from the channel it selects. -/
def execTaskStart (core : Nat) (s : State) : Outcome :=
  runEvent (do
    let s ← get
    let x := coreOf s core
    need (!x.preempted && !(berthOf s (coreBerth core)).dbg.halted && (quayOf s (coreQuay core)).mode == .up)
    let c ← needSome ((List.range 4).find? fun c => (ctxOf s core c).mode == .free)
    let (ch, level) ← needSome (selectChannel x s.clk)
    startTask core ch level c) s

end Sys2Proof.Machine
end

