-- ==== Sys2Proof/Machine/Net.lean ====
section
/-!
DEFINITION. Graph rewriting (R322 to R344): nodes at their homes, the NET instructions, the free lists and the pool, the pairs
that wait in bags, segments and rings, and their delivery.
-/
namespace Sys2Proof.Machine

open Sys2Proof

/-- R344: the detail word of NET_LINK and NET_FREE. -/
def netDetail (reason node word : Nat) : Dbl := BitVec.ofNat 64 (reason * 2 ^ 60 + node % 2 ^ 28 * 2 ^ 32 + word % 2 ^ 32)

/-- R323: null, and a reference. -/
def portNull : Nat := 0xC0000000
def portRef (node port : Nat) : Nat := node * 4 + port

/-- R324: the nodes that a heap holds. -/
def heapCount (c : Cap) : Nat := capExt c 0 * capExt c 1

/-- R322: the bits of word 0. -/
def nodeFree (w : Nat) : Bool := bitAt w 20
def nodePark (w : Nat) : Bool := bitAt w 19
def nodeDead (w : Nat) : Bool := bitAt w 18
def nodeNaux (w : Nat) : Nat := bitsAt w 16 2
def nodeLive (w : Nat) : Bool := !nodeFree w && !nodeDead w

/-- Who accesses nodes: the berth and partition, the heap, the capability register for detail words, and the permissions. -/
structure NodeView where
  berth : Nat
  part : Nat
  heap : Cap
  reg : Nat
  perm : Nat
  /-- Whether an access waits for a copy that owns the line (R241), and for a resource that serves the partition (R136). -/
  waits : Bool
  /-- R228: the core and the context whose earlier accesses to the bytes it waits for. -/
  own : Option (Nat × Nat)

/-- R328: where a node lies, after CapAccess and translation. -/
def nodeKey (v : NodeView) (n : Nat) : Act Nat := do
  let (bit, _) ← liftChk (capAccess v.berth v.heap v.reg 0 v.perm (nodeTuple v.heap n) 256)
  let p ← translate v.berth v.part (bit / 8) (if v.perm &&& pS = pS then 1 else 0) false
  let s ← get
  if (v.own.any fun o => ownConflict s o.1 o.2 ⟨p.key, 0, 256, p.cached⟩ true) then halt (.stall .other)
  else if v.waits && ((if v.perm &&& pS = pS then storeHeld s p.key 32 else copyOwns s p.key 32) || homeHeld s v.berth v.part p.key) then halt (.stall .other)
  else do
    let s := if p.cached then syncHome s v.berth (p.key / 64) else s
    if isBad s p.key 32 then halt (.trap cUNCORR (errorDetail 1 (bit / 8)))
    else do
      set s
      pure p.key

/-- The eight words of a node at its home. -/
def nodeWords (v : NodeView) (n : Nat) : Act (List Nat) := do
  let key ← nodeKey v n
  let b := memRead (← get).mem key 32
  pure ((List.range 8).map fun i => natOfBytes ((b.drop (4 * i)).take 4))

/-- Writes a word of a node at its home; one in a marked double is not written (R281) (DEDUCED: log entry 64). -/
def nodePut (v : NodeView) (n i w : Nat) : Act Unit := do
  let key ← nodeKey v n
  let p : Piece := ⟨key + 4 * i, 0, 32, true⟩
  match (marksMet (← get) p).head? with
  | some d => halt (.trap cPHASE (BitVec.ofNat 64 (capBitAddr v.heap 256 (nodeTuple v.heap n) / 8 + d - key)))
  | none => modify fun s => wideWrite s (key + 4 * i) (bytesOf 4 w)

def nodeWord (v : NodeView) (n i : Nat) : Act Nat := do
  let ws ← nodeWords v n
  pure (ws.getD i 0)

/-! ### Launches and counts -/

/-- R327: the net launch of the group that occupies a core. -/
def netOf (s : State) (k : Nat) : Option (Nat × Launch × Net) :=
  match (coreOf s k).place with
  | none => none
  | some p => (launchOf s p.launch).bind fun l => l.net.map fun n => (p.launch, l, n)

/-- R335: the first record of `nt.err` stays until it is read; the net-error source is raised. -/
def netError (s : State) (part id node : Nat) : State :=
  let p := partOf s part
  let s := if p.ntErr.getLsbD 63 then s
    else setPart s part { p with ntErr := BitVec.ofNat 64 (2 ^ 63 + slotOf s id * 2 ^ 32 + node % 2 ^ 28) }
  raisePart s part 11

/-! ### The pool -/

/-- R329: the indices of a chunk, from its head. -/
def chunkNodes (v : NodeView) : Nat → Nat → Act (List Nat)
  | 0, _ => pure []
  | fuel + 1, n => do
    let next ← nodeWord v n 1
    let r ← chunkNodes v fuel next
    pure (n :: r)

/-- R329, R390: the pool owner's answer to a refill. -/
def poolTake (v : NodeView) : Act (List Nat) := do
  let h ← nodeWords v 0
  let head := h.getD 2 0
  if head ≠ 0 then do
    let w ← nodeWords v head
    let ns ← chunkNodes v (min 64 (w.getD 3 0)) head
    nodePut v 0 2 (w.getD 2 0)
    nodePut v 0 3 (h.getD 3 0 - 1)
    pure (ns.foldl setInsert [])
  else do
    let top := h.getD 1 0
    let n := min 64 (heapCount v.heap - top)
    check (n != 0) cNETFREE (netDetail 1 0 0)
    nodePut v 0 1 (top + n)
    pure ((List.range n).map (· + top))

/-- The nodes of a chunk linked by their w1. -/
def chainNodes (v : NodeView) : List Nat → Act Unit
  | a :: b :: r => do
    nodePut v a 1 b
    chainNodes v (b :: r)
  | _ => pure ()

/-- R329: a chunk enters the pool, its oldest index as head. -/
def poolGive (v : NodeView) (ns : List Nat) : Act Unit := do
  match ns with
  | [] => pure ()
  | head :: _ => do
    let h ← nodeWords v 0
    chainNodes v ns
    nodePut v head 3 ns.length
    nodePut v head 2 (h.getD 2 0)
    nodePut v 0 2 head
    nodePut v 0 3 (h.getD 3 0 + 1)

/-- R329: a core's list returns to the pool in chunks of at most 64, oldest first; a chunk that cannot be written is lost. -/
def giveBack (v : NodeView) (id : Nat) : Nat → List Nat → State → State
  | 0, _, s => s
  | fuel + 1, ns, s =>
    match ns.take 64 with
    | [] => s
    | head :: r =>
      let s := match poolGive v (head :: r) s with
        | .ok ((), t) => t
        | .error _ => netError s v.part id head
      giveBack v id fuel (ns.drop 64) s

/-- R241, R329: the free list of a core can return to the pool without waiting for a copy. -/
def listReady (s : State) (k : Nat) : Bool :=
  let c := coreOf s k
  match (launchOf s c.freeLaunch).bind fun l => l.net.bind fun n => n.heap.map fun h => (l.part, h) with
  | none => true
  | some (part, heap) =>
    let v : NodeView := ⟨coreBerth k, part, heap, 0, pL + pS, true, none⟩
    (if c.freeList.isEmpty then [] else 0 :: c.freeList).all fun n => match nodeKey v n s with
      | .error (.stall _) => false
      | _ => true

/-- R329: the free list that a core has for a launch, the most recent index first, returns to the launch's pool. -/
def returnNodes (s : State) (k id : Nat) (nodes : List Nat) : State :=
  match launchOf s id with
  | none => s
  | some l =>
    match l.net.bind (·.heap) with
    | none => s
    | some heap => giveBack ⟨coreBerth k, l.part, heap, 0, pL + pS, false, none⟩ id 3 nodes.reverse s

/-- R329: at retirement or discard a core's free list returns to the pool of its launch. -/
def returnFreeList (s : State) (k : Nat) : State :=
  let c := coreOf s k
  returnNodes (setCore s k { c with freeList := [] }) k c.freeLaunch c.freeList

/-! ### Pairs -/

/-- R296, R333: the slice that a 32-bit key folds to. -/
def foldSlice (a : Nat) : Nat :=
  bitsAt a 0 5 ^^^ bitsAt a 5 5 ^^^ bitsAt a 10 5 ^^^ bitsAt a 15 5 ^^^ bitsAt a 20 5 ^^^ bitsAt a 25 5 ^^^ bitsAt a 30 2

/-- R333: a pair goes to the berth's bag, or on its way to a slice. Answers whether it is placed. -/
def pushPair (id req a b berth part : Nat) (status : Dbl) : Act Bool := do
  let s ← get
  let p : Pair := ⟨min a b, max a b, id, part⟩
  if (berthOf s berth).bag.length < 256 then do
    modBerth berth fun y => { y with bag := y.bag ++ [p] }
    modify fun s => netCount s id 1
    pure true
  else do
    modGlob fun g => { g with overflow := g.overflow ++ [⟨foldSlice p.a, p, req, status, false⟩] }
    pure false

/-- R331: End(W): a port as (node, port), or an opaque word. -/
def endOf (v : NodeView) (w : Nat) : Act (Except Nat (Nat × Nat)) := do
  let ws ← nodeWords v (w / 4)
  if nodeLive (ws.getD 0 0) then pure (.ok (w / 4, w % 4))
  else
    let x := ws.getD (w % 4 + 1) 0
    if x < 2 ^ 30 then pure (.ok (x / 4, x % 4)) else pure (.error x)

/-- R331: the rewiring step of `nlink`: the status word, and the pair it pushes. -/
def linkNodes (v : NodeView) (p q : Nat) : Act (Nat × Option (Nat × Nat)) := do
  each (fun w => do
    let w0 ← nodeWord v (w / 4) 0
    check (!nodeFree w0) cNETFREE (netDetail 2 (w / 4) w)
    check (w % 4 ≤ nodeNaux w0) cNETLINK (netDetail 8 (w / 4) w)) [p, q]
  let e1 ← endOf v p
  let e2 ← endOf v q
  let dead : Except Nat (Nat × Nat) → Act Bool := fun e =>
    match e with
    | .ok (n, _) => do
      let w0 ← nodeWord v n 0
      pure (nodeDead w0)
    | .error _ => pure false
  let d1 ← dead e1
  let d2 ← dead e2
  let pending := 2 * boolBit (d1 || d2)
  match e1, e2 with
  | .ok (n1, p1), .ok (n2, p2) => do
    check (!(n1 == n2 && p1 == p2)) cNETLINK (netDetail 4 n1 p)
    check (!(d1 && p1 == 0)) cNETLINK (netDetail 3 n1 p)
    check (!(d2 && p2 == 0)) cNETLINK (netDetail 3 n2 p)
    nodePut v n1 (p1 + 1) (portRef n2 p2)
    nodePut v n2 (p2 + 1) (portRef n1 p1)
    if p1 = 0 ∧ p2 = 0 then pure (pending + 1, some (n1, n2)) else pure (pending, none)
  | .ok (n1, p1), .error w => do
    nodePut v n1 (p1 + 1) w
    pure (pending + 4, none)
  | .error w, .ok (n2, p2) => do
    nodePut v n2 (p2 + 1) w
    pure (pending + 4, none)
  | .error _, .error _ => pure (pending + 4, none)

/-! ### The operations at the homes -/

/-- R329: `nalloc` at the pool owner and the node's home. -/
def netAlloc (v : NodeView) (k id : Nat) : Act Nat := do
  let c := coreOf (← get) k
  let list ← if c.freeList.isEmpty || c.freeLaunch != id then poolTake v else pure c.freeList
  match list with
  | [] => halt (.trap cNETFREE (netDetail 1 0 0))
  | n :: r => do
    each (fun i => nodePut v n i (if 1 ≤ i ∧ i ≤ 4 then portNull else 0)) (List.range 8)
    modCore k fun c => { c with freeList := r, freeLaunch := id }
    pure n

/-- R329: `nfree`. -/
def netFree (v : NodeView) (k id n : Nat) : Act Unit := do
  let w0 ← nodeWord v n 0
  check (!nodeFree w0) cNETFREE (netDetail 2 n n)
  nodePut v n 0 (w0 - bitsAt w0 18 3 * 2 ^ 18 + 2 ^ 20)
  let c := coreOf (← get) k
  let list := n :: (if c.freeLaunch = id then c.freeList else [])
  if list.length = 129 then do
    poolGive v (list.drop 65).reverse
    modCore k fun c => { c with freeList := list.take 65, freeLaunch := id }
  else modCore k fun c => { c with freeList := list, freeLaunch := id }

/-- R330: `nstore`, its failures in the order of the table. -/
def netStore (v : NodeView) (n w : Nat) (value : Nat) : Act Unit := do
  let w0 ← nodeWord v n 0
  let port := 1 ≤ w && w ≤ nodeNaux w0 + 1
  check (!(port && value / 2 ^ 30 == 1)) cNETLINK (netDetail 5 n value)
  check (n != 0) cNETLINK (netDetail 6 0 value)
  check (!nodeFree w0) cNETFREE (netDetail 2 n value)
  check (!(port && nodeDead w0)) cNETLINK (netDetail 2 n value)
  if w = 0 then nodePut v n 0 ((w0 &&& 0xFF1C0000) ||| (value &&& 0x00E3FFFF)) else nodePut v n w value

/-- R337: `nbag` park and unpark. -/
def netPark (v : NodeView) (id n : Nat) (set_ : Bool) : Act Nat := do
  check (n != 0) cNETLINK (netDetail 6 0 0)
  let w0 ← nodeWord v n 0
  if nodePark w0 = set_ then pure 1
  else do
    nodePut v n 0 (w0 ^^^ 2 ^ 19)
    modify fun s => netCount s id (if set_ then 1 else -1)
    pure 0

/-- R337: `nbag` bind, at the home of the header. -/
def netBind (v : NodeView) (id top : Nat) : Act Nat := do
  let s ← get
  match launchOf s id with
  | none => halt .disabled
  | some l =>
    match l.net with
    | none => halt .disabled
    | some n =>
      if n.heap.isSome then pure 1
      else do
        each (fun e => nodePut v 0 e.2 e.1) [0xFFFF, top, 0, 0, id, 0, 0, 0].zipIdx
        modify fun s => putLaunch s id { l with net := some { n with heap := some v.heap, heapPart := v.part } }
        pure 0

/-- R337, R338: `nbag` note. -/
def netNoteReg (k id ch : Nat) : Act Nat := do
  let s ← get
  match netOf s k with
  | none => halt .disabled
  | some (_, l, n) =>
    if n.note.isSome then pure 2
    else if n.outstanding = 0 then do
      set (post s (netNote (slotOf s id) l k ch))
      pure 1
    else do
      set (putLaunch s id { l with net := some { n with note := some (k, ch) } })
      pure 0

/-- R328 to R337: a NET request at the homes of its nodes: the value returned, or `none` while a push waits for a place (DEDUCED: log entry 57). -/
def netServe (req k part : Nat) (own : Option (Nat × Nat)) (op : NetOp) (heap : Cap) (reg : Nat) : Act (Option Dbl) := do
  let s ← get
  match netOf s k with
  | none => halt (.trap cNETFREE (netDetail 4 0 0))
  | some (id, _, net) =>
    let b := coreBerth k
    let rw_ : NodeView := ⟨b, part, heap, reg, pL + pS, true, own⟩
    let ro : NodeView := ⟨b, part, heap, reg, pL, true, own⟩
    match op with
    | .alloc _ => do
      let n ← netAlloc rw_ k id
      pure (some (BitVec.ofNat 64 n))
    | .free n => do
      netFree rw_ k id n
      pure (some 0)
    | .load _ n w => do
      let v ← nodeWord ro n w
      pure (some (BitVec.ofNat 64 v))
    | .store n w v => do
      netStore rw_ n w v.toNat
      pure (some 0)
    | .link _ p q => do
      let (status, pushed) ← linkNodes rw_ p.toNat q.toNat
      let st := BitVec.ofNat 64 status
      match pushed with
      | none => pure (some st)
      | some (x, y) => do
        let placed ← pushPair id req x y b part st
        pure (if placed then some st else none)
    | .push x y => do
      let placed ← pushPair id req x y b part 0
      pure (if placed then some 0 else none)
    | .bind _ top => do
      let v ← netBind rw_ id top
      pure (some (BitVec.ofNat 64 v))
    | .note _ ch => do
      let v ← netNoteReg k id ch
      pure (some (BitVec.ofNat 64 v))
    | .stat _ =>
      let n := ((berthOf s b).bag.filter fun p => p.launch == id).length
      pure (some (BitVec.ofNat 64 (min n 65535 + min net.outstanding (2 ^ 48 - 1) * 2 ^ 16)))
    | .park _ n => do
      let v ← netPark rw_ id n true
      pure (some (BitVec.ofNat 64 v))
    | .unpark _ n => do
      let v ← netPark rw_ id n false
      pure (some (BitVec.ofNat 64 v))

/-- R328. The homes perform a NET request as one step (DEDUCED: log entry 57). -/
def execNetHomeRequest (req : Nat) (s : State) : Outcome :=
  runEvent (do
    let r ← reqOf req
    match r.body with
    | .net op heap reg _ => do
      need (r.reply.isNone && !r.held)
      let s ← get
      if taskGone s r then dropReq req
      else match netServe req r.core r.part (some (r.core, r.ctx)) op heap reg s with
      | .ok (some v, t) => set (sendReply t req r (.value v))
      | .ok (none, t) => set { t with reqs := tabPut t.reqs req { r with held := true } }
      | .error (.trap c d) =>
        let y : Reply := if c = cUNCORR then .error d else .trap c d
        set (sendReply s req r y)
      | .error (.page reason d) => set (sendReply s req r (.trap (pageCause reason) d))
      | .error x => halt x
    | _ => halt .disabled) s

/-- R373: the replies of a NET request's homes report their delays. -/
def netDelays (s : State) (r : Req) (heap : Cap) (nodes : List Nat) : State :=
  nodes.foldl (fun s n => match nodeHome s r.part heap n with
    | some key => addDelay s r.core (0x140 + keySlice key)
    | none => s) s

/-- R328, R357, R361. The homes' replies arrive: the instruction completes, with an error state where a node could not be read, or traps precisely. What comes for a task that was discarded meanwhile (R35) is dropped. -/
def execNetReplyDelivery (req : Nat) (s : State) : Outcome :=
  runEvent (do
    let r ← reqOf req
    match r.body, r.reply with
    | .net op heap _ _, some y => do
      let gone := taskGone (← get) r
      need ((gone || (ctxOf (← get) r.core r.ctx).mode == .waiting req) && !earlierReply (← get) req r)
      dropReq req
      modify fun s => netDelays s r heap (repliedNodes op y)
      if gone then pure ()
      else do
        modCtx r.core r.ctx fun x => { x with mode := .running }
        match y with
        | .trap c d => modify fun s => trapAt (undoLinks s r req) r.core r.ctx c d false
        | y => do
          modify fun s => passOn (fillReply s r req y) r.core r.ctx
    | _, _ => halt .disabled) s

/-! ### Issue -/

/-- R328: sends a NET request; the context issues nothing until its reply, and what it popped from link ports can be put back until
then (DEDUCED: log entry 57). -/
def netSend (d : Nat) (addr : Nat) (op : NetOp) (heap : Cap) (reg : Nat) (sources : List (BitVec 5 × Dbl)) : Act Next := do
  let back := portPops sources
  let x ← here
  if d = 0 then pure () else waitFilled (tabGet .full x.xs d)
  let id := (← get).nextReq
  request (if d = 0 then .none else .x d) (BitVec.ofNat 64 addr) (.net op heap reg back)
  modHere fun x => { x with mode := .waiting id }
  pure .stay

/-- R327: an operand value with its upper half zero. -/
def netOperand (v : Dbl) (word : BitVec 32) : Act Unit :=
  check (fieldOf v 32 32 == 0) cILLEGAL (illegalDetail 4 false word)

/-- R327, R328: the launch that an instruction acts on. -/
def netGroup (word : BitVec 32) : Act (Nat × Launch × Net) := do
  let s ← get
  match netOf s s.cur.core with
  | some x => pure x
  | none => halt (.trap cILLEGAL (illegalDetail 4 false word))

/-- R328, R337: a heap must be bound; `base` says that C[ca] must name it by its base. -/
def netHeap (n : Net) (c : Cap) (base : Bool) : Act Unit :=
  match n.heap with
  | none => halt (.trap cNETFREE (netDetail 4 0 0))
  | some h => check (!base || capBase c == capBase h) cNETFREE (netDetail 4 0 0)

/-- R80, R328: CapAccess for a node that an instruction names; its address. -/
def nodeCheck (c : Cap) (reg perm n : Nat) : Act Nat := do
  let (bit, _) ← liftChk (capAccess (coreBerth (← get).cur.core) c reg 0 perm (nodeTuple c n) 256)
  pure (bit / 8)

/-- R80, R371: the watchpoints and then the translation of the nodes that an instruction names, after every capability check; a part
is a node's address with the offset and length of what is accessed there (DEDUCED: log entry 46). -/
def nodeReach (perm : Nat) (parts : List (Nat × Nat × Nat)) : Act Unit := do
  let write := if perm &&& pS = pS then 1 else 0
  watchTest write (parts.map fun p => (p.1 + p.2.1, p.2.2))
  each (fun (p : Nat × Nat × Nat) => do
    let _ ← translate (coreBerth (← get).cur.core) (← here).part p.1 write false
    pure ()) parts

/-- R328: the checks at issue of an instruction that names one node; its address. -/
def nodeIssue (c : Cap) (reg perm n off len : Nat) : Act Nat := do
  let addr ← nodeCheck c reg perm n
  nodeReach perm [(addr, off, len)]
  pure addr

/-- R329. Takes a node from the core's free list, refilled from the pool when it is empty. -/
def execNalloc (a : BitVec 4) (d : BitVec 5) (s : State) : Outcome :=
  runInstr (portRule d) (encNalloc a d) 4 (do
    let c ← readC a.toNat
    let (_, _, n) ← netGroup (encNalloc a d)
    netHeap n c true
    let addr ← nodeIssue c a.toNat (pL + pS) 0 0 32
    netSend d.toNat addr (.alloc d.toNat) c a.toNat []) s

/-- R329. Frees a node. -/
def execNfree (x : BitVec 5) (a : BitVec 4) (s : State) : Outcome :=
  runInstr none (encNfree x a) 4 (do
    scalarLink x false
    let v ← readX x false false
    let c ← readC a.toNat
    netOperand v (encNfree x a)
    let (_, _, n) ← netGroup (encNfree x a)
    netHeap n c true
    check (v != 0) cNETFREE (netDetail 3 0 0)
    let addr ← nodeIssue c a.toNat (pL + pS) v.toNat 0 32
    netSend 0 addr (.free v.toNat) c a.toNat [(x, v)]) s

/-- R331. Joins the ends that two port words name. -/
def execNlink (x : BitVec 5) (a : BitVec 4) (d : BitVec 5) (s : State) : Outcome :=
  runInstr ((if x.toNat < 1 ∨ x.toNat > 26 then some 3 else none).or (portRule d)) (encNlink x a d) 4 (do
    let p ← readX x false false
    let q ← readX (x + 1) false false
    let c ← readC a.toNat
    netOperand p (encNlink x a d)
    netOperand q (encNlink x a d)
    let (_, _, n) ← netGroup (encNlink x a d)
    netHeap n c false
    let nodes ← collect (fun (w : Dbl) => do
      check (w.toNat < 2 ^ 30) cNETLINK (netDetail 1 0 w.toNat)
      check (4 ≤ w.toNat) cNETLINK (netDetail 6 0 w.toNat)
      nodeCheck c a.toNat (pL + pS) (w.toNat / 4)) [p, q]
    nodeReach (pL + pS) (nodes.map fun addr => (addr, 0, 32))
    releaseHere 4
    netSend d.toNat (nodes.headD 0) (.link d.toNat (p.setWidth 32) (q.setWidth 32)) c a.toNat []) s

/-- R330. Reads a word of a node. -/
def execNload (x : BitVec 5) (w : BitVec 3) (a : BitVec 4) (d : BitVec 5) (s : State) : Outcome :=
  runInstr (portRule d) (encNload x w a d) 4 (do
    scalarLink x false
    let v ← readX x false false
    let c ← readC a.toNat
    netOperand v (encNload x w a d)
    let (_, _, n) ← netGroup (encNload x w a d)
    netHeap n c false
    let addr ← nodeIssue c a.toNat pL v.toNat (4 * w.toNat) 4
    netSend d.toNat addr (.load d.toNat v.toNat w.toNat) c a.toNat [(x, v)]) s

/-- R330. Writes a word of a node. -/
def execNstore (x : BitVec 5) (w : BitVec 3) (a : BitVec 4) (d : BitVec 5) (s : State) : Outcome :=
  runInstr none (encNstore x w a d) 4 (do
    scalarLink x false
    scalarLink d false
    let v ← readX x false false
    let c ← readC a.toNat
    let y ← readX d false false
    netOperand v (encNstore x w a d)
    let (_, _, n) ← netGroup (encNstore x w a d)
    netHeap n c false
    let addr ← nodeIssue c a.toNat (pL + pS) v.toNat (4 * w.toNat) 4
    netSend 0 addr (.store v.toNat w.toNat (y.setWidth 32)) c a.toNat [(x, v), (d, y)]) s

/-- R333. Pushes an active pair. -/
def execNpush (x : BitVec 5) (a : BitVec 4) (s : State) : Outcome :=
  runInstr (if x.toNat < 1 ∨ x.toNat > 26 then some 3 else none) (encNpush x a) 4 (do
    let p ← readX x false false
    let q ← readX (x + 1) false false
    let c ← readC a.toNat
    netOperand p (encNpush x a)
    netOperand q (encNpush x a)
    let (_, _, n) ← netGroup (encNpush x a)
    netHeap n c true
    check (p != q) cNETLINK (netDetail 7 p.toNat 0)
    check (p != 0 && q != 0) cNETLINK (netDetail 6 0 0)
    let nodes ← collect (fun (v : Dbl) => nodeCheck c a.toNat pL v.toNat) [p, q]
    nodeReach pL (nodes.map fun addr => (addr, 0, 32))
    releaseHere 4
    netSend 0 (nodes.headD 0) (.push p.toNat q.toNat) c a.toNat []) s

/-- R337: the conditions of `nbag` bind on C[ca]. -/
def bindCheck (c : Cap) (reg : Nat) (v : Dbl) : Act Unit := do
  let _ ← liftChk (capUse c reg 0 (pL + pS))
  check (capFmt c == fNODE) cFORMAT (det 4 reg 0 0 (capFmt c))
  check (isTranslated (capBase c)) cPERM (det 7 reg 0 0 (capBase c))
  check (capRank c ≤ 2 && heapCount c ≤ 2 ^ 28 && 1 ≤ fieldOf v 32 32 && fieldOf v 32 32 ≤ heapCount c) cILLEGAL v
  check (4 ≤ capScope c) cSCOPE (det 9 reg 0 0 (capScope c + 4 * 2 ^ 8))

/-- R337. The net control operations: bind, state, note, park, unpark. -/
def execNbagBind (x : BitVec 5) (a : BitVec 4) (d : BitVec 5) (s : State) : Outcome :=
  runInstr (portRule d) (encNbagBind x a d) 4 (do
    scalarLink x false
    let v ← readX x false false
    let c ← readC a.toNat
    let op := fieldOf v 0 4
    let arg := fieldOf v 32 32
    check (fieldOf v 4 4 == 0 && fieldOf v 12 20 == 0 && op ≤ 4) cILLEGAL (illegalDetail 4 false (encNbagBind x a d))
    let (_, _, n) ← netGroup (encNbagBind x a d)
    if op = 0 then do
      bindCheck c a.toNat v
      let addr ← nodeIssue c a.toNat (pL + pS) 0 0 32
      netSend d.toNat addr (.bind d.toNat arg) c a.toNat [(x, v)]
    else do
      netHeap n c true
      if op = 1 ∨ op = 2 then do
        let addr ← nodeCheck c a.toNat pL 0
        netSend d.toNat addr (if op = 1 then .stat d.toNat else .note d.toNat (fieldOf v 8 4)) c a.toNat [(x, v)]
      else do
        check (arg != 0) cNETLINK (netDetail 6 0 0)
        let addr ← nodeIssue c a.toNat (pL + pS) arg 0 4
        netSend d.toNat addr (if op = 3 then .park d.toNat arg else .unpark d.toNat arg) c a.toNat [(x, v)]) s

/-! ### Bags, segments and rings -/

/-- R334: how many pairs a ring of a partition holds (DEDUCED: log entry 33). -/
def pairRingRoom (p : Partition) : Nat := 2 ^ (fieldOf p.nbRing 0 4 + 6)

/-- R334: an entry goes into a partition's pair ring at a slice. -/
def touchPairs (s : State) (part n : Nat) : State :=
  let p := partOf s part
  touchRing s part (fieldOf p.nbRing 12 36 * 4096 + n * (8 * pairRingRoom p)) (8 * pairRingRoom p)

/-- R334. A slice places an overflow pair in its segment or in the partition's ring; the push is answered. -/
def execPairOverflowPlace (idx : Nat) (s : State) : Outcome :=
  runEvent (do
    let s ← get
    let o ← needSome s.glob.overflow[idx]?
    need (!(s.glob.overflow.take idx).any fun e => e.slice == o.slice && e.pair.part == o.pair.part)
    let sl := sliceOf s o.slice
    let ring := tabGet [] sl.pairRings o.pair.part
    let placed := fun (s : State) =>
      let s := { s with glob := { s.glob with overflow := removeAt s.glob.overflow idx } }
      if o.counted then s
      else
        let s := netCount s o.pair.launch 1
        match tabFind? s.reqs o.req with
        | none => s
        | some r => sendReply s o.req { r with held := false } (.value o.status)
    if sl.pairs.length < 64 ∧ ring.isEmpty then
      set (placed (setSlice s o.slice { sl with pairs := sl.pairs ++ [o.pair] }))
    else if ring.length < pairRingRoom (partOf s o.pair.part) then
      set (touchPairs (placed (setSlice s o.slice { sl with pairRings := tabPut sl.pairRings o.pair.part (ring ++ [o.pair]) })) o.pair.part o.slice)
    else set (raisePart s o.pair.part 9)) s

/-- R326, R335: whether a core can take a pair of a launch: rwch bound and unmasked, with room for a request. -/
def takesPair (s : State) (k id : Nat) (l : Launch) (room : Bool) : Bool :=
  let c := coreOf s k
  (match tabFind? c.bind (lnRwch l) with
    | some b => b.rewrite && b.launch == id
    | none => false) && !c.chmask.getLsbD (lnRwch l) && (!room || inboxRoom (inboxOf s k) 0)

/-- R326, R335: the core that a pair of two kinds goes to. -/
def pairCore (s : State) (b id : Nat) (l : Launch) (k1 k2 : Nat) : Option Nat :=
  let tile := 0xF000 ≤ k1 || 0xF000 ≤ k2
  let holder := ((berthOf s b).mat.lease.map (·.core)).or (berthOf s b).mat.lastHolder
  let plain := ((List.range 4).map (4 * b + ·)).find? fun k => takesPair s k id l true
  if tile then
    match holder with
    | some k => if takesPair s k id l false then some k else plain
    | none => plain
  else plain

/-- R335: the marking of both nodes of a pair: their kinds, or `none` when the check fails. -/
def markPair (v : NodeView) (p : Pair) : Act (Option (Nat × Nat)) := do
  let x ← nodeWords v p.a
  let y ← nodeWords v p.b
  let x0 := x.getD 0 0
  let y0 := y.getD 0 0
  if nodeLive x0 && nodeLive y0 && x.getD 1 0 == portRef p.b 0 && y.getD 1 0 == portRef p.a 0 then do
    nodePut v p.a 0 (x0 + 2 ^ 18)
    nodePut v p.b 0 (y0 + 2 ^ 18)
    pure (some (x0 % 65536, y0 % 65536))
  else pure none

/-- R335: the pair leaves the bag without a message and counts out (DEDUCED: log entry 57). -/
def discardPair (s : State) (b : Nat) (p : Pair) : State :=
  let y := berthOf s b
  netCount (setBerth s b { y with bag := y.bag.erase p, discards := y.discards + 1 }) p.launch (-1)

/-- R335, R342: whether a pair of a bag can go: a core of the berth has its rewrite channel bound and unmasked, or its launch is gone
(DEDUCED: log entry 57). -/
def pairGoes (s : State) (b : Nat) (p : Pair) : Bool :=
  match launchOf s p.launch with
  | none => true
  | some l => ((List.range 4).map (4 * b + ·)).any fun k => takesPair s k p.launch l false

/-- R44, R335: the message of a pair. -/
def pairMessage (b k id : Nat) (l : Launch) (p : Pair) (heap : Cap) (k1 k2 : Nat) : Flight :=
  ⟨header 0 0 (lnClass l) 0 0 (4 * b) 1 7 0 (lnRwch l) k,
    [BitVec.ofNat 64 p.a, BitVec.ofNat 64 p.b, BitVec.ofNat 64 (k1 + k2 * 2 ^ 16)], heap, p.part, .pair, .berth b, 4 * b, some id,
    none, false, 0, 0⟩

/-- R335: the node of a pair that could not be read or written. -/
def badNode (v : NodeView) (p : Pair) (s : State) : Nat :=
  match nodeWords v p.a s with
  | .error _ => p.a
  | .ok _ => p.b

/-- R335, R44. A berth pops its oldest pair, marks both nodes dead and sends the rewrite message. -/
def execPairPop (berth : Nat) (s : State) : Outcome :=
  runEvent (do
    let s ← get
    let p ← needSome ((berthOf s berth).bag.find? (pairGoes s berth))
    match (launchOf s p.launch).bind fun l => l.net.bind fun n => n.heap.map fun h => (l, n, h) with
    | none => set (discardPair s berth p)
    | some (l, n, heap) =>
      let v : NodeView := ⟨berth, n.heapPart, heap, 0, pL + pS, true, none⟩
      match markPair v p s with
      | .error (.stall _) => halt .disabled
      | .error _ => set (netError (discardPair s berth p) p.part p.launch (badNode v p s))
      | .ok (none, _) => set (discardPair s berth p)
      | .ok (some (k1, k2), t) => do
        let k ← needSome (pairCore s berth p.launch l k1 k2)
        let y := berthOf t berth
        set (post (setBerth t berth { y with bag := y.bag.erase p }) (pairMessage berth k p.launch l p heap k1 k2))) s

/-- R298 step 2: the partition whose ring gives its head to a freed entry: the one that freed it, else the next in ascending
order after the one served last. -/
def nextRing (has : Nat → Bool) (freed : Option Nat) (turn : Nat) : Option Nat :=
  (freed.filter has).or (((List.range 16).map fun i => (turn + 1 + i) % 16).find? has)

/-- R334: free segment entries take the heads of rings as in R298 step 2. -/
def refillPairs (sl : Slice) (freed : Option Nat) : Nat → Slice
  | 0 => sl
  | fuel + 1 =>
    if 64 ≤ sl.pairs.length then sl
    else
      match nextRing (fun p => !(tabGet [] sl.pairRings p).isEmpty) freed sl.pairTurn with
      | none => sl
      | some p =>
        match tabGet [] sl.pairRings p with
        | [] => sl
        | x :: r =>
          refillPairs { sl with pairs := sl.pairs ++ [x], pairRings := tabPut sl.pairRings p r, pairTurn := p } freed fuel

/-- R336: whether a berth wants pairs of a launch. -/
def wantsPairs (s : State) (b id : Nat) : Bool :=
  match launchOf s id with
  | none => false
  | some l => l.net.isSome && !(berthOf s b).bag.any (fun p => p.launch == id) &&
      ((List.range 4).map (4 * b + ·)).any fun k => takesPair s k id l true

/-- R336. A berth without a pair of a launch takes up to 16, as its bag has room, from the next slice that holds some. -/
def execBagRefill (berth : Nat) (slice : Nat) (s : State) : Outcome :=
  runEvent (do
    let s ← get
    let y := berthOf s berth
    let ids := ((List.range 4).filterMap fun i => (coreOf s (4 * berth + i)).place.map (·.launch)).eraseDups
    let want := ids.filter (wantsPairs s berth)
    let has := fun (n : Nat) => (sliceOf s n).pairs.any fun p => want.contains p.launch
    let order := (List.range 32).map fun i => (y.bagRr + 1 + i) % 32
    need (order.find? has == some slice && y.bag.length < 256)
    let sl := sliceOf s slice
    let id ← needSome ((sl.pairs.find? fun p => want.contains p.launch).map (·.launch))
    let taken := (sl.pairs.filter fun p => p.launch == id).take (min 16 (256 - y.bag.length))
    let left := taken.foldl (fun l p => l.erase p) sl.pairs
    let s := setSlice s slice (refillPairs { sl with pairs := left } ((taken.head?).map (·.part)) 64)
    set (setBerth s berth { y with bag := y.bag ++ taken, bagRr := slice })) s

end Sys2Proof.Machine
end

