-- ==== Sys2Proof/Machine/Queue.lean ====
section
/-!
DEFINITION. The task queue (R39, R40, R295 to R298, R389): `enq`, the slice agents' segments and rings, and the delivery of
task records.
-/
namespace Sys2Proof.Machine

open Sys2Proof

/-- R87: bytes that an instruction reads itself, through the L1; unreadable data traps. -/
def readNow (addr bytes : Nat) : Act Nat := do
  let ps ← herePieces 0 (8 * addr) (8 * bytes)
  waitPieces ps false
  let s ← get
  let k := s.cur.core
  if bandHeld s (coreBerth k) (← here).part ps then halt (.stall .other) else pure ()
  if (← here).rev1 then waitHome ps else pure ()
  let s := countMisses s k s.cur.ctx ps
  if ps.any (unreadable s (coreBerth k)) then halt (.trap cUNCORR (errorDetail 0 addr))
  else do
    let (v, s) := readPieces s (coreBerth k) (← here).rev1 ps
    set s
    pure v

/-- R297. Reads a task record and sends it to the slice agent of its affinity key. -/
def execEnq (f : BitVec 1) (eb : BitVec 1) (b : BitVec 5) (a : BitVec 4) (d : BitVec 5) (s : State) : Outcome :=
  runInstr ((fwdRule f [b]).or (portRule d)) (encEnq f eb b a d) 4 (do
    scalarLink b (forwards f [] b)
    let i ← readX b (bit eb) (forwards f [] b)
    let c ← readC a.toNat
    let s ← get
    let k := s.cur.core
    let r := a.toNat
    check (capFmt c == 0x07) cFORMAT (det 4 r 0 0 (capFmt c))
    let ps ← collect (fun j => do
      let x ← liftChk (capAccess (coreBerth k) c r 0 pL ⟨i.toNat + j, 0, 0, 0⟩ 64)
      pure (x.1 / 8)) [0, 1, 2, 3]
    let p := ps.headD 0
    check (p % 32 == 0) cALIGN (det 8 r 0 0 p)
    watchTest 0 [(p, 32)]
    let v ← readNow p 32
    let g := BitVec.ofNat 256 v
    check (recWord g 0 / 2 ^ 24 == 0 && recWord g 3 / 4 == 0) cILLEGAL (BitVec.ofNat 64 (recWord g 0 + recWord g 3 * 2 ^ 32))
    let dst ← claimX d (← get).nextReq
    requestQueued dst (BitVec.ofNat 64 p) (.enq g (foldSlice (recWord g 2)) (coreOf (← get) k).place)
    pure .seq) s

/-- R296: how many records a ring of a partition holds (DEDUCED: log entry 33). -/
def ringRoom (p : Partition) : Nat := 2 ^ (fieldOf p.tqRing 0 4 + 5)

/-- R296: an entry goes into a partition's ring at a slice. -/
def touchRecords (s : State) (part n : Nat) : State :=
  let p := partOf s part
  touchRing s part (fieldOf p.tqRing 12 36 * 4096 + n * (32 * ringRoom p)) (32 * ringRoom p)

/-- R297: the status of an enqueue. -/
def enqStatus (where_ slice depth : Nat) : Dbl := BitVec.ofNat 64 (where_ * 2 ^ 62 + slice * 2 ^ 48 + min depth 65535)

/-- R298: the records of a partition that a slice holds. -/
def recordsAt (sl : Slice) (part : Nat) : Nat :=
  (sl.seg.filter fun r => r.part == part).length + (tabGet [] sl.rings part).length

/-- R297, R298. The slice agent queues a record in its segment or the partition's ring, or refuses it. -/
def execEnqueueServe (req : Nat) (s : State) : Outcome :=
  runEvent (do
    let r ← reqOf req
    match r.body with
    | .enq g n place => do
      let s ← get
      need (r.reply.isNone && r.sent && !crossingHeld s r.part (coreQuay r.core) (n / 16) && !s.reqs.any fun e => e.1 < req && e.2.core == r.core && e.2.ctx == r.ctx && e.2.reply.isNone &&
        (match e.2.body with
          | .enq _ m _ => m == n
          | _ => false))
      let sl := sliceOf s n
      let x : TaskRec := ⟨g, r.core, r.part, place, s.clk⟩
      let ring := tabGet [] sl.rings r.part
      let answer := fun (s : State) (v : Dbl) => sendReply s req r (.value v)
      let depth := recordsAt sl r.part
      if (templateOf s r.part g).isNone then set (answer s (enqStatus 3 n depth))
      else if sl.seg.length < 32 ∧ ring.isEmpty then
        set (answer (setSlice s n { sl with seg := sl.seg ++ [x] }) (enqStatus 0 n (depth + 1)))
      else if ring.length < ringRoom (partOf s r.part) then
        set (touchRecords (answer (setSlice s n { sl with rings := tabPut sl.rings r.part (ring ++ [x]) }) (enqStatus 1 n (depth + 1))) r.part n)
      else
        let p := partOf s r.part
        let s := raisePart (setPart s r.part { p with tqFull := p.tqFull ||| BitVec.ofNat 32 (2 ^ n) }) r.part 2
        set (answer s (enqStatus 2 n depth))
    | _ => halt .disabled) s

/-- R297, R373, R393. The status fills the destination of `enq`. -/
def execEnqStatusDelivery (req : Nat) (s : State) : Outcome :=
  runEvent (do
    let r ← reqOf req
    match r.body, r.reply with
    | .enq _ n _, some y => do
      need (!earlierReply (← get) req r)
      dropReq req
      modify fun s => addDelay (fillReply s r req y) r.core (0x140 + n)
    | _, _ => halt .disabled) s

/-- R25, R389: the group that a record's destination names is not placed: there is no core yet to reserve an entry (DEDUCED: log entry 35). -/
def recordLater (s : State) (r : TaskRec) : Bool :=
  match templateOf s r.part r.rec_ with
  | none => false
  | some (_, t) => t.dst.getLsbD 9 && match resolveLogical s r.place (t.dst.toNat % 512) with
    | some (.later _ _) => true
    | _ => false

/-- R389: whether the head record of a partition at a slice needs an inbox entry that is not reserved yet. -/
def needsEntry (s : State) (n : Nat) (r : TaskRec) : Bool :=
  (recordCap s r).isSome &&
    match recordCore s r with
    | none => recordLater s r
    | some k => !(coreOf s k).reserved.contains (n, r.part)

/-- R389. A core grants a slice agent an inbox entry for the head record of a partition, or refuses for now. -/
def execInboxReservationGrant (core : Nat) (slice : Nat) (part : Nat) (s : State) : Outcome :=
  runEvent (do
    let s ← get
    let r ← needSome (headRecord (sliceOf s slice) part)
    need (needsEntry s slice r && recordCore s r == some core && !goesAway s core part)
    let c := inboxOf s core
    let key := (slice, part)
    let used := (c.inbox.filter fun f => hdrVn f.header == 0).length + c.reserved.length + c.owed.length
    let first := match c.refused with
      | [] => true
      | x :: _ => x == key
    if used < 26 && first then
      set (setCore s core { c with reserved := c.reserved ++ [key], refused := c.refused.erase key })
    else do
      need (!c.refused.contains key)
      set (setCore s core { c with refused := c.refused ++ [key] })) s

/-- R298 step 2: an entry that a partition freed takes the head of a ring. -/
def refillRecords (sl : Slice) (freed : Nat) : Slice :=
  if 32 ≤ sl.seg.length then sl
  else
    match nextRing (fun p => !(tabGet [] sl.rings p).isEmpty) (some freed) sl.ringTurn with
    | none => sl
    | some p =>
      match tabGet [] sl.rings p with
      | [] => sl
      | x :: r => { sl with seg := sl.seg ++ [x], rings := tabPut sl.rings p r, ringTurn := p }

/-- R40, R298: the message of a record. -/
def recordMessage (n : Nat) (r : TaskRec) (t : TemplateDecl) (cap : Cap) (entry : Option Nat) : Flight :=
  let g := r.rec_
  ⟨setField (header 0 0 (recWord g 3 % 4) 0 0 r.core 1 7 0 t.channel.toNat 0) 0 10 t.dst.toNat,
    [BitVec.ofNat 64 (recWord g 1), BitVec.ofNat 64 (recWord g 0), granDouble g 2], cap, r.part, .record entry, .slice n, r.core, none,
    r.place, false, 0, 0⟩

/-- R389: the core whose entry a head record uses. -/
def entryOf (s : State) (n : Nat) (r : TaskRec) : Option Nat :=
  (recordCore s r).filter fun k => (recordCap s r).isSome && (coreOf s k).reserved.contains (n, r.part)

/-- R389: the entry reserved for a head record is kept for it while it is on its way; the agent's requests for it end. -/
def useEntry (s : State) (n : Nat) (r : TaskRec) : State :=
  let key := (n, r.part)
  let t := { s with cores := s.cores.map fun e => (e.1, { e.2 with reserved := e.2.reserved.erase key, refused := e.2.refused.erase key }) }
  match entryOf s n r with
  | none => t
  | some k => setCore t k { coreOf t k with owed := (coreOf t k).owed ++ [key] }

/-- R298, R40. A slice agent dequeues the head record of the partition whose turn it is and sends it. -/
def execRecordDequeue (slice : Nat) (part : Nat) (s : State) : Outcome :=
  runEvent (do
    let s ← get
    let sl := sliceOf s slice
    let ready := fun (p : Nat) => match headRecord sl p with
      | none => false
      | some r => decide (r.at_ < s.clk) && !needsEntry s slice r
    need (((List.range 16).map fun i => (sl.turn + 1 + i) % 16).find? ready == some part)
    let r ← needSome (headRecord sl part)
    let entry := entryOf s slice r
    let s := useEntry s slice r
    let s := setSlice s slice (refillRecords { sl with seg := sl.seg.erase r, turn := part } part)
    match recordCap s r, templateOf s part r.rec_ with
    | some cap, some (_, t) => set (post s (recordMessage slice r t cap entry))
    | _, _ => set (raisePart (setPart s part { partOf s part with recordNamed := some r.rec_ }) part 2)) s

end Sys2Proof.Machine
end

