-- ==== Sys2Proof/Machine/Launch.lean ====
section
/-!
DEFINITION. Launches (R41 to R43, R299 to R308, R318): the launch instructions and doors, the harbourmasters' checks, the
placement of groups and their retirement.
-/
namespace Sys2Proof.Machine

open Sys2Proof

/-! ### Issue -/

/-- R302: a granule that `launch` reads as `clc` reads it: its bits, and the tag left by the capability, the page and the load
barrier. -/
def readTagged (c : Cap) (addr : Nat) : Act Cap := do
  let s ← get
  let b := coreBerth s.cur.core
  let part := (← here).part
  let p ← translate b part addr 0 false
  loadGranule addr p (capHas c pLC)

/-- R302. Reads a launch record and sends it to the harbourmaster of the core's quay (DEDUCED: log entries 19, 23). -/
def execLaunch (f : BitVec 1) (eb : BitVec 1) (b : BitVec 5) (a : BitVec 4) (d : BitVec 5) (s : State) : Outcome :=
  runInstr ((fwdRule f [b]).or (portRule d)) (encLaunch f eb b a d) 4 (do
    scalarLink b (forwards f [] b)
    let c ← readC a.toNat
    let i ← readX b (bit eb) (forwards f [] b)
    let r := a.toNat
    let berth := coreBerth (← get).cur.core
    let (x, _) ← liftChk (granuleAccess berth c r (pL + pLC) ⟨i.toNat, 0, 0, 0⟩)
    let (y, _) ← liftChk (granuleAccess berth c r (pL + pLC) ⟨i.toNat + 1, 0, 0, 0⟩)
    watchTest 0 [(x / 8, 32), (y / 8, 32)]
    releaseHere 4
    let v ← readNow (x / 8) 32
    let root ← readTagged c (y / 8)
    let g := BitVec.ofNat 256 v
    let dst ← claimX d (← get).nextReq
    request dst (BitVec.ofNat 64 (x / 8)) (.launch (granDouble g 0) (granDouble g 1) (granDouble g 2) (granDouble g 3) root)
    pure .seq) s

/-- R304. Marks the executing core as done for its group. -/
def execGdone (s : State) : Outcome :=
  runInstr none encGdone 4 (do
    let s ← get
    let k := s.cur.core
    check (coreOf s k).place.isSome cILLEGAL (illegalDetail 4 false encGdone)
    modCore k fun c => { c with gdone := true }
    pure .seq) s

/-! ### Doors -/

/-- R303: a location of a partition's memory as system agents read it, with the tag permission of its page. -/
def partPhys (s : State) (part va : Nat) : Option Phys :=
  if isTranslated va = false then none
  else
    match walk s part va with
    | .error _ => none
    | .ok (leaf, level, slot) =>
      match leafCheck (partOf s part) leaf 0 false with
      | some _ => none
      | none => some (leafPhys part ⟨part, 0, leaf, level, slot⟩ va)

/-- R303: the launch request that a door's record makes; `none` when a granule cannot be translated or read. -/
def doorRequest (s : State) (part va door : Nat) : Option Req :=
  match partPhys s part va, partPhys s part (va + 32) with
  | some p, some q =>
    if isBad s p.key 32 || isBad s q.key 32 then none
    else
      let g := BitVec.ofNat 256 (natOfBytes (memRead s.mem p.key 32))
      let root : Cap := ⟨BitVec.ofNat 256 (natOfBytes (memRead s.mem q.key 32)), q.tagOk && s.tags.contains (q.key / 32)⟩
      some ⟨0, 0, 0, part, .none, BitVec.ofNat 64 va,
        .launch (granDouble g 0) (granDouble g 1) (granDouble g 2) (granDouble g 3) root, none, door, false, true, 0, 0⟩
  | _, _ => none

/-- R136, R241, R383: the device has to wait for the record of a door. -/
def doorHeld (s : State) (part va : Nat) : Bool :=
  isTranslated va && (unitHeld s part va 32 false || unitHeld s part (va + 32) 32 false)

/-- R303: the partition for which the partition manager's door reads a record: the first in whose own addresses the record names it
(DEDUCED: log entry 53). -/
def doorPart (s : State) (va : Nat) : Option Nat :=
  (List.range 16).find? fun p => match doorRequest s p va 2 with
    | some r => match r.body with
      | .launch _ _ d2 _ _ => fieldOf d2 48 4 == p
      | _ => false
    | none => false

/-- R302, R303: the bit that `hm.stat` adds while a request runs, and its value after one whose record could not be read. -/
def doorBusy : Dbl := BitVec.ofNat 64 (2 ^ 62)
def launchRefused (reason : Nat) : Dbl := BitVec.ofNat 64 (2 ^ 63 + reason * 2 ^ 48)

/-- R303: `hm.door` and `hm.stat` of a partition page or of the global page. -/
def setDoor (s : State) (part : Nat) (glob : Bool) (door : Dbl) (stat : Dbl) : State :=
  if glob then { s with glob := { s.glob with door := door, hmStat := stat } }
  else setPart s part { partOf s part with door := door, hmStat := stat }

/-- R303. A write of `hm.door` sends the record that it names to the harbourmaster of the record's home quay; `hm.stat` keeps the last result meanwhile. -/
def execHmDoorWrite (part : Nat) (glob : Bool) (value : BitVec 64) (s : State) : Outcome :=
  runEvent (do
    let s ← get
    let stat := if glob then s.glob.hmStat else (partOf s part).hmStat
    let va := fieldOf value 5 43 * 32
    let door := BitVec.ofNat 64 va
    if stat.getLsbD 62 then
      set (if glob then { s with glob := { s.glob with pmErr := true } } else setPart s part { partOf s part with pfErr := true })
    else do
      need (!doorHeld s part va)
      match doorRequest s part va (if glob then 2 else 1) with
      | none => set (setDoor s part glob door (launchRefused 8))
      | some r =>
        let s := setDoor s part glob door (stat ||| doorBusy)
        set { s with reqs := tabPut s.reqs s.nextReq r, nextReq := s.nextReq + 1 }) s

/-! ### Acceptance -/

/-- R114, R310: whether a partition can ever run on a berth. -/
def berthServes (s : State) (b part : Nat) : Bool :=
  let o := (berthOf s b).owner
  (quayOf s (berthQuay b)).mode == .up && !o.getLsbD 6 && (if o.getLsbD 7 then slicedFor s b part else bitsAt o.toNat 0 4 == part)

/-- The berths of a quay that serve a partition. -/
def servingBerths (s : State) (q part : Nat) : Nat := ((List.range 64).filter fun i => berthServes s (64 * q + i) part).length

/-- R302: whether a reserved field or vector is nonzero, or another field has a value it may not have. -/
def recordMalformed (l : Launch) : Bool :=
  l.d1.getLsbD 63 || fieldOf l.d2 57 7 != 0 || fieldOf l.d3 46 18 != 0 || lnGx l == 0 || lnGy l == 0 || lnGz l == 0 ||
    6 ≤ lnPerm l || (lnShape l != 3 && fieldOf l.d1 57 4 != 0) || 4 < lnNvec l ||
    [1, 2, 3, 4].any fun i => lnNvec l < i && lnVector l i != 0

/-- R302: the object of a launch, if it is resident. -/
def launchObject (s : State) (l : Launch) : Option CodeObject := tabFind? (partOf s l.part).objs (lnObject l)

/-- R302: reason 4. -/
def objectMissing (s : State) (l : Launch) : Bool :=
  match launchObject s l with
  | none => true
  | some o => !o.handlers.any (fun h => h.channel.toNat == lnStart l) || (lnRwv l && o.rules.isEmpty)

/-- R302: the first check that a launch fails; 0 when it passes all. `part` is the issuing core's partition, if a core or a
partition's page issued it. -/
def launchReason (s : State) (q : Nat) (part : Option Nat) (l : Launch) : Nat :=
  if (match part with
    | some p => p != fieldOf l.d2 48 4
    | none => false) then 6
  else if recordMalformed l then 3
  else if !l.root.tag || capSealed l.root then 5
  else if objectMissing s l then 4
  else if ((List.range (lnNvec l)).any fun i => !vectorForward l (i + 1)) then 1
  else if max (servingBerths s 0 l.part) (servingBerths s 1 l.part) < (if lnShape l = 3 then lnStages l else 1) then 7
  else if (List.range 32).all fun i => (tabFind? s.launches (32 * q + i)).isSome then 2
  else 0

/-- R299: a launch as its record gives it, not yet numbered. -/
def newLaunch (s : State) (q : Nat) (d0 d1 d2 d3 : Dbl) (root : Cap) : Launch where
  d0 := d0
  d1 := d1
  d2 := d2
  d3 := d3
  root := root
  part := fieldOf d2 48 4
  seqNo := s.glob.launchSeq
  base := 0
  bits := []
  placed := []
  gens := []
  retired := 0
  failed := false
  avg := none
  acceptedAt := s.clk
  deadlineRaised := false
  dlLeft := fieldOf d3 0 32
  leave := false
  askedAt := 0
  readySince := []
  later := []
  home := q
  net := if d2.getLsbD 52 then some ⟨none, 0, 0, none⟩ else none

/-- R302. The harbourmaster checks a launch record and accepts or refuses it. -/
def execLaunchRequestServe (req : Nat) (s : State) : Outcome :=
  runEvent (do
    let r ← reqOf req
    match r.body with
    | .launch d0 d1 d2 d3 root => do
      let s ← get
      need r.reply.isNone
      let q := if r.door = 0 then coreQuay r.core else livingQuay s (fieldOf d1 62 1)
      let l := newLaunch s q d0 d1 d2 d3 root
      let answer := fun (s : State) (v : Dbl) => { s with reqs := tabPut s.reqs req { r with reply := some (.value v) } }
      let reason := launchReason s q (if r.door = 2 then none else some r.part) l
      match reason, (List.range 32).find? fun i => (tabFind? s.launches (32 * q + i)).isNone with
      | 0, some i =>
        let s := setLaunch { s with glob := { s.glob with launchSeq := s.glob.launchSeq + 1 } } (32 * q + i) l
        set (answer s (BitVec.ofNat 64 (32 * q + i)))
      | n, _ => set (answer s (launchRefused n))
    | _ => halt .disabled) s

/-- R302, R303. The status fills the destination of `launch`, or `hm.stat`. -/
def execLaunchStatusDelivery (req : Nat) (s : State) : Outcome :=
  runEvent (do
    let r ← reqOf req
    match r.body, r.reply with
    | .launch _ _ _ _ _, some y => do
      dropReq req
      match r.door, y with
      | 0, _ => modify fun s => fillReply s r req y
      | 1, .value v => modPart r.part fun p => { p with hmStat := v }
      | _, .value v => modGlob fun g => { g with hmStat := v }
      | _, _ => pure ()
    | _, _ => halt .disabled) s

/-- R202, R306: the governor of a quay answers a request for leave: always yes under a budget of 0 (DESIGN CHOICE: log entry 6). -/
def askLeave (s : State) (q : Nat) : Bool × State :=
  if (quayOf s q).budget = 0 then (true, s) else (Config.budgetRoom s.freeCtr, { s with freeCtr := s.freeCtr + 1 })

/-- R306. A launch that has no leave asks the governor of its home quay, at most every 1,024 clk. -/
def execLaunchLeaveRetry (launch : Nat) (s : State) : Outcome :=
  runEvent (do
    let s ← get
    let l ← needSome (tabFind? s.launches launch)
    need (!l.leave && l.placed.isEmpty && (l.askedAt == 0 || l.askedAt + 1024 ≤ s.clk))
    let (yes, s) := askLeave s l.home
    set (setLaunch s launch { l with leave := yes, askedAt := s.clk })) s

/-! ### Placement -/

/-- R307: whether a group can be placed. -/
def groupReady (l : Launch) (idx : Nat) : Bool :=
  let g := groupAt l idx
  idx < lnTotal l && idx < l.base + 65536 && !groupRetired l idx && !l.placed.any (fun p => p.idx == idx) && !l.failed && !l.later.contains idx &&
    (List.range (lnNvec l)).all fun i =>
      let h := subCoord g (vectorOf l (i + 1))
      !insideGrid l h || groupRetired l (sweepIndex l h)

/-- R307: the ready group of lowest sweep index, looked for from an index on. -/
def firstReady (l : Launch) : Nat → Nat → Option Nat
  | 0, _ => none
  | fuel + 1, idx => if groupReady l idx then some idx else firstReady l fuel (idx + 1)

def nextGroup (l : Launch) : Option Nat := firstReady l (min 65536 (lnTotal l - l.base)) l.base

/-- R306: the clk since which a group has been ready and unplaced: its own, or that of the launch's acceptance or return. -/
def readyFrom (l : Launch) (idx : Nat) : Nat := tabGet l.acceptedAt l.readySince idx

/-- R306: whether a group has been ready and unplaced for 65,536 clk and has no reservation. -/
def groupWaits (s : State) (id : Nat) (l : Launch) (idx : Nat) : Bool :=
  groupReady l idx && readyFrom l idx + 65536 ≤ s.clk && !s.berths.any fun e => e.2.reservedFor == some (id, idx)

/-- R306: the first group of a launch that has waited so, looked for from an index on. -/
def firstWaiting (s : State) (id : Nat) (l : Launch) : Nat → Nat → Option Nat
  | 0, _ => none
  | fuel + 1, idx => if groupWaits s id l idx then some idx else firstWaiting s id l fuel (idx + 1)

def waitingGroup (s : State) (id : Nat) (l : Launch) : Option Nat :=
  firstWaiting s id l (min 65536 (lnTotal l - l.base)) l.base

/-- R306, R310, R391: whether a slice runs that has not ended. -/
def sliceRuns (s : State) : Bool := s.glob.slice.isSome && !s.glob.sliceEnding

/-- R306, R312, R383, R391: whether a berth receives a group of a launch now; a sliced berth does so only in the partition's slice. -/
def berthOpen (s : State) (b id idx part : Nat) : Bool :=
  let y := berthOf s b
  berthServes s b part && berthPart s b == some part && y.power == 0 && y.sliceEnd.isNone && (!y.owner.getLsbD 7 || sliceRuns s) &&
    (match y.reservedFor with
      | none => true
      | some r => r == (id, idx)) &&
    (List.range 4).all fun i => !(coreOf s (4 * b + i)).preempted

/-- Whether no group occupies a core. -/
def coreFree (s : State) (k : Nat) : Bool := (coreOf s k).place.isNone

/-- R41: whether a list of cores is a placement of a group of a launch: free cores of open berths in the shape it asks for. -/
def placementOk (s : State) (id : Nat) (l : Launch) (idx : Nat) (cores : List Nat) : Bool :=
  cores.all (fun k => k < 512 && coreFree s k && berthOpen s (coreBerth k) id idx l.part) &&
    match lnShape l with
    | 0 => cores.length == 1
    | 1 => match cores with
      | [a, b] => a % 2 == 0 && b == a + 1
      | _ => false
    | 2 => match cores with
      | a :: _ => a % 4 == 0 && cores == [a, a + 1, a + 2, a + 3]
      | _ => false
    | _ =>
      let bs := (List.range (lnStages l)).map fun i => coreBerth (cores.getD (4 * i) 0)
      cores == bs.flatMap (fun b => [4 * b, 4 * b + 1, 4 * b + 2, 4 * b + 3]) &&
        (bs.zip (bs.drop 1)).all (fun e => e.1 < e.2) && bs.all fun b => berthQuay b == berthQuay (bs.headD 0)

/-- R306: whether any cores could take a group of a launch. -/
def placeable (s : State) (id : Nat) (l : Launch) (idx : Nat) : Bool :=
  let open_ := fun (b : Nat) => berthOpen s b id idx l.part
  let whole := fun (b : Nat) => open_ b && (List.range 4).all fun i => coreFree s (4 * b + i)
  match lnShape l with
  | 0 => (List.range 128).any fun b => open_ b && (List.range 4).any fun i => coreFree s (4 * b + i)
  | 1 => (List.range 128).any fun b => open_ b && [0, 2].any fun i => coreFree s (4 * b + i) && coreFree s (4 * b + i + 1)
  | 2 => (List.range 128).any whole
  | _ => [0, 1].any fun q => lnStages l ≤ ((List.range 64).filter fun i => whole (64 * q + i)).length

/-- R306: lowest class first, then the earliest accepted. -/
def launchBefore (a b : Nat × Launch) : Bool := lnClass a.2 < lnClass b.2 || (lnClass a.2 == lnClass b.2 && a.2.seqNo ≤ b.2.seqNo)

/-- R306: the ready groups of a launch that can be next: the first, and those that have a berth reserved, in rising order. The others
could go nowhere that the first cannot. -/
def nextGroups (s : State) (id : Nat) (l : Launch) : List Nat :=
  let held := s.berths.filterMap fun e => e.2.reservedFor.filter fun r => r.1 == id && groupReady l r.2
  (held.map (·.2)).foldl setInsert (nextGroup l).toList

/-- R306: the launches in the order in which groups are placed, each with the groups that can be next. -/
def placementOrder (s : State) : List (Nat × Launch × Nat) :=
  (s.launches.mergeSort launchBefore).flatMap fun e => (nextGroups s e.1 e.2).map fun idx => (e.1, e.2, idx)

/-- R318: the bytes and tags of a berth's local stores and buffers become zero, so that no line of them is bad (R359). -/
def clearBerth (s : State) (b : Nat) : State :=
  let inside := fun (a : Nat) => 0xC ≤ windowOf a && !isL2Key a && winBerth a == b
  { s with
    mem := s.mem.filter fun c => !inside c.1
    tags := s.tags.filter fun t => !inside (t * 32)
    phases := s.phases.filter fun p => !inside p.1
    cores := s.cores.map fun (e : Nat × Core) => if coreBerth e.1 = b then (e.1, { e.2 with icache := sharedLines e.2.icache }) else e
    quays := s.quays.map fun (e : Nat × Quay) => (e.1, { e.2 with badLines := e.2.badLines.filter fun l => !inside (l.1 * 64) }) }

/-- R29, R291: what the cores of a berth keep of another partition's masks, priorities and boom tokens goes. -/
def clearMasks (s : State) (b : Nat) : State :=
  { s with cores := s.cores.map fun (e : Nat × Core) =>
    if coreBerth e.1 = b then (e.1, { e.2 with chmask := 0, chprio := 0, boomWait := [] }) else e }

/-- R29, R318: a berth given to a partition is cleared unless its contents are that partition's; what the save area has of its buffers
then is no longer what they hold (R314). -/
def giveBerth (s : State) (b part : Nat) : State :=
  if (berthOf s b).holds = some part then s
  else setBerth (clearMasks (clearBerth s b) b) b { berthOf s b with holds := some part, wDirty := [], imaged := (berthOf s b).imaged.erase part }

/-- R29, R68: a binding from a handler declaration. -/
def bindingOf (o : CodeObject) (h : HandlerDecl) (root : Cap) (launch part : Nat) : Binding :=
  ⟨o.code, h.addr, root, h.concurrent, launch, false, part⟩

/-- R29: writes a binding, with its channel unmasked and at the declared priority. -/
def bindChannel (c : Core) (ch : Nat) (b : Binding) (prio : Nat) : Core :=
  let m := c.chmask.toNat
  let p := c.chprio.toNat
  { c with
    bind := tabPut c.bind ch b
    chmask := BitVec.ofNat 16 (m - bitsAt m ch 1 * 2 ^ ch)
    chprio := BitVec.ofNat 32 (p - bitsAt p (2 * ch) 2 * 2 ^ (2 * ch) + prio * 2 ^ (2 * ch)) }

/-- R29: a channel's binding is removed, and its mask bit and priority return to 0. -/
def unbindChannel (c : Core) (ch : Nat) : Core :=
  let c := bindChannel c ch ⟨Cap.null, 0, Cap.null, false, 0, false, 0⟩ 0
  { c with bind := tabErase c.bind ch }

/-- R299, R325: the bindings of a group's core. -/
def bindGroup (c : Core) (o : CodeObject) (id : Nat) (l : Launch) : Core :=
  let c := o.handlers.foldl (fun c h => bindChannel c h.channel.toNat (bindingOf o h l.root id l.part) h.prio.toNat) c
  let c := match o.handlers.find? fun h => h.channel.toNat == lnStart l with
    | none => c
    | some h => bindChannel c 0 (bindingOf o h l.root id l.part) h.prio.toNat
  if lnRwv l then
    let h := o.handlers.find? fun h => h.channel.toNat == lnRwch l
    let b : Binding := match h with
      | some h => { bindingOf o h l.root id l.part with concurrent := true, rewrite := true }
      | none => ⟨Cap.null, 0, l.root, true, id, true, l.part⟩
    bindChannel c (lnRwch l) b ((h.map fun h => h.prio.toNat).getD 0)
  else c

/-- R41, R306: a core receives its group. -/
def placeCore (s : State) (id : Nat) (l : Launch) (o : CodeObject) (idx gen stage k : Nat) : State :=
  let g := groupAt l idx
  let kgroup := k % 4 * 2 ^ 48 + g.z.toNat * 2 ^ 32 + g.y.toNat * 2 ^ 16 + g.x.toNat
  let c := bindGroup (coreOf s k) o id l
  let s := setCore s k { c with
    place := some ⟨id, l.seqNo, idx, stage, k % 4, gen⟩
    gdone := false
    kstage := BitVec.ofNat 64 stage
    kgroup := BitVec.ofNat 64 kgroup
    freeList := []
    freeLaunch := id }
  refreshSince s k

/-- R42: a start message. -/
def startMessage (q k : Nat) (l : Launch) : Flight :=
  ⟨header 0 0 (lnClass l) 0 0 (256 * q) 0 0 2 0 k, [], Cap.null, l.part, .start, .harbour q, 256 * q, none, none, false, 0, 0⟩

/-- R255: pending messages whose destination is placed now leave, the table's before the ring's, ahead of later arrivals (DEDUCED: log entry 35). -/
def releasePending (s : State) : State :=
  [0, 1].foldl (fun s q =>
    let waits := fun (f : Flight) => match resolveLogical s f.place (hdrDst f.header) with
      | some (.later _ _) => true
      | _ => false
    let y := quayOf s q
    let go := (y.pending ++ y.ring).filter fun f => !waits f
    if go.isEmpty then s
    else { setQuay s q { y with pending := y.pending.filter waits, ring := y.ring.filter waits } with mesh := go.map (fun f => { f with early := true }) ++ s.mesh }) s

/-- R41, R42, R306, R318: a group is placed on its cores, in order of stage and member, and its start messages are sent (DEDUCED: log entry 35). -/
def placeGroup (s : State) (q id : Nat) (l : Launch) (o : CodeObject) (idx : Nat) (cores : List Nat) : State :=
  let gen := tabGet 0 l.gens idx
  let bs := (cores.map coreBerth).eraseDups
  let s := bs.foldl (fun s b => giveBerth s b l.part) s
  let s := unreserve s fun r => r == (id, idx)
  let s := cores.zipIdx.foldl (fun s e => placeCore s id l o idx gen (e.2 / 4) e.1) s
  let s := setLaunch s id { l with placed := l.placed ++ [⟨idx, cores, gen, s.clk⟩], readySince := tabErase l.readySince idx }
  let s := releasePending s
  let (fs, s) := cores.foldl (fun (acc : List Flight × State) k =>
    let f := startMessage q k l
    let (n, s) := nextNumber acc.2 f.header
    (acc.1 ++ [{ f with num := n }], s)) ([], s)
  { s with mesh := fs ++ s.mesh }

/-- R306, R41, R42. The first ready group in order that some cores could take is placed on the given cores. -/
def execGroupPlacement (quay : Nat) (cores : List Nat) (s : State) : Outcome :=
  runEvent (do
    let s ← get
    let (id, l, idx) ← needSome ((placementOrder s).find? fun e => (e.2.1.leave || e.2.1.askedAt == 0) && placeable s e.1 e.2.1 e.2.2)
    need (placementOk s id l idx cores && coreQuay (cores.headD 0) == quay)
    let o ← needSome (launchObject s l)
    let (yes, s) := if l.leave then (true, s) else if l.askedAt = 0 then askLeave s l.home else (false, s)
    if yes then do
      set s
      ordered l.part (.placed id idx (coreBerth (cores.headD 0)))
      set (placeGroup (← get) quay id { l with leave := true, askedAt := s.clk } o idx cores)
    else do
      need (l.askedAt == 0)
      set (setLaunch s id { l with askedAt := s.clk })) s

/-- R306. A group that has waited 65,536 clk reserves a berth that is wholly free. -/
def execPlacementWaitReservation (launch : Nat) (berth : Nat) (s : State) : Outcome :=
  runEvent (do
    let s ← get
    let l ← needSome (tabFind? s.launches launch)
    let idx ← needSome (waitingGroup s launch l)
    need (berthOpen s berth launch idx l.part && (berthOf s berth).reservedFor.isNone &&
      (List.range 4).all fun i => coreFree s (4 * berth + i))
    modBerth berth fun y => { y with reservedFor := some (launch, idx) }) s

/-- R310: clk in a µs at 1.4 GHz (DESIGN CHOICE: log entry 34). -/
def clkPerUs : Nat := 1400

end Sys2Proof.Machine
end

