-- ==== Sys2Proof/Machine/Copy.lean ====
section
/-!
DEFINITION. The lighter (R257 to R274): shadow registers, start commands, the running of copies element by element, their ends
and what is reported of them.
-/
namespace Sys2Proof.Machine

open Sys2Proof

/-! ### Shadow registers -/

/-- R257: a context's transfer numbering on a lighter channel. -/
def xferOf (x : Ctx) (l : Nat) : Xfer := if l = 0 then x.xf0 else x.xf1
def setXfer (x : Ctx) (l : Nat) (f : Xfer) : Ctx := if l = 0 then { x with xf0 := f } else { x with xf1 := f }

/-- R259: the shadow registers of a lighter channel. -/
def shadowOf (x : Ctx) (l : BitVec 1) : Shadow := if l = 0 then x.sh0 else x.sh1
def setShadow (x : Ctx) (l : BitVec 1) (h : Shadow) : Ctx := if l = 0 then { x with sh0 := h } else { x with sh1 := h }

/-- R259: a capability shadow takes a register with its tag. -/
def cpsetCap (l : BitVec 1) (c : BitVec 4) (f : Shadow → Cap → Shadow) : Act Next := do
  let v ← readC c.toNat
  modHere fun x => setShadow x l (f (shadowOf x l) v)
  pure .seq

/-- R259: a scalar shadow takes a register. -/
def cpsetDbl (x : BitVec 5) (l : BitVec 1) (f : Shadow → Dbl → Shadow) : Act Next := do
  scalarLink x false
  let v ← readX x false false
  modHere fun y => setShadow y l (f (shadowOf y l) v)
  pure .seq

/-- R259. Fills the source shadow of a lighter channel. -/
def execCpsetSrc (l : BitVec 1) (c : BitVec 4) (s : State) : Outcome :=
  runInstr none (encCpsetSrc l c) 4 (cpsetCap l c fun h v => { h with src := v }) s

/-- R259. Fills the destination shadow. -/
def execCpsetDst (l : BitVec 1) (c : BitVec 4) (s : State) : Outcome :=
  runInstr none (encCpsetDst l c) 4 (cpsetCap l c fun h v => { h with dst := v }) s

/-- R259. Fills the shadow of the index list or plan record. -/
def execCpsetAux (l : BitVec 1) (c : BitVec 4) (s : State) : Outcome :=
  runInstr none (encCpsetAux l c) 4 (cpsetCap l c fun h v => { h with aux := v }) s

/-- R259, R260. Fills the control shadow; reserved fields keep what is written. -/
def execCpsetCtl (x : BitVec 5) (l : BitVec 1) (s : State) : Outcome :=
  runInstr none (encCpsetCtl x l) 4 (cpsetDbl x l fun h v => { h with ctl := v }) s

/-- R259. Fills the lower berth mask. -/
def execCpsetMlo (x : BitVec 5) (l : BitVec 1) (s : State) : Outcome :=
  runInstr none (encCpsetMlo x l) 4 (cpsetDbl x l fun h v => { h with mlo := v }) s

/-- R259. Fills the upper berth mask. -/
def execCpsetMhi (x : BitVec 5) (l : BitVec 1) (s : State) : Outcome :=
  runInstr none (encCpsetMhi x l) 4 (cpsetDbl x l fun h v => { h with mhi := v }) s

/-! ### The checks of a start command -/

/-- R260: fields of `cp.ctl`. -/
def ctlSig (v : Dbl) : Bool := v.getLsbD 17
def ctlPlan (v : Dbl) : Bool := v.getLsbD 16
def ctlClass (v : Dbl) : Nat := fieldOf v 8 2
def ctlComp (v : Dbl) : Bool := v.getLsbD 7
def ctlTags (v : Dbl) : Bool := v.getLsbD 6
def ctlReservedZero (v : Dbl) : Bool := fieldOf v 18 46 == 0 && fieldOf v 10 6 == 0 && fieldOf v 0 6 == 0

/-- The operands of a start command; `elem` is 1 when they came from a plan record (R262). -/
structure CopyOps where
  src : Cap
  dst : Cap
  aux : Cap
  ctl : Dbl
  mlo : Dbl
  mhi : Dbl
  elem : Nat
  deriving DecidableEq, Repr

/-- R274: the detail word of COPY_FAULT. -/
def copyDetail (reason value : Nat) : Dbl := BitVec.ofNat 64 (reason * 2 ^ 60 + value % 2 ^ 48)

/-- R269: the windows that the lighter reaches (fn 6 is `cpcast`, 7 `cpred`) (DEDUCED: log entry 37). -/
def copyAgent (core fn : Nat) (c : Cap) (reg elem a : Nat) (isDst : Bool) : Chk Unit := do
  let own := winBerth a == coreBerth core
  let cast := fn == 6 && isDst
  let perm := (cPERM, det 7 reg 0 elem a)
  let scope := (cSCOPE, det 7 reg 0 elem a)
  let w := windowOf a
  if isTranslated a then (if cast then .error perm else pure ())
  else if own then
    match w with
    | 0xF => if isDst && fn != 7 then pure () else .error perm
    | 0xE => do
      demand (fn != 6) cPERM (det 7 reg 0 elem a)
      demand (elemBits (capFmt c) == some 32) cFORMAT (det 4 reg 0 elem (capFmt c))
    | 0xC => if cast then .error perm else pure ()
    | _ => pure ()
  else if cast || w == 0xE || w == 0xF then .error scope
  else demand (distance core (4 * winBerth a + (if w = 0xC then winCore a else 0)) ≤ capScope c) cSCOPE (det 7 reg 0 elem a)

/-- R262 step 3: the window step covers the whole box, by its lowest and its highest element, both steps for the lowest first
(DESIGN CHOICE: log entry 37). -/
def copyWindow (core fn : Nat) (c : Cap) (reg elem e : Nat) (isDst : Bool) : Chk Unit := do
  let one := fun (bit : Nat) => do
    demand (sameWindow (capBase c) (bit / 8) && sameWindow (capBase c) ((bit + e - 1) / 8)) cBOUNDS (det 6 reg 0 elem (bit / 8))
    copyAgent core fn c reg elem (bit / 8) isDst
  one (capBase c * 8)
  one (capBitAddr c e ⟨capExt c 0 - 1, capExt c 1 - 1, capExt c 2 - 1, capExt c 3 - 1⟩)

/-- R262 step 3: one operand. -/
def copyOperand (core fn : Nat) (c : Cap) (reg elem perm : Nat) (isDst : Bool) : Chk Unit := do
  let e ← capUse c reg elem perm
  copyWindow core fn c reg elem e isDst

/-- R262: whether a start command uses an index list. -/
def usesList (fn : Nat) : Bool := fn == 4 || fn == 5

/-- R262 step 3: the operands in order, with the permissions of its table. -/
def copyOperands (core fn : Nat) (o : CopyOps) : Chk Unit := do
  let tags := ctlTags o.ctl
  copyOperand core fn o.src 0 o.elem (pL + (if tags then pLC else 0)) false
  copyOperand core fn o.dst 1 o.elem (pS + (if fn = 7 then pL else 0) + (if tags then pSC else 0)) true
  if usesList fn then copyOperand core fn o.aux 2 o.elem pL false else pure ()

/-- R263: a granule of the plan record, as `clc` would load it. -/
def planGranule (cap : Cap) (k : Nat) : Act Cap := do
  let s ← get
  let x ← here
  let b := coreBerth s.cur.core
  let a := capBitAddr cap 256 ⟨k, 0, 0, 0⟩ / 8
  check (a % 32 == 0) cALIGN (det 8 2 0 0 a)
  let p ← translate b x.part a 0 false
  loadGranule a p true

/-- R262 steps 1 and 2, R263: the operands of a start command, from the shadows or from the plan record. A plan capability of fewer than 4
granules is out of bounds (DEDUCED: log entry 37) (DESIGN CHOICE: log entry 37). -/
def copyShadows (fn : Nat) (l : BitVec 1) : Act CopyOps := do
  let core := (← get).cur.core
  let h := shadowOf (← here) l
  check (ctlReservedZero h.ctl) cILLEGAL h.ctl
  if ctlPlan h.ctl = false then pure ⟨h.src, h.dst, h.aux, h.ctl, h.mlo, h.mhi, 0⟩
  else do
    let _ ← liftChk (capUse h.aux 2 0 (pL + pLC))
    check (capFmt h.aux == fCAP) cFORMAT (det 4 2 0 0 (capFmt h.aux))
    check (4 ≤ capExt h.aux 0) cBOUNDS (det 5 2 0 0 (capExt h.aux 0))
    liftChk (copyWindow core fn h.aux 2 0 256 false)
    let src ← planGranule h.aux 0
    let dst ← planGranule h.aux 1
    let list ← planGranule h.aux 2
    let rest ← planGranule h.aux 3
    let d := fun (i : Nat) => BitVec.ofNat 64 (capField rest (64 * i) 64)
    check (capRank h.aux == 1 && !ctlPlan (d 0) && ctlReservedZero (d 0) && d 3 == 0) cCOPY (copyDetail 6 (d 0).toNat)
    pure ⟨src, dst, list, d 0, d 1, d 2, 1⟩

/-- R262 step 4: the first revoked operand's detail word. An unreadable map word counts as revoked (R105). -/
def revokedOperand (s : State) (part : Nat) : List (Cap × Nat × Nat) → Option Dbl × State
  | [] => (none, s)
  | (c, reg, elem) :: r =>
    if c.tag then
      let (bad, s) := revoked s part (capBase c)
      if bad then (some (det 1 reg 0 elem 0), s) else revokedOperand s part r
    else revokedOperand s part r

/-- R262 step 4: the capabilities tested. -/
def revocable (fn : Nat) (plan : Option Cap) (o : CopyOps) : List (Cap × Nat × Nat) :=
  ((plan.map fun c => (c, 2, 0)).toList) ++ [(o.src, 0, o.elem), (o.dst, 1, o.elem)] ++
    (if usesList fn then [(o.aux, 2, o.elem)] else [])

/-- R264: the first dimension of those listed whose extents disagree, reported by dst's extent. -/
def extentsAgree (src dst : Cap) (dims : List Nat) : Chk Unit :=
  match dims.find? fun d => capExt src d != capExt dst d with
  | some d => .error (cCOPY, copyDetail 1 (capExt dst d))
  | none => pure ()

/-- R264, R265, R268: element sizes and formats. -/
def formatsAgree (fn : Nat) (o : CopyOps) : Chk Unit := do
  let f := capFmt o.src
  let g := capFmt o.dst
  demand (elemBits f == elemBits g) cCOPY (copyDetail 2 g)
  demand (!ctlTags o.ctl || f == fCAP) cCOPY (copyDetail 2 f)
  demand (!ctlTags o.ctl || g == fCAP) cCOPY (copyDetail 2 g)
  demand (fn != 7 || f == fFP32 || f == fBF16) cCOPY (copyDetail 2 f)
  demand (fn != 7 || f == g) cCOPY (copyDetail 2 g)

/-- R267: the berths that a mask names. -/
def maskBerths (mlo mhi : Dbl) : List Nat :=
  (List.range 128).filter fun b => if b < 64 then mlo.getLsbD b else mhi.getLsbD (b - 64)

/-- R266: the outermost dimension. -/
def rowDim (c : Cap) : Nat := capRank c - 1

/-- R262 step 5: the shape rules of each start command (DESIGN CHOICE: log entry 37). -/
def copyShape (s : State) (part fn : Nat) (o : CopyOps) : Chk Unit := do
  if usesList fn then do
    demand (capRank o.src == capRank o.dst) cCOPY (copyDetail 1 (capRank o.dst))
    extentsAgree o.src o.dst (List.range (rowDim o.dst))
    let n := capExt o.aux 0
    demand (capFmt o.aux == 0x06 && capRank o.aux == 1 && n ≤ 65536) cCOPY (copyDetail 3 n)
    let moved := if fn = 4 then o.dst else o.src
    demand (capExt moved (rowDim moved) == n) cCOPY (copyDetail 1 (capExt o.dst (rowDim o.dst)))
  else extentsAgree o.src o.dst (List.range 4)
  formatsAgree fn o
  if fn = 6 then
    let bs := maskBerths o.mlo o.mhi
    demand (!bs.isEmpty) cCOPY (copyDetail 4 0x80)
    match bs.find? fun b => !ownedBerth s b part with
    | some b => .error (cCOPY, copyDetail 4 b)
    | none => pure ()
  else pure ()

/-! ### Elements -/

/-- R264: the indices of element n of a box, dimension 0 fastest. -/
def elemIndex (c : Cap) (n : Nat) : Idx :=
  let e0 := capExt c 0
  let e1 := capExt c 1
  let e2 := capExt c 2
  ⟨n % e0, n / e0 % e1, n / e0 / e1 % e2, n / e0 / e1 / e2⟩

/-- The number of elements of a box. -/
def boxCount (c : Cap) : Nat := capExt c 0 * capExt c 1 * capExt c 2 * capExt c 3

/-- An index tuple with one index replaced. -/
def Idx.put (x : Idx) (d v : Nat) : Idx :=
  match d with
  | 0 => { x with i0 := v }
  | 1 => { x with i1 := v }
  | 2 => { x with i2 := v }
  | _ => { x with i3 := v }

/-- The element size of a copy. -/
def copyWidth (c : Copy) : Nat := (elemBits (capFmt c.dst)).getD 8

/-- How many elements a copy moves: those of dst, for `cpscat` those of src. -/
def copyTotal (c : Copy) : Nat := boxCount (if c.fn = 5 then c.src else c.dst)

/-- R264, R266: the source and destination bit addresses of element n in destination order. -/
def copyBits (c : Copy) (n : Nat) : Nat × Nat :=
  let e := copyWidth c
  let row := fun (i : Idx) (d : Nat) => i.put d ((c.list.getD []).getD (i.get d) 0)
  let src := if c.fn = 5 then elemIndex c.src n
    else
      let i := elemIndex c.dst n
      if c.fn = 4 then row i (rowDim c.src) else i
  let dst := if c.fn = 5 then row (elemIndex c.src n) (rowDim c.dst) else elemIndex c.dst n
  (capBitAddr c.src e src, capBitAddr c.dst e dst)

/-- R266: the row that element n belongs to: a position of the index list. -/
def copyRow (c : Copy) (n : Nat) : Nat :=
  if c.fn = 5 then (elemIndex c.src n).get (rowDim c.src) else (elemIndex c.dst n).get (rowDim c.dst)

/-- Translated pieces of an element for an engine, which may use Quayline frames (R380). -/
def enginePieces (b part kind : Nat) : Nat → Nat → Nat → Act (List Piece)
  | 0, _, _ => pure []
  | fuel + 1, bit, width =>
    if width = 0 then pure []
    else do
      let n := min width (512 - bit % 512)
      let p ← translate b part (bit / 8) kind true
      let r ← enginePieces b part kind fuel (bit + n) (width - n)
      pure (⟨p.key, bit % 8, n, p.cached⟩ :: r)

/-- R241: the line that a copy's write of an address will reach, as the maps stand; none where it would fault, or in a Quayline frame (DEDUCED: log entry 36). -/
def ownedLine (s : State) (b part a : Nat) : List Nat :=
  match leafFor s b part a with
  | .error _ => []
  | .ok (e, _) =>
    let p := leafPhys part e a
    if (leafCheck (partOf s part) e.leaf 1 true).isSome || (isQlPa p.key && p.cached) then [] else [p.key / 64]

/-- R241: the lines of translated memory that a copy has still to write, each with the last element that writes it. -/
def linesToWrite (s : State) (b : Nat) (c : Copy) : Tab Nat :=
  if isTranslated (capBase c.dst) = false ∨ c.outcome.isSome ∨ (c.fn = 5 ∧ c.list.isNone) then []
  else
    (List.range (copyTotal c - c.count)).foldl (fun t i =>
      let n := c.count + i
      let bit := (copyBits c n).2
      (ownedLine s b c.part (bit / 8) ++ ownedLine s b c.part ((bit + copyWidth c - 1) / 8)).foldl (fun t l => tabPut t l n) t) []

/-- R241: what says where a copy stands: its berth, its channel and the number under which it asked for its lines. -/
structure Claim where
  berth : Nat
  chan : Nat
  seq : Nat
  deriving DecidableEq, Repr

/-- R241: the copies that own a line, or have asked for it, by berth. -/
def claims (s : State) (line : Nat) : List Claim :=
  s.berths.flatMap fun e => e.2.chans.flatMap fun ch =>
    (ch.2.filter fun c => (tabFind? c.owned line).isSome).map fun c => ⟨e.1, ch.1, c.seq⟩

/-- R241: the copy that owns a line: the one whose request for it reached the home first. -/
def lineOwner (s : State) (line : Nat) : Option Claim :=
  (claims s line).foldl (fun o c => match o with
    | some p => if c.seq < p.seq then some c else some p
    | none => some c) none

/-- R241, R383: an access of a berth's copy to a piece waits: a copy of another agent owns its line, or one of the same lighter that asked
for it earlier, or its home does not serve it. A copy never waits for those behind it in its own channel (DEDUCED: log entry 36). -/
def ownedElsewhere (s : State) (b seq : Nat) (p : Piece) : Bool :=
  (p.cached && !isQlPa p.key && sliceIdle s p.key (pieceBytes p)) ||
    match lineOwner s (p.key / 64) with
    | none => false
    | some o => (o.berth != b || decide (o.seq < seq)) &&
        !(o.berth == b && (tabGet [] (berthOf s b).chans o.chan).any fun c => c.seq == seq)

/-- R218, R223: an engine's access waits for the matrix commands that use its bytes. -/
def matrixHolds (s : State) (p : Piece) (write : Bool) : Bool :=
  if isL2Key p.key ∨ isTranslated p.key then write && s.berths.any fun e => matrixUses s e.1 p.key (pieceBytes p) true
  else matrixUses s (winBerth p.key) p.key (pieceBytes p) write

/-- R360, R361: a window of a quay that is fenced; while the fence is under way an access waits (DEDUCED: log entry 37). -/
def windowLost (p : Piece) : Act Unit := do
  if p.cached || isL2Key p.key || isTranslated p.key then pure ()
  else
    match (quayOf (← get) (winBerth p.key / 64)).mode with
    | .up => pure ()
    | .fencing => halt .disabled
    | _ => halt (.trap cLOST 0)

/-- R114, R318: a window of another berth that serves the partition in turn with others, and runs it not now: an access waits. -/
def windowAway (s : State) (b part : Nat) (p : Piece) : Bool :=
  !(p.cached || isL2Key p.key || isTranslated p.key || winBerth p.key == b) &&
    slicedFor s (winBerth p.key) part && berthPart s (winBerth p.key) != some part

/-- R379 to R381: the port that reaches a Quayline frame for a partition, unless it is down or the access is refused (DESIGN CHOICE: log entry 7) (DEDUCED: log entry 37). -/
def quaylinePort (part key : Nat) : Act Nat := do
  let s ← get
  let port := bitsAt key 37 1
  let q := if port = 0 then s.glob.ql0 else s.glob.ql1
  if q.state != .up then halt (.trap cCOPY 7)
  else do
    set { s with freeCtr := s.freeCtr + 1 }
    if (partOf s part).qlMap.getLsbD 4 = false ∨ Config.partnerRefuses s.freeCtr then halt (.trap cCOPY 4) else pure port

/-- R242: a compressed view applies to bytes that lie in caches and in a block that has an image. -/
def imageByte (s : State) (key : Nat) : Option Byte :=
  match tabFind? s.glob.blocks (key / 256) with
  | none => none
  | some b => some (b.image.getD (key % 256) 0)

/-- R226, R242: a granule with its tag as the compressed view has it. -/
def imageGranule (s : State) (key : Nat) : Option Cap :=
  (tabFind? s.glob.blocks (key / 256)).map fun b =>
    ⟨BitVec.ofNat 256 (natOfBytes ((b.image.drop (key % 256)).take 32)), b.tags.contains (key % 256 / 32)⟩

/-- The bytes that an engine of a quay reads: the image of a compressed block (R242), else what its L2 holds (R240). -/
def engineBytes (s : State) (q : Nat) (comp : Bool) (p : Piece) : List Byte :=
  let plain := engineRead s q p.key (pieceBytes p) p.cached
  if comp && p.cached then plain.zipIdx.map fun e => (imageByte s (p.key + e.2)).getD e.1 else plain

/-- R240: the bits of a source element, with what the partner package returns for a Quayline frame (DESIGN CHOICE: log entry 7). -/
def sourceBits (q part : Nat) (comp : Bool) : List Piece → Act Nat
  | [] => pure 0
  | p :: r => do
    let s ← get
    let v ← if p.cached && isQlPa p.key then do
        let _ ← quaylinePort part p.key
        pure (bitsAt (Config.partnerData s.freeCtr).toNat 0 p.width)
      else pure (bitsAt (natOfBytes (engineBytes s q comp p)) p.bit p.width)
    let w ← sourceBits q part comp r
    pure (v + w * 2 ^ p.width)

/-- R226, R242: the granules of a block whose tags the uncompressed view has set. -/
def blockTags (s : State) (blk : Nat) : List Nat := (List.range 8).filter fun g => s.tags.contains (blk * 8 + g)

/-- R242: a line of a block as it is decompressed from the block's image: its bytes, and the tags of its two granules. -/
def decompressLine (s : State) (blk line : Nat) (image : List Byte) (tags : List Nat) : State :=
  let s := homeDiff s (blk * 256 + line * 64) ((image.drop (line * 64)).take 64)
  let g := blk * 8 + 2 * line
  { s with tags := ((tags.filter fun i => i / 2 == line).map (blk * 8 + ·)).foldl setInsert (setClearRange s.tags g 2) }

/-- R226, R242: bytes of one line written through the compressed view, and whether they are a granule with its tag set. The first such
write of a block finds in its image what the memory holds. The uncompressed line follows, decompressed from the image, unless an L2 holds
it: one that the uncompressed view has written since the last join is held, and whether another one is, is a free value
(DESIGN CHOICE: log entry 60). -/
def imageWrite (s : State) (key : Nat) (bs : List Byte) (tag : Bool) : State :=
  let blk := key / 256
  let off := key % 256
  let old := (tabFind? s.glob.blocks blk).getD ⟨memRead s.mem (blk * 256) 256, blockTags s blk, [], false⟩
  let image := bs.zipIdx.foldl (fun t e => listSet t (off + e.2) e.1) old.image
  let tags := (if tag then [off / 32] else []) ++ old.tags.filter fun g => !decide (g * 32 < off + bs.length ∧ off < g * 32 + 32)
  let held := old.plain.any (fun i => i / 64 == off / 64) || Config.lineHeld s.freeCtr
  let t := if held then s else decompressLine s blk (off / 64) image tags
  { t with
    freeCtr := s.freeCtr + 1
    glob := { t.glob with blocks := tabPut t.glob.blocks blk { old with image := image, tags := tags, imaged := true } } }

/-- R75, R264: the tag of a granule that an engine has written as one is set, where its storage keeps tags. -/
def engineTag (s : State) (key : Nat) (tag : Bool) : State :=
  if tag && !isL2Key key && windowOf key != 0xE && windowOf key != 0xF then { s with tags := setInsert s.tags (key / 32) } else s

/-- R264, R84, R75: an engine writes a piece at its point of coherence, with a tag where it is a whole granule; the W buffer's blocks are
marked as written (R311). -/
def enginePut (s : State) (comp tag : Bool) (p : Piece) (v : Nat) : State :=
  let tag := tag && p.bit == 0 && p.width == 256 && p.key % 32 == 0
  if p.cached then
    let s := recallL2 s (p.key / 64)
    let old := if comp then (List.range (pieceBytes p)).map fun i => (imageByte s (p.key + i)).getD (memByte s.mem (p.key + i))
      else memRead s.mem p.key (pieceBytes p)
    let bs := pieceMerge p old v
    if comp then imageWrite s p.key bs tag else engineTag (wideWrite s p.key bs) p.key tag
  else
    let s := engineTag (homeWrite s p.key (pieceMerge p (memRead s.mem p.key (pieceBytes p)) v)) p.key tag
    if windowOf p.key = 0xF ∧ isL2Key p.key = false then
      let b := winBerth p.key
      setBerth s b { berthOf s b with wDirty := setInsert (berthOf s b).wDirty (p.key % 2 ^ 23 / 65536) }
    else s

/-- Writes an element's pieces, or sends them to the partner package (R380). Answers the port used. -/
def putPieces (part : Nat) (comp tag : Bool) (red : BitVec 2) : List Piece → Nat → Act (Option Nat)
  | [], _ => pure none
  | p :: r, v => do
    let here_ ← if p.cached && isQlPa p.key then do
        let port ← quaylinePort part p.key
        let s ← get
        modGlob fun g => { g with qlOut := g.qlOut ++
          [⟨port, red, fieldOf (partOf s part).qlMap 0 4, bitsAt p.key 0 37, p.bit, p.width,
            bytesOf (pieceBytes p) (v % 2 ^ p.width * 2 ^ p.bit)⟩] }
        pure (some port)
      else do
        modify fun s => enginePut s comp tag p v
        pure none
    let rest ← putPieces part comp tag red r (v / 2 ^ p.width)
    pure (here_.or rest)

/-- R268: the sum of one element at its owner and the flags of its rounding. -/
def reduceElem (fmt old v : Nat) : Nat × BitVec 5 := fpAdd fmt ⟨0, 0⟩ (decodeElem fmt old) (decodeElem fmt v)

/-- R267: the destination bit addresses of an element: for `cpcast` one in each berth of the mask. -/
def targets (c : Copy) (bit : Nat) : List Nat :=
  if c.fn = 6 then c.mask.map fun b => bit - winBerth (bit / 8) * 2 ^ 34 + b * 2 ^ 34 else [bit]

/-- R135, R136: a copy has to pass a Quayline port, the quay bridge or a memory channel that does not serve its partition. -/
def copyBarred (s : State) (b part : Nat) (reads writes : List Piece) : Bool :=
  let port := fun (p : Piece) => p.cached && isQlPa p.key &&
    (barred s part (18 + 2 * bitsAt p.key 37 1) || barred s part (19 + 2 * bitsAt p.key 37 1))
  let far := fun (p : Piece) => !(p.cached && isQlPa p.key) && homeHeld s b part p.key
  let lacks := fun (p : Piece) => (tabGet ⟨0, 0, 0⟩ (quayOf s (berthQuay b)).l2 (p.key / 64)).valid != maskRange 0 64
  (reads ++ writes).any port || writes.any far || reads.any fun p => far p && lacks p

/-- R121, R123, R264 to R270: the lighter of a berth writes one element of a copy. It stops with a page fault where the copy
parks, and with a cause, the reason as detail, where it ends. A granule's tag goes along where the view that is read, or
written, is the one that holds it (R87, R242) (DESIGN CHOICE: log entries 7, 60). -/
def copyElement (b : Nat) (c : Copy) : Act Copy := do
  let e := copyWidth c
  let tags := ctlTags c.ctl
  let comp := ctlComp c.ctl
  let (sbit, dbit) := copyBits c c.count
  let sp ← enginePieces b c.part 0 3 sbit e
  each windowLost sp
  let s ← get
  need (sp.all fun p => !ownedElsewhere s b c.seq p && !matrixHolds s p false && !windowAway s b c.part p)
  if sp.any (engineUnreadable s (berthQuay b)) then halt (.trap cUNCORR 0) else pure ()
  let v ← sourceBits (berthQuay b) c.part comp sp
  let src ← match sp with
    | [p] =>
      if tags && e == 256 && p.bit == 0 && p.key % 32 == 0 && !(p.cached && isQlPa p.key) then do
        let q ← translate b c.part (sbit / 8) 0 true
        let s ← get
        let (g, s) ← match (if comp && p.cached then imageGranule s p.key else none) with
          | some g => pure (g, s)
          | none => do
            need (granuleReady s (berthQuay b) p)
            pure (engineGranule s (berthQuay b) p.key p.cached)
        set s
        pure (if q.tagOk && g.bits == BitVec.ofNat 256 v then g else ⟨BitVec.ofNat 256 v, false⟩)
      else pure ⟨BitVec.ofNat 256 v, false⟩
    | _ => pure ⟨BitVec.ofNat 256 v, false⟩
  noteFirst c.part src
  let (cap, s) := barrier (← get) c.part src
  set s
  let v := if cap.tag then cap.bits.toNat else v
  if cap.tag && capScope cap < regionScope (dbit / 8) then halt (.trap cSCOPE 0) else pure ()
  let dps ← collect (fun bit => enginePieces b c.part (if cap.tag then 3 else 1) 3 bit e) (targets c dbit)
  each (each windowLost) dps
  let s ← get
  need (dps.all fun ps => ps.all fun p => !ownedElsewhere s b c.seq p && !matrixHolds s p true && !windowAway s b c.part p)
  if dps.any fun ps => ps.any fun p => !(marksMet s p).isEmpty then halt (.trap cPHASE 0) else pure ()
  if dps.any fun ps => ps.any fun p => c.fn == 7 && engineUnreadable s (berthQuay b) p then halt (.trap cUNCORR 0) else pure ()
  need (!copyBarred s b c.part sp dps.flatten)
  let ps := dps.headD []
  if c.fn = 7 then do
    let fmt := capFmt c.dst
    if ps.any fun p => p.cached && isQlPa p.key then do
      modify fun s => { s with freeCtr := s.freeCtr + 1 }
      let fl := Config.partnerFlags (← get).freeCtr
      let port ← putPieces c.part comp false (if fmt = fBF16 then 2 else 1) ps v
      pure { c with flags := c.flags ||| fl, remote := port.toList ++ c.remote }
    else do
      modify fun s => ps.foldl (fun s p => if p.cached then recallL2 s (p.key / 64) else s) s
      let old ← sourceBits (berthQuay b) c.part comp ps
      let (w, fl) := reduceElem fmt old v
      let _ ← putPieces c.part comp false 0 ps w
      pure { c with flags := c.flags ||| fl }
  else do
    let ports ← collect (fun ps => putPieces c.part comp cap.tag 0 ps v) dps
    pure { c with remote := (ports.headD none).toList ++ c.remote }

/-! ### Starting -/

def chanOf (s : State) (b ch : Nat) : List Copy := tabGet [] (berthOf s b).chans ch
def setChan (s : State) (b ch : Nat) (q : List Copy) : State :=
  setBerth s b { berthOf s b with chans := if q.isEmpty then tabErase (berthOf s b).chans ch else tabPut (berthOf s b).chans ch q }

/-- R241: the copies of a channel ask for their lines anew, the first before those behind it (DEDUCED: log entry 36). -/
def requeueChan (s : State) (b ch : Nat) : State :=
  let q := chanOf s b ch
  setChan { s with nextReq := s.nextReq + q.length } b ch (q.zipIdx.map fun e => { e.1 with seq := s.nextReq + e.2 })

/-- R241, R266: an entry of the index list, as the streamer reads it, or as it was read at acceptance (DEDUCED: log entry 36). -/
def readEntry (b : Nat) (c : Copy) (j : Nat) : Act Nat := do
  match tabFind? c.entries j with
  | some v => pure v
  | none => do
    let ps ← enginePieces b c.part 0 3 (capBitAddr c.aux 32 ⟨j, 0, 0, 0⟩) 32
    each windowLost ps
    let s ← get
    need (ps.all fun p => !ownedElsewhere s b c.seq p && !matrixHolds s p false && !windowAway s b c.part p)
    if ps.any (engineUnreadable s (berthQuay b)) then halt (.trap cUNCORR 0) else pure ()
    sourceBits (berthQuay b) c.part (ctlComp c.ctl) ps

/-- R266: the whole index list. -/
def readList (s : State) (b : Nat) (c : Copy) : Except Stop (List Nat × State) :=
  collect (readEntry b c) (List.range (capExt c.aux 0)) s

/-- R266: the entries of the index list that can be read at acceptance; the others lie in pages that fault. -/
def sampleList (s : State) (b : Nat) (c : Copy) : Copy × State :=
  let (c, s) := (List.range (capExt c.aux 0)).foldl (fun (acc : Copy × State) j =>
    match readEntry b c j acc.2 with
    | .ok (v, s) => ({ acc.1 with entries := acc.1.entries ++ [(j, v)] }, s)
    | .error _ => acc) (c, s)
  (if c.entries.length = capExt c.aux 0 then { c with list := some (c.entries.map (·.2)) } else c, s)

/-- R241, R266: the streamer cannot read an entry of a list yet, for a copy that owns its line or an access that must wait. -/
def listWaits (s : State) (b : Nat) (c : Copy) : Bool :=
  (List.range (capExt c.aux 0)).any fun j => match readEntry b c j s with
    | .error .disabled => true
    | .error (.stall _) => true
    | _ => false

/-- The lighter channel of a core's channel number, among the eight of its berth (R257). -/
def lighterChan (core lch : Nat) : Nat := 2 * (core % 4) + lch

/-- R381: the Quayline ports that a copy has used, the last first, or still needs for its destination. -/
def copyPorts (s : State) (b : Nat) (c : Copy) : List Nat :=
  c.remote ++ (List.range (copyTotal c - c.count)).filterMap fun i =>
    match translate b c.part ((copyBits c (c.count + i)).2 / 8) 1 true s with
    | .ok (p, _) => if p.cached && isQlPa p.key then some (bitsAt p.key 37 1) else none
    | .error _ => none

/-- R241: a copy takes the lines that it has still to write. -/
def takeLines (s : State) (b : Nat) (c : Copy) : Copy × State :=
  let own := linesToWrite s b c
  ({ c with owned := own }, own.foldl (fun s l => takeLine s l.1) s)

/-- R257, R262: the copy that a start command of the executing context makes, its operands sampled. -/
def newCopy (s : State) (fn lch : Nat) (o : CopyOps) : Copy :=
  let k := s.cur.core
  let x := ctxOf s k s.cur.ctx
  { id := (xferOf x lch).next, core := k, ctx := s.cur.ctx, part := x.part, launch := x.launch, otype := BitVec.ofNat 12 (otypeOf x)
    fn := BitVec.ofNat 3 fn, seq := s.nextReq, src := o.src, dst := o.dst, aux := o.aux, ctl := o.ctl
    mask := maskBerths o.mlo o.mhi, list := none, entries := [], count := 0, running := false, parked := none, outcome := none, flags := 0
    owned := [], remote := [], rowsBack := [], castDone := [], acked := false }

/-- R257, R262: a copy is accepted: it takes the next id, its list is read, and it takes the lines it will write (DEDUCED: log entry 36). -/
def acceptCopy (s : State) (fn lch : Nat) (o : CopyOps) : BitVec 16 × State :=
  let k := s.cur.core
  let b := coreBerth k
  let x := ctxOf s k s.cur.ctx
  let f := xferOf x lch
  let c := newCopy s fn lch o
  let (c, s) := if usesList fn then sampleList s b c else (c, s)
  let (c, s) := takeLines s b c
  let s := traceRecord s b 7 0 k s.cur.ctx x.ch.toNat (c.id.setWidth 64) x.ktask
  let s := setCtx s k s.cur.ctx { setXfer x lch { f with next := f.next + 1 } with leaveAsk := none }
  let ch := lighterChan k lch
  (f.next, { setChan s b ch (chanOf s b ch ++ [c]) with nextReq := s.nextReq + 1 })

/-- R262: the result word of a refused start. -/
def copyRefused (why : Nat) : Dbl := BitVec.ofNat 64 (2 ^ 63 + why * 2 ^ 61)

/-- R267: whether a `cpcast` has power leave: granted, refused, or still to wait. -/
inductive Leave where
  | yes
  | no
  | waiting
  deriving DecidableEq, Repr

/-- R202, R267: the governor's answer to the executing context's `cpcast` (DESIGN CHOICE: log entry 6). -/
def castLeave (s : State) : Leave × State :=
  let b := coreBerth s.cur.core
  if (berthOf s b).power ≠ 0 then (.no, s)
  else
    let (yes, s) := askLeave s (berthQuay b)
    if yes then (.yes, s)
    else
      match (ctxOf s s.cur.core s.cur.ctx).leaveAsk with
      | some (_, at_, _) => (if at_ + 200 ≤ s.clk then .no else .waiting, s)
      | none => (.waiting, s)

/-- R262: a start command (fn 1 `cpgo`, 4 `cpgath`, 5 `cpscat`, 6 `cpcast`, 7 `cpred`). -/
def copyStart (fn : Nat) (l : BitVec 1) (d : BitVec 5) : Act Next := do
  scalarLink d false
  let o ← copyShadows fn l
  let s ← get
  let core := s.cur.core
  let x ← here
  liftChk (copyOperands core fn o)
  let h := shadowOf x l
  let caps := revocable fn (if ctlPlan h.ctl then some h.aux else none) o
  if caps.any fun e => mapHeld s x.part e.1 then halt (.stall .other) else pure ()
  let (bad, s) := revokedOperand s x.part caps
  match bad with
  | some detail => do
    set (takeTrap s cREVOKED detail false)
    pure .stay
  | none => do
    set s
    liftChk (copyShape s x.part fn o)
    releaseHere 1
    let s ← get
    if 16 ≤ (chanOf s (coreBerth core) (lighterChan core l.toNat)).length then do
      writeX d (copyRefused 1)
      pure .seq
    else if usesList fn && listWaits s (coreBerth core) (newCopy s fn l.toNat o) then halt (.stall .other)
    else do
      let (lv, s) := if fn = 6 then castLeave s else (.yes, s)
      set s
      match lv with
      | .yes => do
        let (id, s) := acceptCopy (← get) fn l.toNat o
        set s
        writeX d (id.setWidth 64)
        pure .seq
      | .no => do
        modHere fun x => { x with leaveAsk := none }
        writeX d (copyRefused 2)
        pure .seq
      | .waiting => do
        let s ← get
        modHere fun x => { x with leaveAsk := x.leaveAsk.or (some (l.toNat, s.clk, d)) }
        pure .stay

/-- R262, R264. Starts the copy of a box. -/
def execCpgo (l : BitVec 1) (d : BitVec 5) (s : State) : Outcome :=
  runInstr none (encCpgo l d) 4 (copyStart 1 l d) s

/-- R262, R266. Starts a gather of rows. -/
def execCpgath (l : BitVec 1) (d : BitVec 5) (s : State) : Outcome :=
  runInstr none (encCpgath l d) 4 (copyStart 4 l d) s

/-- R262, R266. Starts a scatter of rows. -/
def execCpscat (l : BitVec 1) (d : BitVec 5) (s : State) : Outcome :=
  runInstr none (encCpscat l d) 4 (copyStart 5 l d) s

/-- R262, R267. Starts a multicast into the buffers of other berths. -/
def execCpcast (l : BitVec 1) (d : BitVec 5) (s : State) : Outcome :=
  runInstr none (encCpcast l d) 4 (copyStart 6 l d) s

/-- R262, R268. Starts an element-wise addition into memory. -/
def execCpred (l : BitVec 1) (d : BitVec 5) (s : State) : Outcome :=
  runInstr none (encCpred l d) 4 (copyStart 7 l d) s

/-- R267. A `cpcast` that has waited 200 clk for power leave is refused; where contexts follow one another, as they all issue it (R174). -/
def execCpcastLeaveRefused (berth : Nat) (chan : Nat) (s : State) : Outcome :=
  runEvent (do
    let s ← get
    need (!(berthOf s berth).dbg.halted)
    let core := 4 * berth + chan / 2
    let c ← needSome ((List.range 4).find? fun c => match (ctxOf s core c).leaveAsk with
      | some (l, at_, _) => l == chan % 2 && decide (at_ + 200 ≤ s.clk) && (ctxOf s core c).mode == .running &&
        (ctxOf s core c).follows.isNone && !(ctxOf s core c).leading
      | none => false)
    let (_, _, d) ← needSome (ctxOf s core c).leaveAsk
    let cur := s.cur
    set { s with cur := ⟨core, c⟩ }
    modHere fun x => { x with leaveAsk := none, pc := x.pc + 4 }
    writeX d (copyRefused 2)
    modify fun s => { s with cur := cur }) s

/-! ### Running -/

/-- Whether the lighter of a berth moves: it is neither halted (R370) nor fenced (R360). -/
def lighterRuns (s : State) (b : Nat) : Bool := !(berthOf s b).dbg.halted && (quayOf s (berthQuay b)).mode == .up

/-- R270: a copy that ends early gives up its lines (R241). -/
def endedCopy (c : Copy) (cause : BitVec 8) (reason count : Nat) : Copy :=
  { c with outcome := some ⟨cause, BitVec.ofNat 3 reason, count⟩, owned := [], parked := none }

/-- R123, R241: a copy parks at the element where it stands and gives up its lines. -/
def parkCopy (s : State) (b ch : Nat) (c : Copy) (r : List Copy) (detail : Dbl) : State :=
  let (place, s) := enterFault s c.part (berthQuay b) detail
  let s := traceRecord s b 4 (pageCause (fieldOf detail 59 3)).toNat c.core c.ctx (ctxOf s c.core c.ctx).ch.toNat (c.id.setWidth 64)
    (BitVec.ofNat 64 c.count)
  setChan s b ch ({ c with parked := some place, owned := [] } :: r)

/-- R266: the position of the first list entry out of range (DEDUCED: log entry 37). -/
def badEntry (c : Copy) (l : List Nat) : Option Nat :=
  let lim := if c.fn = 5 then capExt c.dst (rowDim c.dst) else capExt c.src (rowDim c.src)
  (l.zipIdx.find? fun e => decide (lim ≤ e.1)).map (·.2)

/-- R266: a gather or scatter begins with its whole list read and checked. -/
def beginList (s : State) (b ch : Nat) (c : Copy) (r : List Copy) : Except Stop State :=
  let go := fun (l : List Nat) (s : State) =>
    match badEntry c l with
    | some i => setChan s b ch (endedCopy { c with list := some l, running := true } cGATHER 0 i :: r)
    | none =>
      let c := { c with list := some l, running := true }
      let (c, s) := if c.owned.isEmpty then takeLines s b c else (c, s)
      setChan s b ch (c :: r)
  match c.list with
  | some l => .ok (go l s)
  | none =>
    match readList s b c with
    | .ok (l, s) => .ok (go l s)
    | .error (.page _ detail) => .ok (parkCopy s b ch { c with running := true } r detail)
    | .error (.trap cause reason) => .ok (setChan s b ch (endedCopy { c with running := true } cause reason.toNat 0 :: r))
    | .error x => .error x

/-- R257: the next channel of a berth in round-robin whose head copy has not begun. -/
def nextChannel (s : State) (b : Nat) : Option Nat :=
  ((List.range 8).map fun i => ((berthOf s b).chanRr + 1 + i) % 8).find? fun ch =>
    match chanOf s b ch with
    | c :: _ => !c.running
    | [] => false

/-- R257, R266. The lighter takes the next channel in turn and begins its first copy (DEDUCED: log entry 36). -/
def execCopyBegin (berth : Nat) (s : State) : Outcome :=
  runEvent (do
    let s ← get
    need (lighterRuns s berth)
    let ch ← needSome (nextChannel s berth)
    match chanOf s berth ch with
    | [] => halt .disabled
    | c :: r => do
      let s := setBerth s berth { berthOf s berth with chanRr := ch }
      if usesList c.fn.toNat && c.outcome.isNone then
        match beginList s berth ch c r with
        | .ok s => set s
        | .error x => halt x
      else set (setChan s berth ch ({ c with running := true } :: r))) s

/-- R266: the owner of a row: 0 to 31 a slice, 32 + b the lighter of berth b; none where its first byte is not translated. -/
def rowOwner (s : State) (b : Nat) (c : Copy) (j : Nat) : Option Nat :=
  let i := (c.list.getD []).getD j 0
  let box := if c.fn = 5 then c.dst else c.src
  let a := capBitAddr box (copyWidth c) ((⟨0, 0, 0, 0⟩ : Idx).put (rowDim box) i) / 8
  if isTranslated a then
    match translate b c.part a 0 true s with
    | .ok (p, _) => if isQlPa p.key && p.cached then none else some (keySlice p.key)
    | .error _ => none
  else some (32 + winBerth a)

/-- R266: a row may be written once its owner has served it; a row that no owner serves waits for nothing. -/
def rowReady (s : State) (b : Nat) (c : Copy) : Bool :=
  !usesList c.fn.toNat || c.rowsBack.contains (copyRow c c.count) || (rowOwner s b c (copyRow c c.count)).isNone

/-- R266: the owners of a list in the order in which they first appear. -/
def rowOwners (s : State) (b : Nat) (c : Copy) : List Nat :=
  ((List.range (c.list.getD []).length).filterMap (rowOwner s b c)).eraseDups

/-- R361: the rows of a berth whose quay is fenced: the copy's own access to them finds them lost. -/
def rowLost (s : State) (b : Nat) : Bool :=
  match (quayOf s (berthQuay b)).mode with
  | .fenced => true
  | .resetting => true
  | _ => false

/-- R266. An owner serves the rows of its sub-list. -/
def execSublistServe (berth : Nat) (chan : Nat) (idx : Nat) (s : State) : Outcome :=
  runEvent (do
    let s ← get
    need (lighterRuns s berth)
    match chanOf s berth chan with
    | c :: r => do
      need (c.running && c.outcome.isNone && c.list.isSome && usesList c.fn.toNat)
      let o ← needSome (rowOwners s berth c)[idx]?
      need (o < 32 || rowLost s (o - 32) || (!(berthOf s (o - 32)).dbg.halted && berthPart s (o - 32) == some c.part))
      let mine := (List.range (c.list.getD []).length).filter fun j => rowOwner s berth c j == some o
      set (setChan s berth chan ({ c with rowsBack := mine.foldl setInsert c.rowsBack } :: r))
    | [] => halt .disabled) s

/-- R266: whether a copy still moves rows that the lighter of another berth serves. -/
def servedBy (s : State) (b : Nat) (c : Copy) (o : Nat) : Bool :=
  c.running && c.outcome.isNone && usesList c.fn.toNat &&
    (List.range (c.list.getD []).length).any fun j => copyRow c c.count ≤ j && rowOwner s b c j == some (32 + o)

/-- R313: whether the lighter of a berth serves a sub-list of another berth's copy. -/
def servesOthers (s : State) (b : Nat) : Bool :=
  s.berths.any fun e => e.1 != b && e.2.chans.any fun q => (q.2.take 1).any fun c => servedBy s e.1 c b

/-- R374: the lighter bytes of element n. -/
def copyBytes (c : Copy) (n : Nat) : Nat := (n + 1) * copyWidth c / 8 - n * copyWidth c / 8

/-- R264 to R270. The lighter writes the next element, or the copy parks or ends at it (DEDUCED: log entry 36). -/
def execCopyElementWrite (berth : Nat) (chan : Nat) (s : State) : Outcome :=
  runEvent (do
    let s ← get
    need (lighterRuns s berth)
    match chanOf s berth chan with
    | c :: r => do
      need (c.running && c.parked.isNone && c.outcome.isNone && c.count < copyTotal c && rowReady s berth c)
      match copyElement berth c s with
      | .ok (c, t) => do
        let c := { c with count := c.count + 1, owned := c.owned.filter fun l => l.2 != c.count }
        let t := countEvent t c.core c.ctx 0xA (copyBytes c (c.count - 1))
        set (setChan t berth chan (c :: r))
      | .error (.page _ detail) => set (parkCopy s berth chan c r detail)
      | .error (.trap cause reason) => set { setChan s berth chan (endedCopy c cause reason.toNat c.count :: r) with freeCtr := s.freeCtr + 3 }
      | .error x => halt x
    | [] => halt .disabled) s

/-- R267, R293. A receiving berth has written its tile; with sig it makes core 0's arrival at slot 3. -/
def execCpcastBerthDone (berth : Nat) (chan : Nat) (recv : Nat) (s : State) : Outcome :=
  runEvent (do
    let s ← get
    need (lighterRuns s berth)
    match chanOf s berth chan with
    | c :: r => do
      need (c.running && c.fn == 6 && c.outcome.isNone && c.count == copyTotal c && c.mask.contains recv && !c.castDone.contains recv)
      let s := setChan s berth chan ({ c with castDone := setInsert c.castDone recv } :: r)
      if ctlSig c.ctl then
        let (code, b) := boomArrive (boomOf s (4 * recv) 3)
        let s := setBoom s (4 * recv) 3 b
        set (if code = 2 then raisePart s c.part 10 else s)
      else set s
    | [] => halt .disabled) s

/-- R267. The combined acknowledgement of all receiving berths reaches the lighter. -/
def execCpcastAckArrival (berth : Nat) (chan : Nat) (s : State) : Outcome :=
  runEvent (do
    let s ← get
    match chanOf s berth chan with
    | c :: r => do
      need (c.running && c.fn == 6 && !c.acked && c.castDone == c.mask)
      set (setChan s berth chan ({ c with acked := true } :: r))
    | [] => halt .disabled) s

/-! ### Ending -/

/-- R271: the first status double, without utag (DEDUCED: log entry 21). -/
def statusOne (c : Copy) (lch : Nat) : Nat :=
  let o := c.outcome.getD ⟨0, 0, c.count⟩
  o.cause.toNat * 2 ^ 40 + o.reason.toNat * 2 ^ 37 + boolBit c.outcome.isSome * 2 ^ 36 + c.flags.toNat * 2 ^ 27 + lch * 2 ^ 16 +
    c.id.toNat

/-- R271: the second status double. -/
def statusTwo (c : Copy) : Dbl := BitVec.ofNat 64 (c.outcome.getD ⟨0, 0, c.count⟩).count

/-- R271, R272: a message of a berth's lighter to a channel of a core: reply network, two payload words, source the commanding
core (DESIGN CHOICE: log entry 20). -/
def lighterMessage (c : Nat) (part dest cls utag ch : Nat) (s1 s2 : Dbl) : Flight :=
  ⟨header utag 0 cls 0 0 c 0 2 1 ch dest, [s1, s2], Cap.null, part, .copyDone, .lighter (coreBerth c), c, none, none, false, 0, 0⟩

/-- R272: the fields of a registered note: id, channel, utag. -/
def noteId (n : Dbl) : BitVec 16 := n.setWidth 16
def noteCh (n : Dbl) : Nat := fieldOf n 16 4
def noteUtag (n : Dbl) : Nat := fieldOf n 48 16

/-- R271: a failed copy without a note is reported to the fault channel of its compartment; without a valid entry to the
partition manager (DESIGN CHOICE: log entry 20). -/
def copyFaultMessage (s : State) (c : Copy) (lch : Nat) : State :=
  match compEntry s c.part c.otype.toNat with
  | none => raisePart s c.part 6
  | some e =>
    let target := if e.getLsbD 14 then c.core else fieldOf e 0 9
    post s (lighterMessage c.core c.part target (ctlClass c.ctl) (fieldOf e 16 16) (fieldOf e 10 4)
      (BitVec.ofNat 64 (statusOne c lch)) (statusTwo c))

/-- R258, R270 to R273: what the end of a copy does: the count, the notes, the fault record and the fault message. -/
def reportCopy (s : State) (c : Copy) (lch : Nat) : State :=
  let x := ctxOf s c.core c.ctx
  let f := xferOf x lch
  let mine := f.notes.filter fun n => noteId n == c.id
  let utag := (mine.head?.map noteUtag).getD 0
  let s1 := fun (u : Nat) => BitVec.ofNat 64 (u * 2 ^ 48 + statusOne c lch)
  let f := { f with
    count := c.id
    notes := f.notes.filter fun n => noteId n != c.id
    frec := if c.outcome.isSome then some (s1 utag, statusTwo c) else f.frec
    classes := tabPut f.classes c.id.toNat (ctlClass c.ctl) }
  let s := setCtx s c.core c.ctx (setXfer x lch f)
  let s := mine.foldl (fun s n =>
    post s (lighterMessage c.core c.part c.core (ctlClass c.ctl) 0 (noteCh n) (s1 (noteUtag n)) (statusTwo c))) s
  if c.outcome.isSome ∧ mine.isEmpty then copyFaultMessage s c lch else s

/-- R381: a remote copy with sig makes its arrival at the partner. -/
def remoteArrival (s : State) (c : Copy) : State :=
  match c.remote with
  | [] => s
  | port :: _ =>
    if ctlSig c.ctl && c.outcome.isNone then
      { s with glob := { s.glob with qlOut := s.glob.qlOut ++ [⟨port, 3, fieldOf (partOf s c.part).qlMap 0 4, 0, 0, 0, []⟩] } }
    else s

/-- R270 to R273, R381. A copy ends, and its channel's next copy may begin. -/
def execCopyEnd (berth : Nat) (chan : Nat) (s : State) : Outcome :=
  runEvent (do
    let s ← get
    need (lighterRuns s berth)
    match chanOf s berth chan with
    | c :: r => do
      need (c.running && c.parked.isNone && (c.outcome.isSome || (c.count == copyTotal c && (c.fn != 6 || c.acked))))
      let s := setChan s berth chan r
      let s := remoteArrival (reportCopy s c (chan % 2)) c
      let cause := (c.outcome.map (·.cause)).getD 0
      set (traceRecord s berth 8 cause.toNat c.core c.ctx (ctxOf s c.core c.ctx).ch.toNat (c.id.setWidth 64) (BitVec.ofNat 64 c.count))
    | [] => halt .disabled) s

/-! ### Status and notes -/

/-- R273. Reads the state or the fault record of a lighter channel. -/
def execCpstat (sel : BitVec 4) (l : BitVec 1) (d : BitVec 5) (s : State) : Outcome :=
  runInstr (if sel.toNat < 3 then none else some 1) (encCpstat sel l d) 4 (do
    scalarLink d false
    let s ← get
    let x ← here
    let f := xferOf x l.toNat
    let q := chanOf s (coreBerth s.cur.core) (lighterChan s.cur.core l.toNat)
    let parked := match q with
      | c :: _ => c.parked.isSome
      | [] => false
    let v := match sel.toNat with
      | 0 => BitVec.ofNat 64 (f.next.toNat + f.count.toNat * 2 ^ 16 + q.length * 2 ^ 32 + boolBit parked * 2 ^ 37 +
          boolBit f.frec.isSome * 2 ^ 38)
      | 1 => (f.frec.map (·.1)).getD 0
      | _ => (f.frec.map (·.2)).getD 0
    if sel.toNat = 2 then modHere fun x => setXfer x l.toNat { f with frec := none } else pure ()
    writeX d v
    pure .seq) s

/-- R258: whether a transfer has completed. -/
def completed (f : Xfer) (id : BitVec 16) : Bool := (f.count - id).toNat < 32768

/-- R272: whether an id has not been issued. -/
def unissued (f : Xfer) (id : BitVec 16) : Bool := (id - f.next).toNat < 32768

/-- R272. Asks for a message when a transfer completes. -/
def execCpnote (x : BitVec 5) (l : BitVec 1) (d : BitVec 5) (s : State) : Outcome :=
  runInstr none (encCpnote x l d) 4 (do
    scalarLink x false
    scalarLink d false
    let v ← readX x false false
    check (fieldOf v 20 28 == 0) cILLEGAL (illegalDetail 4 false (encCpnote x l d))
    let y ← here
    let s ← get
    let k := s.cur.core
    let f := xferOf y l.toNat
    let id := noteId v
    if unissued f id then do
      writeX d 3
      pure .seq
    else if completed f id then do
      let cls := tabGet 0 f.classes id.toNat
      modify fun s => post s (lighterMessage k y.part k cls 0 (noteCh v) (BitVec.ofNat 64 (2 ^ 35)) 0)
      writeX d 1
      pure .seq
    else if 8 ≤ f.notes.length then do
      writeX d 2
      pure .seq
    else do
      putHere (setXfer y l.toNat { f with notes := f.notes ++ [v] })
      writeX d 0
      pure .seq) s

end Sys2Proof.Machine
end

