-- ==== Sys2Proof/Machine/Paging.lean ====
section
/-!
DEFINITION. The system software's side of paging (R122, R126 to R134): TLB commands, the harvest of dirty bits, the answers to
the fault buffer, the L2-direct share, and the bandwidth credits (R136).
-/
namespace Sys2Proof.Machine

open Sys2Proof

/-! ### TLB commands -/

/-- R122: no TLB holds an entry of a partition that covers a unit of a range. -/
def tlbDrop (s : State) (part lo n : Nat) : State :=
  let out := fun (e : TlbEntry) => e.part == part && decide (e.page < lo + n ∧ lo < e.page + leafSize e.level / 65536)
  { s with
    berths := s.berths.map fun b => (b.1, { b.2 with tlb := b.2.tlb.filter fun e => !out e })
    quays := s.quays.map fun q => (q.1, { q.2 with tlb := q.2.tlb.filter fun e => !out e }) }

/-- Every 64 KiB unit of the translated addresses. -/
def allUnits : Nat := 2 ^ 32

/-- R122: the range that `tr.arg` and `tr.cnt` name. -/
def cmdFirst (p : Partition) : Nat := fieldOf p.trArg 16 32
def cmdCount (p : Partition) : Nat := fieldOf p.trCnt 0 32

/-- R122: a refused command or response sets err in `pf.stat`. -/
def pfRefuse (s : State) (part : Nat) : State := setPart s part { partOf s part with pfErr := true }

/-- R122: whether a command of an op is refused: while another runs, or for a count of 0. -/
def cmdRefused (p : Partition) (op : Nat) : Bool := p.trBusy || (3 ≤ op && cmdCount p == 0)

/-- R122: a partition whose command starts: the range is that of the registers as they stand. -/
def cmdStarted (p : Partition) (op next : Nat) : Partition :=
  { p with
    trOp := BitVec.ofNat 3 op
    trBusy := true
    trMark := next
    trFirst := if op = 2 then 0 else cmdFirst p
    trCount := if op = 2 then allUnits else cmdCount p }

/-- R122: a command starts, or is refused. Its range leaves the TLBs. -/
def startCommand (part op : Nat) (effect : State → State) : Act Unit := do
  let s ← get
  let p := partOf s part
  if cmdRefused p op then set (pfRefuse s part)
  else
    let c := cmdStarted p op s.nextReq
    set (tlbDrop (effect (setPart s part c)) part c.trFirst c.trCount)

/-- R122. Op 2 begins: every entry of the partition leaves the TLBs. -/
def execTrCmdInvalidateAll (part : Nat) (s : State) : Outcome :=
  runEvent (startCommand part 2 id) s

/-- R122. Op 3 begins: the entries of a range leave the TLBs. -/
def execTrCmdInvalidateRange (part : Nat) (s : State) : Outcome :=
  runEvent (startCommand part 3 id) s

/-- R130 step 1: the old dirty bit of each unit, newest first; a leaf's bit is read and cleared once for all its units. -/
def harvestUnits (part : Nat) : Nat → Nat → State × List (Nat × Bool) × List Bool → State × List (Nat × Bool) × List Bool
  | 0, _, acc => acc
  | n + 1, unit, (s, seen, bits) =>
    harvestUnits part n (unit + 1) (match walk s part (unit * 65536) with
      | .error _ => (s, seen, false :: bits)
      | .ok (leaf, _, slot) =>
        match seen.find? fun e => e.1 == slot with
        | some e => (s, seen, e.2 :: bits)
        | none =>
          let d := pteD leaf
          let s := if d then unitWrite s slot (bytesOf 8 (setField leaf 5 1 0).toNat) else s
          (s, (slot, d) :: seen, d :: bits))

/-- R130 step 1, which precedes the removal of the leaves (DEDUCED: log entry 40). -/
def harvest (s : State) (part : Nat) : State :=
  let p := partOf s part
  let (s, _, bits) := harvestUnits part p.trCount p.trFirst (s, [], [])
  setPart s part { partOf s part with harvest := some ⟨bits.reverse, none, fieldOf p.trBmap 3 45 * 8⟩ }

/-- R136, R241, R383: the scan of a harvest has to wait for a line of the tables. -/
def scanHeld (s : State) (part : Nat) : Bool :=
  let p := partOf s part
  (List.range (cmdCount p)).any fun i => walkHeld s (fun slot => unitWaits s part slot 8 true) part ((cmdFirst p + i) * 65536)

/-- R130. Op 4 begins: the dirty bits of a range are read and cleared and its leaves leave the TLBs (DEDUCED: log entry 40). -/
def execTrCmdHarvest (part : Nat) (s : State) : Outcome :=
  runEvent (do
    let s ← get
    need (cmdRefused (partOf s part) 4 || !scanHeld s part)
    startCommand part 4 fun s => harvest s part) s

/-- R122: an access of a partition that was made before a request number has not yet performed. -/
def unperformed (s : State) (part mark : Nat) : Bool :=
  s.reqs.any fun e => e.1 < mark && e.2.part == part && performing e.2 && !(bodyPieces e.2.body).isEmpty

/-- R122: what the berths have written reaches its point of coherence. -/
def writeBackAll (s : State) : State := s.berths.foldl (fun s e => release s e.1 3) s

/-- R130: the doubles of the bitmap are written; bits beyond the range keep their value. -/
def writeBitmap (part : Nat) : Nat → Nat → List Bool → State → Except Dbl State
  | 0, _, _, s => .ok s
  | n + 1, va, bits, s =>
    match unitStore s part va with
    | .error d => .error d
    | .ok (p, s) =>
      let now := bits.take 64
      let old := (homeDouble (writeBackAll s) p.key).toNat
      let new := now.zipIdx.foldl (fun v e => v + boolBit e.1 * 2 ^ e.2) (old / 2 ^ now.length * 2 ^ now.length)
      writeBitmap part n (va + 8) (bits.drop 64) (unitWrite (writeBackAll s) p.key (bytesOf 8 new))

/-- R122: a TLB holds an entry of a partition that covers a unit of a range. -/
def tlbHolds (s : State) (part lo n : Nat) : Bool :=
  let meets := fun (e : TlbEntry) => e.part == part && decide (e.page < lo + n ∧ lo < e.page + leafSize e.level / 65536)
  (s.berths.any fun b => b.2.tlb.any meets) || s.quays.any fun q => q.2.tlb.any meets

/-- R122: every access through an entry that the running command removes has performed: those made before it, and all, where a TLB has
taken an entry of the range in since. -/
def cmdDrained (s : State) (part : Nat) : Bool :=
  let p := partOf s part
  !unperformed s part (if tlbHolds s part p.trFirst p.trCount then s.nextReq else p.trMark)

/-- R136, R241, R383: the harvest has to wait for a line of its bitmap. -/
def bitmapHeld (s : State) (part : Nat) (h : Harvest) : Bool :=
  isTranslated h.bmap && (List.range ((h.bits.length + 63) / 64)).any fun i => unitHeld s part (h.bmap + 8 * i) 8 true

/-- R122, R130. A command ends when the accesses before it have performed; a harvest writes its bitmap first. A fault of the bitmap is entered as made by quay 0 (DESIGN CHOICE: log entry 40). -/
def execTrCmdComplete (part : Nat) (s : State) : Outcome :=
  runEvent (do
    let s ← get
    let p := partOf s part
    need (p.trBusy && cmdDrained s part && cachesReady s)
    let s := tlbDrop (writeBackAll s) part p.trFirst p.trCount
    let clear := fun (s : State) => setPart s part { partOf s part with trBusy := false, harvest := none }
    match p.harvest with
    | none => set (clear s)
    | some h => do
      need (h.place.isNone && !bitmapHeld s part h)
      if isTranslated h.bmap = false then set (clear (pfRefuse s part))
      else
        match writeBitmap part ((h.bits.length + 63) / 64) h.bmap h.bits s with
        | .ok s => set (clear s)
        | .error detail =>
          let (place, s) := enterFault s part 0 detail
          set (setPart s part { partOf s part with harvest := some { h with place := some place } })) s

/-- R116, R122. A write of `tr.root`; op 2 takes place first (DEDUCED: log entry 40). -/
def execTrRootWrite (part : Nat) (value : BitVec 64) (s : State) : Outcome :=
  runEvent (do
    let s ← get
    need (!unperformed s part s.nextReq && cachesReady s)
    let s := tlbDrop (writeBackAll s) part 0 allUnits
    set (setPart s part { partOf s part with trRoot := BitVec.ofNat 64 (fieldOf value 8 32 * 256) })) s

/-! ### The fault buffer -/

/-- Changes every context and every copy that is saved for a partition. -/
def mapSaved (s : State) (part : Nat) (f : Ctx → Ctx) (g : Copy → Copy) : State :=
  let save := fun (x : SavedBerth) =>
    if x.part = part then
      { x with
        cores := x.cores.map fun k => (k.1, { k.2 with ctxs := k.2.ctxs.map fun c => (c.1, f c.2) })
        chans := x.chans.map fun q => (q.1, q.2.map g) }
    else x
  { s with berths := s.berths.map fun b => (b.1, { b.2 with saved := b.2.saved.map save }) }

/-- The contexts of a partition that are parked at places that satisfy a test, by core and context. -/
def parkedCtxs (s : State) (part : Nat) (at_ : ParkPlace → Bool) : List (Nat × Nat) :=
  s.cores.flatMap fun k => k.2.ctxs.filterMap fun c => match c.2.mode with
    | .parked p => if c.2.part == part && at_ p then some (k.1, c.1) else none
    | _ => none

/-- R128: the trap of a denied context reaches its compartment; the record then shows it trapped. -/
def denyCtx (s : State) (k c : Nat) : State :=
  let x := ctxOf s k c
  let base := recordBase k c
  let status := setField (setField (recDouble s base 0) 13 3 1) 12 1 (boolBit (trapNested s k x))
  let s := homeWrite s base (sparing s base (dblBytes status))
  sendTrap (traceRecord (setCtx s k c { x with mode := .trapped }) (coreBerth k) 3 x.ktrap.toNat k c x.ch.toNat x.pc x.ktask) k c

/-- R128: whether an agent is parked at a place that is answered. -/
def copyParkedAt (part : Nat) (at_ : ParkPlace → Bool) (c : Copy) : Bool :=
  c.part == part && (match c.parked with
    | some p => at_ p
    | none => false)

/-- R123, R241: the first copy of a channel retries its element and asks again, after those that asked since, for the lines that it has
still to write; a list that could not be read is read again (DEDUCED: log entry 36). -/
def retryCopy (s : State) (b ch : Nat) : State :=
  match chanOf s b ch with
  | [] => s
  | c :: r =>
    let c := { c with parked := none, seq := s.nextReq }
    let s := { s with nextReq := s.nextReq + 1 }
    if usesList c.fn.toNat && c.list.isNone then setChan s b ch ({ c with running := false, owned := [] } :: r)
    else
      let (c, s) := takeLines s b c
      setChan s b ch (c :: r)

/-- R128, R270: a denied copy ends with COPY_FAULT and the reason of its entry (DEDUCED: log entry 21). -/
def denyCopy (reason : Nat) (c : Copy) : Copy := endedCopy c cCOPY reason c.count

/-- The channels, by berth and number, whose first copy is parked at an answered place: only the first of a channel runs (R257). -/
def parkedChans (s : State) (part : Nat) (at_ : ParkPlace → Bool) : List (Nat × Nat) :=
  s.berths.flatMap fun b => b.2.chans.filterMap fun q =>
    if (q.2.take 1).any (copyParkedAt part at_) then some (b.1, q.1) else none

/-- R128: the first copy of a channel ends with its denial. -/
def denyFirst (reason : Nat) (s : State) (b ch : Nat) : State :=
  match chanOf s b ch with
  | [] => s
  | c :: r => setChan s b ch (denyCopy reason c :: r)

/-- R128: a saved agent keeps the answer until its berth resumes. -/
def answerSaved (s : State) (part : Nat) (at_ : ParkPlace → Bool) (deny : Bool) (reason : Nat) : State :=
  mapSaved s part
    (fun x => match x.mode with
      | .parked p => if at_ p then { x with mode := .parked (.answered deny) } else x
      | _ => x)
    (fun c => if copyParkedAt part at_ c then (if deny then denyCopy reason c else { c with parked := none }) else c)

/-- R128, R370: every agent parked at a place retries, or takes its denial; a context of a halted berth or of a pre-empted core stays parked and keeps the
answer until it resumes. A denied harvest ends, clears busy and sets err (DEDUCED: log entry 40). -/
def answer (s : State) (part : Nat) (at_ : ParkPlace → Bool) (deny : Bool) (reason : Nat) : State :=
  let who := parkedCtxs s part at_
  let s := (parkedChans s part at_).foldl (fun s e => if deny then denyFirst reason s e.1 e.2 else retryCopy s e.1 e.2) s
  let s := answerSaved s part at_ deny reason
  let p := partOf s part
  let s := match p.harvest with
    | some h =>
      if (match h.place with
        | some q => at_ q
        | none => false) then
        setPart s part (if deny then { p with harvest := none, trBusy := false, pfErr := true }
          else { p with harvest := some { h with place := none } })
      else s
    | none => s
  who.foldl (fun s e =>
    if (berthOf s (coreBerth e.1)).dbg.halted || (coreOf s e.1).preempted then setCtx s e.1 e.2 { ctxOf s e.1 e.2 with mode := .parked (.answered deny) }
    else if deny then denyCtx s e.1 e.2
    else resume s e.1 e.2) s

/-- R128, R129. An answer to a fault-buffer entry: refused, dropped as stale, or accepted (DEDUCED: log entry 40). -/
def execPfRespWrite (part : Nat) (value : BitVec 64) (s : State) : Outcome :=
  runEvent (do
    let s ← get
    let p := partOf s part
    let i := fieldOf value 0 3
    if fieldOf value 32 32 != 0 || fieldOf value 9 7 != 0 || fieldOf value 3 5 != 0 then set (pfRefuse s part)
    else
      match tabFind? p.ents i with
      | some e =>
        if fieldOf value 16 16 ≠ p.trGen.toNat then
          set (setPart s part { p with stale := if p.stale = 0xFFFFFFFF then p.stale else p.stale + 1 })
        else
          let s := tlbDrop (setPart s part { p with pfResp := value, ents := tabErase p.ents i }) part e.page 1
          set (answer s part (fun q => q == .entry i) (value.getLsbD 8) e.reason.toNat)
      | none => set (setPart s part { p with stale := if p.stale = 0xFFFFFFFF then p.stale else p.stale + 1 })) s

/-- R127: what replay-all does. -/
def replayAll (s : State) (part : Nat) : State :=
  let p := partOf s part
  let s := setPart s part { p with trGen := p.trGen + 1, ents := [], dropped := false }
  answer s part (fun q => match q with
    | .answered _ => false
    | _ => true) false 0

/-- R127. Op 1: a new generation, an empty buffer, and every parked agent retries. -/
def execTrCmdReplayAll (part : Nat) (s : State) : Outcome :=
  runEvent (do
    let s ← get
    let p := partOf s part
    if p.trBusy then set (pfRefuse s part) else set (replayAll (setPart s part { p with trOp := 1 }) part)) s

/-! ### The L2-direct share -/

/-- R132, R133: the nibble of a slice of a quay. -/
def nibble (v : Dbl) (i : Nat) : Nat := fieldOf v (4 * i) 4

def limitOf (p : Partition) (quay : Nat) : Dbl := if quay = 0 then p.lim0 else p.lim1
def splitOf (p : Partition) (quay : Nat) : Dbl := if quay = 0 then p.split0 else p.split1
def setLimit (p : Partition) (quay : Nat) (v : Dbl) : Partition := if quay = 0 then { p with lim0 := v } else { p with lim1 := v }
def setSplit (p : Partition) (quay : Nat) (v : Dbl) : Partition := if quay = 0 then { p with split0 := v } else { p with split1 := v }

/-- R133: the units of a slice between two sizes hold nothing (DEDUCED: log entry 40). -/
def clearUnits (s : State) (part slice lo hi : Nat) : State :=
  let a := l2Key part slice (lo * 0x40000)
  let z := l2Key part slice (hi * 0x40000)
  let inside := fun (k : Nat) => decide (a ≤ k ∧ k < z)
  { s with
    mem := s.mem.filter fun c => !inside c.1
    tags := s.tags.filter fun t => !inside (t * 32)
    phases := s.phases.filter fun p => !inside p.1 }

/-- R133: what a slice keeps of lines homed at the other quay is written back and leaves it. -/
def emptySlice (s : State) (slice : Nat) : State :=
  let q := slice / 16
  (quayOf s q).l2.foldl (fun s e =>
    if copySlice q e.1 = slice then
      let s := l2WriteBack s q e.1
      setQuay s q { quayOf s q with l2 := tabErase (quayOf s q).l2 e.1 }
    else s) s

/-- R133, R218, R241: a slice keeps no dirty line that cannot be written back now. -/
def sliceReady (s : State) (slice : Nat) : Bool :=
  (quayOf s (slice / 16)).l2.all fun e => copySlice (slice / 16) e.1 != slice || e.2.dirty == 0 || !storeHeld s (e.1 * 64) 64

/-- R133: the slices on which a split grows. -/
def grownSlices (p : Partition) (quay : Nat) (new : Dbl) : List Nat :=
  ((List.range 16).filter fun i => nibble (splitOf p quay) i < nibble new i).map (16 * quay + ·)

/-- R132, R133: a split becomes another; added units are taken from the cache, and the units gained or lost read zero. -/
def changeSplit (s : State) (part quay : Nat) (new : Dbl) : State :=
  let old := splitOf (partOf s part) quay
  let s := (grownSlices (partOf s part) quay new).foldl emptySlice s
  let s := setPart s part (setSplit (partOf s part) quay new)
  (List.range 16).foldl (fun s i =>
    let a := nibble old i
    let b := nibble new i
    if a = b then s else clearUnits s part (16 * quay + i) (min a b) (max a b)) s

/-- R132. The partition manager sets a partition's limits; splits above them are lowered. -/
def execL2LimitWrite (part : Nat) (quay : Nat) (value : BitVec 64) (s : State) : Outcome :=
  runEvent (do
    let s ← get
    let sum := fun (i : Nat) => ((List.range 16).map fun q =>
      nibble (if q = part then value else limitOf (partOf s q) quay) i).sum
    if (List.range 16).any fun i => 14 < sum i then set { s with glob := { s.glob with pmErr := true } }
    else
      let s := setPart s part (setLimit (partOf s part) quay value)
      let old := splitOf (partOf s part) quay
      let low := (List.range 16).foldl (fun (v : Dbl) i => setField v (4 * i) 4 (min (nibble old i) (nibble value i))) old
      set (if low = old then s else raisePart (changeSplit s part quay low) part 8)) s

/-- R133. A partition sets its splits within its limits. -/
def execL2SplitWrite (part : Nat) (quay : Nat) (value : BitVec 64) (s : State) : Outcome :=
  runEvent (do
    let s ← get
    if (List.range 16).any fun i => nibble (limitOf (partOf s part) quay) i < nibble value i then set (pfRefuse s part)
    else do
      need ((grownSlices (partOf s part) quay value).all (sliceReady s))
      set (changeSplit s part quay value)) s

/-! ### Bandwidth -/

/-- R136: a partition's credits at the start of a period (DESIGN CHOICE: log entry 41). -/
def newCredits (p : Partition) : Partition := { p with
  floorCr := p.bands.map fun e => (e.1, bandFloor e.2)
  ceilCr := p.bands.map fun e => (e.1, bandCeil e.2) }

/-- R136. A new period of 1,024 clk: every partition's credits, in 1/256 of a resource's capacity (DESIGN CHOICE: log entry 41). -/
def execBandwidthPeriodStart (s : State) : Outcome :=
  runEvent (do
    let s ← get
    need (s.glob.periodAt + 1024 ≤ s.clk)
    set { s with
      parts := s.parts.map fun (e : Nat × Partition) => (e.1, newCredits e.2)
      glob := { s.glob with periodAt := s.clk / 1024 * 1024 } }) s

end Sys2Proof.Machine
end

