-- ==== Sys2Proof/Machine/Sweep.lean ====
section
/-!
DEFINITION. The dredgers' sweeps (R105, R107 to R113): the registers of one partition's dredger and the six stages.
-/
namespace Sys2Proof.Machine

open Sys2Proof

/-- Whether a sweep of a partition runs. -/
def sweeping (d : Dredger) : Bool := d.begun != d.ended

/-- R106: whether the map revokes a capability's base. -/
def isRevoked (s : State) (part : Nat) (c : Cap) : Bool := c.tag && (revoked s part (capBase c)).1

/-- R110: a capability after the sweep has seen it. -/
def swept (s : State) (part : Nat) (c : Cap) : Cap := if isRevoked s part c then capUntag c else c

/-- R136, R241, R383: a sweep that looks at some capabilities has to wait for a map word. -/
def mapsHeld (s : State) (part : Nat) (cs : List Cap) : Bool := cs.any (mapHeld s part)

/-- R105: a map word that governs one of the capabilities and cannot be read sets err. -/
def noteMap (s : State) (part : Nat) (cs : List Cap) : State := cs.foldl (fun s c => if c.tag then (revoked s part (capBase c)).2 else s) s

/-- R136, R241, R383: the dredger has to wait for the control granule. -/
def counterHeld (s : State) (part : Nat) : Bool :=
  let va := fieldOf (partOf s part).dr.ctl 5 43 * 32
  isTranslated va && unitHeld s part va 8 true

/-- R107: the dredger's atomic on word 0 of the control granule: [31:0] take the counters. -/
def updateCounters (s : State) (part : Nat) : State :=
  let d := (partOf s part).dr
  let failed := raisePart (setPart s part { partOf s part with dr := { d with err := true } }) part 1
  let va := fieldOf d.ctl 5 43 * 32
  if isTranslated va = false then failed
  else
    match unitStore s part va with
    | .error _ => failed
    | .ok (p, t) =>
      if isBad s p.key 8 then failed
      else unitWrite (recallRange t p.key 4) p.key (bytesOf 4 (d.begun.toNat * 2 ^ 16 + d.ended.toNat))

/-! ### Stages 1 and 2 -/

/-- R110: the capabilities of a copy that the lighter compares. -/
def copyCaps (c : Copy) : List Cap := [c.src, c.dst] ++ (if usesList c.fn.toNat then [c.aux] else [])

/-- R110 stage 2: a copy with a revoked operand stops at its element. -/
def stopCopy (s : State) (part : Nat) (c : Copy) : Copy :=
  if c.part == part && c.outcome.isNone && (copyCaps c).any (isRevoked s part) then endedCopy c cREVOKED 0 c.count else c

/-- The capabilities of the lighters' queues of a partition. -/
def queueCaps (part : Nat) (chans : Tab (List Copy)) : List Cap := chans.flatMap fun q => (q.2.filter fun c => c.part == part).flatMap copyCaps

/-- The capabilities that the lighters compare. -/
def lighterCaps (s : State) (part : Nat) : List Cap := s.berths.flatMap fun b => queueCaps part b.2.chans

/-- R110: every lighter compares its queued and running copies with the map (DEDUCED: log entry 36). -/
def stopCopies (s : State) (part : Nat) : State :=
  let s := noteMap s part (lighterCaps s part)
  let s0 := s
  { s with berths := s.berths.map fun b => (b.1, { b.2 with chans := b.2.chans.map fun q => (q.1, q.2.map (stopCopy s0 part)) }) }

/-- R105: the stage of `dr.stat`: the one whose work comes next. -/
def setStage (s : State) (part : Nat) (stage : BitVec 3) : State :=
  setPart s part { partOf s part with dr := { (partOf s part).dr with stage := stage } }

/-- R108, R110. A sweep begins: begun advances and revoked copies stop. -/
def execSweepStart (part : Nat) (s : State) : Outcome :=
  runEvent (do
    let s ← get
    let p := partOf s part
    need (!sweeping p.dr && p.dr.pend && fieldOf p.dr.size 0 28 != 0 && !counterHeld s part && !mapsHeld s part (lighterCaps s part))
    let s := setPart s part { p with dr := { p.dr with begun := p.dr.begun + 1, pend := false, stage := 3, startedAt := s.clk } }
    set (stopCopies (updateCounters s part) part)) s

/-! ### Stage 3 -/

/-- The shadow registers after the sweep. -/
def sweptShadow (f : Cap → Cap) (h : Shadow) : Shadow := { h with src := f h.src, dst := f h.dst, aux := f h.aux }

/-- R110 stage 3: a context's capabilities. -/
def sweptCtx (f : Cap → Cap) (x : Ctx) : Ctx :=
  { x with
    c := x.c.map fun e => (e.1, f e.2)
    pcc := f x.pcc
    kcsa := f x.kcsa
    kcsb := f x.kcsb
    frames := x.frames.map fun r => { r with pcc := f r.pcc, root := f r.root, ret := f r.ret }
    sh0 := sweptShadow f x.sh0
    sh1 := sweptShadow f x.sh1 }

def sweptFlight (part : Nat) (f : Cap → Cap) (m : Flight) : Flight := if m.part = part then { m with cap := f m.cap } else m

def sweptBinding (part : Nat) (f : Cap → Cap) (b : Binding) : Binding :=
  if b.part = part then { b with entry := f b.entry, root := f b.root } else b

/-- R110 stage 3: a core's contexts with a task of the partition, its bindings, its inbox and its send queues. -/
def sweptCore (part : Nat) (f : Cap → Cap) (k : Core) : Core :=
  { k with
    ctxs := k.ctxs.map fun e => (e.1, if e.2.mode != .free && e.2.part == part then sweptCtx f e.2 else e.2)
    bind := k.bind.map fun e => (e.1, sweptBinding part f e.2)
    inbox := k.inbox.map (sweptFlight part f)
    sendq := k.sendq.map fun e => (e.1, e.2.map (sweptFlight part f)) }

def sweptNet (f : Cap → Cap) (n : Net) : Net := { n with heap := n.heap.map f }

def sweptLaunch (part : Nat) (f : Cap → Cap) (l : Launch) : Launch :=
  if l.part = part then { l with root := f l.root, net := l.net.map (sweptNet f) } else l

def sweptCont (part : Nat) (f : Cap → Cap) (c : Cont) : Cont := { c with flight := sweptFlight part f c.flight }

/-- R111: the capabilities of a request on its way. -/
def sweptBody (part : Nat) (f : Cap → Cap) : Body → Body
  | .store ws cap back => .store ws (cap.map f) back
  | .launch d0 d1 d2 d3 root => .launch d0 d1 d2 d3 (f root)
  | .phase fn p n cont => .phase fn p n (cont.map (sweptCont part f))
  | .net op heap reg back => .net op (f heap) reg back
  | b => b

def sweptReq (part : Nat) (f : Cap → Cap) (r : Req) : Req := if r.part = part then { r with body := sweptBody part f r.body } else r

/-- The capabilities of a request. -/
def bodyCaps : Body → List Cap
  | .store _ cap _ => cap.toList
  | .launch _ _ _ _ root => [root]
  | .phase _ _ _ cont => cont.toList.map fun c => c.flight.cap
  | .net _ heap _ _ => [heap]
  | _ => []

def frameCaps (r : Frame) : List Cap := [r.pcc, r.root, r.ret]
def shadowCaps (h : Shadow) : List Cap := [h.src, h.dst, h.aux]

/-- The capabilities of a context. -/
def ctxCaps (x : Ctx) : List Cap :=
  x.c.map Prod.snd ++ [x.pcc, x.kcsa, x.kcsb] ++ x.frames.flatMap frameCaps ++ shadowCaps x.sh0 ++ shadowCaps x.sh1

/-- The capabilities of a core that belong to a partition. -/
def coreCaps (part : Nat) (k : Core) : List Cap :=
  (k.ctxs.filter fun e => e.2.mode != .free && e.2.part == part).flatMap (fun e => ctxCaps e.2) ++
    (k.bind.filter fun e => e.2.part == part).flatMap (fun e => [e.2.entry, e.2.root]) ++
    ((k.inbox ++ k.sendq.flatMap (·.2)).filter fun m => m.part == part).map (·.cap)

/-- The capabilities of a launch: its root and, for a net, its heap. -/
def launchCaps (l : Launch) : List Cap := l.root :: ((l.net.map fun n => n.heap.toList).getD [])

/-- The capabilities that phases of a partition keep. -/
def contCaps (part : Nat) (t : Tab (List Cont)) : List Cap :=
  (t.flatMap (·.2)).filterMap fun c => if c.flight.part = part then some c.flight.cap else none

/-- What a sweep finds outside memory: in registers, bindings, queues, messages and requests on their way, and launches. -/
def heldCaps (s : State) (part : Nat) : List Cap :=
  s.cores.flatMap (fun k => coreCaps part k.2) ++
    ((s.mesh ++ s.quays.flatMap (fun q => q.2.pending ++ q.2.ring)).filter fun m => m.part == part).map (·.cap) ++
    (s.reqs.filter fun r => r.2.part == part).flatMap (fun r => bodyCaps r.2.body) ++
    (s.launches.filter fun l => l.2.part == part).flatMap fun l => launchCaps l.2

/-- R110 stage 3, R111: the tags of revoked capabilities outside memory are cleared. -/
def sweepHeld (s : State) (part : Nat) : State :=
  let s := noteMap s part (heldCaps s part)
  let f := swept s part
  { s with
    cores := s.cores.map (fun (k : Nat × Core) => (k.1, sweptCore part f k.2))
    quays := s.quays.map (fun (q : Nat × Quay) => (q.1, { q.2 with pending := q.2.pending.map (sweptFlight part f), ring := q.2.ring.map (sweptFlight part f) }))
    reqs := s.reqs.map (fun (r : Nat × Req) => (r.1, sweptReq part f r.2))
    launches := s.launches.map (fun (l : Nat × Launch) => (l.1, sweptLaunch part f l.2))
    mesh := s.mesh.map (sweptFlight part f) }

/-- A dredger goes from one stage of a running sweep to the next. -/
def needStage (part : Nat) (stage : BitVec 3) : Act Unit := do
  let d := (partOf (← get) part).dr
  need (sweeping d && d.stage == stage)

/-- R110 stage 3. Revoked tags leave registers, frames, shadows, bindings, inboxes and pending tables (DEDUCED: log entry 42). -/
def execSweepRegisters (part : Nat) (s : State) : Outcome :=
  runEvent (do
    needStage part 3
    let s ← get
    need (!mapsHeld s part (heldCaps s part ++ lighterCaps s part))
    set (stopCopies (setStage (sweepHeld s part) part 4) part)) s

/-! ### Stages 4 and 5 -/

/-- A tagged granule. -/
def granCap (s : State) (t : Nat) : Cap := ⟨BitVec.ofNat 256 (natOfBytes (memRead s.mem (t * 32) 32)), true⟩

/-- The tagged granules that a test picks. -/
def tagCaps (s : State) (pick : Nat → Bool) : List Cap := (s.tags.filter pick).map (granCap s)

/-- R110 stages 4 and 5: the revoked tags among those that a test picks are cleared. -/
def sweepTags (s : State) (part : Nat) (pick : Nat → Bool) : State :=
  let s := noteMap s part (tagCaps s pick)
  { s with tags := s.tags.filter fun t => !(pick t && isRevoked s part (granCap s t)) }

/-- R226: a tagged granule of a block's image. -/
def imageCap (b : Block) (g : Nat) : Cap := ⟨BitVec.ofNat 256 (natOfBytes ((b.image.drop (32 * g)).take 32)), true⟩

/-- R242: the compressed blocks of a partition's memory. -/
def ownBlocks (s : State) (part : Nat) : Tab Block := s.glob.blocks.filter fun e => inGrants (partOf s part) (e.1 * 256) 256

def imageCaps (s : State) (part : Nat) : List Cap := (ownBlocks s part).flatMap fun e => e.2.tags.map (imageCap e.2)

/-- R110 stage 5, R242: the revoked tags of the images of compressed blocks are cleared. -/
def sweepImages (s : State) (part : Nat) : State :=
  let s := noteMap s part (imageCaps s part)
  let own := fun (blk : Nat) => inGrants (partOf s part) (blk * 256) 256
  let one := fun (e : Nat × Block) =>
    if own e.1 then (e.1, { e.2 with tags := e.2.tags.filter fun g => !isRevoked s part (imageCap e.2 g) }) else e
  if s.glob.blocks.isEmpty then s else { s with glob := { s.glob with blocks := s.glob.blocks.map one } }

/-- R110 stage 4: a granule of a local store or A buffer that holds the partition's data. -/
def localGranule (s : State) (part t : Nat) : Bool :=
  (windowOf (t * 32) == 0xC || windowOf (t * 32) == 0xD) && !isL2Key (t * 32) && (berthOf s (winBerth (t * 32))).holds == some part

/-- R110 stage 4. Revoked tags leave the local stores and A buffers that hold the partition's data, and registers that a resumption has filled from them since stage 3 (DEDUCED: log entry 42). -/
def execSweepLocalStores (part : Nat) (s : State) : Outcome :=
  runEvent (do
    needStage part 4
    let s ← get
    need (!mapsHeld s part (heldCaps s part ++ lighterCaps s part ++ tagCaps s (localGranule s part)))
    set (stopCopies (setStage (sweepHeld (sweepTags s part (localGranule s part)) part) part 5) part)) s

/-- R111: capabilities of a partition that lie outside registers, local stores and memory proper. -/
def sweptPart (f : Cap → Cap) (p : Partition) : Partition :=
  { p with
    objs := p.objs.map fun e => (e.1, { e.2 with code := f e.2.code, caps := e.2.caps.map f })
    suspended := p.suspended.map fun l => (l.1, l.2.1, { l.2.2 with root := f l.2.2.root, net := l.2.2.net.map (sweptNet f) }) }

/-- R110 stage 5: what a save keeps for a partition; a copy with a revoked operand does not go on. -/
def sweptSaved (s : State) (part : Nat) (x : SavedBerth) : SavedBerth :=
  let f := swept s part
  if x.part = part then
    { x with
      cores := x.cores.map fun k => (k.1, sweptCore part f k.2)
      chans := x.chans.map fun q => (q.1, q.2.map (stopCopy s part))
      phases := x.phases.map fun q => (q.1, q.2.map (sweptCont part f)) }
  else x

def sweptSpill (part : Nat) (f : Cap → Cap) (k : Core) : Core :=
  { k with
    spill := k.spill.map fun e => (e.1, e.2.map (sweptFlight part f)) }

/-- The capabilities of what `sweepKept` sees. -/
def keptCaps (s : State) (part : Nat) : List Cap :=
  let p := partOf s part
  s.cores.flatMap (fun k => (k.2.spill.flatMap (·.2)).filterMap fun m => if m.part = part then some m.cap else none) ++
    ((s.berths.flatMap fun b => b.2.saved).filter fun x => x.part == part).flatMap (fun x =>
      x.cores.flatMap (fun k => coreCaps part k.2) ++ queueCaps part x.chans ++ contCaps part x.phases) ++
    contCaps part s.phases ++ p.objs.flatMap (fun e => e.2.code :: e.2.caps) ++ p.suspended.flatMap fun l => launchCaps l.2.2

/-- R110 stage 5, R111: what lies in memory of the hardware's own layout, or beside it: spilled messages, saved berths, phases,
resident objects and suspended launches; what checkpoints keep stays (DESIGN CHOICE: log entry 42). -/
def sweepKept (s : State) (part : Nat) : State :=
  let s := noteMap s part (keptCaps s part)
  let f := swept s part
  let t := { s with
    cores := s.cores.map (fun (k : Nat × Core) => (k.1, sweptSpill part f k.2))
    berths := s.berths.map (fun (b : Nat × Berth) => (b.1, { b.2 with saved := b.2.saved.map (sweptSaved s part) }))
    phases := s.phases.map (fun (q : Nat × List Cont) => (q.1, q.2.map (sweptCont part f))) }
  setPart t part (sweptPart f (partOf t part))

/-- R110 stage 5. Revoked tags leave the L2 and memory, spilled messages and saved contexts, and whatever a resumption has filled from them since the earlier stages (DEDUCED: log entry 42). -/
def execSweepMemory (part : Nat) (s : State) : Outcome :=
  runEvent (do
    needStage part 5
    let s ← get
    let p := partOf s part
    let pick := fun (t : Nat) => localGranule s part t || (decide (t * 32 < extEnd) && inGrants p (t * 32) 32)
    need (!mapsHeld s part (heldCaps s part ++ lighterCaps s part ++ tagCaps s pick ++ imageCaps s part ++ keptCaps s part) &&
      (s.tags.filter pick).all fun t => t * 32 ≥ extEnd || !unitWaits s part (t * 32) 32 false)
    set (stopCopies (setStage (sweepKept (sweepHeld (sweepImages (sweepTags s part pick) part) part) part) part 6) part)) s

/-! ### Registers and stage 6 -/

/-- R105: the RW fields of a revocation register. -/
def setDredger (d : Dredger) (off : Nat) (v : Dbl) : Dredger :=
  match off with
  | 0x00 => { d with heap := BitVec.ofNat 64 (fieldOf v 9 39 * 2 ^ 9) }
  | 0x08 => { d with size := BitVec.ofNat 64 (fieldOf v 0 28) }
  | 0x10 => { d with map := BitVec.ofNat 64 (fieldOf v 3 45 * 2 ^ 3) }
  | 0x18 => { d with ctl := BitVec.ofNat 64 (fieldOf v 5 43 * 2 ^ 5) }
  | _ => d

/-- R110 stage 6, R105. Once the `mad`s from before the sweep have completed, ended advances and deferred writes apply (DEDUCED: log entry 42). -/
def execSweepEnd (part : Nat) (s : State) : Outcome :=
  runEvent (do
    needStage part 6
    let s ← get
    let p := partOf s part
    need (!(s.berths.any fun b => b.2.mat.queue.any fun c => c.fn == 5 && c.part == part && decide (c.issued ≤ p.dr.startedAt)) &&
      cachesReady s && !counterHeld s part && !mapsHeld s part (lighterCaps s part))
    let s := stopCopies s part
    let d := (partOf s part).dr
    let s := setPart s part { partOf s part with dr := { d with ended := d.begun, stage := 0 } }
    let s := updateCounters (writeBackAll s) part
    let d := (partOf s part).dr
    set (setPart s part { partOf s part with dr := d.deferred.foldl (fun d e => setDredger d e.1 e.2) { d with deferred := [] } })) s

/-- R105: an ngran above the largest heap is refused. -/
def sizeRefused (off : Nat) (v : Dbl) : Bool := off == 0x08 && decide (0x8000000 < fieldOf v 0 28)

/-- R105. A write of a revocation register, kept for the end of a running sweep. -/
def execDredgerRegisterWrite (part : Nat) (off : Nat) (value : BitVec 64) (s : State) : Outcome :=
  runEvent (do
    let s ← get
    let p := partOf s part
    let d := p.dr
    if sizeRefused off value then set { s with glob := { s.glob with pmErr := true } }
    else if off = 0x28 then set (setPart s part { p with dr := { d with err := d.err && !value.getLsbD 4 } })
    else if off = 0x00 ∨ off = 0x08 ∨ off = 0x10 ∨ off = 0x18 then
      set (setPart s part { p with dr := if sweeping d then { d with deferred := d.deferred ++ [(off, value)] } else setDredger d off value })
    else pure ()) s

end Sys2Proof.Machine
end

