-- ==== Sys2Proof/Machine/Save.lean ====
section
/-!
DEFINITION. Pre-emption (R46), the save of a berth to its partition's save area and its resumption from there (R313, R314,
R317), and the commands of `tret` and `tdrop` (R353).
-/
namespace Sys2Proof.Machine

open Sys2Proof

/-! ### Freezing cores -/

/-- R346 step 2, R232: a context can be frozen when nothing it asked for is still to be delivered or to perform. -/
def ctxFreezable (s : State) (k c : Nat) : Bool :=
  match (ctxOf s k c).mode with
  | .running => !outstanding s k c && !accessOutstanding s k c
  | .trapping _ _ _ => false
  | .waiting _ => false
  | _ => true

def coreFreezable (s : State) (k : Nat) : Bool := (List.range 4).all (ctxFreezable s k)

/-- R46, R346 steps 1 to 3: a running context's record is written with cause PREEMPT; a trapped or parked one keeps its own. -/
def freezeCtx (s : State) (k c : Nat) : State :=
  match (ctxOf s k c).mode with
  | .running =>
    let s := suspendLease (suspendSfu (detach s k c) k c) k c
    let x := { ctxOf s k c with sendHold := none, leaveAsk := none }
    let trpc := BitVec.ofNat 64 (fieldOf x.pc 0 48)
    let status := statusWord 0x1B x.seq.toNat (otypeOf x) x.ch.toNat 3 false
    let s := putRecord (setCtx s k c x) (recordBase k c) x (recordBytes x status 0 trpc trpc x.leaseSaved.toNat)
    traceRecord s (coreBerth k) 5 0x1B k c x.ch.toNat x.pc x.ktask
  | _ => s

/-- R46: a core stops; messages that arrive from now on are spilled (DEDUCED: log entry 43). -/
def freezeCore (s : State) (k : Nat) : State :=
  if (coreOf s k).preempted then s
  else
    let s := (List.range 4).foldl (fun s c => freezeCtx s k c) s
    setCore s k { coreOf s k with preempted := true }

/-- R46. A pre-empting message reaches a core, and its contexts are saved to the local store. -/
def execPreemption (core : Nat) (s : State) : Outcome :=
  runEvent (do
    let s ← get
    need (!(coreOf s core).preempted && coreFreezable s core)
    set (freezeCore s core)) s

/-! ### The save area -/

/-- R313: where a berth's block starts in a partition's save area. -/
def saveBase (s : State) (part b : Nat) : Nat := fieldOf (partOf s part).peSave 16 32 * 65536 + 0xC40000 * b

/-- R359: the bad-line entries of a quay. -/
def badEntries : Nat := 256

/-- R359, R118: a 64 KiB page of external memory leaves every partition's grants (DEDUCED: log entry 50). -/
def mapOut (s : State) (page : Nat) : State :=
  (List.range 16).foldl (fun s p => setPart s p { partOf s p with holes := setInsert (partOf s p).holes page }) s

/-- R359: a line of memory or of a buffer of which some bytes have been written since is marked bad, or its page mapped out when a
quay's table is full (DEDUCED: log entry 50). -/
def markBad (s : State) (line : Nat) (written : List Nat) : State :=
  let key := line * 64
  let q := keyQuay key
  let old := (quayOf s q).badLines.filter fun e => e.1 != line
  if old.length < badEntries then setQuay s q { quayOf s q with badLines := (line, written) :: old }
  else
    let s := raiseIrq s 648 0
    if key < extEnd then mapOut s (key / 65536) else setQuay s q { quayOf s q with badLines := (line, written) :: old }

/-- R359: a line of memory or of a buffer is retired. -/
def retireLine (s : State) (line : Nat) : State := markBad s line []

/-- R357: a page that is copied takes the marks of its bad lines along: an error is not written onward as data (DEDUCED: log entry 50). -/
def carryBad (s : State) (src dst : Nat) : State :=
  let lines := ([0, 1].flatMap fun q => (quayOf s q).badLines).filter fun e => decide (src ≤ e.1 * 64 ∧ e.1 * 64 < src + 65536)
  lines.foldl (fun s e => markBad s (e.1 + dst / 64 - src / 64) e.2) s

/-- A 64 KiB page of the save area is written: its bytes, and the tags at the listed offsets (R104). -/
def putPage (s : State) (part va : Nat) (bs : List Byte) (tags : List Nat) : State :=
  match unitStore s part va with
  | .error _ => s
  | .ok (p, s) =>
    let s := unitWrite s p.key bs
    if isL2Key p.key then s else { s with tags := tags.foldl (fun t o => setInsert t ((p.key + o) / 32)) s.tags }

/-- Where a page of the save area lies. -/
def pageKey (s : State) (part va : Nat) : Option Nat :=
  match walk s part va with
  | .error _ => none
  | .ok (leaf, level, slot) => some (leafPhys part ⟨part, 0, leaf, level, slot⟩ va).key

/-- A page of the save area as a restore reads it. -/
def getPage (s : State) (part va : Nat) : List Byte × List Nat :=
  match pageKey s part va with
  | none => ([], [])
  | some key =>
    (memRead s.mem key 65536, (s.tags.filter fun t => decide (key ≤ t * 32 ∧ t * 32 < key + 65536)).map fun t => t * 32 - key)

/-- Whether pages of the save area can be written, and so read. -/
def areaReady (s : State) (part va pages : Nat) : Bool :=
  (List.range pages).all fun i => !unitHeld s part (va + 65536 * i) 65536 true && match unitStore s part (va + 65536 * i) with
    | .ok _ => true
    | .error _ => false

/-- A page of a window goes to the save area with its tags. -/
def pageOut (s : State) (part va src : Nat) : State :=
  let tags := (s.tags.filter fun t => decide (src ≤ t * 32 ∧ t * 32 < src + 65536)).map fun t => t * 32 - src
  let s := putPage s part va (memRead s.mem src 65536) tags
  match pageKey s part va with
  | some key => carryBad s src key
  | none => s

/-- A page of the save area returns to its window. -/
def pageIn (s : State) (part va dst : Nat) : State :=
  let (bs, tags) := getPage s part va
  let s := homeWrite s dst bs
  let s := { s with tags := tags.foldl (fun t o => setInsert t ((dst + o) / 32)) s.tags }
  match pageKey s part va with
  | some key => carryBad s key dst
  | none => s

/-- R314: the pages of the A and C buffers and the local stores: offset in the berth block and window address. -/
def berthPages (b : Nat) : List (Nat × Nat) :=
  ((List.range 32).map fun i => (0x800000 + 65536 * i, winBase 0xD b 0 + 65536 * i)) ++
    ((List.range 16).map fun i => (0xA00000 + 65536 * i, winBase 0xE b 0 + 65536 * i)) ++
    ((List.range 16).map fun i => (0xB00000 + 65536 * i, winBase 0xC b (i / 4) + 65536 * (i % 4)))

/-- R314: a page of the W buffer. -/
def wPage (b i : Nat) : Nat × Nat := (65536 * i, winBase 0xF b 0 + 65536 * i)

/-- The value of a link entry. -/
def linkValue (e : LinkEntry) : Nat :=
  match e with
  | .ready v => v.toNat
  | .flying v => v.toNat
  | _ => 0

/-- R314: the inbound queues of one direction. -/
def linkBytes (k : Core) (dir : Nat) : List Byte :=
  let q := fun (key : Nat) => tabGet [] k.links key
  padTo 32 ((q dir).flatMap fun e => bytesOf 8 (linkValue e)) ++ padTo 64 ((q (4 + dir)).flatMap fun e => bytesOf 16 (linkValue e))

/-- R314: a boom slot. -/
def boomBytes (b : Boom) : List Byte :=
  bytesOf 8 (b.rect.toNat + b.utag.toNat * 2 ^ 32 + b.ch.toNat * 2 ^ 48) ++
    bytesOf 8 (b.gen.toNat + boolBit b.arrived * 2 ^ 16 + boolBit b.held * 2 ^ 17) ++ bytesOf 16 0

/-- R314: the 4 KiB of a core (DEDUCED: log entry 44). -/
def coreBytes (k : Core) : List Byte :=
  let dirs := List.range 4
  let occ := fun (f : Nat → Nat) => (dirs.map fun d => (tabGet [] k.links (f d)).length * 16 ^ d).sum
  padTo 384 (dirs.flatMap (linkBytes k)) ++
    bytesOf 8 (occ id + occ (fun d => 4 + d) * 2 ^ 16 + k.inbox.length * 2 ^ 32) ++
    bytesOf 8 k.chmask.toNat ++ bytesOf 8 k.chprio.toNat ++ bytesOf 8 k.drop.toNat ++ bytesOf 96 0 ++
    dirs.flatMap (fun i => boomBytes (tabGet Boom.reset k.boom i)) ++
    (List.range 16).flatMap (fun i => dblBytes (tabGet 0 k.obs (0x100 + i))) ++
    (List.range 32).flatMap (fun i => dblBytes (tabGet 0 k.obs (0x140 + i))) ++
    (List.range 16).flatMap (fun i => dblBytes (tabGet 0 k.obs (0x160 + i))) ++
    bytesOf 8 (k.freeList.length + k.freeLaunch * 2 ^ 32) ++ padTo 512 (k.freeList.reverse.flatMap (bytesOf 4)) ++ bytesOf 2424 0

/-- R314: a saved inbox entry. -/
def inboxBytes (f : Flight) : List Byte :=
  let w := fun (i : Nat) => dblBytes (f.words.getD i 0)
  if hdrCapword f.header then dblBytes f.header ++ w 0 ++ w 1 ++ w 2 ++ capBytes f.cap
  else dblBytes f.header ++ (List.range 7).flatMap w

/-- A berth mask as its two words. -/
def maskWord (mask : List Nat) (hi : Bool) : Nat :=
  (mask.map fun b => if hi then (if 64 ≤ b then 2 ^ (b - 64) else 0) else (if b < 64 then 2 ^ b else 0)).sum

/-- R314: a copy slot. -/
def slotBytes (c : Copy) : List Byte :=
  capBytes c.src ++ capBytes c.dst ++ capBytes c.aux ++ dblBytes c.ctl ++ bytesOf 8 (maskWord c.mask false) ++
    bytesOf 8 (maskWord c.mask true) ++ bytesOf 8 (c.id.toNat + c.ctx * 2 ^ 16) ++ bytesOf 8 c.count ++ bytesOf 24 0

/-- R314: a set of notes. -/
def noteBytes (f : Xfer) : List Byte := padTo 128 (f.notes.flatMap fun n => dblBytes n ++ bytesOf 8 1)

/-- R314: a set's ids, counts and fault record (DEDUCED: log entry 44). -/
def xferBytes (f : Xfer) : List Byte :=
  let r := f.frec.getD (0, 0)
  bytesOf 8 (f.next.toNat + f.count.toNat * 2 ^ 16) ++ dblBytes r.1 ++ dblBytes r.2 ++ bytesOf 8 (boolBit f.frec.isSome)

/-- R314: the sets in order of core, context and channel. -/
def xferSets (s : State) (b : Nat) : List Xfer :=
  (List.range 32).map fun i => xferOf (ctxOf s (4 * b + i / 8) (i / 2 % 4)) (i % 2)

/-- R314: the 64 KiB of per-core state, inboxes and lighter state (DEDUCED: log entry 44). -/
def statePage (s : State) (b : Nat) : List Byte :=
  let cores := (List.range 4).map fun i => coreOf s (4 * b + i)
  cores.flatMap coreBytes ++ cores.flatMap (fun k => padTo 2048 (k.inbox.flatMap inboxBytes)) ++
    (List.range 8).flatMap (fun ch => padTo 2560 ((chanOf s b ch).flatMap slotBytes)) ++
    (xferSets s b).flatMap noteBytes ++ (xferSets s b).flatMap xferBytes ++ bytesOf 15360 0

/-- R104, R314: the offsets in that page at which a tag is kept. -/
def stateTags (s : State) (b : Nat) : List Nat :=
  let at_ := fun (o : Nat) (c : Cap) => if c.tag then [o] else []
  ((List.range 4).flatMap fun i => (coreOf s (4 * b + i)).inbox.zipIdx.flatMap fun e =>
      at_ (0x4000 + 2048 * i + 64 * e.2 + 32) e.1.cap) ++
    (List.range 8).flatMap fun ch => (chanOf s b ch).zipIdx.flatMap fun e =>
      let o := 0x6000 + 2560 * ch + 160 * e.2
      at_ o e.1.src ++ at_ (o + 32) e.1.dst ++ at_ (o + 64) e.1.aux

/-! ### Saving a berth -/

/-- R224, R313: what must be over before a berth's state can be saved (DEDUCED: log entry 43). -/
def saveReady (s : State) (part b : Nat) : Bool :=
  let y := berthOf s b
  let ended := fun (r : SfuReq) => (ctxOf s r.core r.ctx).epoch != r.epoch
  y.mat.queue.isEmpty && y.sfuRun.isEmpty && !y.sfuQ.any ended &&
    ((List.range 4).all fun i =>
      let k := coreOf s (4 * b + i)
      coreFreezable s (4 * b + i) && !(k.sendq.any fun q => !q.2.isEmpty)) &&
    !servesOthers s b && releaseReady s b 4 && areaReady s part (saveBase s part b) 196

/-- R334, R343: the pairs of a saving berth go to their partition's rings; the mesh holds one whose ring is full. -/
def unloadBag (s : State) (b : Nat) : State :=
  let y := berthOf s b
  y.bag.foldl (fun s p =>
    let n := foldSlice p.a
    let sl := sliceOf s n
    let ring := tabGet [] sl.pairRings p.part
    let waits := s.glob.overflow.any fun o => o.slice == n && o.pair.part == p.part
    if !waits && ring.length < pairRingRoom (partOf s p.part) then
      touchPairs (setSlice s n (refillPairs { sl with pairRings := tabPut sl.pairRings p.part (ring ++ [p]) } none 64)) p.part n
    else
      let s := if waits then s else raisePart s p.part 9
      { s with glob := { s.glob with overflow := s.glob.overflow ++ [⟨n, p, 0, 0, true⟩] } })
    (setBerth s b { y with bag := [] })

/-- A core as the next partition finds it. What belongs to other partitions or to the wires stays. -/
def vacatedCore (k : Core) : Core :=
  { Core.reset with
    ctxs := (List.range 4).map fun c => (c, { Ctx.reset with epoch := (tabGet Ctx.reset k.ctxs c).epoch + 1 })
    icache := sharedLines k.icache
    itail := k.itail
    spill := k.spill
    rr := k.rr
    issuedAt := k.issuedAt }

/-- R314: a core as a save keeps it beside its page, which holds the values of its queues: those on their way have arrived. -/
def keptCore (k : Core) : Core :=
  let arrive := fun (e : LinkEntry) => match e with
    | .flying v => .ready v
    | x => x
  { k with links := k.links.map fun q => (q.1, q.2.map arrive) }

/-- R287: whether a location lies in a window of a berth. -/
def inWindows (b key : Nat) : Bool := 0xC ≤ windowOf key && !isL2Key key && winBerth key == b

/-- R313, R314, R343: a berth's state goes to the partition's save area, and the berth runs no partition (DEDUCED: log entry 43). -/
def saveBerth (s : State) (part b : Nat) : State :=
  let ks := (List.range 4).map fun i => 4 * b + i
  let s := ks.foldl freezeCore (release s b 4)
  let s := unloadBag s b
  let base := saveBase s part b
  let y := berthOf s b
  let ws := if y.imaged.contains part then y.wDirty else List.range 128
  let s := (berthPages b ++ ws.map (wPage b)).foldl (fun s e => pageOut s part (base + e.1) e.2) s
  let s := putPage s part (base + 0xC00000) (statePage s b) (stateTags s b)
  let s := [1, 2, 3].foldl (fun s i => putPage s part (base + 0xC00000 + 65536 * i) (bytesOf 65536 0) []) s
  let kept : SavedBerth := ⟨part, ks.map fun k => (k, keptCore (coreOf s k)), y.chans.map (fun q => (q.1, q.2.map fun c => { c with owned := [] })),
    s.phases.filter fun e => inWindows b e.1, []⟩
  let s := { s with phases := s.phases.filter fun e => !inWindows b e.1 }
  let s := ks.foldl (fun s k => setCore s k (vacatedCore (coreOf s k))) s
  setBerth s b { berthOf s b with
    runs := none
    saved := kept :: y.saved.filter fun x => x.part != part
    imaged := setInsert y.imaged part
    wDirty := []
    chans := []
    sliceEnd := none
    reservedFor := none }

/-! ### Restoring a berth -/

/-- Numbers in the bytes of a page. -/
def pageNat (bs : List Byte) (o n : Nat) : Nat := natOfBytes ((bs.drop o).take n)
def pageDbl (bs : List Byte) (o : Nat) : Dbl := BitVec.ofNat 64 (pageNat bs o 8)
def pageCap (bs : List Byte) (tags : List Nat) (o : Nat) : Cap := ⟨BitVec.ofNat 256 (pageNat bs o 32), tags.contains o⟩

/-- R51, R54: an inbound queue from its saved values, then what was pushed while it was saved. An entry that a request reserved waits
on or has the value that came meanwhile, and one that held an error still does. -/
def linkFrom (bs : List Byte) (old : List LinkEntry) (o size n : Nat) : List LinkEntry :=
  let one := fun (i : Nat) => match old[i]? with
    | some (.bad l d) => LinkEntry.bad l d
    | some (.reserved id) => .reserved id
    | some (.flying v) => .ready v
    | some .gone => .gone
    | _ => .ready (BitVec.ofNat 128 (pageNat bs (o + size * i) size))
  ((List.range (min 4 n)).map one ++ old.drop n).filter (· != .gone)

/-- R288, R314: a boom slot; what the area does not hold is as it was saved. -/
def boomFrom (bs : List Byte) (old : Boom) (o : Nat) : Boom :=
  let a := pageDbl bs o
  let b := pageDbl bs (o + 8)
  { old with
    rect := BitVec.ofNat 18 (fieldOf a 0 18)
    utag := BitVec.ofNat 16 (fieldOf a 32 16)
    ch := BitVec.ofNat 4 (fieldOf a 48 4)
    gen := BitVec.ofNat 16 (fieldOf b 0 16)
    arrived := b.getLsbD 16
    held := b.getLsbD 17 }

/-- R314: a saved inbox entry; its origin and kind are as saved. -/
def flightFrom (bs : List Byte) (tags : List Nat) (part : Nat) (old : Option Flight) (o : Nat) : Flight :=
  let h := pageDbl bs o
  let f := old.getD ⟨0, [], Cap.null, part, .other, .berth 0, 0, none, none, false, 0, 0⟩
  let n := if hdrCapword h then 3 else hdrN h
  { f with
    header := h
    words := (List.range n).map fun i => pageDbl bs (o + 8 + 8 * i)
    cap := if hdrCapword h then pageCap bs tags (o + 32) else Cap.null }

/-- R317: a context's transfer numbering. -/
def xferFrom (bs : List Byte) (old : Xfer) (set_ : Nat) : Xfer :=
  let n := 0xB000 + 128 * set_
  let o := 0xC000 + 32 * set_
  { old with
    next := BitVec.ofNat 16 (pageNat bs o 2)
    count := BitVec.ofNat 16 (pageNat bs (o + 2) 2)
    frec := if (pageDbl bs (o + 24)).getLsbD 0 then some (pageDbl bs (o + 8), pageDbl bs (o + 16)) else none
    notes := (List.range 8).filterMap fun i =>
      if (pageDbl bs (n + 16 * i + 8)).getLsbD 0 then some (pageDbl bs (n + 16 * i)) else none }

/-- R317: a context of core i as saved, with its numbering from the area and an epoch of its own. -/
def ctxFrom (bs : List Byte) (old : Ctx) (i c epoch : Nat) : Ctx :=
  { old with
    epoch := epoch
    xf0 := xferFrom bs old.xf0 (8 * i + 2 * c)
    xf1 := xferFrom bs old.xf1 (8 * i + 2 * c + 1) }

/-- R313, R314, R317: core i of a berth from the area and from what the save kept; `live` is the core as it stands. -/
def coreFrom (bs : List Byte) (tags : List Nat) (part : Nat) (live old : Core) (i : Nat) : Core :=
  let o := 4096 * i
  let occ := pageDbl bs (o + 0x180)
  let n := fieldOf (pageDbl bs (o + 0x480)) 0 32
  { old with
    ctxs := (List.range 4).map fun c => (c, ctxFrom bs (tabGet Ctx.reset old.ctxs c) i c ((tabGet Ctx.reset live.ctxs c).epoch + 1))
    links := (List.range 4).flatMap (fun d => [(d, linkFrom bs (tabGet [] old.links d) (o + 96 * d) 8 (fieldOf occ (4 * d) 4))]) ++
      (List.range 4).map (fun d =>
        (4 + d, linkFrom bs (tabGet [] old.links (4 + d)) (o + 96 * d + 32) 16 (fieldOf occ (16 + 4 * d) 4)))
    inbox := (List.range (min 32 (fieldOf occ 32 6))).map fun j => flightFrom bs tags part old.inbox[j]? (0x4000 + 2048 * i + 64 * j)
    chmask := BitVec.ofNat 16 (fieldOf (pageDbl bs (o + 0x188)) 0 16)
    chprio := BitVec.ofNat 32 (fieldOf (pageDbl bs (o + 0x190)) 0 32)
    drop := BitVec.ofNat 32 (fieldOf (pageDbl bs (o + 0x198)) 0 32)
    boom := (List.range 4).map fun j => (j, boomFrom bs (tabGet Boom.reset old.boom j) (o + 0x200 + 32 * j))
    obs := ((List.range 8).map fun j => (0x100 + j, BitVec.ofNat 64 (fieldOf (pageDbl bs (o + 0x280 + 8 * j)) 0 48))) ++
      ((List.range 8).map fun j => (0x108 + j, selectorOf (pageDbl bs (o + 0x2C0 + 8 * j)))) ++
      ((List.range 32).map fun j => (0x140 + j, pageDbl bs (o + 0x300 + 8 * j))) ++
      ((List.range 16).map fun j => (0x160 + j, pageDbl bs (o + 0x400 + 8 * j)))
    freeList := ((List.range (min 128 n)).map fun j => pageNat bs (o + 0x488 + 4 * j) 4).reverse
    since := []
    lastSel := []
    reserved := []
    refused := []
    icache := sharedLines live.icache
    itail := live.itail
    spill := live.spill
    preempted := true }

/-- R313, R317: a copy from its slot; what the slot does not hold is as saved. -/
def copyFrom (bs : List Byte) (tags : List Nat) (old : Copy) (o : Nat) : Copy :=
  let w := pageDbl bs (o + 120)
  { old with
    src := pageCap bs tags o
    dst := pageCap bs tags (o + 32)
    aux := pageCap bs tags (o + 64)
    ctl := pageDbl bs (o + 96)
    mask := maskBerths (pageDbl bs (o + 104)) (pageDbl bs (o + 112))
    id := BitVec.ofNat 16 (fieldOf w 0 16)
    ctx := fieldOf w 16 2
    count := pageNat bs (o + 128) 8 }

/-- R123, R128, R349: a parked context whose fault was answered while it could not move goes on. -/
def takeAnswer (s : State) (k c : Nat) : State :=
  match (ctxOf s k c).mode with
  | .parked (.answered deny) => if (coreOf s k).preempted || (berthOf s (coreBerth k)).dbg.halted then s else if deny then denyCtx s k c else resume s k c
  | _ => s

/-- R123, R317, R349: a context of a resumed core goes on: one that was pre-empted from its record, one that was answered while
saved by its answer. -/
def thawCtx (s : State) (k c : Nat) : State :=
  match (ctxOf s k c).mode with
  | .running => resume s k c
  | _ => takeAnswer s k c

/-- R46, R317: a pre-empted core runs again. Its channels' last selections are those it had, since only a restoration of the berth resets
them (R32) (DESIGN CHOICE: log entry 43). -/
def thawCore (s : State) (k : Nat) : State :=
  if (coreOf s k).preempted then
    let s := (List.range 4).foldl (fun s c => thawCtx s k c) (setCore s k { coreOf s k with preempted := false })
    refreshSince s k
  else s

/-- R317, R241: the copies of a channel take their lines again, but for one that is still parked. -/
def retakeChan (s : State) (b ch : Nat) : State :=
  let s := requeueChan s b ch
  let (q, s) := (chanOf s b ch).foldl (fun (acc : List Copy × State) c =>
    if c.parked.isSome then (acc.1 ++ [c], acc.2)
    else if usesList c.fn.toNat && c.list.isNone then (acc.1 ++ [{ c with running := false }], acc.2)
    else
      let (c, s) := takeLines acc.2 b c
      (acc.1 ++ [c], s)) ([], s)
  setChan s b ch q

/-- R317, R241: the copies of a berth take their lines again. -/
def retakeLines (s : State) (b : Nat) : State := (List.range 8).foldl (fun s ch => retakeChan s b ch) s

/-- R29, R315: a core whose group was discarded while it was saved: its channels are unbound, and it holds nothing of the group. -/
def settleFreed (s : State) (e : Nat × List Nat) : State :=
  let c := e.2.foldl unbindChannel (coreOf s e.1)
  setCore s e.1 { c with
    boom := []
    freeList := []
    inbox := c.inbox.filter fun f => !e.2.contains (hdrCh f.header) }

/-- R317 steps 1 to 4: a saved berth resumes its partition (DEDUCED: log entry 43). -/
def restoreBerth (s : State) (b : Nat) (x : SavedBerth) : State :=
  let part := x.part
  let base := saveBase s part b
  let s := (berthPages b ++ (List.range 128).map (wPage b)).foldl (fun s e => pageIn s part (base + e.1) e.2) s
  let s := { s with phases := x.phases.foldl (fun t e => tabPut t e.1 e.2) s.phases }
  let (bs, tags) := getPage s part (base + 0xC00000)
  let s := x.cores.foldl (fun s e => setCore s e.1 (coreFrom bs tags part (coreOf s e.1) e.2 (e.1 % 4))) s
  let s := x.freed.foldl settleFreed s
  let chans := x.chans.map fun q => (q.1, q.2.zipIdx.map fun e => copyFrom bs tags e.1 (0x6000 + 2560 * q.1 + 160 * e.2))
  let s := setBerth s b { berthOf s b with
    runs := some part
    holds := some part
    saved := (berthOf s b).saved.filter fun y => y.part != part
    wDirty := []
    chans := chans }
  (List.range 4).foldl (fun s i => thawCore s (4 * b + i)) (retakeLines s b)

/-! ### Resumption -/

/-- R310: a sliced berth that takes part in the schedule (DEDUCED: log entry 33). -/
def isSliced (s : State) (b : Nat) : Bool :=
  let o := (berthOf s b).owner
  o.getLsbD 7 && !o.getLsbD 6 && (quayOf s (berthQuay b)).mode == .up
def slicedBerths (s : State) : List Nat := (List.range 128).filter (isSliced s)

/-- R310: the next valid entry in ascending order, wrapping. -/
def nextEntry (s : State) : Option Nat :=
  ((List.range 16).map fun i => (s.glob.lastSlice + 1 + i) % 16).find? fun i => tsValid (tabGet 0 s.glob.tsEnt i)

/-- R310: between slices: no slice runs, or its end is carried out and every berth has reported it done. -/
def betweenSlices (s : State) : Bool :=
  (s.glob.slice.isNone || s.glob.sliceEnding) && (slicedBerths s).all fun b => (berthOf s b).sliceEnd.isNone

/-- R46, R317 step 5: spilled messages follow the saved inbox entries while the inbox has room. -/
def drainSpill (k part : Nat) : Nat → Act Unit
  | 0 => pure ()
  | fuel + 1 => do
    let s ← get
    let c := coreOf s k
    match tabGet [] c.spill part with
    | [] => pure ()
    | f :: r =>
      let t := setCore s k { c with spill := if r.isEmpty then tabErase c.spill part else tabPut c.spill part r }
      match tabFind? c.bind (hdrCh f.header) with
      | none => do
        set (undeliverable t f (some k))
        drainSpill k part fuel
      | some b =>
        if b.part ≠ f.part ∨ (handlerOf s b f).isNone then do
          set (undeliverable t f (some k))
          drainSpill k part fuel
        else if inboxRoom (inboxOf s k) (hdrVn f.header) then do
          set t
          logArrival k f
          modify fun s => refreshSince (setCore s k { coreOf s k with inbox := (coreOf s k).inbox ++ [f] }) k
          drainSpill k part fuel
        else pure ()

/-- R317 step 5 for the cores of a berth. -/
def drainBerth (b : Nat) : Act Unit := do
  match berthPart (← get) b with
  | none => pure ()
  | some part => each (fun i => drainSpill (4 * b + i) part 4096) (List.range 4)

/-- Whether a message waits in a spill queue of a berth for the partition that runs. -/
def spillWaits (s : State) (b : Nat) : Bool :=
  match berthPart s b with
  | none => false
  | some part => (List.range 4).any fun i => !(tabGet [] (coreOf s (4 * b + i)).spill part).isEmpty

/-! ### The commands of `tret` and `tdrop` -/

/-- R353: the fields of a handle. -/
def handleCore (h : Dbl) : Nat := fieldOf h 0 9
def handleCtx (h : Dbl) : Nat := fieldOf h 9 2
def handleSeq (h : Dbl) : Nat := fieldOf h 16 16

/-- R353: whether a core runs a partition, and whether it holds it saved. -/
def coreRuns (s : State) (k part : Nat) : Bool :=
  berthPart s (coreBerth k) == some part && !(coreOf s k).preempted && (quayOf s (coreQuay k)).mode == .up
def coreHolds (s : State) (k part : Nat) : Bool :=
  (quayOf s (coreQuay k)).mode == .up && ((berthPart s (coreBerth k) == some part && (coreOf s k).preempted) ||
    (berthOf s (coreBerth k)).saved.any fun x => x.part == part)

/-- R353: the status of a command at a core that runs its partition. `otype` is the issuer's compartment. -/
def commandStatus (s : State) (h : Dbl) (otype : Nat) (drop : Bool) : Nat :=
  let k := handleCore h
  let c := handleCtx h
  let x := ctxOf s k c
  if x.mode ≠ .trapped ∨ x.seq.toNat ≠ handleSeq h then 1
  else if otype ≠ otypeOf x then 4
  else if !drop && (recordRefused s (recordBase k c)).isSome then 6
  else 0

/-- R204: the saved lease request of a discarded context is withdrawn; a link port it reserved is answered. -/
def discardLease (s : State) (k c : Nat) (x : Ctx) : State :=
  match x.leaseDst with
  | some (.port dir vec, id) => fillLease s k c (some (.port dir vec, id)) 4
  | _ => s

/-- R353, R204, R338: a task is discarded, its saved lease request with it. -/
def dropTask (s : State) (k c : Nat) : State :=
  let s := discardLease s k c (ctxOf s k c)
  finishTask (if (ctxOf s k c).netTask.isSome then release s (coreBerth k) 4 else s) k c

/-- R353, R370: serves a command; `drop` says which. One for a halted berth waits. -/
def serveCommand (req : Nat) (isDrop : Bool) : Act Unit := do
  let r ← reqOf req
  match r.body with
  | .resume h drop => do
    let s ← get
    let k := handleCore h
    need (drop == isDrop && r.reply.isNone && !crossingHeld s r.part (coreQuay r.core) (coreQuay k))
    let answered := fun (s : State) (v : Nat) => { s with reqs := tabPut s.reqs req { r with reply := some (.value (BitVec.ofNat 64 v)) } }
    let earlier := s.reqs.any fun e => e.1 < req && e.2.held && e.2.reply.isNone && e.2.part == r.part && (match e.2.body with
      | .resume g _ => handleCore g == k
      | _ => false)
    if coreRuns s k r.part then do
      need (!earlier && !(berthOf s (coreBerth k)).dbg.halted)
      let st := commandStatus s h r.addr.toNat drop
      let done := fun (s : State) => if r.held then { s with reqs := tabErase s.reqs req } else answered s st
      if st = 0 then do
        need (!drop || (ctxOf s k (handleCtx h)).netTask.isNone || releaseReady s (coreBerth k) 4)
        set (done (if drop then dropTask s k (handleCtx h) else resume s k (handleCtx h)))
      else set (done (if r.held then countDrop s r.part (some k) else s))
    else do
      need (!r.held)
      let held := coreHolds s k r.part
      set (answered s (if held then 5 else 2))
      if held then modify fun s => { s with reqs := tabPut s.reqs req { r with reply := some (.value 5), held := true } } else pure ()
  | _ => halt .disabled

/-- R353. The named core checks a `tret` command and resumes the context. -/
def execTretCommandServe (req : Nat) (s : State) : Outcome :=
  runEvent (serveCommand req false) s

/-- R353. The named core checks a `tdrop` command and ends the task. -/
def execTdropCommandServe (req : Nat) (s : State) : Outcome :=
  runEvent (serveCommand req true) s

/-- R353. The status fills the issuer's register; a command that waits at a saved core stays. -/
def execTretStatusDelivery (req : Nat) (s : State) : Outcome :=
  runEvent (do
    let r ← reqOf req
    match r.body, r.reply with
    | .resume _ _, some y => do
      dropReq req
      modify fun s => fillReply s r req y
      if r.held then modify fun s => { s with reqs := tabPut s.reqs req { r with reply := none, dst := .none, door := 3 } } else pure ()
    | _, _ => halt .disabled) s

end Sys2Proof.Machine
end

