-- ==== Sys2Proof/Machine/Retire.lean ====
section
/-!
DEFINITION. The retirement of groups and the completion of launches (R43, R307, R308), the discard of a group (R315), and the
deadline of a launch.
-/
namespace Sys2Proof.Machine

open Sys2Proof

/-- R43: whether a task of a launch runs or is trapped on a core. -/
def taskOf (c : Core) (id : Nat) : Bool := c.ctxs.any fun e => e.2.mode != .free && e.2.launch == id

/-- R43: whether a lighter still holds a copy that a task of a launch commanded from a core. -/
def copyOf (s : State) (k id : Nat) : Bool :=
  (berthOf s (coreBerth k)).chans.any fun e => e.2.any fun c => c.core == k && c.launch == id

/-- R29: the channels of a core that are bound for a launch. -/
def groupChannels (c : Core) (id : Nat) : List Nat := (c.bind.filter fun e => e.2.launch == id).map (·.1)

/-- R29, R43: the bindings of a launch leave a core, with the masks and priorities of their channels. -/
def unbindGroup (c : Core) (id : Nat) : Core := (groupChannels c id).foldl unbindChannel c

/-- R31, R43: the inbox entries of unbound channels become undeliverable. -/
def flushInbox (s : State) (k : Nat) : State :=
  let c := coreOf s k
  let dead := fun (f : Flight) => (tabFind? c.bind (hdrCh f.header)).isNone
  (c.inbox.filter dead).foldl (fun s f => undeliverable s f (some k))
    (setCore s k { c with inbox := c.inbox.filter fun f => !dead f })

/-- R43, R288, R329: a core is free again. -/
def freeCore (s : State) (id k : Nat) : State :=
  let s := returnFreeList s k
  let c := unbindGroup (coreOf s k) id
  let s := setCore s k { c with place := none, gdone := false, kstage := 0, kgroup := 0, boom := [] }
  refreshSince (flushInbox s k) k

/-- R307: the window base past every retired group, with the bits left above it. -/
def advanceBase (bits : List Nat) : Nat → Nat → Nat × List Nat
  | 0, b => (b, bits)
  | fuel + 1, b => if bits.contains b then advanceBase (bits.erase b) fuel (b + 1) else (b, bits)

/-- R311: the average group duration after one more. -/
def nextAvg (avg : Option Nat) (t : Nat) : Nat :=
  match avg with
  | none => t
  | some a => ((a : Int) + ((t : Int) - a) / 8).toNat

/-- R308: the message of a launch that has completed. -/
def launchNote (id : Nat) (l : Launch) : Flight :=
  let q := l.home
  ⟨header 0 0 (lnClass l) 0 0 (256 * q) 0 2 1 (fieldOf l.d3 41 4) (fieldOf l.d3 32 9),
    [BitVec.ofNat 64 (id + boolBit l.failed * 2 ^ 8 + (if l.failed then 0x1E else 0) * 2 ^ 16), BitVec.ofNat 64 l.retired],
    Cap.null, l.part, .other, .harbour q, 256 * q, none, none, false, 0, 0⟩

/-- R308, R309: a launch completes when all its groups have retired, or when it has failed and none is left running. -/
def completeLaunch (s : State) (id : Nat) : State :=
  match tabFind? s.launches id with
  | none => s
  | some l =>
    if l.retired = lnTotal l ∨ (l.failed ∧ l.placed.isEmpty) then
      let s := unreserve { s with launches := tabErase s.launches id } fun r => r.1 == id
      if l.d3.getLsbD 45 then post s (launchNote id l) else raisePart s l.part 3
    else s

/-- R306, R307: the groups that a retirement makes ready, its successors and those that the window reaches, wait from now on. -/
def readyAnew (now : Nat) (before after : Launch) (idx : Nat) : Launch :=
  let g := groupAt after idx
  let successors := (List.range (lnNvec after)).map (fun i => addCoord g (vectorOf after (i + 1))) |>.filter (insideGrid after)
  let reached := (List.range (min (lnTotal after) (after.base + 65536) - (before.base + 65536))).map (before.base + 65536 + ·)
  let fresh := (successors.map (sweepIndex after) ++ reached).filter fun i => groupReady after i && !groupReady before i
  { after with readySince := fresh.foldl (fun t i => tabPut t i now) after.readySince }

/-- R307, R308: a group's retirement as the scoreboard records it. -/
def retireGroup (s : State) (id : Nat) (l : Launch) (p : Placed) : State :=
  let s := p.cores.foldl (fun s k => release s (coreBerth k) 4) s
  let s := p.cores.foldl (fun s k => freeCore s id k) s
  let l := (tabFind? s.launches id).getD l
  let bits := setInsert l.bits p.idx
  let (base, bits) := advanceBase bits (bits.length + 1) l.base
  let l := readyAnew s.clk l { l with
    base := base
    bits := bits
    placed := l.placed.erase p
    retired := l.retired + 1
    avg := some (nextAvg l.avg (s.clk - p.at_)) } p.idx
  completeLaunch (releasePending (setLaunch s id l)) id

/-- R311: the groups that run on a berth, with their launches. -/
def groupsOn (s : State) (b : Nat) : List (Nat × Launch × Placed) :=
  s.launches.flatMap fun e => (e.2.placed.filter fun p => p.cores.any fun k => coreBerth k == b &&
    (coreOf s k).place.map (fun y => (y.seq, y.idx)) == some (e.2.seqNo, p.idx)).map fun p => (e.1, e.2, p)

/-- R312: a draining berth without a group saves what remains. -/
def drainComplete (s : State) (b : Nat) : State :=
  match (berthOf s b).sliceEnd, (berthOf s b).runs with
  | some e, some part => if e.draining && (groupsOn s b).isEmpty && saveReady s part b then saveBerth s part b else s
  | _, _ => s

/-- R308. The deadline of a launch passes: its source is raised once. -/
def execLaunchDeadlineExpiry (launch : Nat) (s : State) : Outcome :=
  runEvent (do
    let s ← get
    let l ← needSome (tabFind? s.launches launch)
    need (l.dlLeft != 0 && !l.deadlineRaised && l.acceptedAt + l.dlLeft * clkPerUs ≤ s.clk)
    set (raisePart (setLaunch s launch { l with deadlineRaised := true }) l.part 4)) s

/-! ### Discard -/

/-- R315: a core's tasks of a launch end as by `tdrop`. -/
def endTasks (s : State) (k id : Nat) : State :=
  (List.range 4).foldl (fun s c =>
    if (ctxOf s k c).mode ≠ .free ∧ (ctxOf s k c).launch = id then dropTask s k c else s) s

/-- R315: the copies that tasks of a launch commanded from a core are gone, with their notes and without a fault record. -/
def dropCopies (s : State) (k id : Nat) : State :=
  let gone := fun (c : Copy) => c.core == k && c.launch == id
  let b := coreBerth k
  let s := (List.range 8).foldl (fun s ch =>
    ((chanOf s b ch).filter gone).foldl (fun s c =>
      let x := ctxOf s c.core c.ctx
      let f := xferOf x (ch % 2)
      setCtx s c.core c.ctx (setXfer x (ch % 2) { f with count := c.id, notes := f.notes.filter fun n => noteId n != c.id })) s) s
  (List.range 8).foldl (fun s ch => setChan s b ch ((chanOf s b ch).filter fun c => !gone c)) s

/-- R314: the net free list of a core as the save area of a partition holds it. -/
def savedList (s : State) (part k : Nat) : List Nat :=
  let (bs, _) := getPage s part (saveBase s part (coreBerth k) + 0xC00000)
  let o := 4096 * (k % 4) + 0x480
  ((List.range (min 128 (pageNat bs o 4))).map fun j => pageNat bs (o + 8 + 4 * j) 4).reverse

/-- R35, R204: what the saved contexts of a launch on a core reserved is given up. -/
def discardReserved (s : State) (k id : Nat) (c : Core) : State :=
  (List.range 4).foldl (fun s i =>
    let x := tabGet Ctx.reset c.ctxs i
    if x.mode ≠ .free ∧ x.launch = id then discardSfu (discardLease s k i x) k x else s) s

/-- R29, R31, R315: what a partition's save keeps of a discarded group's core. Its free list returns to the pool, and its inbox entries become
undeliverable, now; the masks and priorities in the save area return to 0 when the berth is restored. -/
def discardSaved (s : State) (part id k : Nat) : State :=
  let b := coreBerth k
  let c := savedCore s part k
  let chs := groupChannels c id
  let s := if (berthOf s b).saved.any fun x => x.part == part then returnNodes s k c.freeLaunch (savedList s part k) else s
  let s := (c.inbox.filter fun f => chs.contains (hdrCh f.header)).foldl (fun s f => undeliverable s f (some k)) s
  let s := discardReserved s k id c
  let empty := fun (x : Ctx) => if x.launch = id then
      { Ctx.reset with nonce := x.nonce, seq := x.seq, xf0 := x.xf0, xf1 := x.xf1, epoch := x.epoch, reqNum := x.reqNum }
    else x
  let one := fun (e : Nat × Core) => if e.1 = k then
      (k, { unbindGroup e.2 id with
        ctxs := e.2.ctxs.map fun c => (c.1, empty c.2)
        place := none
        gdone := false
        kstage := 0
        kgroup := 0
        boom := [] })
    else e
  setBerth s b { berthOf s b with saved := (berthOf s b).saved.map fun x =>
    if x.part = part then
      { x with
        cores := x.cores.map one
        chans := x.chans.map fun q => (q.1, q.2.filter fun c => !(c.core == k && c.launch == id))
        freed := x.freed ++ [(k, chs)] }
    else x }

/-- R308, R315: a group is discarded: its tasks and copies end, its cores are free, and its placement generation advances. -/
def discardGroup (s : State) (id : Nat) (l : Launch) (p : Placed) : State :=
  let here_ := fun (s : State) (k : Nat) => (coreOf s k).place.map (fun y => (y.seq, y.idx)) == some (l.seqNo, p.idx)
  let s := p.cores.foldl (fun s k =>
    if here_ s k then freeCore (dropCopies (endTasks s k id) k id) id k else discardSaved s l.part id k) s
  let l := (tabFind? s.launches id).getD l
  setLaunch s id { l with placed := l.placed.erase p, gens := tabPut l.gens p.idx (p.gen + 1), readySince := tabPut l.readySince p.idx s.clk }

end Sys2Proof.Machine
end

