-- ==== Sys2Proof/Machine/Slices.lean ====
section
/-!
DEFINITION. Time slices (R310 to R312, R316): the master's schedule, what a berth does at a slice end, and the launches of a
partition that no berth runs.
-/
namespace Sys2Proof.Machine

open Sys2Proof

/-! ### Renaming launches -/

/-- A launch under a new name: its acceptance number, its old name, its new name. -/
structure Rename where
  seq : Nat
  old : Nat
  new : Nat
  deriving DecidableEq, Repr

def renId (r : List Rename) (id : Nat) : Nat :=
  match r.find? fun e => e.old == id with
  | some e => e.new
  | none => id

/-- A placement names its launch by its acceptance too. -/
def renPlace (r : List Rename) (p : Place) : Place :=
  match r.find? fun e => e.seq == p.seq with
  | some e => { p with launch := e.new }
  | none => p

def renFlight (r : List Rename) (part : Nat) (f : Flight) : Flight :=
  if f.part = part then { f with place := f.place.map (renPlace r), net := f.net.map (renId r) } else f

def renCtx (r : List Rename) (part : Nat) (x : Ctx) : Ctx :=
  if x.part = part then { x with launch := renId r x.launch, netTask := x.netTask.map (renId r) } else x

def renBinding (r : List Rename) (part : Nat) (b : Binding) : Binding :=
  if b.part = part then { b with launch := renId r b.launch } else b

def renCopy (r : List Rename) (part : Nat) (c : Copy) : Copy := if c.part = part then { c with launch := renId r c.launch } else c

def renPair (r : List Rename) (part : Nat) (p : Pair) : Pair := if p.part = part then { p with launch := renId r p.launch } else p

def renRec (r : List Rename) (x : TaskRec) : TaskRec := { x with place := x.place.map (renPlace r) }

def renCore (r : List Rename) (part : Nat) (k : Core) : Core :=
  let mine := match k.place with
    | some p => r.any fun e => e.seq == p.seq
    | none => false
  { k with
    ctxs := k.ctxs.map fun e => (e.1, renCtx r part e.2)
    inbox := k.inbox.map (renFlight r part)
    sendq := k.sendq.map fun e => (e.1, e.2.map (renFlight r part))
    spill := k.spill.map fun e => (e.1, e.2.map (renFlight r part))
    bind := k.bind.map fun e => (e.1, renBinding r part e.2)
    freeLaunch := if mine then renId r k.freeLaunch else k.freeLaunch
    place := k.place.map (renPlace r) }

def renCont (r : List Rename) (part : Nat) (c : Cont) : Cont := { c with flight := renFlight r part c.flight }

def renSaved (r : List Rename) (part : Nat) (x : SavedBerth) : SavedBerth :=
  if x.part = part then
    { x with
      cores := x.cores.map fun e => (e.1, renCore r part e.2)
      chans := x.chans.map fun q => (q.1, q.2.map (renCopy r part))
      phases := x.phases.map fun q => (q.1, q.2.map (renCont r part)) }
  else x

def renBerth (r : List Rename) (part : Nat) (b : Berth) : Berth :=
  { b with
    saved := b.saved.map (renSaved r part)
    chans := b.chans.map fun q => (q.1, q.2.map (renCopy r part))
    bag := b.bag.map (renPair r part) }

def renSlice (r : List Rename) (part : Nat) (sl : Slice) : Slice :=
  { sl with
    seg := sl.seg.map (renRec r)
    rings := sl.rings.map fun e => (e.1, e.2.map (renRec r))
    pairs := sl.pairs.map (renPair r part)
    pairRings := sl.pairRings.map fun e => (e.1, e.2.map (renPair r part)) }

def renReq (r : List Rename) (q : Req) : Req :=
  match q.body with
  | .enq g n place => { q with body := .enq g n (place.map (renPlace r)) }
  | _ => q

/-- R316: a launch that leaves its slot, or takes another, keeps everything that refers to it (DEDUCED: log entry 35). -/
def renameLaunches (s : State) (part : Nat) (r : List Rename) : State :=
  { s with
    cores := s.cores.map fun e => (e.1, renCore r part e.2)
    berths := s.berths.map fun e => (e.1, renBerth r part e.2)
    slices := s.slices.map fun e => (e.1, renSlice r part e.2)
    quays := s.quays.map fun e => (e.1, { e.2 with pending := e.2.pending.map (renFlight r part), ring := e.2.ring.map (renFlight r part) })
    mesh := s.mesh.map (renFlight r part)
    reqs := s.reqs.map fun e => (e.1, renReq r e.2)
    phases := s.phases.map fun e => (e.1, e.2.map (renCont r part))
    glob := { s.glob with overflow := s.glob.overflow.map fun o => { o with pair := renPair r part o.pair } } }

/-! ### Suspended launches -/

/-- R314: where the launch blocks start, and the page and place of one; four blocks share a page. -/
def blockPage (s : State) (part j : Nat) : Nat := fieldOf (partOf s part).peSave 16 32 * 65536 + 0x62000000 + 65536 * (j / 4)

/-- R310: the deadline time that a launch in a slot has left, in µs (DEDUCED: log entry 35). -/
def deadlineLeft (s : State) (l : Launch) : Nat :=
  if l.dlLeft = 0 then 0 else max 1 (l.dlLeft - (s.clk - l.acceptedAt) / clkPerUs)

/-- R314: a launch block. -/
def blockBytes (id : Nat) (l : Launch) : List Byte :=
  dblBytes l.d0 ++ dblBytes l.d1 ++ dblBytes l.d2 ++ dblBytes l.d3 ++ capBytes l.root ++ bytesOf 8 (id + 2 ^ 8) ++ bytesOf 8 l.base ++
    bytesOf 8 l.retired ++ bytesOf 8 (l.avg.getD (2 ^ 64 - 1)) ++ bytesOf 8 l.dlLeft ++ bytesOf 8088 0 ++
    bytesOf 8192 ((l.bits.map fun i => 2 ^ (i - l.base)).sum)

/-- R316: the pages that hold the suspended launches of a partition. -/
def writeBlocks (s : State) (part : Nat) (ls : List (Nat × Nat × Launch)) : State :=
  (List.range ((ls.length + 3) / 4)).foldl (fun s g =>
    let four := (ls.drop (4 * g)).take 4
    let tags := (List.range 4).flatMap fun i => match four[i]? with
      | some e => if e.2.2.root.tag then [0x4000 * i + 0x20] else []
      | none => []
    putPage s part (blockPage s part (4 * g)) (padTo 65536 (four.flatMap fun e => blockBytes e.1 e.2.2)) tags) s

/-- R316: a launch as its block holds it; what the block does not hold is as it was suspended. -/
def launchFrom (s : State) (part block : Nat) (l : Launch) : Launch :=
  let (pg, tags) := getPage s part (blockPage s part block)
  let o := 0x4000 * (block % 4)
  let avg := pageNat pg (o + 0x58) 8
  let base := pageNat pg (o + 0x48) 8
  let map_ := (pg.drop (o + 0x2000)).take 8192
  { l with
    d0 := pageDbl pg o
    d1 := pageDbl pg (o + 8)
    d2 := pageDbl pg (o + 16)
    d3 := pageDbl pg (o + 24)
    root := pageCap pg tags (o + 0x20)
    base := base
    retired := pageNat pg (o + 0x50) 8
    avg := if avg = 2 ^ 64 - 1 then none else some avg
    dlLeft := pageNat pg (o + 0x60) 8
    acceptedAt := s.clk
    readySince := []
    bits := map_.zipIdx.flatMap fun e => ((List.range 8).filter fun i => e.1.getLsbD i).map fun i => base + 8 * e.2 + i }

/-- R316: the slot a returning launch takes: the lowest free one of its own quay, else of the other. -/
def freeSlot (s : State) (quay : Nat) : Option Nat :=
  (((List.range 32).map (32 * quay + ·)) ++ (List.range 32).map (32 * (1 - quay) + ·)).find? fun i => (tabFind? s.launches i).isNone

/-- R310: whether a slice of a partition is being run or begun. -/
def partRuns (s : State) (part : Nat) : Bool := (List.range 128).any fun b => berthPart s b == some part

/-- R316: suspended launches return to free slots in their order of acceptance (one that a fence has failed may complete at once); one that finds none raises the overrun source (DEDUCED: log entry 35). -/
def returnLaunches (part : Nat) : List (Nat × Nat × Launch) → State → State
  | [], s => s
  | e :: r, s =>
    match freeSlot s (e.1 / 32) with
    | some i =>
      let l := { launchFrom s part e.2.1 e.2.2 with home := livingQuay s (i / 32) }
      let p := partOf s part
      let s := setPart s part { p with suspended := p.suspended.filter fun x => x.2.2.seqNo != e.2.2.seqNo }
      returnLaunches part r (completeLaunch (renameLaunches (setLaunch s i l) part [⟨l.seqNo, 128 + l.seqNo, i⟩]) i)
    | none => raisePart s part 12

def restoreLaunches (s : State) (part : Nat) : State :=
  if partRuns s part then returnLaunches part (partOf s part).suspended s else s

/-- R316: whether any partition's launches wait for a slot. -/
def restoreWaiting (s : State) : State := (List.range 16).foldl restoreLaunches s

/-- R316: whether no berth is left running a partition. -/
def partitionIdle (s : State) (part : Nat) : Bool :=
  !partRuns s part && (List.range 128).any fun b => slicedFor s b part

/-- R316. The launches of a partition that no berth runs are written to launch blocks, and their slots are freed. -/
def execLaunchSuspend (part : Nat) (s : State) : Outcome :=
  runEvent (do
    let s ← get
    let mine := s.launches.filter fun e => e.2.part == part
    need (partitionIdle s part && !mine.isEmpty)
    let stopped := mine.map fun e => (e.1, { e.2 with dlLeft := deadlineLeft s e.2, acceptedAt := s.clk })
    let held := (((partOf s part).suspended.map fun e => (e.1, e.2.2)) ++ stopped).mergeSort fun a b => a.2.seqNo ≤ b.2.seqNo
    let all := held.zipIdx.map fun e => (e.1.1, e.2, e.1.2)
    need (areaReady s part (blockPage s part 0) ((all.length + 3) / 4))
    let s := writeBlocks s part all
    let s := setPart s part { partOf s part with suspended := all }
    let s := { s with launches := s.launches.filter fun e => e.2.part != part }
    set (restoreWaiting (renameLaunches s part (mine.map fun e => ⟨e.2.seqNo, e.1, 128 + e.2.seqNo⟩)))) s

/-! ### The schedule -/

/-- R317, R46. A berth resumes: all its pre-empted cores at once (DESIGN CHOICE: log entry 43), the next partition of its schedule, or its spill queues. -/
def execCoreResumption (berth : Nat) (s : State) : Outcome :=
  runEvent (do
    let s ← get
    if (List.range 4).any fun i => (coreOf s (4 * berth + i)).preempted then do
      set ((List.range 4).foldl (fun s i => thawCore s (4 * berth + i)) s)
      drainBerth berth
    else if isSliced s berth && (berthOf s berth).runs.isNone then do
      need (betweenSlices s)
      let e ← needSome (nextEntry s)
      let part := tsPart (tabGet 0 s.glob.tsEnt e)
      match (berthOf s berth).saved.find? fun x => x.part == part with
      | none => do
        let s := giveBerth s berth part
        set (setBerth s berth { berthOf s berth with runs := some part })
      | some x => do
        need (areaReady s part (saveBase s part berth) 193)
        set (restoreBerth (if (berthOf s berth).holds = some part then s else clearBerth s berth) berth x)
      modify fun s => restoreLaunches s part
      drainBerth berth
    else do
      need (spillWaits s berth)
      drainBerth berth) s

/-- R391: groups of a partition that were discarded in an earlier slice may be placed again, those of a launch that still waits for a slot
included. -/
def placeAgain (s : State) (part : Nat) : State :=
  let s := setPart s part { partOf s part with suspended := (partOf s part).suspended.map fun e => (e.1, e.2.1, { e.2.2 with later := [] }) }
  { s with launches := s.launches.map fun (e : Nat × Launch) => (e.1, if e.2.part = part then { e.2 with later := [] } else e.2) }

/-- R310, R316. Every sliced berth has restored the next entry's partition: its slice begins. -/
def execSliceBegin (s : State) : Outcome :=
  runEvent (do
    let s ← get
    need (betweenSlices s && !(slicedBerths s).isEmpty)
    let e ← needSome (nextEntry s)
    let part := tsPart (tabGet 0 s.glob.tsEnt e)
    need ((slicedBerths s).all fun b => (berthOf s b).runs == some part)
    let s := placeAgain (restoreLaunches s part) part
    set { s with glob := { s.glob with slice := some e, sliceAt := s.clk, sliceEnding := false, lastSlice := e } }) s

/-- R310: D of the running slice, in clk. -/
def sliceDeadline (s : State) : Nat :=
  match s.glob.slice with
  | some e => tsDeadline (tabGet 0 s.glob.tsEnt e) * clkPerUs
  | none => 0

/-- R310. The slice has lasted its time: the master sends each sliced berth a slice end. -/
def execSliceEnd (s : State) : Outcome :=
  runEvent (do
    let s ← get
    let e ← needSome s.glob.slice
    need (!s.glob.sliceEnding && s.glob.sliceAt + tsLength (tabGet 0 s.glob.tsEnt e) * clkPerUs ≤ s.clk)
    let d := sliceDeadline s
    let s := (slicedBerths s).foldl (fun s b =>
      if (berthOf s b).runs.isNone then s
      else setBerth s b { berthOf s b with sliceEnd := some ⟨s.clk, d, false, false, false⟩ }) s
    set { s with glob := { s.glob with sliceEnding := true } }) s

/-! ### A berth's slice end -/

/-- R311: the bytes that remain in a berth's lighter queues. -/
def lighterLeft (s : State) (b : Nat) : Nat :=
  ((berthOf s b).chans.map fun q => (q.2.map fun c => ((copyTotal c - c.count) * copyWidth c + 7) / 8).sum).sum

/-- R311: Ed; none is infinite. -/
def drainCost (s : State) (b : Nat) : Option Nat :=
  let gs := groupsOn s b
  if gs.any fun g => g.2.1.avg.isNone then none
  else some ((gs.map fun g => g.2.1.avg.getD 0 - (s.clk - g.2.2.at_)).foldl max 0 + ceilDiv (lighterLeft s b) 128)

/-- R311: Es. -/
def saveCost (s : State) (b : Nat) : Nat := ceilDiv (0x400000 + 0x10000 * (berthOf s b).wDirty.length) 128 + 2000

/-- R311, R343: a launch whose groups may be discarded. -/
def discardable (l : Launch) : Bool := lnReissuable l && !lnRwv l

/-- R311: the choice of a berth: 0 drain, 1 save, 2 discard, 3 save with an overrun (DEDUCED: log entry 45). -/
def sliceChoice (s : State) (b d : Nat) : Nat :=
  let gs := groupsOn s b
  if gs.isEmpty then 1
  else if (match drainCost s b with
    | some e => decide (e ≤ d)
    | none => false) then 0
  else if saveCost s b ≤ d then 1
  else if gs.all fun g => discardable g.2.1 then 2
  else 3

/-- R365: in replay the choice is the log's (DEDUCED: log entry 45). -/
def loggedChoice (s : State) (part b : Nat) : Option Nat :=
  let p := partOf s part
  if p.ck.ctl.getLsbD 1 then
    match p.ck.replaying.find? fun x => logOf x == (2, 0) with
    | some (.sliceChoice b' c) => if b' = b then some c else none
    | _ => none
  else none

/-- R315: every group of a berth is discarded. -/
def discardBerth (s : State) (b : Nat) : State :=
  (groupsOn s b).foldl (fun s g =>
    let s := discardGroup s g.1 g.2.1 g.2.2
    let l := (tabFind? s.launches g.1).getD g.2.1
    setLaunch s g.1 { l with later := setInsert l.later g.2.2.idx }) s

/-- R312, R313: a berth that has to save does so as soon as its engines have finished what they accepted. -/
def trySave (s : State) (part b : Nat) : State :=
  if saveReady s part b then saveBerth s part b
  else
    match (berthOf s b).sliceEnd with
    | some e => setBerth s b { berthOf s b with sliceEnd := some { e with draining := false, saving := true } }
    | none => s

/-- R311, R312, R313, R315. A berth drains, saves or discards at its slice end, or goes on with the choice it made. -/
def execBerthSliceEnd (berth : Nat) (s : State) : Outcome :=
  runEvent (do
    let s ← get
    let e ← needSome (berthOf s berth).sliceEnd
    let part ← needSome (berthOf s berth).runs
    need (!(berthOf s berth).dbg.halted)
    if e.saving || (e.draining && (groupsOn s berth).isEmpty) then do
      need (saveReady s part berth)
      set (saveBerth s part berth)
    else do
      need (!e.draining)
      let c := (loggedChoice s part berth).getD (sliceChoice s berth e.deadline)
      ordered part (.sliceChoice berth c)
      let s ← get
      match c with
      | 0 => set (setBerth s berth { berthOf s berth with sliceEnd := some { e with draining := true } })
      | 1 => set (trySave s part berth)
      | 2 => do
        need ((List.range 4).all fun i => listReady s (4 * berth + i))
        set (trySave (discardBerth s berth) part berth)
      | _ => set (trySave (raisePart s part 12) part berth)) s

/-- R312. A berth that still drains D after its slice end saves the rest, and the overrun source is raised. -/
def execDrainDeadlineExpiry (berth : Nat) (s : State) : Outcome :=
  runEvent (do
    let s ← get
    let e ← needSome (berthOf s berth).sliceEnd
    let part ← needSome (berthOf s berth).runs
    need (e.draining && !(berthOf s berth).dbg.halted && decide (e.at_ + e.deadline ≤ s.clk) && !(groupsOn s berth).isEmpty)
    set (trySave (raisePart s part 12) part berth)) s

/-- R370. D passes for a slice end held at a halted berth. -/
def execHaltedSliceEndOverrun (berth : Nat) (s : State) : Outcome :=
  runEvent (do
    let s ← get
    let e ← needSome (berthOf s berth).sliceEnd
    let part ← needSome (berthOf s berth).runs
    need ((berthOf s berth).dbg.halted && !e.overrunRaised && decide (e.at_ + e.deadline ≤ s.clk))
    set (raisePart (setBerth s berth { berthOf s berth with sliceEnd := some { e with overrunRaised := true } }) part 12)) s

/-- R232: an atomic, a phase operation, a vector reduction, a store that waits for its owner or a NET request still has to perform. -/
def updatePending (r : Req) : Bool :=
  performing r && match r.body with
  | .atomic .. => true
  | .ared .. => true
  | .phase .. => true
  | .store .. => true
  | .net .. => true
  | _ => false

/-- R35, R232: a task of a core has ended and left such a request on its way; a retirement is a release of it as well. -/
def updatesLeft (s : State) (k : Nat) : Bool := s.reqs.any fun e => e.2.core == k && e.2.door == 0 && taskGone s e.2 && updatePending e.2

/-- R43, R307, R308, R312. A group whose cores are done retires. -/
def execGroupRetirement (launch : Nat) (idx : Nat) (s : State) : Outcome :=
  runEvent (do
    let s ← get
    let l ← needSome (tabFind? s.launches launch)
    let p ← needSome (l.placed.find? fun p => p.idx == idx)
    need (p.gen == tabGet 0 l.gens idx && p.cores.all fun k =>
      (coreOf s k).gdone && !taskOf (coreOf s k) launch && !copyOf s k launch && !(coreOf s k).preempted &&
        (coreOf s k).place.map (fun y => (y.seq, y.idx)) == some (l.seqNo, idx) && releaseReady s (coreBerth k) 4 && listReady s k && !updatesLeft s k)
    ordered l.part (.retired launch idx)
    let bs := (p.cores.map coreBerth).eraseDups
    modify fun s => restoreWaiting (bs.foldl drainComplete (retireGroup s launch l p))) s

end Sys2Proof.Machine
end

