-- ==== Sys2Proof/Machine/Debug.lean ====
section
/-!
DEFINITION. The debug modules (R368 to R372): halting and resuming berths, debug accesses, and the trace buffer; and the thermal
trip (R384).
-/
namespace Sys2Proof.Machine

open Sys2Proof

/-- R370. A write of halt in `dbg.ctl`. -/
def execDbgHaltWrite (berth : Nat) (s : State) : Outcome :=
  runEvent (modify fun s => haltBerth s berth 1 (4 * berth) 0) s

/-- R370, R384. A write of resume in `dbg.ctl`; it is refused above 95 °C (DEDUCED: log entry 45). -/
def execDbgResumeWrite (berth : Nat) (s : State) : Outcome :=
  runEvent (do
    let s ← get
    need ((berthOf s berth).dbg.halted && decide (s.glob.temp.toNat ≤ 95))
    modBerth berth fun y => { y with dbg := { y.dbg with halted := false } }
    modify fun s => (List.range 16).foldl (fun s i => takeAnswer s (4 * berth + i / 4) (i % 4)) s) s

/-- R370, R21. A berth with xtin halts within 64 clk of the event that drove the cross-trigger. -/
def execCrossTriggerHalt (berth : Nat) (s : State) : Outcome :=
  runEvent (do
    let s ← get
    let t ← needSome s.glob.xtrig
    need ((berthOf s berth).dbg.ctl.getLsbD 4 && !(berthOf s berth).dbg.halted && decide (s.clk ≤ t + 64))
    set (haltBerth s berth 4 (4 * berth) 0)) s

/-- R384. The hottest junction temperature is read; at 105 °C every berth halts (DEDUCED: log entry 45). -/
def execThermalTrip (celsius : Nat) (s : State) : Outcome :=
  runEvent (do
    let s ← get
    let g := { s.glob with temp := BitVec.ofNat 8 (min 255 celsius) }
    if celsius < 105 then set { s with glob := g }
    else
      let s := { s with glob := { g with trip := true } }
      set (raiseIrq ((List.range 128).foldl (fun s b => haltBerth s b 6 (4 * b) 0) s) 640 0)) s

/-- R368: `dbg.stat`. -/
def dbgStat (d : Debug) : Dbl :=
  BitVec.ofNat 64 (d.lost.toNat * 2 ^ 32 + boolBit d.err * 2 ^ 4 + d.why.toNat * 2 + boolBit d.halted)

/-- R368. Reading `dbg.stat` clears the count of dropped records. -/
def execDbgStatRead (berth : Nat) (s : State) : Outcome :=
  runEvent (do
    let d := (berthOf (← get) berth).dbg
    modBerth berth fun y => { y with dbg := { d with lost := 0 } }
    modGlob fun g => { g with readOut := dbgStat d }) s

/-! ### Debug accesses -/

/-- R368, R369: a refused access sets err. -/
def dbgRefuse (s : State) (b : Nat) : State :=
  setBerth s b { berthOf s b with dbg := { (berthOf s b).dbg with err := true } }

def dbgPut (s : State) (b : Nat) (v : Dbl) : State :=
  setBerth s b { berthOf s b with dbg := { (berthOf s b).dbg with data := v } }

/-- R368: an 8-aligned byte address in a window of a berth. -/
def dbgWindow (b a : Nat) : Bool :=
  0xC ≤ windowOf a && winBerth a == b && a % 8 == 0 && decide (a < winBase (windowOf a) b (if windowOf a = 0xC then winCore a else 0) +
    winSize (windowOf a))

/-- R281, R369: an access of space 0. -/
def dbgMemory (s : State) (b : Nat) (wr tag : Bool) (a : Nat) : State :=
  let d := (berthOf s b).dbg
  let has := s.tags.contains (a / 32)
  if dbgWindow b a = false ∨ (wr ∧ tag ∧ d.data.getLsbD 0) ∨ (wr ∧ !tag ∧ !(marksMet s ⟨a, 0, 64, false⟩).isEmpty) then dbgRefuse s b
  else if tag then (if wr then { s with tags := s.tags.filter (· != a / 32) } else dbgPut s b (boolDbl has))
  else if wr then
    let s := homeWrite s a (dblBytes d.data)
    if windowOf a = 0xF then setBerth s b { berthOf s b with wDirty := setInsert (berthOf s b).wDirty (a % 2 ^ 23 / 65536) } else s
  else dbgPut s b (homeDouble s a)

/-- R205, R347: the lease count of a live context. -/
def liveLease (s : State) (k c : Nat) : Nat :=
  let m := (berthOf s (coreBerth k)).mat
  if holdsLease m k c then (m.lease.map (·.left)).getD 0
  else ((m.reqs.find? (isLeaseReq k c)).map (·.n)).getD (ctxOf s k c).leaseSaved.toNat

/-- R347, R348: the state field of the status double. -/
def liveState (x : Ctx) (pre : Bool) : Nat :=
  match x.mode with
  | .trapped => 1
  | .parked _ => 2
  | .running => if pre then 3 else 0
  | _ => 0

/-- R347: a request of a context that its record can hold. -/
def recordable (k c : Nat) (r : SfuReq) : Bool := isSfuOf k c r && !toLink r

/-- R197, R369: a context with the SFU requests that have not started, those in the berth's queue first. -/
def withQueued (s : State) (k c : Nat) : Ctx :=
  let x := ctxOf s k c
  { x with sfuSaved := (berthOf s (coreBerth k)).sfuQ.filter (recordable k c) ++ x.sfuSaved.filter fun r => !toLink r }

/-- R369: new requests in the places of a context's old ones in a queue, and those left over. -/
def replaceQueued (mine : SfuReq → Bool) : List SfuReq → List SfuReq → List SfuReq × List SfuReq
  | [], new => ([], new)
  | r :: q, new =>
    if mine r then
      match new with
      | [] => replaceQueued mine q []
      | n :: ns => ((n :: (replaceQueued mine q ns).1), (replaceQueued mine q ns).2)
    else (r :: (replaceQueued mine q new).1, (replaceQueued mine q new).2)

/-- R369: a context's requests are replaced in the berth's queue, and past it; those for link ports keep their places. -/
def putQueued (s : State) (k c : Nat) (new : List SfuReq) : State :=
  let b := coreBerth k
  let x := ctxOf s k c
  let (q, rest) := replaceQueued (recordable k c) (berthOf s b).sfuQ new
  let (saved, past) := replaceQueued (fun r => !toLink r) x.sfuSaved rest
  setBerth (setCtx s k c { x with sfuSaved := saved ++ past }) b { berthOf s b with sfuQ := q }

/-- R369: the state with a context's live record in place of the bytes in its local store. -/
def liveRecord (s : State) (k c : Nat) : State :=
  let x := withQueued s k c
  let st := liveState x (coreOf s k).preempted
  let status := statusWord x.ktrap.toNat x.seq.toNat (otypeOf x) x.ch.toNat st (st == 1 && trapNested s k x)
  putRecord s (recordBase k c) x (recordBytes x status x.ktdetail (x.ktrpc.setWidth 64) x.pc (liveLease s k c))

/-- R369: a context whose live record was changed. A register state that says empty stays so, and what the record does not hold
or does not restore keeps its value but for `ktask`, `ktdetail`, `ktrpc`, the cause, the sequence number and the channel. `off` is the
double written. -/
def rewritten (t : State) (x : Ctx) (k c off : Nat) : Ctx :=
  let base := recordBase k c
  let y := restored t k c
  let st := natOfBytes (memRead t.mem (base + 0x80) 32)
  let code := fun (pos : Nat) => bitsAt st (2 * pos) 2
  let states := decide (0x80 ≤ off ∧ off < 0xA0)
  let vs := (List.range 28) ++ (List.range 32).map (· + 32)
  { y with
    mode := x.mode
    leaseSaved := x.leaseSaved
    sfuSaved := x.sfuSaved
    ktrap := BitVec.ofNat 8 (fieldOf (recDouble t base 0) 48 8)
    seq := BitVec.ofNat 16 (fieldOf (recDouble t base 0) 32 16)
    ch := BitVec.ofNat 4 (fieldOf (recDouble t base 0) 16 4)
    ktask := recDouble t base 0x20
    ktdetail := recDouble t base 0x08
    ktrpc := (recDouble t base 0x10).setWidth 48
    xs := if states then statesTab ((List.range 27).map fun i =>
        (i + 1, stateOf (code (statePosX (i + 1))) true (tabGet .full x.xs (i + 1)) (i + 1))) else x.xs
    vs := if states then statesTab (vs.map fun i => (i, stateOf (code (statePosV i)) true (tabGet .full x.vs i) i)) else x.vs
    cs := if states then statesTab ((List.range 15).map fun i =>
        (i + 1, stateOf (code (statePosC (i + 1))) true (tabGet .full x.cs (i + 1)) (i + 1))) else x.cs }

/-- R204, R369: the lease count of a live context is written. -/
def putLease (s : State) (k c n : Nat) : State :=
  let b := coreBerth k
  let m := (berthOf s b).mat
  if holdsLease m k c then setBerth s b { berthOf s b with mat := { m with lease := m.lease.map fun l => { l with left := n } } }
  else if m.reqs.any (isLeaseReq k c) then
    setBerth s b { berthOf s b with mat := { m with reqs := m.reqs.map fun r => if isLeaseReq k c r then { r with n := n } else r } }
  else setCtx s k c { ctxOf s k c with leaseSaved := BitVec.ofNat 8 n }

/-- R369: an access of space 1 (DEDUCED: log entry 46). -/
def dbgContext (s : State) (b : Nat) (wr tag : Bool) (a : Nat) : State :=
  let d := (berthOf s b).dbg
  let k := 4 * b + bitsAt a 11 2
  let c := bitsAt a 9 2
  let off := 8 * bitsAt a 0 9
  let at_ := recordBase k c + off
  let t := liveRecord { s with tags := setClearRange s.tags (recordBase k c / 32) 128 } k c
  if wr ∧ tag ∧ d.data.getLsbD 0 then dbgRefuse s b
  else if wr = false then dbgPut s b (if tag then boolDbl (t.tags.contains (at_ / 32)) else homeDouble t at_)
  else
    let u := if tag then { t with tags := t.tags.filter (· != at_ / 32) } else homeWrite t at_ (dblBytes d.data)
    if (recordFault u (recordBase k c)).isSome then dbgRefuse s b
    else if off = 0x70 then putLease s k c (fieldOf d.data 0 8)
    else
      let s := setCtx s k c (rewritten u (ctxOf s k c) k c off)
      if off = 0x78 ∨ 0xD00 ≤ off then putQueued s k c (restored u k c).sfuSaved else s

/-- R223: a debug access waits for the matrix commands that use its bytes. -/
def accessWaits (s : State) (b : Nat) (v : Dbl) : Bool :=
  let a := fieldOf v 0 48
  (berthOf s b).dbg.halted && !(v.getLsbD 60 || v.getLsbD 61 || !dbgWindow b a || !matrixUses s (winBerth a) a 8 (v.getLsbD 62))

/-- R369. A write of `dbg.acc` with go moves a double or a tag while the berth is halted. One that finds the berth not halted is refused and leaves the fields as they were (DESIGN CHOICE: log entry 46) (DEDUCED: log entry 46). -/
def execDbgAccess (berth : Nat) (value : BitVec 64) (s : State) : Outcome :=
  runEvent (do
    let s ← get
    let d := (berthOf s berth).dbg
    need (value.getLsbD 63)
    if d.halted = false then set (dbgRefuse s berth)
    else
      let acc := BitVec.ofNat 64 (fieldOf value 60 3 * 2 ^ 60 + fieldOf value 0 48)
      let s := setBerth s berth { berthOf s berth with dbg := { d with acc := acc } }
      let a := fieldOf value 0 48
      need (!accessWaits s berth value)
      if value.getLsbD 60 then set (dbgContext s berth (value.getLsbD 62) (value.getLsbD 61) a)
      else set (dbgMemory s berth (value.getLsbD 62) (value.getLsbD 61) a)) s

/-! ### Trace -/

/-- R372. The oldest waiting record is written to the trace buffer (DEDUCED: log entry 46). -/
def execTraceBufferWrite (berth : Nat) (s : State) : Outcome :=
  runEvent (do
    let s ← get
    let y := berthOf s berth
    let d := y.dbg
    match y.traceQ with
    | [] => halt .disabled
    | r :: rest => do
      let at_ := fieldOf d.trace 12 28 * 4096 + 32 * (d.traceAt % 2 ^ (fieldOf d.trace 0 4 + 7))
      need (extEnd < at_ + 32 || !storeHeld s at_ 32)
      let s := setBerth s berth { y with traceQ := rest, dbg := { d with traceAt := d.traceAt + 1 } }
      if at_ + 32 ≤ extEnd then set (unitWrite s at_ (bytesOf 32 r.toNat))
      else set (setBerth s berth { berthOf s berth with
        dbg := { d with lost := if d.lost = 0xFFFFFFFF then d.lost else d.lost + 1 } })) s

end Sys2Proof.Machine
end

