-- ==== Sys2Proof/Machine/Regs.lean ====
section
/-!
DEFINITION. The register pages and what reaches the package from outside (R5, R6, R129, R135, R137, R138, R239, R310, R320,
R362, R375, R377, R378): writes without a step of their own, reads that clear, injected interrupts, Function Level Resets and
device writes.
-/
namespace Sys2Proof.Machine

open Sys2Proof

/-! ### Register writes -/

/-- R6: the bits of a field map kept from a value. -/
def keepBits (v : Dbl) (lo n : Nat) : Dbl := BitVec.ofNat 64 (fieldOf v lo n * 2 ^ lo)

/-- R377: a refused write of the partition manager sets err in `pm.stat`. -/
def pmRefuse (s : State) : State := { s with glob := { s.glob with pmErr := true } }

/-- R129, R303, R375: a write to a partition register page. -/
def writePartPage (s : State) (part off : Nat) (v : Dbl) : State :=
  let p := partOf s part
  match off with
  | 0x008 =>
    if p.trBusy || 5 ≤ fieldOf v 0 3 then pfRefuse s part
    else if fieldOf v 0 3 = 0 then setPart s part { p with trOp := 0 }
    else s
  | 0x010 => setPart s part { p with trArg := keepBits v 16 32 }
  | 0x018 => setPart s part { p with trCnt := keepBits v 0 32 }
  | 0x020 => setPart s part { p with trBmap := keepBits v 3 45 }
  | 0x028 => setPart s part { p with pfErr := p.pfErr && !v.getLsbD 9 }
  | 0x0A8 => setPart s part { p with ctLatch := keepBits v 51 13 ||| keepBits v 0 16 }
  | _ => s

/-- R135: the sum of all partitions' floors on a resource with one band replaced. -/
def floorSum (s : State) (part i : Nat) (v : Dbl) : Nat :=
  ((List.range 16).map fun q => bandFloor (if q = part then v else tabGet 0 (partOf s q).bands i)).sum

/-- R296, R334: whether a slice holds a record, or a pair, of a partition. -/
def recordsQueued (s : State) (part : Nat) : Bool := s.slices.any fun e => recordsAt e.2 part != 0
def pairsHeld (s : State) (part : Nat) : Bool :=
  s.slices.any fun e => (e.2.pairs.any fun p => p.part == part) || !(tabGet [] e.2.pairRings part).isEmpty

/-- R319: whether a partition has a saved berth or a spilled message. -/
def spilled (s : State) (part : Nat) : Bool :=
  (s.berths.any fun e => e.2.saved.any fun x => x.part == part) ||
    (s.cores.any fun e => !(tabGet [] e.2.spill part).isEmpty) ||
    s.quays.any fun q => q.2.ring.any fun f => f.part == part

/-- R362: a checkpoint register is refused while busy, or with a period, keep or size of 0. -/
def ckptRefused (c : Ckpt) (off : Nat) (v : Dbl) : Bool :=
  c.busy || match off with
    | 0x228 => fieldOf v 6 10 == 0 || 1000 < fieldOf v 6 10 || fieldOf v 2 4 == 0
    | _ => fieldOf v 0 12 == 0

/-- R365: the logs that follow the newest retained checkpoint. -/
def newestLog (c : Ckpt) : List LogEntry := ((c.kept.getLast?).map (·.log)).getD [] ++ c.entries

/-- R362, R365: a write to a checkpoint register. Replay mode begins with the logs that follow the newest retained checkpoint. -/
def writeCkpt (p : Partition) (off : Nat) (v : Dbl) : Partition :=
  let c := p.ck
  if ckptRefused c off v then { p with ck := { c with err := true } }
  else
    match off with
    | 0x228 => { p with ck := { c with
        ctl := keepBits v 0 16
        replaying := if v.getLsbD 1 = false then [] else if c.ctl.getLsbD 1 then c.replaying else newestLog c } }
    | 0x230 => { p with ck := { c with area := keepBits v 16 32 ||| keepBits v 0 12 } }
    | _ => { p with ck := { c with log := keepBits v 16 32 ||| keepBits v 0 12 } }

/-- R118, R135, R296, R313, R319, R334, R362, R377, R380, R381: a write to the partition manager's page of a partition. Offsets
from 0x10000 stand for the compartment table (R97), whose place the manual leaves to the manager (DEDUCED: log entry 53). -/
def writeManagerPage (s : State) (part off : Nat) (v : Dbl) : State :=
  let p := partOf s part
  if off < 0x040 ∧ off % 8 = 0 then setPart s part { p with grant := tabPut p.grant (off / 8) (keepBits v 63 1 ||| keepBits v 16 24) }
  else if 0x080 ≤ off ∧ off < 0x0C0 ∧ off % 8 = 0 then setPart s part { p with gsize := tabPut p.gsize ((off - 0x080) / 8) (keepBits v 0 32) }
  else if 0x100 ≤ off ∧ off < 0x1C0 ∧ off % 8 = 0 then
    let i := (off - 0x100) / 8
    let b := keepBits v 0 24
    if bandCeil b < bandFloor b ∨ 240 < floorSum s part i b then s else setPart s part { p with bands := tabPut p.bands i b }
  else if 0x10000 ≤ off ∧ off < 0x18000 ∧ off % 8 = 0 then setPart s part { p with comp := tabPut p.comp ((off - 0x10000) / 8) v }
  else
    match off with
    | 0x1D0 => setPart s part { p with qlMap := keepBits v 0 5 }
    | 0x1D8 => setPart s part { p with qlPhase := keepBits v 0 48 }
    | 0x200 =>
      if recordsQueued s part || 10 < fieldOf v 0 4 then pmRefuse s
      else setPart s part { p with tqRing := keepBits v 12 36 ||| keepBits v 0 4 }
    | 0x208 => setPart s part { p with tqFull := p.tqFull &&& ~~~ v.setWidth 32 }
    | 0x210 => setPart s part { p with peSave := keepBits v 16 32 }
    | 0x218 => if spilled s part then pmRefuse s else setPart s part { p with sqBase := keepBits v 12 36 ||| keepBits v 0 4 }
    | 0x220 =>
      if pairsHeld s part || 10 < fieldOf v 0 4 then pmRefuse s
      else setPart s part { p with nbRing := keepBits v 12 36 ||| keepBits v 0 4 }
    | 0x228 => setPart s part (writeCkpt p 0x228 v)
    | 0x230 => setPart s part (writeCkpt p 0x230 v)
    | 0x238 => setPart s part (writeCkpt p 0x238 v)
    | 0x240 =>
      let c := p.ck
      setPart s part { p with ck := { c with
        early := c.early && !v.getLsbD 3
        full := c.full && !v.getLsbD 2
        err := c.err && !v.getLsbD 0 } }
    | _ => s

/-- R114, R318: a berth's owner byte; a partition that is given the berth whole finds it cleared of another's data (DEDUCED: log entry 53). -/
def setOwner (s : State) (b : Nat) (v : Byte) : State :=
  let s := setBerth s b { berthOf s b with owner := v &&& 0xCF, reservedFor := none }
  if v.getLsbD 6 || v.getLsbD 7 then s else giveBerth s b (v.toNat % 16)

/-- R224: a berth passes to another partition only when its accepted matrix commands have completed. -/
def ownerReady (s : State) (b : Nat) (v : Byte) : Bool := (berthOf s b).owner == v &&& 0xCF || (berthOf s b).mat.queue.isEmpty

/-- R114: the owner bytes of a double of the table. -/
def ownerBytes (off : Nat) (v : Dbl) : List (Nat × Byte) := (List.range 8).map fun i => (off - 0x800 + i, v.extractLsb' (8 * i) 8)

/-- R368, R371: a write to a debug module's block. -/
def writeDebug (d : Debug) (off : Nat) (v : Dbl) : Debug :=
  match off with
  | 0x00 => { d with ctl := BitVec.ofNat 7 (fieldOf v 2 5 * 4) }
  | 0x08 => { d with err := d.err && !v.getLsbD 4 }
  | 0x10 => if v.getLsbD 63 then d else { d with acc := keepBits v 60 3 ||| keepBits v 0 48 }
  | 0x18 => { d with data := v }
  | 0x20 => { d with trace := keepBits v 12 28 ||| keepBits v 0 5, traceAt := 0 }
  | _ =>
    if 0x28 ≤ off ∧ off ≤ 0x40 ∧ off % 8 = 0 then
      { d with wp := tabPut d.wp ((off - 0x28) / 8) v, err := d.err || fieldOf v 48 6 != 0 }
    else d

/-- R137: a write to a source of the cause table; the shared bit and the owner are the hardware's. -/
def writeIrq (i : Irq) (v : Dbl) : Irq :=
  { i with
    pend := i.pend && !v.getLsbD 15
    en := v.getLsbD 14
    pmonly := v.getLsbD 13
    vec := v.setWidth 8 }

/-- R383: the RW fields of `pw.cmd`, and whether its kind is one that starts a transition. -/
def pwFields (v : Dbl) : Dbl := keepBits v 16 2 ||| keepBits v 8 8 ||| keepBits v 0 3
def pwStarts (v : Dbl) : Bool := 1 ≤ fieldOf v 0 3 && fieldOf v 0 3 ≤ 3

/-- R310, R320, R356, R377, R383, R387: a write to the global page. A store to `pw.cmd` of a kind that R383 does not name starts nothing,
and its fields take the value unless a transition runs (DESIGN CHOICE: log entry 47) (DEDUCED: log entry 53). -/
def writeGlobalPage (s : State) (off : Nat) (v : Dbl) : State :=
  let g := s.glob
  if 0x400 ≤ off ∧ off < 0x480 ∧ off % 8 = 0 then
    if tsLength v = 0 ∨ tsDeadline v = 0 then pmRefuse s
    else { s with glob := { g with tsEnt := tabPut g.tsEnt ((off - 0x400) / 8) (keepBits v 8 32 ||| keepBits v 0 5) } }
  else if 0x500 ≤ off ∧ off < 0x700 ∧ off % 8 = 0 then
    { s with glob := { g with rtEnt := tabPut g.rtEnt ((off - 0x500) / 8) (keepBits v 16 8 ||| keepBits v 0 14) } }
  else if 0x800 ≤ off ∧ off < 0x880 ∧ off % 8 = 0 then (ownerBytes off v).foldl (fun s e => setOwner s e.1 e.2) s
  else if 0x2000 ≤ off ∧ off < 0x4000 ∧ off % 8 = 0 then
    let i := (off - 0x2000) / 8
    { s with glob := { g with irq := tabPut g.irq i (writeIrq (tabGet Irq.reset g.irq i) v) } }
  else if 0x8000 ≤ off ∧ off < 0xC000 ∧ off % 8 = 0 then
    let b := (off - 0x8000) / 0x80
    setBerth s b { berthOf s b with dbg := writeDebug (berthOf s b).dbg ((off - 0x8000) % 0x80) v }
  else
    match off with
    | 0x008 => { s with glob := { g with pmErr := g.pmErr && !v.getLsbD 0 } }
    | 0x020 => { s with glob := { g with ceThresh := v.setWidth 16 } }
    | 0x0A8 => { s with glob := { g with icArg := v } }
    | 0x0B0 =>
      if pwStarts v then s
      else if g.pwBusy then pmRefuse s
      else { s with glob := { g with pwCmd := pwFields v } }
    | 0x0B8 => setQuay s 0 { quayOf s 0 with budget := v.setWidth 16 }
    | 0x0C0 => setQuay s 1 { quayOf s 1 with budget := v.setWidth 16 }
    | _ => s

/-- R5, R6, R377. A write to a device register that has no step of its own; fields that are not RW keep their values (DEDUCED: log entry 53). -/
def execRegisterWrite (page : RegPage) (off : Nat) (value : BitVec 64) (s : State) : Outcome :=
  runEvent (do
    let s ← get
    match page with
    | .glob => do
      need ((if 0x800 ≤ off ∧ off < 0x880 then ownerBytes off value else []).all fun e => ownerReady s e.1 e.2)
      set (writeGlobalPage s off value)
    | .partition p => set (writePartPage s p off value)
    | .manager p => set (writeManagerPage s p off value)) s

/-! ### Reads that clear -/

/-- What the outside has read. -/
def readOut (v : Dbl) : Act Unit := modGlob fun g => { g with readOut := v }

/-- R31. Reading `tp.drop` clears it. -/
def execTpDropRead (part : Nat) (s : State) : Outcome :=
  runEvent (do
    let p := partOf (← get) part
    modPart part fun p => { p with tpDrop := 0 }
    readOut (p.tpDrop.setWidth 64)) s

/-- R351. Reading `tp.lost` clears it. -/
def execTpLostRead (part : Nat) (s : State) : Outcome :=
  runEvent (do
    let p := partOf (← get) part
    modPart part fun p => { p with tpLost := 0 }
    readOut p.tpLost) s

/-- R335. Reading `nt.err` clears it. -/
def execNtErrRead (part : Nat) (s : State) : Outcome :=
  runEvent (do
    let p := partOf (← get) part
    modPart part fun p => { p with ntErr := 0 }
    readOut p.ntErr) s

/-- R129. Reading `pf.stale` clears it. -/
def execPfStaleRead (part : Nat) (s : State) : Outcome :=
  runEvent (do
    let p := partOf (← get) part
    modPart part fun p => { p with stale := 0 }
    readOut (p.stale.setWidth 64)) s

/-- R375: a counter as a partition's software sees it: live while the partition runs there, else as saved. -/
def partCounter (s : State) (part core ctr : Nat) : Dbl :=
  if berthPart s (coreBerth core) = some part then counterOf (coreOf s core).obs ctr
  else
    match (berthOf s (coreBerth core)).saved.find? fun x => x.part == part with
    | some x => match tabFind? x.cores core with
      | some k => counterOf k.obs ctr
      | none => 0
    | none => 0

/-- R375. A 32-bit load of a counter's low word latches the high bits. -/
def execCounterLowRead (part : Nat) (core : Nat) (ctr : Nat) (s : State) : Outcome :=
  runEvent (do
    let s ← get
    let v := partCounter s part core ctr
    modPart part fun p => { p with ctLatch := BitVec.ofNat 64 (2 ^ 63 + core % 512 * 2 ^ 54 + ctr % 8 * 2 ^ 51 + fieldOf v 32 16) }
    readOut (BitVec.ofNat 64 (fieldOf v 0 32))) s

/-- R375. A 32-bit load of a counter's high word returns latched or live bits and clears valid. -/
def execCounterHighRead (part : Nat) (core : Nat) (ctr : Nat) (s : State) : Outcome :=
  runEvent (do
    let s ← get
    let l := (partOf s part).ctLatch
    let mine := l.getLsbD 63 && fieldOf l 54 9 == core && fieldOf l 51 3 == ctr
    modPart part fun p => { p with ctLatch := setField l 63 1 0 }
    readOut (BitVec.ofNat 64 (if mine then fieldOf l 0 16 else fieldOf (partCounter s part core ctr) 32 16))) s

/-! ### Interrupts and resets from outside -/

/-- R138: what an injection sends. -/
def injection (endpoint : Bool) (part vec : Nat) : Injection := if endpoint then .msix (part + 1) vec else .guest part vec

/-- R138. A virtual interrupt is injected into a partition. -/
def execIrqInject (value : BitVec 64) (s : State) : Outcome :=
  runEvent (modGlob fun g => { g with
      irqInject := keepBits value 8 8 ||| keepBits value 0 4
      injected := g.injected ++ [injection g.endpoint (fieldOf value 0 4) (fieldOf value 8 8)] }) s

/-- R378. A Function Level Reset of a virtual function raises the shared source and holds its configuration requests. -/
def execPcieFlr (part : Nat) (s : State) : Outcome :=
  runEvent (do
    let s ← get
    need s.glob.endpoint
    set (raiseIrq { s with glob := { s.glob with flr := s.glob.flr ||| BitVec.ofNat 16 (2 ^ part) } } 646 0)) s

/-- R378. Writing 1 to a bit of `pm.flr` releases that function. -/
def execPmFlrWrite (value : BitVec 64) (s : State) : Outcome :=
  runEvent (modGlob fun g => { g with flr := g.flr &&& ~~~ value.setWidth 16 }) s

/-- R127. The reset of a partition advances `tr.gen` (DEDUCED: log entry 53). -/
def execPartitionReset (part : Nat) (s : State) : Outcome :=
  runEvent (modPart part fun p => { p with trGen := p.trGen + 1 }) s

/-! ### Memory accesses from outside -/

/-- R377, R118: whether bytes of external memory lie in a partition's grants (DEDUCED: log entry 54). -/
def outsideOk (s : State) (part addr n : Nat) : Bool := decide (addr + n ≤ extEnd) && inGrants (partOf s part) addr n

/-- R281: a write by another agent does not reach a marked double (DEDUCED: log entry 54). -/
def meetsMark (s : State) (addr n : Nat) : Bool := s.phases.any fun e => decide (e.1 < addr + n ∧ addr < e.1 + 8)

/-- R378. A device's write into a partition's memory, or its drop (DEDUCED: log entry 54). -/
def execInboundDeviceWrite (part : Nat) (addr : Nat) (data : List (BitVec 8)) (s : State) : Outcome :=
  runEvent (do
    let s ← get
    let n := data.length
    if outsideOk s part addr n && !meetsMark s addr n then do
      need (!unitWaits s part addr n true && !barred s part 23)
      set (wideWrite s addr data)
    else set (raiseIrq s 648 0)) s

end Sys2Proof.Machine
end

