-- ==== Sys2Proof/Machine/Power.lean ====
section
/-!
DEFINITION. Power states (R383) and the invalidation of instruction caches (R387).
-/
namespace Sys2Proof.Machine

open Sys2Proof

/-! ### Power states -/

/-- R383: the fields of `pw.cmd`. -/
def pwKind (v : Dbl) : Nat := fieldOf v 0 3
def pwIndex (v : Dbl) : Nat := fieldOf v 8 8
def pwState (v : Dbl) : Nat := fieldOf v 16 2

/-- R383: how many units of a kind there are. -/
def pwCount (kind : Nat) : Nat :=
  match kind with
  | 1 => 128
  | 2 => 32
  | 3 => 16
  | _ => 0

/-- R383: every partition's split on a slice is 0. -/
def sliceUnsplit (s : State) (n : Nat) : Bool :=
  (List.range 16).all fun p => nibble (splitOf (partOf s p) (n / 16)) (n % 16) == 0

/-- R383: whether a command breaks a condition: no such unit, a slice in use as L2-direct memory to go off, or a channel to go
off. -/
def pwRefused (s : State) (v : Dbl) : Bool :=
  decide (pwCount (pwKind v) ≤ pwIndex v) ||
    (pwState v == 3 && (pwKind v == 3 || (pwKind v == 2 && !sliceUnsplit s (pwIndex v))))

/-- R383: a write of `pw.cmd` with one of the three kinds. One that is refused leaves the fields as they were (DESIGN CHOICE: log entry 47)
(DEDUCED: log entry 47). -/
def startPower (kind : Nat) (v : Dbl) : Act Unit := do
  let s ← get
  need (pwKind v == kind)
  if s.glob.pwBusy || pwRefused s v then set (pmRefuse s)
  else modGlob fun g => { g with pwCmd := pwFields v, pwBusy := true }

/-- R383. A transition of a berth starts. -/
def execPwBerthTransition (value : BitVec 64) (s : State) : Outcome :=
  runEvent (startPower 1 value) s

/-- R383. A transition of an L2 slice starts. -/
def execPwSliceTransition (value : BitVec 64) (s : State) : Outcome :=
  runEvent (startPower 2 value) s

/-- R383. A transition of a memory channel starts. -/
def execPwChannelTransition (value : BitVec 64) (s : State) : Outcome :=
  runEvent (startPower 3 value) s

/-- R383: whether a berth holds a group of any partition, running or saved. -/
def holdsGroup (s : State) (b : Nat) : Bool :=
  ((List.range 4).any fun i => (coreOf s (4 * b + i)).place.isSome) ||
    (berthOf s b).saved.any fun x => x.cores.any fun k => k.2.place.isSome

/-- R383: the off state loses the local stores and buffers; nothing says what their bytes become. Their tags are clear (DESIGN CHOICE: log entry 9). -/
def loseBerth (s : State) (b : Nat) : State :=
  let n := s.freeCtr
  let s := { clearBerth s b with freeCtr := n + 1 }
  let lost := fun (s : State) (w core size : Nat) =>
    { s with mem := memWrite s.mem (winBase w b core) ((Config.lostBytes n (winBase w b core)).take size) }
  let s := (List.range 4).foldl (fun s i => lost s 0xC i 0x40000) s
  let s := lost (lost (lost s 0xD 0 0x200000) 0xE 0 0x100000) 0xF 0 0x800000
  setBerth s b { berthOf s b with holds := none, wDirty := [] }

/-- R383: what a quay's L2 holds of other lines goes home. -/
def emptyL2 (s : State) (q : Nat) : State :=
  let s := (quayOf s q).l2.foldl (fun s e => l2WriteBack s q e.1) s
  setQuay s q { quayOf s q with l2 := [] }

/-- R383. The transition takes place and busy clears: a berth's when it holds no group, a slice's after its lines are written
back (DEDUCED: log entry 47). -/
def execPwTransitionDone (s : State) : Outcome :=
  runEvent (do
    let s ← get
    let v := s.glob.pwCmd
    let i := pwIndex v
    let target := BitVec.ofNat 2 (pwState v)
    need s.glob.pwBusy
    match pwKind v with
    | 1 => do
      need (!holdsGroup s i)
      let s := setBerth s i { berthOf s i with power := target }
      set (if target = 3 then loseBerth s i else s)
    | 2 => do
      need ((target != 3 || sliceUnsplit s i) && cachesReady s)
      let s := if target = 0 then s else emptyL2 (writeBackAll s) (i / 16)
      set (setSlice s i { sliceOf s i with power := target })
    | _ => modGlob fun g => { g with chanPower := tabPut g.chanPower i target }
    modGlob fun g => { g with pwBusy := false }) s

/-! ### Instruction caches -/

/-- R387: a write of `ic.inv` with one of the three scopes starts an invalidation, unless one runs (DEDUCED: log entry 47). -/
def startInvalidate (scope : Nat) (v : Dbl) : Act Unit := do
  let s ← get
  need (fieldOf v 0 3 == scope && !s.glob.icBusy)
  modGlob fun g => { g with icInv := keepBits v 8 7 ||| keepBits v 0 3, icBusy := true }

/-- R5, R387: any other scope starts nothing; the fields take the value (DESIGN CHOICE: log entry 47). -/
def noInvalidate (v : Dbl) : Act Unit := do
  need (!(← get).glob.icBusy)
  modGlob fun g => { g with icInv := keepBits v 8 7 ||| keepBits v 0 3 }

/-- R387. The caches of a berth. -/
def execIcInvalidateBerth (value : BitVec 64) (s : State) : Outcome :=
  runEvent (startInvalidate 1 value) s

/-- R387. The caches of a quay. -/
def execIcInvalidateQuay (value : BitVec 64) (s : State) : Outcome :=
  runEvent (startInvalidate 2 value) s

/-- R387. Every cache of the package. -/
def execIcInvalidatePackage (value : BitVec 64) (s : State) : Outcome :=
  runEvent (startInvalidate 3 value) s

/-- R387: whether a core's cache lies in the scope of `ic.inv`. -/
def icInScope (v : Dbl) (k : Nat) : Bool :=
  match fieldOf v 0 3 with
  | 1 => coreBerth k == fieldOf v 8 7
  | 2 => coreQuay k == fieldOf v 8 1
  | _ => true

/-- R387. No instruction cache in the scope holds a line of the range any more. -/
def execIcInvalidateDone (s : State) : Outcome :=
  runEvent (do
    let s ← get
    need s.glob.icBusy
    let base := fieldOf s.glob.icArg 0 40
    let len := fieldOf s.glob.icArg 40 24
    let hit := fun (line : Nat) => decide (base < line * 64 + 64 ∧ line * 64 < base + len)
    set { s with
      cores := s.cores.map fun (e : Nat × Core) =>
        if icInScope s.glob.icInv e.1 then (e.1, { e.2 with
          icache := e.2.icache.filter fun l => !hit l.1
          itail := e.2.itail.filter fun l => !hit (l.2.1 / 64) }) else e
      glob := { s.glob with icBusy := false } }) s

end Sys2Proof.Machine
end

