-- ==== Sys2Proof/Machine/Quays.lean ====
section
/-!
DEFINITION. Quay fencing (R309, R360, R361): a quay's berth array is closed off, what it held is lost, and it is reset, tested and
rejoins.
-/
namespace Sys2Proof.Machine

open Sys2Proof

/-! ### The fence -/

/-- R360: the berth array's ports begin to close. -/
def startFence (s : State) (q why : Nat) : State :=
  raiseIrq (setQuay s q { quayOf s q with mode := .fencing, why := BitVec.ofNat 4 why }) (644 + q) 0

/-- R360. fence is written in `qf.ctl` of a quay that is Up. -/
def execQuayFenceCommand (quay : Nat) (s : State) : Outcome :=
  runEvent (do
    let s ← get
    need (decide (quay < 2) && (quayOf s quay).mode == .up)
    set (startFence s quay 0)) s

/-- R360. A fault of why 1 to 3 fences a quay that is Up. -/
def execQuayFenceFault (quay : Nat) (why : Nat) (s : State) : Outcome :=
  runEvent (do
    let s ← get
    need (decide (quay < 2) && (quayOf s quay).mode == .up && 1 ≤ why && why ≤ 3)
    set (startFence s quay why)) s

/-! ### What is lost -/

/-- R309: the link-port entries that a fenced core has reserved: by requests, SFU operations and lease requests (DEDUCED: log entry 29). -/
def lostEntries (s : State) (q : Nat) : List Nat :=
  ((s.reqs.filter fun e => e.2.door == 0 && coreQuay e.2.core == q).map (·.1)) ++
    (s.berths.filter fun e => berthQuay e.1 == q).flatMap fun e =>
      let cores := e.2.saved.flatMap (·.cores) ++ s.cores.filter fun k => coreBerth k.1 == e.1
      let ctxs := cores.flatMap fun k => k.2.ctxs.map (·.2)
      let sfu := e.2.sfuQ ++ e.2.sfuRun ++ ctxs.flatMap fun x => x.sfuSaved ++ x.sfuLink.map (·.2)
      let leases := e.2.mat.reqs.map (·.dst) ++ ctxs.map (·.leaseDst)
      (sfu.filter toLink).map (·.port) ++ leases.filterMap fun d => d.map (·.2)

/-- R361: an entry that awaits a lost result is answered as lost; its pop traps. -/
def answerEntries (ids : List Nat) (k : Core) : Core :=
  { k with links := k.links.map fun e => (e.1, e.2.map fun x => match x with
    | .reserved id => if ids.contains id then .bad true 0 else x
    | _ => x) }

/-- R309: what is left of a core. Its spill queues lie in memory; results still due to it find a later epoch. -/
def lostCore (k : Core) : Core :=
  { Core.reset with
    ctxs := (List.range 4).map fun c => (c, { Ctx.reset with epoch := (tabGet Ctx.reset k.ctxs c).epoch + 1 })
    spill := k.spill }

/-- R309: what is left of a berth: what its partitions saved, and what the partition manager set. -/
def lostBerth (y : Berth) : Berth :=
  { Berth.reset with
    owner := y.owner
    power := y.power
    saved := y.saved
    imaged := y.imaged
    dbg := y.dbg }

/-- R309, R318: the cores, berths, windows and phases of a quay's berth array are lost, and its pending table (DEDUCED: log entry 38). -/
def loseArray (s : State) (q : Nat) : State :=
  let ids := lostEntries s q
  let inside := fun (a : Nat) => 0xC ≤ windowOf a && !isL2Key a && winBerth a / 64 == q
  { s with
    mem := s.mem.filter fun c => !inside c.1
    tags := s.tags.filter fun t => !inside (t * 32)
    phases := s.phases.filter fun p => !inside p.1
    reqs := s.reqs.filter fun e => !(e.2.door == 0 && coreQuay e.2.core == q)
    cores := s.cores.map fun (e : Nat × Core) => (e.1, if coreQuay e.1 = q then lostCore e.2 else answerEntries ids e.2)
    berths := s.berths.map fun (e : Nat × Berth) =>
      let y := if berthQuay e.1 = q then lostBerth e.2 else e.2
      (e.1, { y with saved := y.saved.map fun x => { x with cores := x.cores.map fun k => (k.1, answerEntries ids k.2) } })
    quays := tabPut s.quays q { quayOf s q with
      pending := []
      badLines := (quayOf s q).badLines.filter fun l => !inside (l.1 * 64) } }

/-- R361: atomics and phase operations in flight to a fenced owner get a lost-quay reply. -/
def answerLost (s : State) : State :=
  { s with reqs := s.reqs.map fun (e : Nat × Req) => match e.2.body with
    | .atomic _ _ p _ _ => if e.2.reply.isNone && ownerLost s p.key then (e.1, { e.2 with reply := some (lostReply e.2) }) else e
    | .phase _ p _ _ => if e.2.reply.isNone && ownerLost s p.key then (e.1, { e.2 with reply := some (lostReply e.2) }) else e
    | _ => e }

/-- R309, R343: whether a launch's lost groups are placed again. -/
def placedAgain (l : Launch) : Bool := discardable l

/-- R309: the groups of an active launch that were placed on a fenced quay. -/
def loseGroups (q : Nat) (s : State) (id : Nat) : State :=
  match tabFind? s.launches id with
  | none => s
  | some l =>
    match l.placed.filter fun p => p.cores.any fun k => coreQuay k == q with
    | [] => s
    | gone =>
      let s := gone.foldl (fun s p => discardGroup s id ((tabFind? s.launches id).getD l) p) s
      let l := (tabFind? s.launches id).getD l
      let failed := l.failed || !placedAgain l
      let s := if failed then unreserve s fun r => r.1 == id else s
      completeLaunch (setLaunch s id { l with failed := failed }) id

/-- R309: the same for a launch that is suspended with its partition. -/
def loseSuspended (q part : Nat) (s : State) (e : Nat × Nat × Launch) : State :=
  let l := e.2.2
  match l.placed.filter fun p => p.cores.any fun k => coreQuay k == q with
  | [] => s
  | gone =>
    let s := gone.foldl (fun s p => p.cores.foldl (fun s k => discardSaved s part (128 + l.seqNo) k) s) s
    let l := { l with
      placed := l.placed.filter fun p => !gone.contains p
      gens := gone.foldl (fun t p => tabPut t p.idx (p.gen + 1)) l.gens
      failed := l.failed || !placedAgain l }
    let p := partOf s part
    setPart s part { p with suspended := p.suspended.map fun x => if x.2.2.seqNo = l.seqNo then (x.1, x.2.1, l) else x }

/-- R305, R309: the survivor homes the launches of a fenced quay, and holds what lay in the spill rings. -/
def passLaunches (s : State) (q : Nat) : State :=
  let moved := fun (l : Launch) => if l.home = q then { l with home := 1 - q } else l
  let left := (quayOf s q).ring
  let s := setQuay (setQuay s q { quayOf s q with ring := [] }) (1 - q)
    { quayOf s (1 - q) with ring := (quayOf s (1 - q)).ring ++ left }
  { s with
    launches := s.launches.map fun e => (e.1, moved e.2)
    parts := s.parts.map fun (e : Nat × Partition) => (e.1, { e.2 with suspended := e.2.suspended.map fun x => (x.1, x.2.1, moved x.2.2) }) }

/-- R309, R360, R361. The ports of a fencing quay are closed: mastership passes, what its berths held is lost, their groups are
placed again or fail their launches, and requests to them are answered (DEDUCED: log entry 48). -/
def execQuayPortsClosed (quay : Nat) (s : State) : Outcome :=
  runEvent (do
    let s ← get
    need (decide (quay < 2) && (quayOf s quay).mode == .fencing)
    let s := passLaunches (loseArray s quay) quay
    let s := setQuay s quay { quayOf s quay with mode := .fenced }
    let s := answerLost { s with glob := { s.glob with master := 1 - quay } }
    let s := (s.launches.map (·.1)).foldl (loseGroups quay) s
    set ((List.range 16).foldl (fun s p => (partOf s p).suspended.foldl (loseSuspended quay p) s) s)) s

/-! ### Reset -/

/-- R360. reset is written in `qf.ctl` of a Fenced quay: the berth-array domain is reset (R74, R318) and tests itself; its cores count
their clocks from here (R56) (DEDUCED: log entry 48). -/
def execQuayResetCommand (quay : Nat) (s : State) : Outcome :=
  runEvent (do
    let s ← get
    need (decide (quay < 2) && (quayOf s quay).mode == .fenced)
    let s := loseArray s quay
    set { s with
      berths := s.berths.map fun (e : Nat × Berth) => (e.1, if berthQuay e.1 = quay then { e.2 with dbg := Debug.reset } else e.2)
      quays := tabPut s.quays quay { quayOf s quay with mode := .resetting, resetAt := s.clk } }) s

/-- R360. The self-test passes: the quay is Up, its harbourmaster is not the master, and no berth is assigned (DEDUCED: log entry 48). -/
def execSelfTestPass (quay : Nat) (s : State) : Outcome :=
  runEvent (do
    let s ← get
    need (decide (quay < 2) && (quayOf s quay).mode == .resetting)
    let s := setQuay s quay { quayOf s quay with mode := .up }
    set { s with glob := { s.glob with master := 1 - quay }, berths := s.berths.map fun (e : Nat × Berth) => (e.1, if berthQuay e.1 = quay then { e.2 with owner := 0x40 } else e.2) }) s

/-- R360. The self-test fails: the quay is Fenced again and the fence source is raised (DEDUCED: log entry 48). -/
def execSelfTestFail (quay : Nat) (s : State) : Outcome :=
  runEvent (do
    let s ← get
    need (decide (quay < 2) && (quayOf s quay).mode == .resetting)
    set (raiseIrq (setQuay s quay { quayOf s quay with mode := .fenced }) (644 + quay) 0)) s

end Sys2Proof.Machine
end

