-- ==== Sys2Proof/Machine/Quayline.lean ====
section
/-!
DEFINITION. The Quayline ports (R379 to R381): training, loss, and the accesses that arrive from the partner package.
-/
namespace Sys2Proof.Machine

open Sys2Proof

/-! ### Training -/

def portOf (s : State) (port : Nat) : QlPort := if port = 0 then s.glob.ql0 else s.glob.ql1
def setPort (s : State) (port : Nat) (q : QlPort) : State :=
  { s with glob := if port = 0 then { s.glob with ql0 := q } else { s.glob with ql1 := q } }

/-- R379: training lasts at most 500 ms. -/
def trainLimit : Nat := 500000 * clkPerUs

/-- R379. en of `ql.ctl` is written 1: a port that is Down trains. -/
def execQlEnable (port : Nat) (s : State) : Outcome :=
  runEvent (do
    let s ← get
    need (decide (port < 2))
    let q := { portOf s port with en := true }
    set (setPort s port (if q.state = .down then { q with state := .train, lanes := 0, trainFrom := s.clk } else q))) s

/-- R379: the partner packages with which a port opens. -/
def partnerFits (i : QlIdentity) : Bool := (i.product == .w20 || i.product == .d40) && i.sameArithmetic

/-- R379. All lanes lock in time and identities are exchanged: a port in Train comes to Check. The identity is checked: a port in
Check opens or fails (DEDUCED: log entry 49). -/
def execQlLanesLocked (port : Nat) (ident : QlIdentity) (s : State) : Outcome :=
  runEvent (do
    let s ← get
    let q := portOf s port
    need (decide (port < 2))
    match q.state with
    | .train => do
      need (decide (s.clk ≤ q.trainFrom + trainLimit))
      set (setPort s port { q with state := .check, lanes := 0xFF })
    | .check =>
      if partnerFits ident then set (setPort s port { q with state := .up })
      else set (raiseIrq (setPort s port { q with state := .fail }) (641 + port) 0)
    | _ => halt .disabled) s

/-- R379. The lanes have not locked in 500 ms. -/
def execQlTrainTimeout (port : Nat) (s : State) : Outcome :=
  runEvent (do
    let s ← get
    let q := portOf s port
    need (decide (port < 2) && q.state == .train && decide (q.trainFrom + trainLimit ≤ s.clk))
    set (raiseIrq (setPort s port { q with state := .down, lanes := 0 }) (641 + port) 0)) s

/-- R379. A flit fails its CRC and is replayed; nothing above the link layer changes. -/
def execQlFlitCrcReplay (port : Nat) (s : State) : Outcome :=
  runEvent (do
    let s ← get
    let q := portOf s port
    need (decide (port < 2) && q.state == .up)
    set (setPort s port { q with replays := q.replays + 1 })) s

/-! ### Loss -/

/-- R381: a running remote copy ends when its port goes Down. -/
def failRemote (s : State) (b port : Nat) (c : Copy) : Copy :=
  if c.running ∧ c.outcome.isNone ∧ (copyPorts s b c).contains port then endedCopy c cCOPY 7 c.count else c

/-- R379, R381: a port goes Down. -/
def portDown (s : State) (port : Nat) : State :=
  let s := setPort s port { portOf s port with state := .down, lanes := 0 }
  { s with berths := s.berths.map fun (e : Nat × Berth) =>
      (e.1, { e.2 with chans := e.2.chans.map fun q => (q.1, q.2.map (failRemote s e.1 port)) }) }

/-- R379, R381. en of `ql.ctl` is written 0 (DEDUCED: log entry 49). -/
def execQlDisable (port : Nat) (s : State) : Outcome :=
  runEvent (do
    let s ← get
    need (decide (port < 2))
    let q := portOf s port
    let s := setPort s port { q with en := false }
    set (match q.state with
      | .up => portDown s port
      | .fail => setPort s port { q with en := false, state := .down, lanes := 0 }
      | _ => s)) s

/-- R379, R381. 16 uncorrectable flits in a row take a port Down. -/
def execQlLinkFailure (port : Nat) (s : State) : Outcome :=
  runEvent (do
    let s ← get
    need (decide (port < 2) && (portOf s port).state == .up)
    set (portDown s port)) s

/-! ### Accesses of the partner -/

/-- R380: whether the partner may access bytes of a partition: within its grants, without a phase double that a write would meet,
and readable where they are read. -/
def partnerOk (s : State) (part addr n : Nat) (read write : Bool) : Bool :=
  outsideOk s part addr n && !(write && meetsMark s addr n) && !(read && isBad (recallRange s addr n) addr n)

/-- R380: the answer to the partner: the value and whether the access was refused. -/
def answerPartner (refused : Bool) (v : Nat) : Act Unit :=
  modGlob fun g => { g with readOut := BitVec.ofNat 64 v, accessFault := refused }

/-- R268, R380: an element of the partner's `cpred` is added at its home; the partner is told the flags. -/
def partnerReduce (addr : Nat) (bf16 : Bool) (data : BitVec 32) : Act Unit := do
  let n := if bf16 then 2 else 4
  let fmt := if bf16 then fBF16 else fFP32
  let s := recallRange (← get) addr n
  let (v, fl) := reduceElem fmt (natOfBytes (memRead s.mem addr n)) (bitsAt data.toNat 0 (8 * n))
  set (wideWrite s addr (bytesOf n v))
  answerPartner false fl.toNat

/-- R120, R381: where the phase double that `ql.phase` names lies, once D of its leaf is set; `none` where it is not a writable
location of the partition. -/
def partnerPhase (s : State) (part : Nat) : Option (Phys × State) :=
  let va := fieldOf (partOf s part).qlPhase 0 48
  if isTranslated va = false then none
  else
    match unitStore s part va with
    | .error _ => none
    | .ok x => some x

/-- R381: a `parrive.rel.sys` on the phase double that `ql.phase` names (DEDUCED: log entry 49). -/
def partnerArrive (part : Nat) : Act Unit := do
  let va := fieldOf (partOf (← get) part).qlPhase 0 48
  need (!(isTranslated va && unitHeld (← get) part va 8 true))
  match partnerPhase (← get) part with
  | none => answerPartner true 0
  | some (p, s) => do
    need (!storeHeld s p.key 8)
    let (v, s) := phaseServe (recallRange s p.key 8) 1 p.key 0 none
    set s
    answerPartner false v.toNat

/-- The partition whose memory an access of the partner names. -/
def partnerPart : PartnerAccess → Nat
  | .read part _ _ => part
  | .write part _ _ => part
  | .writeBits part _ _ _ _ => part
  | .reduce part _ _ _ => part
  | .arrive part => part

/-- R135, R136: a Quayline port, in and out, does not serve a partition. -/
def portBarred (s : State) (port part : Nat) : Bool := barred s part (18 + 2 * port) || barred s part (19 + 2 * port)

/-- R380, R381. An access of the partner package arrives, is checked against the grants of the partition it names, and is
performed at the home slices or refused (DEDUCED: log entry 49). -/
def execQuaylinePartnerAccess (port : Nat) (acc : PartnerAccess) (s : State) : Outcome :=
  runEvent (do
    let s ← get
    need (decide (port < 2) && (portOf s port).state == .up && !portBarred s port (partnerPart acc))
    match acc with
    | .read part addr n =>
      if partnerOk s part addr n true false then do
        need (!unitWaits s part addr n false)
        let s := recallRange s addr n
        set s
        answerPartner false (natOfBytes (memRead s.mem addr n))
      else answerPartner true 0
    | .write part addr bs =>
      if partnerOk s part addr bs.length false true then do
        need (!unitWaits s part addr bs.length true)
        set (wideWrite (recallRange s addr bs.length) addr bs)
        answerPartner false 0
      else answerPartner true 0
    | .writeBits part addr bit width v => do
      let n := (bit + width + 7) / 8
      if partnerOk s part addr n false true then do
        need (!unitWaits s part addr n true)
        let s := recallRange s addr n
        set (wideWrite s addr (pieceMerge ⟨addr, bit, width, true⟩ (memRead s.mem addr n) v))
        answerPartner false 0
      else answerPartner true 0
    | .reduce part addr bf16 data => do
      let n := if bf16 then 2 else 4
      if partnerOk s part addr n true true then do
        need (!unitWaits s part addr n true)
        partnerReduce addr bf16 data
      else answerPartner true 0
    | .arrive part => partnerArrive part) s

end Sys2Proof.Machine
end

