-- ==== Sys2Proof/Machine/Errors.lean ====
section
/-!
DEFINITION. Memory errors (R356 to R359): corrected ones, which are counted, and uncorrectable ones, which retire what they
strike.
-/
namespace Sys2Proof.Machine

open Sys2Proof

/-- R356. A correctable error of an array is corrected and counted; the source is raised when the count reaches the threshold (DEDUCED: log entry 50). -/
def execCorrectableError (array : Nat) (s : State) : Outcome :=
  runEvent (do
    let s ← get
    let n := tabGet 0 s.glob.ceCount array + 1
    let s := { s with glob := { s.glob with ceCount := tabPut s.glob.ceCount array n } }
    set (if n = s.glob.ceThresh.toNat then raiseIrq s 647 0 else s)) s

/-- R359: a clean line of an L1 is invalidated; a dirty one held data that is now lost, and is marked bad (DEDUCED: log entry 50). -/
def retireL1 (s : State) (b line : Nat) : State :=
  match tabFind? (berthOf s b).l1 line with
  | none => s
  | some l =>
    let s := setBerth s b { berthOf s b with l1 := tabErase (berthOf s b).l1 line }
    if l.dirty = 0 then s else retireLine s line

/-- R359: the same for a quay's L2 copy of a line (DEDUCED: log entry 50). -/
def retireL2 (s : State) (q line : Nat) : State :=
  match tabFind? (quayOf s q).l2 line with
  | none => s
  | some l =>
    let s := setQuay s q { quayOf s q with l2 := tabErase (quayOf s q).l2 line }
    if l.dirty = 0 then s else retireLine s line

/-- R357, R358: a register that holds a value can no longer be read. -/
def spoil (t : Tab RegState) (n : Nat) : Tab RegState :=
  if tabGet .full t n = .full then tabPut t n (.error (errorDetail 3 n)) else t

/-- R357 to R360. An uncorrectable error strikes a line, a register, or the tables of a quay, which is then fenced (DEDUCED: log entry 50). -/
def execUncorrectableError (place : ErrorPlace) (s : State) : Outcome :=
  runEvent (do
    let s ← get
    match place with
    | .line loc => set (retireLine s (loc / 64))
    | .l1 b line => set (retireL1 s b line)
    | .l2 q line => set (retireL2 s q line)
    | .xreg k c n => do
      need (1 ≤ n && n < 28 && (ctxOf s k c).mode != .free)
      modCtx k c fun x => { x with xs := spoil x.xs n }
    | .vreg k c n => do
      need (n < 64 && !(28 ≤ n && n < 32) && (ctxOf s k c).mode != .free)
      modCtx k c fun x => { x with vs := spoil x.vs n }
    | .creg k c n => do
      need (1 ≤ n && n < 16 && (ctxOf s k c).mode != .free)
      modCtx k c fun x => { x with cs := spoil x.cs n }
    | .mreg k c n => do
      need (1 ≤ n && n < 8 && (ctxOf s k c).mode != .free)
      modCtx k c fun x => { x with ms := tabPut x.ms n (.error (errorDetail 3 n)) }
    | .icache k line => modCore k fun c => { c with icache := tabErase c.icache line }
    | .tags loc dirty => if dirty then set (retireLine s (loc / 64)) else pure ()
    | .staging b =>
      modBerth b fun y => { y with mat := { y.mat with queue := y.mat.queue.map fun c =>
        if c.adapters.isEmpty then c else { c with bad := true } } }
    | .quayTables q => do
      need (decide (q < 2) && (quayOf s q).mode == .up)
      set (startFence s q 1)) s

end Sys2Proof.Machine
end

