-- ==== Sys2Proof/Machine/Ckpt.lean ====
section
/-!
DEFINITION. Checkpoints and replay (R362 to R365).
-/
namespace Sys2Proof.Machine

open Sys2Proof

/-! ### The cut -/

/-- R362: the fields of `ck.ctl` and `ck.log`. -/
def ckEnabled (c : Ckpt) : Bool := c.ctl.getLsbD 0
def ckReplaying (c : Ckpt) : Bool := c.ctl.getLsbD 1
def ckKeep (c : Ckpt) : Nat := fieldOf c.ctl 2 4
def ckPeriod (c : Ckpt) : Nat := fieldOf c.ctl 6 10 * 1000 * clkPerUs
def ckLogBytes (c : Ckpt) : Nat := fieldOf c.log 0 12 * 2 ^ 20

/-- R363: the berths that run a partition. -/
def runningBerths (s : State) (part : Nat) : List Nat := (List.range 128).filter fun b => berthPart s b == some part

/-- R363: every berth that runs the partition can save, and nothing of the partition is under way that neither a save nor the
checkpoint would hold (DEDUCED: log entry 51). -/
def cutReady (s : State) (part : Nat) : Bool :=
  ((runningBerths s part).all fun b => saveReady s part b && !(berthOf s b).dbg.halted) &&
    !(s.glob.overflow.any fun o => o.pair.part == part) &&
    !(s.reqs.any fun e => e.2.part == part) && cachesReady s

/-- R363 step 4: the bytes of a partition's grants. -/
def grantCells (s : State) (part : Nat) : List Host.Cell :=
  s.mem.filter fun c => decide (c.1 < extEnd) && inGrants (partOf s part) c.1 1
def grantTags (s : State) (part : Nat) : List Nat :=
  s.tags.filter fun t => decide (t * 32 < extEnd) && inGrants (partOf s part) (t * 32) 32

/-- R134: whether a location lies in a partition's L2-direct units. -/
def isL2Of (part key : Nat) : Bool := isL2Key key && (key - 2 ^ 50) / 2 ^ 22 / 32 == part

/-- R281: marked doubles of a partition outside the windows. -/
def ownPhase (s : State) (part key : Nat) : Bool :=
  isL2Of part key || (decide (key < extEnd) && inGrants (partOf s part) key 8)

/-- R357, R359: the bad lines of a partition's grants. -/
def grantBad (s : State) (part : Nat) : List (Nat × List Nat) :=
  ([0, 1].flatMap fun q => (quayOf s q).badLines).filter fun e => decide (e.1 * 64 < extEnd) && inGrants (partOf s part) (e.1 * 64) 64

/-- R363: the checkpoint of a partition whose berths are saved (DEDUCED: log entry 51). -/
def checkpointOf (s : State) (part : Nat) : Checkpoint where
  seq := (partOf s part).ck.seq + 1
  mem := grantCells s part
  tags := grantTags s part
  saved := s.berths.flatMap fun e => (e.2.saved.filter fun x => x.part == part).map fun x => (e.1, x)
  launches := s.launches.filter fun e => e.2.part == part
  suspended := (partOf s part).suspended
  spill := s.cores.filterMap fun e => if (tabGet [] e.2.spill part).isEmpty then none else some (e.1, tabGet [] e.2.spill part)
  pending := s.quays.map fun e => (e.1, e.2.pending.filter fun f => f.part == part)
  ring := s.quays.map fun e => (e.1, e.2.ring.filter fun f => f.part == part)
  recs := s.slices.map fun e => (e.1, e.2.seg.filter (fun r => r.part == part), tabGet [] e.2.rings part)
  pairs := s.slices.map fun e => (e.1, e.2.pairs.filter (fun p => p.part == part), tabGet [] e.2.pairRings part)
  phases := s.phases.filter fun e => ownPhase s part e.1
  blocks := s.glob.blocks.filter fun e => inGrants (partOf s part) (e.1 * 256) 256
  bad := grantBad s part
  mesh := s.mesh.filter fun f => f.part == part
  log := []

/-- R230: everything the caches alone hold reaches its home. -/
def flushCaches (s : State) : State :=
  [0, 1].foldl (fun s q => (quayOf s q).l2.foldl (fun s e => l2WriteBack s q e.1) s) (writeBackAll s)

/-- R363 steps 1 and 3: a berth saves, and resumes with the slice end and the reservation it had. -/
def resumeBerth (before : State) (part : Nat) (s : State) (b : Nat) : State :=
  match (berthOf s b).saved.find? fun x => x.part == part with
  | none => s
  | some x =>
    let s := restoreBerth s b x
    setBerth s b { berthOf s b with
      runs := (berthOf before b).runs
      sliceEnd := (berthOf before b).sliceEnd
      reservedFor := (berthOf before b).reservedFor }

/-- R363 steps 1 to 3, R364: the cut of a partition. The log so far belongs to the checkpoint before it (DEDUCED: log entry 51). -/
def takeCut (s : State) (part : Nat) : State :=
  let bs := runningBerths s part
  let t := flushCaches (bs.foldl (fun s b => saveBerth s part b) s)
  let cp := checkpointOf t part
  let u := bs.foldl (resumeBerth s part) t
  let p := partOf u part
  let kept := match p.ck.kept.reverse with
    | [] => []
    | c :: r => ({ c with log := c.log ++ p.ck.entries } :: r).reverse
  setPart u part { p with ck := { p.ck with busy := true, cutAt := s.clk, entries := [], kept := kept, pending := some cp } }

/-- R363. A checkpoint is taken every T ms. -/
def execCheckpointPeriodExpiry (part : Nat) (s : State) : Outcome :=
  runEvent (do
    let s ← get
    let c := (partOf s part).ck
    need (decide (part < 16) && ckEnabled c && !c.busy && !c.full && decide (c.cutAt + ckPeriod c ≤ s.clk) && cutReady s part)
    set (takeCut s part)) s

/-- R363. A checkpoint is taken early when the log area is full. -/
def execLogFullCheckpoint (part : Nat) (s : State) : Outcome :=
  runEvent (do
    let s ← get
    let p := partOf s part
    let c := p.ck
    need (decide (part < 16) && ckEnabled c && !c.busy && !c.full && decide (ckLogBytes c ≤ 8 * c.entries.length) && cutReady s part)
    set (takeCut (setPart s part { p with ck := { c with early := true } }) part)) s

/-- R363: the dredger has written a checkpoint into its area: the bytes there, in a layout of the device's own, and their tags. A chunk that
cannot be written, or not now (R136, R241, R383), keeps its bytes (DESIGN CHOICE: log entry 10). -/
def touchArea (s : State) (part : Nat) : State :=
  let c := (partOf s part).ck
  let n := s.freeCtr
  (List.range (fieldOf c.area 0 12 * 2 ^ 21)).foldl (fun s i =>
    let va := fieldOf c.area 16 32 * 65536 + 512 * i
    if unitHeld s part va 512 true then s
    else
      match unitStore s part va with
      | .error _ => s
      | .ok (p, t) =>
        let t := unitWrite t p.key (padTo 512 (Config.areaBytes n i))
        let set_ := (List.range 16).filter fun j => p.tagOk && (Config.areaTags n i).getLsbD j
        { t with tags := set_.foldl (fun t j => setInsert t (p.key / 32 + j)) t.tags }) { s with freeCtr := n + 1 }

/-- R362, R363. The dredger has copied every granule: seq advances and the oldest increment beyond keep is folded away; or the
area is full and checkpoints stop (DESIGN CHOICE: log entry 10). A bad line that it met is reported and stays bad in the copy (R357) (DESIGN CHOICE: log entry 50). -/
def execCheckpointComplete (part : Nat) (s : State) : Outcome :=
  runEvent (do
    let s ← get
    let p := partOf s part
    let cp ← needSome p.ck.pending
    let full := Config.areaFull s.freeCtr
    let s := touchArea { s with freeCtr := s.freeCtr + 1 } part
    let s := if cp.bad.isEmpty then s else mapError s part
    let p := partOf s part
    if full then
      set (setPart s part { p with ck := { p.ck with full := true, busy := false, pending := none } })
    else
      let kept := p.ck.kept ++ [cp]
      set (setPart s part { p with ck := { p.ck with
        busy := false
        pending := none
        seq := cp.seq
        kept := kept.drop (kept.length - ckKeep p.ck) } })) s

/-! ### Replay -/

/-- R365, R357: bytes and tags of the grants as a checkpoint has them, with no cached copy left of them; a line that was bad at the cut is bad. -/
def restoreMemory (s : State) (part : Nat) (cp : Checkpoint) : State :=
  let p := partOf s part
  let mine := fun (key n : Nat) => decide (key < extEnd) && inGrants p key n
  let drop := fun (t : Tab Line) => t.filter fun e => !mine (e.1 * 64) 64
  let s := { s with
    tags := cp.tags.foldl setInsert (s.tags.filter fun t => !mine (t * 32) 32)
    phases := cp.phases.foldl (fun t e => tabPut t e.1 e.2) (s.phases.filter fun e => !ownPhase s part e.1)
    berths := s.berths.map fun (e : Nat × Berth) => (e.1, { e.2 with l1 := drop e.2.l1 })
    quays := s.quays.map fun (e : Nat × Quay) => (e.1, { e.2 with
      l2 := drop e.2.l2
      badLines := e.2.badLines.filter fun l => !mine (l.1 * 64) 64 })
    mem := s.mem.filter fun c => !mine c.1 1
    glob := { s.glob with blocks := cp.blocks.foldl (fun t e => tabPut t e.1 e.2) (s.glob.blocks.filter fun e => !mine (e.1 * 256) 256) } }
  let s := cp.mem.foldl (fun s c => { s with mem := memWrite s.mem c.1 [c.2] }) s
  tlbDrop (cp.bad.foldl (fun s l => markBad s l.1 l.2) s) part 0 allUnits

/-- R365: the messages, records, pairs and launches that the hardware holds of a partition are those of a checkpoint. -/
def restoreQueues (s : State) (part : Nat) (cp : Checkpoint) : State :=
  let get := fun (l : List (Nat × List Flight)) (n : Nat) => ((l.find? fun e => e.1 == n).map (·.2)).getD []
  let spill := fun (k : Nat) (c : Core) => { c with
    spill := if (get cp.spill k).isEmpty then tabErase c.spill part else tabPut c.spill part (get cp.spill k) }
  let slice := fun (n : Nat) (sl : Slice) =>
    let r := ((cp.recs.find? fun e => e.1 == n).map (·.2)).getD ([], [])
    let q := ((cp.pairs.find? fun e => e.1 == n).map (·.2)).getD ([], [])
    { sl with
      seg := sl.seg.filter (fun x => x.part != part) ++ r.1
      rings := tabPut sl.rings part r.2
      pairs := sl.pairs.filter (fun x => x.part != part) ++ q.1
      pairRings := tabPut sl.pairRings part q.2 }
  { s with
    cores := s.cores.map fun (e : Nat × Core) => (e.1, spill e.1 e.2)
    slices := s.slices.map fun (e : Nat × Slice) => (e.1, slice e.1 e.2)
    quays := s.quays.map fun (e : Nat × Quay) =>
      (e.1, { e.2 with
        pending := e.2.pending.filter (fun f => f.part != part) ++ get cp.pending e.1
        ring := e.2.ring.filter (fun f => f.part != part) ++ get cp.ring e.1 })
    mesh := s.mesh.filter (fun f => f.part != part) ++ cp.mesh
    reqs := s.reqs.filter fun e => e.2.part != part
    launches := cp.launches.foldl (fun t e => tabPut t e.1 e.2) (s.launches.filter fun e => e.2.part != part)
    glob := { s.glob with overflow := s.glob.overflow.filter fun o => o.pair.part != part }
    parts := tabPut s.parts part { partOf s part with suspended := cp.suspended } }

/-- R365: a berth drops what it holds of the partition's work. -/
def dropWork (part : Nat) (s : State) (b : Nat) : State :=
  let s := (List.range 4).foldl (fun s i => setCore s (4 * b + i) (vacatedCore (coreOf s (4 * b + i)))) s
  setBerth (clearBerth s b) b { lostBerth (berthOf s b) with
    runs := (berthOf s b).runs
    sliceEnd := (berthOf s b).sliceEnd
    saved := (berthOf s b).saved.filter fun x => x.part != part }

/-- R365: a berth gets the state that a checkpoint holds of it, and resumes it if it runs the partition. -/
def regainBerth (part : Nat) (s : State) (e : Nat × SavedBerth) : State :=
  if berthPart s e.1 = some part then restoreBerth s e.1 e.2
  else setBerth s e.1 { berthOf s e.1 with saved := e.2 :: (berthOf s e.1).saved.filter fun x => x.part != part }

/-- R365: whether the launch slots of a checkpoint are free for it. -/
def slotsFree (s : State) (part : Nat) (cp : Checkpoint) : Bool :=
  cp.launches.all fun e => match tabFind? s.launches e.1 with
    | none => true
    | some l => l.part == part

/-- R365. With en clear, the state of a retained checkpoint is restored and replay mode is set (DEDUCED: log entry 51). -/
def execReplayStart (part : Nat) (seq : Nat) (s : State) : Outcome :=
  runEvent (do
    let s ← get
    let ck := (partOf s part).ck
    need (decide (part < 16) && !ckEnabled ck && !ck.busy && !ckReplaying ck)
    let cp ← needSome (ck.kept.find? fun c => c.seq.toNat == seq)
    need (slotsFree s part cp)
    let last := match ck.kept.reverse with
      | c :: _ => c.seq == cp.seq
      | [] => false
    let s := (runningBerths s part).foldl (dropWork part) s
    let s := restoreQueues (restoreMemory s part cp) part cp
    let s := cp.saved.foldl (regainBerth part) s
    let p := partOf s part
    set (setPart s part { p with ck := { p.ck with
      ctl := p.ck.ctl ||| 2
      replaying := if last then newestLog p.ck else cp.log } })) s

/-- R365. The logs of the interval have run out: the partition runs free. -/
def execReplayLogsExhausted (part : Nat) (s : State) : Outcome :=
  runEvent (do
    let s ← get
    let p := partOf s part
    need (ckReplaying p.ck && p.ck.replaying.isEmpty)
    set (setPart s part { p with ck := { p.ck with ctl := p.ck.ctl &&& ~~~ 2 } })) s

end Sys2Proof.Machine
end

