-- ==== Sys2Proof/Machine/Crypto.lean ====
section
/-!
DEFINITION. SHA-384 (FIPS 180-4) and the verification of ECDSA signatures on brainpoolP384r1 (RFC 5639), which R366 and R385 name.
Their constants and formulas are those of the standards (log entry 11).
-/
namespace Sys2Proof.Machine

open Sys2Proof

/-! ### SHA-384 -/

/-- The round constants (PRESUMED: log entry 11). -/
def shaConstants : List Dbl :=
  [0x428A2F98D728AE22, 0x7137449123EF65CD, 0xB5C0FBCFEC4D3B2F, 0xE9B5DBA58189DBBC,
    0x3956C25BF348B538, 0x59F111F1B605D019, 0x923F82A4AF194F9B, 0xAB1C5ED5DA6D8118,
    0xD807AA98A3030242, 0x12835B0145706FBE, 0x243185BE4EE4B28C, 0x550C7DC3D5FFB4E2,
    0x72BE5D74F27B896F, 0x80DEB1FE3B1696B1, 0x9BDC06A725C71235, 0xC19BF174CF692694] ++
  [0xE49B69C19EF14AD2, 0xEFBE4786384F25E3, 0x0FC19DC68B8CD5B5, 0x240CA1CC77AC9C65,
    0x2DE92C6F592B0275, 0x4A7484AA6EA6E483, 0x5CB0A9DCBD41FBD4, 0x76F988DA831153B5,
    0x983E5152EE66DFAB, 0xA831C66D2DB43210, 0xB00327C898FB213F, 0xBF597FC7BEEF0EE4,
    0xC6E00BF33DA88FC2, 0xD5A79147930AA725, 0x06CA6351E003826F, 0x142929670A0E6E70] ++
  [0x27B70A8546D22FFC, 0x2E1B21385C26C926, 0x4D2C6DFC5AC42AED, 0x53380D139D95B3DF,
    0x650A73548BAF63DE, 0x766A0ABB3C77B2A8, 0x81C2C92E47EDAEE6, 0x92722C851482353B,
    0xA2BFE8A14CF10364, 0xA81A664BBC423001, 0xC24B8B70D0F89791, 0xC76C51A30654BE30,
    0xD192E819D6EF5218, 0xD69906245565A910, 0xF40E35855771202A, 0x106AA07032BBD1B8] ++
  [0x19A4C116B8D2D0C8, 0x1E376C085141AB53, 0x2748774CDF8EEB99, 0x34B0BCB5E19B48A8,
    0x391C0CB3C5C95A63, 0x4ED8AA4AE3418ACB, 0x5B9CCA4F7763E373, 0x682E6FF3D6B2B8A3,
    0x748F82EE5DEFB2FC, 0x78A5636F43172F60, 0x84C87814A1F0AB72, 0x8CC702081A6439EC,
    0x90BEFFFA23631E28, 0xA4506CEBDE82BDE9, 0xBEF9A3F7B2C67915, 0xC67178F2E372532B] ++
  [0xCA273ECEEA26619C, 0xD186B8C721C0C207, 0xEADA7DD6CDE0EB1E, 0xF57D4F7FEE6ED178,
    0x06F067AA72176FBA, 0x0A637DC5A2C898A6, 0x113F9804BEF90DAE, 0x1B710B35131C471B,
    0x28DB77F523047D84, 0x32CAAB7B40C72493, 0x3C9EBE0A15C9BEBC, 0x431D67C49C100D4C,
    0x4CC5D4BECB3E42B6, 0x597F299CFC657E2A, 0x5FCB6FAB3AD6FAEC, 0x6C44198C4A475817]

/-- The initial hash value. -/
def shaInit : List Dbl :=
  [0xCBBB9D5DC1059ED8, 0x629A292A367CD507, 0x9159015A3070DD17, 0x152FECD8F70E5939,
    0x67332667FFC00B31, 0x8EB44A8768581511, 0xDB0C2E0D64F98FA7, 0x47B5481DBEFA4FA4]

def shaWord (l : List Dbl) (i : Nat) : Dbl := l.getD i 0

/-- A number from bytes, the first being the highest. -/
def beNat (bs : List Byte) : Nat := bs.foldl (fun v b => 256 * v + b.toNat) 0

/-- Words of a block, the newest first, so that word t - k stands at position k - 1. -/
def shaSchedule : Nat → List Dbl → List Dbl
  | 0, w => w
  | n + 1, w =>
    let a := shaWord w 1
    let b := shaWord w 14
    let s1 := a.rotateRight 19 ^^^ a.rotateRight 61 ^^^ (a >>> 6)
    let s0 := b.rotateRight 1 ^^^ b.rotateRight 8 ^^^ (b >>> 7)
    shaSchedule n ((s1 + shaWord w 6 + s0 + shaWord w 15) :: w)

/-- The eight working variables. -/
structure ShaState where
  a : Dbl
  b : Dbl
  c : Dbl
  d : Dbl
  e : Dbl
  f : Dbl
  g : Dbl
  h : Dbl

def shaRound (v : ShaState) (kw : Dbl × Dbl) : ShaState :=
  let s1 := v.e.rotateRight 14 ^^^ v.e.rotateRight 18 ^^^ v.e.rotateRight 41
  let ch := (v.e &&& v.f) ^^^ (~~~ v.e &&& v.g)
  let t1 := v.h + s1 + ch + kw.1 + kw.2
  let s0 := v.a.rotateRight 28 ^^^ v.a.rotateRight 34 ^^^ v.a.rotateRight 39
  let maj := (v.a &&& v.b) ^^^ (v.a &&& v.c) ^^^ (v.b &&& v.c)
  ⟨t1 + (s0 + maj), v.a, v.b, v.c, v.d + t1, v.e, v.f, v.g⟩

def ShaState.add (v w : ShaState) : ShaState :=
  ⟨v.a + w.a, v.b + w.b, v.c + w.c, v.d + w.d, v.e + w.e, v.f + w.f, v.g + w.g, v.h + w.h⟩

/-- One block of 128 bytes. -/
def shaBlock (v : ShaState) (bs : List Byte) : ShaState :=
  let w := ((List.range 16).map fun i => BitVec.ofNat 64 (beNat ((bs.drop (8 * i)).take 8))).reverse
  v.add ((shaConstants.zip (shaSchedule 64 w).reverse).foldl shaRound v)

/-- The blocks of a padded message. -/
def shaBlocks : Nat → ShaState → List Byte → ShaState
  | 0, v, _ => v
  | n + 1, v, bs => shaBlocks n (shaBlock v (bs.take 128)) (bs.drop 128)

/-- The padding of a message of n bytes. -/
def shaPad (n : Nat) : List Byte :=
  0x80 :: List.replicate ((128 - (n + 17) % 128) % 128) 0 ++ (bytesOf 16 (8 * n)).reverse

/-- The 48 bytes of SHA-384 (PRESUMED: log entry 11). -/
def sha384 (bs : List Byte) : List Byte :=
  let m := bs ++ shaPad bs.length
  let i := shaWord shaInit
  let v := shaBlocks (m.length / 128) ⟨i 0, i 1, i 2, i 3, i 4, i 5, i 6, i 7⟩ m
  [v.a, v.b, v.c, v.d, v.e, v.f].flatMap fun x => (bytesOf 8 x.toNat).reverse

/-! ### brainpoolP384r1 -/

/-- The field's prime, the curve's coefficients, the base point and its order (PRESUMED: log entry 11). -/
def bpP : Nat := 0x8CB91E82A3386D280F5D6F7E50E641DF152F7109ED5456B412B1DA197FB71123ACD3A729901D1A71874700133107EC53
def bpA : Nat := 0x7BC382C63D8C150C3C72080ACE05AFA0C2BEA28E4FB22787139165EFBA91F90F8AA5814A503AD4EB04A8C7DD22CE2826
def bpB : Nat := 0x04A8C7DD22CE28268B39B55416F0447C2FB77DE107DCD2A62E880EA53EEB62D57CB4390295DBC9943AB78696FA504C11
def bpX : Nat := 0x1D1C64F068CF45FFA2A63A81B7C13F6B8847A3E77EF14FE3DB7FCAFE0CBD10E8E826E03436D646AAEF87B2E247D4AF1E
def bpY : Nat := 0x8ABE1D7520F9C2A45CB1EB8E95CFD55262B70B29FEEC5864E19C054FF99129280E4646217791811142820341263C5315
def bpQ : Nat := 0x8CB91E82A3386D280F5D6F7E50E641DF152F7109ED5456B31F166E6CAC0425A7CF3AB6AF6B7FC3103B883202E9046565

/-- A power modulo m, by squaring. -/
def powMod (m : Nat) : Nat → Nat → Nat → Nat
  | 0, _, _ => 1 % m
  | n + 1, b, e => if e = 0 then 1 % m else (if e % 2 = 1 then b else 1) * powMod m n (b * b % m) (e / 2) % m

/-- The inverse modulo a prime of 384 bits. -/
def invMod (m a : Nat) : Nat := powMod m 385 (a % m) (m - 2)

/-- A point in Jacobian coordinates; z = 0 is the point at infinity. -/
structure EcPoint where
  x : Nat
  y : Nat
  z : Nat

def ecInfinity : EcPoint := ⟨1, 1, 0⟩

def subP (a b : Nat) : Nat := (a + (bpP - b % bpP)) % bpP

def ecDouble (p : EcPoint) : EcPoint :=
  if p.z = 0 ∨ p.y = 0 then ecInfinity
  else
    let yy := p.y * p.y % bpP
    let s := 4 * p.x * yy % bpP
    let zz := p.z * p.z % bpP
    let m := (3 * p.x * p.x + bpA * (zz * zz % bpP)) % bpP
    let x := subP (m * m) (2 * s)
    ⟨x, subP (m * subP s x) (8 * yy * yy), 2 * p.y * p.z % bpP⟩

def ecAdd (p q : EcPoint) : EcPoint :=
  if p.z = 0 then q
  else if q.z = 0 then p
  else
    let z1 := p.z * p.z % bpP
    let z2 := q.z * q.z % bpP
    let u1 := p.x * z2 % bpP
    let u2 := q.x * z1 % bpP
    let s1 := p.y * z2 % bpP * q.z % bpP
    let s2 := q.y * z1 % bpP * p.z % bpP
    if u1 = u2 then (if s1 = s2 then ecDouble p else ecInfinity)
    else
      let h := subP u2 u1
      let r := subP s2 s1
      let hh := h * h % bpP
      let hhh := h * hh % bpP
      let v := u1 * hh % bpP
      let x := subP (r * r) (hhh + 2 * v)
      ⟨x, subP (r * subP v x) (s1 * hhh), h * p.z % bpP * q.z % bpP⟩

/-- k times a point; `n` bounds the bits of k (PRESUMED: log entry 11). -/
def ecMul : Nat → Nat → EcPoint → EcPoint
  | 0, _, _ => ecInfinity
  | n + 1, k, p =>
    let r := ecMul n (k / 2) (ecDouble p)
    if k % 2 = 1 then ecAdd r p else r

/-- The x coordinate of a point that is not at infinity. -/
def ecX (p : EcPoint) : Nat := p.x * invMod bpP (p.z * p.z) % bpP

/-- Whether coordinates name a point of the curve. -/
def onCurve (x y : Nat) : Bool :=
  x < bpP && y < bpP && (y * y) % bpP == (x * x % bpP * x + bpA * x + bpB) % bpP

/-- R366, R385: whether (r, s) signs a message under a public key. R2 lays the four numbers out little-endian (PRESUMED: log entry 11). -/
def signatureOk (key : List Byte) (msg : List Byte) (sig : BitVec 768) : Bool :=
  let x := natOfBytes (key.take 48)
  let y := natOfBytes (key.drop 48)
  let r := bitsAt sig.toNat 0 384
  let s := bitsAt sig.toNat 384 384
  let e := beNat (sha384 msg)
  let w := invMod bpQ s
  let p := ecAdd (ecMul 384 (e * w % bpQ) ⟨bpX, bpY, 1⟩) (ecMul 384 (r * w % bpQ) ⟨x, y, 1⟩)
  key.length == 96 && onCurve x y && 0 < r && r < bpQ && 0 < s && s < bpQ && p.z != 0 && ecX p % bpQ == r

end Sys2Proof.Machine
end

