-- ==== Sys2Proof/Machine/Boot.lean ====
section
/-!
DEFINITION. Bring-up (R366, R367, R382), the loader's steps (R29, R318, R385, R388) and the eviction of dirty lines (R230).
-/
namespace Sys2Proof.Machine

open Sys2Proof

/-! ### Firmware -/

/-- R366: "AEDSYRFW" as stored. -/
def imageMagic : Nat := natOfBytes [0x41, 0x45, 0x44, 0x53, 0x59, 0x52, 0x46, 0x57]

/-- R366: bytes 0x000 to 0x047 of an image. -/
def imageHeader (i : FirmwareImage) : List Byte :=
  bytesOf 8 i.magic.toNat ++ bytesOf 4 i.version.toNat ++ bytesOf 4 i.rollback.toNat ++ bytesOf 8 i.bodyLen.toNat ++
    bytesOf 48 i.bodySha.toNat

/-- R366: whether the boot ROM accepts an image (PRESUMED: log entry 11) (DESIGN CHOICE: log entry 12) (DEDUCED: log entry 52). -/
def imageAccepted (s : State) (i : FirmwareImage) : Bool :=
  i.magic.toNat == imageMagic && i.bodyLen.toNat == i.body.length &&
    sha384 i.key == Config.fusedKeyDigest &&
    signatureOk i.key (imageHeader i) i.signature &&
    bytesOf 48 i.bodySha.toNat == sha384 i.body &&
    s.glob.fusedRollback.toNat ≤ i.rollback.toNat

/-- R382 steps 2 to 4: from accepted firmware to running application cores. A quay that fails its self-test stays Fenced;
the cores count their clocks from here (R56) (DESIGN CHOICE: log entry 2) (DEDUCED: log entry 48). -/
def bringUp (s : State) (b : BootInput) : State :=
  let tested := fun (s : State) (q : Nat) (pass : Bool) =>
    setQuay s q { quayOf s q with mode := if pass then .up else .fenced, resetAt := s.clk }
  let s := tested (tested s 0 b.selfTest0) 1 b.selfTest1
  { s with glob := { s.glob with
    boot := .done
    bootInput := none
    endpoint := b.endpointStrap
    master := if b.selfTest0 then 0 else 1 } }

/-- R366, R367, R382. The package comes out of power-on reset with the stored image, the one last written to flash if a recovery
wrote one, or waits for another. The fused counter and the flash stay, as does what only the model keeps (DEDUCED: log entry 52). -/
def execPowerOnReset (boot : BootInput) (s : State) : Outcome :=
  runEvent (do
    let s ← get
    let t := { State.reset with agenda := s.agenda, freeCtr := s.freeCtr }
    let t := { t with glob := { t.glob with fusedRollback := s.glob.fusedRollback, flash := s.glob.flash } }
    set (if imageAccepted t (t.glob.flash.getD boot.image) && !boot.recoveryStrap then bringUp t boot
      else { t with glob := { t.glob with boot := .waitImage, bootInput := some boot } })) s

/-- R367. The waiting boot ROM is given an image: a verified one is written to flash and booted, one that fails a check is discarded. -/
def execRecoveryImageLoad (image : FirmwareImage) (s : State) : Outcome :=
  runEvent (do
    let s ← get
    let b ← needSome s.glob.bootInput
    need (s.glob.boot == .waitImage && imageAccepted s image)
    set (bringUp { s with glob := { s.glob with flash := some image } } b)) s

/-- R367, R396: the firmware acts once it has been booted: it raises source 643, or advances the fused rollback counter. -/
def execFirmware (a : FirmwareAct) (s : State) : Outcome :=
  runEvent (do
    let s ← get
    need (s.glob.boot == .done)
    match a with
    | .raise => set (raiseIrq s 643 0)
    | .advanceRollback v => modGlob fun g => { g with fusedRollback := if g.fusedRollback.toNat < v.toNat then v else g.fusedRollback }) s

/-! ### Code objects and resident services -/

/-- R68, R385: the ordering revision of an object. -/
def objectOrdering (o : CodeObject) : Nat := o.ordering.getD (if o.target = .d30 then 1 else 2)

/-- R244: the fmt that marks a code capability with its object's ordering revision. -/
def codeFmt (o : CodeObject) : Nat := if objectOrdering o = 1 then fN8 else fRAW8

/-- R325: a rule's kinds as an unordered pair. -/
def rulePair (r : RuleDecl) : Nat × Nat := (min r.kindA.toNat r.kindB.toNat, max r.kindA.toNat r.kindB.toNat)

/-- R325: at most 64 kinds, each in its range, and one directive for a pair. -/
def rulesOk (o : CodeObject) : Bool :=
  let kinds := o.rules.flatMap fun r => [r.kindA, r.kindB]
  (kinds.eraseDups.length ≤ 64) && (kinds.all fun k => k.toNat ≤ 63 || 0xF000 ≤ k.toNat) && decide ((o.rules.map rulePair).Nodup)

/-- R385: a section starts on a 32-byte boundary, or on the wider one that its `.align` asks for. -/
def sectionOk (c : SectionDecl) : Bool := c.base % max 32 (2 ^ c.align) == 0

/-- R60, R68, R387: the instruction at a slot, by its low seven bits and [31:29], has the field that the slot's kind names. -/
def slotFits (w : Nat) : SlotKind → Bool
  | .imm12 => [(3, 0), (3, 1), (3, 2), (3, 3), (3, 4), (3, 5), (7, 0), (19, 0), (39, 2), (51, 0), (51, 1), (51, 2), (53, 0), (53, 3)].contains
      (w % 128, w / 2 ^ 29) || w % 128 == 17
  | .imm20 => w % 128 == 9
  | .fmt => w % 128 == 3 && (w / 2 ^ 29 == 0 || w / 2 ^ 29 == 2) && w / 2 ^ 23 % 64 == 0
  | .shape => w % 128 == 3 && w / 2 ^ 29 == 0

/-- R385: a slot lies in a section. -/
def slotOk (o : CodeObject) (l : SlotDecl) : Bool :=
  match o.sections[l.section_]? with
  | some c => l.offset + 4 ≤ c.bytes.length && slotFits (natOfBytes ((c.bytes.drop l.offset).take 4)) l.kind
  | none => false

/-- R387: a slot's instruction with a value patched in, if the value is one its kind admits. -/
def patchSlot (kind : SlotKind) (w : BitVec 32) (v : Int) : Option (BitVec 32) :=
  let put := fun (lo n : Nat) =>
    w &&& ~~~ BitVec.ofNat 32 ((2 ^ n - 1) * 2 ^ lo) ||| BitVec.ofNat 32 ((v % 2 ^ n).toNat * 2 ^ lo)
  match kind with
  | .imm12 => if -2048 ≤ v ∧ v ≤ 2047 then some (put 17 12) else none
  | .imm20 => if 0 ≤ v ∧ v < 2 ^ 20 then some (put 12 20) else none
  | .fmt => if 0 ≤ v ∧ (elemBits v.toNat).isSome then some (put 17 6) else none
  | .shape => if 1 ≤ v ∧ v ≤ 2047 then some (put 17 12) else none

/-- R385: what the signature is over: every section but itself. -/
def signedPart (o : CodeObject) : CodeObject :=
  { o with code := Cap.null, caps := [], signed := [], signature := 0, maxBerth := 0, maxQuay := 0 }

/-- R325, R385, R388: whether `mugld` accepts an object for a partition (DESIGN CHOICE: log entry 12) (DEDUCED: log entry 52). -/
def objectAccepted (part : Nat) (o : CodeObject) : Bool :=
  o.maxBerth ≤ 127 && o.maxQuay ≤ 1 && (objectOrdering o == 1 || objectOrdering o == 2) && capFmt o.code == codeFmt o &&
    rulesOk o && o.sections.all sectionOk && o.slots.all (slotOk o) && o.signed == Config.objectBytes (signedPart o) &&
    (Config.trustedKeys part).any fun k => signatureOk k o.signed o.signature

/-- R385. An object becomes resident for a partition under a free handle (DEDUCED: log entry 52). -/
def execCodeObjectLoad (part : Nat) (handle : Nat) (obj : CodeObject) (s : State) : Outcome :=
  runEvent (do
    let s ← get
    need (decide (part < 16 ∧ handle < 256) && (tabFind? (partOf s part).objs handle).isNone && objectAccepted part obj)
    modPart part fun p => { p with objs := tabPut p.objs handle obj }) s

/-- R29: the launch field of a resident service. -/
def residentLaunch : Nat := 64

/-- R29, R318. The loader binds channels of a core to handlers of a resident object. -/
def execResidentServiceInstall (svc : ServiceInstall) (s : State) : Outcome :=
  runEvent (do
    let s ← get
    need (decide (svc.core < 512) && berthPart s (coreBerth svc.core) == some svc.part &&
      (quayOf s (coreQuay svc.core)).mode == .up)
    let o ← needSome (tabFind? (partOf s svc.part).objs svc.handle)
    let s := giveBerth s (coreBerth svc.core) svc.part
    let hs := svc.which.filterMap fun i => o.handlers[i]?
    let bind := fun (c : Core) (h : HandlerDecl) =>
      bindChannel c h.channel.toNat (bindingOf o h svc.root residentLaunch svc.part) h.prio.toNat
    set (refreshSince (setCore s svc.core (hs.foldl bind (coreOf s svc.core))) svc.core)) s

/-! ### Eviction -/

/-- R135, R136: a write-back from a quay to the other crosses the bridge for a partition that has the line's memory; it waits while the
bridge serves none of them (DEDUCED: log entry 41). -/
def writeBackHeld (s : State) (q line : Nat) : Bool :=
  let ps := (List.range 16).filter fun p => inGrants (partOf s p) (line * 64) 64
  keyQuay (line * 64) != q && !ps.isEmpty && ps.all fun p => crossingHeld s p q (1 - q)

/-- R230. A line leaves a berth's L1 for the quay's L2, a quay's L2 for its home, or an instruction cache; a dirty one is written back
first, unless a copy owns it or a matrix command reads it (R218, R241) (DESIGN CHOICE: log entry 16). -/
def execL1WriteBack (place : CachePlace) (line : Nat) (s : State) : Outcome :=
  runEvent (do
    let s ← get
    match place with
    | .l1 b => do
      let l ← needSome (tabFind? (berthOf s b).l1 line)
      need (l.dirty == 0 || (!storeHeld s (line * 64) 64 && (l2Fits s (berthQuay b) line || !writeBackHeld s (berthQuay b) line)))
      let s := l1WriteBack s b line
      set (setBerth s b { berthOf s b with l1 := tabErase (berthOf s b).l1 line })
    | .l2 q => do
      let l ← needSome (tabFind? (quayOf s q).l2 line)
      need (l.dirty == 0 || (!storeHeld s (line * 64) 64 && !writeBackHeld s q line))
      let s := l2WriteBack s q line
      set (setQuay s q { quayOf s q with l2 := tabErase (quayOf s q).l2 line })
    | .icache k => do
      let _ ← needSome (tabFind? (coreOf s k).icache line)
      modCore k fun c => { c with icache := tabErase c.icache line }) s

end Sys2Proof.Machine
end

