-- ==== Sys2Proof/Machine/Branch.lean ====
section
/-!
DEFINITION. Branches and jumps (R169, R170).
-/
namespace Sys2Proof.Machine

open Sys2Proof

/-- R169. Taken when A = B. -/
def execBeq (o : BitVec 12) (b : BitVec 5) (a : BitVec 5) (s : State) : Outcome :=
  runInstr none (encBeq o b a) 4 (formB o b a fun x y => x == y) s

/-- R169. Taken when A ≠ B. -/
def execBne (o : BitVec 12) (b : BitVec 5) (a : BitVec 5) (s : State) : Outcome :=
  runInstr none (encBne o b a) 4 (formB o b a fun x y => x != y) s

/-- R169. Taken when signed A < B. -/
def execBlt (o : BitVec 12) (b : BitVec 5) (a : BitVec 5) (s : State) : Outcome :=
  runInstr none (encBlt o b a) 4 (formB o b a fun x y => x.slt y) s

/-- R169. Taken when signed A ≥ B. -/
def execBge (o : BitVec 12) (b : BitVec 5) (a : BitVec 5) (s : State) : Outcome :=
  runInstr none (encBge o b a) 4 (formB o b a fun x y => !x.slt y) s

/-- R169. Taken when A < B unsigned. -/
def execBltu (o : BitVec 12) (b : BitVec 5) (a : BitVec 5) (s : State) : Outcome :=
  runInstr none (encBltu o b a) 4 (formB o b a fun x y => x.ult y) s

/-- R169. Taken when A ≥ B unsigned. -/
def execBgeu (o : BitVec 12) (b : BitVec 5) (a : BitVec 5) (s : State) : Outcome :=
  runInstr none (encBgeu o b a) 4 (formB o b a fun x y => !x.ult y) s

/-- R170. Links to x26 and jumps. -/
def execJal (i : BitVec 25) (s : State) : Outcome :=
  runInstr none (encJal i) 4 (do
    let c ← here
    writeX 26 (c.pc + 4)
    pure (.jump (c.pc + 2 * i.signExtend 64))) s

/-- R170. Jumps to a register plus offset and links to xd. -/
def execJalr (f : BitVec 1) (ea : BitVec 1) (k : BitVec 12) (a : BitVec 5) (d : BitVec 5) (s : State) : Outcome :=
  runInstr (fwdRule f [a]) (encJalr f ea k a d) 4 (jumpReg f ea k a d 4) s

end Sys2Proof.Machine
end

