-- ==== Sys2Proof/Machine/Call.lean ====
section
/-!
DEFINITION. Capability call, return and unseal (R98 to R103), and the installation of `pcc` (R244).
-/
namespace Sys2Proof.Machine

open Sys2Proof

/-- R99: the format of a return token. -/
def fTOKEN : Nat := 0x3F

/-- R99: the token of a frame. -/
def tokenCap (nonce depth core ctx : Nat) : Cap :=
  ⟨BitVec.ofNat 256 (nonce + depth * 2 ^ 32 + core * 2 ^ 36 + ctx * 2 ^ 45 + fTOKEN * 2 ^ 48 + 2 ^ 235), true⟩

/-- R98: the detail word of a call check (step 11) or a return check (step 12). -/
def callDetail (step reason reg : Nat) : Dbl := det step reg 0 0 reason

/-- R100, R101: C[2] to C[1 + n] survive; C[1] to C[13] are null otherwise. -/
def keepArgs (x : Ctx) (n : Nat) : Ctx :=
  let kept := fun (r : Nat) => (2 ≤ r && r ≤ 1 + n) || 14 ≤ r
  { x with c := x.c.filter fun e => kept e.1, cs := x.cs.filter fun e => kept e.1, kcsa := Cap.null, kcsb := Cap.null }

/-- R244: an installation that takes a context into revision 1 waits until its release can be made (R241). -/
def waitInstall (pcc : Cap) : Act Unit := do
  let s ← get
  if capFmt pcc = fN8 ∧ (← here).rev1 = false ∧ releaseReady s (coreBerth s.cur.core) 3 = false then halt (.stall .other) else pure ()

/-- R244: installs `pcc` in a context; entering revision 1 releases at package scope first. -/
def installPcc (s : State) (k c : Nat) (pcc : Cap) (pc : Dbl) : State :=
  let x := ctxOf s k c
  let new := capFmt pcc == fN8
  let s := if new && !x.rev1 then release s (coreBerth k) 3 else s
  setCtx s k c { x with pcc := pcc, pc := pc, rev1 := new }

/-- R100. Calls through a sealed pair, pushing a frame and clearing what is not passed. -/
def execCcall (b : BitVec 4) (a : BitVec 4) (n : BitVec 5) (s : State) : Outcome :=
  runInstr (below n.toNat 12) (encCcall b a n) 4 (do
    let ca ← readC a.toNat
    let cb ← readC b.toNat
    let x ← here
    let ra := a.toNat
    let rb := b.toNat
    check ca.tag cTAG (det 1 ra 0 0 0)
    check cb.tag cTAG (det 1 rb 0 0 0)
    check (capSealed ca) cSEALED (callDetail 11 1 ra)
    check (capSealed cb) cSEALED (callDetail 11 1 rb)
    check (capFmt ca != fTOKEN) cSEALED (callDetail 11 2 ra)
    check (capFmt cb != fTOKEN) cSEALED (callDetail 11 2 rb)
    check (capOtype ca == capOtype cb) cSEALED (callDetail 11 3 rb)
    check (capHas ca pX) cPERM (det 3 ra 0 0 pX)
    check (x.frames.length < 8) cBOUNDS (callDetail 11 4 ra)
    waitDelivered
    waitInstall ca
    let r14 ← readC 14
    let r15 ← readC 15
    let s ← get
    let code := capSet ca 235 1 0
    let data := capSet cb 235 1 0
    let nonce := x.nonce + 1
    let frame : Frame := ⟨x.pcc, x.pc + 4, r14, r15, nonce⟩
    let token := tokenCap nonce.toNat (x.frames.length + 1) s.cur.core s.cur.ctx
    putHere (putC (putC { keepArgs x n.toNat with nonce := nonce, frames := x.frames ++ [frame] } 14 data) 15 token)
    modify fun s => installPcc s s.cur.core s.cur.ctx code (BitVec.ofNat 64 (capBase code))
    let pc := (← here).pc
    pure (.jump pc)) s

/-- R101. Returns through the token in C[15] (DESIGN CHOICE: log entry 62). -/
def execCret (n : BitVec 5) (s : State) : Outcome :=
  runInstr (below n.toNat 12) (encCret n) 4 (do
    let t ← readC 15
    let x ← here
    check (t.tag && capSealed t && capFmt t == fTOKEN) cSEALED (callDetail 12 1 15)
    check (!x.frames.isEmpty) cSEALED (callDetail 12 2 15)
    let s ← get
    match x.frames.getLast? with
    | none => halt (.trap cSEALED (callDetail 12 2 15))
    | some f => do
      let v := capBase t
      check (bitsAt v 0 32 == f.nonce.toNat && bitsAt v 32 4 == x.frames.length && bitsAt v 36 9 == s.cur.core &&
        bitsAt v 45 2 == s.cur.ctx) cSEALED (callDetail 12 3 15)
      waitDelivered
      waitInstall f.pcc
      putHere (putC (putC { keepArgs x n.toNat with frames := x.frames.dropLast } 14 f.root) 15 f.ret)
      modify fun s => installPcc s s.cur.core s.cur.ctx f.pcc f.rpc
      pure (.jump f.rpc)) s

/-- R102. Unseals a capability under a sealing authority. -/
def execCunseal (b : BitVec 4) (a : BitVec 4) (d : BitVec 4) (s : State) : Outcome :=
  runInstr none (encCunseal b a d) 4 (do
    let c ← readC a.toNat
    let k ← readC b.toNat
    check k.tag cTAG (det 1 b.toNat 0 0 0)
    check (!capSealed k) cSEALED (det 2 b.toNat 0 0 0)
    check (capHas k pK) cPERM (det 3 b.toNat 0 0 pK)
    check c.tag cTAG (det 1 a.toNat 0 0 0)
    check (capSealed c) cSEALED (callDetail 11 1 a.toNat)
    check (capFmt c != fTOKEN) cSEALED (callDetail 11 2 a.toNat)
    check (capOtype c == capOtype k) cSEALED (callDetail 11 3 b.toNat)
    writeC d.toNat (capSet c 235 1 0)
    pure .seq) s

end Sys2Proof.Machine
end

