-- ==== Sys2Proof/Machine/CapMem.lean ====
section
/-!
DEFINITION. `clc`, `csc` and `ctag` (R86, R87).
-/
namespace Sys2Proof.Machine

open Sys2Proof

/-- R86: the first steps of a capability access: links, indices, the capability and its check. -/
def capMemAccess (f eb ea : BitVec 1) (j i : BitVec 5) (c : BitVec 4) (perm width : Nat) : Act (Cap × Nat) := do
  let t ← readTuple f eb ea j i
  let cap ← readC c.toNat
  let s ← get
  let berth := coreBerth s.cur.core
  let (bit, _) ← liftChk (if width = 0 then capAccess berth cap c.toNat 0 perm t 0 else granuleAccess berth cap c.toNat perm t)
  pure (cap, bit)

/-- R86, R87. Loads a granule with its tag; the load barrier acts at delivery. -/
def execClc (f : BitVec 1) (eb : BitVec 1) (ea : BitVec 1) (j : BitVec 5) (i : BitVec 5) (c : BitVec 4) (d : BitVec 4) (s : State) : Outcome :=
  runInstr (fwdRule f [i, j]) (encClc f eb ea j i c d) 4 (do
    scalarLink i (forwards f [] i)
    scalarLink j (forwards f [i] j)
    let (cap, bit) ← capMemAccess f eb ea j i c pL 256
    watchTest 0 [(bit / 8, 32)]
    let s ← get
    let p ← translate (coreBerth s.cur.core) (← here).part (bit / 8) 0 false
    let piece : Piece := ⟨p.key, 0, 256, p.cached⟩
    waitPieces [piece] false
    let dst ← claimC d.toNat
    request dst (BitVec.ofNat 64 (bit / 8)) (.clc piece (capHas cap pLC && p.tagOk))
    pure .seq) s

/-- R86, R87. Stores a capability with its tag. -/
def execCsc (f : BitVec 1) (eb : BitVec 1) (ea : BitVec 1) (j : BitVec 5) (i : BitVec 5) (c : BitVec 4) (d : BitVec 4) (s : State) : Outcome :=
  runInstr (fwdRule f [i, j]) (encCsc f eb ea j i c d) 4 (do
    scalarLink i (forwards f [] i)
    scalarLink j (forwards f [i] j)
    let e ← readPair f eb ea j i
    let v ← readC d.toNat
    let cap ← readC c.toNat
    let s ← get
    let b := coreBerth s.cur.core
    let (bit, _) ← liftChk (granuleAccess b cap c.toNat pS (tuple e.1 e.2))
    let a := bit / 8
    if v.tag then do
      check (capHas cap pSC) cPERM (det 3 c.toNat 0 0 pSC)
      check (regionScope a ≤ capScope v) cSCOPE (det 9 c.toNat 0 0 (capScope v + 256 * regionScope a))
    else pure ()
    watchTest 1 [(a, 32)]
    let p ← translate b (← here).part a (if v.tag then 3 else 1) false
    let piece : Piece := ⟨p.key, 0, 256, p.cached⟩
    waitPieces [piece] true
    storePieces [(piece, v.bits.toNat, a)] a (some v) (portPops [(i, e.1), (j, e.2)]) (forwardDir f [i, j])) s

/-- R86: the tag of the granule that holds a location; windows C and W and L2-direct units keep none. -/
def tagAt (s : State) (key : Nat) : Bool := windowOf key != 0xE && s.tags.contains (key / 32)

/-- R86. Reads the tag of the granule that holds an element's first byte. -/
def execCtag (f : BitVec 1) (eb : BitVec 1) (ea : BitVec 1) (j : BitVec 5) (i : BitVec 5) (c : BitVec 4) (d : BitVec 5) (s : State) : Outcome :=
  runInstr (fwdRule f [i, j]) (encCtag f eb ea j i c d) 4 (do
    scalarLink i (forwards f [] i)
    scalarLink j (forwards f [i] j)
    scalarLink d false
    let (_, bit) ← capMemAccess f eb ea j i c pL 0
    watchTest 0 [(bit / 8, 1)]
    let s ← get
    let b := coreBerth s.cur.core
    let p ← translate b (← here).part (bit / 8) 0 false
    waitPieces [⟨p.key / 32 * 32, 0, 256, p.cached⟩] false
    waitOwn [⟨p.key / 32 * 32, 0, 256, p.cached⟩]
    waitHome [⟨p.key / 32 * 32, 0, 256, p.cached⟩]
    let s ← get
    let s := countMisses s s.cur.core s.cur.ctx [⟨p.key, 0, 8, p.cached⟩]
    let s := if p.cached then syncHome s b (p.key / 64) else s
    set s
    writeX d (boolDbl (p.tagOk && tagAt s p.key))
    pure .seq) s

end Sys2Proof.Machine
end

