-- ==== Sys2Proof/Machine/Fetch.lean ====
section
/-!
DEFINITION. Fetching an instruction (R59, R227, R244): the checks of `pcc`, the bytes through the instruction cache, and when
a context can issue (R46, R123, R159, R173, R197, R345, R360, R370).
-/
namespace Sys2Proof.Machine

open Sys2Proof

/-- R59, R79: whether an offset from the base is that of an element of a box whose dimensions are listed as extent and stride. -/
def boxOffset : List (Nat × Nat) → Nat → Bool
  | [], off => off == 0
  | (ext, str) :: r, off =>
    if str = 0 then boxOffset r off
    else
      match r with
      | [] => off % str == 0 && off / str < ext
      | _ => (List.range (min ext (off / str + 1))).any fun i => boxOffset r (off - i * str)

/-- R59: whether an address is a byte of the box of a code capability. -/
def boxHolds (c : Cap) (a : Nat) : Bool :=
  capBase c ≤ a && boxOffset ((List.range (capRank c)).reverse.map fun d => (capExt c d, capStr c d)) (a - capBase c)

/-- R59: the detail word of a trap taken at fetch (DEDUCED: log entry 23). -/
def fetchDetail (step value : Nat) : Dbl := det step 0 0 0 value ||| BitVec.ofNat 64 (2 ^ 48)

/-- R12: the 32 KiB of an instruction cache, in lines. -/
def icacheLines : Nat := 512

/-- R227: a line as an instruction cache fills it: from the quay's L2, or from the storage of a window or an L2-direct unit. -/
def codeLine (s : State) (k line : Nat) (cached : Bool) : BitVec 512 :=
  BitVec.ofNat 512 (natOfBytes (engineRead s (coreQuay k) (line * 64) 64 cached))

/-- R387: the halfword at an address, with its location, as an instruction cache takes it with the line before it. -/
def codeTail (s : State) (k part a : Nat) : Option (Nat × BitVec 16) :=
  match translate (coreBerth k) part a 2 false s with
  | .ok (p, _) =>
    if sliceIdle s p.key 2 || engineUnreadable s (coreQuay k) ⟨p.key, 0, 16, p.cached⟩ || (isTranslated a && bandHeld s (coreBerth k) part [⟨p.key, 0, 16, p.cached⟩]) then none
    else some (p.key, BitVec.ofNat 16 (natOfBytes (engineRead s (coreQuay k) p.key 2 p.cached)))
  | .error _ => none

/-- R12, R227: a line as the core's instruction cache holds it; one that it takes in comes with the halfword `tail` after it. A full cache
takes no line in until one leaves it (DESIGN CHOICE: log entry 16) (DEDUCED: log entry 55). -/
def icacheLine (s : State) (k line : Nat) (cached : Bool) (tail : Option (Nat × BitVec 16)) : BitVec 512 × State :=
  match tabFind? (coreOf s k).icache line with
  | some d => (d, s)
  | none =>
    let c := coreOf s k
    let d := codeLine s k line cached
    (d, if icacheLines ≤ c.icache.length then s
      else setCore s k { c with
        icache := tabPut c.icache line d
        itail := match tail with
          | some e => tabPut c.itail line e
          | none => tabErase c.itail line })

/-- R387: a stale line leaves the cache. -/
def dropStale (s : State) (k line : Nat) (cached : Bool) : State :=
  match tabFind? (coreOf s k).icache line with
  | some d =>
    if d = codeLine s k line cached then s else setCore s k { coreOf s k with icache := tabErase (coreOf s k).icache line }
  | none => s

/-- R59: the halfword at an address, after its translation (DEDUCED: log entries 23, 55). -/
def fetchHalf (a : Nat) : Act (BitVec 16) := do
  let s ← get
  let k := s.cur.core
  match windowCheck (coreBerth k) (← here).pcc 0 0 a (a + 1) false with
  | .ok _ => pure ()
  | .error (cause, d) => halt (.trap cause (d ||| BitVec.ofNat 64 (2 ^ 48)))
  let p ← translate (coreBerth k) (← here).part a 2 false
  let s ← get
  let held := (tabFind? (coreOf s k).icache (p.key / 64)).isSome
  if !held && (sliceIdle s p.key 2 || (isTranslated a && bandHeld s (coreBerth k) (← here).part [⟨p.key, 0, 16, p.cached⟩])) then
    halt (.stall .other)
  else if !held && engineUnreadable s (coreQuay k) ⟨p.key, 0, 16, p.cached⟩ then halt (.trap cUNCORR (errorDetail 2 a))
  else do
    let (d, s) := icacheLine s k (p.key / 64) p.cached (codeTail s k (← here).part ((a / 64 + 1) * 64))
    set s
    pure (d.extractLsb' (8 * (p.key % 64)) 16)

/-- R387: the line of a halfword leaves the instruction cache if it is stale. -/
def refreshHalf (a : Nat) : Act Unit := do
  let s ← get
  let k := s.cur.core
  let p ← translate (coreBerth k) (← here).part a 2 false
  modify fun s => dropStale s k (p.key / 64) p.cached

/-- R387: the halfword at an address as the cache took it with the line before it, if it holds that line. -/
def heldTail (a : Nat) : Act (Option (BitVec 16)) := do
  let s ← get
  let c := coreOf s s.cur.core
  let p ← translate (coreBerth s.cur.core) (← here).part (a - 2) 2 false
  let q ← translate (coreBerth s.cur.core) (← here).part a 2 false
  pure (match tabFind? c.icache (p.key / 64), tabFind? c.itail (p.key / 64) with
    | some _, some (key, h) => if key = q.key then some h else none
    | _, _ => none)

/-- R387: the first halfword of a 32-bit instruction and the second. An instruction that lies in two lines has all its old or all its new
bits: its second halfword is the one that came with the first's line. Where the cache holds none, stale lines leave it and both are
fetched (DEDUCED: log entry 55). -/
def fetchPair (a : Nat) : Act (BitVec 16 × BitVec 16) := do
  let hi ← fetchHalf (a + 2)
  if a % 64 = 62 then do
    let lo ← fetchHalf a
    match ← heldTail (a + 2) with
    | some hi => pure (lo, hi)
    | none => do
      refreshHalf a
      refreshHalf (a + 2)
      let lo ← fetchHalf a
      let hi ← fetchHalf (a + 2)
      pure (lo, hi)
  else do
    let lo ← fetchHalf a
    pure (lo, hi)

/-- R59, R244: fetches the instruction of the executing context; a 16-bit one stands in the low half (DESIGN CHOICE: log entry 23) (DEDUCED: log entry 55). -/
def fetchWord : Act (BitVec 32) := do
  let x ← here
  let a := x.pc.toNat
  check x.pcc.tag cTAG (fetchDetail 1 a)
  check (!capSealed x.pcc) cSEALED (fetchDetail 2 a)
  check (capHas x.pcc pX) cPERM (fetchDetail 3 pX)
  check (boxHolds x.pcc a && boxHolds x.pcc (a + 1)) cBOUNDS (fetchDetail 5 a)
  check (capFmt x.pcc == fRAW8 || capFmt x.pcc == fN8) cORDER (BitVec.ofNat 64 (capFmt x.pcc))
  check (a % 2 == 0) cALIGN (fetchDetail 8 a)
  let lo ← fetchHalf a
  if lo.getLsbD 0 then do
    check (boxHolds x.pcc (a + 2) && boxHolds x.pcc (a + 3)) cBOUNDS (fetchDetail 5 a)
    let (lo, hi) ← fetchPair a
    pure (hi ++ lo)
  else pure (lo.setWidth 32)

/-- Whether a context may issue: it runs, it waits for no window, no save and no halt holds it, and its SFU requests are back
in their queue. -/
def canIssue (s : State) (k c : Nat) : Bool :=
  let x := ctxOf s k c
  k < 512 && c < 4 && x.mode == .running && x.window.isNone && x.sfuSaved.isEmpty && !(coreOf s k).preempted &&
    !(berthOf s (coreBerth k)).dbg.halted && (quayOf s (coreQuay k)).mode == .up

/-- R174: the cores whose context of the same number follows a leader. -/
def followers (s : State) (k c : Nat) : List Nat :=
  if (ctxOf s k c).leading then [k + 1, k + 2, k + 3].filter fun j => (ctxOf s j c).follows == some k else []

/-- Whether a context has completed the instruction it last issued. -/
def settled (x : Ctx) : Bool := x.mode == .running && x.sendHold.isNone && x.leaveAsk.isNone

/-- R175: after an instruction of a leader, the followers that trapped, ended, or go elsewhere detach; when the leader traps
or ends, all do. -/
def detachAfter (c k : Nat) (s : State) (j : Nat) : State :=
  let x := ctxOf s k c
  let y := ctxOf s j c
  let gone := fun (m : CtxMode) => match m with
    | .running => false
    | .waiting _ => false
    | _ => true
  if y.follows ≠ some k then s
  else if gone x.mode || gone y.mode then detach s j c
  else if settled x && settled y && (x.pc != y.pc || capBase x.pcc != capBase y.pcc) then detach s j c
  else s

/-- R374: the events 7 and 8 of a clock that a core counts: those of the lines of the partition that it runs, whichever agent caused them;
how many there are is a free value (DESIGN CHOICE: log entry 5). -/
def l2Count (s : State) (k ev : Nat) : Nat :=
  match berthPart s (coreBerth k) with
  | none => 0
  | some part => (Config.l2Events s.clk part ev).toNat

/-- R56, R374: the clk, matrix-busy and L2 counters of the cores move with the package clock. -/
def tickCore (s : State) (n : Nat) (e : Nat × Core) : Nat × Core :=
  let b := berthOf s (coreBerth e.1)
  if e.2.obs.isEmpty || b.dbg.halted then e
  else
    let busy := b.mat.queue.any fun c => c.started.isSome
    let bump := fun (t : Tab Dbl) (i : Nat) =>
      let sel := tabGet 0 t (0x108 + i)
      let ev := fieldOf sel 0 16
      let more := if ev == 1 || (ev == 9 && busy) then n
        else if ev == 7 || ev == 8 then l2Count s e.1 ev else 0
      if bitAt sel.toNat 16 && fieldOf sel 20 4 != 0 && more != 0 then
        tabPut t (0x100 + i) (BitVec.ofNat 64 (((tabGet 0 t (0x100 + i)).toNat + more) % 2 ^ 48))
      else t
    (e.1, { e.2 with obs := (List.range 8).foldl bump e.2.obs })

/-- The package clock advances. -/
def tick (s : State) (n : Nat) : State := { s with clk := s.clk + n, cores := s.cores.map (tickCore s n) }

/-- R62, R64, R355. An encoding that no instruction owns traps with ILLEGAL. -/
def execIllegalEncoding (short : Bool) (reason : BitVec 3) (word : BitVec 32) (s : State) : Outcome :=
  stopped s (.trap cILLEGAL (illegalDetail reason short word))

/-- R173, R370. The follow window of a leader closes 64 clk after it opened; the leader goes on after its `follow`, unless its berth is
halted. -/
def execFollowWindowClose (core ctx : Nat) (s : State) : Outcome :=
  runEvent (do
    let x := ctxOf s core ctx
    match x.window with
    | none => halt .disabled
    | some t => do
      need (t + 64 ≤ s.clk && !(berthOf s (coreBerth core)).dbg.halted)
      modCtx core ctx fun x => { x with window := none, pc := x.pc + 4 }) s

end Sys2Proof.Machine
end

