-- ==== Sys2Proof/Machine/LoadStore.lean ====
section
/-!
DEFINITION. Scalar loads and stores (R82 to R84).
-/
namespace Sys2Proof.Machine

open Sys2Proof

/-- R83: a scalar load of a width. -/
def scalarLoad (f eb ea : BitVec 1) (j i : BitVec 5) (c : BitVec 4) (d : BitVec 5) (width : Nat) (signed : Bool) : Act Next := do
  scalarLink i (forwards f [] i)
  scalarLink j (forwards f [i] j)
  scalarLink d false
  let t ← readTuple f eb ea j i
  let cap ← readC c.toNat
  let s ← get
  let (bit, w) ← liftChk (capAccess (coreBerth s.cur.core) cap c.toNat 0 pL t width)
  watchTest 0 [bitsBytes bit w]
  let ps ← herePieces 0 bit w
  waitPieces ps false
  let dst ← claimX d (← get).nextReq
  sendLoad dst (bit / 8) ps signed
  pure .seq

/-- R83: a scalar store of a width. -/
def scalarStore (f eb ea : BitVec 1) (j i : BitVec 5) (c : BitVec 4) (d : BitVec 5) (width : Nat) : Act Next := do
  scalarLink i (forwards f [] i)
  scalarLink j (forwards f [i] j)
  scalarLink d (forwards f [i, j] d)
  let e ← readPair f eb ea j i
  let v ← readX d (bit ea) (forwards f [i, j] d)
  let cap ← readC c.toNat
  let s ← get
  let (bit, w) ← liftChk (capAccess (coreBerth s.cur.core) cap c.toNat 0 pS (tuple e.1 e.2) width)
  watchTest 1 [bitsBytes bit w]
  let ps ← herePieces 1 bit w
  waitPieces ps true
  storePieces (pieceValues ps v.toNat bit) (bit / 8) none (portPops [(i, e.1), (j, e.2), (d, v)]) (forwardDir f [i, j, d])

/-- R82, R83. Loads a byte or a sub-byte element, sign-extended. -/
def execLdB (f : BitVec 1) (eb : BitVec 1) (ea : BitVec 1) (j : BitVec 5) (i : BitVec 5) (c : BitVec 4) (d : BitVec 5) (s : State) : Outcome :=
  runInstr (fwdRule f [i, j]) (encLdB f eb ea j i c d) 4 (scalarLoad f eb ea j i c d 8 true) s

/-- R82, R83. Loads a byte or a sub-byte element, zero-extended. -/
def execLdBu (f : BitVec 1) (eb : BitVec 1) (ea : BitVec 1) (j : BitVec 5) (i : BitVec 5) (c : BitVec 4) (d : BitVec 5) (s : State) : Outcome :=
  runInstr (fwdRule f [i, j]) (encLdBu f eb ea j i c d) 4 (scalarLoad f eb ea j i c d 8 false) s

/-- R82, R83. Loads 16 bits, sign-extended. -/
def execLdH (f : BitVec 1) (eb : BitVec 1) (ea : BitVec 1) (j : BitVec 5) (i : BitVec 5) (c : BitVec 4) (d : BitVec 5) (s : State) : Outcome :=
  runInstr (fwdRule f [i, j]) (encLdH f eb ea j i c d) 4 (scalarLoad f eb ea j i c d 16 true) s

/-- R82, R83. Loads 16 bits, zero-extended. -/
def execLdHu (f : BitVec 1) (eb : BitVec 1) (ea : BitVec 1) (j : BitVec 5) (i : BitVec 5) (c : BitVec 4) (d : BitVec 5) (s : State) : Outcome :=
  runInstr (fwdRule f [i, j]) (encLdHu f eb ea j i c d) 4 (scalarLoad f eb ea j i c d 16 false) s

/-- R82, R83. Loads 32 bits, sign-extended. -/
def execLdW (f : BitVec 1) (eb : BitVec 1) (ea : BitVec 1) (j : BitVec 5) (i : BitVec 5) (c : BitVec 4) (d : BitVec 5) (s : State) : Outcome :=
  runInstr (fwdRule f [i, j]) (encLdW f eb ea j i c d) 4 (scalarLoad f eb ea j i c d 32 true) s

/-- R82, R83. Loads 32 bits, zero-extended. -/
def execLdWu (f : BitVec 1) (eb : BitVec 1) (ea : BitVec 1) (j : BitVec 5) (i : BitVec 5) (c : BitVec 4) (d : BitVec 5) (s : State) : Outcome :=
  runInstr (fwdRule f [i, j]) (encLdWu f eb ea j i c d) 4 (scalarLoad f eb ea j i c d 32 false) s

/-- R82, R83. Loads 64 bits. -/
def execLdD (f : BitVec 1) (eb : BitVec 1) (ea : BitVec 1) (j : BitVec 5) (i : BitVec 5) (c : BitVec 4) (d : BitVec 5) (s : State) : Outcome :=
  runInstr (fwdRule f [i, j]) (encLdD f eb ea j i c d) 4 (scalarLoad f eb ea j i c d 64 false) s

/-- R82, R83. Stores a byte, or the low bits of a register into one sub-byte element. -/
def execStB (f : BitVec 1) (eb : BitVec 1) (ea : BitVec 1) (j : BitVec 5) (i : BitVec 5) (c : BitVec 4) (d : BitVec 5) (s : State) : Outcome :=
  runInstr (fwdRule f [i, j, d]) (encStB f eb ea j i c d) 4 (scalarStore f eb ea j i c d 8) s

/-- R82, R83. Stores 16 bits. -/
def execStH (f : BitVec 1) (eb : BitVec 1) (ea : BitVec 1) (j : BitVec 5) (i : BitVec 5) (c : BitVec 4) (d : BitVec 5) (s : State) : Outcome :=
  runInstr (fwdRule f [i, j, d]) (encStH f eb ea j i c d) 4 (scalarStore f eb ea j i c d 16) s

/-- R82, R83. Stores 32 bits. -/
def execStW (f : BitVec 1) (eb : BitVec 1) (ea : BitVec 1) (j : BitVec 5) (i : BitVec 5) (c : BitVec 4) (d : BitVec 5) (s : State) : Outcome :=
  runInstr (fwdRule f [i, j, d]) (encStW f eb ea j i c d) 4 (scalarStore f eb ea j i c d 32) s

/-- R82, R83. Stores 64 bits. -/
def execStD (f : BitVec 1) (eb : BitVec 1) (ea : BitVec 1) (j : BitVec 5) (i : BitVec 5) (c : BitVec 4) (d : BitVec 5) (s : State) : Outcome :=
  runInstr (fwdRule f [i, j, d]) (encStD f eb ea j i c d) 4 (scalarStore f eb ea j i c d 64) s

end Sys2Proof.Machine
end

