-- ==== Sys2Proof/Machine/Loop.lean ====
section
/-!
DEFINITION. Counted loops and following (R171 to R173).
-/
namespace Sys2Proof.Machine

open Sys2Proof

/-- R172. Sets the kernel and drain counts. -/
def execLcset (c : BitVec 8) (a : BitVec 5) (s : State) : Outcome :=
  runInstr none (encLcset c a) 4 (do
    scalarLink a false
    let x ← readX a false false
    modHere fun h => { h with klc := x.extractLsb' 0 32, kec := c, drain := false }
    pure .seq) s

/-- R172. Ends one pass of a counted loop. -/
def execLoop (k : BitVec 12) (s : State) : Outcome :=
  runInstr none (encLoop k) 4 (do
    let h ← here
    if h.klc = 0 ∧ h.kec = 0 then do
      putHere { h with drain := false }
      pure .seq
    else do
      let kernel := h.klc ≠ 0
      putHere { h with
        klc := if kernel then h.klc - 1 else h.klc
        kec := if kernel then h.kec else h.kec - 1
        drain := !kernel
        krrb := h.krrb - 1 }
      pure (.jump (h.pc + 2 * k.signExtend 64))) s

/-- R41: the group that occupies a core, if any. -/
def groupOf (s : State) (k : Nat) : Option (Nat × Nat) := (coreOf s k).place.map fun p => (p.launch, p.idx)

/-- R173: the cores of the leader's group in its berth, the leader left out. -/
def followersOf (s : State) (k : Nat) : List Nat :=
  ([1, 2, 3].map (k / 4 * 4 + ·)).filter fun j => (groupOf s j).isSome && groupOf s j == groupOf s (k / 4 * 4)

/-- R173: whether a leader's window is open: its 64 clk have not passed. -/
def windowOpen (s : State) (y : Ctx) : Bool := y.window.any fun t => s.clk < t + 64

/-- R173: `follow`. On the leader it opens a window, or closes one at once when no other core of the group is there to
attach; on another core of the group it attaches to the leader's open window at the same `pcc` base and address. -/
def followNow : Act Next := do
  let s ← get
  let k := s.cur.core
  let c := s.cur.ctx
  let x ← here
  let l := k / 4 * 4
  if x.follows.isSome ∨ x.leading then pure .seq
  else if k = l then
    if (groupOf s k).isNone ∨ (followersOf s k).isEmpty then pure .seq
    else do
      putHere { x with window := some s.clk }
      pure .stay
  else
    let y := ctxOf s l c
    if windowOpen s y ∧ (groupOf s k).isSome ∧ groupOf s k = groupOf s l ∧ capBase y.pcc = capBase x.pcc ∧ y.pc = x.pc then do
      putHere { x with follows := some l }
      let t ← get
      let all := (followersOf t l).all fun j => (ctxOf t j c).follows == some l
      set (setCtx t l c { ctxOf t l c with
        leading := true
        window := if all then none else y.window
        pc := if all then y.pc + 4 else y.pc })
      pure .seq
    else pure .seq

/-- R173. Opens a follow window, or attaches to the leader. -/
def execFollow (s : State) : Outcome :=
  runInstr none encFollow 4 (followNow) s

end Sys2Proof.Machine
end

