-- ==== Sys2Proof/Machine/VecInt.lean ====
section
/-!
DEFINITION. Vector integer arithmetic (R180, R181).
-/
namespace Sys2Proof.Machine

open Sys2Proof

/-- R180: the element width of VI8 to VI64. -/
def intWidth (w : BitVec 2) : Nat := 8 * 2 ^ w.toNat

/-- The clamp of an integer to a signed range, as `n` bits. -/
def satSigned (n : Nat) (i : Int) : Nat :=
  wrapInt (max (-(2 ^ (n - 1) : Nat)) (min ((2 ^ (n - 1) : Nat) - 1) i)) n

/-- R180: the shift count, the low log2(w) bits of B. -/
def laneShift (w b : Nat) : Nat := b % w

/-- R181: ⌊(A + B + 1)/2⌋ and the absolute value that saturates. -/
def avgElem (a b : Nat) : Nat := (a + b + 1) / 2
def absElem (n a : Nat) : Nat := min (2 ^ (n - 1) - 1) (signedNat a n).natAbs

/-- R180. A + B. -/
def execVadd (m : BitVec 3) (b : BitVec 6) (a : BitVec 6) (v : BitVec 6) (w : BitVec 2) (s : State) : Outcome :=
  runInstr (mergeRule m v) (encVadd m b a v w) 4 (formV m (intWidth w) b a v fun _ A B => A + B) s

/-- R180. A − B. -/
def execVsub (m : BitVec 3) (b : BitVec 6) (a : BitVec 6) (v : BitVec 6) (w : BitVec 2) (s : State) : Outcome :=
  runInstr (mergeRule m v) (encVsub m b a v w) 4 (formV m (intWidth w) b a v fun n A B => A + 2 ^ n - B) s

/-- R180. Signed A + B, saturated. -/
def execVadds (m : BitVec 3) (b : BitVec 6) (a : BitVec 6) (v : BitVec 6) (w : BitVec 2) (s : State) : Outcome :=
  runInstr (mergeRule m v) (encVadds m b a v w) 4 (formV m (intWidth w) b a v fun n A B => satSigned n (signedNat A n + signedNat B n)) s

/-- R180. Unsigned A + B, saturated. -/
def execVaddus (m : BitVec 3) (b : BitVec 6) (a : BitVec 6) (v : BitVec 6) (w : BitVec 2) (s : State) : Outcome :=
  runInstr (mergeRule m v) (encVaddus m b a v w) 4 (formV m (intWidth w) b a v fun n A B => min (2 ^ n - 1) (A + B)) s

/-- R180. Signed A − B, saturated. -/
def execVsubs (m : BitVec 3) (b : BitVec 6) (a : BitVec 6) (v : BitVec 6) (w : BitVec 2) (s : State) : Outcome :=
  runInstr (mergeRule m v) (encVsubs m b a v w) 4 (formV m (intWidth w) b a v fun n A B => satSigned n (signedNat A n - signedNat B n)) s

/-- R180. Unsigned A − B, saturated. -/
def execVsubus (m : BitVec 3) (b : BitVec 6) (a : BitVec 6) (v : BitVec 6) (w : BitVec 2) (s : State) : Outcome :=
  runInstr (mergeRule m v) (encVsubus m b a v w) 4 (formV m (intWidth w) b a v fun _ A B => A - B) s

/-- R180. The low half of A · B. -/
def execVmul (m : BitVec 3) (b : BitVec 6) (a : BitVec 6) (v : BitVec 6) (w : BitVec 2) (s : State) : Outcome :=
  runInstr (mergeRule m v) (encVmul m b a v w) 4 (formV m (intWidth w) b a v fun _ A B => A * B) s

/-- R180. The high half of signed A · B. -/
def execVmulh (m : BitVec 3) (b : BitVec 6) (a : BitVec 6) (v : BitVec 6) (w : BitVec 2) (s : State) : Outcome :=
  runInstr (mergeRule m v) (encVmulh m b a v w) 4 (formV m (intWidth w) b a v fun n A B => wrapInt (signedNat A n * signedNat B n / (2 ^ n : Nat)) n) s

/-- R180. The smaller, signed. -/
def execVmin (m : BitVec 3) (b : BitVec 6) (a : BitVec 6) (v : BitVec 6) (w : BitVec 2) (s : State) : Outcome :=
  runInstr (mergeRule m v) (encVmin m b a v w) 4 (formV m (intWidth w) b a v fun n A B => if signedNat B n < signedNat A n then B else A) s

/-- R180. The larger, signed. -/
def execVmax (m : BitVec 3) (b : BitVec 6) (a : BitVec 6) (v : BitVec 6) (w : BitVec 2) (s : State) : Outcome :=
  runInstr (mergeRule m v) (encVmax m b a v w) 4 (formV m (intWidth w) b a v fun n A B => if signedNat A n < signedNat B n then B else A) s

/-- R180. The smaller, unsigned. -/
def execVminu (m : BitVec 3) (b : BitVec 6) (a : BitVec 6) (v : BitVec 6) (w : BitVec 2) (s : State) : Outcome :=
  runInstr (mergeRule m v) (encVminu m b a v w) 4 (formV m (intWidth w) b a v fun _ A B => min A B) s

/-- R180. The larger, unsigned. -/
def execVmaxu (m : BitVec 3) (b : BitVec 6) (a : BitVec 6) (v : BitVec 6) (w : BitVec 2) (s : State) : Outcome :=
  runInstr (mergeRule m v) (encVmaxu m b a v w) 4 (formV m (intWidth w) b a v fun _ A B => max A B) s

/-- R180. A · 2^s. -/
def execVsll (m : BitVec 3) (b : BitVec 6) (a : BitVec 6) (v : BitVec 6) (w : BitVec 2) (s : State) : Outcome :=
  runInstr (mergeRule m v) (encVsll m b a v w) 4 (formV m (intWidth w) b a v fun n A B => A * 2 ^ laneShift n B) s

/-- R180. ⌊A / 2^s⌋. -/
def execVsrl (m : BitVec 3) (b : BitVec 6) (a : BitVec 6) (v : BitVec 6) (w : BitVec 2) (s : State) : Outcome :=
  runInstr (mergeRule m v) (encVsrl m b a v w) 4 (formV m (intWidth w) b a v fun n A B => A / 2 ^ laneShift n B) s

/-- R180. ⌊signed A / 2^s⌋. -/
def execVsra (m : BitVec 3) (b : BitVec 6) (a : BitVec 6) (v : BitVec 6) (w : BitVec 2) (s : State) : Outcome :=
  runInstr (mergeRule m v) (encVsra m b a v w) 4 (formV m (intWidth w) b a v fun n A B => wrapInt (signedNat A n / (2 ^ laneShift n B : Nat)) n) s

/-- R181. The high half of unsigned A · B. -/
def execVmulhu (b : BitVec 6) (a : BitVec 6) (v : BitVec 6) (w : BitVec 2) (s : State) : Outcome :=
  runInstr none (encVmulhu b a v w) 4 (formV 0 (intWidth w) b a v fun n A B => A * B / 2 ^ n) s


/-- R181. The rounded-up mean. -/
def execVavgu (b : BitVec 6) (a : BitVec 6) (v : BitVec 6) (w : BitVec 2) (s : State) : Outcome :=
  runInstr none (encVavgu b a v w) 4 (formV 0 (intWidth w) b a v fun _ A B => avgElem A B) s


/-- R181. A and B. -/
def execVand (b : BitVec 6) (a : BitVec 6) (v : BitVec 6) (w : BitVec 2) (s : State) : Outcome :=
  runInstr none (encVand b a v w) 4 (formV 0 (intWidth w) b a v fun _ A B => A &&& B) s


/-- R181. A or B. -/
def execVor (b : BitVec 6) (a : BitVec 6) (v : BitVec 6) (w : BitVec 2) (s : State) : Outcome :=
  runInstr none (encVor b a v w) 4 (formV 0 (intWidth w) b a v fun _ A B => A ||| B) s


/-- R181. A xor B. -/
def execVxor (b : BitVec 6) (a : BitVec 6) (v : BitVec 6) (w : BitVec 2) (s : State) : Outcome :=
  runInstr none (encVxor b a v w) 4 (formV 0 (intWidth w) b a v fun _ A B => A ^^^ B) s


/-- R181. A and not B. -/
def execVandn (b : BitVec 6) (a : BitVec 6) (v : BitVec 6) (w : BitVec 2) (s : State) : Outcome :=
  runInstr none (encVandn b a v w) 4 (formV 0 (intWidth w) b a v fun n A B => A &&& (2 ^ n - 1 - B)) s

/-- R181. The absolute value, saturated. -/
def execVabs (a : BitVec 6) (v : BitVec 6) (w : BitVec 2) (s : State) : Outcome :=
  runInstr none (encVabs a v w) 4 (formV1 0 (intWidth w) a v fun n A => absElem n A) s

end Sys2Proof.Machine
end

