-- ==== Sys2Proof/Machine/VecRed.lean ====
section
/-!
DEFINITION. Reductions, dot products and conversions (R188 to R192).
-/
namespace Sys2Proof.Machine

open Sys2Proof

/-- R188: the active elements of a quad, in ascending order, with their numbers. -/
def activeElems (mask : BitVec 16) (e : Nat) (x : Quad) : List (Nat × Nat) :=
  ((List.range (vecCount e)).filter fun j => active mask e j).map fun j => (j, elemOf x.toNat e j)

/-- R188: the sources of a reduction: the vector, then the accumulator. -/
def reduceV (m : BitVec 3) (e : Nat) (a : BitVec 6) (d : BitVec 5) (g : Dbl → List (Nat × Nat) → Act Dbl) : Act Next := do
  vectorLink a
  let x ← readV a
  let acc ← readX d false false
  let mask ← readM m
  let v ← g acc (activeElems mask e x)
  writeX d v
  pure .seq

/-- R188. Adds the active elements, signed, to the accumulator. -/
def execVredaddInt (w : BitVec 2) (m : BitVec 3) (a : BitVec 6) (d : BitVec 5) (s : State) : Outcome :=
  runInstr (portRule d) (encVredaddInt w m a d) 4 (reduceV m (intWidth w) a d fun acc es =>
      pure (BitVec.ofInt 64 (es.foldl (fun i x => i + signedNat x.2 (intWidth w)) acc.toInt))) s

/-- R188. The maximum of the accumulator and the active elements, signed. -/
def execVredmaxInt (w : BitVec 2) (m : BitVec 3) (a : BitVec 6) (d : BitVec 5) (s : State) : Outcome :=
  runInstr (portRule d) (encVredmaxInt w m a d) 4 (reduceV m (intWidth w) a d fun acc es =>
      pure (BitVec.ofInt 64 (es.foldl (fun i x => max i (signedNat x.2 (intWidth w))) acc.toInt))) s

/-- R188. Adds the active elements in ascending order, rounding each sum. -/
def execVredaddF32 (m : BitVec 3) (a : BitVec 6) (d : BitVec 5) (s : State) : Outcome :=
  runInstr (portRule d) (encVredaddF32 m a d) 4 (reduceV m 32 a d fun acc es => do
      let ms ← takeRound
      let (c, fl) := es.foldl (fun (p : Nat × BitVec 5) x =>
        let (c, fl) := fpAdd fFP32 (roundingOf ms x.1) (decF32 p.1) (decF32 x.2)
        (c, p.2 ||| fl)) (acc.toNat % 2 ^ 32, 0)
      addFlags fl
      pure (BitVec.ofNat 64 c)) s

/-- R188. The maximum of the accumulator and the active elements. -/
def execVredmaxF32 (m : BitVec 3) (a : BitVec 6) (d : BitVec 5) (s : State) : Outcome :=
  runInstr (portRule d) (encVredmaxF32 m a d) 4 (reduceV m 32 a d fun acc es =>
      pure (BitVec.ofNat 64 (es.foldl (fun c x => fpPick fFP32 true c x.2) (acc.toNat % 2 ^ 32)))) s

/-- R189: the lanes of a dot product: lane i is active when bit 4i of the mask is 1. -/
def dotV (m : BitVec 3) (b a v : BitVec 6) (g : Nat → Nat → Nat → Nat → Nat) : Act Next := do
  let x ← readV a
  let y ← readV b
  let old ← readV v
  let mask ← readM m
  writeV v (mergeElems mask 32 old fun i => g i (elemOf x.toNat 32 i) (elemOf y.toNat 32 i) (elemOf old.toNat 32 i))
  pure .seq

/-- R189. Adds four products of signed bytes to each active lane. -/
def execVdot4 (m : BitVec 3) (b : BitVec 6) (a : BitVec 6) (v : BitVec 6) (s : State) : Outcome :=
  runInstr (vportRule v) (encVdot4 m b a v) 4 (do
    vectorLink a
    vectorLink b
    dotV m b a v fun _ x y d =>
      wrapInt ((List.range 4).foldl (fun acc k => acc + signedNat (elemOf x 8 k) 8 * signedNat (elemOf y 8 k) 8) (d : Int)) 32) s

/-- R189: one lane of `vdot2`: the exact sum of two products and the accumulator, rounded once (DESIGN CHOICE: log entry 26). -/
def dot2Lane (r : Rounding) (x y d : Nat) : Nat × BitVec 5 :=
  let p := fun (k : Nat) => mulNum (decodeElem fBF16 (elemOf x 16 k)) (decodeElem fBF16 (elemOf y 16 k))
  let (p0, n0) := p 0
  let (p1, n1) := p 1
  let (t, n2) := addNum r.mode p0 p1
  let (v, n3) := addNum r.mode t (decF32 d)
  let (c, fl) := encF32 r v
  (c, fl ||| invalid (n0 || n1 || n2 || n3))

/-- R189. Adds two products of BF16 elements to each active lane, rounding once. -/
def execVdot2 (m : BitVec 3) (b : BitVec 6) (a : BitVec 6) (v : BitVec 6) (s : State) : Outcome :=
  runInstr (vportRule v) (encVdot2 m b a v) 4 (do
    vectorLink a
    vectorLink b
    let x ← readV a
    let y ← readV b
    let old ← readV v
    let mask ← readM m
    let ms ← takeRound
    let lane := fun (i : Nat) => dot2Lane (roundingOf ms i) (elemOf x.toNat 32 i) (elemOf y.toNat 32 i) (elemOf old.toNat 32 i)
    addFlags (flagsOf mask 32 fun i => (lane i).2)
    writeV v (mergeElems mask 32 old fun i => (lane i).1)
    pure .seq) s

/-! ### Conversions -/

/-- R139: MX and PS formats. -/
def isScaled (f : Nat) : Bool := 0x16 ≤ f && f ≤ 0x21

/-- R190: formats that a conversion may name. -/
def convertible (f : Nat) : Bool := (elemBits f).isSome && f != fRAW8 && f != fCAP && f != fNODE

/-- R190: the fields of a control word. -/
def ctlScale (c : Dbl) : Nat := fieldOf c 24 8
def ctlPart (c : Dbl) : Nat := fieldOf c 16 5
def ctlDst (c : Dbl) : Nat := fieldOf c 8 6
def ctlSrc (c : Dbl) : Nat := fieldOf c 0 6

/-- R191: the number of elements of a format in a quad. -/
def fmtCount (f : Nat) : Nat := vecCount ((elemBits f).getD 8)

/-- R191: the parts of a conversion. -/
def convParts (c : Dbl) : Nat :=
  let es := fmtCount (ctlSrc c)
  let ed := fmtCount (ctlDst c)
  ceilDiv (max es ed) (min es ed)

/-- R190: whether a control word of `vcvt` is permitted. -/
def ctlOk (c : Dbl) : Bool :=
  fieldOf c 32 32 == 0 && fieldOf c 21 3 == 0 && fieldOf c 14 2 == 0 && fieldOf c 6 2 == 0 && convertible (ctlSrc c) &&
    convertible (ctlDst c) && ctlDst c != 0x32 && (ctlScale c == 0 || isScaled (ctlSrc c) || isScaled (ctlDst c)) &&
    ctlPart c < convParts c

/-- R191: one converted element. -/
def convElem (c : Dbl) (r : Rounding) (bits : Nat) : Nat × BitVec 5 :=
  let sf := ctlSrc c
  let df := ctlDst c
  let scale := ctlScale c
  let v := decodeElem sf bits
  let v := if sf = 0x1B then scaleNum (-6) v else v
  let v := if isScaled sf then (mulNum (decodeE8M0 scale) v).1 else v
  if isScaled df then
    if scale = 0xFF then (0, 0)
    else
      let v := scaleNum (127 - (scale : Int)) v
      encodeElem df r (if df = 0x1B then scaleNum 6 v else v)
  else encodeElem df r v

/-- R191: the destination elements that part p writes, each with the source element it takes. -/
def convPairs (c : Dbl) : List (Nat × Nat) :=
  let es := fmtCount (ctlSrc c)
  let ed := fmtCount (ctlDst c)
  let n := min es ed
  let p := ctlPart c
  ((List.range n).map fun i => if ed < es then (i, p * n + i) else (p * n + i, i)).filter fun e => e.1 < ed

/-- R191: whether the conversion keeps elements of the destination. -/
def convKeeps (c : Dbl) : Bool := fmtCount (ctlSrc c) ≤ fmtCount (ctlDst c) && 1 < convParts c

/-- R190, R191. Converts a part of a vector between formats. With m0 the control word decides whether vd is a source, so it is checked before vd is read (DESIGN CHOICE: log entry 62). -/
def execVcvt (m : BitVec 3) (b : BitVec 5) (a : BitVec 6) (v : BitVec 6) (s : State) : Outcome :=
  runInstr (mergeRule m v) (encVcvt m b a v) 4 (do
    vectorLink a
    scalarLink b false
    vectorLink v
    let x ← readV a
    let c ← readX b false false
    let merged ← if m != 0 then readV v else pure 0
    check (ctlOk c) cILLEGAL c
    check (!(convKeeps c && isVPort v)) cILLEGAL (illegalDetail 3 false (encVcvt m b a v))
    let old ← if m = 0 ∧ convKeeps c then readV v else pure merged
    let mask ← readM m
    let ms ← takeRound
    let es := (elemBits (ctlSrc c)).getD 8
    let ed := (elemBits (ctlDst c)).getD 8
    let results := ((convPairs c).filter fun e => active mask ed e.1).map fun e =>
      (e.1, if fmtCount (ctlSrc c) ≤ e.2 then (0, 0) else convElem c (roundingOf ms e.1) (elemOf x.toNat es e.2))
    addFlags (results.foldl (fun acc e => acc ||| e.2.2) 0)
    writeV v (BitVec.ofNat 128 (packElems ed ((List.range (fmtCount (ctlDst c))).map fun j =>
      match tabFind? results j with
      | some e => e.1
      | none => elemOf old.toNat ed j)))
    pure .seq) s

/-- R192: the source formats of `vredamax`. -/
def amaxFormat (f : Nat) : Bool :=
  convertible f && !isScaled f && f != 0x05 && f != 0x06 && f != 0x07 && f != 0x32

/-- R192: a magnitude; NaN and infinity stay what they are. -/
def absNum : FpNum → FpNum
  | .nan => .nan
  | .inf _ => .inf false
  | .zero _ => .zero false
  | .fin _ m e t => .fin false m e t

/-- R192: whether a number is a NaN, NaR or infinity. -/
def notFinite : FpNum → Bool
  | .nan => true
  | .inf _ => true
  | _ => false

/-- R192. The largest magnitude of the accumulator and the active elements. -/
def execVredamax (m : BitVec 3) (b : BitVec 5) (a : BitVec 6) (d : BitVec 5) (s : State) : Outcome :=
  runInstr (portRule d) (encVredamax m b a d) 4 (do
    vectorLink a
    scalarLink b false
    let x ← readV a
    let c ← readX b false false
    let acc ← readX d false false
    check (c.toNat < 64 && amaxFormat (ctlSrc c)) cILLEGAL c
    let mask ← readM m
    let f := ctlSrc c
    let vs := decF32 acc.toNat :: (activeElems mask ((elemBits f).getD 8) x).map fun e => decodeElem f e.2
    let top := vs.foldl (fun t v => if cmpNum t (absNum v) == .lt then absNum v else t) (.zero false)
    writeX d (if vs.any notFinite then 0x7F800000 else BitVec.ofNat 64 (encF32 ⟨0, 0⟩ top).1)
    pure .seq) s

/-- R192, R152. The block scale of a group whose largest magnitude is given. -/
def execVmxsc (f : BitVec 6) (a : BitVec 5) (d : BitVec 5) (s : State) : Outcome :=
  runInstr (if scaledFormat f then none else some 4) (encVmxsc f a d) 4 (do
    scalarLink a false
    scalarLink d false
    let x ← readX a false false
    writeX d (BitVec.ofNat 64 (mxScale f.toNat (absNum (decF32 x.toNat))))
    pure .seq) s

end Sys2Proof.Machine
end

