-- ==== Sys2Proof/Machine/Matrix.lean ====
section
/-!
DEFINITION. The matrix array of a berth: its lease and power leave (R201 to R205, R209, R210), the counted commands (R198 to
R200, R206 to R208, R211 to R221) and their completion (R222 to R224).
-/
namespace Sys2Proof.Machine

open Sys2Proof

/-! ### The lease -/

def matOf (s : State) (b : Nat) : MatArray := (berthOf s b).mat
def setMat (s : State) (b : Nat) (m : MatArray) : State := setBerth s b { berthOf s b with mat := m }

/-- R209. Requests the lease for n commands; a gated array refuses at once (R202). -/
def execMlease (n : BitVec 8) (d : BitVec 5) (s : State) : Outcome :=
  runInstr (if n.toNat < 1 ∨ n.toNat > 64 then some 4 else none) (encMlease n d) 4 (do
    scalarLink d false
    let s ← get
    let k := s.cur.core
    let c := s.cur.ctx
    let b := coreBerth k
    check (!holdsLease (matOf s b) k c && !(matOf s b).reqs.any (isLeaseReq k c)) cLEASE 1
    if (berthOf s b).power ≠ 0 then do
      writeX d 2
      pure .seq
    else do
      let dst ← claimX d s.nextReq
      let x ← here
      modify fun s => enterLease { s with nextReq := s.nextReq + 1 } b ⟨k, c, n.toNat, some (dst, s.nextReq), x.epoch, none⟩
      pure .seq) s

/-- R210. Ends the context's lease or withdraws its request. -/
def execMrel (s : State) : Outcome :=
  runInstr none encMrel 4 (do
    modify fun s => endLease s s.cur.core s.cur.ctx
    pure .seq) s

/-- R211. Sets the completion configuration of the context. -/
def execMcfg (x : BitVec 5) (s : State) : Outcome :=
  runInstr none (encMcfg x) 4 (do
    scalarLink x false
    let v ← readX x false false
    check (fieldOf v 6 58 == 0) cILLEGAL v
    modHere fun y => { y with mcfg := v.setWidth 6 }
    pure .seq) s

/-- R202: the head request of a berth leaves the queue, its destination filled with a status. -/
def answerLease (s : State) (b : Nat) (r : LeaseReq) (v : Dbl) : State :=
  let m := matOf s b
  fillLease (setMat s b { m with reqs := m.reqs.tail }) r.core r.ctx r.dst v

/-- R202, R209. The head request is granted when the lease is free and the array has or is given power leave. -/
def execLeaseGrant (berth : Nat) (s : State) : Outcome :=
  runEvent (do
    let s ← get
    let m := matOf s berth
    match m.reqs with
    | [] => halt .disabled
    | r :: rest => do
      need m.lease.isNone
      if (berthOf s berth).power ≠ 0 then set (answerLease s berth r 2)
      else do
        let (yes, s) := if m.leave then (true, s) else askLeave s (berthQuay berth)
        if yes then
          set (setMat (answerLease s berth r 1) berth
            { m with reqs := rest, leave := true, lease := some ⟨r.core, r.ctx, r.n, s.clk⟩, lastHolder := some r.core })
        else set (setMat s berth { m with reqs := { r with askedAt := r.askedAt.or (some s.clk) } :: rest })) s

/-- R202, R209. A head request that has waited 200 clk for leave is refused. -/
def execLeaveRefusalTimeout (berth : Nat) (s : State) : Outcome :=
  runEvent (do
    let s ← get
    match (matOf s berth).reqs with
    | [] => halt .disabled
    | r :: _ => do
      let t ← needSome r.askedAt
      need (decide (t + 200 ≤ s.clk))
      set (answerLease s berth r 6)) s

/-- R202. The array gives leave up 256 clk after its last command, with no lease and no request (DEDUCED: log entry 39). -/
def execPowerLeaveRelease (berth : Nat) (s : State) : Outcome :=
  runEvent (do
    let s ← get
    let m := matOf s berth
    need (m.leave && m.lease.isNone && m.reqs.isEmpty && m.queue.isEmpty && decide (m.lastDone + 256 ≤ s.clk))
    set (setMat s berth { m with leave := false })) s

/-- R203. A lease idle for 1,024 clk while a request waits ends and is requested again (DEDUCED: log entry 39). -/
def execLeaseIdleExpiry (berth : Nat) (s : State) : Outcome :=
  runEvent (do
    let s ← get
    let m := matOf s berth
    let l ← needSome m.lease
    need (!m.reqs.isEmpty && decide (l.idleFrom + 1024 ≤ s.clk))
    set (enterLease (leaseEnds s berth) berth ⟨l.core, l.ctx, l.left, none, (ctxOf s l.core l.ctx).epoch, none⟩)) s

/-! ### Operands -/

/-- R139: the class of a matrix operand format in bits; 0 for a format that is not an operand. -/
def matClass (f : Nat) : Nat :=
  if [0x11, 0x12, 0x13, 0x10, 0x1A, 0x1D].contains f then 4
  else if [0x01, 0x02, 0x0C, 0x0D, 0x0E, 0x0F, 0x14, 0x15, 0x16, 0x17, 0x18, 0x19, 0x1B, 0x1C, 0x1E, 0x1F, 0x20, 0x21].contains f then 8
  else if [0x03, 0x09, 0x0A, 0x0B].contains f then 16
  else 0

/-- R150, R151: PS formats, and MX formats. -/
def isPs (f : Nat) : Bool := 0x1C ≤ f && f ≤ 0x1F
def isMx (f : Nat) : Bool := isScaled f && !isPs f

/-- R77: the kind of window of an address: 0 translated memory, else the window's number. -/
def windowKind (a : Nat) : Nat := if isTranslated a then 0 else windowOf a

/-- R199, R207: the window step of an operand's box; `wins` are the windows of its role (DESIGN CHOICE: log entry 38). -/
def matWindow (berth : Nat) (c : Cap) (reg role e : Nat) (wins : List Nat) : Chk Unit := do
  let one := fun (bit : Nat) => do
    let a := bit / 8
    demand (sameWindow (capBase c) a && sameWindow (capBase c) ((bit + e - 1) / 8)) cBOUNDS (det 6 reg 0 role a)
    demand (wins.contains (windowKind a)) cPERM (det 7 reg 0 role a)
    demand (isTranslated a || winBerth a == berth) cSCOPE (det 7 reg 0 role a)
  one (capBase c * 8)
  one (capBitAddr c e ⟨capExt c 0 - 1, capExt c 1 - 1, capExt c 2 - 1, capExt c 3 - 1⟩)

/-- R207 step 3: one operand: tag, seal, permission, format, window. -/
def matOperand (berth : Nat) (c : Cap) (reg role perm : Nat) (fmtOk : Nat → Bool) (wins : List Nat) : Chk Unit := do
  let e ← capUse c reg role perm
  demand (fmtOk (capFmt c)) cFORMAT (det 4 reg 0 role (capFmt c))
  matWindow berth c reg role e wins

/-- R208: a rule of R199, R200 or R216 that an operand breaks. -/
structure Breach where
  broken : Bool
  reason : Nat
  reg : Nat
  role : Nat
  value : Nat
  deriving DecidableEq, Repr

/-- R208: the broken rule with the lowest reason, the first of them in operand order (DEDUCED: log entry 38). -/
def firstBreach (l : List Breach) : Option Breach :=
  (List.range 16).findSome? fun n => l.find? fun x => x.broken && x.reason == n

def checkShape (l : List Breach) : Chk Unit :=
  match firstBreach l with
  | some x => .error (cSHAPE, det x.reason x.reg 0 x.role x.value)
  | none => pure ()

/-- R199: the rules of a scale tensor for `rows` rows of `k` elements of a format. -/
def scaleRules (sc : Cap) (fmt reg role k rows : Nat) : List Breach :=
  let blocks := if isMx fmt then ceilDiv k 32 else 1
  if isScaled fmt then
    [⟨capRank sc != 2, 1, reg, role, capRank sc⟩, ⟨capExt sc 0 != blocks, 7, reg, role, capExt sc 0⟩,
     ⟨capExt sc 1 != rows, 7, reg, role, capExt sc 1⟩, ⟨capStr sc 0 != 1, 6, reg, role, capStr sc 0⟩]
  else []

/-- R199: the slice number of an address in the W buffer. -/
def wSlice (c : Cap) : Nat := bitsAt (capBase c) 16 7

/-- R199, R200: the rules of the operands of a product; of two operands that disagree reg names the later, whose extent is the value. No
stride of a B in a 6-bit format is 2^19/6 elements, so each is refused (DEDUCED: log entry 38). -/
def productRules (a b c sa sb : Cap) (ra rb rc : Nat) : List Breach :=
  let k := capExt a 0
  let m := capExt a 1
  let n := capExt c 0
  let ea := (elemBits (capFmt a)).getD 8
  let eb := (elemBits (capFmt b)).getD 8
  let cls := max (matClass (capFmt a)) (matClass (capFmt b))
  [⟨capRank a != 2, 1, ra, 0, capRank a⟩, ⟨capRank b != 2, 1, rb, 0, capRank b⟩, ⟨capRank c != 2, 1, rc, 0, capRank c⟩,
   ⟨capExt b 0 != k, 2, rb, 0, capExt b 0⟩, ⟨capExt c 1 != m, 3, rc, 0, capExt c 1⟩, ⟨capExt b 1 != n, 4, rc, 0, n⟩,
   ⟨k % (if cls = 4 then 128 else 64) != 0, 5, ra, 0, k⟩,
   ⟨capStr a 0 != 1, 6, ra, 0, capStr a 0⟩, ⟨capStr a 1 * ea % 8 != 0, 6, ra, 0, capStr a 1⟩,
   ⟨capStr b 0 != 1, 6, rb, 0, capStr b 0⟩, ⟨capStr b 1 * eb != 2 ^ 19, 6, rb, 0, capStr b 1⟩,
   ⟨decide (128 < wSlice b + capExt b 1), 6, rb, 0, wSlice b + capExt b 1⟩, ⟨capStr c 0 != 1, 6, rc, 0, capStr c 0⟩] ++
  scaleRules sa (capFmt a) ra 1 k m ++ scaleRules sb (capFmt b) rb 2 k (capExt b 1) ++
  (if isScaled (capFmt b) then
    [⟨capStr sb 1 != 65536, 6, rb, 2, capStr sb 1⟩, ⟨wSlice sb != wSlice b, 6, rb, 2, capStr sb 1⟩]
  else [])

/-- R201, R207 step 1: a counted command needs the lease. -/
def matLease : Act Unit := do
  let s ← get
  let k := s.cur.core
  let c := s.cur.ctx
  let m := matOf s (coreBerth k)
  if holdsLease m k c then pure ()
  else if m.reqs.any (isLeaseReq k c) then halt (.stall .other)
  else halt (.trap cLEASE 0)

/-- The byte ranges of an operand's rows, by location (R218, R223). Lines of translated memory count whole. -/
def operandRanges (b part : Nat) (c : Cap) : Act (List (Nat × Nat)) := do
  let e := (elemBits (capFmt c)).getD 8
  let row := fun (j : Nat) => do
    let lo := capBitAddr c e ⟨0, j, 0, 0⟩ / 8
    let hi := (capBitAddr c e ⟨capExt c 0 - 1, j, 0, 0⟩ + e - 1) / 8
    if isTranslated lo then
      collect (fun i => do
        let p ← translate b part ((lo / 64 + i) * 64) 0 false
        pure (p.key / 64 * 64, 64)) (List.range (hi / 64 + 1 - lo / 64))
    else pure [(lo, hi + 1 - lo)]
  pure ((← collect row (List.range (capExt c 1))).flatten)

/-- The ranges of several operands. -/
def rangesOf (b part : Nat) (cs : List Cap) : Act (List (Nat × Nat)) := do
  pure ((← collect (operandRanges b part) cs).flatten)

/-- R200: the longest command. -/
def matLimit : Nat := 1048576

/-- R214: the cycles of a product of a class. -/
def productCycles (cls k m : Nat) : Nat :=
  if cls = 4 then ceilDiv k 128 * max m 16 + 12
  else if cls = 8 then ceilDiv k 64 * max m 16 + 12
  else 4 * (ceilDiv k 64 * max m 16) + 12

/-- R203: an accepted command counts against the lease. -/
def countLease (s : State) (b : Nat) : State :=
  let m := matOf s b
  match m.lease with
  | none => s
  | some l => if l.left ≤ 1 then leaseEnds s b else setMat s b { m with lease := some { l with left := l.left - 1, idleFrom := s.clk } }

/-- R207 steps 7 and 8, R45, R233: the cycle bound, a free slot, the context's earlier accesses, and acceptance (DESIGN CHOICE: log entry 38). -/
def acceptMatrix (c : MatCmd) (extra : Nat) : Act Next := do
  check (c.cycles ≤ matLimit) cSHAPE (det 8 0 0 0 c.cycles)
  let s ← get
  let b := coreBerth s.cur.core
  if 4 ≤ (matOf s b).queue.length then halt (.stall .other) else pure ()
  releaseHere 1
  let x ← here
  modify fun s =>
    let m := matOf s b
    let s := setMat s b { m with queue := m.queue ++ [{ c with cycles := c.cycles + extra }] }
    traceRecord (countLease s b) b 9 0 c.core c.ctx x.ch.toNat (c.tag.setWidth 64) x.ktask
  pure .seq

/-- A command of the executing context, its operands still to be named. -/
def freshCommand (s : State) (fn tag : Nat) : MatCmd :=
  let x := ctxOf s s.cur.core s.cur.ctx
  { fn := BitVec.ofNat 3 fn, core := s.cur.core, ctx := s.cur.ctx, part := x.part, tag := BitVec.ofNat 5 tag, cfg := x.mcfg
    a := Cap.null, b := Cap.null, c := Cap.null, sa := Cap.null, sb := Cap.null, alpha := 0, rows := [], adapters := []
    dfmt := 0, mode := 0, seed := 0, cycles := 0, issued := s.clk, started := none, reads := [], writes := [], bad := false }

/-- R207 steps 3 and 4 for a product: A, B, C, and the adapter table of `mad`, then the scales. -/
def productOperands (berth : Nat) (a b c sa sb : Cap) (ra rb rc : Nat) (table : Option (Cap × Nat)) : Chk Unit := do
  let mat := fun (f : Nat) => matClass f != 0
  matOperand berth a ra 0 pM mat [0xD]
  matOperand berth b rb 0 pM mat [0xF]
  matOperand berth c rc 0 (pM + pS) (· == fFP32) [0xE]
  match table with
  | some (t, r) => matOperand berth t r 0 (pM + pLC) (· == fCAP) [0, 0xD]
  | none => pure ()
  if isScaled (capFmt a) then matOperand berth sa ra 1 pM (· == 0x32) [0xD] else pure ()
  if isScaled (capFmt b) then matOperand berth sb rb 2 pM (· == 0x32) [0xF] else pure ()

/-- R199: the scale tensors that a product samples. -/
def sampledScales (a b sa sb : Cap) : List Cap :=
  (if isScaled (capFmt a) then [sa] else []) ++ (if isScaled (capFmt b) then [sb] else [])

/-- R207, R212: `mma` and `mma.z`. -/
def product (fn : Nat) (c b a : BitVec 4) (t : BitVec 5) : Act Next := do
  let ca ← readC a.toNat
  let cb ← readC b.toNat
  let cc ← readC c.toNat
  matLease
  let s ← get
  let x ← here
  let berth := coreBerth s.cur.core
  liftChk (productOperands berth ca cb cc x.kcsa x.kcsb a.toNat b.toNat c.toNat none)
  liftChk (checkShape (productRules ca cb cc x.kcsa x.kcsb a.toNat b.toNat c.toNat))
  let reads ← rangesOf berth x.part ([ca, cb] ++ (if fn = 3 then [cc] else []) ++ sampledScales ca cb x.kcsa x.kcsb)
  let writes ← rangesOf berth x.part [cc]
  let cls := max (matClass (capFmt ca)) (matClass (capFmt cb))
  acceptMatrix { freshCommand s fn t.toNat with
    a := ca, b := cb, c := cc, sa := x.kcsa, sb := x.kcsb, reads := reads, writes := writes
    cycles := productCycles cls (capExt ca 0) (capExt ca 1) } 0

/-- R212. Commands C := C + A·B. -/
def execMma (c : BitVec 4) (b : BitVec 4) (a : BitVec 4) (t : BitVec 5) (s : State) : Outcome :=
  runInstr none (encMma c b a t) 4 (product 3 c b a t) s

/-- R212. Commands C := A·B. -/
def execMmaZ (c : BitVec 4) (b : BitVec 4) (a : BitVec 4) (t : BitVec 5) (s : State) : Outcome :=
  runInstr none (encMmaZ c b a t) 4 (product 4 c b a t) s

/-! ### The fused adapter product -/

/-- R216: a granule of the adapter table, loaded as `clc` loads it. -/
def tableGranule (t : Cap) (reg k : Nat) : Act Cap := do
  let s ← get
  let x ← here
  let b := coreBerth s.cur.core
  let a := capBitAddr t 256 ⟨k, 0, 0, 0⟩ / 8
  check (decide (k < capExt t 0)) cBOUNDS (det 5 reg 0 6 k)
  check (a % 32 == 0) cALIGN (det 8 reg 0 6 a)
  let p ← translate b x.part a 0 false
  loadGranule a p true

/-- R218: the code of an element of an adapter operand, as it stands at acceptance. -/
def adapterCode (c : Cap) (x : Idx) : Act Nat := do
  let s ← get
  let y ← here
  let b := coreBerth s.cur.core
  let e := (elemBits (capFmt c)).getD 8
  let ps ← pieces b y.part 0 3 (capBitAddr c e x) e
  waitPieces ps false
  sourceBits (berthQuay b) y.part false ps

/-- R216: the adapters that the index values name, each with its two capabilities, in the order of their first appearance. -/
def loadAdapters (t : Cap) (reg : Nat) (ids : List Nat) : Act (List (Nat × Cap × Cap)) :=
  collect (fun a => do
    let d ← tableGranule t reg (1 + 2 * a)
    let u ← tableGranule t reg (2 + 2 * a)
    let b := coreBerth (← get).cur.core
    let half := fun (f : Nat) => f == fBF16 || f == 0x0A
    liftChk (matOperand b d reg 4 pM half [0, 0xC, 0xD])
    liftChk (matOperand b u reg 5 pM half [0, 0xC, 0xD])
    pure (a, d, u)) ids

/-- R216: the rules of one adapter's operands (DEDUCED: log entry 38). -/
def adapterRules (reg k n : Nat) (x : Nat × Cap × Cap) : List Breach :=
  let d := x.2.1
  let u := x.2.2
  let r := capExt d 0
  [⟨capRank d != 2, 1, reg, 4, capRank d⟩, ⟨capRank u != 2, 1, reg, 5, capRank u⟩, ⟨capExt d 1 != k, 2, reg, 4, capExt d 1⟩,
   ⟨capExt u 0 != n, 4, reg, 5, capExt u 0⟩, ⟨decide (64 < r) || capExt u 1 != r, 9, reg, 4, r⟩,
   ⟨capStr d 0 != 1, 6, reg, 4, capStr d 0⟩, ⟨capStr u 0 != 1, 6, reg, 5, capStr u 0⟩]

/-- R218: an adapter's codes. -/
def sampleAdapter (k n : Nat) (x : Nat × Cap × Cap) : Act Adapter := do
  let d := x.2.1
  let u := x.2.2
  let r := capExt d 0
  let dc ← collect (fun i => adapterCode d ⟨i % r, i / r, 0, 0⟩) (List.range (k * r))
  let uc ← collect (fun i => adapterCode u ⟨i % n, i / n, 0, 0⟩) (List.range (r * n))
  pure ⟨x.1, r, dc, BitVec.ofNat 6 (capFmt d), uc, BitVec.ofNat 6 (capFmt u)⟩

/-- R219: the clk that staging adds: an adapter that is not staged adds its share and the latency of its first line, which are free
values (DESIGN CHOICE: log entry 8). -/
def stagingCycles (k n : Nat) : Nat → List (Nat × Cap × Cap) → Nat
  | _, [] => 0
  | ctr, x :: r =>
    let rank := capExt x.2.1 0
    (if Config.adapterStaged ctr then 0 else ceilDiv (2 * k * rank + 2 * rank * n) 256 + (Config.lineLatency ctr).toNat) +
      stagingCycles k n (ctr + 1) r

/-- R219: the cycles that the adapters add, 16 rows at a time. -/
def adapterCycles (k : Nat) : Nat → List Nat → Nat
  | 0, _ => 0
  | fuel + 1, rows =>
    if rows.isEmpty then 0
    else
      let u := ((rows.take 16).filter (· != 0xFFFF)).eraseDups.length
      u * (64 * ceilDiv k 64 + 72) + adapterCycles k fuel (rows.drop 16)

/-- R215 to R219, R233. Commands C := C + A·B + α·(A·D)·U, its adapters read after the context's earlier accesses (DESIGN CHOICE: log entry 38). -/
def execMad (x : BitVec 5) (c : BitVec 4) (b : BitVec 4) (a : BitVec 4) (t : BitVec 4) (s : State) : Outcome :=
  runInstr none (encMad x c b a t) 4 (do
    let before ← get
    scalarLink x false
    let v ← readX x false false
    let ca ← readC a.toNat
    let cb ← readC b.toNat
    let cc ← readC c.toNat
    let ct ← readC t.toNat
    matLease
    check (fieldOf v 37 27 == 0) cILLEGAL v
    let s ← get
    let y ← here
    let berth := coreBerth s.cur.core
    let reg := t.toNat
    liftChk (productOperands berth ca cb cc y.kcsa y.kcsb a.toNat b.toNat c.toNat (some (ct, reg)))
    if mapHeld s y.part ct then halt (.stall .other) else pure ()
    let (bad, s) := revokedOperand s y.part [(ct, reg, 0)]
    match bad with
    | some detail => do
      set (takeTrap { before with parts := s.parts, glob := s.glob } cREVOKED detail false)
      pure .stay
    | none => do
      set s
      releaseHere 1
      let k := capExt ca 0
      let m := capExt ca 1
      let n := capExt cc 0
      let ix ← tableGranule ct reg 0
      liftChk (matOperand berth ix reg 3 pM (· == 0x04) [0, 0xC, 0xD])
      let rows ← collect (fun i => adapterCode ix ⟨i, 0, 0, 0⟩) (List.range (min m (capExt ix 0)))
      let far := rows.zipIdx.find? fun e => e.1 != 0xFFFF && decide (capExt ct 0 ≤ 2 + 2 * e.1)
      let ids := (rows.filter fun a => a != 0xFFFF && decide (2 + 2 * a < capExt ct 0)).eraseDups
      let loaded ← loadAdapters ct reg ids
      liftChk (checkShape (productRules ca cb cc y.kcsa y.kcsb a.toNat b.toNat c.toNat ++
        [⟨matClass (capFmt cb) != 4, 9, b.toNat, 0, capFmt cb⟩, ⟨capRank ct != 1, 1, reg, 6, capRank ct⟩,
         ⟨capRank ix != 1, 1, reg, 3, capRank ix⟩, ⟨decide (capExt ix 0 < m), 3, reg, 3, capExt ix 0⟩] ++
        loaded.flatMap (adapterRules reg k n) ++
        (match far with
          | some (id, row) => [⟨true, 10, reg, 6, row * 2 ^ 32 + id⟩]
          | none => [])))
      let adapters ← collect (sampleAdapter k n) loaded
      let reads ← rangesOf berth y.part ([ca, cb, cc, ct, ix] ++ sampledScales ca cb y.kcsa y.kcsb ++
        loaded.flatMap fun e => [e.2.1, e.2.2])
      let writes ← rangesOf berth y.part [cc]
      let cls := max (matClass (capFmt ca)) (matClass (capFmt cb))
      let s ← get
      let extra := stagingCycles k n s.freeCtr loaded
      set { s with freeCtr := s.freeCtr + loaded.length }
      acceptMatrix { freshCommand s 5 (fieldOf v 32 5) with
        a := ca, b := cb, c := cc, sa := y.kcsa, sb := y.kcsb, alpha := v.setWidth 32, rows := rows, adapters := adapters
        reads := reads, writes := writes, cycles := productCycles cls k m + adapterCycles k m rows } extra) s

/-! ### Conversion and clearing -/

/-- R220. Commands the conversion of an FP32 tile into an A-buffer tile. A D whose own fmt is not dfmt traps with CAP_FORMAT (DESIGN CHOICE: log entry 38). -/
def execMcvt (x : BitVec 5) (c : BitVec 4) (a : BitVec 4) (t : BitVec 5) (s : State) : Outcome :=
  runInstr none (encMcvt x c a t) 4 (do
    scalarLink x false
    let v ← readX x false false
    let cd ← readC a.toNat
    let cc ← readC c.toNat
    matLease
    let f := fieldOf v 8 6
    check (fieldOf v 14 50 == 0 && fieldOf v 0 8 == 0 && (matClass f != 0 || f == fFP32)) cILLEGAL
      (illegalDetail 4 false (encMcvt x c a t))
    let s ← get
    let y ← here
    let berth := coreBerth s.cur.core
    let ra := a.toNat
    let rc := c.toNat
    liftChk (matOperand berth cd ra 0 (pM + pS) (· == f) [0xD])
    liftChk (matOperand berth cc rc 0 pM (· == fFP32) [0xE])
    if isScaled f then liftChk (matOperand berth y.kcsa ra 1 (pM + pS) (· == 0x32) [0xD]) else pure ()
    let n := capExt cc 0
    let m := capExt cc 1
    let e := (elemBits f).getD 8
    liftChk (checkShape ([⟨capRank cd != 2, 1, ra, 0, capRank cd⟩, ⟨capRank cc != 2, 1, rc, 0, capRank cc⟩,
      ⟨capExt cd 1 != m, 3, rc, 0, m⟩, ⟨capExt cd 0 != n, 4, rc, 0, n⟩, ⟨capStr cd 0 != 1, 6, ra, 0, capStr cd 0⟩,
      ⟨capStr cd 1 * e % 8 != 0, 6, ra, 0, capStr cd 1⟩, ⟨capStr cc 0 != 1, 6, rc, 0, capStr cc 0⟩] ++
      scaleRules y.kcsa f ra 1 n m))
    let scales := if isScaled f then [y.kcsa] else []
    let reads ← rangesOf berth y.part [cc]
    let writes ← rangesOf berth y.part (cd :: scales)
    let ms ← takeRound
    acceptMatrix { freshCommand s 6 t.toNat with
      a := cd, c := cc, sa := y.kcsa, dfmt := BitVec.ofNat 6 f, mode := BitVec.ofNat 3 ms.1, seed := BitVec.ofNat 32 ms.2
      reads := reads, writes := writes, cycles := ceilDiv (m * n) 128 + 12 } 0) s

/-- R221. Commands the clearing of an FP32 tile. -/
def execMzero (c : BitVec 4) (t : BitVec 5) (s : State) : Outcome :=
  runInstr none (encMzero c t) 4 (do
    let cc ← readC c.toNat
    matLease
    let s ← get
    let x ← here
    let berth := coreBerth s.cur.core
    let rc := c.toNat
    liftChk (matOperand berth cc rc 0 (pM + pS) (· == fFP32) [0xE])
    liftChk (checkShape [⟨capRank cc != 2, 1, rc, 0, capRank cc⟩, ⟨capStr cc 0 != 1, 6, rc, 0, capStr cc 0⟩])
    let writes ← rangesOf berth x.part [cc]
    acceptMatrix { freshCommand s 7 t.toNat with
      c := cc, writes := writes, cycles := ceilDiv (capExt cc 0 * capExt cc 1) 128 + 12 } 0) s

/-! ### What a command computes -/

/-- Bits of a window. -/
def windowBits (s : State) (bit e : Nat) : Nat :=
  bitsAt (natOfBytes (memRead s.mem (bit / 8) ((bit % 8 + e + 7) / 8))) (bit % 8) e

/-- R11, R199: the code of an element that lies in the W window, read by an array column from its own slice; what the column reads for
an element past the slice's end is a free value (DESIGN CHOICE: log entry 63). -/
def sliceCode (s : State) (c : Cap) (i j : Nat) : Nat :=
  let e := (elemBits (capFmt c)).getD 8
  let bit := capBitAddr c e ⟨i, j, 0, 0⟩
  let start := capBitAddr c e ⟨0, j, 0, 0⟩
  if start / 2 ^ 19 = (bit + e - 1) / 2 ^ 19 then windowBits s bit e else (Config.pastSlice bit).toNat % 2 ^ e

/-- Bits of a window replaced. -/
def putWindowBits (s : State) (bit e v : Nat) : State :=
  let p : Piece := ⟨bit / 8, bit % 8, e, false⟩
  homeWrite s p.key (pieceMerge p (memRead s.mem p.key (pieceBytes p)) v)

/-- The code of element (i, j) of a tile. -/
def tileCode (s : State) (c : Cap) (i j : Nat) : Nat :=
  let e := (elemBits (capFmt c)).getD 8
  windowBits s (capBitAddr c e ⟨i, j, 0, 0⟩) e

def putTile (s : State) (c : Cap) (i j v : Nat) : State :=
  let e := (elemBits (capFmt c)).getD 8
  putWindowBits s (capBitAddr c e ⟨i, j, 0, 0⟩) e v

/-- R140, R150: an element's value without its scale. -/
def matValue (fmt code : Nat) : FpNum := if fmt = 0x1B then scaleNum (-6) (decodeElem fmt code) else decodeElem fmt code

/-- R213: GroupSum of products. -/
def groupSum (ps : List (FpNum × FpNum)) : FpNum × BitVec 5 :=
  if ps.any fun p => isNan p.1 || isNan p.2 then (.nan, 0)
  else
    match ps.map fun p => mulNum p.1 p.2 with
    | [] => (.zero true, 0)
    | (v, nv) :: r =>
      let (v, nv) := r.foldl (fun (acc : FpNum × Bool) p =>
        let (t, n) := addNum 0 acc.1 p.1
        (t, acc.2 || n || p.2)) (v, nv)
      (v, invalid nv)

/-- R213: a group sum times its scales; a NaN scale gives NaN and no flag. -/
def scaledSum (g : FpNum × BitVec 5) (x y : FpNum) : FpNum × BitVec 5 :=
  if isNan x || isNan y then (.nan, 0) else ((mulNum (mulNum g.1 x).1 y).1, g.2)

/-- RoundTo(fmt, v, RNE) with its flags. -/
def roundTo (fmt : Nat) (v : FpNum) : FpNum × BitVec 5 :=
  let (c, fl) := encodeElem fmt ⟨0, 0⟩ v
  (decodeElem fmt c, fl)

/-- R212: acc := RoundTo(FP32, acc + RoundTo(FP32, s)). -/
def addRounded (acc : FpNum × BitVec 5) (g : FpNum × BitVec 5) : FpNum × BitVec 5 :=
  let (t, f1) := roundTo fFP32 g.1
  let (v, nv) := addNum 0 acc.1 t
  let (r, f2) := roundTo fFP32 v
  (r, acc.2 ||| g.2 ||| f1 ||| f2 ||| invalid nv)

def numOne : FpNum := .fin false 1 0 false

/-- R212: ScaleA or ScaleB at element k of a row. -/
def scaleAt (code : State → Cap → Nat → Nat → Nat) (s : State) (sc : Cap) (fmt k row : Nat) : FpNum :=
  if isMx fmt then decodeE8M0 (code s sc (k / 32) row)
  else if isPs fmt then decodeE8M0 (code s sc 0 row)
  else numOne

/-- R212: the length of a group. -/
def groupLen (c : MatCmd) : Nat := if isMx (capFmt c.a) || isMx (capFmt c.b) then 32 else 16

/-- Row i of A decoded. -/
def rowA (s : State) (c : MatCmd) (i : Nat) : List FpNum :=
  (List.range (capExt c.a 0)).map fun k => matValue (capFmt c.a) (tileCode s c.a k i)

/-- R212: one accumulator over the base product. -/
def baseCell (s : State) (c : MatCmd) (row : List FpNum) (i n : Nat) : FpNum × BitVec 5 :=
  let g := groupLen c
  let col := (List.range (capExt c.a 0)).map fun k => matValue (capFmt c.b) (sliceCode s c.b k n)
  let start : FpNum := if c.fn = 4 then .zero true else decF32 (tileCode s c.c n i)
  let ps := row.zip col
  (List.range (capExt c.a 0 / g)).foldl (fun acc h =>
    addRounded acc (scaledSum (groupSum ((ps.drop (g * h)).take g)) (scaleAt tileCode s c.sa (capFmt c.a) (g * h) i)
      (scaleAt sliceCode s c.sb (capFmt c.b) (g * h) n))) (start, 0)

/-- R217: the down projection of a row through an adapter. -/
def downProject (s : State) (c : MatCmd) (row : List FpNum) (i : Nat) (ad : Adapter) (j : Nat) : FpNum × BitVec 5 :=
  let g := groupLen c
  let ps := row.zip ((List.range row.length).map fun k => decodeElem ad.dfmt.toNat (ad.d.getD (k * ad.r + j) 0))
  let (p, fl) := (List.range (row.length / g)).foldl (fun acc h =>
    addRounded acc (scaledSum (groupSum ((ps.drop (g * h)).take g)) (scaleAt tileCode s c.sa (capFmt c.a) (g * h) i) numOne)) (.zero true, 0)
  let (v, nv) := mulNum (decF32 c.alpha.toNat) p
  let (q, f2) := roundTo ad.ufmt.toNat v
  (q, fl ||| f2 ||| invalid nv)

/-- R217: the up projection to column n. -/
def upProject (ad : Adapter) (cols n : Nat) (q : List FpNum) : FpNum × BitVec 5 :=
  let ps := q.zipIdx.map fun e => (e.1, decodeElem ad.ufmt.toNat (ad.u.getD (e.2 * cols + n) 0))
  (List.range (ceilDiv ad.r 16)).foldl (fun acc h => addRounded acc (groupSum ((ps.drop (16 * h)).take 16))) (.zero true, 0)

/-- R217: the addition of an adapter's part to an accumulator. -/
def addAdapter (acc u : FpNum × BitVec 5) : FpNum × BitVec 5 :=
  let (v, nv) := addNum 0 acc.1 u.1
  let (r, fl) := roundTo fFP32 v
  (r, acc.2 ||| u.2 ||| fl ||| invalid nv)

/-- R212, R217: the results of row i: the FP32 codes and the flags. -/
def productRow (s : State) (c : MatCmd) (i : Nat) : List Nat × BitVec 5 :=
  let row := rowA s c i
  let n := capExt c.c 0
  let ad := if c.fn = 5 then c.adapters.find? fun a => a.index == c.rows.getD i 0xFFFF else none
  let q : List (FpNum × BitVec 5) := match ad with
    | some a => (List.range a.r).map (downProject s c row i a)
    | none => []
  let cell := fun (j : Nat) =>
    let acc := baseCell s c row i j
    match ad with
    | some a => addAdapter acc (upProject a n j (q.map Prod.fst))
    | none => acc
  let cells := (List.range n).map cell
  (cells.map fun x => (encF32 ⟨0, 0⟩ x.1).1, (cells.map Prod.snd ++ q.map Prod.snd).foldl (· ||| ·) 0)

/-- The rows of a result written to a tile. -/
def putRow (s : State) (c : Cap) (j : Nat) (codes : List Nat) : State :=
  codes.zipIdx.foldl (fun s e => putTile s c e.2 j e.1) s

/-- R152, R220: one group of a conversion: the scale, the codes and the flags. -/
def convGroup (fmt : Nat) (mode seed : Nat) (vs : List (Nat × FpNum)) : Nat × List Nat × BitVec 5 :=
  let amax := vs.foldl (fun (m : FpNum) e =>
    match m, e.2 with
    | .nan, _ => .nan
    | _, .nan => .nan
    | .inf _, _ => .inf false
    | _, .inf _ => .inf false
    | m, .zero _ => m
    | .zero _, .fin _ a x t => .fin false a x t
    | .fin _ a x t, .fin _ b y u => if cmpNum (.fin false a x t) (.fin false b y u) = .lt then .fin false b y u else .fin false a x t)
    (.zero false)
  let sc := mxScale fmt amax
  if sc = 0xFF then (sc, vs.map fun _ => 0, 0)
  else
    let es := vs.map fun e =>
      let v := scaleNum (127 - (sc : Int)) e.2
      encodeElem fmt (roundingOf (mode, seed) e.1) (if fmt = 0x1B then scaleNum 6 v else v)
    (sc, es.map (·.1), (es.map (·.2)).foldl (· ||| ·) 0)

/-- R220: row i of a conversion: the state with the row and its scales written, and the flags. -/
def convRow (s : State) (c : MatCmd) (i : Nat) : State × BitVec 5 :=
  let n := capExt c.c 0
  let f := c.dfmt.toNat
  let vs := (List.range n).map fun j => (i * n + j, decF32 (tileCode s c.c j i))
  if isScaled f then
    let len := if isPs f then n else 32
    (List.range (ceilDiv n len)).foldl (fun (p : State × BitVec 5) b =>
      let (sc, codes, fl) := convGroup f c.mode.toNat c.seed.toNat ((vs.drop (len * b)).take len)
      let t := codes.zipIdx.foldl (fun s e => putTile s c.a (len * b + e.2) i e.1) p.1
      (putTile t c.sa b i sc, p.2 ||| fl)) (s, 0)
  else
    let es := vs.map fun e => encodeElem f (roundingOf (c.mode.toNat, c.seed.toNat) e.1) e.2
    (putRow s c.a i (es.map (·.1)), (es.map (·.2)).foldl (· ||| ·) 0)

/-- R224: every element that a command was to write becomes the default NaN (DEDUCED: log entry 38). -/
def writeNans (s : State) (c : MatCmd) : State :=
  let tile := if c.fn = 6 then c.a else c.c
  let nan := (encodeElem (capFmt tile) ⟨0, 0⟩ .nan).1
  let fillTile := fun (s : State) (t : Cap) (v : Nat) =>
    (List.range (capExt t 1)).foldl (fun s j => putRow s t j (List.replicate (capExt t 0) v)) s
  let s := fillTile s tile nan
  if c.fn = 6 ∧ isScaled c.dfmt.toNat then fillTile s c.sa 0xFF else s

/-- R212, R217, R220, R221: what a command writes, and its flags (DEDUCED: log entry 38). -/
def runCommand (s : State) (c : MatCmd) : State × BitVec 5 :=
  let m := capExt c.c 1
  match c.fn.toNat with
  | 6 => (List.range m).foldl (fun (p : State × BitVec 5) i =>
      let (s, fl) := convRow p.1 c i
      (s, p.2 ||| fl)) (s, 0)
  | 7 => ((List.range m).foldl (fun s i => putRow s c.c i (List.replicate (capExt c.c 0) 0)) s, 0)
  | _ =>
    let rows := (List.range m).map (productRow s c)
    (rows.zipIdx.foldl (fun s (e : (List Nat × BitVec 5) × Nat) => putRow s c.c e.2 e.1.1) s, (rows.map (·.2)).foldl (· ||| ·) 0)

/-- R222: the completion message. -/
def matMessage (c : MatCmd) (fl : BitVec 5) (ue : Bool) : Flight :=
  ⟨header 0 0 (bitsAt c.cfg.toNat 4 2) 0 0 c.core 0 2 1 (bitsAt c.cfg.toNat 0 4) c.core,
    [BitVec.ofNat 64 (c.tag.toNat + c.fn.toNat * 2 ^ 5), BitVec.ofNat 64 (fl.toNat + boolBit ue * 2 ^ 8 + c.cycles * 2 ^ 32)],
    Cap.null, c.part, .matrixDone, .array (coreBerth c.core), c.core, none, none, false, 0, 0⟩

/-- R214. The command at the head of the array queue starts. -/
def execMatrixCommandStart (berth : Nat) (s : State) : Outcome :=
  runEvent (do
    let s ← get
    need ((quayOf s (berthQuay berth)).mode == .up)
    match (matOf s berth).queue with
    | [] => halt .disabled
    | c :: r => do
      need c.started.isNone
      set (setMat s berth { matOf s berth with queue := { c with started := some s.clk } :: r })) s

/-- R222 to R224. A command completes once its cycles have passed. -/
def execMatrixCommandComplete (berth : Nat) (s : State) : Outcome :=
  runEvent (do
    let s ← get
    need ((quayOf s (berthQuay berth)).mode == .up)
    match (matOf s berth).queue with
    | [] => halt .disabled
    | c :: r => do
      let t ← needSome c.started
      need (decide (t + c.cycles ≤ s.clk))
      let ue := c.bad || c.reads.any fun e => isBad s e.1 e.2
      let s := setMat s berth { matOf s berth with queue := r, lastDone := s.clk }
      let (s, fl) := if ue then (raiseIrq (writeNans s c) (512 + berth) c.part, 0) else runCommand s c
      let s := traceRecord s berth 10 0 c.core c.ctx (ctxOf s c.core c.ctx).ch.toNat (c.tag.setWidth 64) (ctxOf s c.core c.ctx).ktask
      set (if c.tag = 0 ∧ ue = false then s else post s (matMessage c fl ue))) s

end Sys2Proof.Machine
end

