-- ==== Sys2Proof/Machine/MulDiv.lean ====
section
/-!
DEFINITION. Multiplication and division (R165).
-/
namespace Sys2Proof.Machine

open Sys2Proof

/-- R165: signed division, rounded towards zero, with its borderline cases. -/
def divDbl (x y : Dbl) : Dbl := if y = 0 then BitVec.allOnes 64 else BitVec.ofInt 64 (x.toInt.tdiv y.toInt)
/-- R165: unsigned division. -/
def divuDbl (x y : Dbl) : Dbl := if y = 0 then BitVec.allOnes 64 else BitVec.ofNat 64 (x.toNat / y.toNat)
/-- R165: the signed remainder, with the sign of x. -/
def remDbl (x y : Dbl) : Dbl := if y = 0 then x else BitVec.ofInt 64 (x.toInt.tmod y.toInt)
/-- R165: the unsigned remainder. -/
def remuDbl (x y : Dbl) : Dbl := if y = 0 then x else BitVec.ofNat 64 (x.toNat % y.toNat)

/-- R165. The low 64 bits of the product. -/
def execMul (f : BitVec 1) (eb : BitVec 1) (ea : BitVec 1) (b : BitVec 5) (a : BitVec 5) (d : BitVec 5) (s : State) : Outcome :=
  runInstr (fwdRule f [a, b]) (encMul f eb ea b a d) 4 (formR f eb ea b a d fun x y => pure (x * y)) s

/-- R165. The high 64 bits of the signed product. -/
def execMulh (f : BitVec 1) (eb : BitVec 1) (ea : BitVec 1) (b : BitVec 5) (a : BitVec 5) (d : BitVec 5) (s : State) : Outcome :=
  runInstr (fwdRule f [a, b]) (encMulh f eb ea b a d) 4 (formR f eb ea b a d fun x y => pure (BitVec.ofInt 64 (x.toInt * y.toInt / 2 ^ 64))) s

/-- R165. The high 64 bits of the unsigned product. -/
def execMulhu (f : BitVec 1) (eb : BitVec 1) (ea : BitVec 1) (b : BitVec 5) (a : BitVec 5) (d : BitVec 5) (s : State) : Outcome :=
  runInstr (fwdRule f [a, b]) (encMulhu f eb ea b a d) 4 (formR f eb ea b a d fun x y => pure (BitVec.ofNat 64 (x.toNat * y.toNat / 2 ^ 64))) s

/-- R165. Signed quotient. -/
def execDiv (f : BitVec 1) (eb : BitVec 1) (ea : BitVec 1) (b : BitVec 5) (a : BitVec 5) (d : BitVec 5) (s : State) : Outcome :=
  runInstr (fwdRule f [a, b]) (encDiv f eb ea b a d) 4 (formR f eb ea b a d fun x y => pure (divDbl x y)) s

/-- R165. Unsigned quotient. -/
def execDivu (f : BitVec 1) (eb : BitVec 1) (ea : BitVec 1) (b : BitVec 5) (a : BitVec 5) (d : BitVec 5) (s : State) : Outcome :=
  runInstr (fwdRule f [a, b]) (encDivu f eb ea b a d) 4 (formR f eb ea b a d fun x y => pure (divuDbl x y)) s

/-- R165. Signed remainder. -/
def execRem (f : BitVec 1) (eb : BitVec 1) (ea : BitVec 1) (b : BitVec 5) (a : BitVec 5) (d : BitVec 5) (s : State) : Outcome :=
  runInstr (fwdRule f [a, b]) (encRem f eb ea b a d) 4 (formR f eb ea b a d fun x y => pure (remDbl x y)) s

/-- R165. Unsigned remainder. -/
def execRemu (f : BitVec 1) (eb : BitVec 1) (ea : BitVec 1) (b : BitVec 5) (a : BitVec 5) (d : BitVec 5) (s : State) : Outcome :=
  runInstr (fwdRule f [a, b]) (encRemu f eb ea b a d) 4 (formR f eb ea b a d fun x y => pure (remuDbl x y)) s

end Sys2Proof.Machine
end

