-- ==== Sys2Proof/Machine/Pages.lean ====
section
/-!
DEFINITION. The register pages as software reaches them (R5, R115, R129, R303, R368, R375, R377, R378): where the physical map
places them, what a load returns, what a store does, and the accesses of application cores.
-/
namespace Sys2Proof.Machine

open Sys2Proof

/-! ### The partition register page -/

/-- R125: a fault-buffer entry as its register reads. -/
def entryDouble (e : FaultEntry) : Dbl :=
  BitVec.ofNat 64 (2 ^ 63 + boolBit e.wr * 2 ^ 62 + boolBit e.fx * 2 ^ 61 + boolBit e.tg * 2 ^ 60 + e.reason.toNat * 2 ^ 57 +
    e.quay % 2 * 2 ^ 56 + min 255 e.waiters * 2 ^ 48 + e.page % 2 ^ 32 * 2 ^ 16 + e.gen.toNat)

/-- R129: the valid bits of the eight entries. -/
def validBits (p : Partition) : Nat := ((List.range 8).map fun i => boolBit (tabFind? p.ents i).isSome * 2 ^ i).sum

/-- R129: `pf.stat`. -/
def pfStat (p : Partition) : Dbl := BitVec.ofNat 64 (boolBit p.pfErr * 2 ^ 9 + boolBit p.dropped * 2 ^ 8 + validBits p)

/-- R129: `tr.cmd`. -/
def trCmdWord (p : Partition) : Dbl := BitVec.ofNat 64 (boolBit p.trBusy * 8 + p.trOp.toNat)

/-- R375: the core and counter that an offset of the partition register page names. -/
def counterAt (off : Nat) : Option (Nat × Nat) :=
  if 0x8000 ≤ off ∧ off < 0x10000 then some ((off - 0x8000) / 64, (off - 0x8000) / 8 % 8) else none

/-- R31, R129, R303, R335, R351, R375: what a register of a partition's page holds. -/
def readPartPage (s : State) (part off : Nat) : Dbl :=
  let p := partOf s part
  match counterAt off with
  | some (k, n) => partCounter s part k n
  | none =>
    if 0x040 ≤ off ∧ off < 0x080 then ((tabFind? p.ents ((off - 0x040) / 8)).map entryDouble).getD 0
    else
      match off with
      | 0x000 => p.trGen.setWidth 64
      | 0x008 => trCmdWord p
      | 0x010 => p.trArg
      | 0x018 => p.trCnt
      | 0x020 => p.trBmap
      | 0x028 => pfStat p
      | 0x030 => p.pfResp
      | 0x038 => p.stale.setWidth 64
      | 0x080 => p.split0
      | 0x088 => p.split1
      | 0x090 => p.door
      | 0x098 => p.hmStat
      | 0x0A0 => p.tpLost
      | 0x0A8 => p.ctLatch
      | 0x0B0 => p.tpDrop.setWidth 64
      | 0x0B8 => p.ntErr
      | _ => 0

/-! ### The partition manager's page of a partition -/

/-- R105: the revocation registers. -/
def readDredger (d : Dredger) (off : Nat) : Dbl :=
  match off with
  | 0x00 => d.heap
  | 0x08 => d.size
  | 0x10 => d.map
  | 0x18 => d.ctl
  | 0x20 => BitVec.ofNat 64 (d.begun.toNat * 2 ^ 16 + d.ended.toNat)
  | 0x28 => BitVec.ofNat 64 (boolBit d.err * 2 ^ 4 + boolBit d.pend * 2 ^ 3 + d.stage.toNat)
  | _ => 0

/-- R362: `ck.stat`. -/
def ckStat (c : Ckpt) : Dbl :=
  BitVec.ofNat 64 (c.seq.toNat * 2 ^ 32 + boolBit c.early * 8 + boolBit c.full * 4 + boolBit c.busy * 2 + boolBit c.err)

/-- R97, R105, R135, R296, R313, R319, R334, R362, R377, R380, R381: what a register of the partition manager's page holds. -/
def readManagerPage (s : State) (part off : Nat) : Dbl :=
  let p := partOf s part
  if off < 0x040 then tabGet 0 p.grant (off / 8)
  else if 0x080 ≤ off ∧ off < 0x0C0 then tabGet 0 p.gsize ((off - 0x080) / 8)
  else if 0x100 ≤ off ∧ off < 0x1C0 then tabGet 0 p.bands ((off - 0x100) / 8)
  else if 0x800 ≤ off ∧ off < 0x830 then readDredger p.dr (off - 0x800)
  else if 0x10000 ≤ off ∧ off < 0x18000 then tabGet 0 p.comp ((off - 0x10000) / 8)
  else
    match off with
    | 0x040 => p.trRoot
    | 0x1C0 => p.lim0
    | 0x1C8 => p.lim1
    | 0x1D0 => p.qlMap
    | 0x1D8 => p.qlPhase
    | 0x200 => p.tqRing
    | 0x208 => p.tqFull.setWidth 64
    | 0x210 => p.peSave
    | 0x218 => p.sqBase
    | 0x220 => p.nbRing
    | 0x228 => p.ck.ctl
    | 0x230 => p.ck.area
    | 0x238 => p.ck.log
    | 0x240 => ckStat p.ck
    | _ => 0

/-! ### The global page -/

/-- R137: the lowest-numbered source that is raised and enabled, or 0xFFFF. -/
def irqTop (g : Glob) : Nat := ((g.irq.filter fun e => e.2.pend && e.2.en).map (·.1)).foldl min 0xFFFF

/-- R137, R396: whether a source belongs to no partition. -/
def irqShared (i : Nat) : Bool := decide (640 ≤ i ∧ i ≤ 648)

/-- R137: a source as its register reads. -/
def irqDouble (g : Glob) (i : Nat) : Dbl :=
  let q := tabGet Irq.reset g.irq i
  BitVec.ofNat 64 (boolBit q.pend * 2 ^ 15 + boolBit q.en * 2 ^ 14 + boolBit q.pmonly * 2 ^ 13 + boolBit (irqShared i) * 2 ^ 12 +
    q.owner.toNat * 2 ^ 8 + q.vec.toNat)

/-- R360: the code of a quay's state. -/
def quayCode : QuayMode → Nat
  | .up => 0
  | .fencing => 1
  | .fenced => 2
  | .resetting => 3

/-- R360: `qf.ctl`. -/
def qfCtl (q : Quay) : Dbl := BitVec.ofNat 64 (q.why.toNat * 2 ^ 4 + quayCode q.mode * 2 ^ 2)

/-- R379: the state of a port by its place in the manual's table. -/
def portNumber : QlState → Nat
  | .down => 0
  | .train => 1
  | .check => 2
  | .up => 3
  | .fail => 4

/-- R379: `ql.ctl`; the manual gives its states no numbers (DESIGN CHOICE: log entry 49). -/
def qlCtl (q : QlPort) : Dbl :=
  BitVec.ofNat 64 (q.lanes.toNat * 2 ^ 8 + (Config.portCode (portNumber q.state)).toNat * 2 + boolBit q.en)

/-- R114: eight bytes of the berth owner table. -/
def ownerDouble (s : State) (off : Nat) : Dbl :=
  BitVec.ofNat 64 (natOfBytes ((List.range 8).map fun i => (berthOf s (off - 0x800 + i)).owner))

/-- R368: a register of a debug module's block. -/
def readDebug (d : Debug) (off : Nat) : Dbl :=
  match off with
  | 0x00 => d.ctl.setWidth 64
  | 0x08 => dbgStat d
  | 0x10 => d.acc
  | 0x18 => d.data
  | 0x20 => d.trace
  | _ => if 0x28 ≤ off ∧ off ≤ 0x40 then tabGet 0 d.wp ((off - 0x28) / 8) else 0

/-- R114, R137, R303, R310, R320, R356, R360, R368, R377, R379, R383, R384, R387: what a register of the global page holds. -/
def readGlobalPage (s : State) (off : Nat) : Dbl :=
  let g := s.glob
  if 0x400 ≤ off ∧ off < 0x480 then tabGet 0 g.tsEnt ((off - 0x400) / 8)
  else if 0x500 ≤ off ∧ off < 0x700 then tabGet 0 g.rtEnt ((off - 0x500) / 8)
  else if 0x800 ≤ off ∧ off < 0x880 then ownerDouble s off
  else if 0x2000 ≤ off ∧ off < 0x4000 then irqDouble g ((off - 0x2000) / 8)
  else if 0x8000 ≤ off ∧ off < 0xC000 then readDebug (berthOf s ((off - 0x8000) / 0x80)).dbg ((off - 0x8000) % 0x80)
  else
    match off with
    | 0x008 => BitVec.ofNat 64 (boolBit g.pmErr)
    | 0x010 => BitVec.ofNat 64 (irqTop g)
    | 0x018 => g.irqInject
    | 0x020 => g.ceThresh.setWidth 64
    | 0x028 => g.flr.setWidth 64
    | 0x090 => g.door
    | 0x098 => g.hmStat
    | 0x0A0 => setField g.icInv 63 1 (boolBit g.icBusy)
    | 0x0A8 => g.icArg
    | 0x0B0 => setField g.pwCmd 63 1 (boolBit g.pwBusy)
    | 0x0B8 => (quayOf s 0).budget.setWidth 64
    | 0x0C0 => (quayOf s 1).budget.setWidth 64
    | 0x0C8 => BitVec.ofNat 64 (g.temp.toNat * 2 ^ 8 + boolBit g.trip)
    | 0x0D0 => qlCtl g.ql0
    | 0x0D8 => qlCtl g.ql1
    | 0x700 => qfCtl (quayOf s 0)
    | 0x708 => qfCtl (quayOf s 1)
    | _ => 0

/-- R5, R6, R115: what a load of a register returns; reserved fields and offsets without a register read zero. -/
def readPage (s : State) (page : RegPage) (off : Nat) : Dbl :=
  match page with
  | .glob => readGlobalPage s off
  | .partition p => readPartPage s p off
  | .manager p => readManagerPage s p off

/-! ### Where the pages lie -/

/-- R378: what BAR0 of a PCIe function maps: the partition register page of partition p for function p + 1, and the partition
manager's pages for the physical function 0. -/
def barPage (fn off : Nat) : Option (RegPage × Nat) :=
  if 0 < fn then if off < 0x10000 then some (.partition (fn - 1), off) else none
  else if off < 0x10000 then some (.glob, off)
  else if 0x200000 ≤ off ∧ off < 0x210000 then some (.manager ((off - 0x200000) / 0x1000), off % 0x1000)
  else none

/-- R115, R377: the register that a physical address names for a partition's software, or for the partition manager (16). -/
def pageAt (part addr : Nat) : Option (RegPage × Nat) :=
  if addr < 0xF000000000 then none
  else
    let off := addr - 0xF000000000
    if 0x100000 ≤ off ∧ off < 0x200000 then
      let p := (off - 0x100000) / 0x10000
      if part = 16 ∨ part = p then barPage (p + 1) (off % 0x10000) else none
    else if part = 16 then barPage 0 off
    else none

/-- R378: whether a configuration request to virtual function p + 1 completes with Configuration Request Retry Status. -/
def configRetry (s : State) (p : Nat) : Bool := s.glob.flr.getLsbD p

/-! ### Loads and stores of registers -/

/-- One register event after another. -/
def thenDo (o : Outcome) (f : State → Outcome) : Outcome :=
  match o with
  | .next s => f s
  | o => o

/-- R5, R129, R303: a store to a register of a partition's page: the event that the register's write is, or a plain write. -/
def storePartPage (p off : Nat) (v : Dbl) (s : State) : Outcome :=
  match off with
  | 0x008 =>
    match fieldOf v 0 3 with
    | 1 => execTrCmdReplayAll p s
    | 2 => execTrCmdInvalidateAll p s
    | 3 => execTrCmdInvalidateRange p s
    | 4 => execTrCmdHarvest p s
    | _ => execRegisterWrite (.partition p) off v s
  | 0x030 => execPfRespWrite p v s
  | 0x080 => execL2SplitWrite p 0 v s
  | 0x088 => execL2SplitWrite p 1 v s
  | 0x090 => execHmDoorWrite p false v s
  | _ => execRegisterWrite (.partition p) off v s

/-- R362, R365: a store to `ck.ctl`. One that sets replay and clears en takes the newest retained checkpoint back first (DEDUCED: log
entry 51). -/
def storeCkptCtl (p : Nat) (v : Dbl) (s : State) : Outcome :=
  let plain := execRegisterWrite (.manager p) 0x228
  let ck := (partOf s p).ck
  match ck.kept.getLast? with
  | some cp =>
    if v.getLsbD 1 && !v.getLsbD 0 && !ckReplaying ck && !ckptRefused ck 0x228 v then
      thenDo (thenDo (plain (v &&& ~~~ 2) s) (execReplayStart p cp.seq.toNat)) (plain v)
    else plain v s
  | none => plain v s

/-- R5, R105, R132: a store to a register of the partition manager's page. -/
def storeManagerPage (p off : Nat) (v : Dbl) (s : State) : Outcome :=
  if 0x800 ≤ off ∧ off < 0x830 then execDredgerRegisterWrite p (off - 0x800) v s
  else
    match off with
    | 0x040 => execTrRootWrite p v s
    | 0x228 => storeCkptCtl p v s
    | 0x1C0 => execL2LimitWrite p 0 v s
    | 0x1C8 => execL2LimitWrite p 1 v s
    | _ => execRegisterWrite (.manager p) off v s

/-- R368 to R370: a store to a register of a debug module's block. -/
def storeDebug (b off : Nat) (v : Dbl) (s : State) : Outcome :=
  let plain := execRegisterWrite .glob (0x8000 + 0x80 * b + off) v s
  match off with
  | 0x00 =>
    let o := if v.getLsbD 0 then thenDo plain (execDbgHaltWrite b) else plain
    if v.getLsbD 1 then thenDo o (execDbgResumeWrite b) else o
  | 0x10 => if v.getLsbD 63 then execDbgAccess b v s else plain
  | _ => plain

/-- R360: a store to `qf.ctl`. -/
def storeFence (q : Nat) (v : Dbl) (s : State) : Outcome :=
  if v.getLsbD 0 && (quayOf s q).mode == .up then execQuayFenceCommand q s
  else if v.getLsbD 1 then execQuayResetCommand q s
  else .next s

/-- R5, R138, R303, R360, R378, R379, R383, R387: a store to a register of the global page; the partition manager's `hm.door` acts
for the partition that the record names. -/
def storeGlobalPage (off : Nat) (v : Dbl) (s : State) : Outcome :=
  if 0x8000 ≤ off ∧ off < 0xC000 then storeDebug ((off - 0x8000) / 0x80) ((off - 0x8000) % 0x80) v s
  else
    match off with
    | 0x018 => execIrqInject v s
    | 0x028 => execPmFlrWrite v s
    | 0x090 => execHmDoorWrite ((doorPart s (fieldOf v 5 43 * 32)).getD 16) true v s
    | 0x0A0 =>
      match fieldOf v 0 3 with
      | 1 => execIcInvalidateBerth v s
      | 2 => execIcInvalidateQuay v s
      | 3 => execIcInvalidatePackage v s
      | _ => runEvent (noInvalidate v) s
    | 0x0B0 =>
      match fieldOf v 0 3 with
      | 1 => execPwBerthTransition v s
      | 2 => execPwSliceTransition v s
      | 3 => execPwChannelTransition v s
      | _ => execRegisterWrite .glob off v s
    | 0x0D0 => if v.getLsbD 0 then execQlEnable 0 s else execQlDisable 0 s
    | 0x0D8 => if v.getLsbD 0 then execQlEnable 1 s else execQlDisable 1 s
    | 0x700 => storeFence 0 v s
    | 0x708 => storeFence 1 v s
    | _ => execRegisterWrite .glob off v s

def storePage (page : RegPage) (off : Nat) (v : Dbl) (s : State) : Outcome :=
  match page with
  | .glob => storeGlobalPage off v s
  | .partition p => storePartPage p off v s
  | .manager p => storeManagerPage p off v s

/-- R114, R116, R130, R303, R369: a store to a register whose write has to wait: the outside's access takes place later. -/
def storeWaits (s : State) (page : RegPage) (off : Nat) (v : Dbl) : Bool :=
  match page, off with
  | .partition p, 0x008 => fieldOf v 0 3 == 4 && !cmdRefused (partOf s p) 4 && scanHeld s p
  | .partition p, 0x080 => !(grownSlices (partOf s p) 0 v).all (sliceReady s)
  | .partition p, 0x088 => !(grownSlices (partOf s p) 1 v).all (sliceReady s)
  | .partition p, 0x090 => !(partOf s p).hmStat.getLsbD 62 && doorHeld s p (fieldOf v 5 43 * 32)
  | .manager p, 0x040 => unperformed s p s.nextReq || !cachesReady s
  | .manager _, _ => false
  | .partition _, _ => false
  | .glob, 0x090 => !s.glob.hmStat.getLsbD 62 && (List.range 16).any fun p => doorHeld s p (fieldOf v 5 43 * 32)
  | .glob, off =>
    if 0x800 ≤ off ∧ off < 0x880 then !(ownerBytes off v).all fun e => ownerReady s e.1 e.2
    else if 0x8000 ≤ off ∧ off < 0xC000 ∧ off % 0x80 = 0x10 ∧ v.getLsbD 63 then accessWaits s ((off - 0x8000) / 0x80) v
    else false

/-- R5: the bits of a register that a 1 clears. -/
def w1cBits (page : RegPage) (off : Nat) : Dbl :=
  match page, off with
  | .glob, 0x008 => 1
  | .glob, 0x028 => 0xFFFF
  | .glob, off =>
    if 0x2000 ≤ off ∧ off < 0x4000 then 0x8000
    else if 0x8000 ≤ off ∧ off < 0xC000 ∧ off % 0x80 = 0x08 then 0x10
    else 0
  | .partition _, 0x028 => 0x200
  | .partition _, _ => 0
  | .manager _, 0x208 => 0xFFFFFFFF
  | .manager _, 0x240 => 0xD
  | .manager _, 0x828 => 0x10
  | .manager _, _ => 0

/-- A store to part of a register writes the rest as it reads, and clears nothing there (DEDUCED: log entry 53). -/
def storeValue (s : State) (page : RegPage) (off lo : Nat) (bs : List Byte) : Dbl :=
  setField (readPage s page off &&& ~~~ w1cBits page off) (8 * lo) (8 * bs.length) (natOfBytes bs)

/-- R5: a load of n bytes from byte lo of a register that a read clears, if it is one and they meet the field; a counter's 32-bit
halves latch (R375). -/
def clearingRead (page : RegPage) (off lo n : Nat) : Option (State → Outcome) :=
  match page, off with
  | .partition p, off =>
    match counterAt off with
    | some (k, c) => if n = 4 then some (if lo = 0 then execCounterLowRead p k c else execCounterHighRead p k c) else none
    | none =>
      match off with
      | 0x038 => if lo < 4 then some (execPfStaleRead p) else none
      | 0x0A0 => some (execTpLostRead p)
      | 0x0B0 => if lo < 4 then some (execTpDropRead p) else none
      | 0x0B8 => some (execNtErrRead p)
      | _ => none
  | .glob, off =>
    if 0x8000 ≤ off ∧ off < 0xC000 ∧ off % 0x80 = 0x08 ∧ 4 < lo + n then some (execDbgStatRead ((off - 0x8000) / 0x80)) else none
  | .manager _, _ => none

/-- What an access of an application core answers. -/
def answerApp (refused : Bool) (v : Dbl) (s : State) : State := { s with glob := { s.glob with accessFault := refused, readOut := v } }

/-- R5, R375, R377: a load of n bytes of a register. -/
def loadRegister (page : RegPage) (at_ n : Nat) (s : State) : Outcome :=
  let off := at_ / 8 * 8
  let v := BitVec.ofNat 64 (fieldOf (readPage s page off) (8 * (at_ % 8)) (8 * n))
  match clearingRead page off (at_ % 8) n with
  | none => .next (answerApp false v s)
  | some read => thenDo (read s) fun t => .next (answerApp false (if (page matches .partition _) ∧ (counterAt off).isSome then t.glob.readOut else v) t)

/-- R5, R377: a store to a register. -/
def storeRegister (page : RegPage) (at_ : Nat) (bs : List Byte) (s : State) : Outcome :=
  let off := at_ / 8 * 8
  let v := storeValue s page off (at_ % 8) bs
  if storeWaits s page off v then .next s
  else thenDo (storePage page off v s) fun t => .next (answerApp false t.glob.readOut t)

/-- A register access is of 1, 2, 4 or 8 aligned bytes. -/
def registerSized (addr n : Nat) : Bool := [1, 2, 4, 8].contains n && addr % n == 0

/-! ### Application cores -/

/-- R118, R376: the memory an application core reaches for a partition; 16 stands for the partition manager's own accesses (DEDUCED: log entry 59) (DESIGN CHOICE: log entry 61). -/
def appOk (s : State) (part addr n : Nat) : Bool := decide (addr + n ≤ extEnd) && (part == 16 || inGrants (partOf s part) addr n)

/-- R239, R376: an access of an application core to memory, or a fence. -/
def appMemory (part : Nat) (acc : AppAccess) : Act Unit := do
  let s ← get
  match acc with
  | .load addr n => do
    if appOk s part addr n && !isBad s addr n then do
      need (!unitWaits s part addr n false)
      set (answerApp false (BitVec.ofNat 64 (natOfBytes (memRead s.mem addr n))) s)
    else set (answerApp true s.glob.readOut s)
  | .store addr bs => do
    if appOk s part addr bs.length && !meetsMark s addr bs.length then do
      need (!unitWaits s part addr bs.length true)
      set (answerApp false s.glob.readOut (wideWrite s addr bs))
    else set (answerApp true s.glob.readOut s)
  | .fence _ _ => set (answerApp false s.glob.readOut s)

/-- R239, R376, R377. An application core's load, store or fence: of a register where the map places one, else coherent with the home slices (DEDUCED: log entry 54) (DESIGN CHOICE: log entry 61). -/
def execApplicationCoreAccess (part : Nat) (acc : AppAccess) (s : State) : Outcome :=
  let place := fun (addr n : Nat) => if registerSized addr n then pageAt part addr else none
  match acc with
  | .load addr n =>
    match place addr n with
    | some (page, at_) => loadRegister page at_ n s
    | none => runEvent (appMemory part acc) s
  | .store addr bs =>
    match place addr bs.length with
    | some (page, at_) => storeRegister page at_ bs s
    | none => runEvent (appMemory part acc) s
  | .fence _ _ => runEvent (appMemory part acc) s

end Sys2Proof.Machine
end

