-- ==== Sys2Proof/Machine/ScalarFp.lean ====
section
/-!
DEFINITION. Scalar FP32 instructions (R166 to R168).
-/
namespace Sys2Proof.Machine

open Sys2Proof

/-- The FP32 value of a scalar operand (R166: bits 63 to 32 are ignored). -/
def f32Of (x : Dbl) : FpNum := decF32 x.toNat

/-- R166: an FP32 code as a scalar result. -/
def f32Res (c : Nat) : Dbl := BitVec.ofNat 64 (c % 2 ^ 32)

/-- R166, R167: rounds one result with j = 0 and adds its flags. -/
def roundedF (g : Rounding → Nat × BitVec 5) : Act Nat := do
  let ms ← takeRound
  let (c, fl) := g (roundingOf ms 0)
  addFlags fl
  pure c

/-- R168: sign injection; a NaN gives the default NaN. -/
def signInject (x : Dbl) (sign : Bool) : Dbl :=
  if isNan (f32Of x) then 0x7FC00000 else BitVec.ofNat 64 (x.toNat % 2 ^ 31 + boolBit sign * 2 ^ 31)

/-- R166. A + B, rounded. -/
def execFadd (f : BitVec 1) (eb : BitVec 1) (ea : BitVec 1) (b : BitVec 5) (a : BitVec 5) (d : BitVec 5) (s : State) : Outcome :=
  runInstr (fwdRule f [a, b]) (encFadd f eb ea b a d) 4 (formR f eb ea b a d fun x y => do pure (f32Res (← roundedF fun r => fpAdd fFP32 r (f32Of x) (f32Of y)))) s

/-- R166. A − B, rounded. -/
def execFsub (f : BitVec 1) (eb : BitVec 1) (ea : BitVec 1) (b : BitVec 5) (a : BitVec 5) (d : BitVec 5) (s : State) : Outcome :=
  runInstr (fwdRule f [a, b]) (encFsub f eb ea b a d) 4 (formR f eb ea b a d fun x y => do pure (f32Res (← roundedF fun r => fpAdd fFP32 r (f32Of x) (negNum (f32Of y))))) s

/-- R166. A · B, rounded. -/
def execFmul (f : BitVec 1) (eb : BitVec 1) (ea : BitVec 1) (b : BitVec 5) (a : BitVec 5) (d : BitVec 5) (s : State) : Outcome :=
  runInstr (fwdRule f [a, b]) (encFmul f eb ea b a d) 4 (formR f eb ea b a d fun x y => do pure (f32Res (← roundedF fun r => fpMul fFP32 r (f32Of x) (f32Of y)))) s

/-- R166. A · B + xd with one rounding; xd is read after a and b. -/
def execFmadd (f : BitVec 1) (eb : BitVec 1) (ea : BitVec 1) (b : BitVec 5) (a : BitVec 5) (d : BitVec 5) (s : State) : Outcome :=
  runInstr ((fwdRule f [a, b]).or (portRule d)) (encFmadd f eb ea b a d) 4 (formRD f eb ea b a d fun x y z => do
    pure (f32Res (← roundedF fun r => fpFma fFP32 r (f32Of x) (f32Of y) (f32Of z)))) s

/-- R168. The smaller operand. -/
def execFmin (f : BitVec 1) (eb : BitVec 1) (ea : BitVec 1) (b : BitVec 5) (a : BitVec 5) (d : BitVec 5) (s : State) : Outcome :=
  runInstr (fwdRule f [a, b]) (encFmin f eb ea b a d) 4 (formR f eb ea b a d fun x y => pure (f32Res (fpPick fFP32 false (x.toNat % 2 ^ 32) (y.toNat % 2 ^ 32)))) s

/-- R168. The larger operand. -/
def execFmax (f : BitVec 1) (eb : BitVec 1) (ea : BitVec 1) (b : BitVec 5) (a : BitVec 5) (d : BitVec 5) (s : State) : Outcome :=
  runInstr (fwdRule f [a, b]) (encFmax f eb ea b a d) 4 (formR f eb ea b a d fun x y => pure (f32Res (fpPick fFP32 true (x.toNat % 2 ^ 32) (y.toNat % 2 ^ 32)))) s

/-- R166, R168. Equal. -/
def execFcmpEq (f : BitVec 1) (eb : BitVec 1) (ea : BitVec 1) (b : BitVec 5) (a : BitVec 5) (d : BitVec 5) (s : State) : Outcome :=
  runInstr (fwdRule f [a, b]) (encFcmpEq f eb ea b a d) 4 (formR f eb ea b a d fun x y => pure (boolDbl (fpEq (f32Of x) (f32Of y)))) s

/-- R166, R168. Less than. -/
def execFcmpLt (f : BitVec 1) (eb : BitVec 1) (ea : BitVec 1) (b : BitVec 5) (a : BitVec 5) (d : BitVec 5) (s : State) : Outcome :=
  runInstr (fwdRule f [a, b]) (encFcmpLt f eb ea b a d) 4 (formR f eb ea b a d fun x y => pure (boolDbl (fpLt (f32Of x) (f32Of y)))) s

/-- R166, R168. Less than or equal. -/
def execFcmpLe (f : BitVec 1) (eb : BitVec 1) (ea : BitVec 1) (b : BitVec 5) (a : BitVec 5) (d : BitVec 5) (s : State) : Outcome :=
  runInstr (fwdRule f [a, b]) (encFcmpLe f eb ea b a d) 4 (formR f eb ea b a d fun x y => pure (boolDbl (fpLe (f32Of x) (f32Of y)))) s

/-- R166, R168. Unordered. -/
def execFcmpUn (f : BitVec 1) (eb : BitVec 1) (ea : BitVec 1) (b : BitVec 5) (a : BitVec 5) (d : BitVec 5) (s : State) : Outcome :=
  runInstr (fwdRule f [a, b]) (encFcmpUn f eb ea b a d) 4 (formR f eb ea b a d fun x y => pure (boolDbl (isNan (f32Of x) || isNan (f32Of y)))) s

/-- R166. To a signed 64-bit integer. -/
def execFcvtLF (f : BitVec 1) (ea : BitVec 1) (a : BitVec 5) (d : BitVec 5) (s : State) : Outcome :=
  runInstr (fwdRule f [a]) (encFcvtLF f ea a d) 4 (formU f ea a d fun x => do
    pure (BitVec.ofNat 64 (← roundedF fun r => encodeElem 0x07 r (f32Of x)))) s

/-- R166. To an unsigned 64-bit integer. -/
def execFcvtLuF (f : BitVec 1) (ea : BitVec 1) (a : BitVec 5) (d : BitVec 5) (s : State) : Outcome :=
  runInstr (fwdRule f [a]) (encFcvtLuF f ea a d) 4 (formU f ea a d fun x => do
    pure (BitVec.ofNat 64 (← roundedF fun r => ((encodeRange 0 (2 ^ 64 - 1) r (f32Of x)).1.toNat, (encodeRange 0 (2 ^ 64 - 1) r (f32Of x)).2)))) s

/-- R166. From a signed 64-bit integer. -/
def execFcvtFL (f : BitVec 1) (ea : BitVec 1) (a : BitVec 5) (d : BitVec 5) (s : State) : Outcome :=
  runInstr (fwdRule f [a]) (encFcvtFL f ea a d) 4 (formU f ea a d fun x => do
    pure (BitVec.ofNat 64 (← roundedF fun r => encF32 r (numInt x.toInt)))) s

/-- R166. From an unsigned 64-bit integer. -/
def execFcvtFLu (f : BitVec 1) (ea : BitVec 1) (a : BitVec 5) (d : BitVec 5) (s : State) : Outcome :=
  runInstr (fwdRule f [a]) (encFcvtFLu f ea a d) 4 (formU f ea a d fun x => do
    pure (BitVec.ofNat 64 (← roundedF fun r => encF32 r (numInt x.toNat)))) s

/-- R168. The sign of B. -/
def execFsgnj (f : BitVec 1) (eb : BitVec 1) (ea : BitVec 1) (b : BitVec 5) (a : BitVec 5) (d : BitVec 5) (s : State) : Outcome :=
  runInstr (fwdRule f [a, b]) (encFsgnj f eb ea b a d) 4 (formR f eb ea b a d fun x y => pure (signInject x (y.getLsbD 31))) s

/-- R168. The negated sign of B. -/
def execFsgnjn (f : BitVec 1) (eb : BitVec 1) (ea : BitVec 1) (b : BitVec 5) (a : BitVec 5) (d : BitVec 5) (s : State) : Outcome :=
  runInstr (fwdRule f [a, b]) (encFsgnjn f eb ea b a d) 4 (formR f eb ea b a d fun x y => pure (signInject x (!y.getLsbD 31))) s

/-- R168. The exclusive or of the signs. -/
def execFsgnjx (f : BitVec 1) (eb : BitVec 1) (ea : BitVec 1) (b : BitVec 5) (a : BitVec 5) (d : BitVec 5) (s : State) : Outcome :=
  runInstr (fwdRule f [a, b]) (encFsgnjx f eb ea b a d) 4 (formR f eb ea b a d fun x y => pure (signInject x (x.getLsbD 31 != y.getLsbD 31))) s

end Sys2Proof.Machine
end

