-- ==== Sys2Proof/Machine/ScalarInt.lean ====
section
/-!
DEFINITION. Integer register and immediate instructions (R160 to R163), one definition each.
-/
namespace Sys2Proof.Machine

open Sys2Proof

/-- A shift count from the low bits of a value. -/
def shiftCount (y : Dbl) (n : Nat) : Nat := y.toNat % 2 ^ n

/-- R160: the sign extension of the low 32 bits. -/
def sextW (x : Dbl) : Dbl := (x.extractLsb' 0 32).signExtend 64

/-- R160: the number of zero bits above the highest 1. -/
def clzDbl (x : Dbl) : Dbl := BitVec.ofNat 64 (64 - bitLength x.toNat)

/-- R161: `bext`. -/
def bextDbl (x y : Dbl) : Dbl := BitVec.ofNat 64 (bitsAt x.toNat (shiftCount y 6) (fieldOf y 8 6 + 1))

/-- R161: `bins` of x under the control y into old. -/
def binsDbl (x y old : Dbl) : Dbl :=
  let mask := BitVec.ofNat 64 ((2 ^ (fieldOf y 8 6 + 1) - 1) * 2 ^ shiftCount y 6)
  (old &&& ~~~ mask) ||| ((x <<< shiftCount y 6) &&& mask)

/-- R160. A + B. -/
def execAdd (f : BitVec 1) (eb : BitVec 1) (ea : BitVec 1) (b : BitVec 5) (a : BitVec 5) (d : BitVec 5) (s : State) : Outcome :=
  runInstr (fwdRule f [a, b]) (encAdd f eb ea b a d) 4 (formR f eb ea b a d fun x y => pure (x + y)) s

/-- R160. A − B. -/
def execSub (f : BitVec 1) (eb : BitVec 1) (ea : BitVec 1) (b : BitVec 5) (a : BitVec 5) (d : BitVec 5) (s : State) : Outcome :=
  runInstr (fwdRule f [a, b]) (encSub f eb ea b a d) 4 (formR f eb ea b a d fun x y => pure (x - y)) s

/-- R160. A and B. -/
def execAnd (f : BitVec 1) (eb : BitVec 1) (ea : BitVec 1) (b : BitVec 5) (a : BitVec 5) (d : BitVec 5) (s : State) : Outcome :=
  runInstr (fwdRule f [a, b]) (encAnd f eb ea b a d) 4 (formR f eb ea b a d fun x y => pure (x &&& y)) s

/-- R160. A or B. -/
def execOr (f : BitVec 1) (eb : BitVec 1) (ea : BitVec 1) (b : BitVec 5) (a : BitVec 5) (d : BitVec 5) (s : State) : Outcome :=
  runInstr (fwdRule f [a, b]) (encOr f eb ea b a d) 4 (formR f eb ea b a d fun x y => pure (x ||| y)) s

/-- R160. A xor B. -/
def execXor (f : BitVec 1) (eb : BitVec 1) (ea : BitVec 1) (b : BitVec 5) (a : BitVec 5) (d : BitVec 5) (s : State) : Outcome :=
  runInstr (fwdRule f [a, b]) (encXor f eb ea b a d) 4 (formR f eb ea b a d fun x y => pure (x ^^^ y)) s

/-- R160. A and not B. -/
def execAndn (f : BitVec 1) (eb : BitVec 1) (ea : BitVec 1) (b : BitVec 5) (a : BitVec 5) (d : BitVec 5) (s : State) : Outcome :=
  runInstr (fwdRule f [a, b]) (encAndn f eb ea b a d) 4 (formR f eb ea b a d fun x y => pure (x &&& ~~~ y)) s

/-- R160. A · 2^B[5:0]. -/
def execSll (f : BitVec 1) (eb : BitVec 1) (ea : BitVec 1) (b : BitVec 5) (a : BitVec 5) (d : BitVec 5) (s : State) : Outcome :=
  runInstr (fwdRule f [a, b]) (encSll f eb ea b a d) 4 (formR f eb ea b a d fun x y => pure (x <<< shiftCount y 6)) s

/-- R160. ⌊A / 2^B[5:0]⌋. -/
def execSrl (f : BitVec 1) (eb : BitVec 1) (ea : BitVec 1) (b : BitVec 5) (a : BitVec 5) (d : BitVec 5) (s : State) : Outcome :=
  runInstr (fwdRule f [a, b]) (encSrl f eb ea b a d) 4 (formR f eb ea b a d fun x y => pure (x >>> shiftCount y 6)) s

/-- R160. ⌊signed A / 2^B[5:0]⌋. -/
def execSra (f : BitVec 1) (eb : BitVec 1) (ea : BitVec 1) (b : BitVec 5) (a : BitVec 5) (d : BitVec 5) (s : State) : Outcome :=
  runInstr (fwdRule f [a, b]) (encSra f eb ea b a d) 4 (formR f eb ea b a d fun x y => pure (x.sshiftRight (shiftCount y 6))) s

/-- R160. Signed less than. -/
def execSlt (f : BitVec 1) (eb : BitVec 1) (ea : BitVec 1) (b : BitVec 5) (a : BitVec 5) (d : BitVec 5) (s : State) : Outcome :=
  runInstr (fwdRule f [a, b]) (encSlt f eb ea b a d) 4 (formR f eb ea b a d fun x y => pure (boolDbl (x.slt y))) s

/-- R160. Unsigned less than. -/
def execSltu (f : BitVec 1) (eb : BitVec 1) (ea : BitVec 1) (b : BitVec 5) (a : BitVec 5) (d : BitVec 5) (s : State) : Outcome :=
  runInstr (fwdRule f [a, b]) (encSltu f eb ea b a d) 4 (formR f eb ea b a d fun x y => pure (boolDbl (x.ult y))) s

/-- R160. Signed minimum. -/
def execMin (f : BitVec 1) (eb : BitVec 1) (ea : BitVec 1) (b : BitVec 5) (a : BitVec 5) (d : BitVec 5) (s : State) : Outcome :=
  runInstr (fwdRule f [a, b]) (encMin f eb ea b a d) 4 (formR f eb ea b a d fun x y => pure (if y.slt x then y else x)) s

/-- R160. Signed maximum. -/
def execMax (f : BitVec 1) (eb : BitVec 1) (ea : BitVec 1) (b : BitVec 5) (a : BitVec 5) (d : BitVec 5) (s : State) : Outcome :=
  runInstr (fwdRule f [a, b]) (encMax f eb ea b a d) 4 (formR f eb ea b a d fun x y => pure (if x.slt y then y else x)) s

/-- R160. Unsigned minimum. -/
def execMinu (f : BitVec 1) (eb : BitVec 1) (ea : BitVec 1) (b : BitVec 5) (a : BitVec 5) (d : BitVec 5) (s : State) : Outcome :=
  runInstr (fwdRule f [a, b]) (encMinu f eb ea b a d) 4 (formR f eb ea b a d fun x y => pure (if y.ult x then y else x)) s

/-- R160. Unsigned maximum. -/
def execMaxu (f : BitVec 1) (eb : BitVec 1) (ea : BitVec 1) (b : BitVec 5) (a : BitVec 5) (d : BitVec 5) (s : State) : Outcome :=
  runInstr (fwdRule f [a, b]) (encMaxu f eb ea b a d) 4 (formR f eb ea b a d fun x y => pure (if x.ult y then y else x)) s

/-- R160. Zero bits above the highest 1; 64 for 0. -/
def execClz (f : BitVec 1) (ea : BitVec 1) (a : BitVec 5) (d : BitVec 5) (s : State) : Outcome :=
  runInstr (fwdRule f [a]) (encClz f ea a d) 4 (formU f ea a d fun x => pure (clzDbl x)) s

/-- R160. Zero bits below the lowest 1; 64 for 0. -/
def execCtz (f : BitVec 1) (ea : BitVec 1) (a : BitVec 5) (d : BitVec 5) (s : State) : Outcome :=
  runInstr (fwdRule f [a]) (encCtz f ea a d) 4 (formU f ea a d fun x => pure (BitVec.ofNat 64 (trailingZeros 64 x.toNat))) s

/-- R160. Number of 1 bits. -/
def execPop (f : BitVec 1) (ea : BitVec 1) (a : BitVec 5) (d : BitVec 5) (s : State) : Outcome :=
  runInstr (fwdRule f [a]) (encPop f ea a d) 4 (formU f ea a d fun x => pure (BitVec.ofNat 64 (popCount 64 x.toNat))) s

/-- R161. Extracts the field that B describes. -/
def execBext (f : BitVec 1) (eb : BitVec 1) (ea : BitVec 1) (b : BitVec 5) (a : BitVec 5) (d : BitVec 5) (s : State) : Outcome :=
  runInstr (fwdRule f [a, b]) (encBext f eb ea b a d) 4 (formR f eb ea b a d fun x y => pure (bextDbl x y)) s

/-- R161. Inserts A into the field of xd that B describes; xd is read third. -/
def execBins (f : BitVec 1) (eb : BitVec 1) (ea : BitVec 1) (b : BitVec 5) (a : BitVec 5) (d : BitVec 5) (s : State) : Outcome :=
  runInstr ((fwdRule f [a, b]).or (portRule d)) (encBins f eb ea b a d) 4 (formRD f eb ea b a d fun x y z => pure (binsDbl x y z)) s

/-- R160. 32-bit sum, sign-extended. -/
def execAddw (f : BitVec 1) (eb : BitVec 1) (ea : BitVec 1) (b : BitVec 5) (a : BitVec 5) (d : BitVec 5) (s : State) : Outcome :=
  runInstr (fwdRule f [a, b]) (encAddw f eb ea b a d) 4 (formR f eb ea b a d fun x y => pure (sextW (x + y))) s

/-- R160. 32-bit difference, sign-extended. -/
def execSubw (f : BitVec 1) (eb : BitVec 1) (ea : BitVec 1) (b : BitVec 5) (a : BitVec 5) (d : BitVec 5) (s : State) : Outcome :=
  runInstr (fwdRule f [a, b]) (encSubw f eb ea b a d) 4 (formR f eb ea b a d fun x y => pure (sextW (x - y))) s

/-- R160. 32-bit left shift, sign-extended. -/
def execSllw (f : BitVec 1) (eb : BitVec 1) (ea : BitVec 1) (b : BitVec 5) (a : BitVec 5) (d : BitVec 5) (s : State) : Outcome :=
  runInstr (fwdRule f [a, b]) (encSllw f eb ea b a d) 4 (formR f eb ea b a d fun x y => pure (sextW (x <<< shiftCount y 5))) s

/-- R160. 32-bit logical right shift, sign-extended. -/
def execSrlw (f : BitVec 1) (eb : BitVec 1) (ea : BitVec 1) (b : BitVec 5) (a : BitVec 5) (d : BitVec 5) (s : State) : Outcome :=
  runInstr (fwdRule f [a, b]) (encSrlw f eb ea b a d) 4 (formR f eb ea b a d fun x y => pure (((x.extractLsb' 0 32) >>> shiftCount y 5).signExtend 64)) s

/-- R160. 32-bit arithmetic right shift. -/
def execSraw (f : BitVec 1) (eb : BitVec 1) (ea : BitVec 1) (b : BitVec 5) (a : BitVec 5) (d : BitVec 5) (s : State) : Outcome :=
  runInstr (fwdRule f [a, b]) (encSraw f eb ea b a d) 4 (formR f eb ea b a d fun x y => pure ((sextW x).sshiftRight (shiftCount y 5))) s

/-- R162. A + S. -/
def execAddi (k : BitVec 12) (a : BitVec 5) (d : BitVec 5) (s : State) : Outcome :=
  runInstr none (encAddi k a d) 4 (formK a d fun x => pure (x + k.signExtend 64)) s

/-- R162. A and S. -/
def execAndi (k : BitVec 12) (a : BitVec 5) (d : BitVec 5) (s : State) : Outcome :=
  runInstr none (encAndi k a d) 4 (formK a d fun x => pure (x &&& k.signExtend 64)) s

/-- R162. A or S. -/
def execOri (k : BitVec 12) (a : BitVec 5) (d : BitVec 5) (s : State) : Outcome :=
  runInstr none (encOri k a d) 4 (formK a d fun x => pure (x ||| k.signExtend 64)) s

/-- R162. A xor S. -/
def execXori (k : BitVec 12) (a : BitVec 5) (d : BitVec 5) (s : State) : Outcome :=
  runInstr none (encXori k a d) 4 (formK a d fun x => pure (x ^^^ k.signExtend 64)) s

/-- R162. Signed A < S. -/
def execSlti (k : BitVec 12) (a : BitVec 5) (d : BitVec 5) (s : State) : Outcome :=
  runInstr none (encSlti k a d) 4 (formK a d fun x => pure (boolDbl (x.slt (k.signExtend 64)))) s

/-- R162. Unsigned A < S. -/
def execSltiu (k : BitVec 12) (a : BitVec 5) (d : BitVec 5) (s : State) : Outcome :=
  runInstr none (encSltiu k a d) 4 (formK a d fun x => pure (boolDbl (x.ult (k.signExtend 64)))) s

/-- R162. Left shift by sh. -/
def execSlli (sh : BitVec 6) (a : BitVec 5) (d : BitVec 5) (s : State) : Outcome :=
  runInstr none (encSlli sh a d) 4 (formK a d fun x => pure (x <<< sh.toNat)) s

/-- R162. Logical right shift by sh. -/
def execSrli (sh : BitVec 6) (a : BitVec 5) (d : BitVec 5) (s : State) : Outcome :=
  runInstr none (encSrli sh a d) 4 (formK a d fun x => pure (x >>> sh.toNat)) s

/-- R162. Arithmetic right shift by sh. -/
def execSrai (sh : BitVec 6) (a : BitVec 5) (d : BitVec 5) (s : State) : Outcome :=
  runInstr none (encSrai sh a d) 4 (formK a d fun x => pure (x.sshiftRight sh.toNat)) s

/-- R162. Signed minimum with the immediate. -/
def execMini (k : BitVec 10) (a : BitVec 5) (d : BitVec 5) (s : State) : Outcome :=
  runInstr none (encMini k a d) 4 (formK a d fun x => pure (if (k.signExtend 64).slt x then k.signExtend 64 else x)) s

/-- R162. Signed maximum with the immediate. -/
def execMaxi (k : BitVec 10) (a : BitVec 5) (d : BitVec 5) (s : State) : Outcome :=
  runInstr none (encMaxi k a d) 4 (formK a d fun x => pure (if x.slt (k.signExtend 64) then k.signExtend 64 else x)) s

/-- R162. Unsigned minimum with the sign-extended immediate. -/
def execMinui (k : BitVec 10) (a : BitVec 5) (d : BitVec 5) (s : State) : Outcome :=
  runInstr none (encMinui k a d) 4 (formK a d fun x => pure (if (k.signExtend 64).ult x then k.signExtend 64 else x)) s

/-- R162. Unsigned maximum with the sign-extended immediate. -/
def execMaxui (k : BitVec 10) (a : BitVec 5) (d : BitVec 5) (s : State) : Outcome :=
  runInstr none (encMaxui k a d) 4 (formK a d fun x => pure (if x.ult (k.signExtend 64) then k.signExtend 64 else x)) s

/-- R162. 32-bit sum, sign-extended. -/
def execAddiw (k : BitVec 12) (a : BitVec 5) (d : BitVec 5) (s : State) : Outcome :=
  runInstr none (encAddiw k a d) 4 (formK a d fun x => pure (sextW (x + k.signExtend 64))) s

/-- R163. The sign extension of imm20 · 2^12. -/
def execLui (i : BitVec 20) (d : BitVec 5) (s : State) : Outcome :=
  runInstr none (encLui i d) 4 (do
    scalarLink d false
    writeX d ((i ++ 0#12).signExtend 64)
    pure .seq) s

end Sys2Proof.Machine
end

