-- ==== Sys2Proof/Machine/Sfu.lean ====
section
/-!
DEFINITION. The special-function unit (R194 to R197). A function's exact value is held as its first bits with a mark for the
rest; irrational values are computed in fixed point with far more bits than any rounding of FP32 looks at.
-/
namespace Sys2Proof.Machine

open Sys2Proof

/-- Fraction bits of the fixed-point values, of which the lowest `fxDrop` absorb the error of the series. -/
def fxBits : Nat := 384
def fxDrop : Nat := 48
def fxOne : Nat := 2 ^ fxBits

/-- Newton's iteration for an integer square root, from above; `fuel` bounds it. -/
def sqrtFrom (n : Nat) : Nat → Nat → Nat
  | 0, r => r
  | fuel + 1, r =>
    let t := (r + n / r) / 2
    if r ≤ t then r else sqrtFrom n fuel t

/-- The integer square root. -/
def isqrt (n : Nat) : Nat := if n = 0 then 0 else sqrtFrom n (bitLength n + 2) (2 ^ ((bitLength n + 1) / 2))

/-- A magnitude known to lie at or just above m·2^e. -/
def numNear (neg : Bool) (m : Nat) (e : Int) (tail : Bool) : FpNum := if m = 0 ∧ tail = false then .zero neg else .fin neg m e tail

/-- An irrational magnitude from its fixed-point value (DEDUCED: log entry 27). -/
def numFx (neg : Bool) (v : Nat) : FpNum := .fin neg (v / 2 ^ fxDrop) (fxDrop - (fxBits : Int)) true

/-- Σ z^(2k+1)/(2k+1): terms from `k`, `p` being the power. -/
def atanhSum (z2 : Nat) : Nat → Nat → Nat → Nat
  | 0, _, _ => 0
  | fuel + 1, k, p => p / (2 * k + 1) + atanhSum z2 fuel (k + 1) (p * z2 / fxOne)

/-- The natural logarithm of a fixed-point number from 1 to 2. -/
def fxLn (y : Nat) : Nat :=
  let z := (y - fxOne) * fxOne / (y + fxOne)
  2 * atanhSum (z * z / fxOne) 140 0 z

def fxLn2 : Nat := fxLn (2 * fxOne)

/-- Σ y^k/k! from term `k`, `t` being the term (DEDUCED: log entry 27). -/
def expSum (y : Nat) : Nat → Nat → Nat → Nat
  | 0, _, _ => 0
  | fuel + 1, k, t => t + expSum y fuel (k + 1) (t * y / fxOne / (k + 1))

/-- The alternating series of atan(1/n), added from term `k` (DEDUCED: log entry 27). -/
def atanSum (n2 : Nat) : Nat → Nat → Nat → Int
  | 0, _, _ => 0
  | fuel + 1, k, p => (if k % 2 = 0 then ((p / (2 * k + 1) : Nat) : Int) else -((p / (2 * k + 1) : Nat) : Int)) +
    atanSum n2 fuel (k + 1) (p / n2)

/-- π by Machin's formula. -/
def fxPi : Nat := (16 * atanSum 25 90 0 (fxOne / 5) - 4 * atanSum (239 * 239) 30 0 (fxOne / 239)).toNat

/-- The alternating series of sine (k odd) and cosine (k even) from term `t` of order `k` (DEDUCED: log entry 27). -/
def trigSum (y2 : Nat) : Nat → Nat → Nat → Int
  | 0, _, _ => 0
  | fuel + 1, k, t => (t : Int) - trigSum y2 fuel (k + 2) (t * y2 / fxOne / ((k + 1) * (k + 2)))

/-- sin(π r) and cos(π r) for a fixed-point r from 0 to 1/2. -/
def fxSin (r : Nat) : Nat :=
  let y := r * fxPi / fxOne
  (trigSum (y * y / fxOne) 60 1 y).toNat
def fxCos (r : Nat) : Nat :=
  let y := r * fxPi / fxOne
  (trigSum (y * y / fxOne) 60 0 fxOne).toNat

/-- R195: 2^x of a finite x that is not zero. -/
def exp2Of (neg : Bool) (m : Nat) (e : Int) : FpNum :=
  if 8 < floorLog m e then (if neg then .fin false 1 (-1000) false else .fin false 1 1000 false)
  else
    let x : Int := (atExp m e (-(fxBits : Int)) : Nat)
    let x := if neg then -x else x
    let n := x / (fxOne : Int)
    let f := (x % (fxOne : Int)).toNat
    if f = 0 then .fin false 1 n false
    else scaleNum n (numFx false (expSum (f * fxLn2 / fxOne) 100 0 fxOne))

/-- R195: log2 x of a positive finite x. -/
def log2Of (m : Nat) (e : Int) : FpNum :=
  let k := floorLog m e
  let y := m * 2 ^ (fxBits - Nat.log2 m)
  if y = fxOne then numInt k
  else
    let v := k * (fxOne : Int) + ((fxLn y * fxOne / fxLn2 : Nat) : Int)
    numFx (v < 0) v.natAbs

/-- R195: sin(π x) and cos(π x) of a finite x that is not zero: exact where 2x is an integer. -/
def sinPiOf (neg : Bool) (m : Nat) (e : Int) : FpNum :=
  if 0 ≤ e then .zero neg
  else
    let r := atExp m e (-(fxBits : Int)) % (2 * fxOne)
    let up := r / fxOne
    let f := r % fxOne
    let sgn := neg != (up == 1)
    if f = 0 then .zero neg
    else if 2 * f = fxOne then .fin sgn 1 0 false
    else numFx sgn (if 2 * f < fxOne then fxSin f else fxSin (fxOne - f))

def cosPiOf (m : Nat) (e : Int) : FpNum :=
  let r := if 0 ≤ e then atExp m e 0 % 2 * fxOne else atExp m e (-(fxBits : Int)) % (2 * fxOne)
  let r := if r ≤ fxOne then r else 2 * fxOne - r
  if r = 0 then .fin false 1 0 false
  else if r = fxOne then .fin true 1 0 false
  else if 2 * r = fxOne then .zero false
  else if 2 * r < fxOne then numFx false (fxCos r) else numFx true (fxCos (fxOne - r))

/-- R195: √(m·2^e). -/
def sqrtOf (m : Nat) (e : Int) : FpNum :=
  let m2 := if e % 2 = 0 then m else 2 * m
  let e2 := if e % 2 = 0 then e else e - 1
  let v := m2 * 2 ^ 256
  let r := isqrt v
  numNear false r (e2 / 2 - 128) (r * r != v)

/-- R195: 1/√(m·2^e). -/
def rsqrtOf (m : Nat) (e : Int) : FpNum :=
  let m2 := if e % 2 = 0 then m else 2 * m
  let e2 := if e % 2 = 0 then e else e - 1
  let r := isqrt (2 ^ 384 / m2)
  numNear false r (-(e2 / 2) - 192) (r * r * m2 != 2 ^ 384)

/-- R195: 1/(m·2^e). -/
def rcpOf (neg : Bool) (m : Nat) (e : Int) : FpNum :=
  numNear neg (2 ^ 256 / m) (-e - 256) (2 ^ 256 % m != 0)

/-- R195, R196: a function's exact value and the flags that its argument raises (DEDUCED: log entry 27). -/
def sfuValue (fn : Nat) (x : FpNum) : FpNum × BitVec 5 :=
  match fn, x with
  | _, .nan => (.nan, 0)
  | 0, .inf n => (if n then .zero false else .inf false, 0)
  | 0, .zero _ => (numInt 1, 0)
  | 0, .fin n m e _ => (exp2Of n m e, 0)
  | 1, .zero _ => (.inf true, fDZ)
  | 1, .inf n => if n then (.nan, fNV) else (.inf false, 0)
  | 1, .fin n m e _ => if n then (.nan, fNV) else (log2Of m e, 0)
  | 2, .zero n => (.inf n, fDZ)
  | 2, .inf n => (.zero n, 0)
  | 2, .fin n m e _ => (rcpOf n m e, 0)
  | 3, .zero n => (.inf n, fDZ)
  | 3, .inf n => if n then (.nan, fNV) else (.zero false, 0)
  | 3, .fin n m e _ => if n then (.nan, fNV) else (rsqrtOf m e, 0)
  | 4, .zero n => (.zero n, 0)
  | 4, .inf n => if n then (.nan, fNV) else (.inf false, 0)
  | 4, .fin n m e _ => if n then (.nan, fNV) else (sqrtOf m e, 0)
  | 5, .zero n => (.zero n, 0)
  | 5, .inf _ => (.nan, fNV)
  | 5, .fin n m e _ => (sinPiOf n m e, 0)
  | _, .zero _ => (numInt 1, 0)
  | _, .inf _ => (.nan, fNV)
  | _, .fin _ m e _ => (cosPiOf m e, 0)

/-- R195: one lane. -/
def sfuLane (fn : Nat) (r : Rounding) (x : Nat) : Nat × BitVec 5 :=
  let (v, fl) := sfuValue fn (decF32 x)
  let (c, f2) := encF32 r v
  (c, fl ||| f2)

/-- R194: an SFU instruction, up to its acceptance. It stalls while the queue is full and while a resumed context of the berth
still has requests to enter again (R197). -/
def sfuIssue (fn : Nat) (m : BitVec 3) (a v : BitVec 6) : Act Next := do
  vectorLink a
  vectorLink v
  let x ← readV a
  let old ← readOld m v
  let mask ← readM m
  let s ← get
  let k := s.cur.core
  let b := coreBerth k
  let waiting := (List.range 4).any fun i => (List.range 4).any fun c =>
    let y := ctxOf s (4 * b + i) c
    y.mode == .running && !y.sfuSaved.isEmpty && !(coreOf s (4 * b + i)).preempted
  if waiting || 16 ≤ (berthOf s b).sfuQ.length then halt (.stall .other) else pure ()
  let ms ← takeRound
  let id := s.nextReq
  let dst ← claimV v id
  let d := match dst with
    | .v phys => phys
    | _ => v.toNat
  modify fun s => { s with nextReq := id + 1 }
  modBerth b fun y => { y with
    sfuQ := y.sfuQ ++ [⟨k, s.cur.ctx, BitVec.ofNat 4 fn, d, x, old, mask, BitVec.ofNat 3 ms.1, BitVec.ofNat 32 ms.2, id,
      (ctxOf s k s.cur.ctx).epoch⟩] }
  pure .seq

/-- R195. Queues 2^x. -/
def execSexp2 (m : BitVec 3) (a : BitVec 6) (v : BitVec 6) (s : State) : Outcome :=
  runInstr (mergeRule m v) (encSexp2 m a v) 4 (sfuIssue 0 m a v) s

/-- R195. Queues log2 x. -/
def execSlog2 (m : BitVec 3) (a : BitVec 6) (v : BitVec 6) (s : State) : Outcome :=
  runInstr (mergeRule m v) (encSlog2 m a v) 4 (sfuIssue 1 m a v) s

/-- R195. Queues 1/x. -/
def execSrcp (m : BitVec 3) (a : BitVec 6) (v : BitVec 6) (s : State) : Outcome :=
  runInstr (mergeRule m v) (encSrcp m a v) 4 (sfuIssue 2 m a v) s

/-- R195. Queues 1/√x. -/
def execSrsqrt (m : BitVec 3) (a : BitVec 6) (v : BitVec 6) (s : State) : Outcome :=
  runInstr (mergeRule m v) (encSrsqrt m a v) 4 (sfuIssue 3 m a v) s

/-- R195. Queues √x. -/
def execSsqrt (m : BitVec 3) (a : BitVec 6) (v : BitVec 6) (s : State) : Outcome :=
  runInstr (mergeRule m v) (encSsqrt m a v) 4 (sfuIssue 4 m a v) s

/-- R195. Queues sin(π x). -/
def execSsin (m : BitVec 3) (a : BitVec 6) (v : BitVec 6) (s : State) : Outcome :=
  runInstr (mergeRule m v) (encSsin m a v) 4 (sfuIssue 5 m a v) s

/-- R195. Queues cos(π x). -/
def execScos (m : BitVec 3) (a : BitVec 6) (v : BitVec 6) (s : State) : Outcome :=
  runInstr (mergeRule m v) (encScos m a v) 4 (sfuIssue 6 m a v) s

/-- R194. The SFU of a berth that is not halted starts the request at the head of its queue. -/
def execSfuRequestStart (berth : Nat) (s : State) : Outcome :=
  runEvent (do
    let y := berthOf (← get) berth
    need (!y.dbg.halted)
    match y.sfuQ with
    | [] => halt .disabled
    | r :: rest => modBerth berth fun y => { y with sfuQ := rest, sfuRun := y.sfuRun ++ [r] }) s

/-- R195: the result of a request and its flags. -/
def sfuResult (r : SfuReq) : Quad × BitVec 5 :=
  let lane := fun (j : Nat) => sfuLane r.fn.toNat (roundingOf (r.mode.toNat, r.seed.toNat) j) (elemOf r.va.toNat 32 j)
  (mergeElems r.mask 32 r.vd fun j => (lane j).1, flagsOf r.mask 32 fun j => (lane j).2)

/-- R194, R195. A started request delivers its result and its flags to its context. -/
def execSfuResultDelivery (berth : Nat) (idx : Nat) (s : State) : Outcome :=
  runEvent (do
    let y := berthOf (← get) berth
    let r ← needSome y.sfuRun[idx]?
    modBerth berth fun y => { y with sfuRun := removeAt y.sfuRun idx }
    let (v, fl) := sfuResult r
    if 28 ≤ r.dst ∧ r.dst < 32 then
      modify fun s => fillPort s r.core (r.dst - 28) true r.port (.ready v)
    else modCtx r.core r.ctx fun x => putV x r.dst v
    modCtx r.core r.ctx fun x => if x.mode == .free || x.epoch != r.epoch then x else { x with fflags := x.fflags ||| fl }) s

end Sys2Proof.Machine
end

