-- ==== Sys2Proof/Machine/Sys.lean ====
section
/-!
DEFINITION. The system instructions: `kcset` (R58), `svc`, `tret`, `tdrop`, `brk` and `halt` (R352, R353).
-/
namespace Sys2Proof.Machine

open Sys2Proof

/-- R58. Copies a capability register into `kc.sa` or `kc.sb`. -/
def execKcset (a : BitVec 4) (d : BitVec 5) (s : State) : Outcome :=
  runInstr (below d.toNat 2) (encKcset a d) 4 (do
    let v ← readC a.toNat
    modHere fun x => if d = 0 then { x with kcsa := v } else { x with kcsb := v }
    pure .seq) s

/-- R352. Traps with SVC; the task resumes at the next instruction. -/
def execSvc (n : BitVec 12) (s : State) : Outcome :=
  runInstr none (encSvc n) 4 (halt (.trapNext cSVC (n.setWidth 64))) s

/-- R352: `brk` and a `halt` that is not enabled. -/
def breakTrap (detail : Nat) : Act Next := halt (.trapNext cBREAK (BitVec.ofNat 64 detail))

/-- R370: the berth halts at this instruction, which is then complete. -/
def haltHere (why : Nat) : Act Next := do
  modify fun s => haltBerth s (coreBerth s.cur.core) why s.cur.core s.cur.ctx
  pure .seq

/-- R352. Traps with BREAK, or halts the berth when the debug module takes breakpoints. -/
def execBrk (n : BitVec 12) (s : State) : Outcome :=
  runInstr none (encBrk n) 4 (do
    let s ← get
    if (berthOf s (coreBerth s.cur.core)).dbg.ctl.getLsbD 3 then haltHere 2 else breakTrap n.toNat) s

/-- R352. Halts the berth, or traps as `brk` does with detail bit 12 when halting is not enabled. -/
def execHalt (s : State) : Outcome :=
  runInstr none encHalt 4 (do
    let s ← get
    if (berthOf s (coreBerth s.cur.core)).dbg.ctl.getLsbD 2 then haltHere 3 else breakTrap (2 ^ 12)) s

/-- R353: the command of `tret` (`drop` false) or `tdrop`: it leaves once every earlier access of the context has performed (DEDUCED: log entry 19). -/
def trapCommand (a d : BitVec 5) (drop : Bool) (word : BitVec 32) : Act Next := do
  scalarLink a false
  let h ← readX a false false
  check (fieldOf h 11 5 == 0 && fieldOf h 32 32 == 0) cILLEGAL (illegalDetail 4 false word)
  let s ← get
  if outstanding s s.cur.core s.cur.ctx then halt (.stall .other)
  else do
    releaseHere 4
    let dst ← claimX d s.nextReq
    request dst (BitVec.ofNat 64 (otypeOf (← here))) (.resume h drop)
    pure .seq

/-- R353. Sends the command that resumes a trapped context. -/
def execTret (a : BitVec 5) (d : BitVec 5) (s : State) : Outcome :=
  runInstr (portRule d) (encTret a d) 4 (trapCommand a d false (encTret a d)) s

/-- R353. Sends the command that discards a trapped context. -/
def execTdrop (a : BitVec 5) (d : BitVec 5) (s : State) : Outcome :=
  runInstr (portRule d) (encTdrop a d) 4 (trapCommand a d true (encTdrop a d)) s

end Sys2Proof.Machine
end

