-- ==== Sys2Proof/Machine/VecFp.lean ====
section
/-!
DEFINITION. Vector floating point (R182, R183).
-/
namespace Sys2Proof.Machine

open Sys2Proof

/-- R182: the format of VF16, VBF16 and VF32. -/
def vfFmt (w : BitVec 2) : Nat :=
  match w.toNat with
  | 0 => 0x0A
  | 1 => 0x09
  | _ => 0x08

/-- R182: an element with its sign bit cleared or inverted; a NaN gives the default NaN. -/
def signElem (fmt : Nat) (abs : Bool) (c : Nat) : Nat :=
  let n := (elemBits fmt).getD 32
  if isNan (decodeElem fmt c) then (encodeElem fmt ⟨0, 0⟩ .nan).1
  else if abs then c % 2 ^ (n - 1) else c ^^^ 2 ^ (n - 1)

/-- R182. A + B, rounded. -/
def execVfadd (m : BitVec 3) (b : BitVec 6) (a : BitVec 6) (v : BitVec 6) (w : BitVec 2) (s : State) : Outcome :=
  runInstr ((if w = 3 then some 1 else none).or (mergeRule m v)) (encVfadd m b a v w) 4 (formVF m (vfFmt w) b a v false fun f r A B _ => fpAdd f r (decodeElem f A) (decodeElem f B)) s

/-- R182. A − B, rounded. -/
def execVfsub (m : BitVec 3) (b : BitVec 6) (a : BitVec 6) (v : BitVec 6) (w : BitVec 2) (s : State) : Outcome :=
  runInstr ((if w = 3 then some 1 else none).or (mergeRule m v)) (encVfsub m b a v w) 4 (formVF m (vfFmt w) b a v false fun f r A B _ => fpAdd f r (decodeElem f A) (negNum (decodeElem f B))) s

/-- R182. A · B, rounded. -/
def execVfmul (m : BitVec 3) (b : BitVec 6) (a : BitVec 6) (v : BitVec 6) (w : BitVec 2) (s : State) : Outcome :=
  runInstr ((if w = 3 then some 1 else none).or (mergeRule m v)) (encVfmul m b a v w) 4 (formVF m (vfFmt w) b a v false fun f r A B _ => fpMul f r (decodeElem f A) (decodeElem f B)) s

/-- R182. A · B + D, rounded once; D is the destination's element. -/
def execVfma (m : BitVec 3) (b : BitVec 6) (a : BitVec 6) (v : BitVec 6) (w : BitVec 2) (s : State) : Outcome :=
  runInstr ((if w = 3 then some 1 else none).or (vportRule v)) (encVfma m b a v w) 4 (formVF m (vfFmt w) b a v true fun f r A B D => fpFma f r (decodeElem f A) (decodeElem f B) (decodeElem f D)) s

/-- R182, R168. The smaller element. -/
def execVfmin (m : BitVec 3) (b : BitVec 6) (a : BitVec 6) (v : BitVec 6) (w : BitVec 2) (s : State) : Outcome :=
  runInstr ((if w = 3 then some 1 else none).or (mergeRule m v)) (encVfmin m b a v w) 4 (formV m ((elemBits (vfFmt w)).getD 32) b a v fun _ A B => fpPick (vfFmt w) false A B) s

/-- R182, R168. The larger element. -/
def execVfmax (m : BitVec 3) (b : BitVec 6) (a : BitVec 6) (v : BitVec 6) (w : BitVec 2) (s : State) : Outcome :=
  runInstr ((if w = 3 then some 1 else none).or (mergeRule m v)) (encVfmax m b a v w) 4 (formV m ((elemBits (vfFmt w)).getD 32) b a v fun _ A B => fpPick (vfFmt w) true A B) s

/-- R182. The element with its sign bit cleared. -/
def execVfabs (m : BitVec 3) (a : BitVec 6) (v : BitVec 6) (w : BitVec 2) (s : State) : Outcome :=
  runInstr ((if w = 3 then some 1 else none).or (mergeRule m v)) (encVfabs m a v w) 4 (formV1 m ((elemBits (vfFmt w)).getD 32) a v fun _ A => signElem (vfFmt w) true A) s

/-- R182. The element with its sign bit inverted. -/
def execVfneg (m : BitVec 3) (a : BitVec 6) (v : BitVec 6) (w : BitVec 2) (s : State) : Outcome :=
  runInstr ((if w = 3 then some 1 else none).or (mergeRule m v)) (encVfneg m a v w) 4 (formV1 m ((elemBits (vfFmt w)).getD 32) a v fun _ A => signElem (vfFmt w) false A) s

end Sys2Proof.Machine
end

