-- ==== Sys2Proof/Machine/VecMask.lean ====
section
/-!
DEFINITION. Vector compares and mask instructions (R184, R185).
-/
namespace Sys2Proof.Machine

open Sys2Proof

/-- R184: the element width of a compare type. -/
def cmpWidth (t : BitVec 3) : Nat :=
  match t.toNat with
  | 0 => 8
  | 1 => 16
  | 2 => 32
  | 3 => 64
  | 4 => 16
  | 5 => 16
  | _ => 32

/-- R184: the floating format of a compare type; `none` for the integer types. -/
def cmpFmt (t : BitVec 3) : Option Nat :=
  match t.toNat with
  | 4 => some 0x0A
  | 5 => some 0x09
  | 6 => some 0x08
  | _ => none

/-- R184: the mask of a compare: the result of element j fills the bits of its byte lanes. -/
def cmpMask (e : Nat) (g : Nat → Bool) : BitVec 16 :=
  BitVec.ofNat 16 (packElems (e / 8) ((List.range (128 / e)).map fun j => if g j then 2 ^ (e / 8) - 1 else 0))

/-- R184: a compare by a predicate on integer elements of a width and one on numbers. -/
def compareV (t : BitVec 3) (b a : BitVec 6) (d : BitVec 3) (gi : Nat → Nat → Nat → Bool) (gf : FpNum → FpNum → Bool) : Act Next := do
  vectorLink a
  vectorLink b
  let x ← readV a
  let y ← readV b
  let e := cmpWidth t
  writeM d (cmpMask e fun j =>
    let p := elemOf x.toNat e j
    let q := elemOf y.toNat e j
    match cmpFmt t with
    | some f => gf (decodeElem f p) (decodeElem f q)
    | none => gi e p q)
  pure .seq

/-- R184. A = B. -/
def execVcmpEq (t : BitVec 3) (b : BitVec 6) (a : BitVec 6) (d : BitVec 3) (s : State) : Outcome :=
  runInstr (if t = 7 then some 1 else none) (encVcmpEq t b a d) 4 (compareV t b a d (fun _ x y => x == y) fpEq) s

/-- R184. A < B, signed for integers. -/
def execVcmpLt (t : BitVec 3) (b : BitVec 6) (a : BitVec 6) (d : BitVec 3) (s : State) : Outcome :=
  runInstr (if t = 7 then some 1 else none) (encVcmpLt t b a d) 4 (compareV t b a d (fun n x y => decide (signedNat x n < signedNat y n)) fpLt) s

/-- R184. A ≤ B, signed for integers. -/
def execVcmpLe (t : BitVec 3) (b : BitVec 6) (a : BitVec 6) (d : BitVec 3) (s : State) : Outcome :=
  runInstr (if t = 7 then some 1 else none) (encVcmpLe t b a d) 4 (compareV t b a d (fun n x y => decide (signedNat x n ≤ signedNat y n)) fpLe) s

/-- R184. A < B unsigned. -/
def execVcmpLtu (t : BitVec 3) (b : BitVec 6) (a : BitVec 6) (d : BitVec 3) (s : State) : Outcome :=
  runInstr (if t.toNat < 4 then none else some 1) (encVcmpLtu t b a d) 4 (compareV t b a d (fun _ x y => decide (x < y)) fun _ _ => false) s

/-- R184. A ≤ B unsigned. -/
def execVcmpLeu (t : BitVec 3) (b : BitVec 6) (a : BitVec 6) (d : BitVec 3) (s : State) : Outcome :=
  runInstr (if t.toNat < 4 then none else some 1) (encVcmpLeu t b a d) 4 (compareV t b a d (fun _ x y => decide (x ≤ y)) fun _ _ => false) s

/-- R184. A or B is NaN. -/
def execVfcmpUn (t : BitVec 3) (b : BitVec 6) (a : BitVec 6) (d : BitVec 3) (s : State) : Outcome :=
  runInstr (if t.toNat < 4 ∨ t = 7 then some 1 else none) (encVfcmpUn t b a d) 4 (compareV t b a d (fun _ _ _ => false) fun x y => isNan x || isNan y) s

/-- R185: a mask from two masks. -/
def maskOp (b a d : BitVec 3) (g : BitVec 16 → BitVec 16 → BitVec 16) : Act Next := do
  let x ← readM a
  let y ← readM b
  writeM d (g x y)
  pure .seq

/-- R185. And of masks. -/
def execMand (b : BitVec 3) (a : BitVec 3) (d : BitVec 3) (s : State) : Outcome :=
  runInstr none (encMand b a d) 4 (maskOp b a d fun x y => x &&& y) s

/-- R185. Or of masks. -/
def execMor (b : BitVec 3) (a : BitVec 3) (d : BitVec 3) (s : State) : Outcome :=
  runInstr none (encMor b a d) 4 (maskOp b a d fun x y => x ||| y) s

/-- R185. Exclusive or of masks. -/
def execMxor (b : BitVec 3) (a : BitVec 3) (d : BitVec 3) (s : State) : Outcome :=
  runInstr none (encMxor b a d) 4 (maskOp b a d fun x y => x ^^^ y) s

/-- R185. And of a mask with the complement of another. -/
def execMandn (b : BitVec 3) (a : BitVec 3) (d : BitVec 3) (s : State) : Outcome :=
  runInstr none (encMandn b a d) 4 (maskOp b a d fun x y => x &&& ~~~ y) s

/-- R185. The complement of a mask. -/
def execMnot (a : BitVec 3) (d : BitVec 3) (s : State) : Outcome :=
  runInstr none (encMnot a d) 4 (maskOp 0 a d fun x _ => ~~~ x) s

/-- R185. A mask from a scalar register. -/
def execMmvMx (a : BitVec 5) (d : BitVec 3) (s : State) : Outcome :=
  runInstr none (encMmvMx a d) 4 (do
    scalarLink a false
    let x ← readX a false false
    writeM d (x.setWidth 16)
    pure .seq) s

/-- R185. A mask into a scalar register. -/
def execMmvXm (a : BitVec 3) (d : BitVec 5) (s : State) : Outcome :=
  runInstr none (encMmvXm a d) 4 (do
    scalarLink d false
    let x ← readM a
    writeX d (x.setWidth 64)
    pure .seq) s

/-- R185. The number of 1 bits of a mask. -/
def execMpop (a : BitVec 3) (d : BitVec 5) (s : State) : Outcome :=
  runInstr none (encMpop a d) 4 (do
    scalarLink d false
    let x ← readM a
    writeX d (BitVec.ofNat 64 (popCount 16 x.toNat))
    pure .seq) s

end Sys2Proof.Machine
end

