-- ==== Sys2Proof/Machine/VecPerm.lean ====
section
/-!
DEFINITION. Permutes and moves (R186, R187).
-/
namespace Sys2Proof.Machine

open Sys2Proof

/-- R186: the element width of a width code. -/
def permWidth (w : BitVec 3) : Nat := 8 * 2 ^ w.toNat

/-- R186: a permute of two sources by element: the function names the element, those of the second source following those of
the first. -/
def permuteV (e : Nat) (b a v : BitVec 6) (pick : Nat → Nat) : Act Next := do
  vectorLink a
  vectorLink b
  vectorLink v
  let x ← readV a
  let y ← readV b
  let all := x.toNat + y.toNat * 2 ^ 128
  writeV v (BitVec.ofNat 128 (packElems e ((List.range (128 / e)).map fun j => elemOf all e (pick j))))
  pure .seq

/-- R186: byte i of the shuffle of a quad by selectors. -/
def shufByte (x y : Quad) (i : Nat) : Nat :=
  let sel := elemOf y.toNat 8 i
  if sel / 16 ≠ 0 then 0 else elemOf x.toNat 8 (sel % 16)

/-- R186. Byte shuffle, merging under its mask. -/
def execVshuf (m : BitVec 3) (b : BitVec 6) (a : BitVec 6) (v : BitVec 6) (s : State) : Outcome :=
  runInstr (mergeRule m v) (encVshuf m b a v) 4 (do
    vectorLink a
    vectorLink b
    vectorLink v
    let x ← readV a
    let y ← readV b
    let old ← readOld m v
    let mask ← readM m
    writeV v (mergeElems mask 8 old (shufByte x y))
    pure .seq) s

/-- R186. Interleaves the low halves. -/
def execVzipLo (w : BitVec 3) (b : BitVec 6) (a : BitVec 6) (v : BitVec 6) (s : State) : Outcome :=
  runInstr (if w.toNat < 4 then none else some 1) (encVzipLo w b a v) 4 (permuteV (permWidth w) b a v fun j => j / 2 + j % 2 * (128 / permWidth w)) s

/-- R186. Interleaves the high halves. -/
def execVzipHi (w : BitVec 3) (b : BitVec 6) (a : BitVec 6) (v : BitVec 6) (s : State) : Outcome :=
  runInstr (if w.toNat < 4 then none else some 1) (encVzipHi w b a v) 4 (permuteV (permWidth w) b a v fun j => 128 / permWidth w / 2 + j / 2 + j % 2 * (128 / permWidth w)) s

/-- R186. The even elements of both sources. -/
def execVunzipEv (w : BitVec 3) (b : BitVec 6) (a : BitVec 6) (v : BitVec 6) (s : State) : Outcome :=
  runInstr (if w.toNat < 4 then none else some 1) (encVunzipEv w b a v) 4 (permuteV (permWidth w) b a v fun j => 2 * j) s

/-- R186. The odd elements of both sources. -/
def execVunzipOd (w : BitVec 3) (b : BitVec 6) (a : BitVec 6) (v : BitVec 6) (s : State) : Outcome :=
  runInstr (if w.toNat < 4 then none else some 1) (encVunzipOd w b a v) 4 (permuteV (permWidth w) b a v fun j => 2 * j + 1) s

/-- R186. One element into every element. -/
def execVbcast (w : BitVec 3) (k : BitVec 6) (a : BitVec 6) (v : BitVec 6) (s : State) : Outcome :=
  runInstr (if w.toNat < 4 then below k.toNat (16 >>> w.toNat) else some 1) (encVbcast w k a v) 4 (do
    vectorLink a
    vectorLink v
    let x ← readV a
    writeV v (mergeElems 0xFFFF (permWidth w) 0 fun _ => elemOf x.toNat (permWidth w) k.toNat)
    pure .seq) s

/-- R186. Bytes from position k, 0 to 7, of the two sources in a row. -/
def execVextLo (k : BitVec 3) (b : BitVec 6) (a : BitVec 6) (v : BitVec 6) (s : State) : Outcome :=
  runInstr none (encVextLo k b a v) 4 (permuteV 8 b a v fun i => k.toNat + i) s

/-- R186. The same for k from 8 to 15. -/
def execVextHi (k : BitVec 3) (b : BitVec 6) (a : BitVec 6) (v : BitVec 6) (s : State) : Outcome :=
  runInstr none (encVextHi k b a v) 4 (permuteV 8 b a v fun i => k.toNat + 8 + i) s

/-- R186. Selects bytes by a mask. -/
def execVsel (sel : BitVec 3) (b : BitVec 6) (a : BitVec 6) (v : BitVec 6) (s : State) : Outcome :=
  runInstr none (encVsel sel b a v) 4 (do
    vectorLink a
    vectorLink b
    vectorLink v
    let x ← readV a
    let y ← readV b
    let mask ← readM sel
    writeV v (mergeElems mask 8 y fun i => elemOf x.toNat 8 i)
    pure .seq) s

/-- R187. An element into a scalar register. -/
def execVmvXv (w : BitVec 3) (k : BitVec 6) (a : BitVec 6) (d : BitVec 5) (s : State) : Outcome :=
  runInstr (if w.toNat < 4 then below k.toNat (16 >>> w.toNat) else some 1) (encVmvXv w k a d) 4 (do
    vectorLink a
    scalarLink d false
    let x ← readV a
    writeX d (BitVec.ofNat 64 (elemOf x.toNat (permWidth w) k.toNat))
    pure .seq) s

/-- R187. A scalar register into each active element. -/
def execVmvVx (m : BitVec 3) (w : BitVec 2) (a : BitVec 5) (v : BitVec 6) (s : State) : Outcome :=
  runInstr (mergeRule m v) (encVmvVx m w a v) 4 (do
    scalarLink a false
    vectorLink v
    let x ← readX a false false
    let old ← readOld m v
    let mask ← readM m
    writeV v (mergeElems mask (intWidth w) old fun _ => x.toNat)
    pure .seq) s

/-- R187. An immediate into each element. -/
def execVli (w : BitVec 3) (i : BitVec 12) (v : BitVec 6) (s : State) : Outcome :=
  runInstr (if w.toNat < 4 then none else some 1) (encVli w i v) 4 (do
    vectorLink v
    writeV v (mergeElems 0xFFFF (permWidth w) 0 fun _ => wrapInt i.toInt (permWidth w))
    pure .seq) s

/-- R187. Each active byte. -/
def execVmv (m : BitVec 3) (a : BitVec 6) (v : BitVec 6) (s : State) : Outcome :=
  runInstr (mergeRule m v) (encVmv m a v) 4 (formV1 m 8 a v fun _ A => A) s

end Sys2Proof.Machine
end

