-- ==== Sys2Proof/Machine/Dispatch.lean ====
section
/-!
DEFINITION. What each instruction and each step does: one arm per constructor of Instr, one call of its meaning.
-/
namespace Sys2Proof.Machine

open Sys2Proof

def exec (i : Instr) (s : State) : Host.Outcome State Fault Refusal :=
  match i with
  | .kread k d => Sys2Proof.Machine.execKread k d s
  | .kwrite k a => Sys2Proof.Machine.execKwrite k a s
  | .kswap k a d => Sys2Proof.Machine.execKswap k a d s
  | .kcset a d => Sys2Proof.Machine.execKcset a d s
  | .svc n => Sys2Proof.Machine.execSvc n s
  | .tret a d => Sys2Proof.Machine.execTret a d s
  | .tdrop a d => Sys2Proof.Machine.execTdrop a d s
  | .brk n => Sys2Proof.Machine.execBrk n s
  | .halt => Sys2Proof.Machine.execHalt s
  | .cNop => Sys2Proof.Machine.execCNop s
  | .cMv b d => Sys2Proof.Machine.execCMv b d s
  | .cLi imm d => Sys2Proof.Machine.execCLi imm d s
  | .cAddi imm d => Sys2Proof.Machine.execCAddi imm d s
  | .cAdd b d => Sys2Proof.Machine.execCAdd b d s
  | .cSub b d => Sys2Proof.Machine.execCSub b d s
  | .cAnd b d => Sys2Proof.Machine.execCAnd b d s
  | .cOr b d => Sys2Proof.Machine.execCOr b d s
  | .cSlli sel d => Sys2Proof.Machine.execCSlli sel d s
  | .cSrli sel d => Sys2Proof.Machine.execCSrli sel d s
  | .cBeqz imm d => Sys2Proof.Machine.execCBeqz imm d s
  | .cBnez imm d => Sys2Proof.Machine.execCBnez imm d s
  | .cJ imm => Sys2Proof.Machine.execCJ imm s
  | .cRet => Sys2Proof.Machine.execCRet s
  | .cDone => Sys2Proof.Machine.execCDone s
  | .add f eb ea b a d => Sys2Proof.Machine.execAdd f eb ea b a d s
  | .sub f eb ea b a d => Sys2Proof.Machine.execSub f eb ea b a d s
  | .and f eb ea b a d => Sys2Proof.Machine.execAnd f eb ea b a d s
  | .or f eb ea b a d => Sys2Proof.Machine.execOr f eb ea b a d s
  | .xor f eb ea b a d => Sys2Proof.Machine.execXor f eb ea b a d s
  | .andn f eb ea b a d => Sys2Proof.Machine.execAndn f eb ea b a d s
  | .sll f eb ea b a d => Sys2Proof.Machine.execSll f eb ea b a d s
  | .srl f eb ea b a d => Sys2Proof.Machine.execSrl f eb ea b a d s
  | .sra f eb ea b a d => Sys2Proof.Machine.execSra f eb ea b a d s
  | .slt f eb ea b a d => Sys2Proof.Machine.execSlt f eb ea b a d s
  | .sltu f eb ea b a d => Sys2Proof.Machine.execSltu f eb ea b a d s
  | .min f eb ea b a d => Sys2Proof.Machine.execMin f eb ea b a d s
  | .max f eb ea b a d => Sys2Proof.Machine.execMax f eb ea b a d s
  | .minu f eb ea b a d => Sys2Proof.Machine.execMinu f eb ea b a d s
  | .maxu f eb ea b a d => Sys2Proof.Machine.execMaxu f eb ea b a d s
  | .clz f ea a d => Sys2Proof.Machine.execClz f ea a d s
  | .ctz f ea a d => Sys2Proof.Machine.execCtz f ea a d s
  | .pop f ea a d => Sys2Proof.Machine.execPop f ea a d s
  | .bext f eb ea b a d => Sys2Proof.Machine.execBext f eb ea b a d s
  | .bins f eb ea b a d => Sys2Proof.Machine.execBins f eb ea b a d s
  | .addw f eb ea b a d => Sys2Proof.Machine.execAddw f eb ea b a d s
  | .subw f eb ea b a d => Sys2Proof.Machine.execSubw f eb ea b a d s
  | .sllw f eb ea b a d => Sys2Proof.Machine.execSllw f eb ea b a d s
  | .srlw f eb ea b a d => Sys2Proof.Machine.execSrlw f eb ea b a d s
  | .sraw f eb ea b a d => Sys2Proof.Machine.execSraw f eb ea b a d s
  | .addi k a d => Sys2Proof.Machine.execAddi k a d s
  | .andi k a d => Sys2Proof.Machine.execAndi k a d s
  | .ori k a d => Sys2Proof.Machine.execOri k a d s
  | .xori k a d => Sys2Proof.Machine.execXori k a d s
  | .slti k a d => Sys2Proof.Machine.execSlti k a d s
  | .sltiu k a d => Sys2Proof.Machine.execSltiu k a d s
  | .slli sel a d => Sys2Proof.Machine.execSlli sel a d s
  | .srli sel a d => Sys2Proof.Machine.execSrli sel a d s
  | .srai sel a d => Sys2Proof.Machine.execSrai sel a d s
  | .mini k a d => Sys2Proof.Machine.execMini k a d s
  | .maxi k a d => Sys2Proof.Machine.execMaxi k a d s
  | .minui k a d => Sys2Proof.Machine.execMinui k a d s
  | .maxui k a d => Sys2Proof.Machine.execMaxui k a d s
  | .addiw k a d => Sys2Proof.Machine.execAddiw k a d s
  | .lui imm d => Sys2Proof.Machine.execLui imm d s
  | .mul f eb ea b a d => Sys2Proof.Machine.execMul f eb ea b a d s
  | .mulh f eb ea b a d => Sys2Proof.Machine.execMulh f eb ea b a d s
  | .mulhu f eb ea b a d => Sys2Proof.Machine.execMulhu f eb ea b a d s
  | .div f eb ea b a d => Sys2Proof.Machine.execDiv f eb ea b a d s
  | .divu f eb ea b a d => Sys2Proof.Machine.execDivu f eb ea b a d s
  | .rem f eb ea b a d => Sys2Proof.Machine.execRem f eb ea b a d s
  | .remu f eb ea b a d => Sys2Proof.Machine.execRemu f eb ea b a d s
  | .beq o b a => Sys2Proof.Machine.execBeq o b a s
  | .bne o b a => Sys2Proof.Machine.execBne o b a s
  | .blt o b a => Sys2Proof.Machine.execBlt o b a s
  | .bge o b a => Sys2Proof.Machine.execBge o b a s
  | .bltu o b a => Sys2Proof.Machine.execBltu o b a s
  | .bgeu o b a => Sys2Proof.Machine.execBgeu o b a s
  | .jal imm => Sys2Proof.Machine.execJal imm s
  | .jalr f ea k a d => Sys2Proof.Machine.execJalr f ea k a d s
  | .loop k => Sys2Proof.Machine.execLoop k s
  | .lcset c a => Sys2Proof.Machine.execLcset c a s
  | .follow => Sys2Proof.Machine.execFollow s
  | .ldB f eb ea j imm c d => Sys2Proof.Machine.execLdB f eb ea j imm c d s
  | .ldBu f eb ea j imm c d => Sys2Proof.Machine.execLdBu f eb ea j imm c d s
  | .ldH f eb ea j imm c d => Sys2Proof.Machine.execLdH f eb ea j imm c d s
  | .ldHu f eb ea j imm c d => Sys2Proof.Machine.execLdHu f eb ea j imm c d s
  | .ldW f eb ea j imm c d => Sys2Proof.Machine.execLdW f eb ea j imm c d s
  | .ldWu f eb ea j imm c d => Sys2Proof.Machine.execLdWu f eb ea j imm c d s
  | .ldD f eb ea j imm c d => Sys2Proof.Machine.execLdD f eb ea j imm c d s
  | .stB f eb ea j imm c d => Sys2Proof.Machine.execStB f eb ea j imm c d s
  | .stH f eb ea j imm c d => Sys2Proof.Machine.execStH f eb ea j imm c d s
  | .stW f eb ea j imm c d => Sys2Proof.Machine.execStW f eb ea j imm c d s
  | .stD f eb ea j imm c d => Sys2Proof.Machine.execStD f eb ea j imm c d s
  | .ldv j imm c v => Sys2Proof.Machine.execLdv j imm c v s
  | .ldvS j imm c v => Sys2Proof.Machine.execLdvS j imm c v s
  | .stv j imm c v => Sys2Proof.Machine.execStv j imm c v s
  | .stvS j imm c v => Sys2Proof.Machine.execStvS j imm c v s
  | .cslice f eb b a d => Sys2Proof.Machine.execCslice f eb b a d s
  | .cstep f eb b a d => Sys2Proof.Machine.execCstep f eb b a d s
  | .cperm f eb b a d => Sys2Proof.Machine.execCperm f eb b a d s
  | .cfold f eb b a d => Sys2Proof.Machine.execCfold f eb b a d s
  | .crestrict f eb b a d => Sys2Proof.Machine.execCrestrict f eb b a d s
  | .cscope f eb b a d => Sys2Proof.Machine.execCscope f eb b a d s
  | .cfmt f eb b a d => Sys2Proof.Machine.execCfmt f eb b a d s
  | .cget n a d => Sys2Proof.Machine.execCget n a d s
  | .cmove a d => Sys2Proof.Machine.execCmove a d s
  | .cseal b a d => Sys2Proof.Machine.execCseal b a d s
  | .clc f eb ea j imm c d => Sys2Proof.Machine.execClc f eb ea j imm c d s
  | .csc f eb ea j imm c d => Sys2Proof.Machine.execCsc f eb ea j imm c d s
  | .ctag f eb ea j imm c d => Sys2Proof.Machine.execCtag f eb ea j imm c d s
  | .ccall b a n => Sys2Proof.Machine.execCcall b a n s
  | .cret n => Sys2Proof.Machine.execCret n s
  | .cunseal b a d => Sys2Proof.Machine.execCunseal b a d s
  | .sendRq f eb ea b a d => Sys2Proof.Machine.execSendRq f eb ea b a d s
  | .sendRp f eb ea b a d => Sys2Proof.Machine.execSendRp f eb ea b a d s
  | .sendSy f eb ea b a d => Sys2Proof.Machine.execSendSy f eb ea b a d s
  | .sendnN f eb ea b a d => Sys2Proof.Machine.execSendnN f eb ea b a d s
  | .sendnE f eb ea b a d => Sys2Proof.Machine.execSendnE f eb ea b a d s
  | .sendnS f eb ea b a d => Sys2Proof.Machine.execSendnS f eb ea b a d s
  | .sendnW f eb ea b a d => Sys2Proof.Machine.execSendnW f eb ea b a d s
  | .sendv f eb ea b a => Sys2Proof.Machine.execSendv f eb ea b a s
  | .reply f eb ea b n d => Sys2Proof.Machine.execReply f eb ea b n d s
  | .bounce => Sys2Proof.Machine.execBounce s
  | .done => Sys2Proof.Machine.execDone s
  | .chmask f eb ea b a d => Sys2Proof.Machine.execChmask f eb ea b a d s
  | .chprio f eb ea b a d => Sys2Proof.Machine.execChprio f eb ea b a d s
  | .enq f eb b a d => Sys2Proof.Machine.execEnq f eb b a d s
  | .launch f eb b a d => Sys2Proof.Machine.execLaunch f eb b a d s
  | .gdone => Sys2Proof.Machine.execGdone s
  | .fence sel k => Sys2Proof.Machine.execFence sel k s
  | .dcfence a d => Sys2Proof.Machine.execDcfence a d s
  | .pinit n a d => Sys2Proof.Machine.execPinit n a d s
  | .parriveRlx a d => Sys2Proof.Machine.execParriveRlx a d s
  | .parriveRel sel a d => Sys2Proof.Machine.execParriveRel sel a d s
  | .pwait a d => Sys2Proof.Machine.execPwait a d s
  | .pinval a d => Sys2Proof.Machine.execPinval a d s
  | .boomset c sel a d => Sys2Proof.Machine.execBoomset c sel a d s
  | .boomRlx sel d => Sys2Proof.Machine.execBoomRlx sel d s
  | .boomRel sel d => Sys2Proof.Machine.execBoomRel sel d s
  | .aadd eb b a d => Sys2Proof.Machine.execAadd eb b a d s
  | .amin eb b a d => Sys2Proof.Machine.execAmin eb b a d s
  | .amax eb b a d => Sys2Proof.Machine.execAmax eb b a d s
  | .aminu eb b a d => Sys2Proof.Machine.execAminu eb b a d s
  | .amaxu eb b a d => Sys2Proof.Machine.execAmaxu eb b a d s
  | .aand eb b a d => Sys2Proof.Machine.execAand eb b a d s
  | .aor eb b a d => Sys2Proof.Machine.execAor eb b a d s
  | .axor eb b a d => Sys2Proof.Machine.execAxor eb b a d s
  | .aswp eb b a d => Sys2Proof.Machine.execAswp eb b a d s
  | .acas eb b a d => Sys2Proof.Machine.execAcas eb b a d s
  | .afadd eb b a d => Sys2Proof.Machine.execAfadd eb b a d s
  | .aredVAdd b a d => Sys2Proof.Machine.execAredVAdd b a d s
  | .aredVMax b a d => Sys2Proof.Machine.execAredVMax b a d s
  | .aredVMin b a d => Sys2Proof.Machine.execAredVMin b a d s
  | .aredVFadd b a d => Sys2Proof.Machine.execAredVFadd b a d s
  | .cpsetSrc l c => Sys2Proof.Machine.execCpsetSrc l c s
  | .cpsetDst l c => Sys2Proof.Machine.execCpsetDst l c s
  | .cpsetAux l c => Sys2Proof.Machine.execCpsetAux l c s
  | .cpsetCtl x l => Sys2Proof.Machine.execCpsetCtl x l s
  | .cpsetMlo x l => Sys2Proof.Machine.execCpsetMlo x l s
  | .cpsetMhi x l => Sys2Proof.Machine.execCpsetMhi x l s
  | .cpgo l d => Sys2Proof.Machine.execCpgo l d s
  | .cpstat sel l d => Sys2Proof.Machine.execCpstat sel l d s
  | .cpnote x l d => Sys2Proof.Machine.execCpnote x l d s
  | .cpgath l d => Sys2Proof.Machine.execCpgath l d s
  | .cpscat l d => Sys2Proof.Machine.execCpscat l d s
  | .cpcast l d => Sys2Proof.Machine.execCpcast l d s
  | .cpred l d => Sys2Proof.Machine.execCpred l d s
  | .mlease n d => Sys2Proof.Machine.execMlease n d s
  | .mrel => Sys2Proof.Machine.execMrel s
  | .mcfg x => Sys2Proof.Machine.execMcfg x s
  | .mma c b a t => Sys2Proof.Machine.execMma c b a t s
  | .mmaZ c b a t => Sys2Proof.Machine.execMmaZ c b a t s
  | .mad x c b a t => Sys2Proof.Machine.execMad x c b a t s
  | .mcvt x c a t => Sys2Proof.Machine.execMcvt x c a t s
  | .mzero c t => Sys2Proof.Machine.execMzero c t s
  | .nalloc a d => Sys2Proof.Machine.execNalloc a d s
  | .nfree x a => Sys2Proof.Machine.execNfree x a s
  | .nlink x a d => Sys2Proof.Machine.execNlink x a d s
  | .nload x w a d => Sys2Proof.Machine.execNload x w a d s
  | .nstore x w a d => Sys2Proof.Machine.execNstore x w a d s
  | .npush x a => Sys2Proof.Machine.execNpush x a s
  | .nbagBind x a d => Sys2Proof.Machine.execNbagBind x a d s
  | .sexp2 m a v => Sys2Proof.Machine.execSexp2 m a v s
  | .slog2 m a v => Sys2Proof.Machine.execSlog2 m a v s
  | .srcp m a v => Sys2Proof.Machine.execSrcp m a v s
  | .srsqrt m a v => Sys2Proof.Machine.execSrsqrt m a v s
  | .ssqrt m a v => Sys2Proof.Machine.execSsqrt m a v s
  | .ssin m a v => Sys2Proof.Machine.execSsin m a v s
  | .scos m a v => Sys2Proof.Machine.execScos m a v s
  | .fadd f eb ea b a d => Sys2Proof.Machine.execFadd f eb ea b a d s
  | .fsub f eb ea b a d => Sys2Proof.Machine.execFsub f eb ea b a d s
  | .fmul f eb ea b a d => Sys2Proof.Machine.execFmul f eb ea b a d s
  | .fmadd f eb ea b a d => Sys2Proof.Machine.execFmadd f eb ea b a d s
  | .fmin f eb ea b a d => Sys2Proof.Machine.execFmin f eb ea b a d s
  | .fmax f eb ea b a d => Sys2Proof.Machine.execFmax f eb ea b a d s
  | .fcmpEq f eb ea b a d => Sys2Proof.Machine.execFcmpEq f eb ea b a d s
  | .fcmpLt f eb ea b a d => Sys2Proof.Machine.execFcmpLt f eb ea b a d s
  | .fcmpLe f eb ea b a d => Sys2Proof.Machine.execFcmpLe f eb ea b a d s
  | .fcmpUn f eb ea b a d => Sys2Proof.Machine.execFcmpUn f eb ea b a d s
  | .fcvtLF f ea a d => Sys2Proof.Machine.execFcvtLF f ea a d s
  | .fcvtLuF f ea a d => Sys2Proof.Machine.execFcvtLuF f ea a d s
  | .fcvtFL f ea a d => Sys2Proof.Machine.execFcvtFL f ea a d s
  | .fcvtFLu f ea a d => Sys2Proof.Machine.execFcvtFLu f ea a d s
  | .fsgnj f eb ea b a d => Sys2Proof.Machine.execFsgnj f eb ea b a d s
  | .fsgnjn f eb ea b a d => Sys2Proof.Machine.execFsgnjn f eb ea b a d s
  | .fsgnjx f eb ea b a d => Sys2Proof.Machine.execFsgnjx f eb ea b a d s
  | .vadd m b a v w => Sys2Proof.Machine.execVadd m b a v w s
  | .vsub m b a v w => Sys2Proof.Machine.execVsub m b a v w s
  | .vadds m b a v w => Sys2Proof.Machine.execVadds m b a v w s
  | .vaddus m b a v w => Sys2Proof.Machine.execVaddus m b a v w s
  | .vsubs m b a v w => Sys2Proof.Machine.execVsubs m b a v w s
  | .vsubus m b a v w => Sys2Proof.Machine.execVsubus m b a v w s
  | .vmul m b a v w => Sys2Proof.Machine.execVmul m b a v w s
  | .vmulh m b a v w => Sys2Proof.Machine.execVmulh m b a v w s
  | .vmin m b a v w => Sys2Proof.Machine.execVmin m b a v w s
  | .vmax m b a v w => Sys2Proof.Machine.execVmax m b a v w s
  | .vminu m b a v w => Sys2Proof.Machine.execVminu m b a v w s
  | .vmaxu m b a v w => Sys2Proof.Machine.execVmaxu m b a v w s
  | .vsll m b a v w => Sys2Proof.Machine.execVsll m b a v w s
  | .vsrl m b a v w => Sys2Proof.Machine.execVsrl m b a v w s
  | .vsra m b a v w => Sys2Proof.Machine.execVsra m b a v w s
  | .vmulhu b a v w => Sys2Proof.Machine.execVmulhu b a v w s
  | .vavgu b a v w => Sys2Proof.Machine.execVavgu b a v w s
  | .vabs a v w => Sys2Proof.Machine.execVabs a v w s
  | .vand b a v w => Sys2Proof.Machine.execVand b a v w s
  | .vor b a v w => Sys2Proof.Machine.execVor b a v w s
  | .vxor b a v w => Sys2Proof.Machine.execVxor b a v w s
  | .vandn b a v w => Sys2Proof.Machine.execVandn b a v w s
  | .vfadd m b a v w => Sys2Proof.Machine.execVfadd m b a v w s
  | .vfsub m b a v w => Sys2Proof.Machine.execVfsub m b a v w s
  | .vfmul m b a v w => Sys2Proof.Machine.execVfmul m b a v w s
  | .vfma m b a v w => Sys2Proof.Machine.execVfma m b a v w s
  | .vfmin m b a v w => Sys2Proof.Machine.execVfmin m b a v w s
  | .vfmax m b a v w => Sys2Proof.Machine.execVfmax m b a v w s
  | .vfabs m a v w => Sys2Proof.Machine.execVfabs m a v w s
  | .vfneg m a v w => Sys2Proof.Machine.execVfneg m a v w s
  | .vcvt m b a v => Sys2Proof.Machine.execVcvt m b a v s
  | .vmxsc f a d => Sys2Proof.Machine.execVmxsc f a d s
  | .vshuf m b a v => Sys2Proof.Machine.execVshuf m b a v s
  | .vzipLo w b a v => Sys2Proof.Machine.execVzipLo w b a v s
  | .vzipHi w b a v => Sys2Proof.Machine.execVzipHi w b a v s
  | .vunzipEv w b a v => Sys2Proof.Machine.execVunzipEv w b a v s
  | .vunzipOd w b a v => Sys2Proof.Machine.execVunzipOd w b a v s
  | .vbcast w k a v => Sys2Proof.Machine.execVbcast w k a v s
  | .vextLo k b a v => Sys2Proof.Machine.execVextLo k b a v s
  | .vextHi k b a v => Sys2Proof.Machine.execVextHi k b a v s
  | .vsel sel b a v => Sys2Proof.Machine.execVsel sel b a v s
  | .vredaddInt w m a d => Sys2Proof.Machine.execVredaddInt w m a d s
  | .vredmaxInt w m a d => Sys2Proof.Machine.execVredmaxInt w m a d s
  | .vredaddF32 m a d => Sys2Proof.Machine.execVredaddF32 m a d s
  | .vredmaxF32 m a d => Sys2Proof.Machine.execVredmaxF32 m a d s
  | .vredamax m b a d => Sys2Proof.Machine.execVredamax m b a d s
  | .vdot4 m b a v => Sys2Proof.Machine.execVdot4 m b a v s
  | .vdot2 m b a v => Sys2Proof.Machine.execVdot2 m b a v s
  | .vcmpEq t b a d => Sys2Proof.Machine.execVcmpEq t b a d s
  | .vcmpLt t b a d => Sys2Proof.Machine.execVcmpLt t b a d s
  | .vcmpLe t b a d => Sys2Proof.Machine.execVcmpLe t b a d s
  | .vcmpLtu t b a d => Sys2Proof.Machine.execVcmpLtu t b a d s
  | .vcmpLeu t b a d => Sys2Proof.Machine.execVcmpLeu t b a d s
  | .vfcmpUn t b a d => Sys2Proof.Machine.execVfcmpUn t b a d s
  | .mand b a d => Sys2Proof.Machine.execMand b a d s
  | .mor b a d => Sys2Proof.Machine.execMor b a d s
  | .mxor b a d => Sys2Proof.Machine.execMxor b a d s
  | .mandn b a d => Sys2Proof.Machine.execMandn b a d s
  | .mnot a d => Sys2Proof.Machine.execMnot a d s
  | .mmvMx a d => Sys2Proof.Machine.execMmvMx a d s
  | .mmvXm a d => Sys2Proof.Machine.execMmvXm a d s
  | .mpop a d => Sys2Proof.Machine.execMpop a d s
  | .vmvXv w k a d => Sys2Proof.Machine.execVmvXv w k a d s
  | .vmvVx m w a v => Sys2Proof.Machine.execVmvVx m w a v s
  | .vli w imm v => Sys2Proof.Machine.execVli w imm v s
  | .vmv m a v => Sys2Proof.Machine.execVmv m a v s
  | .messageLeavesSendQueue core vn => Sys2Proof.Machine.execMessageLeavesSendQueue core vn s
  | .messageDelivery idx => Sys2Proof.Machine.execMessageDelivery idx s
  | .taskStart core => Sys2Proof.Machine.execTaskStart core s
  | .linkValueArrive core dir vec => Sys2Proof.Machine.execLinkValueArrive core dir vec s
  | .loadDelivery req => Sys2Proof.Machine.execLoadDelivery req s
  | .clcDelivery req => Sys2Proof.Machine.execClcDelivery req s
  | .sfuRequestStart berth => Sys2Proof.Machine.execSfuRequestStart berth s
  | .sfuResultDelivery berth idx => Sys2Proof.Machine.execSfuResultDelivery berth idx s
  | .atomicServe req => Sys2Proof.Machine.execAtomicServe req s
  | .atomicReplyDelivery req => Sys2Proof.Machine.execAtomicReplyDelivery req s
  | .aredElementUpdate req elem => Sys2Proof.Machine.execAredElementUpdate req elem s
  | .aredAcknowledge req => Sys2Proof.Machine.execAredAcknowledge req s
  | .phaseOperationServe req => Sys2Proof.Machine.execPhaseOperationServe req s
  | .phaseStatusDelivery req => Sys2Proof.Machine.execPhaseStatusDelivery req s
  | .phaseProtectedWrite req => Sys2Proof.Machine.execPhaseProtectedWrite req s
  | .enqueueServe req => Sys2Proof.Machine.execEnqueueServe req s
  | .enqStatusDelivery req => Sys2Proof.Machine.execEnqStatusDelivery req s
  | .recordDequeue slice part => Sys2Proof.Machine.execRecordDequeue slice part s
  | .inboxReservationGrant core slice part => Sys2Proof.Machine.execInboxReservationGrant core slice part s
  | .leaseGrant berth => Sys2Proof.Machine.execLeaseGrant berth s
  | .leaveRefusalTimeout berth => Sys2Proof.Machine.execLeaveRefusalTimeout berth s
  | .powerLeaveRelease berth => Sys2Proof.Machine.execPowerLeaveRelease berth s
  | .leaseIdleExpiry berth => Sys2Proof.Machine.execLeaseIdleExpiry berth s
  | .matrixCommandStart berth => Sys2Proof.Machine.execMatrixCommandStart berth s
  | .matrixCommandComplete berth => Sys2Proof.Machine.execMatrixCommandComplete berth s
  | .copyBegin berth => Sys2Proof.Machine.execCopyBegin berth s
  | .copyElementWrite berth chan => Sys2Proof.Machine.execCopyElementWrite berth chan s
  | .copyEnd berth chan => Sys2Proof.Machine.execCopyEnd berth chan s
  | .cpcastBerthDone berth chan recv => Sys2Proof.Machine.execCpcastBerthDone berth chan recv s
  | .cpcastAckArrival berth chan => Sys2Proof.Machine.execCpcastAckArrival berth chan s
  | .pfRespWrite part value => Sys2Proof.Machine.execPfRespWrite part value s
  | .trCmdReplayAll part => Sys2Proof.Machine.execTrCmdReplayAll part s
  | .trCmdInvalidateAll part => Sys2Proof.Machine.execTrCmdInvalidateAll part s
  | .trCmdInvalidateRange part => Sys2Proof.Machine.execTrCmdInvalidateRange part s
  | .trCmdHarvest part => Sys2Proof.Machine.execTrCmdHarvest part s
  | .trCmdComplete part => Sys2Proof.Machine.execTrCmdComplete part s
  | .trRootWrite part value => Sys2Proof.Machine.execTrRootWrite part value s
  | .l2LimitWrite part quay value => Sys2Proof.Machine.execL2LimitWrite part quay value s
  | .l2SplitWrite part quay value => Sys2Proof.Machine.execL2SplitWrite part quay value s
  | .bandwidthPeriodStart => Sys2Proof.Machine.execBandwidthPeriodStart s
  | .sweepStart part => Sys2Proof.Machine.execSweepStart part s
  | .sweepRegisters part => Sys2Proof.Machine.execSweepRegisters part s
  | .sweepLocalStores part => Sys2Proof.Machine.execSweepLocalStores part s
  | .sweepMemory part => Sys2Proof.Machine.execSweepMemory part s
  | .sweepEnd part => Sys2Proof.Machine.execSweepEnd part s
  | .dredgerRegisterWrite part off value => Sys2Proof.Machine.execDredgerRegisterWrite part off value s
  | .irqInject value => Sys2Proof.Machine.execIrqInject value s
  | .hmDoorWrite part glob value => Sys2Proof.Machine.execHmDoorWrite part glob value s
  | .launchRequestServe req => Sys2Proof.Machine.execLaunchRequestServe req s
  | .launchStatusDelivery req => Sys2Proof.Machine.execLaunchStatusDelivery req s
  | .groupPlacement quay cores => Sys2Proof.Machine.execGroupPlacement quay cores s
  | .placementWaitReservation launch berth => Sys2Proof.Machine.execPlacementWaitReservation launch berth s
  | .launchLeaveRetry launch => Sys2Proof.Machine.execLaunchLeaveRetry launch s
  | .groupRetirement launch idx => Sys2Proof.Machine.execGroupRetirement launch idx s
  | .launchDeadlineExpiry launch => Sys2Proof.Machine.execLaunchDeadlineExpiry launch s
  | .preemption core => Sys2Proof.Machine.execPreemption core s
  | .coreResumption berth => Sys2Proof.Machine.execCoreResumption berth s
  | .sliceBegin => Sys2Proof.Machine.execSliceBegin s
  | .sliceEnd => Sys2Proof.Machine.execSliceEnd s
  | .berthSliceEnd berth => Sys2Proof.Machine.execBerthSliceEnd berth s
  | .drainDeadlineExpiry berth => Sys2Proof.Machine.execDrainDeadlineExpiry berth s
  | .launchSuspend part => Sys2Proof.Machine.execLaunchSuspend part s
  | .tretCommandServe req => Sys2Proof.Machine.execTretCommandServe req s
  | .tdropCommandServe req => Sys2Proof.Machine.execTdropCommandServe req s
  | .tretStatusDelivery req => Sys2Proof.Machine.execTretStatusDelivery req s
  | .followWindowClose core ctx => Sys2Proof.Machine.execFollowWindowClose core ctx s
  | .boomTokenPass core slot down => Sys2Proof.Machine.execBoomTokenPass core slot down s
  | .boomRelease core slot => Sys2Proof.Machine.execBoomRelease core slot s
  | .netHomeRequest req => Sys2Proof.Machine.execNetHomeRequest req s
  | .netReplyDelivery req => Sys2Proof.Machine.execNetReplyDelivery req s
  | .pairOverflowPlace idx => Sys2Proof.Machine.execPairOverflowPlace idx s
  | .pairPop berth => Sys2Proof.Machine.execPairPop berth s
  | .bagRefill berth slice => Sys2Proof.Machine.execBagRefill berth slice s
  | .dbgHaltWrite berth => Sys2Proof.Machine.execDbgHaltWrite berth s
  | .dbgResumeWrite berth => Sys2Proof.Machine.execDbgResumeWrite berth s
  | .dbgAccess berth value => Sys2Proof.Machine.execDbgAccess berth value s
  | .crossTriggerHalt berth => Sys2Proof.Machine.execCrossTriggerHalt berth s
  | .thermalTrip celsius => Sys2Proof.Machine.execThermalTrip celsius s
  | .pwBerthTransition value => Sys2Proof.Machine.execPwBerthTransition value s
  | .pwSliceTransition value => Sys2Proof.Machine.execPwSliceTransition value s
  | .pwChannelTransition value => Sys2Proof.Machine.execPwChannelTransition value s
  | .pwTransitionDone => Sys2Proof.Machine.execPwTransitionDone s
  | .icInvalidateBerth value => Sys2Proof.Machine.execIcInvalidateBerth value s
  | .icInvalidateQuay value => Sys2Proof.Machine.execIcInvalidateQuay value s
  | .icInvalidatePackage value => Sys2Proof.Machine.execIcInvalidatePackage value s
  | .icInvalidateDone => Sys2Proof.Machine.execIcInvalidateDone s
  | .quayFenceCommand quay => Sys2Proof.Machine.execQuayFenceCommand quay s
  | .quayFenceFault quay why => Sys2Proof.Machine.execQuayFenceFault quay why s
  | .quayPortsClosed quay => Sys2Proof.Machine.execQuayPortsClosed quay s
  | .quayResetCommand quay => Sys2Proof.Machine.execQuayResetCommand quay s
  | .selfTestPass quay => Sys2Proof.Machine.execSelfTestPass quay s
  | .selfTestFail quay => Sys2Proof.Machine.execSelfTestFail quay s
  | .qlEnable port => Sys2Proof.Machine.execQlEnable port s
  | .qlDisable port => Sys2Proof.Machine.execQlDisable port s
  | .qlLanesLocked port ident => Sys2Proof.Machine.execQlLanesLocked port ident s
  | .qlTrainTimeout port => Sys2Proof.Machine.execQlTrainTimeout port s
  | .qlFlitCrcReplay port => Sys2Proof.Machine.execQlFlitCrcReplay port s
  | .qlLinkFailure port => Sys2Proof.Machine.execQlLinkFailure port s
  | .pcieFlr part => Sys2Proof.Machine.execPcieFlr part s
  | .pmFlrWrite value => Sys2Proof.Machine.execPmFlrWrite value s
  | .inboundDeviceWrite part addr data => Sys2Proof.Machine.execInboundDeviceWrite part addr data s
  | .powerOnReset boot => Sys2Proof.Machine.execPowerOnReset boot s
  | .recoveryImageLoad image => Sys2Proof.Machine.execRecoveryImageLoad image s
  | .correctableError array => Sys2Proof.Machine.execCorrectableError array s
  | .uncorrectableError place => Sys2Proof.Machine.execUncorrectableError place s
  | .checkpointPeriodExpiry part => Sys2Proof.Machine.execCheckpointPeriodExpiry part s
  | .logFullCheckpoint part => Sys2Proof.Machine.execLogFullCheckpoint part s
  | .checkpointComplete part => Sys2Proof.Machine.execCheckpointComplete part s
  | .replayStart part seq => Sys2Proof.Machine.execReplayStart part seq s
  | .replayLogsExhausted part => Sys2Proof.Machine.execReplayLogsExhausted part s
  | .counterLowRead part core ctr => Sys2Proof.Machine.execCounterLowRead part core ctr s
  | .counterHighRead part core ctr => Sys2Proof.Machine.execCounterHighRead part core ctr s
  | .tpDropRead part => Sys2Proof.Machine.execTpDropRead part s
  | .tpLostRead part => Sys2Proof.Machine.execTpLostRead part s
  | .ntErrRead part => Sys2Proof.Machine.execNtErrRead part s
  | .pfStaleRead part => Sys2Proof.Machine.execPfStaleRead part s
  | .dbgStatRead berth => Sys2Proof.Machine.execDbgStatRead berth s
  | .registerWrite page off value => Sys2Proof.Machine.execRegisterWrite page off value s
  | .illegalEncoding short reason word => Sys2Proof.Machine.execIllegalEncoding short reason word s
  | .quaylinePartnerAccess port acc => Sys2Proof.Machine.execQuaylinePartnerAccess port acc s
  | .partitionReset part => Sys2Proof.Machine.execPartitionReset part s
  | .applicationCoreAccess part acc => Sys2Proof.Machine.execApplicationCoreAccess part acc s
  | .l1WriteBack place line => Sys2Proof.Machine.execL1WriteBack place line s
  | .sublistServe berth chan idx => Sys2Proof.Machine.execSublistServe berth chan idx s
  | .cpcastLeaveRefused berth chan => Sys2Proof.Machine.execCpcastLeaveRefused berth chan s
  | .haltedSliceEndOverrun berth => Sys2Proof.Machine.execHaltedSliceEndOverrun berth s
  | .traceBufferWrite berth => Sys2Proof.Machine.execTraceBufferWrite berth s
  | .residentServiceInstall svc => Sys2Proof.Machine.execResidentServiceInstall svc s
  | .codeObjectLoad part handle obj => Sys2Proof.Machine.execCodeObjectLoad part handle obj s

end Sys2Proof.Machine
end

