-- ==== Sys2Proof/Machine/Issue.lean ====
section
/-!
DEFINITION. Issuing: a context runs the instruction its fetch gave, alone or with the contexts that follow it (R159, R171, R174,
R175, R371), the turn of a core, and which steps of spec/95 take place.
-/
namespace Sys2Proof.Machine

open Sys2Proof

/-- The cause of the trap that a context has taken. -/
def trapTaken (x : Ctx) : Option (BitVec 8) :=
  match x.mode with
  | .trapping cause _ _ => some cause
  | .trapped => some x.ktrap
  | .parked _ => some x.ktrap
  | _ => none

/-- R64: an instruction that stopped at steps 2 to 4, before its own checks. An instruction that waits is among them: it meets step
5 when it waits no more (DEDUCED: log entry 46). -/
def stoppedBefore (i : Instr) (k c : Nat) (t : State) : Bool :=
  let cause := trapTaken (ctxOf t k c)
  t.stalled || cause == some cNOLINK || cause == some cEMPTY || (cause == some cILLEGAL && (i.fieldFault.isSome || !i.encoded))

/-- R64, R371: the instruction that the executing context has fetched. The watchpoints on its fetch are tested at step 5. -/
def execFetched (i : Instr) (s : State) : Outcome :=
  match watchTest 3 [((ctxOf s s.cur.core s.cur.ctx).pc.toNat, i.length)] s with
  | .ok _ => exec i s
  | .error w =>
    match exec i s with
    | .next t => if stoppedBefore i s.cur.core s.cur.ctx t then .next t else stopped s w
    | o => o

/-- R174: the instruction on one member of a group: the leader fetched it. -/
def execMember (i : Instr) (k c j : Nat) (s : State) : Outcome :=
  if j = k then execFetched i { s with cur := ⟨j, c⟩ } else exec i { s with cur := ⟨j, c⟩ }

/-- R371: a halting watchpoint has stopped an instruction before it performs. -/
def watchHalted (b : Nat) (s t : State) : Bool :=
  (berthOf t b).dbg.halted && (berthOf t b).dbg.why == 5 && !(berthOf s b).dbg.halted

/-- R267: a context's `cpcast` waits for power leave. -/
def leaveWaits (s : State) (j c : Nat) : Bool := (ctxOf s j c).mode == .running && (ctxOf s j c).leaveAsk.isSome

/-- R174, R267: nothing of an instruction happens but that a member's `cpcast` has asked for power leave and waits. -/
def keepAsk (before t : State) (j c : Nat) : State :=
  setCtx { before with freeCtr := t.freeCtr } j c { ctxOf before j c with leaveAsk := (ctxOf t j c).leaveAsk }

/-- R175: a member issues as it was attached: a trap of the leader in the same clk has detached nobody yet. -/
def attachedAs (before : State) (j c : Nat) (s : State) : State :=
  let f := (ctxOf before j c).follows
  if (ctxOf s j c).follows = f then s else setCtx s j c { ctxOf s j c with follows := f }

/-- R174: an instruction on the members of a group, in one clk. A stall of any, a wait for power leave (R267), or a watchpoint that halts
the berth, holds all: only what that member's wait or halt leaves happens. -/
def execMembers (i : Instr) (k c : Nat) (before : State) : List Nat → State → Outcome
  | [], s => .next s
  | j :: r, s =>
    match execMember i k c j (attachedAs before j c s) with
    | .next t =>
      if leaveWaits t j c then .next (keepAsk before t j c)
      else if t.stalled || watchHalted (coreBerth k) s t then
        match execMember i k c j before with
        | .next u => if u.stalled || watchHalted (coreBerth k) before u then .next u else .next { before with stalled := true }
        | o => o
      else execMembers i k c before r t
    | o => o

/-- R174: the members of a group that cannot issue an instruction now. One that has begun a send goes on with it (R249). -/
def heldMember (i : Instr) (k c : Nat) (s : State) (j : Nat) : Bool :=
  (ctxOf s j c).sendHold.isNone && match execMember i k c j s with
    | .next t => t.stalled || watchHalted (coreBerth k) s t
    | _ => false

/-- R174, R249: the members of a group whose send has begun and still lacks payload words. -/
def lackPayload (i : Instr) (k c : Nat) (s : State) (js : List Nat) : List Nat :=
  js.filter fun j => match execMember i k c j s with
    | .next t => !t.stalled && (ctxOf t j c).mode == .running && (ctxOf t j c).sendHold.isSome
    | _ => false

/-- R174, R267: the members of a group whose `cpcast` has to wait for power leave. -/
def lackLeave (i : Instr) (k c : Nat) (s : State) (js : List Nat) : List Nat :=
  js.filter fun j => match execMember i k c j s with
    | .next t => leaveWaits t j c
    | _ => false

/-- R267: the members of a group that have to wait for power leave ask for it. -/
def askAll (i : Instr) (k c : Nat) (js : List Nat) (s : State) : State :=
  js.foldl (fun s j => match execMember i k c j s with
    | .next t => keepAsk s t j c
    | _ => s) s

/-- R174: a follower can issue with its leader in this clk. -/
def followerReady (s : State) (j c : Nat) : Bool :=
  (ctxOf s j c).mode == .running && canIssue s j c && (coreOf s j).issuedAt != some s.clk

/-- R174, R175: an instruction on a context and on those that follow it. When all can issue it, all do; while some members still take
payload words of a send, only they go on, so that no message leaves before all are ready; while some wait for power leave, nobody does. -/
def execGroup (i : Instr) (k c : Nat) (s : State) : Outcome :=
  match followers s k c with
  | [] => execFetched i s
  | js =>
    if js.all (followerReady s · c) = false then .next { s with stalled := true }
    else
      let members :=
        match (k :: js).find? (heldMember i k c s) with
        | some j => [j]
        | none =>
          let short := lackPayload i k c s (k :: js)
          if short.isEmpty then k :: js else short
      let t := js.foldl (fun t j => setCore t j { coreOf t j with issuedAt := some s.clk }) s
      let asks := lackLeave i k c s members
      if asks.isEmpty = false then .next { askAll i k c asks t with cur := ⟨k, c⟩ }
      else match execMembers i k c s members t with
      | .next t =>
        if t.stalled || watchHalted (coreBerth k) s t then .next { t with cur := ⟨k, c⟩ }
        else .next { js.foldl (detachAfter c k) t with cur := ⟨k, c⟩ }
      | o => o

/-- R374: the instruction counts as issued on every context that issues it, once. -/
def countIssued (s : State) (k c : Nat) : State :=
  let js := k :: followers s k c
  if js.any fun j => (ctxOf s j c).sendHold.isSome || (ctxOf s j c).leaveAsk.isSome then s
  else js.foldl (fun s j => countEvent s j c 2 1) s

/-- A context issues: what its fetch left, and its instruction, counted unless it stalls. Bytes that no instruction owns trap on every
member of the group (R175). -/
noncomputable def issue (k c : Nat) (s : State) : Outcome :=
  match fetchWord { s with cur := ⟨k, c⟩ } with
  | .error x => stopped { s with cur := ⟨k, c⟩ } x
  | .ok (w, t) =>
    let i := match decode w with
      | .ok i => i
      | .error e => .illegalEncoding (isShort w) e.reason (if isShort w then w &&& 0xFFFF else w)
    match execGroup i k c (countIssued t k c) with
    | .next u => if u.stalled then execGroup i k c t else .next u
    | o => o

/-- The turn of a context: it takes a trap that waited for earlier producers, for which no issue slot is needed, enters its SFU requests
again, or issues. A follower issues with its leader (R174) (DESIGN CHOICE: log entry 14). -/
noncomputable def issueTurn (k c : Nat) (s : State) : Outcome :=
  let x := ctxOf s k c
  match x.mode with
  | .trapping _ _ _ => .next { if trapSettles s k c then settleTrap s k c else s with stalled := true }
  | _ =>
    let s := if x.sfuSaved.isEmpty ∨ x.mode ≠ .running ∨ (coreOf s k).preempted then s else reenterSfu s k c
    if canIssue s k c && x.follows.isNone then issue k c s else .next { s with stalled := true }

/-- R159: the contexts of a core in turn, the first that does not stall issuing (DESIGN CHOICE: log entry 14). -/
noncomputable def issueFirst (k : Nat) : List Nat → State → Outcome
  | [], s => .next s
  | c :: r, s =>
    match issueTurn k c s with
    | .next t =>
      if t.stalled then issueFirst k r { t with stalled := false }
      else .next (setCore t k { coreOf t k with rr := c, issuedAt := some s.clk })
    | o => o

/-- R159: a core issues at most one instruction in a clk, from its ready contexts in round-robin order. -/
noncomputable def coreTurn (k : Nat) (s : State) : Outcome :=
  let rr := (coreOf s k).rr
  if (coreOf s k).issuedAt = some s.clk then .next s
  else issueFirst k [(rr + 1) % 4, (rr + 2) % 4, (rr + 3) % 4, rr % 4] { s with stalled := false }

/-- Whether an instruction is a step that no encoding names. -/
def isEvent (i : Instr) : Bool := encode i == 0 && i.length == 4

/-- R382: the steps that take place before the package has come up. -/
def isBoot (i : Instr) : Bool :=
  match i with
  | .powerOnReset _ => true
  | .recoveryImageLoad _ => true
  | _ => false

/-- R382: whether a step of spec/95 takes place now (DESIGN CHOICE: log entry 14). -/
def eventTakes (i : Instr) (s : State) : Bool := isEvent i && (s.glob.boot == .done || isBoot i)

end Sys2Proof.Machine
end

