-- ==== Sys2Proof/Machine/Step.lean ====
section
/-!
DEFINITION. One step of the package. The first turn of the agenda happens: a context issues its next instruction, a step of
spec/95 happens, the clock advances, or the firmware acts. With an empty agenda the core that `cur` names spends one clk: it issues from the
first of its contexts, in round-robin order, that is ready (R159).
-/
namespace Sys2Proof.Machine

open Sys2Proof

/-- One step. -/
noncomputable def step (s : State) : Host.Outcome State Fault Refusal :=
  match s.agenda with
  | [] =>
    match coreTurn s.cur.core s with
    | .next t => .next (tick t 1)
    | o => o
  | .issue k :: r => coreTurn k { s with agenda := r }
  | .event i :: r => if eventTakes i s then exec i { s with agenda := r } else .next { s with agenda := r }
  | .clk n :: r => .next (tick { s with agenda := r } n)
  | .firmware a :: r => execFirmware a { s with agenda := r }

/-- A state whose next step fetches and runs a given instruction: the package is up, and core 0's context 0 runs at the start of
its local store under a code capability for it, in a berth that partition 0 owns (DESIGN CHOICE: log entry 13). -/
def State.withFetchWord (s : State) (_nbits w : Nat) : State :=
  let pcc := capMake1 (localBase 0) fRAW8 64 (pL + pX) 0
  let s := { s with agenda := [.issue 0], cur := ⟨0, 0⟩, glob := { s.glob with boot := .done } }
  let s := setBerth s 0 { berthOf s 0 with owner := 0, runs := some 0 }
  let s := setCtx s 0 0 { ctxOf s 0 0 with mode := .running, pcc := pcc, pc := BitVec.ofNat 64 (localBase 0) }
  let s := setCore s 0 { coreOf s 0 with icache := tabErase (coreOf s 0).icache (localBase 0 / 64), issuedAt := none }
  { s with mem := memWrite s.mem (localBase 0) (bytesOf 4 w) }

end Sys2Proof.Machine
end

