-- ==== Sys2Proof/Safety.lean ====
section
/-!
DEFINITION. The terms in which statements speak of a state: the executing context and its registers, when an operand can be
read or written at once, what completing an instruction leaves, and the invariants.
-/
namespace Sys2Proof.Machine

open Sys2Proof

/-! ### Invariants -/

/-- The memory is in its canonical form. -/
abbrev MemSafe (s : State) : Prop := Memory.wf s.mem = true

/-! ### The executing context -/

/-- The executing context. -/
abbrev me (s : State) : Ctx := ctxOf s s.cur.core s.cur.ctx
/-- The state with the executing context replaced. -/
abbrev withMe (s : State) (x : Ctx) : State := setCtx s s.cur.core s.cur.ctx x
/-- The berth of the executing core. -/
abbrev myBerth (s : State) : Nat := coreBerth s.cur.core

/-- R49: the value of a scalar register that is no link port: x0 reads zero. -/
def regX (s : State) (r : BitVec 5) : Dbl := if r = 0 then 0 else tabGet 0 (me s).x r.toNat
/-- R50, R54: a scalar register that is no link port and is full, so that it can be read at once. -/
abbrev readableX (s : State) (r : BitVec 5) : Prop := r.toNat < 28 ∧ (r = 0 ∨ tabGet .full (me s).xs r.toNat = .full)
/-- R50, R54: a scalar register that is no link port and that no earlier producer has yet to fill. -/
abbrev writableX (s : State) (r : BitVec 5) : Prop := r.toNat < 28 ∧ (r = 0 ∨ tabGet .full (me s).xs r.toNat ≠ .empty)
/-- R49: the state with a scalar register written: a write to x0 is discarded. -/
def withX (s : State) (r : BitVec 5) (v : Dbl) : State :=
  if r = 0 then s else withMe s (putX (me s) r.toNat v)

/-- R53: the value of a vector register under the rotation of `krrb`. -/
def regV (s : State) (r : BitVec 6) : Quad := tabGet 0 (me s).v (physV (me s) r.toNat)
abbrev readableV (s : State) (r : BitVec 6) : Prop := isVPort r = false ∧ tabGet .full (me s).vs (physV (me s) r.toNat) = .full
abbrev writableV (s : State) (r : BitVec 6) : Prop := isVPort r = false ∧ tabGet .full (me s).vs (physV (me s) r.toNat) ≠ .empty
def withV (s : State) (r : BitVec 6) (v : Quad) : State := withMe s (putV (me s) (physV (me s) r.toNat) v)

/-- R49: the value of a capability register: c0 reads the null capability. -/
def regC (s : State) (r : BitVec 4) : Cap := if r = 0 then Cap.null else tabGet Cap.null (me s).c r.toNat
abbrev readableC (s : State) (r : BitVec 4) : Prop := r = 0 ∨ tabGet .full (me s).cs r.toNat = .full
abbrev writableC (s : State) (r : BitVec 4) : Prop := r = 0 ∨ tabGet .full (me s).cs r.toNat ≠ .empty
def withC (s : State) (r : BitVec 4) (v : Cap) : State := if r = 0 then s else withMe s (putC (me s) r.toNat v)

/-- R49, R357: a mask register that no uncorrectable error has struck. -/
abbrev readableM (s : State) (r : BitVec 3) : Prop := r = 0 ∨ tabGet .full (me s).ms r.toNat = .full
/-- R49: the value of a mask register: m0 reads ones. -/
def regM (s : State) (r : BitVec 3) : BitVec 16 := if r = 0 then 0xFFFF else tabGet 0 (me s).m r.toNat
def withM (s : State) (r : BitVec 3) (v : BitVec 16) : State :=
  if r = 0 then s else withMe s { me s with m := tabPut (me s).m r.toNat v, ms := tabErase (me s).ms r.toNat }

/-! ### How an instruction ends -/

/-- The state after an instruction of `len` bytes that ends at the next one. -/
def after (s : State) (len : Nat) : State :=
  { withMe s { me s with pc := (me s).pc + BitVec.ofNat 64 len, watchSkip := none } with stalled := false }
/-- The state after a jump. -/
def afterJump (s : State) (pc : Dbl) : State := { withMe s { me s with pc := pc, watchSkip := none } with stalled := false }
/-- The state after an instruction that leaves the pc to its context's next mode. -/
def afterStay (s : State) : State := { s with stalled := false }
/-- R36: the state after an instruction that waits: only the counters of R374 may have counted the wait (event 4 for an empty register,
5 for a link port). -/
def waits (s : State) (w : Wait) : State :=
  match w with
  | .empty => { countEvent s s.cur.core s.cur.ctx 4 1 with stalled := true }
  | .link => { countEvent s s.cur.core s.cur.ctx 5 1 with stalled := true }
  | .other => { s with stalled := true }
/-- R345: the state after an instruction that traps; `next` says that the task resumes at the next instruction. -/
def traps (s : State) (cause : BitVec 8) (detail : Dbl) (next : Bool) : State :=
  { takeTrap s cause detail next with stalled := false }

/-- R346 steps 1 and 2, R175, R197, R204: the state in which a trap has stopped a context and taken its lease, its waiting SFU requests and its
follow relation from it, before its writes are released and its record is written. -/
def suspendedFor (s : State) (k c : Nat) (cause : BitVec 8) (detail : Dbl) (next : Bool) : State :=
  let x := ctxOf s k c
  let t := setCtx s k c { x with
    mode := .trapping cause detail next
    sendHold := none
    leaveAsk := none
    ackErr := if x.ackErr = some (cause, detail) then none else x.ackErr }
  suspendLease (suspendSfu (detach t k c) k c) k c

/-- R338: what the executing context must have done before its task can end: a counted rewrite task releases first. -/
abbrev endable (s : State) : Prop :=
  (me s).netTask.isSome = true →
    accessOutstanding s s.cur.core s.cur.ctx = false ∧ (me s).ackErr = none ∧ releaseReady s (myBerth s) 4 = true
/-- R35, R338: the state after the executing context has ended its task. -/
def ended (s : State) : State :=
  finishTask (if (me s).netTask.isSome then release s (myBerth s) 4 else s) s.cur.core s.cur.ctx

/-! ### Rounding and merging -/

/-- R156: the state after the issue of an instruction that rounds: under SR the seed has advanced by one. -/
def seeded (s : State) : State := if (me s).rmode = 4 then withMe s { me s with seed := (me s).seed + 1 } else s
/-- R157: the state with flags added to `kfflags`. -/
def flagged (s : State) (f : BitVec 5) : State := withMe s { me s with fflags := (me s).fflags ||| f }
/-- R177, R178: what vd holds where a mask other than m0 merges into it. -/
def oldV (s : State) (m : BitVec 3) (v : BitVec 6) : Quad := if m = 0 then 0 else regV s v

/-! ### What an instruction asks of the rest of the machine -/

/-- R54: where the result of a request goes, and the state in which that register waits for it. -/
def destX (r : BitVec 5) : Dest := if r = 0 then .none else .x r.toNat
def emptyX (s : State) (r : BitVec 5) : State :=
  if r = 0 then s else withMe s { me s with xs := tabPut (me s).xs r.toNat .empty }
def destV (s : State) (r : BitVec 6) : Dest := .v (physV (me s) r.toNat)
def emptyV (s : State) (r : BitVec 6) : State :=
  withMe s { me s with vs := tabPut (me s).vs (physV (me s) r.toNat) .empty }
def destC (r : BitVec 4) : Dest := if r = 0 then .none else .c r.toNat
def emptyC (s : State) (r : BitVec 4) : State :=
  if r = 0 then s else withMe s { me s with cs := tabPut (me s).cs r.toNat .empty }

/-- R364: the state after the executing context has sent a request, numbered among its own. -/
def sent (s : State) (dst : Dest) (addr : Nat) (body : Body) : State :=
  let r : Req := ⟨s.cur.core, s.cur.ctx, (me s).epoch, (me s).part, dst, BitVec.ofNat 64 addr, body, none, 0, false, true, (me s).reqNum, 0⟩
  { numberRequest s s.cur.core s.cur.ctx body with reqs := tabPut s.reqs s.nextReq r, nextReq := s.nextReq + 1 }
/-- R45, R277: the state after the executing context has put a request into its core's send queue of requests; its owner accepts it when
it leaves the queue. -/
def sentQueued (s : State) (dst : Dest) (addr : Nat) (body : Body) : State :=
  let k := s.cur.core
  let c := coreOf s k
  let f : Flight := ⟨0, [], Cap.null, (me s).part, .request s.nextReq, .core k, k, none, none, false, 0, 0⟩
  let r : Req := ⟨k, s.cur.ctx, (me s).epoch, (me s).part, dst, BitVec.ofNat 64 addr, body, none, 0, false, false, (me s).reqNum, 0⟩
  let t := setCore s k { c with sendq := tabPut c.sendq 0 (tabGet [] c.sendq 0 ++ [f]) }
  { numberRequest t k s.cur.ctx body with reqs := tabPut s.reqs s.nextReq r, nextReq := s.nextReq + 1 }
/-- R45, R247: the core's send queue of requests has room. -/
abbrev queueOpen (s : State) : Prop := sendQueued s s.cur.core 0 < 8

/-- R371: no watchpoint of the berth meets an access of a kind. -/
abbrev unwatched (s : State) (kind : Nat) (parts : List (Nat × Nat)) : Prop :=
  parts.findSome? (fun p => watchMatch s (myBerth s) none kind p.1 p.2) = none

/-- R83, R223, R241: no engine and no earlier access of the context holds the bytes of an access up. -/
abbrev unhindered (s : State) (ps : List Piece) (write : Bool) : Prop :=
  (ps.any fun p => engineHolds s p write || ownConflict s s.cur.core s.cur.ctx p write) = false

/-- R136, R241: the homes of the lines of an access serve it, and what its own caches have to write back of them can go there: an access
that performs at once at its home does not wait. -/
abbrev homeServed (s : State) (ps : List Piece) : Prop :=
  (ps.any fun p => p.cached && homeHeld s (myBerth s) (me s).part p.key) = false ∧ piecesReady s (myBerth s) ps = true
/-- R84, R87, R245: the pieces of a store that perform at their homes. -/
def homePieces (s : State) (ps : List Piece) (cap : Option Cap) : List Piece := ps.filter (performsHome (me s).rev1 cap)

/-- R54, R100: the context waits for no result, and no failed acknowledgement is to be reported. -/
abbrev settledHere (s : State) : Prop :=
  undelivered s s.cur.core s.cur.ctx = false ∧ (me s).ackErr = none

/-- R238: the context's earlier accesses have performed, and no failed acknowledgement is to be reported. -/
abbrev accessesDone (s : State) : Prop :=
  accessOutstanding s s.cur.core s.cur.ctx = false ∧ (me s).ackErr = none

/-- The state with a request answered by its owner. -/
def answered (s : State) (req : Nat) (r : Req) (y : Reply) : State :=
  { s with reqs := tabPut s.reqs req { r with reply := some y } }
/-- R393: the state with a request answered by an owner whose replies keep their order. -/
def repliedNext (s : State) (req : Nat) (r : Req) (y : Reply) : State :=
  { s with reqs := tabPut s.reqs req { r with reply := some y, served := s.nextReq }, nextReq := s.nextReq + 1 }
/-- The state without a request. -/
def withoutReq (s : State) (req : Nat) : State := { s with reqs := tabErase s.reqs req }

/-- R364: no order log is replayed for a partition, and where one is kept its next entry can be written now, so that its ordered events
may happen. -/
abbrev orderable (s : State) (part : Nat) : Prop :=
  (partOf s part).ck.ctl.getLsbD 1 = false ∧
    ((partOf s part).ck.ctl.getLsbD 0 = true → logHeld s part (partOf s part).ck.entries.length = false)
/-- R364: an ordered event of a partition has entered its order log, where one is kept, and its log area. -/
def logged (s : State) (part : Nat) (e : LogEntry) : State :=
  let c := (partOf s part).ck
  if c.ctl.getLsbD 0 then
    setPart (writeLog s part c.entries.length) part { partOf s part with ck := { c with entries := c.entries ++ [e] } }
  else s

/-! ### Messages -/

/-- R248, R249: a message with header h can leave the executing context at once: the header is well formed, a capability goes only
with a capability word and is in scope at its destination, the destination can be resolved, and the queue of its network has room. -/
abbrev sendable (s : State) (h : Dbl) (d : BitVec 4) : Prop :=
  hdrMalformed h = false ∧ (hdrCapword h = false → d = 0) ∧ (hdrCapword h = true → readableC s d ∧
    (hdrLogical h = true ∨ (regC s d).tag = false ∨ distance s.cur.core (hdrDst h) ≤ capScope (regC s d))) ∧
  logicalOk s s.cur.core h = true ∧ sendQueued s s.cur.core (hdrVn (stampHeader h s.cur.core (otypeOf (me s)))) < 8 ∧
  (me s).popped = [] ∧ (me s).sendHold = none

/-- The state after the executing context has put a message into the send queue of its network. -/
def queued (s : State) (f : Flight) : State :=
  let s := withMe s { me s with popped := [], sendHold := none }
  let c := coreOf s s.cur.core
  let vn := hdrVn f.header
  countEvent (setCore s s.cur.core { c with sendq := tabPut c.sendq vn (tabGet [] c.sendq vn ++ [f]) }) s.cur.core s.cur.ctx 0xB 1

/-- R249: the message of a send form: its header stamped with the core and the sealing type, its words, its capability. -/
def sentMessage (s : State) (h : Dbl) (ws : List Dbl) (d : BitVec 4) : Flight :=
  ⟨stampHeader h s.cur.core (otypeOf (me s)), ws, if hdrCapword h then regC s d else Cap.null, (me s).part, .sent,
    .core s.cur.core, s.cur.core, none, (coreOf s s.cur.core).place, false, 0, 0⟩

/-- R249: the payload block of a scalar send form: `n` registers from xb, full and below the link ports; b is 0 when n is. -/
abbrev blockReady (s : State) (b : BitVec 5) (n : Nat) : Prop :=
  b.toNat + n ≤ 28 ∧ (n = 0 → b = 0) ∧ ∀ j < n, readableX s (BitVec.ofNat 5 (b.toNat + j))
def blockWords (s : State) (b : BitVec 5) (n : Nat) : List Dbl := (List.range n).map fun j => regX s (BitVec.ofNat 5 (b.toNat + j))
/-- R248: the payload registers of a header. -/
def payloadCount (h : Dbl) : Nat := if hdrCapword h then 3 else hdrN h

/-! ### Matrix commands -/

/-- R207 steps 7 and 8, R233: the state after the acceptance of a matrix command: a release at quay scope, the command at the tail of the
array queue, the lease counted, the trace record. -/
def commanded (s : State) (c : MatCmd) (extra : Nat) : State :=
  let s := release s (myBerth s) 1
  let b := myBerth s
  let m := matOf s b
  let t := setMat s b { m with queue := m.queue ++ [{ c with cycles := c.cycles + extra }] }
  traceRecord (countLease t b) b 9 0 c.core c.ctx (me s).ch.toNat (c.tag.setWidth 64) (me s).ktask

/-! ### Graph rewriting -/

/-- R328: the state after a NET request is sent: its context issues nothing until the reply. -/
def asking (s : State) (d : BitVec 5) (addr : Nat) (op : NetOp) (heap : Cap) (reg : Nat) : State :=
  let t := sent s (destX d) addr (.net op heap reg [])
  withMe t { me t with mode := .waiting s.nextReq }

/-! ### Revocation -/

/-- R110 stage 3, R111: in `t`, what the registers, frames, shadow registers, channel bindings, inboxes and send queues of a partition held in
`s`, and its messages in the mesh, has lost the tags that the revocation map revokes; the contexts of other partitions are unchanged. -/
def heldSwept (s t : State) (part : Nat) : Prop :=
  let f := swept s part
  let shadow := fun (h : Shadow) => { h with src := f h.src, dst := f h.dst, aux := f h.aux }
  let flight := fun (m : Flight) => if m.part = part then { m with cap := f m.cap } else m
  (∀ k c, (ctxOf s k c).mode ≠ .free → (ctxOf s k c).part = part →
    (∀ r, tabGet Cap.null (ctxOf t k c).c r = f (tabGet Cap.null (ctxOf s k c).c r)) ∧ (ctxOf t k c).pcc = f (ctxOf s k c).pcc ∧
    (ctxOf t k c).kcsa = f (ctxOf s k c).kcsa ∧ (ctxOf t k c).kcsb = f (ctxOf s k c).kcsb ∧
    (ctxOf t k c).frames = (ctxOf s k c).frames.map (fun r => { r with pcc := f r.pcc, root := f r.root, ret := f r.ret }) ∧
    (ctxOf t k c).sh0 = shadow (ctxOf s k c).sh0 ∧ (ctxOf t k c).sh1 = shadow (ctxOf s k c).sh1) ∧
  (∀ k c, (ctxOf s k c).part ≠ part → ctxOf t k c = ctxOf s k c) ∧
  (∀ k ch, tabFind? (coreOf t k).bind ch = (tabFind? (coreOf s k).bind ch).map fun b =>
    if b.part = part then { b with entry := f b.entry, root := f b.root } else b) ∧
  (∀ k, (coreOf t k).inbox = (coreOf s k).inbox.map flight) ∧
  (∀ k vn, tabGet [] (coreOf t k).sendq vn = (tabGet [] (coreOf s k).sendq vn).map flight) ∧
  t.mesh = s.mesh.map flight

/-! ### Instructions of one shape -/

/-- R160, R165: the instructions on two scalar sources with what the row of each computes. -/
def pairForms : List ((BitVec 1 → BitVec 1 → BitVec 1 → BitVec 5 → BitVec 5 → BitVec 5 → Instr) × (Dbl → Dbl → Dbl)) := [
  (Instr.add, fun x y => x + y),
  (Instr.sub, fun x y => x - y),
  (Instr.and, fun x y => x &&& y),
  (Instr.or, fun x y => x ||| y),
  (Instr.xor, fun x y => x ^^^ y),
  (Instr.andn, fun x y => x &&& ~~~ y),
  (Instr.sll, fun x y => x <<< (y.toNat % 64)),
  (Instr.srl, fun x y => x >>> (y.toNat % 64)),
  (Instr.sra, fun x y => x.sshiftRight (y.toNat % 64)),
  (Instr.slt, fun x y => if x.toInt < y.toInt then 1 else 0),
  (Instr.sltu, fun x y => if x.toNat < y.toNat then 1 else 0),
  (Instr.min, fun x y => if y.toInt < x.toInt then y else x),
  (Instr.max, fun x y => if x.toInt < y.toInt then y else x),
  (Instr.minu, fun x y => if y.toNat < x.toNat then y else x),
  (Instr.maxu, fun x y => if x.toNat < y.toNat then y else x),
  (Instr.bext, fun x y => BitVec.ofNat 64 (x.toNat / 2 ^ (y.toNat % 64) % 2 ^ (y.toNat / 256 % 64 + 1))),
  (Instr.addw, fun x y => ((x + y).extractLsb' 0 32).signExtend 64),
  (Instr.subw, fun x y => ((x - y).extractLsb' 0 32).signExtend 64),
  (Instr.sllw, fun x y => ((x.extractLsb' 0 32) <<< (y.toNat % 32)).signExtend 64),
  (Instr.srlw, fun x y => ((x.extractLsb' 0 32) >>> (y.toNat % 32)).signExtend 64),
  (Instr.sraw, fun x y => ((x.extractLsb' 0 32).signExtend 64).sshiftRight (y.toNat % 32)),
  (Instr.mul, fun x y => x * y),
  (Instr.mulh, fun x y => BitVec.ofInt 64 (x.toInt * y.toInt / 2 ^ 64)),
  (Instr.mulhu, fun x y => BitVec.ofNat 64 (x.toNat * y.toNat / 2 ^ 64)),
  (Instr.div, fun x y => if y = 0 then BitVec.allOnes 64 else BitVec.ofInt 64 (x.toInt.tdiv y.toInt)),
  (Instr.divu, fun x y => if y = 0 then BitVec.allOnes 64 else BitVec.ofNat 64 (x.toNat / y.toNat)),
  (Instr.rem, fun x y => if y = 0 then x else BitVec.ofInt 64 (x.toInt.tmod y.toInt)),
  (Instr.remu, fun x y => if y = 0 then x else BitVec.ofNat 64 (x.toNat % y.toNat))]

/-! ### Observation registers -/

/-- R374: the state with an observation register of the executing core replaced. -/
def withObs (s : State) (n : Nat) (v : Dbl) : State :=
  setCore s s.cur.core { coreOf s s.cur.core with obs := tabPut (coreOf s s.cur.core).obs n v }

/-! ### Link ports and memory as a core sees them -/

/-- R50: a core's inbound queue of scalars from a direction. -/
def inQueue (s : State) (k dir : Nat) : List LinkEntry := tabGet [] (coreOf s k).links dir
/-- R50: the state with that queue replaced. -/
def withQueue (s : State) (k dir : Nat) (q : List LinkEntry) : State :=
  setCore s k { coreOf s k with links := tabPut (coreOf s k).links dir q }

/-- R230: the byte at a location as a core of a berth sees it in ordering revision 2: its L1's byte where the L1 holds it, else the
byte of its quay's L2. -/
def seenByte (s : State) (b key : Nat) : Byte :=
  let l := tabGet ⟨0, 0, 0⟩ (berthOf s b).l1 (key / 64)
  if l.valid.getLsbD (key % 64) then l.data.extractLsb' (8 * (key % 64)) 8
  else (l2View s (berthQuay b) (key / 64)).extractLsb' (8 * (key % 64)) 8

/-- R230, R245: the byte at a location once what a berth and its quay's L2 hold of their own writes to a line has reached its home: a quay's
L2 has no bytes of its own for a line that is homed at the quay. -/
def releasedByte (s : State) (b line key : Nat) : Byte :=
  let q := berthQuay b
  let l := tabGet ⟨0, 0, 0⟩ (berthOf s b).l1 line
  let m := tabGet ⟨0, 0, 0⟩ (quayOf s q).l2 line
  let byte := fun (d : BitVec 512) => d.extractLsb' (8 * (key % 64)) 8
  if key / 64 ≠ line then memByte s.mem key
  else if m.dirty.getLsbD (key % 64) ∧ (keyQuay (line * 64) = q ∨ l.dirty.getLsbD (key % 64) = false) then byte m.data
  else if l.dirty.getLsbD (key % 64) then byte l.data
  else memByte s.mem key

/-- A location that a piece of an access touches. -/
abbrev inPiece (p : Piece) (key : Nat) : Prop := p.key ≤ key ∧ key < p.key + pieceBytes p

/-- R51: berths differ at most in the link queues of the cores that they hold saved. -/
def savedLinksOnly (s t : State) : Prop :=
  ∀ b, berthOf t b = { berthOf s b with saved := (berthOf t b).saved } ∧
    (berthOf t b).saved.map (fun x => { x with cores := [] }) = (berthOf s b).saved.map (fun x => { x with cores := [] }) ∧
    ∀ part n, savedCore t part n = { savedCore s part n with links := (savedCore t part n).links }

/-- Nothing but the executing context, the link queues and the event counters differs, and of the context only the register `d`, the
pc, the flags, the seed and the watchpoint to be passed over. -/
def scalarsOnly (s t : State) (d : BitVec 5) : Prop :=
  t = { s with cores := t.cores, berths := t.berths, stalled := t.stalled } ∧ savedLinksOnly s t ∧
  (∀ k, coreOf t k = { coreOf s k with
    ctxs := (coreOf t k).ctxs, links := (coreOf t k).links, obs := (coreOf t k).obs }) ∧
  (∀ k c, (k, c) ≠ (s.cur.core, s.cur.ctx) → ctxOf t k c = ctxOf s k c) ∧
  me t = { me s with
    x := (me t).x, xs := (me t).xs, pc := (me t).pc, fflags := (me t).fflags, seed := (me t).seed, watchSkip := (me t).watchSkip } ∧
  ∀ r : BitVec 5, r ≠ d → regX t r = regX s r ∧ tabGet .full (me t).xs r.toNat = tabGet .full (me s).xs r.toNat

/-- The same for a vector destination under the rotation of `krrb`. -/
def vectorsOnly (s t : State) (d : BitVec 6) : Prop :=
  t = { s with cores := t.cores, berths := t.berths, stalled := t.stalled } ∧ savedLinksOnly s t ∧
  (∀ k, coreOf t k = { coreOf s k with
    ctxs := (coreOf t k).ctxs, links := (coreOf t k).links, obs := (coreOf t k).obs }) ∧
  (∀ k c, (k, c) ≠ (s.cur.core, s.cur.ctx) → ctxOf t k c = ctxOf s k c) ∧
  me t = { me s with
    v := (me t).v, vs := (me t).vs, pc := (me t).pc, fflags := (me t).fflags, seed := (me t).seed, watchSkip := (me t).watchSkip } ∧
  ∀ r : BitVec 6, r ≠ d → regV t r = regV s r ∧ tabGet .full (me t).vs (physV (me s) r.toNat) = tabGet .full (me s).vs (physV (me s) r.toNat)

end Sys2Proof.Machine
end

