-- ==== Sys2Proof/Certificates/Slice0/Obligations.lean ====
section
/-!
DEFINITION. The statements for the provers. A statement that lists instructions with what they compute holds for each of them;
the plain forms have f = 0, since f = 1 needs a link port among the sources (R52); the forms with link ports follow them.
-/
open Sys2Proof Sys2Proof.Machine

/-! ### Scalar arithmetic -/

/-- R160, R165: each instruction on two scalar sources completes, writes what its row gives to xd and nothing else, and goes on
at the next instruction.
R160, R161, R163: the one-source and three-source forms and `lui`. `clz` and `ctz` count the zero bits above the highest and
below the lowest 1 bit, `pop` the 1 bits; `bins` reads xd as a third source. -/
def Obligations.ScalarArithmetic : Prop :=
  (∀ (s : State) (eb ea : BitVec 1) (b a d : BitVec 5), readableX s a → readableX s b → writableX s d →
     ∀ e ∈ pairForms,
     exec (e.1 0 eb ea b a d) s = .next (after (withX s d (e.2 (regX s a) (regX s b))) 4)) ∧
  (∀ (s : State) (eb ea : BitVec 1) (b a d : BitVec 5), readableX s a → writableX s d →
     (∃ n ≤ 64, exec (.clz 0 ea a d) s = .next (after (withX s d (BitVec.ofNat 64 n)) 4) ∧
       (regX s a).toNat < 2 ^ (64 - n) ∧ (n < 64 → 2 ^ (63 - n) ≤ (regX s a).toNat)) ∧
     (∃ n ≤ 64, exec (.ctz 0 ea a d) s = .next (after (withX s d (BitVec.ofNat 64 n)) 4) ∧
       (∀ i < n, (regX s a).getLsbD i = false) ∧ (n < 64 → (regX s a).getLsbD n = true)) ∧
     exec (.pop 0 ea a d) s =
       .next (after (withX s d (BitVec.ofNat 64 ((List.range 64).countP fun i => (regX s a).getLsbD i))) 4) ∧
     (∀ i : BitVec 20, exec (.lui i d) s = .next (after (withX s d ((i ++ 0#12).signExtend 64)) 4)) ∧
     (readableX s b → readableX s d →
       let lo := (regX s b).toNat % 64
       let mask := BitVec.ofNat 64 ((2 ^ ((regX s b).toNat / 256 % 64 + 1) - 1) * 2 ^ lo)
       exec (.bins 0 eb ea b a d) s =
         .next (after (withX s d ((regX s d &&& ~~~ mask) ||| ((regX s a <<< lo) &&& mask))) 4)))

/-- R162: each immediate form completes with what its row gives.
R63, R176: the compact forms that compute, 2 bytes long, d read before b. -/
def Obligations.ImmediateForms : Prop :=
  (∀ (s : State) (a d : BitVec 5), readableX s a → writableX s d →
     (∀ (k : BitVec 12), ∀ e ∈ ([
       (Instr.addi, fun x y => x + y),
       (Instr.andi, fun x y => x &&& y),
       (Instr.ori, fun x y => x ||| y),
       (Instr.xori, fun x y => x ^^^ y),
       (Instr.slti, fun x y => if x.toInt < y.toInt then 1 else 0),
       (Instr.sltiu, fun x y => if x.toNat < y.toNat then 1 else 0),
       (Instr.addiw, fun x y => ((x + y).extractLsb' 0 32).signExtend 64)] :
       List ((BitVec 12 → BitVec 5 → BitVec 5 → Instr) × (Dbl → Dbl → Dbl))),
       exec (e.1 k a d) s = .next (after (withX s d (e.2 (regX s a) (k.signExtend 64))) 4)) ∧
     (∀ (sh : BitVec 6), ∀ e ∈ ([
       (Instr.slli, fun x n => x <<< n),
       (Instr.srli, fun x n => x >>> n),
       (Instr.srai, fun x n => x.sshiftRight n)] : List ((BitVec 6 → BitVec 5 → BitVec 5 → Instr) × (Dbl → Nat → Dbl))),
       exec (e.1 sh a d) s = .next (after (withX s d (e.2 (regX s a) sh.toNat)) 4)) ∧
     (∀ (k : BitVec 10), ∀ e ∈ ([
       (Instr.mini, fun x y => if y.toInt < x.toInt then y else x),
       (Instr.maxi, fun x y => if x.toInt < y.toInt then y else x),
       (Instr.minui, fun x y => if y.toNat < x.toNat then y else x),
       (Instr.maxui, fun x y => if x.toNat < y.toNat then y else x)] :
       List ((BitVec 10 → BitVec 5 → BitVec 5 → Instr) × (Dbl → Dbl → Dbl))),
       exec (e.1 k a d) s = .next (after (withX s d (e.2 (regX s a) (k.signExtend 64))) 4))) ∧
  (∀ (s : State) (b d : BitVec 5),
     exec .cNop s = .next (after s 2) ∧
     (readableX s b → writableX s d → exec (.cMv b d) s = .next (after (withX s d (regX s b)) 2)) ∧
     (∀ i : BitVec 6, writableX s d → exec (.cLi i d) s = .next (after (withX s d (i.signExtend 64)) 2)) ∧
     (readableX s d → ∀ i : BitVec 6,
       exec (.cAddi i d) s = .next (after (withX s d (regX s d + i.signExtend 64)) 2) ∧
       exec (.cSlli i d) s = .next (after (withX s d (regX s d <<< i.toNat)) 2) ∧
       exec (.cSrli i d) s = .next (after (withX s d (regX s d >>> i.toNat)) 2)) ∧
     (readableX s d → readableX s b →
       exec (.cAdd b d) s = .next (after (withX s d (regX s d + regX s b)) 2) ∧
       exec (.cSub b d) s = .next (after (withX s d (regX s d - regX s b)) 2) ∧
       exec (.cAnd b d) s = .next (after (withX s d (regX s d &&& regX s b)) 2) ∧
       exec (.cOr b d) s = .next (after (withX s d (regX s d ||| regX s b)) 2)))

/-- R14, R50, R52, R54: the instructions on two scalar sources with a link port among their operands. A source names a port: the head of
its queue is popped; with f = 1 it is pushed on out of the opposite side in the same step; an empty queue stalls, or traps with
EMPTY_TRAP when the operand's trap bit is set, and a reserved entry is waited for; a destination port pushes to the neighbour's queue
of 4, kept with the neighbour's state where its berth holds the partition saved (R51), and stalls while that is full; an
unconnected port traps with NO_LINK. A source register that is empty stalls or traps in the same way.
Where the model reads the rules further than their words, it follows its own log entries 28, 29. -/
def Obligations.LinkPorts : Prop :=
  ∀ (s : State) (eb ea : BitVec 1) (b a d p : BitVec 5) (dir : Nat), dir < 4 → p = BitVec.ofNat 5 (28 + dir) →
    ∀ e ∈ pairForms,
      let k := s.cur.core
      let q := inQueue s k dir
      (∀ v rest, readableX s b → writableX s d → (neighbour k dir).isSome = true → q = .ready v :: rest →
        exec (e.1 0 eb ea b p d) s =
          .next (after (withX (withQueue s k dir rest) d (e.2 (v.extractLsb' 0 64) (regX s b))) 4)) ∧
      (∀ v rest, readableX s a → writableX s d → (neighbour k dir).isSome = true → q = .ready v :: rest →
        exec (e.1 0 eb ea p a d) s =
          .next (after (withX (withQueue s k dir rest) d (e.2 (regX s a) (v.extractLsb' 0 64))) 4)) ∧
      (∀ v rest n, readableX s b → writableX s d → (neighbour k dir).isSome = true → q = .ready v :: rest →
        neighbour k (opposite dir) = some n →
        (queueFull s (me s).part n dir = false → exec (e.1 1 eb ea b p d) s = .next (after
          (withX (joinQueue (withQueue s k dir rest) (me s).part n dir (.flying v)) d (e.2 (v.extractLsb' 0 64) (regX s b))) 4)) ∧
        (queueFull s (me s).part n dir = true → exec (e.1 1 eb ea b p d) s = .next (waits s .link))) ∧
      (∀ id rest, readableX s b → writableX s d → (neighbour k dir).isSome = true → q = .reserved id :: rest →
        exec (e.1 0 eb ea b p d) s = .next (waits s .link)) ∧
      (readableX s b → writableX s d → (neighbour k dir).isSome = true → (q = [] ∨ ∃ v rest, q = .flying v :: rest) →
        exec (e.1 0 eb 0 b p d) s = .next (waits s .link) ∧
        exec (e.1 0 eb 1 b p d) s = .next (traps s cEMPTY (BitVec.ofNat 64 (28 + dir)) false)) ∧
      (∀ n, readableX s a → readableX s b → neighbour k dir = some n →
        (queueFull s (me s).part n (opposite dir) = false → exec (e.1 0 eb ea b a p) s = .next (after
          (joinQueue s (me s).part n (opposite dir) (.flying ((e.2 (regX s a) (regX s b)).setWidth 128))) 4)) ∧
        (queueFull s (me s).part n (opposite dir) = true → exec (e.1 0 eb ea b a p) s = .next (waits s .link)) ∧
        (heldSaved s (me s).part (coreBerth n) = false → (∀ e ∈ s.reqs, ∀ op h reg back, e.2.body ≠ .net op h reg back) →
          (queueFull s (me s).part n (opposite dir) = decide (4 ≤ (inQueue s n (opposite dir)).length)) ∧
          ∀ v, inQueue (joinQueue s (me s).part n (opposite dir) v) n (opposite dir) = inQueue s n (opposite dir) ++ [v])) ∧
      (neighbour k dir = none → exec (e.1 0 eb ea b p d) s = .next (traps s cNOLINK (BitVec.ofNat 64 dir) false) ∧
        (¬ isPort a → ¬ isPort b → exec (e.1 0 eb ea b a p) s = .next (traps s cNOLINK (BitVec.ofNat 64 dir) false))) ∧
      (¬ isPort b → ¬ isPort d → ¬ isPort a → a ≠ 0 → tabGet .full (me s).xs a.toNat = .empty →
        exec (e.1 0 eb 0 b a d) s = .next (waits s .empty) ∧
        exec (e.1 0 eb 1 b a d) s = .next (traps s cEMPTY (BitVec.ofNat 64 a.toNat) false))

/-- R8, R9, R160 to R168: when an instruction on scalar registers answers a next state and its context still runs, nothing but its
destination register, the pc, the flags and seed of a rounding instruction, the link queues and the event counters has changed; in
particular no byte of memory, no other context, no special register and no capability. -/
def Obligations.ScalarFrames : Prop :=
  ∀ (s t : State) (f eb ea : BitVec 1) (b a d : BitVec 5) (k12 : BitVec 12) (sh : BitVec 6) (k10 : BitVec 10) (i20 : BitVec 20),
    (me s).mode = .running →
    ∀ e ∈ (pairForms.map (fun e => (e.1 f eb ea b a d, d, false)) ++ [
      (Instr.clz f ea a d, d, false), (.ctz f ea a d, d, false), (.pop f ea a d, d, false), (.bins f eb ea b a d, d, false),
      (.addi k12 a d, d, false), (.andi k12 a d, d, false), (.ori k12 a d, d, false), (.xori k12 a d, d, false),
      (.slti k12 a d, d, false), (.sltiu k12 a d, d, false), (.slli sh a d, d, false), (.srli sh a d, d, false),
      (.srai sh a d, d, false), (.mini k10 a d, d, false), (.maxi k10 a d, d, false), (.minui k10 a d, d, false),
      (.maxui k10 a d, d, false), (.addiw k12 a d, d, false), (.lui i20 d, d, false),
      (.cMv b d, d, false), (.cLi sh d, d, false), (.cAddi sh d, d, false), (.cAdd b d, d, false), (.cSub b d, d, false),
      (.cAnd b d, d, false), (.cOr b d, d, false), (.cSlli sh d, d, false), (.cSrli sh d, d, false), (.cNop, 0, false),
      (.beq k12 b a, 0, false), (.bne k12 b a, 0, false), (.blt k12 b a, 0, false), (.bge k12 b a, 0, false),
      (.bltu k12 b a, 0, false), (.bgeu k12 b a, 0, false), (.cBeqz sh d, 0, false), (.cBnez sh d, 0, false),
      (.fadd f eb ea b a d, d, true), (.fsub f eb ea b a d, d, true), (.fmul f eb ea b a d, d, true), (.fmadd f eb ea b a d, d, true),
      (.fmin f eb ea b a d, d, true), (.fmax f eb ea b a d, d, true), (.fcmpEq f eb ea b a d, d, true),
      (.fcmpLt f eb ea b a d, d, true), (.fcmpLe f eb ea b a d, d, true), (.fcmpUn f eb ea b a d, d, true),
      (.fcvtLF f ea a d, d, true), (.fcvtLuF f ea a d, d, true), (.fcvtFL f ea a d, d, true), (.fcvtFLu f ea a d, d, true),
      (.fsgnj f eb ea b a d, d, false), (.fsgnjn f eb ea b a d, d, false), (.fsgnjx f eb ea b a d, d, false)] :
      List (Instr × BitVec 5 × Bool)),
    exec e.1 s = .next t → (me t).mode = .running →
      scalarsOnly s t e.2.1 ∧ (e.2.2 = false → (me t).fflags = (me s).fflags ∧ (me t).seed = (me s).seed)

/-! ### Control transfers and control registers -/

/-- R63, R169: each conditional branch goes where its condition says and changes nothing but the pc.
R63, R170, R176: jumps; an odd register target traps with ALIGN and writes no link. -/
def Obligations.ControlTransfers : Prop :=
  (∀ (s : State) (b a : BitVec 5), readableX s a → readableX s b →
     (∀ o : BitVec 12, ∀ e ∈ ([
       (Instr.beq, fun x y => decide (x = y)),
       (Instr.bne, fun x y => decide (x ≠ y)),
       (Instr.blt, fun x y => decide (x.toInt < y.toInt)),
       (Instr.bge, fun x y => decide (y.toInt ≤ x.toInt)),
       (Instr.bltu, fun x y => decide (x.toNat < y.toNat)),
       (Instr.bgeu, fun x y => decide (y.toNat ≤ x.toNat))] :
       List ((BitVec 12 → BitVec 5 → BitVec 5 → Instr) × (Dbl → Dbl → Bool))),
       exec (e.1 o b a) s = .next (if e.2 (regX s a) (regX s b) then afterJump s ((me s).pc + 2 * o.signExtend 64) else after s 4)) ∧
     ∀ o : BitVec 6,
       exec (.cBeqz o a) s = .next (if regX s a = 0 then afterJump s ((me s).pc + 2 * o.signExtend 64) else after s 2) ∧
       exec (.cBnez o a) s = .next (if regX s a = 0 then after s 2 else afterJump s ((me s).pc + 2 * o.signExtend 64))) ∧
  (∀ (s : State),
     (writableX s 26 → ∀ i : BitVec 25,
       exec (.jal i) s = .next (afterJump (withX s 26 ((me s).pc + 4)) ((me s).pc + 2 * i.signExtend 64))) ∧
     (∀ i : BitVec 11, exec (.cJ i) s = .next (afterJump s ((me s).pc + 2 * i.signExtend 64))) ∧
     (∀ (ea : BitVec 1) (k : BitVec 12) (a d : BitVec 5), readableX s a → writableX s d →
       let target := regX s a + k.signExtend 64
       exec (.jalr 0 ea k a d) s =
         if target.getLsbD 0 then .next (traps s cALIGN (BitVec.ofNat 64 (target.toNat % 2 ^ 48)) false)
         else .next (afterJump (withX s d ((me s).pc + 4)) target)) ∧
     (readableX s 26 →
       exec .cRet s =
         if (regX s 26).getLsbD 0 then .next (traps s cALIGN (BitVec.ofNat 64 ((regX s 26).toNat % 2 ^ 48)) false)
         else .next (afterJump s (regX s 26))))

/-- R172: `lcset` sets both counts; `loop` ends one pass: with nothing left it falls through and only clears the drain bit,
otherwise it takes one from the kernel count, or from the drain count once the kernel count is zero, rotates `krrb` down by one
modulo 32 and branches. -/
def Obligations.CountedLoops : Prop :=
  ∀ (s : State),
    (∀ (c : BitVec 8) (a : BitVec 5), readableX s a →
      exec (.lcset c a) s =
        .next (after (withMe s { me s with klc := (regX s a).extractLsb' 0 32, kec := c, drain := false }) 4)) ∧
    (∀ k : BitVec 12, exec (.loop k) s =
      if (me s).klc.toNat + (me s).kec.toNat = 0 then .next (after (withMe s { me s with drain := false }) 4)
      else
        let take := min (me s).klc.toNat 1
        .next (afterJump (withMe s { me s with
          klc := BitVec.ofNat 32 ((me s).klc.toNat - take)
          kec := BitVec.ofNat 8 ((me s).kec.toNat - (1 - take))
          drain := decide (take = 0)
          krrb := BitVec.ofNat 5 (((me s).krrb.toNat + 31) % 32) }) ((me s).pc + 2 * k.signExtend 64)))

/-- R173: `follow` does nothing on a context that follows or leads, on a core without a group, and on a leader alone in its berth; on a
leader with other cores of its group it opens a window; on another core of the leader's group it attaches to the leader's window at the
same `pcc` base and address within its 64 clk; without a window, after its 64 clk, at another base or address, and on a core whose group
is not the leader's it does nothing. -/
def Obligations.FollowAttaches : Prop :=
  ∀ s : State,
    let k := s.cur.core
    let c := s.cur.ctx
    let l := k / 4 * 4
    ((me s).follows.isSome = true ∨ (me s).leading = true → exec .follow s = .next (after s 4)) ∧
    ((me s).follows = none → (me s).leading = false → groupOf s k = none → exec .follow s = .next (after s 4)) ∧
    ((me s).follows = none → (me s).leading = false → k = l → groupOf s k ≠ none → followersOf s k ≠ [] →
      exec .follow s = .next (afterStay (withMe s { me s with window := some s.clk }))) ∧
    ((me s).follows = none → (me s).leading = false → k = l → groupOf s k ≠ none → followersOf s k = [] →
      exec .follow s = .next (after s 4)) ∧
    ((me s).follows = none → (me s).leading = false → k ≠ l → groupOf s k ≠ groupOf s l → exec .follow s = .next (after s 4)) ∧
    ((me s).follows = none → (me s).leading = false → k ≠ l → groupOf s k ≠ none → groupOf s k = groupOf s l →
      (∀ from_, (ctxOf s l c).window = some from_ → from_ + 64 ≤ s.clk ∨ capBase (ctxOf s l c).pcc ≠ capBase (me s).pcc ∨
        (ctxOf s l c).pc ≠ (me s).pc → exec .follow s = .next (after s 4)) ∧
      ((ctxOf s l c).window = none → exec .follow s = .next (after s 4)) ∧
      (∀ from_, (ctxOf s l c).window = some from_ → s.clk < from_ + 64 → capBase (ctxOf s l c).pcc = capBase (me s).pcc →
        (ctxOf s l c).pc = (me s).pc →
        ∃ t, exec .follow s = .next t ∧ (me t).follows = some l ∧ (ctxOf t l c).leading = true ∧ (me t).pc = (me s).pc + 4))

/-- R56, R57: `kread` of each control register that reads without waiting gives the value the map gives it; `kcycle` (0x060)
counts the clocks since the reset of the core's quay, its own last reset.
R5, R6, R56, R57: a write changes the RW fields of its register and nothing else; `kswap` also gives the old value; a write
of a register without RW fields changes nothing; a `kround` mode from 5 to 7 changes nothing and traps with ILLEGAL.
R374: the observation registers. A counter reads zero while its selector names a fabric or an unsupported event; a selector keeps its
mask, enable and event, and shows whether the event is one that a counter takes; a delay accumulator takes only a write of 0.
R58: `kcset` copies a capability register, tag included, into `kc.sa` or `kc.sb`, with no check.
Where the model reads the rules further than their words, it follows its own log entries 5, 48, 56. -/
def Obligations.ControlRegisters : Prop :=
  (∀ (s : State) (d : BitVec 5), writableX s d →
     (∀ e ∈ ([
       (0x000, BitVec.ofNat 64 ((me s).ch.toNat * 256 + boolBit (me s).rev1 * 128 +
         boolBit ((me s).follows.isSome || (me s).leading) * 64 +
         boolBit (holdsLease (berthOf s (myBerth s)).mat s.cur.core s.cur.ctx) * 32 + boolBit (me s).drain * 4 + s.cur.ctx)),
       (0x001, (me s).ktask), (0x002, BitVec.ofNat 64 s.cur.core), (0x003, (me s).kstage), (0x004, (me s).kgroup),
       (0x008, BitVec.ofNat 64 (me s).krrb.toNat), (0x009, BitVec.ofNat 64 (me s).klc.toNat),
       (0x00A, BitVec.ofNat 64 (me s).kec.toNat),
       (0x010, BitVec.ofNat 64 ((me s).rmode.toNat + (me s).seed.toNat * 2 ^ 32)),
       (0x012, BitVec.ofNat 64 (boolBit (me s).vtrap)),
       (0x030, BitVec.ofNat 64 (coreOf s s.cur.core).chmask.toNat), (0x031, BitVec.ofNat 64 (coreOf s s.cur.core).chprio.toNat),
       (0x050, BitVec.ofNat 64 (me s).ktrap.toNat), (0x051, (me s).ktdetail), (0x052, BitVec.ofNat 64 (me s).ktrpc.toNat),
       (0x060, BitVec.ofNat 64 (s.clk - (quayOf s (coreQuay s.cur.core)).resetAt))] : List (BitVec 12 × Dbl)),
       exec (.kread e.1 d) s = .next (after (withX s d e.2) 4)) ∧
     ((berthOf s (myBerth s)).sfuQ = [] → (berthOf s (myBerth s)).sfuRun = [] → (me s).sfuSaved = [] →
       exec (.kread 0x011 d) s = .next (after (withX s d (BitVec.ofNat 64 (me s).fflags.toNat)) 4)) ∧
     exec (.kread 0x061 d) s =
       .next (after (withX (setCore s s.cur.core { coreOf s s.cur.core with drop := 0 }) d
         (BitVec.ofNat 64 (coreOf s s.cur.core).drop.toNat)) 4) ∧
     exec (.kread 0x048 d) s = .next (after (withX (acquire s (myBerth s) 4) d (BitVec.ofNat 64 (me s).xf0.count.toNat)) 4) ∧
     exec (.kread 0x049 d) s = .next (after (withX (acquire s (myBerth s) 4) d (BitVec.ofNat 64 (me s).xf1.count.toNat)) 4)) ∧
  (∀ (s : State) (a d : BitVec 5), readableX s a →
     (∀ e ∈ ([
       (0x008, BitVec.ofNat 64 (me s).krrb.toNat, fun x v => { x with krrb := v.setWidth 5 }),
       (0x009, BitVec.ofNat 64 (me s).klc.toNat, fun x v => { x with klc := v.setWidth 32 }),
       (0x00A, BitVec.ofNat 64 (me s).kec.toNat, fun x v => { x with kec := v.setWidth 8 }),
       (0x012, BitVec.ofNat 64 (boolBit (me s).vtrap), fun x v => { x with vtrap := v.getLsbD 0 })] :
       List (BitVec 12 × Dbl × (Ctx → Dbl → Ctx))),
       exec (.kwrite e.1 a) s = .next (after (withMe s (e.2.2 (me s) (regX s a))) 4) ∧
       (writableX s d → exec (.kswap e.1 a d) s = .next (after (withX (withMe s (e.2.2 (me s) (regX s a))) d e.2.1) 4))) ∧
     exec (.kwrite 0x011 a) s = .next (after (withMe s { me s with fflags := (regX s a).setWidth 5 }) 4) ∧
     exec (.kwrite 0x010 a) s =
       (if (regX s a).toNat % 8 ≤ 4 then
         .next (after (withMe s { me s with rmode := (regX s a).setWidth 3, seed := (regX s a).extractLsb' 32 32 }) 4)
       else .next (traps s cILLEGAL (illegalDetail 4 false (encode (.kwrite 0x010 a))) false)) ∧
     exec (.kwrite 0x031 a) s =
       .next (after (setCore s s.cur.core { coreOf s s.cur.core with chprio := (regX s a).setWidth 32 }) 4) ∧
     exec (.kwrite 0x030 a) s = .next (after (setMask s s.cur.core ((regX s a).setWidth 16)) 4) ∧
     (writableX s d →
       ((berthOf s (myBerth s)).sfuQ = [] → (berthOf s (myBerth s)).sfuRun = [] → (me s).sfuSaved = [] →
         exec (.kswap 0x011 a d) s = .next (after (withX (withMe s { me s with fflags := (regX s a).setWidth 5 }) d
           (BitVec.ofNat 64 (me s).fflags.toNat)) 4)) ∧
       exec (.kswap 0x010 a d) s =
         (if (regX s a).toNat % 8 ≤ 4 then
           .next (after (withX (withMe s { me s with rmode := (regX s a).setWidth 3, seed := (regX s a).extractLsb' 32 32 }) d
             (BitVec.ofNat 64 ((me s).rmode.toNat + (me s).seed.toNat * 2 ^ 32))) 4)
         else .next (traps s cILLEGAL (illegalDetail 4 false (encode (.kswap 0x010 a d))) false)) ∧
       exec (.kswap 0x030 a d) s = .next (after (withX (setMask s s.cur.core ((regX s a).setWidth 16)) d
         (BitVec.ofNat 64 (coreOf s s.cur.core).chmask.toNat)) 4) ∧
       exec (.kswap 0x031 a d) s =
         .next (after (withX (setCore s s.cur.core { coreOf s s.cur.core with chprio := (regX s a).setWidth 32 }) d
           (BitVec.ofNat 64 (coreOf s s.cur.core).chprio.toNat)) 4)) ∧
     (∀ k ∈ ([0x000, 0x001, 0x002, 0x003, 0x004, 0x040, 0x048, 0x049, 0x050, 0x051, 0x052, 0x060, 0x061] : List (BitVec 12)),
       exec (.kwrite k a) s = .next (after s 4) ∧ exec (.kswap k a d) s = exec (.kread k d) s)) ∧
  (∀ (s : State) (a d : BitVec 5) (n : Nat), (0x100 ≤ n ∧ n < 0x110) ∨ (0x140 ≤ n ∧ n < 0x170) → readableX s a → writableX s d →
     let obs := (coreOf s s.cur.core).obs
     let sel := tabGet 0 obs (n + 8)
     let v := regX s a
     let e := v.toNat % 2 ^ 16
     let known := (1 ≤ e ∧ e ≤ 0xC) ∨ (0x100 ≤ e ∧ e ≤ 0x1FF)
     let old := if n < 0x108 ∧ (sel.getLsbD 17 = true ∨ 0x100 ≤ sel.toNat % 2 ^ 16) then 0 else tabGet 0 obs n
     let t :=
       if n < 0x108 then withObs s n (BitVec.ofNat 64 (v.toNat % 2 ^ 48))
       else if n < 0x110 then withObs s n ((v &&& 0xF1FFFF) ||| if known then 0 else 0x20000)
       else if v = 0 then withObs s n 0
       else s
     exec (.kread (BitVec.ofNat 12 n) d) s = .next (after (withX s d old) 4) ∧
     exec (.kwrite (BitVec.ofNat 12 n) a) s = .next (after t 4) ∧
     exec (.kswap (BitVec.ofNat 12 n) a d) s = .next (after (withX t d old) 4)) ∧
  (∀ (s : State) (a : BitVec 4), readableC s a →
     exec (.kcset a 0) s = .next (after (withMe s { me s with kcsa := regC s a }) 4) ∧
     exec (.kcset a 1) s = .next (after (withMe s { me s with kcsb := regC s a }) 4))

/-- R205: a read of `klease` gives held and the commands remaining, or the count requested, or zero. -/
def Obligations.LeaseCountReads : Prop :=
  ∀ (s : State) (d : BitVec 5), writableX s d →
    let m := (berthOf s (myBerth s)).mat
    let k := s.cur.core
    let c := s.cur.ctx
    (∀ l, m.lease = some l → l.core = k → l.ctx = c → l.left < 128 →
      exec (.kread 0x040 d) s = .next (after (withX s d (BitVec.ofNat 64 (2 ^ 7 + l.left))) 4)) ∧
    (∀ r, holdsLease m k c = false → m.reqs.find? (isLeaseReq k c) = some r →
      exec (.kread 0x040 d) s = .next (after (withX s d (BitVec.ofNat 64 r.n)) 4)) ∧
    (holdsLease m k c = false → m.reqs.find? (isLeaseReq k c) = none →
      exec (.kread 0x040 d) s = .next (after (withX s d 0) 4))

/-! ### Traps -/

/-- R345 to R351: a trap of a context that no producer keeps waiting and whose writes can be released: its trap sequence number advances;
`ktrap`, `ktdetail` and `ktrpc` take the cause, the detail and the address; it stops issuing; its writes are released at partition scope and
then its record is written to its place, 4,096 bytes with their tags (a double marked as a phase there stays, R281), while every other byte keeps what the release left there; and, unless the
trap goes to the partition manager, the message goes to the compartment's handler with the handle, the address with the cause, and the detail.
A failed walk parks the context, its record written as well. A context that still waits stops issuing at once and writes nothing.
Where the model reads the rules further than their words, it follows its own log entries 18, 19. -/
def Obligations.TrapEntry : Prop :=
  ∀ (s : State) (k c : Nat) (cause : BitVec 8) (detail : Dbl) (next : Bool), k < 512 →
    let x := ctxOf s k c
    let t := trapAt s k c cause detail next
    let y := ctxOf t k c
    let parks := cause = cPAGENR ∨ cause = cPAGEPERM
    (trapSettles s k c = false → y.mode = .trapping cause detail next ∧ t.mem = s.mem ∧ t.tags = s.tags) ∧
    (trapSettles s k c = true →
      y.seq = x.seq + 1 ∧ y.ktrap = cause ∧ y.ktdetail = detail ∧ y.ktrpc = x.pc.setWidth 48 ∧
      y.x = x.x ∧ y.v = x.v ∧ y.m = x.m ∧ y.c = x.c ∧ y.pc = x.pc ∧ y.pcc = x.pcc ∧
      (let u := release (suspendedFor s k c cause detail next) (coreBerth k) 4
       let z := ctxOf u k c
       let base := recordBase k c
       let nested := if parks then false else trapNested s k x
       let status := statusWord cause.toNat (x.seq + 1).toNat (otypeOf x) x.ch.toNat (if parks then 2 else 1) nested
       let bytes := recordBytes z status detail (BitVec.ofNat 64 (fieldOf x.pc 0 48)) (if next then x.pc + 4 else x.pc) z.leaseSaved.toNat
       t.mem = (putRecord u base z bytes).mem ∧ t.tags = (putRecord u base z bytes).tags ∧
       z.x = x.x ∧ z.v = x.v ∧ z.m = x.m ∧ z.c = x.c ∧ z.pcc = x.pcc ∧ z.frames = x.frames ∧ z.xs = x.xs ∧ z.ktask = x.ktask ∧
       (MemSafe s →
        ((∀ e ∈ u.phases, e.1 + 8 ≤ base ∨ base + 4096 ≤ e.1) → memRead t.mem base 4096 = padTo 4096 bytes) ∧
        (∀ a, a < base ∨ base + 4096 ≤ a → memByte t.mem a = memByte u.mem a) ∧
        ∀ g, g * 32 + 32 ≤ base ∨ base + 4096 ≤ g * 32 → (g ∈ t.tags ↔ g ∈ u.tags)))) ∧
    (trapSettles s k c = true → ¬ parks →
      y.mode = .trapped ∧
      (∀ e, trapNested s k x = false → compEntry s x.part (otypeOf x) = some e →
        ∃ f, t.mesh = s.mesh ++ [f] ∧
          f.words = [trapHandle k c (x.seq + 1), BitVec.ofNat 64 ((x.pc.setWidth 48).toNat + cause.toNat * 2 ^ 48), detail] ∧
          hdrDst f.header = (if e.getLsbD 14 then k else fieldOf e 0 9) ∧ hdrCh f.header = fieldOf e 10 4 ∧ hdrSrc f.header = k) ∧
      (trapNested s k x = true → t.mesh = s.mesh ∧ (tabGet Irq.reset t.glob.irq (32 * x.part + 6)).pend = true)) ∧
    (trapSettles s k c = true → parks → ∃ place, y.mode = .parked place ∧ t.mesh = s.mesh)

/-- R52, R61, R63, R64: an instruction whose fields break a rule traps with ILLEGAL, its detail naming the rule's reason, whether the
instruction is a 16-bit one, and its encoding; it does nothing else. -/
def Obligations.FieldRulesTrap : Prop :=
  ∀ (i : Instr) (s : State) (reason : BitVec 3), i.encoded = true → i.fieldFault = some reason →
    exec i s = .next (traps s cILLEGAL (illegalDetail reason i.short (encode i)) false)

/-- R352: `svc` traps with SVC and detail n, resuming at the next instruction; `brk` and `halt` halt the berth when its debug
module is set for them, and otherwise trap with BREAK, `halt` with detail bit 12 set.
R353: `tret` and `tdrop` release at partition scope and send their command, with xd waiting for the status, once every earlier
access has performed; a handle with a nonzero zero-field traps with ILLEGAL, reason 4.
R353: a core that runs the partition checks a `tret` or `tdrop` command: status 0 resumes or ends the trapped task, 1, 4 or 6 change
nothing, and nothing of it happens while the berth is halted (R370); a core that runs something else answers 2, or 5 and keeps the command while the partition is saved there; the status fills the
issuer's register.
Where the model reads the rules further than their words, it follows its own log entry 19. -/
def Obligations.TrapInstructions : Prop :=
  (∀ (s : State) (n : BitVec 12),
     exec (.svc n) s = .next (traps s cSVC (BitVec.ofNat 64 n.toNat) true) ∧
     exec (.brk n) s =
       (if (berthOf s (myBerth s)).dbg.ctl.getLsbD 3 then .next (after (haltBerth s (myBerth s) 2 s.cur.core s.cur.ctx) 4)
       else .next (traps s cBREAK (BitVec.ofNat 64 n.toNat) true)) ∧
     exec .halt s =
       (if (berthOf s (myBerth s)).dbg.ctl.getLsbD 2 then .next (after (haltBerth s (myBerth s) 3 s.cur.core s.cur.ctx) 4)
       else .next (traps s cBREAK 0x1000 true))) ∧
  (∀ (s : State) (a d : BitVec 5), readableX s a → writableX s d →
     ∀ e ∈ ([(Instr.tret, false), (Instr.tdrop, true)] : List ((BitVec 5 → BitVec 5 → Instr) × Bool)),
       let h := regX s a
       let t := release s (myBerth s) 4
       (fieldOf h 11 5 = 0 ∧ fieldOf h 32 32 = 0 → outstanding s s.cur.core s.cur.ctx = false → accessesDone s →
         releaseReady s (myBerth s) 4 = true → exec (e.1 a d) s =
           .next (after (sent (emptyX t d) (destX d) (capOtype (regC s 14)) (.resume h e.2)) 4)) ∧
       (¬ (fieldOf h 11 5 = 0 ∧ fieldOf h 32 32 = 0) →
         exec (e.1 a d) s = .next (traps s cILLEGAL (illegalDetail 4 false (encode (e.1 a d))) false))) ∧
  (∀ (s : State) (req : Nat) (r : Req) (h : Dbl) (drop : Bool), tabFind? s.reqs req = some r → r.body = .resume h drop →
     let i : Instr := if drop then .tdropCommandServe req else .tretCommandServe req
     let k := handleCore h
     let st := commandStatus s h r.addr.toNat drop
     (r.reply = none → r.held = false → crossingHeld s r.part (coreQuay r.core) (coreQuay k) = false →
       (coreRuns s k r.part = true → (berthOf s (coreBerth k)).dbg.halted = false →
         (st = 0 → drop = true → (ctxOf s k (handleCtx h)).netTask.isSome = true → releaseReady s (coreBerth k) 4 = true) →
         (∀ e ∈ s.reqs, ∀ g d, e.1 < req → e.2.held = true → e.2.reply = none → e.2.part = r.part → e.2.body = .resume g d → handleCore g ≠ k) →
         exec i s = .next (answered (if st = 0 then (if drop then dropTask s k (handleCtx h) else resume s k (handleCtx h)) else s) req r
           (.value (BitVec.ofNat 64 st)))) ∧
       (coreRuns s k r.part = true → (berthOf s (coreBerth k)).dbg.halted = true → exec i s = .next s) ∧
       (coreRuns s k r.part = false → coreHolds s k r.part = false → exec i s = .next (answered s req r (.value 2))) ∧
       (coreRuns s k r.part = false → coreHolds s k r.part = true →
         exec i s = .next { s with reqs := tabPut s.reqs req { r with reply := some (.value 5), held := true } })) ∧
     (∀ v n, r.reply = some (.value v) → r.held = false → r.dst = .x n → taskGone s r = false →
       exec (.tretStatusDelivery req) s = .next (setCtx (withoutReq s req) r.core r.ctx (putX (ctxOf s r.core r.ctx) n v))))

/-! ### Memory -/

/-- R80, R82, R83: a scalar load whose access passes every check sends its request and leaves xd waiting; nothing else of the
context changes.
R54, R83, R85, R86: the delivery of a load or of a capability load performs it, counts the lines that
the L1 lacked, and fills the register that waits, scalar, vector or capability, or the entry of the neighbour's queue that the load reserved.
Where the model reads the rules further than their words, it follows its own log entries 5, 15, 41. -/
def Obligations.Loads : Prop :=
  (∀ (s t : State) (eb ea : BitVec 1) (j i : BitVec 5) (c : BitVec 4) (d : BitVec 5) (bit w : Nat) (ps : List Piece),
     readableX s i → readableX s j → readableC s c →
     ∀ e ∈ ([(Instr.ldB, 8, true), (Instr.ldBu, 8, false), (Instr.ldH, 16, true), (Instr.ldHu, 16, false),
         (Instr.ldW, 32, true), (Instr.ldWu, 32, false), (Instr.ldD, 64, false)] :
         List ((BitVec 1 → BitVec 1 → BitVec 1 → BitVec 5 → BitVec 5 → BitVec 4 → BitVec 5 → Instr) × Nat × Bool)),
       capAccess (myBerth s) (regC s c) c.toNat 0 pL (tuple (regX s i) (regX s j)) e.2.1 = .ok (bit, w) →
       unwatched s 0 [bitsBytes bit w] → herePieces 0 bit w s = .ok (ps, t) → unhindered t ps false → writableX t d →
       exec (e.1 0 eb ea j i c d) s = .next (after (sent (emptyX t d) (destX d) (bit / 8) (.load ps e.2.2)) 4)) ∧
  (∀ (s : State) (req : Nat) (r : Req), tabFind? s.reqs req = some r → taskGone s r = false →
     (∀ ps signed n, r.body = .load ps signed → r.dst = .x n → firstOfOverlap s req r = true → recalled s ps = false →
       bandHeld s (coreBerth r.core) r.part ps = false →
       ((ctxOf s r.core r.ctx).rev1 = true → piecesReady s (coreBerth r.core) ps = true) →
       (∀ p ∈ ps, unreadable s (coreBerth r.core) p = false) →
       let u := readPieces (countMisses (withoutReq s req) r.core r.ctx ps) (coreBerth r.core) (ctxOf s r.core r.ctx).rev1 ps
       let w := (ps.map (·.width)).sum
       let v := if signed then wrapInt (signedNat u.1 w) 64 else u.1
       exec (.loadDelivery req) s =
         .next (setCtx u.2 r.core r.ctx (putX (ctxOf u.2 r.core r.ctx) n (BitVec.ofNat 64 v)))) ∧
     (∀ ps signed, r.body = .load ps signed → firstOfOverlap s req r = true → recalled s ps = false →
       bandHeld s (coreBerth r.core) r.part ps = false →
       ((ctxOf s r.core r.ctx).rev1 = true → piecesReady s (coreBerth r.core) ps = true) →
       (∀ p ∈ ps, unreadable s (coreBerth r.core) p = false) →
       let u := readPieces (countMisses (withoutReq s req) r.core r.ctx ps) (coreBerth r.core) (ctxOf s r.core r.ctx).rev1 ps
       let w := (ps.map (·.width)).sum
       let v : Quad := BitVec.ofNat 128 (if signed then wrapInt (signedNat u.1 w) 64 else u.1)
       (∀ n, r.dst = .v n → exec (.loadDelivery req) s =
         .next (setCtx u.2 r.core r.ctx (putV (ctxOf u.2 r.core r.ctx) n v))) ∧
       (∀ dir vec n, r.dst = .port dir vec → neighbour r.core dir = some n → exec (.loadDelivery req) s =
         .next (fillEntry u.2 n (linkKey (opposite dir) vec) req (.ready v)))) ∧
     (∀ p keep n, r.body = .clc p keep → r.dst = .c n → firstOfOverlap s req r = true → recalled s [p] = false →
       bandHeld s (coreBerth r.core) r.part [p] = false → piecesReady s (coreBerth r.core) [p] = true →
       mapHeld s r.part (readGranule s (coreBerth r.core) p).1 = false → unreadable s (coreBerth r.core) p = false →
       let u := readGranule (countMisses (withoutReq s req) r.core r.ctx [p]) (coreBerth r.core) p
       let b := barrier u.2 r.part (if keep then u.1 else capUntag u.1)
       exec (.clcDelivery req) s = .next (setCtx b.2 r.core r.ctx (putC (ctxOf b.2 r.core r.ctx) n b.1))))

/-- R80, R82, R83, R281: a scalar store whose access passes every check writes the low bits of xd to the bytes of its element; when
the line holds a phase mark it goes to the owner and the context waits.
Where the model reads the rules further than their words, it follows its own log entries 15, 16. -/
def Obligations.StoresWrite : Prop :=
  ∀ (s t : State) (eb ea : BitVec 1) (j i : BitVec 5) (c : BitVec 4) (d : BitVec 5) (bit w : Nat) (ps : List Piece),
    readableX s i → readableX s j → readableC s c → readableX s d →
    ∀ e ∈ ([(Instr.stB, 8), (Instr.stH, 16), (Instr.stW, 32), (Instr.stD, 64)] :
        List ((BitVec 1 → BitVec 1 → BitVec 1 → BitVec 5 → BitVec 5 → BitVec 4 → BitVec 5 → Instr) × Nat)),
      capAccess (myBerth s) (regC s c) c.toNat 0 pS (tuple (regX s i) (regX s j)) e.2 = .ok (bit, w) →
      unwatched s 1 [bitsBytes bit w] → herePieces 1 bit w s = .ok (ps, t) → unhindered t ps true →
      let ws := pieceValues ps (regX s d).toNat bit
      ((ws.any fun x => lineMarked t x.1) = false → homeServed t (homePieces t (ws.map (·.1)) none)) →
      exec (e.1 0 eb ea j i c d) s =
        if ws.any fun x => lineMarked t x.1 then
          let u := sent t .none (bit / 8) (.store ws none [])
          .next (afterStay (withMe u { me u with mode := .waiting t.nextReq }))
        else .next (after (ws.foldl (fun u x => writePiece u (myBerth t) (me t).rev1 x.1 x.2.1) t) 4)

/-- R83, R84, R230, R245: where a store's bytes go. A piece of a window or of an L2-direct unit is written at its storage; whole bytes of
translated memory are written in the berth's L1 in ordering revision 2, where no other agent sees them before a release: neither memory nor a
quay's L2 changes while the L1 has room for the line; a full L1 passes them on to the L2. In ordering revision 1, and where part of a byte is
written, they reach the home, after what the berth had written to the line: the piece holds the value there, and every other byte of memory is
what those earlier writes leave. Every byte outside the piece reads as before, and an access to a window translates to itself and changes
nothing.
Where the model reads the rules further than their words, it follows its own log entries 15, 16. -/
def Obligations.StoreFrames : Prop :=
  ∀ (s : State) (b v : Nat) (rev1 : Bool) (p : Piece), MemSafe s →
    let t := writePiece s b rev1 p v
    let line := p.key / 64
    let whole := p.bit = 0 ∧ p.width % 8 = 0
    let inLine := p.key % 64 + pieceBytes p ≤ 64
    let room := lineFits (berthOf s b).l1 line l1Lines = true
    (p.cached = false →
      (∀ a, ¬ inPiece p a → memByte t.mem a = memByte s.mem a) ∧ t.berths = s.berths ∧ t.cores = s.cores ∧
      (∀ g ∈ t.tags, g ∈ s.tags) ∧ (0 < p.width → (readPiece t b rev1 p).1 = v % 2 ^ p.width)) ∧
    (p.cached = true → rev1 = false → whole → inLine →
      t.cores = s.cores ∧ (∀ o, o ≠ b → berthOf t o = berthOf s o) ∧ (∀ a, ¬ inPiece p a → seenByte t b a = seenByte s b a) ∧
      (room → t.mem = s.mem ∧ t.tags = s.tags ∧ t.quays = s.quays ∧ (readPiece t b rev1 p).1 = v % 2 ^ p.width) ∧
      (¬ room → t.berths = s.berths ∧ ∀ a, ¬ inPiece p a → memByte t.mem a = memByte s.mem a)) ∧
    (p.cached = true → (rev1 = true ∨ ¬ whole) →
      (∀ a, ¬ inPiece p a → memByte t.mem a = releasedByte s b line a) ∧
      (∀ g ∈ t.tags, g ∈ s.tags) ∧ t.cores = s.cores ∧ (∀ o, o ≠ b → berthOf t o = berthOf s o) ∧
      bitsAt (natOfBytes (memRead t.mem p.key (pieceBytes p))) p.bit p.width = v % 2 ^ p.width ∧
      (inLine → 0 < p.width → (readPiece t b rev1 p).1 = v % 2 ^ p.width)) ∧
    (∀ (kind bit w : Nat) (ps : List Piece) (u : State), w ≤ 512 → isTranslated (bit / 8) = false →
      isTranslated ((bit + min w (512 - bit % 512)) / 8) = false → herePieces kind bit w s = .ok (ps, u) → u = s)

/-- R85: the vector loads and stores, whose element accesses all pass their checks, along dimension 0 or, strided, 1.
Where the model reads the rules further than their words, it follows its own log entries 15, 16. -/
def Obligations.VectorAccesses : Prop :=
  ∀ (s t : State) (j i : BitVec 5) (c : BitVec 4) (v : BitVec 6) (as_ : List Nat) (w : Nat),
    readableX s i → readableX s j → readableC s c →
    ∀ e ∈ ([(Instr.ldv, Instr.stv, false), (Instr.ldvS, Instr.stvS, true)] :
        List ((BitVec 5 → BitVec 5 → BitVec 4 → BitVec 6 → Instr) × (BitVec 5 → BitVec 5 → BitVec 4 → BitVec 6 → Instr) × Bool)),
      (∀ ps, vecAccess (myBerth s) (regC s c) c.toNat pL (tuple (regX s i) (regX s j)) e.2.2 = .ok (as_, w) →
        unwatched s 0 (as_.map fun a => bitsBytes a w) → collect (fun a => herePieces 0 a w) as_ s = .ok (ps, t) →
        unhindered t ps.flatten false → writableV t v →
        exec (e.1 j i c v) s =
          .next (after (sent (emptyV t v) (destV t v) (as_.headD 0 / 8) (.load ps.flatten false)) 4)) ∧
      (∀ ws, readableV s v →
        vecAccess (myBerth s) (regC s c) c.toNat pS (tuple (regX s i) (regX s j)) e.2.2 = .ok (as_, w) →
        unwatched s 1 (as_.map fun a => bitsBytes a w) →
        collect (fun (a : Nat × Nat) => do
          let p ← herePieces 1 a.1 w
          pure (pieceValues p (elemOf (regV s v).toNat w a.2) a.1)) as_.zipIdx s = .ok (ws, t) →
        unhindered t (ws.flatten.map (·.1)) true → (ws.flatten.any fun x => lineMarked t x.1) = false →
        homeServed t (homePieces t (ws.flatten.map (·.1)) none) →
        exec (e.2.1 j i c v) s =
          .next (after (ws.flatten.foldl (fun u x => writePiece u (myBerth t) (me t).rev1 x.1 x.2.1) t) 4))

/-- R86, R87: through a capability of capabilities, `clc` asks for a granule with its tag and `csc` writes a granule and its tag as one, a tagged value only through a
capability with SC (otherwise it traps with CAP_PERM) and into a region its scope reaches (otherwise with CAP_SCOPE); `ctag` reads the tag,
and no earlier access of its context to the granule is passed.
Where the model reads the rules further than their words, it follows its own log entries 5, 23, 62. -/
def Obligations.CapabilityAccesses : Prop :=
  ∀ (s t : State) (eb ea : BitVec 1) (j i : BitVec 5) (c : BitVec 4) (bit w : Nat) (p : Phys),
    readableX s i → readableX s j → readableC s c →
    (∀ d : BitVec 4, granuleAccess (myBerth s) (regC s c) c.toNat pL (tuple (regX s i) (regX s j)) = .ok (bit, w) →
      unwatched s 0 [(bit / 8, 32)] → translate (myBerth s) (me s).part (bit / 8) 0 false s = .ok (p, t) →
      unhindered t [⟨p.key, 0, 256, p.cached⟩] false → writableC t d →
      exec (.clc 0 eb ea j i c d) s =
        .next (after (sent (emptyC t d) (destC d) (bit / 8)
          (.clc ⟨p.key, 0, 256, p.cached⟩ (capHas (regC s c) pLC && p.tagOk))) 4)) ∧
    (∀ d : BitVec 4, readableC s d →
      granuleAccess (myBerth s) (regC s c) c.toNat pS (tuple (regX s i) (regX s j)) = .ok (bit, w) →
      ((regC s d).tag = true → capHas (regC s c) pSC = true ∧ regionScope (bit / 8) ≤ capScope (regC s d)) →
      unwatched s 1 [(bit / 8, 32)] →
      translate (myBerth s) (me s).part (bit / 8) (if (regC s d).tag then 3 else 1) false s = .ok (p, t) →
      unhindered t [⟨p.key, 0, 256, p.cached⟩] true → lineMarked t ⟨p.key, 0, 256, p.cached⟩ = false →
      homeServed t (homePieces t [⟨p.key, 0, 256, p.cached⟩] (some (regC s d))) →
      exec (.csc 0 eb ea j i c d) s = .next (after (writeGranule t (myBerth t) ⟨p.key, 0, 256, p.cached⟩ (regC s d)) 4)) ∧
    (∀ d : BitVec 4, readableC s d → (regC s d).tag = true →
      granuleAccess (myBerth s) (regC s c) c.toNat pS (tuple (regX s i) (regX s j)) = .ok (bit, w) →
      (capHas (regC s c) pSC = false → exec (.csc 0 eb ea j i c d) s = .next (traps s cPERM (det 3 c.toNat 0 0 pSC) false)) ∧
      (capHas (regC s c) pSC = true → capScope (regC s d) < regionScope (bit / 8) → exec (.csc 0 eb ea j i c d) s =
        .next (traps s cSCOPE (det 9 c.toNat 0 0 (capScope (regC s d) + 256 * regionScope (bit / 8))) false))) ∧
    (∀ d : BitVec 5, capAccess (myBerth s) (regC s c) c.toNat 0 pL (tuple (regX s i) (regX s j)) 0 = .ok (bit, w) →
      unwatched s 0 [(bit / 8, 1)] → translate (myBerth s) (me s).part (bit / 8) 0 false s = .ok (p, t) →
      let g : Piece := ⟨p.key / 32 * 32, 0, 256, p.cached⟩
      unhindered t [g] false → ownConflict t t.cur.core t.cur.ctx g true = false → homeServed t [g] →
      let u := countMisses t t.cur.core t.cur.ctx [⟨p.key, 0, 8, p.cached⟩]
      let u := if p.cached then syncHome u (myBerth t) (p.key / 64) else u
      writableX u d → exec (.ctag 0 eb ea j i c d) s =
        .next (after (withX u d (if p.tagOk && tagAt u p.key then 1 else 0)) 4))

/-- R237, R238, R241, R243: `fence` waits for the context's accesses and then releases, acquires or both at its scope, a release waiting
for the copies that own a line it writes back; `dcfence` joins the two
views of every block of a capability's box, between a release and an acquire at partition scope, and counts the blocks that both had
written; it waits while a block's bytes are not to be had.
Where the model reads the rules further than their words, it follows its own log entries 15, 23, 60. -/
def Obligations.FencesOrder : Prop :=
  ∀ s : State, accessesDone s →
    (∀ sel : BitVec 3, sel.toNat < 6 →
      exec (.fence sel 1) s = .next (after (acquire s (myBerth s) sel.toNat) 4) ∧
      (releaseReady s (myBerth s) sel.toNat = true →
        exec (.fence sel 2) s = .next (after (release s (myBerth s) sel.toNat) 4) ∧
        exec (.fence sel 3) s = .next (after (acquire (release s (myBerth s) sel.toNat) (myBerth s) sel.toNat) 4)) ∧
      (releaseReady s (myBerth s) sel.toNat = false → exec (.fence sel 2) s = .next (waits s .other))) ∧
    (∀ (a : BitVec 4) (d : BitVec 5) (e : Nat), readableC s a → writableX s d → (regC s a).tag = true →
      capSealed (regC s a) = false → capHas (regC s a) pL = true → isTranslated (capBase (regC s a)) = true →
      elemBits (capFmt (regC s a)) = some e →
      let r := boxRange (regC s a) e
      r.2 - r.1 < 2 ^ 24 → releaseReady s (myBerth s) 4 = true →
      let joined := joinRange (myBerth s) (me s).part ((List.range (r.2 / 256 + 1 - r.1 / 256)).map (· + r.1 / 256))
        (release s (myBerth s) 4)
      (∀ n t, joined = .ok (n, t) →
        exec (.dcfence a d) s = .next (after (withX (acquire t (myBerth s) 4) d (BitVec.ofNat 64 n)) 4)) ∧
      (joined = .error (.stall .other) → exec (.dcfence a d) s = .next (waits s .other)))

/-! ### Capabilities -/

/-- R88 to R91: a derivation from a tagged, unsealed capability with the permission it needs and no reserved operand bit, whose own
check passes, writes the derived capability, tagged, to cd and nothing else; where a check fails it traps with the check's cause and
detail and writes nothing. That a slice's CAP_WIDEN check comes before its byte-start check is the model's choice (log entry 62).
R92, R93, R102: a field read, a move, a seal and an unseal. A seal needs a tagged, unsealed authority with K and a tagged,
unsealed capability; an unseal needs such an authority of the capability's own sealing type.
Where the model reads the rules further than their words, it follows its own log entries 24, 62. -/
def Obligations.CapabilityInstructions : Prop :=
  (∀ (s : State) (eb : BitVec 1) (b : BitVec 5) (a d : BitVec 4), readableX s b → readableC s a → writableC s d →
     ∀ e ∈ ([
       (Instr.cslice, true, 2 ^ 41 - 1 - 2 ^ 3, fun c r v =>
         sliceCap c r v.toNat (fieldOf v 0 2) (v.getLsbD 2) (fieldOf v 4 18) (fieldOf v 22 19)),
       (Instr.cstep, true, 2 ^ 26 - 1, stepCap),
       (Instr.cperm, true, 2 ^ 8 - 1, permCap),
       (Instr.cfold, true, 2 ^ 22 - 1, fun c r v =>
         if v.getLsbD 2 = false ∧ fieldOf v 3 19 ≠ 0 then .error (cILLEGAL, v) else foldCap c r v),
       (Instr.crestrict, false, 2 ^ 8 - 1, fun c _ v => .ok (capSetPerm c (capPerm c &&& v.toNat % 256))),
       (Instr.cscope, true, 2 ^ 3 - 1, scopeCap),
       (Instr.cfmt, true, 2 ^ 6 - 1, fmtCap)] :
       List ((BitVec 1 → BitVec 1 → BitVec 5 → BitVec 4 → BitVec 4 → Instr) × Bool × Nat × (Cap → Nat → Dbl → Chk Cap))),
       exec (e.1 0 eb b a d) s =
         match deriveCheck (regC s a) a.toNat e.2.1 (regX s b) e.2.2.1, e.2.2.2 (regC s a) a.toNat (regX s b) with
         | .ok (), .ok r => .next (after (withC s d { r with tag := true }) 4)
         | .ok (), .error (cause, detail) => .next (traps s cause detail false)
         | .error (cause, detail), _ => .next (traps s cause detail false)) ∧
  (∀ (s : State) (b a : BitVec 4), readableC s a →
     (∀ (n d : BitVec 5), n.toNat < 16 → writableX s d →
       exec (.cget n a d) s = .next (after (withX s d (BitVec.ofNat 64 (capGet (regC s a) n.toNat))) 4)) ∧
     (∀ d : BitVec 4, writableC s d → exec (.cmove a d) s = .next (after (withC s d (regC s a)) 4)) ∧
     (∀ d : BitVec 4, writableC s d → readableC s b →
       (regC s b).tag = true → capSealed (regC s b) = false → capHas (regC s b) pK = true → (regC s a).tag = true →
       (capSealed (regC s a) = false →
         exec (.cseal b a d) s =
           .next (after (withC s d (capSet (capSet (regC s a) 235 1 1) 236 12 (capOtype (regC s b)))) 4)) ∧
       (capSealed (regC s a) = true → capFmt (regC s a) ≠ fTOKEN → capOtype (regC s a) = capOtype (regC s b) →
         exec (.cunseal b a d) s = .next (after (withC s d (capSet (regC s a) 235 1 0)) 4))))

/-- R98 to R101, R244: a call through a sealed pair pushes a frame, gives the callee the code and data it unseals, a token in c15 and
the n arguments, and clears every other capability register; a return through that token restores what the frame saved.
Where the model reads the rules further than their words, it follows its own log entries 19, 62. -/
def Obligations.CallsAndReturns : Prop :=
  ∀ (s : State) (n : BitVec 5), n.toNat < 12 → settledHere s →
    (∀ a b : BitVec 4, readableC s a → readableC s b → readableC s 14 → readableC s 15 →
      (regC s a).tag = true → (regC s b).tag = true → capSealed (regC s a) = true → capSealed (regC s b) = true → capFmt (regC s a) ≠ fTOKEN → capFmt (regC s b) ≠ fTOKEN →
      capOtype (regC s a) = capOtype (regC s b) → capHas (regC s a) pX = true → (me s).frames.length < 8 →
      (capFmt (regC s a) = fN8 → (me s).rev1 = false → releaseReady s (myBerth s) 3 = true) →
      let code := capSet (regC s a) 235 1 0
      let nonce := (me s).nonce + 1
      let x := { keepArgs (me s) n.toNat with
        nonce := nonce
        frames := (me s).frames ++
          [⟨(me s).pcc, (me s).pc + 4, regC s 14, regC s 15, nonce⟩] }
      let y := putC (putC x 14 (capSet (regC s b) 235 1 0)) 15
        (tokenCap nonce.toNat ((me s).frames.length + 1) s.cur.core s.cur.ctx)
      let pc := BitVec.ofNat 64 (capBase code)
      exec (.ccall b a n) s = .next (afterJump (installPcc (withMe s y) s.cur.core s.cur.ctx code pc) pc)) ∧
    (∀ f : Frame, (me s).frames.getLast? = some f → readableC s 15 → (regC s 15).tag = true → capSealed (regC s 15) = true →
      capFmt (regC s 15) = fTOKEN → bitsAt (capBase (regC s 15)) 0 32 = f.nonce.toNat →
      bitsAt (capBase (regC s 15)) 32 4 = (me s).frames.length → bitsAt (capBase (regC s 15)) 36 9 = s.cur.core →
      bitsAt (capBase (regC s 15)) 45 2 = s.cur.ctx →
      (capFmt f.pcc = fN8 → (me s).rev1 = false → releaseReady s (myBerth s) 3 = true) →
      let y := putC (putC { keepArgs (me s) n.toNat with frames := (me s).frames.dropLast } 14 f.root) 15 f.ret
      exec (.cret n) s = .next (afterJump (installPcc (withMe s y) s.cur.core s.cur.ctx f.pcc f.rpc) f.rpc))

/-- R105 to R113: a requested sweep of a heap advances begun; then, stage by stage, revoked capabilities lose their tags in the registers,
frames, shadow registers, channel bindings and inboxes of the partition and in what its cores have sent, in its local stores and A buffers, and
in memory, where no byte changes; the later stages look once more where the earlier ones did (log entry 42); at its end ended equals begun and the
writes of revocation registers that waited apply.
Where the model reads the rules further than their words, it follows its own log entry 42. -/
def Obligations.SweepsClear : Prop :=
  ∀ (s : State) (part : Nat),
    let p := partOf s part
    let localTag := fun (g : Nat) => (windowOf (g * 32) = 0xC ∨ windowOf (g * 32) = 0xD) ∧ isL2Key (g * 32) = false ∧
      (berthOf s (winBerth (g * 32))).holds = some part
    let seen := heldCaps s part ++ lighterCaps s part
    (sweeping p.dr = false → p.dr.pend = true → fieldOf p.dr.size 0 28 ≠ 0 → counterHeld s part = false →
      mapsHeld s part (lighterCaps s part) = false →
      ∃ t, exec (.sweepStart part) s = .next t ∧ (partOf t part).dr.begun = p.dr.begun + 1 ∧ (partOf t part).dr.ended = p.dr.ended ∧
        (partOf t part).dr.pend = false ∧ (partOf t part).dr.stage = 3) ∧
    (sweeping p.dr = true → p.dr.stage = 3 → mapsHeld s part seen = false →
      ∃ t, exec (.sweepRegisters part) s = .next t ∧ (partOf t part).dr.stage = 4 ∧ heldSwept s t part ∧ t.mem = s.mem ∧ t.tags = s.tags) ∧
    (sweeping p.dr = true → p.dr.stage = 4 → mapsHeld s part (seen ++ tagCaps s (localGranule s part)) = false →
      ∃ t, exec (.sweepLocalStores part) s = .next t ∧ (partOf t part).dr.stage = 5 ∧ heldSwept s t part ∧ t.mem = s.mem ∧
        ∀ g, g ∈ t.tags ↔ g ∈ s.tags ∧ ¬ (localTag g ∧ isRevoked s part (granCap s g) = true)) ∧
    (let pick := fun (t : Nat) => localGranule s part t || (decide (t * 32 < extEnd) && inGrants p (t * 32) 32)
     sweeping p.dr = true → p.dr.stage = 5 → mapsHeld s part (seen ++ tagCaps s pick ++ imageCaps s part ++ keptCaps s part) = false →
      (∀ t ∈ s.tags, pick t = true → t * 32 < extEnd → unitWaits s part (t * 32) 32 false = false) →
      ∃ t, exec (.sweepMemory part) s = .next t ∧ (partOf t part).dr.stage = 6 ∧ heldSwept s t part ∧ t.mem = s.mem ∧
        ∀ g, g ∈ t.tags ↔ g ∈ s.tags ∧
          ¬ ((localTag g ∨ (g * 32 < extEnd ∧ inGrants p (g * 32) 32 = true)) ∧ isRevoked s part (granCap s g) = true)) ∧
    (sweeping p.dr = true → p.dr.stage = 6 →
      (∀ b ∈ s.berths, ∀ c ∈ b.2.mat.queue, ¬ (c.fn = 5 ∧ c.part = part ∧ c.issued ≤ p.dr.startedAt)) →
      cachesReady s = true → counterHeld s part = false → mapsHeld s part (lighterCaps s part) = false →
      ∃ t, exec (.sweepEnd part) s = .next t ∧ (partOf t part).dr.ended = p.dr.begun ∧ (partOf t part).dr.begun = p.dr.begun ∧
        (partOf t part).dr.stage = 0 ∧ (partOf t part).dr.deferred = [] ∧
        (partOf t part).dr.heap = (p.dr.deferred.foldl (fun d e => setDredger d e.1 e.2) p.dr).heap ∧
        (partOf t part).dr.size = (p.dr.deferred.foldl (fun d e => setDredger d e.1 e.2) p.dr).size ∧
        (partOf t part).dr.map = (p.dr.deferred.foldl (fun d e => setDredger d e.1 e.2) p.dr).map) ∧
    (∀ off v,
      (off = 0x08 → 0x8000000 < fieldOf v 0 28 →
        exec (.dredgerRegisterWrite part off v) s = .next { s with glob := { s.glob with pmErr := true } }) ∧
      (off ∈ [0x00, 0x08, 0x10, 0x18] → (off = 0x08 → fieldOf v 0 28 ≤ 0x8000000) →
        exec (.dredgerRegisterWrite part off v) s = .next (setPart s part { p with
          dr := if sweeping p.dr then { p.dr with deferred := p.dr.deferred ++ [(off, v)] } else setDredger p.dr off v })))

/-! ### Messages and tasks -/

/-- R248, R249: a send form whose message can leave puts it into the send queue of its network and completes. The first three name the
network; the next four set the destination to the neighbour in a direction.
Where the model reads the rules further than their words, it follows its own log entry 31. -/
def Obligations.SendsQueue : Prop :=
  ∀ (s : State) (eb ea : BitVec 1) (b a : BitVec 5) (d : BitVec 4), readableX s a →
    (∀ e ∈ ([(Instr.sendRq, 0), (Instr.sendRp, 1), (Instr.sendSy, 2)] :
        List ((BitVec 1 → BitVec 1 → BitVec 1 → BitVec 5 → BitVec 5 → BitVec 4 → Instr) × Nat)),
      let h := setField (regX s a) 14 2 e.2
      sendable s h d → blockReady s b (payloadCount h) →
      exec (e.1 0 eb ea b a d) s = .next (after (queued s (sentMessage s h (blockWords s b (payloadCount h)) d)) 4)) ∧
    (∀ e ∈ ([(Instr.sendnN, 0), (Instr.sendnE, 1), (Instr.sendnS, 2), (Instr.sendnW, 3)] :
        List ((BitVec 1 → BitVec 1 → BitVec 1 → BitVec 5 → BitVec 5 → BitVec 4 → Instr) × Nat)),
      match neighbour s.cur.core e.2 with
      | none => exec (e.1 0 eb ea b a d) s = .next (traps s cNOLINK (linkDetail e.2 false false) false)
      | some n =>
        let h := setField (setField (regX s a) 0 9 n) 9 1 0
        sendable s h d → blockReady s b (payloadCount h) →
        exec (e.1 0 eb ea b a d) s = .next (after (queued s (sentMessage s h (blockWords s b (payloadCount h)) d)) 4)) ∧
    (sendable s (regX s a) 0 → hdrCapword (regX s a) = false → b.toNat + (hdrN (regX s a) + 1) / 2 ≤ 28 →
      (hdrN (regX s a) = 0 → b = 0) →
      (∀ j < (hdrN (regX s a) + 1) / 2, tabGet .full (me s).vs (b.toNat + j) = .full) →
      let ws := (List.range ((hdrN (regX s a) + 1) / 2)).flatMap fun j =>
        [(tabGet 0 (me s).v (b.toNat + j)).extractLsb' 0 64, (tabGet 0 (me s).v (b.toNat + j)).extractLsb' 64 64]
      exec (.sendv 0 eb ea b a) s = .next (after (queued s (sentMessage s (regX s a) (ws.take (hdrN (regX s a))) 0)) 4))

/-- R26, R35, R251, R252, R338: `reply` answers the message that started the task; `bounce` returns that message to its sender when it
asks for that, unless the capability it carries is out of scope there, and otherwise counts it as dropped; `bounce`, `done` and `c.done`
end the task, a counted rewrite task after a release at partition scope.
Where the model reads the rules further than their words, it follows its own log entries 31, 62. -/
def Obligations.RepliesAndTaskEnds : Prop :=
  ∀ (s : State),
    (∀ (eb ea : BitVec 1) (b : BitVec 5) (n : BitVec 3) (d : BitVec 4), replies (me s).kind = true →
      let h := replyHeader (me s).ktask n.toNat (d != 0)
      sendable s h d → blockReady s b (payloadCount h) →
      exec (.reply 0 eb ea b n d) s = .next (after (queued s (sentMessage s h (blockWords s b (payloadCount h)) d)) 4)) ∧
    (endable s → (hdrBounce (me s).ktask && replies (me s).kind) = false →
      exec .bounce s =
        let c := coreOf s s.cur.core
        let t := setCore s s.cur.core { c with drop := if c.drop = 0xFFFFFFFF then c.drop else c.drop + 1 }
        .next (afterStay (ended (countEvent t s.cur.core s.cur.ctx 0xC 1)))) ∧
    ((hdrBounce (me s).ktask && replies (me s).kind) = true → sendQueued s s.cur.core 1 < 8 →
      (∀ j < payloadCount (me s).ktask, readableX s (BitVec.ofNat 5 (j + 1))) → readableC s 13 →
      (hdrCapword (me s).ktask = true → (regC s 13).tag = true → capScope (regC s 13) < distance s.cur.core (hdrSrc (me s).ktask) →
        exec .bounce s = .next (traps s cSCOPE (det 9 13 0 0
          (capScope (regC s 13) + distance s.cur.core (hdrSrc (me s).ktask) * 2 ^ 8)) false)) ∧
      (endable s → (hdrCapword (me s).ktask = true → (regC s 13).tag = true →
        distance s.cur.core (hdrSrc (me s).ktask) ≤ capScope (regC s 13)) → exec .bounce s =
        let h := bounceHeader (me s).ktask s.cur.core (otypeOf (me s))
        let ws := (List.range (payloadCount (me s).ktask)).map fun j => regX s (BitVec.ofNat 5 (j + 1))
        let f : Flight := ⟨h, ws, if hdrCapword (me s).ktask then regC s 13 else Cap.null, (me s).part, .bounced,
          .core s.cur.core, s.cur.core, none, none, false, 0, 0⟩
        let c := coreOf s s.cur.core
        let vn := hdrVn h
        let t := setCore s s.cur.core { c with sendq := tabPut c.sendq vn (tabGet [] c.sendq vn ++ [f]) }
        .next (afterStay (ended (countEvent t s.cur.core s.cur.ctx 0xB 1))))) ∧
    (endable s → exec .done s = .next (afterStay (ended s)) ∧ exec .cDone s = .next (afterStay (ended s)))

/-- R253: `chmask` changes the selected bits of `kchmask`, `chprio` the priority of one channel; each gives the old value; a set
reserved bit of an operand traps with ILLEGAL, reason 4. -/
def Obligations.ChannelControls : Prop :=
  ∀ (s : State) (eb ea : BitVec 1) (b a d : BitVec 5), readableX s a → readableX s b → writableX s d →
    let x := regX s a
    let y := regX s b
    let c := coreOf s s.cur.core
    (x.toNat < 2 ^ 16 → y.toNat < 2 ^ 16 →
      exec (.chmask 0 eb ea b a d) s =
        let m := (c.chmask &&& ~~~ y.setWidth 16) ||| (x.setWidth 16 &&& y.setWidth 16)
        .next (after (withX (refreshSince (setCore s s.cur.core { c with chmask := m }) s.cur.core) d
          (BitVec.ofNat 64 c.chmask.toNat)) 4)) ∧
    (¬ (x.toNat < 2 ^ 16 ∧ y.toNat < 2 ^ 16) →
      exec (.chmask 0 eb ea b a d) s = .next (traps s cILLEGAL (illegalDetail 4 false (encode (.chmask 0 eb ea b a d))) false)) ∧
    (x.toNat < 16 → y.toNat < 4 →
      exec (.chprio 0 eb ea b a d) s =
        let sh := 2 * x.toNat
        let old := c.chprio.toNat / 2 ^ sh % 4
        .next (after (withX (setCore s s.cur.core { c with chprio := BitVec.ofNat 32 (c.chprio.toNat - old * 2 ^ sh + y.toNat * 2 ^ sh) })
          d (BitVec.ofNat 64 old)) 4)) ∧
    (¬ (x.toNat < 16 ∧ y.toNat < 4) →
      exec (.chprio 0 eb ea b a d) s = .next (traps s cILLEGAL (illegalDetail 4 false (encode (.chprio 0 eb ea b a d))) false))

/-- R50, R51, R173, R246 to R256, R320: a message leaves its send queue for the mesh, and a request's owner accepts it then;
the oldest of its stream, which no bridge holds up, that reaches a running core of its partition, whose channel has a binding and a handler and whose inbox has room, enters the inbox, and without a binding it is
undeliverable; a value on a link becomes ready; a follow window closes after 64 clk.
Where the model reads the rules further than their words, it follows its own log entries 14, 31, 32, 35, 41, 56. -/
def Obligations.MessagesTravel : Prop :=
  ∀ (s : State),
    (∀ k vn f r, tabGet [] (coreOf s k).sendq vn = f :: r →
      let u := setCore s k { coreOf s k with sendq := tabPut (coreOf s k).sendq vn r }
      let d := demote u k f
      (∀ id q, f.kind = .request id → tabFind? s.reqs id = some q →
        exec (.messageLeavesSendQueue k vn) s = .next { u with reqs := tabPut u.reqs id { q with sent := true } }) ∧
      ((∀ id, f.kind ≠ .request id) →
        exec (.messageLeavesSendQueue k vn) s = .next (post d.2 d.1) ∧ (hdrClass f.header ≠ 0 → d.1 = f))) ∧
    (∀ i f k, s.mesh[i]? = some f → messageHeld s f = false →
      (∀ e ∈ s.mesh.take i, (sameStream s e f || beforeArrivals s e f) = false) → repliesBefore s f = false →
      let w := takeReserved { s with mesh := removeAt s.mesh i } f
      let u := w.2
      let g := w.1
      ((hdrLogical g.header = false ∧ k = hdrDst g.header) ∨
        (hdrLogical g.header = true ∧ resolveLogical u g.place (hdrDst g.header) = some (.core k) ∧
          (g.cap.tag = true → distance g.sender k ≤ capScope g.cap))) →
      quayLost u (coreQuay k) = false → berthPart u (coreBerth k) = some g.part → (coreOf u k).preempted = false →
      tabGet [] (coreOf u k).spill g.part = [] →
      ((∀ j n, ¬ (f.kind = .record (some j) ∧ f.origin = .slice n)) → g = f ∧ u = { s with mesh := removeAt s.mesh i }) ∧
      (∀ b, tabFind? (coreOf u k).bind (hdrCh g.header) = some b → b.part = g.part → (handlerOf u b g).isSome = true →
        inboxRoom (inboxOf u k) (hdrVn g.header) = true → orderable u g.part →
        let t := logged u g.part (.arrival k (hdrSrc g.header) (hdrVn g.header) (hdrClass g.header) (hdrCh g.header) g.num)
        exec (.messageDelivery i) s =
          .next (refreshSince (setCore t k { coreOf t k with inbox := (coreOf t k).inbox ++ [g] }) k)) ∧
      (tabFind? (coreOf u k).bind (hdrCh g.header) = none → exec (.messageDelivery i) s = .next (undeliverable u g (some k)))) ∧
    (∀ k dir vec before v later, tabGet [] (coreOf s k).links (linkKey dir vec) = before ++ .flying v :: later →
      (∀ w, LinkEntry.flying w ∉ before) →
      exec (.linkValueArrive k dir vec) s = .next (setCore s k { coreOf s k with
        links := tabPut (coreOf s k).links (linkKey dir vec) (before ++ .ready v :: later) })) ∧
    (∀ k c from_, (berthOf s (coreBerth k)).dbg.halted = false → (ctxOf s k c).window = some from_ → from_ + 64 ≤ s.clk →
      exec (.followWindowClose k c) s = .next (setCtx s k c { ctxOf s k c with window := none, pc := (ctxOf s k c).pc + 4 }))

/-- R32 to R34, R93, R244: a core that runs starts a task on its first free context from the channel it selects: x1 to x7 hold the payload, x8
and `ktask` the header, c1 the core's local store, c13 the message's capability, c14 the binding's root, the pc and pcc the handler, `kstage` and
`kgroup` what the placement of its group set; every other register reads zero or null: the rotation, the loop count, the trap mask, `kfflags`,
`kempty`, the rounding mode (RNE) and its seed, the scale capabilities and the shadow registers; no frame is left, and the message leaves the
inbox. A start that takes the context to ordering revision 1 releases at package scope first.
Where the model reads the rules further than their words, it follows its own log entry 33. -/
def Obligations.TasksStart : Prop :=
  ∀ (s : State) (k c ch level : Nat) (b : Binding) (f : Flight) (entry : Cap) (epc : BitVec 48),
    (coreOf s k).preempted = false → (berthOf s (coreBerth k)).dbg.halted = false → (quayOf s (coreQuay k)).mode = .up →
    c < 4 → (ctxOf s k c).mode = .free → (∀ j < c, (ctxOf s k j).mode ≠ .free) → selectChannel (coreOf s k) s.clk = some (ch, level) →
    tabFind? (coreOf s k).bind ch = some b → (coreOf s k).inbox.find? (fun f => hdrCh f.header == ch) = some f →
    handlerOf s b f = some (entry, epc) →
    let enters := capFmt entry == fN8 && !(ctxOf s k c).rev1
    let r := if enters then release s (coreBerth k) 3 else s
    (enters = true → releaseReady s (coreBerth k) 3 = true) → (hdrCapword f.header = true → mapHeld s b.part f.cap = false) →
    ∃ t, exec (.taskStart k) s = .next t ∧
      let x := ctxOf t k c
      x.mode = .running ∧ x.pc = epc.setWidth 64 ∧ x.pcc = entry ∧ x.ktask = f.header ∧ x.part = b.part ∧ x.launch = b.launch ∧
      x.ch.toNat = hdrCh f.header ∧ x.rev1 = (capFmt entry == fN8) ∧
      (∀ r : Nat, tabGet 0 x.x r = if 1 ≤ r ∧ r ≤ 7 then f.words.getD (r - 1) 0 else if r = 8 then f.header else 0) ∧
      (∀ r, tabGet 0 x.v r = 0) ∧ (∀ r, tabGet 0 x.m r = 0) ∧ x.xs = [] ∧ x.vs = [] ∧ x.cs = [] ∧ x.ms = [] ∧
      tabGet Cap.null x.c 1 = localCap k ∧ tabGet Cap.null x.c 14 = b.root ∧
      tabGet Cap.null x.c 13 = (barrier r b.part (if hdrCapword f.header then f.cap else Cap.null)).1 ∧
      (∀ r, r ≠ 1 → r ≠ 13 → r ≠ 14 → tabGet Cap.null x.c r = Cap.null) ∧
      x.krrb = 0 ∧ x.klc = 0 ∧ x.kec = 0 ∧ x.rmode = 0 ∧ x.seed = 0 ∧ x.fflags = 0 ∧ x.vtrap = false ∧ x.drain = false ∧
      x.kstage = (coreOf s k).kstage ∧ x.kgroup = (coreOf s k).kgroup ∧ x.kcsa = Cap.null ∧ x.kcsb = Cap.null ∧
      x.sh0 = Shadow.null ∧ x.sh1 = Shadow.null ∧ x.frames = [] ∧
      (coreOf t k).inbox = (coreOf s k).inbox.erase f ∧ (∀ d, d ≠ c → ctxOf t k d = ctxOf s k d)

/-! ### Synchronisation -/

/-- R275 to R277: a scalar atomic whose access passes every check puts its request into the core's send queue, from which its owner
accepts it, and leaves xd waiting for the old value; while that queue of 8 is full it waits. The operands stand in xb to x(b + 2), and for `acas` x(b + 3).
R280: a vector reduction whose element accesses all pass their checks sends one request for all of them through the send queue,
with no destination.
R275 to R280: once an atomic has left its core's send queue, the owner of its location performs it in one step, gives back the old value
and writes the new one, for `acas` only where the old value equals the expected one; a double that a phase marked meanwhile is not written
(the model's choice: log entry 64); it updates a vector reduction element by element; a location of a fenced quay answers LOST, unreadable data an
error. The reply fills the destination.
Where the model reads the rules further than their words, it follows its own log entries 5, 22, 29, 31, 41, 64. -/
def Obligations.Atomics : Prop :=
  (∀ (s t : State) (eb : BitVec 1) (b : BitVec 5) (a : BitVec 4) (d : BitVec 5) (addr w : Nat) (p : Phys),
     readableX s b → readableX s (b + 1) → readableX s (b + 2) → readableC s a →
     ∀ e ∈ ([(Instr.aadd, 0), (Instr.amin, 1), (Instr.amax, 2), (Instr.aminu, 3), (Instr.amaxu, 4), (Instr.aand, 5),
         (Instr.aor, 6), (Instr.axor, 7), (Instr.aswp, 8), (Instr.acas, 9), (Instr.afadd, 10)] :
         List ((BitVec 1 → BitVec 5 → BitVec 4 → BitVec 5 → Instr) × Nat)),
       1 ≤ b.toNat → b.toNat ≤ (if e.2 = 9 then 24 else 25) → (e.2 = 9 → readableX s (b + 3)) →
       atomicAccess s.cur.core (regC s a) a.toNat 0 (atomicFormats e.2) (tuple (regX s b) (regX s (b + 1))) = .ok (addr, w) →
       unwatched s 1 [(addr, w / 8)] → translate (myBerth s) (me s).part addr 1 false s = .ok (p, t) →
       let piece : Piece := ⟨p.key, 0, w, p.cached⟩
       markAddr t (piece, 0, addr) = none → ownConflict t s.cur.core s.cur.ctx piece true = false →
       piecesReady t (myBerth s) [piece] = true → writableX t d →
       let nv := if e.2 = 9 then regX s (b + 3) else 0
       (queueOpen t → exec (e.1 eb b a d) s =
         .next (after (sentQueued (emptyX (syncPieces t (myBerth s) [piece]) d) (destX d) addr
           (.atomic (BitVec.ofNat 7 e.2) (BitVec.ofNat 6 (capFmt (regC s a))) piece (regX s (b + 2)) nv)) 4)) ∧
       (¬ queueOpen t → exec (e.1 eb b a d) s = .next (waits s .other))) ∧
  (∀ (s t : State) (b : BitVec 5) (a : BitVec 4) (d : BitVec 5) (addr : Nat → Nat) (e n : Nat) (elems : List (Piece × Nat × Nat)),
     1 ≤ d.toNat → d.toNat ≤ 26 → b.toNat ≤ 27 → readableX s d → readableX s (d + 1) → readableV s (b.setWidth 6) → readableC s a →
     capUse (regC s a) a.toNat 0 (pL + pS) = .ok e → n = vecCount e →
     ∀ i ∈ ([(Instr.aredVAdd, 11), (Instr.aredVMax, 12), (Instr.aredVMin, 13), (Instr.aredVFadd, 14)] :
         List ((BitVec 5 → BitVec 4 → BitVec 5 → Instr) × Nat)),
       let fmts := if i.2 = 14 then [0x08, 0x09] else [0x01, 0x02, 0x03, 0x04, 0x05, 0x06, 0x07]
       fmts.contains (capFmt (regC s a)) = true →
       (∀ j < n, atomicAccess s.cur.core (regC s a) a.toNat j fmts (vecTuple (tuple (regX s d) (regX s (d + 1))) false j) =
         .ok (addr j, e)) →
       unwatched s 1 ((List.range n).map fun j => (addr j, e / 8)) →
       collect (fun (x : Nat × Nat) => do
         let p ← translate (myBerth s) (me s).part x.1 1 false
         pure ((⟨p.key, 0, e, p.cached⟩ : Piece), elemOf (regV s (b.setWidth 6)).toNat e x.2, x.1))
         ((List.range n).map addr).zipIdx s = .ok (elems, t) →
       elems.findSome? (markAddr t) = none → (elems.any fun x => ownConflict t s.cur.core s.cur.ctx x.1 true) = false →
       piecesReady t (myBerth s) (elems.map (·.1)) = true →
       (queueOpen t → exec (i.1 b a d) s =
         .next (after (sentQueued (syncPieces t (myBerth s) (elems.map (·.1))) .none (addr 0)
           (.ared (BitVec.ofNat 7 i.2) (BitVec.ofNat 6 (capFmt (regC s a))) elems [])) 4)) ∧
       (¬ queueOpen t → exec (i.1 b a d) s = .next (waits s .other))) ∧
  (∀ (s : State) (req : Nat) (r : Req), tabFind? s.reqs req = some r →
     (∀ fn fmt p v nv, r.body = .atomic fn fmt p v nv → r.sent = true → r.reply = none →
       let n := pieceBytes p
       let old := natOfBytes (memRead s.mem p.key n)
       let w := p.width
       let x := v.toNat % 2 ^ w
       let t := logged s r.part (.atomic p.key r.core r.ctx r.num)
       let put := fun (u : State) (x : Nat) => if marksMet s p = [] then wideWrite u p.key (bytesOf n x) else u
       let done := fun (u : State) => repliedNext (sweepRequest u r.part p.key) req r (.value (atomicResult fmt.toNat w old))
       (ownerLost s p.key = true → exec (.atomicServe req) s = .next (repliedNext s req r (.lost (BitVec.ofNat 64 (fieldOf r.addr 0 48))))) ∧
       (ownerLost s p.key = false → ownerServes s r p.key = true → ownerFree s r p = true → orderable s r.part →
         (isBad s p.key n = true → exec (.atomicServe req) s = .next (repliedNext t req r (.error (errorDetail 1 r.addr.toNat)))) ∧
         (isBad s p.key n = false →
           (∀ e ∈ ([(0, fun a b => (a + b) % 2 ^ w), (1, fun a b => if signedNat b w < signedNat a w then b else a),
               (2, fun a b => if signedNat a w < signedNat b w then b else a), (3, fun a b => min a b), (4, fun a b => max a b),
               (5, fun a b => a &&& b), (6, fun a b => a ||| b), (7, fun a b => a ^^^ b), (8, fun _ b => b),
               (10, fun a b => (fpAdd fmt.toNat ⟨0, 0⟩ (decodeElem fmt.toNat a) (decodeElem fmt.toNat b)).1)] :
               List (Nat × (Nat → Nat → Nat))),
             fn.toNat = e.1 → exec (.atomicServe req) s = .next (done (put t (e.2 old x)))) ∧
           (fn = 9 → exec (.atomicServe req) s =
             .next (done (if old = x then put t (nv.toNat % 2 ^ w) else t)))))) ∧
     (∀ fn fmt p v nv y k, r.body = .atomic fn fmt p v nv → r.reply = some (.value y) → r.dst = .x k → taskGone s r = false →
       earlierReply s req r = false → piecesReady s (coreBerth r.core) [p] = true →
       let t := syncPieces (withoutReq s req) (coreBerth r.core) [p]
       exec (.atomicReplyDelivery req) s =
         .next (sliceDelay (setCtx t r.core r.ctx (putX (ctxOf t r.core r.ctx) k y)) r.core p.key)) ∧
     (∀ fn fmt elems updated i p v va, r.body = .ared fn fmt elems updated → r.sent = true → elems[i]? = some (p, v, va) → tabFind? updated i = none →
       ownerLost s p.key = false → ownerServes s r p.key = true → ownerFree s r p = true → orderable s r.part →
       isBad s p.key (pieceBytes p) = false →
       let old := natOfBytes (memRead s.mem p.key (pieceBytes p))
       let t := logged s r.part (.atomic p.key r.core r.ctx (r.num + i))
       let u := sweepRequest (if marksMet t p = [] then
         wideWrite t p.key (bytesOf (pieceBytes p) (aredNew fn.toNat fmt.toNat p.width old v)) else t) r.part p.key
       exec (.aredElementUpdate req i) s =
         .next { u with reqs := tabPut u.reqs req { r with body := .ared fn fmt elems (tabPut updated i u.nextReq) }, nextReq := u.nextReq + 1 }) ∧
     (∀ fn fmt e elems updated, r.body = .ared fn fmt (e :: elems) updated → updated.length = elems.length + 1 → r.reply = none → earlierReply s req r = false →
       piecesReady s (coreBerth r.core) ((e :: elems).map (·.1)) = true →
       exec (.aredAcknowledge req) s =
         .next (sliceDelay (syncPieces (withoutReq s req) (coreBerth r.core) ((e :: elems).map (·.1))) r.core e.1.key)))

/-- R282 to R286: a phase instruction whose access passes every check sends its operation to the owner of the double and leaves xd waiting for
the status; `parrive.rel` releases first; `pwait` sends the message that continues, with two words of payload to come.
R281 to R286: the owner performs a phase operation in one step: an operation but `pinit` on an unmarked double answers not-phase and does
nothing; `pinit` marks it with generation 0 and the count; an arrival counts down, and the last one starts the next generation and sends the
continuations registered for this one, in order. The status fills the destination; a store to a marked line traps with PHASE where it meets the
mark, what it took from and pushed into link queues undone, and else writes.
Where the model reads the rules further than their words, it follows its own log entries 19, 22, 41, 62. -/
def Obligations.Phases : Prop :=
  (∀ (s t : State) (a : BitVec 4) (d : BitVec 5) (addr : Nat) (p : Phys), readableX s d → readableC s a →
     phaseAccess s.cur.core (regC s a) a.toNat ⟨(regX s d).toNat, 0, 0, 0⟩ = .ok addr → unwatched s 1 [(addr, 8)] →
     translate (myBerth s) (me s).part addr 1 false s = .ok (p, t) →
     let piece : Piece := ⟨p.key, 0, 64, p.cached⟩
     ownConflict t s.cur.core s.cur.ctx piece true = false → piecesReady t (myBerth s) [piece] = true →
     let ask := fun (u : State) (fn : BitVec 3) (n : BitVec 12) (cont : Option Cont) =>
       after (sent (emptyX (syncPieces u (myBerth s) [piece]) d) (destX d) addr (.phase fn piece n cont)) 4
     (∀ n : BitVec 12, n ≠ 0 → exec (.pinit n a d) s = .next (ask t 0 n none)) ∧
     exec (.parriveRlx a d) s = .next (ask t 1 0 none) ∧
     (∀ sel : BitVec 3, sel.toNat < 6 → accessesDone t → releaseReady t (myBerth t) sel.toNat = true →
       piecesReady (release t (myBerth t) sel.toNat) (myBerth s) [piece] = true →
       exec (.parriveRel sel a d) s = .next (ask (release t (myBerth t) sel.toNat) 1 0 none)) ∧
     exec (.pinval a d) s = .next (ask t 3 0 none) ∧
     (d.toNat ≤ 24 → readableX s (d + 1) → readableX s (d + 2) → readableX s (d + 3) → (regX s (d + 2)).toNat < 2 ^ 16 →
       let h := setField (setField (regX s (d + 1)) 16 3 2) 19 1 0
       hdrVn h < 2 → logicalOk s s.cur.core h = true →
       let f : Flight := ⟨stampHeader h s.cur.core (otypeOf (me s)), [], Cap.null, (me s).part, .sent, .core s.cur.core, s.cur.core,
         none, (coreOf s s.cur.core).place, false, 0, 0⟩
       exec (.pwait a d) s = .next (ask t 2 0 (some ⟨f, (regX s (d + 2)).setWidth 16, regX s (d + 3)⟩)))) ∧
  (∀ (s : State) (req : Nat) (r : Req), tabFind? s.reqs req = some r →
     (∀ fn p n cont, r.body = .phase fn p n cont → r.reply = none → ownerLost s p.key = false → ownerServes s r p.key = true →
       ownerFree s r p = true → orderable s r.part → isBad s p.key 8 = false →
       let t := logged s r.part (.atomic p.key r.core r.ctx r.num)
       let u := if p.cached && fn == 0 then recallLine t (p.key / 64) else t
       let a := phaseServe u fn.toNat p.key n cont
       let v := homeDouble u p.key
       let g := fieldOf v 32 16
       let pending := fieldOf v 16 16
       let expected := fieldOf v 0 16
       exec (.phaseOperationServe req) s = .next (repliedNext a.2 req r (.value a.1)) ∧
       (tabFind? u.phases p.key = none →
         (fn ≠ 0 → a = (0x8000000000000000, u)) ∧
         (fn = 0 → a.2 = { wideWrite u p.key (dblBytes (phaseDouble 0 n.toNat n.toNat)) with phases := tabPut u.phases p.key [] })) ∧
       (∀ cs, tabFind? u.phases p.key = some cs → fn = 1 →
         (2 ≤ pending → a.2 = wideWrite u p.key (dblBytes (phaseDouble g (pending - 1) expected))) ∧
         (pending ≤ 1 → a.2 =
           let now := cs.filter fun c => c.gen.toNat == g
           { wideWrite (releaseConts u p.key now false) p.key (dblBytes (phaseDouble (g + 1) expected expected)) with
             phases := tabPut u.phases p.key (cs.filter fun c => c.gen.toNat != g) }))) ∧
     (∀ fn p n cont y k, r.body = .phase fn p n cont → r.reply = some (.value y) → r.dst = .x k → taskGone s r = false →
       earlierReply s req r = false → piecesReady s (coreBerth r.core) [p] = true →
       let t := syncPieces (withoutReq s req) (coreBerth r.core) [p]
       exec (.phaseStatusDelivery req) s =
         .next (sliceDelay (setCtx t r.core r.ctx (putX (ctxOf t r.core r.ctx) k y)) r.core p.key)) ∧
     (∀ ws back, r.body = .store ws none back →
       (ws.any fun w => engineHolds s w.1 true || homeHeld s (coreBerth r.core) r.part w.1.key) = false →
       piecesReady s (coreBerth r.core) (ws.map (·.1)) = true →
       let writes := fun (t : State) => ws.foldl (fun u w => writePiece u (coreBerth r.core) true w.1 w.2.1) t
       let v := (back.headD (0, 0)).2
       (taskGone s r = false → (ctxOf s r.core r.ctx).mode = .waiting req →
         let t := setCtx (withoutReq s req) r.core r.ctx { ctxOf s r.core r.ctx with mode := .running }
         (∀ a, ws.findSome? (markAddr s) = some a →
           exec (.phaseProtectedWrite req) s = .next (trapAt (undoLinks t r req) r.core r.ctx cPHASE (BitVec.ofNat 64 a) false)) ∧
         (ws.findSome? (markAddr s) = none →
           let u := fill (writes t) r req v
           exec (.phaseProtectedWrite req) s =
             .next (setCtx u r.core r.ctx { ctxOf u r.core r.ctx with pc := (ctxOf u r.core r.ctx).pc + 4, watchSkip := none }))) ∧
       (taskGone s r = true → ws.findSome? (markAddr s) = none →
         exec (.phaseProtectedWrite req) s = .next (fill (writes (withoutReq s req)) r req v))))

/-- R289: `boomset` arms a slot with a rectangle of the partition's own cores that holds this core, or disarms it, unless the slot is in
use; a slot that is armed takes the tokens of its rectangle that wait at its core (R291); R290: an arrival at an armed slot counts, a second one is held, a third is refused; `boom.rel` releases at the rectangle's scope.
R291, R292: the row token passes east once a core has arrived, the column token south along the eastern column once the row is done; a token
waits at the core that it reaches until a slot there has its rectangle; the release advances the generation, takes a held arrival over, sends the core its message and goes on west and, along the eastern column, north,
to the next core that takes part in this generation of the rectangle.
Where the model reads the rules further than their words, it follows its own log entry 30. -/
def Obligations.Booms : Prop :=
  (∀ (s : State) (c : BitVec 4) (sel : BitVec 2) (a d : BitVec 5), writableX s d →
     let b := boomOf s s.cur.core sel.toNat
     (readableX s a → b.armed = false ∨ (b.arrived = false ∧ b.rowTok = false ∧ b.colTok = false) →
       ((regX s a).getLsbD 63 = true →
         exec (.boomset c sel a d) s =
           .next (after (withX (setBoom s s.cur.core sel.toNat { Boom.reset with held := b.held }) d 0) 4)) ∧
       (let r := BitVec.ofNat 18 (regX s a).toNat
        (regX s a).getLsbD 63 = false → fieldOf (regX s a) 48 15 = 0 → fieldOf (regX s a) 18 14 = 0 →
        rectX0 r ≤ rectX1 r → rectY0 r ≤ rectY1 r → rectHolds r (meshX s.cur.core) (meshY s.cur.core) = true →
        (∀ j ∈ rectCores r, ownedBerth s (coreBerth j) (me s).part = true) →
        let k := s.cur.core
        let waiting := (coreOf s k).boomWait
        let t := setCore s k { coreOf s k with boomWait := waiting.filter fun e => !(e.1 == sel.toNat && e.2.1 == r) }
        exec (.boomset c sel a d) s =
         .next (after (withX (setBoom t k sel.toNat { Boom.reset with
           armed := true, rect := r, ch := c, utag := (regX s a).extractLsb' 32 16, arrived := b.held
           rowTok := waiting.contains (sel.toNat, r, false), colTok := waiting.contains (sel.toNat, r, true) }) d 0) 4))) ∧
     exec (.boomRlx sel d) s =
       .next (after (withX (setBoom s s.cur.core sel.toNat (boomArrive b).2) d (BitVec.ofNat 64 (boomArrive b).1)) 4) ∧
     (accessesDone s → releaseReady s (myBerth s) (boomScope b) = true →
       exec (.boomRel sel d) s =
         .next (after (withX (setBoom (release s (myBerth s) (boomScope b)) s.cur.core sel.toNat (boomArrive b).2) d
           (BitVec.ofNat 64 (boomArrive b).1)) 4)) ∧
     boomArrive { b with armed := true, arrived := false } = (0, { b with armed := true, arrived := true }) ∧
     boomArrive { b with armed := true, arrived := true, held := false } = (1, { b with armed := true, arrived := true, held := true }) ∧
     boomArrive { b with armed := true, arrived := true, held := true } = (2, { b with armed := true, arrived := true, held := true })) ∧
  (∀ (s : State) (k slot : Nat),
     let b := boomOf s k slot
     let r := b.rect
     (b.armed = true → b.arrived = true → b.releasing = false → b.rowDone = false → (meshX k = rectX0 r ∨ b.rowTok = true) →
       let t := setBoom s k slot { b with rowDone := true }
       let n := coreAt (meshX k + 1) (meshY k)
       (meshX k < rectX1 r →
         (boomMatches t n slot r = true →
           exec (.boomTokenPass k slot false) s = .next (setBoom t n slot { boomOf t n slot with rowTok := true })) ∧
         (boomMatches t n slot r = false →
           exec (.boomTokenPass k slot false) s =
             .next (setCore t n { coreOf t n with boomWait := (coreOf t n).boomWait ++ [(slot, r, false)] }))) ∧
       (rectX1 r ≤ meshX k → exec (.boomTokenPass k slot false) s = .next (boomCorner t k slot))) ∧
     (b.armed = true → b.arrived = true → b.releasing = false → b.rowDone = true → meshX k = rectX1 r → meshY k < rectY1 r →
       (meshY k = rectY0 r ∨ b.colTok = true) → b.colDone = false →
       let t := setBoom s k slot { b with colDone := true }
       let n := coreAt (meshX k) (meshY k + 1)
       (boomMatches t n slot r = true →
         exec (.boomTokenPass k slot true) s = .next (boomCorner (setBoom t n slot { boomOf t n slot with colTok := true }) n slot)) ∧
       (boomMatches t n slot r = false →
         exec (.boomTokenPass k slot true) s =
           .next (setCore t n { coreOf t n with boomWait := (coreOf t n).boomWait ++ [(slot, r, true)] }))) ∧
     (b.releasing = true →
       let corner := coreAt (rectX1 r) (rectY1 r)
       let f : Flight := ⟨header b.utag.toNat 0 0 0 0 corner 0 1 1 b.ch.toNat k, [BitVec.ofNat 64 (b.gen.toNat + slot * 2 ^ 16)], Cap.null,
         (berthPart s (coreBerth k)).getD 0, .other, .boom k, k, none, none, false, 0, 0⟩
       let t := setBoom s k slot { b with
         gen := b.gen + 1, arrived := b.held, held := false, rowTok := false, colTok := false, rowDone := false, colDone := false,
         releasing := false }
       let mark := fun (u : State) (n : Nat) => setBoom u n slot { boomOf u n slot with releasing := true }
       let u := releaseWest t slot r (meshY k) (meshX k)
       let west := coreAt (meshX k - 1) (meshY k)
       let north := coreAt (meshX k) (meshY k - 1)
       exec (.boomRelease k slot) s =
         .next (post (if meshX k = rectX1 r then releaseNorth u slot r (meshY k) else u) f) ∧
       (rectX0 r < meshX k → boomTakes t west slot r = true → u = mark t west) ∧
       (meshX k ≤ rectX0 r → u = t) ∧
       (meshX k = rectX1 r → rectY0 r < meshY k → boomTakes u north slot r = true → releaseNorth u slot r (meshY k) = mark u north) ∧
       (meshY k ≤ rectY0 r → releaseNorth u slot r (meshY k) = u)))

/-! ### Scheduling -/

/-- R39, R297: `enq` reads a task record through a capability of doubles and puts it into
the core's request send queue, for the slice agent of its affinity key.
R296 to R298, R389: a slice agent puts a record into its segment of 32 while no ring of the partition waits (status 0), else into the
partition's ring (1), or refuses it: ring full (2, raising source `tq`), or no such template (3). A core with fewer than 26 request entries
taken and no earlier refusal grants an entry, which stays taken until the record that it was granted for arrives; the head record of the
partition whose turn it is leaves as a message, or, where it cannot be delivered, is named beside its source.
Where the model reads the rules further than their words, it follows its own log entries 31, 33, 35. -/
def Obligations.TaskRecords : Prop :=
  (∀ (s t : State) (eb : BitVec 1) (b : BitVec 5) (a : BitVec 4) (d : BitVec 5) (addr : Nat → Nat) (v : Nat),
     readableX s b → readableC s a → capFmt (regC s a) = 0x07 →
     (∀ j < 4, capAccess (myBerth s) (regC s a) a.toNat 0 pL ⟨(regX s b).toNat + j, 0, 0, 0⟩ 64 = .ok (8 * addr j, 64)) →
     addr 0 % 32 = 0 → unwatched s 0 [(addr 0, 32)] → readNow (addr 0) 32 s = .ok (v, t) → writableX t d →
     let g := BitVec.ofNat 256 v
     recWord g 0 / 2 ^ 24 = 0 → recWord g 3 / 4 = 0 → queueOpen t →
     exec (.enq 0 eb b a d) s =
       .next (after (sentQueued (emptyX t d) (destX d) (addr 0) (.enq g (foldSlice (recWord g 2)) (coreOf t s.cur.core).place)) 4)) ∧
  (∀ (s : State),
     (∀ req r g n place, tabFind? s.reqs req = some r → r.body = .enq g n place → r.sent = true → r.reply = none →
       (∀ e ∈ s.reqs, ∀ h q, e.1 < req → e.2.core = r.core → e.2.ctx = r.ctx → e.2.reply = none → e.2.body ≠ .enq h n q) →
       crossingHeld s r.part (coreQuay r.core) (n / 16) = false →
       let sl := sliceOf s n
       let x : TaskRec := ⟨g, r.core, r.part, place, s.clk⟩
       let ring := tabGet [] sl.rings r.part
       let depth := recordsAt sl r.part
       let p := partOf s r.part
       exec (.enqueueServe req) s =
         if templateOf s r.part g = none then .next (repliedNext s req r (.value (enqStatus 3 n depth)))
         else if sl.seg.length < 32 ∧ ring = [] then
           .next (repliedNext (setSlice s n { sl with seg := sl.seg ++ [x] }) req r (.value (enqStatus 0 n (depth + 1))))
         else if ring.length < 2 ^ (fieldOf p.tqRing 0 4 + 5) then
           .next (touchRecords
             (repliedNext (setSlice s n { sl with rings := tabPut sl.rings r.part (ring ++ [x]) }) req r (.value (enqStatus 1 n (depth + 1)))) r.part n)
         else .next (repliedNext (raisePart (setPart s r.part { p with tqFull := p.tqFull ||| BitVec.ofNat 32 (2 ^ n) }) r.part 2) req r
           (.value (enqStatus 2 n depth)))) ∧
     (∀ req r g n place v k, tabFind? s.reqs req = some r → r.body = .enq g n place → r.reply = some (.value v) → r.dst = .x k →
       taskGone s r = false → earlierReply s req r = false →
       exec (.enqStatusDelivery req) s =
         .next (addDelay (setCtx (withoutReq s req) r.core r.ctx (putX (ctxOf s r.core r.ctx) k v)) r.core (0x140 + n))) ∧
     (∀ k n part r, headRecord (sliceOf s n) part = some r → needsEntry s n r = true → recordCore s r = some k →
       goesAway s k part = false →
       let c := inboxOf s k
       let used := (c.inbox.filter fun f => hdrVn f.header == 0).length + c.reserved.length + c.owed.length
       (used < 26 → (c.refused = [] ∨ c.refused.head? = some (n, part)) →
         exec (.inboxReservationGrant k n part) s =
           .next (setCore s k { c with reserved := c.reserved ++ [(n, part)], refused := c.refused.erase (n, part) })) ∧
       (26 ≤ used → c.refused.contains (n, part) = false →
         exec (.inboxReservationGrant k n part) s = .next (setCore s k { c with refused := c.refused ++ [(n, part)] }))) ∧
     (∀ n part r,
       let sl := sliceOf s n
       let ready := fun (p : Nat) => match headRecord sl p with
         | none => false
         | some r => decide (r.at_ < s.clk) && !needsEntry s n r
       ((List.range 16).map fun i => (sl.turn + 1 + i) % 16).find? ready = some part → headRecord sl part = some r →
       let t := setSlice (useEntry s n r) n (refillRecords { sl with seg := sl.seg.erase r, turn := part } part)
       (∀ cap o d, recordCap t r = some cap → templateOf t part r.rec_ = some (o, d) →
         exec (.recordDequeue n part) s = .next (post t (recordMessage n r d cap (entryOf s n r)))) ∧
       (recordCap t r = none →
         exec (.recordDequeue n part) s = .next (raisePart (setPart t part { partOf t part with recordNamed := some r.rec_ }) part 2)) ∧
       (∀ k, recordCore s r = some k → (recordCap s r).isSome = true → (n, r.part) ∈ (coreOf s k).reserved →
         entryOf s n r = some k ∧ (coreOf (useEntry s n r) k).reserved = (coreOf s k).reserved.erase (n, r.part) ∧
         (coreOf (useEntry s n r) k).owed = (coreOf s k).owed ++ [(n, r.part)])))

/-- R302: `launch` releases at partition scope, reads a launch record and its root capability through a capability of capabilities, and
sends them to the harbourmaster.
R302 to R307: a launch record is checked in order and takes the lowest free slot of its harbourmaster, or is refused with the first
reason; its status reaches the register or the door; a launch without leave asks again after 1,024 clk; the first ready group that fits is
placed whole; a group that has waited 65,536 clk reserves a berth that is wholly free.
Where the model reads the rules further than their words, it follows its own log entries 6, 19, 23, 35. -/
def Obligations.Launches : Prop :=
  (∀ (s t u : State) (eb : BitVec 1) (b : BitVec 5) (a : BitVec 4) (d : BitVec 5) (x y v : Nat) (root : Cap),
     readableX s b → readableC s a →
     granuleAccess (myBerth s) (regC s a) a.toNat (pL + pLC) ⟨(regX s b).toNat, 0, 0, 0⟩ = .ok (8 * x, 256) →
     granuleAccess (myBerth s) (regC s a) a.toNat (pL + pLC) ⟨(regX s b).toNat + 1, 0, 0, 0⟩ = .ok (8 * y, 256) →
     unwatched s 0 [(x, 32), (y, 32)] → accessesDone s → releaseReady s (myBerth s) 4 = true → readNow x 32 (release s (myBerth s) 4) = .ok (v, t) →
     readTagged (regC s a) y t = .ok (root, u) → writableX u d →
     let g := BitVec.ofNat 256 v
     exec (.launch 0 eb b a d) s =
       .next (after (sent (emptyX u d) (destX d) x
         (.launch (granDouble g 0) (granDouble g 1) (granDouble g 2) (granDouble g 3) root)) 4)) ∧
  (∀ (s : State),
     (∀ part glob (value : Dbl),
       let stat := if glob then s.glob.hmStat else (partOf s part).hmStat
       let va := fieldOf value 5 43 * 32
       (stat.getLsbD 62 = false → doorHeld s part va = false) →
       exec (.hmDoorWrite part glob value) s =
         if stat.getLsbD 62 then
           .next (if glob then { s with glob := { s.glob with pmErr := true } } else setPart s part { partOf s part with pfErr := true })
         else match doorRequest s part va (if glob then 2 else 1) with
           | none => .next (setDoor s part glob (BitVec.ofNat 64 va) (launchRefused 8))
           | some r =>
             let t := setDoor s part glob (BitVec.ofNat 64 va) (stat ||| 0x4000000000000000)
             .next { t with reqs := tabPut t.reqs t.nextReq r, nextReq := t.nextReq + 1 }) ∧
     (∀ req r d0 d1 d2 d3 root, tabFind? s.reqs req = some r → r.body = .launch d0 d1 d2 d3 root → r.reply = none →
       let q := if r.door = 0 then coreQuay r.core else livingQuay s (fieldOf d1 62 1)
       let l := newLaunch s q d0 d1 d2 d3 root
       let reason := launchReason s q (if r.door = 2 then none else some r.part) l
       (reason ≠ 0 → exec (.launchRequestServe req) s =
         .next (answered s req r (.value (BitVec.ofNat 64 (2 ^ 63 + reason * 2 ^ 48))))) ∧
       (∀ i, reason = 0 → (List.range 32).find? (fun i => (tabFind? s.launches (32 * q + i)).isNone) = some i →
         exec (.launchRequestServe req) s =
           .next (answered (setLaunch { s with glob := { s.glob with launchSeq := s.glob.launchSeq + 1 } } (32 * q + i) l) req r
             (.value (BitVec.ofNat 64 (32 * q + i)))))) ∧
     (∀ req r d0 d1 d2 d3 root v, tabFind? s.reqs req = some r → r.body = .launch d0 d1 d2 d3 root → r.reply = some (.value v) →
       let t := withoutReq s req
       (∀ n, r.door = 0 → r.dst = .x n → taskGone s r = false →
         exec (.launchStatusDelivery req) s = .next (setCtx t r.core r.ctx (putX (ctxOf s r.core r.ctx) n v))) ∧
       (r.door = 1 → exec (.launchStatusDelivery req) s = .next (setPart t r.part { partOf t r.part with hmStat := v })) ∧
       (r.door = 2 → exec (.launchStatusDelivery req) s = .next { t with glob := { t.glob with hmStat := v } })) ∧
     (∀ id l, tabFind? s.launches id = some l → l.leave = false → l.placed = [] → (l.askedAt = 0 ∨ l.askedAt + 1024 ≤ s.clk) →
       let a := askLeave s l.home
       exec (.launchLeaveRetry id) s = .next (setLaunch a.2 id { l with leave := a.1, askedAt := a.2.clk })) ∧
     (∀ q id l idx cores o, (placementOrder s).find? (fun e => (e.2.1.leave || e.2.1.askedAt == 0) && placeable s e.1 e.2.1 e.2.2) = some (id, l, idx) →
       placementOk s id l idx cores = true → coreQuay (cores.headD 0) = q → launchObject s l = some o → l.leave = true → orderable s l.part →
       let t := logged s l.part (.placed id idx (coreBerth (cores.headD 0)))
       exec (.groupPlacement q cores) s = .next (placeGroup t q id { l with leave := true, askedAt := s.clk } o idx cores)) ∧
     (∀ id b l idx, tabFind? s.launches id = some l → waitingGroup s id l = some idx →
       berthOpen s b id idx l.part = true → (berthOf s b).reservedFor = none → (∀ i < 4, coreFree s (4 * b + i) = true) →
       exec (.placementWaitReservation id b) s = .next (setBerth s b { berthOf s b with reservedFor := some (id, idx) })) ∧
     (∀ id l idx, waitingGroup s id l = some idx →
       readyFrom l idx + 65536 ≤ s.clk ∧ ∀ e ∈ s.berths, e.2.reservedFor ≠ some (id, idx)))

/-- R304: `gdone` marks the executing core as done for its group and does nothing else, so that a second one does nothing; on a core that
no group occupies it traps with ILLEGAL, reason 4. -/
def Obligations.GroupDoneMarks : Prop :=
  ∀ s : State,
    ((coreOf s s.cur.core).place.isSome = true →
      exec .gdone s = .next (after (setCore s s.cur.core { coreOf s s.cur.core with gdone := true }) 4)) ∧
    ((coreOf s s.cur.core).place.isSome = true → (coreOf s s.cur.core).gdone = true →
      ∃ t, exec .gdone s = .next t ∧ ∀ k, { coreOf t k with ctxs := [] } = { coreOf s k with ctxs := [] }) ∧
    ((coreOf s s.cur.core).place = none →
      exec .gdone s = .next (traps s cILLEGAL (illegalDetail 4 false (encode .gdone)) false))

/-- R43, R46, R307, R308, R310 to R317: a core whose contexts have settled is pre-empted; a berth's pre-empted cores, or its next partition,
resume; a slice begins once every sliced berth runs its partition and ends after its length; a berth then drains, saves or discards by its
costs; a group whose cores are all done retires; a deadline passes once; the launches of a partition that no berth runs leave their slots.
Where the model reads the rules further than their words, it follows its own log entries 34, 35, 43, 45. -/
def Obligations.SlicesSwitch : Prop :=
  ∀ (s : State),
    (∀ k, (coreOf s k).preempted = false → coreFreezable s k = true →
      exec (.preemption k) s = .next (freezeCore s k) ∧ (coreOf (freezeCore s k) k).preempted = true) ∧
    (∀ b t u, (∃ i < 4, (coreOf s (4 * b + i)).preempted = true) → t = (List.range 4).foldl (fun s i => thawCore s (4 * b + i)) s →
      drainBerth b t = .ok ((), u) → exec (.coreResumption b) s = .next u) ∧
    (∀ b e x u, (∀ i < 4, (coreOf s (4 * b + i)).preempted = false) → isSliced s b = true → (berthOf s b).runs = none →
      betweenSlices s = true → nextEntry s = some e →
      let part := tsPart (tabGet 0 s.glob.tsEnt e)
      (berthOf s b).saved.find? (fun y => y.part == part) = some x → areaReady s part (saveBase s part b) 193 = true →
      drainBerth b (restoreLaunches (restoreBerth (if (berthOf s b).holds = some part then s else clearBerth s b) b x) part) = .ok ((), u) →
      exec (.coreResumption b) s = .next u) ∧
    (∀ e, betweenSlices s = true → slicedBerths s ≠ [] → nextEntry s = some e →
      let part := tsPart (tabGet 0 s.glob.tsEnt e)
      (∀ b ∈ slicedBerths s, (berthOf s b).runs = some part) →
      let t := placeAgain (restoreLaunches s part) part
      exec .sliceBegin s =
        .next { t with glob := { t.glob with slice := some e, sliceAt := t.clk, sliceEnding := false, lastSlice := e } }) ∧
    (∀ e, s.glob.slice = some e → s.glob.sliceEnding = false →
      s.glob.sliceAt + tsLength (tabGet 0 s.glob.tsEnt e) * 1400 ≤ s.clk →
      let t := (slicedBerths s).foldl (fun s b => if (berthOf s b).runs.isNone then s
        else setBerth s b { berthOf s b with sliceEnd := some ⟨s.clk, tsDeadline (tabGet 0 s.glob.tsEnt e) * 1400, false, false, false⟩ }) s
      exec .sliceEnd s = .next { t with glob := { t.glob with sliceEnding := true } }) ∧
    (∀ b e part, (berthOf s b).sliceEnd = some e → (berthOf s b).runs = some part →
      ((berthOf s b).dbg.halted = false →
        (e.saving = true ∨ (e.draining = true ∧ groupsOn s b = []) → saveReady s part b = true →
          exec (.berthSliceEnd b) s = .next (saveBerth s part b)) ∧
        (e.saving = false → e.draining = false → orderable s part →
          let c := sliceChoice s b e.deadline
          (c = 2 → ∀ i < 4, listReady s (4 * b + i) = true) →
          let t := logged s part (.sliceChoice b c)
          exec (.berthSliceEnd b) s = .next (
            if c = 0 then setBerth t b { berthOf t b with sliceEnd := some { e with draining := true } }
            else if c = 1 then trySave t part b
            else if c = 2 then trySave (discardBerth t b) part b
            else trySave (raisePart t part 12) part b)) ∧
        (e.draining = true → e.at_ + e.deadline ≤ s.clk → groupsOn s b ≠ [] →
          exec (.drainDeadlineExpiry b) s = .next (trySave (raisePart s part 12) part b))) ∧
      ((berthOf s b).dbg.halted = true → e.overrunRaised = false → e.at_ + e.deadline ≤ s.clk →
        exec (.haltedSliceEndOverrun b) s =
          .next (raisePart (setBerth s b { berthOf s b with sliceEnd := some { e with overrunRaised := true } }) part 12))) ∧
    (∀ id l p idx, tabFind? s.launches id = some l → l.placed.find? (fun p => p.idx == idx) = some p → p.gen = tabGet 0 l.gens idx →
      (∀ k ∈ p.cores, (coreOf s k).gdone = true ∧ taskOf (coreOf s k) id = false ∧ copyOf s k id = false ∧
        (coreOf s k).preempted = false ∧ (coreOf s k).place.map (fun y => (y.seq, y.idx)) = some (l.seqNo, idx) ∧
        releaseReady s (coreBerth k) 4 = true ∧ listReady s k = true ∧ updatesLeft s k = false) → orderable s l.part →
      exec (.groupRetirement id idx) s = .next (restoreWaiting ((p.cores.map coreBerth).eraseDups.foldl drainComplete
        (retireGroup (logged s l.part (.retired id idx)) id l p)))) ∧
    (∀ id l, tabFind? s.launches id = some l → l.dlLeft ≠ 0 → l.deadlineRaised = false → l.acceptedAt + l.dlLeft * 1400 ≤ s.clk →
      exec (.launchDeadlineExpiry id) s = .next (raisePart (setLaunch s id { l with deadlineRaised := true }) l.part 4)) ∧
    (∀ part,
      let mine := s.launches.filter fun e => e.2.part == part
      let stopped := mine.map fun e => (e.1, { e.2 with dlLeft := deadlineLeft s e.2, acceptedAt := s.clk })
      let held := (((partOf s part).suspended.map fun e => (e.1, e.2.2)) ++ stopped).mergeSort fun a b => a.2.seqNo ≤ b.2.seqNo
      let all := held.zipIdx.map fun e => (e.1.1, e.2, e.1.2)
      partitionIdle s part = true → mine ≠ [] → areaReady s part (blockPage s part 0) ((all.length + 3) / 4) = true →
      let t := writeBlocks s part all
      let u := setPart t part { partOf t part with suspended := all }
      exec (.launchSuspend part) s =
        .next (restoreWaiting (renameLaunches { u with launches := u.launches.filter fun e => e.2.part != part } part
          (mine.map fun e => ⟨e.2.seqNo, e.1, 128 + e.2.seqNo⟩))))

/-! ### Numbers -/

/-- R149: an E8M0 byte stands for a power of two from 2^-127 to 2^127; 0xFF is NaN; there is no zero, no sign and no infinity. -/
def Obligations.ScaleBytes : Prop :=
  ∀ x : Nat, x < 256 →
    (x = 0xFF → decodeE8M0 x = .nan) ∧
    (x < 0xFF → decodeE8M0 x = .fin false 1 ((x : Int) - 127) false)

/-- R166, R167: the rounding scalar instructions write the FP32 code of their result, rounded in the mode of `kround`, add its flags to
`kfflags` and, under SR, advance the seed once.
R166, R168: the instructions that do not round set no flag and do not advance the seed: minimum and maximum, the compares, which
are 0 for a NaN operand but for `fcmp.un`, and the sign injections, which give the default NaN for a NaN.
Where the model reads the rules further than their words, it follows its own log entry 25. -/
def Obligations.ScalarFloats : Prop :=
  (∀ (s : State) (eb ea : BitVec 1) (b a d : BitVec 5), readableX s a → writableX s d →
     let rm := roundingOf ((me s).rmode.toNat, (me s).seed.toNat) 0
     let res := fun (r : Nat × BitVec 5) (v : Dbl) => after (withX (flagged (seeded s) r.2) d v) 4
     (readableX s b → ∀ e ∈ ([
       (Instr.fadd, fun x y => fpAdd fFP32 rm x y),
       (Instr.fsub, fun x y => fpAdd fFP32 rm x (negNum y)),
       (Instr.fmul, fun x y => fpMul fFP32 rm x y)] :
       List ((BitVec 1 → BitVec 1 → BitVec 1 → BitVec 5 → BitVec 5 → BitVec 5 → Instr) × (FpNum → FpNum → Nat × BitVec 5))),
       let r := e.2 (f32Of (regX s a)) (f32Of (regX s b))
       exec (e.1 0 eb ea b a d) s = .next (res r (f32Res r.1))) ∧
     (readableX s b → readableX s d →
       let r := fpFma fFP32 rm (f32Of (regX s a)) (f32Of (regX s b)) (f32Of (regX s d))
       exec (.fmadd 0 eb ea b a d) s = .next (res r (f32Res r.1))) ∧
     (∀ e ∈ ([
       (Instr.fcvtLF, fun x => encodeElem 0x07 rm (f32Of x)),
       (Instr.fcvtLuF, fun x => ((encodeRange 0 (2 ^ 64 - 1) rm (f32Of x)).1.toNat, (encodeRange 0 (2 ^ 64 - 1) rm (f32Of x)).2)),
       (Instr.fcvtFL, fun x => encF32 rm (numInt x.toInt)),
       (Instr.fcvtFLu, fun x => encF32 rm (numInt x.toNat))] :
       List ((BitVec 1 → BitVec 1 → BitVec 5 → BitVec 5 → Instr) × (Dbl → Nat × BitVec 5))),
       let r := e.2 (regX s a)
       exec (e.1 0 ea a d) s = .next (res r (BitVec.ofNat 64 r.1)))) ∧
  (∀ (s : State) (eb ea : BitVec 1) (b a d : BitVec 5), readableX s a → readableX s b → writableX s d →
     ∀ e ∈ ([
       (Instr.fmin, fun x y => f32Res (fpPick fFP32 false (x.toNat % 2 ^ 32) (y.toNat % 2 ^ 32))),
       (Instr.fmax, fun x y => f32Res (fpPick fFP32 true (x.toNat % 2 ^ 32) (y.toNat % 2 ^ 32))),
       (Instr.fcmpEq, fun x y => if fpEq (f32Of x) (f32Of y) then 1 else 0),
       (Instr.fcmpLt, fun x y => if fpLt (f32Of x) (f32Of y) then 1 else 0),
       (Instr.fcmpLe, fun x y => if fpLe (f32Of x) (f32Of y) then 1 else 0),
       (Instr.fcmpUn, fun x y => if isNan (f32Of x) ∨ isNan (f32Of y) then 1 else 0),
       (Instr.fsgnj, fun x y => if isNan (f32Of x) then 0x7FC00000
         else BitVec.ofNat 64 (x.toNat % 2 ^ 31 + if y.getLsbD 31 then 2 ^ 31 else 0)),
       (Instr.fsgnjn, fun x y => if isNan (f32Of x) then 0x7FC00000
         else BitVec.ofNat 64 (x.toNat % 2 ^ 31 + if y.getLsbD 31 then 0 else 2 ^ 31)),
       (Instr.fsgnjx, fun x y => if isNan (f32Of x) then 0x7FC00000
         else BitVec.ofNat 64 (x.toNat % 2 ^ 31 + if x.getLsbD 31 = y.getLsbD 31 then 0 else 2 ^ 31))] :
       List ((BitVec 1 → BitVec 1 → BitVec 1 → BitVec 5 → BitVec 5 → BitVec 5 → Instr) × (Dbl → Dbl → Dbl))),
       exec (e.1 0 eb ea b a d) s = .next (after (withX s d (e.2 (regX s a) (regX s b))) 4))

/-- R194 to R196: a special function enters the berth's queue of 16 with its operands, mask, rounding mode and seed sampled, vd waiting for
the result; the head of the queue starts; the result fills the active lanes of vd and its flags join `kfflags`.
Where the model reads the rules further than their words, it follows its own log entries 27, 28. -/
def Obligations.SpecialFunctionsQueue : Prop :=
  ∀ (s : State),
    (∀ (m : BitVec 3) (a v : BitVec 6), readableM s m → readableV s a → writableV s v → (m ≠ 0 → readableV s v) →
      (berthOf s (myBerth s)).sfuQ.length < 16 → (∀ k c, (ctxOf s k c).sfuSaved = []) →
      ∀ e ∈ ([(Instr.sexp2, 0), (Instr.slog2, 1), (Instr.srcp, 2), (Instr.srsqrt, 3), (Instr.ssqrt, 4), (Instr.ssin, 5),
          (Instr.scos, 6)] : List ((BitVec 3 → BitVec 6 → BitVec 6 → Instr) × Nat)),
        let t := emptyV (seeded s) v
        let y := berthOf s (myBerth s)
        let r : SfuReq := ⟨s.cur.core, s.cur.ctx, BitVec.ofNat 4 e.2, physV (me s) v.toNat, regV s a, oldV s m v, regM s m, (me s).rmode,
          (me s).seed, s.nextReq, (me s).epoch⟩
        exec (e.1 m a v) s =
          .next (after (setBerth { t with nextReq := s.nextReq + 1 } (myBerth s) { y with sfuQ := y.sfuQ ++ [r] }) 4)) ∧
    (∀ b r rest, (berthOf s b).dbg.halted = false → (berthOf s b).sfuQ = r :: rest →
      exec (.sfuRequestStart b) s =
        .next (setBerth s b { berthOf s b with sfuQ := rest, sfuRun := (berthOf s b).sfuRun ++ [r] })) ∧
    (∀ b i r, (berthOf s b).sfuRun[i]? = some r → (r.dst < 28 ∨ 32 ≤ r.dst) → (ctxOf s r.core r.ctx).mode ≠ .free →
      (ctxOf s r.core r.ctx).epoch = r.epoch →
      let lane := fun (j : Nat) => sfuLane r.fn.toNat (roundingOf (r.mode.toNat, r.seed.toNat) j) (elemOf r.va.toNat 32 j)
      let x := putV (ctxOf s r.core r.ctx) r.dst (mergeElems r.mask 32 r.vd fun j => (lane j).1)
      exec (.sfuResultDelivery b i) s =
        .next (setCtx (setBerth s b { berthOf s b with sfuRun := removeAt (berthOf s b).sfuRun i }) r.core r.ctx
          { x with fflags := x.fflags ||| flagsOf r.mask 32 fun j => (lane j).2 }))

/-! ### Vectors -/

/-- R177, R178, R180, R181: the integer vector instructions write, for each active element, what their row gives (modulo the element size),
keep the inactive elements of vd, and change nothing else. The mask is that of m, all elements being active under m0. -/
def Obligations.VectorIntegersCompute : Prop :=
  ∀ (s : State) (m : BitVec 3) (b a v : BitVec 6) (w : BitVec 2), readableV s a → writableV s v →
    let n := 8 * 2 ^ w.toNat
    (readableM s m → readableV s b → (m ≠ 0 → readableV s v) → ∀ e ∈ ([
      (Instr.vadd, fun x y => x + y),
      (Instr.vsub, fun x y => x + 2 ^ n - y),
      (Instr.vadds, fun x y => satSigned n (signedNat x n + signedNat y n)),
      (Instr.vaddus, fun x y => min (2 ^ n - 1) (x + y)),
      (Instr.vsubs, fun x y => satSigned n (signedNat x n - signedNat y n)),
      (Instr.vsubus, fun x y => x - y),
      (Instr.vmul, fun x y => x * y),
      (Instr.vmulh, fun x y => wrapInt (signedNat x n * signedNat y n / (2 ^ n : Nat)) n),
      (Instr.vmin, fun x y => if signedNat y n < signedNat x n then y else x),
      (Instr.vmax, fun x y => if signedNat x n < signedNat y n then y else x),
      (Instr.vminu, fun x y => min x y),
      (Instr.vmaxu, fun x y => max x y),
      (Instr.vsll, fun x y => x * 2 ^ (y % n)),
      (Instr.vsrl, fun x y => x / 2 ^ (y % n)),
      (Instr.vsra, fun x y => wrapInt (signedNat x n / (2 ^ (y % n) : Nat)) n)] :
      List ((BitVec 3 → BitVec 6 → BitVec 6 → BitVec 6 → BitVec 2 → Instr) × (Nat → Nat → Nat))),
      exec (e.1 m b a v w) s = .next (after (withV s v (mergeElems (regM s m) n (oldV s m v)
        fun j => e.2 (elemOf (regV s a).toNat n j) (elemOf (regV s b).toNat n j))) 4)) ∧
    (readableV s b → ∀ e ∈ ([
      (Instr.vmulhu, fun x y => x * y / 2 ^ n),
      (Instr.vavgu, fun x y => (x + y + 1) / 2),
      (Instr.vand, fun x y => x &&& y),
      (Instr.vor, fun x y => x ||| y),
      (Instr.vxor, fun x y => x ^^^ y),
      (Instr.vandn, fun x y => x &&& (2 ^ n - 1 - y))] :
      List ((BitVec 6 → BitVec 6 → BitVec 6 → BitVec 2 → Instr) × (Nat → Nat → Nat))),
      exec (e.1 b a v w) s = .next (after (withV s v (mergeElems 0xFFFF n 0
        fun j => e.2 (elemOf (regV s a).toNat n j) (elemOf (regV s b).toNat n j))) 4)) ∧
    exec (.vabs a v w) s = .next (after (withV s v (mergeElems 0xFFFF n 0
      fun j => min (2 ^ (n - 1) - 1) (signedNat (elemOf (regV s a).toNat n j) n).natAbs)) 4)

/-- R182, R183: the floating vector instructions on FP16, BF16 or FP32 elements: the rounding ones use the hash of their element under SR,
add the flags of the active elements and advance the seed once; the others set no flag.
Where the model reads the rules further than their words, it follows its own log entry 25. -/
def Obligations.VectorFloatsCompute : Prop :=
  ∀ (s : State) (m : BitVec 3) (b a v : BitVec 6) (w : BitVec 2), w ≠ 3 → readableM s m → readableV s a → writableV s v →
    (m ≠ 0 → readableV s v) →
    let fmt := vfFmt w
    let n := (elemBits fmt).getD 32
    let ms := ((me s).rmode.toNat, (me s).seed.toNat)
    let x := fun j => elemOf (regV s a).toNat n j
    let y := fun j => elemOf (regV s b).toNat n j
    (readableV s b → ∀ e ∈ ([
      (Instr.vfadd, fun r p q => fpAdd fmt r p q),
      (Instr.vfsub, fun r p q => fpAdd fmt r p (negNum q)),
      (Instr.vfmul, fun r p q => fpMul fmt r p q)] :
      List ((BitVec 3 → BitVec 6 → BitVec 6 → BitVec 6 → BitVec 2 → Instr) × (Rounding → FpNum → FpNum → Nat × BitVec 5))),
      let r := fun j => e.2 (roundingOf ms j) (decodeElem fmt (x j)) (decodeElem fmt (y j))
      exec (e.1 m b a v w) s =
        .next (after (withV (flagged (seeded s) (flagsOf (regM s m) n fun j => (r j).2)) v
          (mergeElems (regM s m) n (oldV s m v) fun j => (r j).1)) 4)) ∧
    (readableV s b → readableV s v →
      let z := fun j => elemOf (regV s v).toNat n j
      let r := fun j => fpFma fmt (roundingOf ms j) (decodeElem fmt (x j)) (decodeElem fmt (y j)) (decodeElem fmt (z j))
      exec (.vfma m b a v w) s =
        .next (after (withV (flagged (seeded s) (flagsOf (regM s m) n fun j => (r j).2)) v
          (mergeElems (regM s m) n (regV s v) fun j => (r j).1)) 4)) ∧
    (readableV s b →
      exec (.vfmin m b a v w) s =
        .next (after (withV s v (mergeElems (regM s m) n (oldV s m v) fun j => fpPick fmt false (x j) (y j))) 4) ∧
      exec (.vfmax m b a v w) s =
        .next (after (withV s v (mergeElems (regM s m) n (oldV s m v) fun j => fpPick fmt true (x j) (y j))) 4)) ∧
    exec (.vfabs m a v w) s =
      .next (after (withV s v (mergeElems (regM s m) n (oldV s m v) fun j => signElem fmt true (x j))) 4) ∧
    exec (.vfneg m a v w) s =
      .next (after (withV s v (mergeElems (regM s m) n (oldV s m v) fun j => signElem fmt false (x j))) 4)

/-- R184: a compare sets, for each element, all the mask bits of the element's bytes or none; signed, unsigned and floating types compare as
their row says; types outside a compare's row trap with ILLEGAL.
R185: the mask instructions; m0 reads ones and a write of it is discarded; a mask that an uncorrectable error has struck traps its
reader (R357). -/
def Obligations.ComparesAndMasks : Prop :=
  (∀ (s : State) (t : BitVec 3) (b a : BitVec 6) (d : BitVec 3), readableV s a → readableV s b →
     ∀ e ∈ ([
       (Instr.vcmpEq, decide (t ≠ 7), fun _ x y => decide (x = y), fun p q => fpEq p q),
       (Instr.vcmpLt, decide (t ≠ 7), fun n x y => decide (signedNat x n < signedNat y n), fun p q => fpLt p q),
       (Instr.vcmpLe, decide (t ≠ 7), fun n x y => decide (signedNat x n ≤ signedNat y n), fun p q => fpLe p q),
       (Instr.vcmpLtu, decide (t.toNat < 4), fun _ x y => decide (x < y), fun _ _ => false),
       (Instr.vcmpLeu, decide (t.toNat < 4), fun _ x y => decide (x ≤ y), fun _ _ => false),
       (Instr.vfcmpUn, decide (4 ≤ t.toNat ∧ t ≠ 7), fun _ _ _ => false, fun p q => isNan p || isNan q)] :
       List ((BitVec 3 → BitVec 6 → BitVec 6 → BitVec 3 → Instr) × Bool × (Nat → Nat → Nat → Bool) × (FpNum → FpNum → Bool))),
       let n := cmpWidth t
       let bits := fun j => match cmpFmt t with
         | some f => e.2.2.2 (decodeElem f (elemOf (regV s a).toNat n j)) (decodeElem f (elemOf (regV s b).toNat n j))
         | none => e.2.2.1 n (elemOf (regV s a).toNat n j) (elemOf (regV s b).toNat n j)
       exec (e.1 t b a d) s =
         if e.2.1 then .next (after (withM s d (cmpMask n bits)) 4)
         else .next (traps s cILLEGAL (illegalDetail 1 false (encode (e.1 t b a d))) false)) ∧
  (∀ (s : State) (b a d : BitVec 3) (x : BitVec 5), readableM s a → readableM s b →
     exec (.mand b a d) s = .next (after (withM s d (regM s a &&& regM s b)) 4) ∧
     exec (.mor b a d) s = .next (after (withM s d (regM s a ||| regM s b)) 4) ∧
     exec (.mxor b a d) s = .next (after (withM s d (regM s a ^^^ regM s b)) 4) ∧
     exec (.mandn b a d) s = .next (after (withM s d (regM s a &&& ~~~ regM s b)) 4) ∧
     exec (.mnot a d) s = .next (after (withM s d (~~~ regM s a)) 4) ∧
     (readableX s x → exec (.mmvMx x d) s = .next (after (withM s d ((regX s x).setWidth 16)) 4)) ∧
     (writableX s x → exec (.mmvXm a x) s = .next (after (withX s x (BitVec.ofNat 64 (regM s a).toNat)) 4)) ∧
     (writableX s x → exec (.mpop a x) s =
       .next (after (withX s x (BitVec.ofNat 64 ((List.range 16).countP fun i => (regM s a).getLsbD i))) 4)) ∧
     (∀ (r : BitVec 3) (e : Dbl), r ≠ 0 → tabGet .full (me s).ms r.toNat = .error e →
       exec (.mnot r d) s = .next (traps s cUNCORR e false)))

/-- R186, R187: the permutes choose elements of the pair of sources, the first source lower; the moves copy elements between files. -/
def Obligations.VectorMoves : Prop :=
  ∀ (s : State) (m sel w k : BitVec 3) (i : BitVec 6) (b a v : BitVec 6) (x : BitVec 5),
    readableM s m → readableM s sel → readableV s a → writableV s v →
    let n := 8 * 2 ^ w.toNat
    let c := 128 / n
    let both := (regV s a).toNat + (regV s b).toNat * 2 ^ 128
    let pick := fun (e : Nat) (f : Nat → Nat) =>
      after (withV s v (BitVec.ofNat 128 (packElems e ((List.range (128 / e)).map fun j => elemOf both e (f j))))) 4
    (w.toNat < 4 → readableV s b →
      exec (.vzipLo w b a v) s = .next (pick n fun j => j / 2 + j % 2 * c) ∧
      exec (.vzipHi w b a v) s = .next (pick n fun j => c / 2 + j / 2 + j % 2 * c) ∧
      exec (.vunzipEv w b a v) s = .next (pick n fun j => 2 * j) ∧
      exec (.vunzipOd w b a v) s = .next (pick n fun j => 2 * j + 1)) ∧
    (readableV s b →
      exec (.vextLo k b a v) s = .next (pick 8 fun j => k.toNat + j) ∧
      exec (.vextHi k b a v) s = .next (pick 8 fun j => k.toNat + 8 + j) ∧
      exec (.vsel sel b a v) s = .next (after (withV s v (mergeElems (regM s sel) 8 (regV s b) fun j => elemOf (regV s a).toNat 8 j)) 4) ∧
      ((m ≠ 0 → readableV s v) → exec (.vshuf m b a v) s = .next (after (withV s v (mergeElems (regM s m) 8 (oldV s m v) fun j =>
        if elemOf (regV s b).toNat 8 j / 16 = 0 then elemOf (regV s a).toNat 8 (elemOf (regV s b).toNat 8 j % 16) else 0)) 4))) ∧
    (w.toNat < 4 → i.toNat < c →
      exec (.vbcast w i a v) s = .next (after (withV s v (mergeElems 0xFFFF n 0 fun _ => elemOf (regV s a).toNat n i.toNat)) 4) ∧
      (writableX s x → exec (.vmvXv w i a x) s = .next (after (withX s x (BitVec.ofNat 64 (elemOf (regV s a).toNat n i.toNat))) 4))) ∧
    ((m ≠ 0 → readableV s v) → readableX s x → ∀ w : BitVec 2,
      exec (.vmvVx m w x v) s =
        .next (after (withV s v (mergeElems (regM s m) (8 * 2 ^ w.toNat) (oldV s m v) fun _ => (regX s x).toNat)) 4)) ∧
    (w.toNat < 4 → ∀ l : BitVec 12,
      exec (.vli w l v) s = .next (after (withV s v (mergeElems 0xFFFF n 0 fun _ => wrapInt l.toInt n)) 4)) ∧
    ((m ≠ 0 → readableV s v) →
      exec (.vmv m a v) s = .next (after (withV s v (mergeElems (regM s m) 8 (oldV s m v) fun j => elemOf (regV s a).toNat 8 j)) 4))

/-- R188, R189: the reductions fold the active elements, in rising order, into xd, and the dot products into the lanes of vd.
Where the model reads the rules further than their words, it follows its own log entries 25, 26. -/
def Obligations.ReductionsCompute : Prop :=
  ∀ (s : State) (m : BitVec 3) (b a v : BitVec 6) (d : BitVec 5), readableM s m → readableV s a →
    let mask := regM s m
    let ms := ((me s).rmode.toNat, (me s).seed.toNat)
    (readableX s d → ∀ w : BitVec 2,
      let n := 8 * 2 ^ w.toNat
      let es := (activeElems mask n (regV s a)).map fun e => signedNat e.2 n
      exec (.vredaddInt w m a d) s = .next (after (withX s d (BitVec.ofInt 64 ((regX s d).toInt + es.sum))) 4) ∧
      exec (.vredmaxInt w m a d) s = .next (after (withX s d (BitVec.ofInt 64 (es.foldl max (regX s d).toInt))) 4)) ∧
    (readableX s d →
      let r := (activeElems mask 32 (regV s a)).foldl (fun (p : Nat × BitVec 5) e =>
        ((fpAdd fFP32 (roundingOf ms e.1) (decF32 p.1) (decF32 e.2)).1,
          p.2 ||| (fpAdd fFP32 (roundingOf ms e.1) (decF32 p.1) (decF32 e.2)).2)) ((regX s d).toNat % 2 ^ 32, 0)
      exec (.vredaddF32 m a d) s = .next (after (withX (flagged (seeded s) r.2) d (BitVec.ofNat 64 r.1)) 4) ∧
      exec (.vredmaxF32 m a d) s = .next (after (withX s d (BitVec.ofNat 64
        ((activeElems mask 32 (regV s a)).foldl (fun c e => fpPick fFP32 true c e.2) ((regX s d).toNat % 2 ^ 32)))) 4)) ∧
    (readableV s b → readableV s v →
      let x := fun j => elemOf (regV s a).toNat 32 j
      let y := fun j => elemOf (regV s b).toNat 32 j
      let z := fun j => elemOf (regV s v).toNat 32 j
      let p := fun j i => signedNat (elemOf (x j) 8 i) 8 * signedNat (elemOf (y j) 8 i) 8
      exec (.vdot4 m b a v) s = .next (after (withV s v (mergeElems mask 32 (regV s v) fun j =>
        wrapInt ((z j : Int) + p j 0 + p j 1 + p j 2 + p j 3) 32)) 4) ∧
      (let r := fun j => dot2Lane (roundingOf ms j) (x j) (y j) (z j)
       exec (.vdot2 m b a v) s = .next (after (withV (flagged (seeded s) (flagsOf mask 32 fun j => (r j).2)) v
        (mergeElems mask 32 (regV s v) fun j => (r j).1)) 4)))

/-- R190 to R192: `vcvt` converts one part of a vector under a legal control word, each written element by one decode, scale and rounding, and
keeps the other elements where the part does not fill vd; an illegal control word traps with ILLEGAL and the word as detail. `vredamax`
gives the largest magnitude, and `vmxsc` the block scale of a magnitude.
Where the model reads the rules further than their words, it follows its own log entry 25. -/
def Obligations.ConversionsCompute : Prop :=
  ∀ (s : State) (m : BitVec 3) (b : BitVec 5) (a v : BitVec 6) (d : BitVec 5), readableX s b →
    let c := regX s b
    let ms := ((me s).rmode.toNat, (me s).seed.toNat)
    (readableM s m → readableV s a → writableV s v → ctlOk c = true → ((convKeeps c || m != 0) = true → readableV s v) →
      let old := if (convKeeps c || m != 0) then regV s v else 0
      let es := (elemBits (ctlSrc c)).getD 8
      let ed := (elemBits (ctlDst c)).getD 8
      let written := (convPairs c).filter fun e => active (regM s m) ed e.1
      let code := fun (e : Nat × Nat) =>
        if fmtCount (ctlSrc c) ≤ e.2 then (0, 0) else convElem c (roundingOf ms e.1) (elemOf (regV s a).toNat es e.2)
      exec (.vcvt m b a v) s =
        .next (after (withV (flagged (seeded s) (written.foldl (fun acc e => acc ||| (code e).2) 0)) v
          (BitVec.ofNat 128 (packElems ed ((List.range (fmtCount (ctlDst c))).map fun j =>
            match tabFind? written j with
            | some i => (code (j, i)).1
            | none => elemOf old.toNat ed j)))) 4)) ∧
    (readableV s a → writableV s v → (m ≠ 0 → readableV s v) → ctlOk c = false → exec (.vcvt m b a v) s = .next (traps s cILLEGAL c false)) ∧
    (readableM s m → readableV s a → readableX s d → c.toNat < 64 → amaxFormat (ctlSrc c) = true →
      let vs := decF32 (regX s d).toNat :: (activeElems (regM s m) ((elemBits (ctlSrc c)).getD 8) (regV s a)).map
        fun e => decodeElem (ctlSrc c) e.2
      let top := vs.foldl (fun t x => if cmpNum t (absNum x) = .lt then absNum x else t) (.zero false)
      exec (.vredamax m b a d) s = .next (after (withX s d
        (if vs.any notFinite then 0x7F800000 else BitVec.ofNat 64 (encF32 ⟨0, 0⟩ top).1)) 4)) ∧
    (∀ f : BitVec 6, scaledFormat f = true → writableX s d →
      exec (.vmxsc f b d) s = .next (after (withX s d (BitVec.ofNat 64 (mxScale f.toNat (absNum (decF32 c.toNat))))) 4))

/-- R8, R9, R177 to R189: the same for instructions whose destination is a vector register. -/
def Obligations.VectorFrames : Prop :=
  ∀ (s t : State) (m : BitVec 3) (b a v : BitVec 6) (w : BitVec 2) (w3 : BitVec 3) (k6 : BitVec 6) (x : BitVec 5) (i12 : BitVec 12),
    (me s).mode = .running →
    ∀ e ∈ ([
      (Instr.vadd m b a v w, false), (.vsub m b a v w, false), (.vadds m b a v w, false), (.vaddus m b a v w, false),
      (.vsubs m b a v w, false), (.vsubus m b a v w, false), (.vmul m b a v w, false), (.vmulh m b a v w, false),
      (.vmin m b a v w, false), (.vmax m b a v w, false), (.vminu m b a v w, false), (.vmaxu m b a v w, false),
      (.vsll m b a v w, false), (.vsrl m b a v w, false), (.vsra m b a v w, false), (.vmulhu b a v w, false), (.vavgu b a v w, false),
      (.vabs a v w, false), (.vand b a v w, false), (.vor b a v w, false), (.vxor b a v w, false), (.vandn b a v w, false),
      (.vfadd m b a v w, true), (.vfsub m b a v w, true), (.vfmul m b a v w, true), (.vfma m b a v w, true),
      (.vfmin m b a v w, true), (.vfmax m b a v w, true), (.vfabs m a v w, false), (.vfneg m a v w, false), (.vcvt m x a v, true),
      (.vshuf m b a v, false), (.vzipLo w3 b a v, false), (.vzipHi w3 b a v, false), (.vunzipEv w3 b a v, false),
      (.vunzipOd w3 b a v, false), (.vbcast w3 k6 a v, false), (.vextLo w3 b a v, false), (.vextHi w3 b a v, false),
      (.vsel w3 b a v, false), (.vdot4 m b a v, true), (.vdot2 m b a v, true), (.vmvVx m w x v, false), (.vli w3 i12 v, false),
      (.vmv m a v, false)] : List (Instr × Bool)),
    exec e.1 s = .next t → (me t).mode = .running →
      vectorsOnly s t v ∧ (e.2 = false → (me t).fflags = (me s).fflags ∧ (me t).seed = (me s).seed)

/-! ### The lighter -/

/-- R259, R272, R273: the shadow registers take what is written to them, unchecked; `cpstat` reads a channel's numbering and its fault
record, whose second double it clears; `cpnote` answers 3 for a number not issued, 1 with a message at once for a completed transfer, 2 when
eight notes wait, and otherwise 0 with the note registered.
R258, R262: a start command whose control word, operands, revocation and shape all pass, and whose earlier accesses have performed,
releases at quay scope and either is accepted, giving xd the transfer's number, or is refused: the queue of 16 full (why 1), or for `cpcast`
no power leave (why 2).
Where the model reads the rules further than their words, it follows its own log entries 20, 36, 37. -/
def Obligations.CopiesStart : Prop :=
  (∀ (s : State) (l : BitVec 1),
     let x := me s
     let h := shadowOf x l
     let f := xferOf x l.toNat
     let shadow := fun (h : Shadow) => after (withMe s (setShadow x l h)) 4
     (∀ c : BitVec 4, readableC s c →
       exec (.cpsetSrc l c) s = .next (shadow { h with src := regC s c }) ∧
       exec (.cpsetDst l c) s = .next (shadow { h with dst := regC s c }) ∧
       exec (.cpsetAux l c) s = .next (shadow { h with aux := regC s c })) ∧
     (∀ r : BitVec 5, readableX s r →
       exec (.cpsetCtl r l) s = .next (shadow { h with ctl := regX s r }) ∧
       exec (.cpsetMlo r l) s = .next (shadow { h with mlo := regX s r }) ∧
       exec (.cpsetMhi r l) s = .next (shadow { h with mhi := regX s r })) ∧
     (∀ d : BitVec 5, writableX s d →
       let q := chanOf s (myBerth s) (lighterChan s.cur.core l.toNat)
       exec (.cpstat 0 l d) s = .next (after (withX s d (BitVec.ofNat 64 (f.next.toNat + f.count.toNat * 2 ^ 16 + q.length * 2 ^ 32 +
         boolBit (match q with | c :: _ => c.parked.isSome | [] => false) * 2 ^ 37 + boolBit f.frec.isSome * 2 ^ 38))) 4) ∧
       exec (.cpstat 1 l d) s = .next (after (withX s d ((f.frec.map (·.1)).getD 0)) 4) ∧
       exec (.cpstat 2 l d) s =
         .next (after (withX (withMe s (setXfer x l.toNat { f with frec := none })) d ((f.frec.map (·.2)).getD 0)) 4) ∧
       ∀ r : BitVec 5, readableX s r →
         let v := regX s r
         (fieldOf v 20 28 ≠ 0 → exec (.cpnote r l d) s = .next (traps s cILLEGAL (illegalDetail 4 false (encode (.cpnote r l d))) false)) ∧
         (fieldOf v 20 28 = 0 →
           exec (.cpnote r l d) s =
             if (v.setWidth 16 - f.next).toNat < 32768 then .next (after (withX s d 3) 4)
             else if (f.count - v.setWidth 16).toNat < 32768 then
               .next (after (withX (post s (lighterMessage s.cur.core x.part s.cur.core (tabGet 0 f.classes (v.setWidth 16).toNat) 0
                 (fieldOf v 16 4) 0x800000000 0)) d 1) 4)
             else if 8 ≤ f.notes.length then .next (after (withX s d 2) 4)
             else .next (after (withX (withMe s (setXfer x l.toNat { f with notes := f.notes ++ [v] })) d 0) 4)))) ∧
  (∀ (s u : State) (l : BitVec 1) (d : BitVec 5),
     let h := shadowOf (me s) l
     let o : CopyOps := ⟨h.src, h.dst, h.aux, h.ctl, h.mlo, h.mhi, 0⟩
     d.toNat < 28 → ctlReservedZero h.ctl = true → ctlPlan h.ctl = false →
     ∀ e ∈ ([(Instr.cpgo, 1), (Instr.cpgath, 4), (Instr.cpscat, 5), (Instr.cpcast, 6), (Instr.cpred, 7)] :
         List ((BitVec 1 → BitVec 5 → Instr) × Nat)),
       copyOperands s.cur.core e.2 o = .ok () → (∀ x ∈ revocable e.2 none o, mapHeld s (me s).part x.1 = false) →
       revokedOperand s (me s).part (revocable e.2 none o) = (none, u) →
       copyShape u (me s).part e.2 o = .ok () → accessesDone u → releaseReady u (myBerth u) 1 = true →
       let r := release u (myBerth u) 1
       let full := 16 ≤ (chanOf r (myBerth s) (lighterChan s.cur.core l.toNat)).length
       (usesList e.2 = true → listWaits r (myBerth s) (newCopy r e.2 l.toNat o) = false) →
       let lv := if e.2 = 6 then castLeave r else (.yes, r)
       let t := acceptCopy lv.2 e.2 l.toNat o
       (full → writableX r d → exec (e.1 l d) s = .next (after (withX r d 0xA000000000000000) 4)) ∧
       (¬ full → lv.1 = .yes → writableX t.2 d → exec (e.1 l d) s = .next (after (withX t.2 d (t.1.setWidth 64)) 4) ∧
         t.1 = (xferOf (me lv.2) l.toNat).next) ∧
       (¬ full → lv.1 = .no → writableX lv.2 d →
         exec (e.1 l d) s = .next (after (withX (withMe lv.2 { me lv.2 with leaveAsk := none }) d 0xC000000000000000) 4)))

/-- R257, R264 to R270: a lighter that is neither halted nor fenced begins the head of the next channel in turn; an element that can be
written is written and counted; one whose walk fails parks the copy, and one that meets an error ends it; a copy that has ended leaves its
channel with the end reported.
R266, R267: the owner of a sub-list serves its rows; a receiving berth of a multicast makes core 0's arrival at slot 3 when the copy
signals; the combined acknowledgement follows the last of them; a multicast of a context alone that has waited 200 clk for leave is refused with why 2.
Where the model reads the rules further than their words, it follows its own log entries 21, 36, 37, 60. -/
def Obligations.CopiesRun : Prop :=
  (∀ (s : State) (b ch : Nat) (c : Copy) (r : List Copy), lighterRuns s b = true → chanOf s b ch = c :: r →
     (nextChannel s b = some ch → usesList c.fn.toNat = false ∨ c.outcome.isSome = true →
       exec (.copyBegin b) s =
         .next (setChan (setBerth s b { berthOf s b with chanRr := ch }) b ch ({ c with running := true } :: r))) ∧
     (c.running = true → c.parked = none → c.outcome = none → c.count < copyTotal c → rowReady s b c = true →
       (∀ c' t, copyElement b c s = .ok (c', t) →
         let n := { c' with count := c'.count + 1, owned := c'.owned.filter fun l => l.2 != c'.count }
         exec (.copyElementWrite b ch) s =
           .next (setChan (countEvent t n.core n.ctx 0xA (copyBytes n (n.count - 1))) b ch (n :: r))) ∧
       (∀ reason detail, copyElement b c s = .error (.page reason detail) →
         exec (.copyElementWrite b ch) s = .next (parkCopy s b ch c r detail)) ∧
       (∀ cause reason, copyElement b c s = .error (.trap cause reason) →
         exec (.copyElementWrite b ch) s =
           .next { setChan s b ch (endedCopy c cause reason.toNat c.count :: r) with freeCtr := s.freeCtr + 3 })) ∧
     (c.running = true → c.parked = none → c.outcome.isSome = true ∨ (c.count = copyTotal c ∧ (c.fn = 6 → c.acked = true)) →
       let t := remoteArrival (reportCopy (setChan s b ch r) c (ch % 2)) c
       exec (.copyEnd b ch) s =
         .next (traceRecord t b 8 ((c.outcome.map CopyOutcome.cause).getD 0).toNat c.core c.ctx (ctxOf t c.core c.ctx).ch.toNat
           (c.id.setWidth 64) (BitVec.ofNat 64 c.count)))) ∧
  (∀ (s : State) (b ch : Nat),
     (∀ c r o i, lighterRuns s b = true → chanOf s b ch = c :: r → c.running = true → c.outcome = none → c.list.isSome = true →
       usesList c.fn.toNat = true → (rowOwners s b c)[i]? = some o →
       (o < 32 ∨ rowLost s (o - 32) = true ∨ ((berthOf s (o - 32)).dbg.halted = false ∧ berthPart s (o - 32) = some c.part)) →
       ∃ rows, exec (.sublistServe b ch i) s = .next (setChan s b ch ({ c with rowsBack := rows } :: r)) ∧
         ∀ j, j ∈ rows ↔ j ∈ c.rowsBack ∨ (j < (c.list.getD []).length ∧ rowOwner s b c j = some o)) ∧
     (∀ c r recv, lighterRuns s b = true → chanOf s b ch = c :: r → c.running = true → c.fn = 6 → c.outcome = none →
       c.count = copyTotal c → recv ∈ c.mask → recv ∉ c.castDone →
       let t := setChan s b ch ({ c with castDone := setInsert c.castDone recv } :: r)
       let a := boomArrive (boomOf t (4 * recv) 3)
       let u := setBoom t (4 * recv) 3 a.2
       exec (.cpcastBerthDone b ch recv) s =
         .next (if ctlSig c.ctl then (if a.1 = 2 then raisePart u c.part 10 else u) else t)) ∧
     (∀ c r, chanOf s b ch = c :: r → c.running = true → c.fn = 6 → c.acked = false → c.castDone = c.mask →
       exec (.cpcastAckArrival b ch) s = .next (setChan s b ch ({ c with acked := true } :: r))) ∧
     (∀ c from_ (d : BitVec 5), (berthOf s b).dbg.halted = false → c < 4 → (∀ j < c, (ctxOf s (4 * b + ch / 2) j).leaveAsk = none) →
       (ctxOf s (4 * b + ch / 2) c).leaveAsk = some (ch % 2, from_, d) → from_ + 200 ≤ s.clk →
       (ctxOf s (4 * b + ch / 2) c).mode = .running →
       (ctxOf s (4 * b + ch / 2) c).follows = none → (ctxOf s (4 * b + ch / 2) c).leading = false →
       let u := { s with cur := ⟨4 * b + ch / 2, c⟩ }
       writableX u d →
       exec (.cpcastLeaveRefused b ch) s = .next
         { withX (withMe u { me u with leaveAsk := none, pc := (me u).pc + 4 }) d 0xC000000000000000 with cur := s.cur }))

/-! ### The matrix array -/

/-- R202, R203, R209 to R211: `mlease` asks for the lease, unless the array is gated (status 2) or the context already holds it or waits for it
(LEASE); `mrel` ends the lease or withdraws the request; `mcfg` sets the completion configuration. The head request is granted once the lease is
free and the array has leave, or refused after 200 clk; leave is given up after 256 clk; a lease idle for 1,024 clk while a request waits ends
and is requested again.
Where the model reads the rules further than their words, it follows its own log entries 6, 39. -/
def Obligations.MatrixLeases : Prop :=
  ∀ (s : State),
    let k := s.cur.core
    let c := s.cur.ctx
    let m := matOf s (myBerth s)
    (∀ (n : BitVec 8) (d : BitVec 5), writableX s d →
      (1 ≤ n.toNat → n.toNat ≤ 64 → holdsLease m k c = false → m.reqs.any (isLeaseReq k c) = false →
        ((berthOf s (myBerth s)).power = 0 →
          exec (.mlease n d) s = .next (after (enterLease { emptyX s d with nextReq := s.nextReq + 1 } (myBerth s)
            ⟨k, c, n.toNat, some (destX d, s.nextReq), (me s).epoch, none⟩) 4)) ∧
        ((berthOf s (myBerth s)).power ≠ 0 → exec (.mlease n d) s = .next (after (withX s d 2) 4))) ∧
      (1 ≤ n.toNat → n.toNat ≤ 64 → (holdsLease m k c || m.reqs.any (isLeaseReq k c)) = true →
        exec (.mlease n d) s = .next (traps s cLEASE 1 false)) ∧
      (n.toNat = 0 ∨ 64 < n.toNat → exec (.mlease n d) s = .next (traps s cILLEGAL (illegalDetail 4 false (encode (.mlease n d))) false))) ∧
    (holdsLease m k c = true → exec .mrel s = .next (after (leaseEnds s (myBerth s)) 4)) ∧
    (holdsLease m k c = false → ∀ r, m.reqs.find? (isLeaseReq k c) = some r →
      exec .mrel s = .next (after (fillLease (dropLeaseReq s k c) k c r.dst 4) 4)) ∧
    (holdsLease m k c = false → m.reqs.any (isLeaseReq k c) = false → exec .mrel s = .next (after s 4)) ∧
    (∀ r : BitVec 5, readableX s r →
      exec (.mcfg r) s = if (regX s r).toNat < 64 then .next (after (withMe s { me s with mcfg := (regX s r).setWidth 6 }) 4)
        else .next (traps s cILLEGAL (regX s r) false)) ∧
    (∀ (b : Nat) (r : LeaseReq) (rest : List LeaseReq), (matOf s b).reqs = r :: rest →
      ((matOf s b).lease = none → (berthOf s b).power = 0 → (matOf s b).leave = true →
        exec (.leaseGrant b) s = .next (setMat (answerLease s b r 1) b
          { matOf s b with reqs := rest, leave := true, lease := some ⟨r.core, r.ctx, r.n, s.clk⟩, lastHolder := some r.core })) ∧
      (∀ asked, r.askedAt = some asked → asked + 200 ≤ s.clk →
        exec (.leaveRefusalTimeout b) s = .next (answerLease s b r 6)) ∧
      (∀ l, (matOf s b).lease = some l → l.idleFrom + 1024 ≤ s.clk →
        exec (.leaseIdleExpiry b) s =
          .next (enterLease (leaseEnds s b) b ⟨l.core, l.ctx, l.left, none, (ctxOf s l.core l.ctx).epoch, none⟩))) ∧
    (∀ b, (matOf s b).leave = true → (matOf s b).lease = none → (matOf s b).reqs = [] → (matOf s b).queue = [] →
      (matOf s b).lastDone + 256 ≤ s.clk → exec (.powerLeaveRelease b) s = .next (setMat s b { matOf s b with leave := false }))

/-- R207, R211 to R221: a matrix command of the lease holder whose operands and shape pass, with a free slot and its earlier accesses
performed, releases at quay scope, enters the array queue with what it samples, counts against the lease, and completes at once for its
context.
R215 to R219: a fused adapter product of the lease holder whose adapter table, index and adapters pass as well enters the array queue with
the adapters that its rows name, sampled once the earlier accesses of its context are released; the cycles that staging adds are the model's free
value (log entry 8).
Where the model reads the rules further than their words, it follows its own log entries 8, 38. -/
def Obligations.MatrixCommandsAccepted : Prop :=
  (∀ (s u v : State) (b c : BitVec 4) (reads writes : List (Nat × Nat)),
     let me' := me s
     let k := myBerth s
     let cc := regC s c
     let cb := regC s b
     readableC s b → readableC s c → holdsLease (matOf s k) s.cur.core s.cur.ctx = true → (matOf v k).queue.length < 4 → accessesDone v →
     releaseReady v k 1 = true →
     (∀ (a : BitVec 4) (t : BitVec 5), readableC s a →
       let ca := regC s a
       let sc := sampledScales ca cb me'.kcsa me'.kcsb
       let cycles := productCycles (max (matClass (capFmt ca)) (matClass (capFmt cb))) (capExt ca 0) (capExt ca 1)
       productOperands k ca cb cc me'.kcsa me'.kcsb a.toNat b.toNat c.toNat none = .ok () →
       checkShape (productRules ca cb cc me'.kcsa me'.kcsb a.toNat b.toNat c.toNat) = .ok () →
       cycles ≤ 1048576 → rangesOf k me'.part [cc] u = .ok (writes, v) →
       let cmd := fun fn => { freshCommand s fn t.toNat with
         a := ca, b := cb, c := cc, sa := me'.kcsa, sb := me'.kcsb, reads := reads, writes := writes, cycles := cycles }
       (rangesOf k me'.part ([ca, cb, cc] ++ sc) s = .ok (reads, u) → exec (.mma c b a t) s = .next (after (commanded v (cmd 3) 0) 4)) ∧
       (rangesOf k me'.part ([ca, cb] ++ sc) s = .ok (reads, u) → exec (.mmaZ c b a t) s = .next (after (commanded v (cmd 4) 0) 4))) ∧
     (∀ t : BitVec 5, matOperand k cc c.toNat 0 (pM + pS) (fun f => f == fFP32) [0xE] = .ok () →
       capRank cc = 2 → capStr cc 0 = 1 → rangesOf k me'.part [cc] s = .ok (writes, v) →
       (capExt cc 0 * capExt cc 1 + 127) / 128 + 12 ≤ 1048576 →
       exec (.mzero c t) s = .next (after (commanded v { freshCommand s 7 t.toNat with
         c := cc, writes := writes, cycles := (capExt cc 0 * capExt cc 1 + 127) / 128 + 12 } 0) 4)) ∧
     (∀ (x : BitVec 5) (t : BitVec 5), readableX s x →
       let f := fieldOf (regX s x) 8 6
       let n := capExt cc 0
       let m := capExt cc 1
       let cycles := (m * n + 127) / 128 + 12
       fieldOf (regX s x) 14 50 = 0 → fieldOf (regX s x) 0 8 = 0 → (matClass f ≠ 0 ∨ f = fFP32) →
       matOperand k cb b.toNat 0 (pM + pS) (fun g => g == f) [0xD] = .ok () →
       matOperand k cc c.toNat 0 pM (fun g => g == fFP32) [0xE] = .ok () →
       (isScaled f = true → matOperand k me'.kcsa b.toNat 1 (pM + pS) (fun g => g == 0x32) [0xD] = .ok ()) →
       capRank cb = 2 → capRank cc = 2 → capExt cb 1 = m → capExt cb 0 = n → capStr cb 0 = 1 →
       capStr cb 1 * (elemBits f).getD 8 % 8 = 0 → capStr cc 0 = 1 → checkShape (scaleRules me'.kcsa f b.toNat 1 n m) = .ok () →
       rangesOf k me'.part [cc] s = .ok (reads, u) →
       rangesOf k me'.part (cb :: (if isScaled f then [me'.kcsa] else [])) u = .ok (writes, v) → cycles ≤ 1048576 →
       exec (.mcvt x c b t) s = .next (after (commanded (seeded v) { freshCommand s 6 t.toNat with
         a := cb, c := cc, sa := me'.kcsa, dfmt := BitVec.ofNat 6 f, mode := me'.rmode, seed := me'.seed, reads := reads, writes := writes
         cycles := cycles } 0) 4))) ∧
  (∀ (s t1 t2 t3 t4 t5 t6 t7 : State) (x : BitVec 5) (c b a t : BitVec 4) (ix : Cap) (rows : List Nat) (loaded : List (Nat × Cap × Cap))
     (adapters : List Adapter) (reads writes : List (Nat × Nat)),
     let me' := me s
     let k := myBerth s
     let ca := regC s a
     let cb := regC s b
     let cc := regC s c
     let ct := regC s t
     let n := capExt cc 0
     let m := capExt ca 1
     let cycles := productCycles (max (matClass (capFmt ca)) (matClass (capFmt cb))) (capExt ca 0) m + adapterCycles (capExt ca 0) m rows
     readableX s x → readableC s a → readableC s b → readableC s c → readableC s t → holdsLease (matOf s k) s.cur.core s.cur.ctx = true →
     fieldOf (regX s x) 37 27 = 0 →
     productOperands k ca cb cc me'.kcsa me'.kcsb a.toNat b.toNat c.toNat (some (ct, t.toNat)) = .ok () →
     mapHeld s me'.part ct = false → revokedOperand s me'.part [(ct, t.toNat, 0)] = (none, t1) → accessesDone t1 → releaseReady t1 k 1 = true →
     tableGranule ct t.toNat 0 (release t1 k 1) = .ok (ix, t2) →
     matOperand k ix t.toNat 3 pM (fun f => f == 0x04) [0, 0xC, 0xD] = .ok () →
     collect (fun i => adapterCode ix ⟨i, 0, 0, 0⟩) (List.range (min m (capExt ix 0))) t2 = .ok (rows, t3) →
     (∀ i ∈ rows, i = 0xFFFF ∨ 2 + 2 * i < capExt ct 0) →
     loadAdapters ct t.toNat ((rows.filter fun i => i != 0xFFFF && decide (2 + 2 * i < capExt ct 0)).eraseDups) t3 = .ok (loaded, t4) →
     checkShape (productRules ca cb cc me'.kcsa me'.kcsb a.toNat b.toNat c.toNat ++
       [⟨matClass (capFmt cb) != 4, 9, b.toNat, 0, capFmt cb⟩, ⟨capRank ct != 1, 1, t.toNat, 6, capRank ct⟩,
        ⟨capRank ix != 1, 1, t.toNat, 3, capRank ix⟩, ⟨decide (capExt ix 0 < m), 3, t.toNat, 3, capExt ix 0⟩] ++
       loaded.flatMap (adapterRules t.toNat (capExt ca 0) n)) = .ok () →
     collect (sampleAdapter (capExt ca 0) n) loaded t4 = .ok (adapters, t5) →
     rangesOf k me'.part ([ca, cb, cc, ct, ix] ++ sampledScales ca cb me'.kcsa me'.kcsb ++ loaded.flatMap fun e => [e.2.1, e.2.2]) t5 =
       .ok (reads, t6) →
     rangesOf k me'.part [cc] t6 = .ok (writes, t7) → cycles ≤ 1048576 → (matOf t7 k).queue.length < 4 → accessesDone t7 →
     releaseReady t7 k 1 = true →
     exec (.mad x c b a t) s = .next (after (commanded { t7 with freeCtr := t7.freeCtr + loaded.length }
       { freshCommand t7 5 (fieldOf (regX s x) 32 5) with
         a := ca, b := cb, c := cc, sa := me'.kcsa, sb := me'.kcsb, alpha := (regX s x).setWidth 32, rows := rows, adapters := adapters
         reads := reads, writes := writes, cycles := cycles } (stagingCycles (capExt ca 0) n t7.freeCtr loaded)) 4))

/-- R214, R222 to R224: the head of the array queue starts, and completes once its cycles have passed: what it computes is written and its
message sent when it has a tag; a command that read unreadable data writes the default NaN everywhere, raises source `mx` of its berth and
always sends its message, with `ue`.
Where the model reads the rules further than their words, it follows its own log entry 38. -/
def Obligations.MatrixCommandsRun : Prop :=
  ∀ (s : State) (b : Nat) (c : MatCmd) (r : List MatCmd), (quayOf s (berthQuay b)).mode = .up → (matOf s b).queue = c :: r →
    (c.started = none →
      exec (.matrixCommandStart b) s = .next (setMat s b { matOf s b with queue := { c with started := some s.clk } :: r })) ∧
    (∀ from_, c.started = some from_ → from_ + c.cycles ≤ s.clk →
      let u := setMat s b { matOf s b with queue := r, lastDone := s.clk }
      let traced := fun (t : State) => traceRecord t b 10 0 c.core c.ctx (ctxOf t c.core c.ctx).ch.toNat (c.tag.setWidth 64)
        (ctxOf t c.core c.ctx).ktask
      (c.bad = false → (c.reads.any fun e => isBad s e.1 e.2) = false →
        let t := traced (runCommand u c).1
        exec (.matrixCommandComplete b) s = .next (if c.tag = 0 then t else post t (matMessage c (runCommand u c).2 false))) ∧
      ((c.bad || c.reads.any fun e => isBad s e.1 e.2) = true →
        exec (.matrixCommandComplete b) s =
          .next (post (traced (raiseIrq (writeNans u c) (512 + b) c.part)) (matMessage c 0 true))))

/-! ### Graph rewriting -/

/-- R327 to R333, R337: on a core of a net launch whose heap is bound, a NET instruction whose operands and node checks pass sends its request
to the homes and its context waits for the reply; `nlink` and `npush` release at partition scope first. `nbag` binds a heap, reads the counts,
registers a note, parks and unparks.
Where the model reads the rules further than their words, it follows its own log entry 57. -/
def Obligations.NetInstructionsAsk : Prop :=
  ∀ (s t u : State) (x : BitVec 5) (a : BitVec 4) (d : BitVec 5) (id : Nat) (l : Launch) (n : Net) (h : Cap) (addr addr2 : Nat),
    let c := regC s a
    let p := regX s x
    let q := regX s (x + 1)
    let reg := a.toNat
    let small := fun (v : Dbl) => v.toNat < 2 ^ 32
    readableC s a → netOf s s.cur.core = some (id, l, n) →
    (writableX t d → n.heap = some h → capBase c = capBase h → nodeIssue c reg (pL + pS) 0 0 32 s = .ok (addr, t) →
      exec (.nalloc a d) s = .next (afterStay (asking t d addr (.alloc d.toNat) c reg))) ∧
    (readableX s x → n.heap = some h → capBase c = capBase h → small p → p ≠ 0 →
      nodeIssue c reg (pL + pS) p.toNat 0 32 s = .ok (addr, t) →
      exec (.nfree x a) s = .next (afterStay (asking t 0 addr (.free p.toNat) c reg))) ∧
    (∀ w : BitVec 3, readableX s x → writableX t d → n.heap = some h → small p →
      nodeIssue c reg pL p.toNat (4 * w.toNat) 4 s = .ok (addr, t) →
      exec (.nload x w a d) s = .next (afterStay (asking t d addr (.load d.toNat p.toNat w.toNat) c reg))) ∧
    (∀ w : BitVec 3, readableX s x → readableX s d → n.heap = some h → small p →
      nodeIssue c reg (pL + pS) p.toNat (4 * w.toNat) 4 s = .ok (addr, t) →
      exec (.nstore x w a d) s = .next (afterStay (asking t 0 addr (.store p.toNat w.toNat ((regX s d).setWidth 32)) c reg))) ∧
    (1 ≤ x.toNat → x.toNat ≤ 26 → readableX s x → readableX s (x + 1) → n.heap = some h → accessesDone u →
      releaseReady u (myBerth u) 4 = true →
      (writableX u d → 4 ≤ p.toNat → p.toNat < 2 ^ 30 → 4 ≤ q.toNat → q.toNat < 2 ^ 30 →
        nodeCheck c reg (pL + pS) (p.toNat / 4) s = .ok (addr, s) → nodeCheck c reg (pL + pS) (q.toNat / 4) s = .ok (addr2, s) →
        nodeReach (pL + pS) [(addr, 0, 32), (addr2, 0, 32)] s = .ok ((), u) →
        exec (.nlink x a d) s =
          .next (afterStay (asking (release u (myBerth u) 4) d addr (.link d.toNat (p.setWidth 32) (q.setWidth 32)) c reg))) ∧
      (capBase c = capBase h → small p → small q → p ≠ q → p ≠ 0 → q ≠ 0 →
        nodeCheck c reg pL p.toNat s = .ok (addr, s) → nodeCheck c reg pL q.toNat s = .ok (addr2, s) →
        nodeReach pL [(addr, 0, 32), (addr2, 0, 32)] s = .ok ((), u) →
        exec (.npush x a) s = .next (afterStay (asking (release u (myBerth u) 4) 0 addr (.push p.toNat q.toNat) c reg)))) ∧
    (readableX s x → writableX t d → fieldOf p 4 4 = 0 → fieldOf p 12 20 = 0 →
      let arg := fieldOf p 32 32
      (fieldOf p 0 4 = 0 → bindCheck c reg p s = .ok ((), s) → nodeIssue c reg (pL + pS) 0 0 32 s = .ok (addr, t) →
        exec (.nbagBind x a d) s = .next (afterStay (asking t d addr (.bind d.toNat arg) c reg))) ∧
      (n.heap = some h → capBase c = capBase h →
        (nodeCheck c reg pL 0 s = .ok (addr, t) →
          (fieldOf p 0 4 = 1 → exec (.nbagBind x a d) s = .next (afterStay (asking t d addr (.stat d.toNat) c reg))) ∧
          (fieldOf p 0 4 = 2 →
            exec (.nbagBind x a d) s = .next (afterStay (asking t d addr (.note d.toNat (fieldOf p 8 4)) c reg)))) ∧
        (arg ≠ 0 → nodeIssue c reg (pL + pS) arg 0 4 s = .ok (addr, t) →
          (fieldOf p 0 4 = 3 → exec (.nbagBind x a d) s = .next (afterStay (asking t d addr (.park d.toNat arg) c reg))) ∧
          (fieldOf p 0 4 = 4 → exec (.nbagBind x a d) s = .next (afterStay (asking t d addr (.unpark d.toNat arg) c reg))))))

/-- R328, R357, R361, R373: the homes perform a NET request as one step that either has its whole effect or, where it traps, none; the reply
completes the instruction, its value in xd or, where a node could not be read, the state 2 or 3 with its detail, or it traps precisely with the
cause the homes found, the values it took from link ports back in their queues; each home that replied counts its delay, and a
reply waits for what its home sent the core before it.
R334 to R336: an overflow pair takes the segment of its slice while no older pair of its partition waits there, else the partition's ring,
and raises source `pair` where both are full; a berth pops its oldest pair that can go, marks both nodes dead and sends the rewrite
message, or discards it when either node is not live or no longer points at the other, when its launch is gone, or with an error where a
node cannot be read; a berth that wants pairs takes up to 16 of a launch from the next slice.
Where the model reads the rules further than their words, it follows its own log entries 31, 33, 57, 64. -/
def Obligations.NetRequestsServed : Prop :=
  (∀ (s : State) (req : Nat) (r : Req) (op : NetOp) (heap : Cap) (reg : Nat) (back : List (Nat × Quad)),
     tabFind? s.reqs req = some r → r.body = .net op heap reg back →
     (r.reply = none → r.held = false → taskGone s r = false →
       (∀ v t, netServe req r.core r.part (some (r.core, r.ctx)) op heap reg s = .ok (some v, t) →
         exec (.netHomeRequest req) s = .next (repliedNext t req r (.value v))) ∧
       (∀ t, netServe req r.core r.part (some (r.core, r.ctx)) op heap reg s = .ok (none, t) →
         exec (.netHomeRequest req) s = .next { t with reqs := tabPut t.reqs req { r with held := true } }) ∧
       (∀ cause detail, netServe req r.core r.part (some (r.core, r.ctx)) op heap reg s = .error (.trap cause detail) →
         exec (.netHomeRequest req) s = .next (repliedNext s req r (if cause = cUNCORR then .error detail else .trap cause detail))) ∧
       (∀ reason detail, netServe req r.core r.part (some (r.core, r.ctx)) op heap reg s = .error (.page reason detail) →
         exec (.netHomeRequest req) s = .next (repliedNext s req r (.trap (pageCause reason) detail)))) ∧
     (∀ y, r.reply = some y → taskGone s r = true → earlierReply s req r = false →
       exec (.netReplyDelivery req) s = .next (netDelays (withoutReq s req) r heap (repliedNodes op y))) ∧
     (∀ y, r.reply = some y → (ctxOf s r.core r.ctx).mode = .waiting req → (ctxOf s r.core r.ctx).epoch = r.epoch →
       earlierReply s req r = false →
       let u := netDelays (withoutReq s req) r heap (repliedNodes op y)
       let x := { ctxOf u r.core r.ctx with mode := .running }
       let ends := fun (x : Ctx) => setCtx u r.core r.ctx { x with pc := x.pc + 4, watchSkip := none }
       (∀ v n, y = .value v → r.dst = .x n → exec (.netReplyDelivery req) s = .next (ends (putX x n v))) ∧
       (∀ v, y = .value v → r.dst = .none → exec (.netReplyDelivery req) s = .next (ends x)) ∧
       (∀ v n, r.dst = .x n →
         (y = .error v → exec (.netReplyDelivery req) s = .next (ends { x with xs := tabPut x.xs n (.error v) })) ∧
         (y = .lost v → exec (.netReplyDelivery req) s = .next (ends { x with xs := tabPut x.xs n (.lost v) }))) ∧
       (∀ cause detail, y = .trap cause detail →
         exec (.netReplyDelivery req) s =
           .next (trapAt (undoLinks (setCtx u r.core r.ctx x) r req) r.core r.ctx cause detail false)) ∧
       ((∀ dir vec, r.dst ≠ .port dir vec) → ∀ t : State, undoLinks t r req = putBack t r.core back))) ∧
  (∀ (s : State),
     (∀ i o, s.glob.overflow[i]? = some o →
       (∀ e ∈ s.glob.overflow.take i, ¬ (e.slice = o.slice ∧ e.pair.part = o.pair.part)) →
       let sl := sliceOf s o.slice
       let ring := tabGet [] sl.pairRings o.pair.part
       let done := fun (t : State) =>
         let t := { t with glob := { t.glob with overflow := removeAt t.glob.overflow i } }
         let u := netCount t o.pair.launch 1
         if o.counted then t
         else match tabFind? u.reqs o.req with
           | none => u
           | some r => repliedNext u o.req { r with held := false } (.value o.status)
       exec (.pairOverflowPlace i) s =
         if sl.pairs.length < 64 ∧ ring = [] then .next (done (setSlice s o.slice { sl with pairs := sl.pairs ++ [o.pair] }))
         else if ring.length < pairRingRoom (partOf s o.pair.part) then
           .next (touchPairs (done (setSlice s o.slice { sl with pairRings := tabPut sl.pairRings o.pair.part (ring ++ [o.pair]) }))
             o.pair.part o.slice)
         else .next (raisePart s o.pair.part 9)) ∧
     (∀ b p, (berthOf s b).bag.find? (pairGoes s b) = some p →
       (launchOf s p.launch = none → exec (.pairPop b) s = .next (discardPair s b p)) ∧
       ∀ l n heap, launchOf s p.launch = some l → l.net = some n → n.heap = some heap →
         let v : NodeView := ⟨b, n.heapPart, heap, 0, pL + pS, true, none⟩
         (∀ t, markPair v p s = .ok (none, t) → exec (.pairPop b) s = .next (discardPair s b p)) ∧
         (∀ k1 k2 t k, markPair v p s = .ok (some (k1, k2), t) → pairCore s b p.launch l k1 k2 = some k →
           exec (.pairPop b) s = .next (post (setBerth t b { berthOf t b with bag := (berthOf t b).bag.erase p })
             (pairMessage b k p.launch l p heap k1 k2))) ∧
         (∀ cause detail, markPair v p s = .error (.trap cause detail) →
           exec (.pairPop b) s = .next (netError (discardPair s b p) p.part p.launch (badNode v p s)))) ∧
     (∀ b n id,
       let y := berthOf s b
       let ids := ((List.range 4).filterMap fun i => (coreOf s (4 * b + i)).place.map (·.launch)).eraseDups
       let want := ids.filter (wantsPairs s b)
       let has := fun (m : Nat) => (sliceOf s m).pairs.any fun p => want.contains p.launch
       ((List.range 32).map fun i => (y.bagRr + 1 + i) % 32).find? has = some n →
       ((sliceOf s n).pairs.find? fun p => want.contains p.launch).map (·.launch) = some id → y.bag.length < 256 →
       let taken := ((sliceOf s n).pairs.filter fun p => p.launch == id).take (min 16 (256 - y.bag.length))
       let left := taken.foldl (fun (q : List Pair) p => q.erase p) (sliceOf s n).pairs
       exec (.bagRefill b n) s =
         .next (setBerth (setSlice s n (refillPairs { sliceOf s n with pairs := left } ((taken.head?).map (·.part)) 64)) b { y with bag := y.bag ++ taken, bagRr := n })))

/-! ### The package -/

/-- R116, R122, R126 to R134, R136, R138, R230: answers to the fault buffer are refused when malformed, dropped as stale when their entry is
gone or of another generation, and otherwise empty the entry and resume or deny what waits there; TLB commands run one at a time, each over the range that its
registers named when it began; limits and splits of the L2-direct share; the bandwidth period; a partition reset advances `tr.gen`; an injected
interrupt is an MSI-X vector of a virtual function in endpoint mode, else a guest interrupt; a cache gives a line up, written back where it is
dirty, no copy owns it and no matrix command uses it.
Where the model reads the rules further than their words, it follows its own log entries 16, 17, 40, 41, 53. -/
def Obligations.PagingAnswers : Prop :=
  ∀ (s : State) (part : Nat) (v : Dbl),
    let p := partOf s part
    let i := fieldOf v 0 3
    let bad := fieldOf v 32 32 ≠ 0 ∨ fieldOf v 9 7 ≠ 0 ∨ fieldOf v 3 5 ≠ 0
    let refused := setPart s part { p with pfErr := true }
    let stale := setPart s part { p with stale := if p.stale = 0xFFFFFFFF then p.stale else p.stale + 1 }
    (bad → exec (.pfRespWrite part v) s = .next refused) ∧
    (¬ bad → tabFind? p.ents i = none → exec (.pfRespWrite part v) s = .next stale) ∧
    (∀ e, ¬ bad → tabFind? p.ents i = some e → fieldOf v 16 16 ≠ p.trGen.toNat → exec (.pfRespWrite part v) s = .next stale) ∧
    (∀ e, ¬ bad → tabFind? p.ents i = some e → fieldOf v 16 16 = p.trGen.toNat →
      exec (.pfRespWrite part v) s =
        .next (answer (tlbDrop (setPart s part { p with pfResp := v, ents := tabErase p.ents i }) part e.page 1) part
          (fun q => q == .entry i) (v.getLsbD 8) e.reason.toNat)) ∧
    (exec (.trCmdReplayAll part) s =
      if p.trBusy then .next refused
      else
        let t := setPart s part { p with trOp := 1, trGen := p.trGen + 1, ents := [], dropped := false }
        .next (answer t part (fun q => match q with | .answered _ => false | _ => true) false 0)) ∧
    (let lo := cmdFirst p
     let n := cmdCount p
     let started := fun (op first count : Nat) => setPart s part
       { p with trOp := BitVec.ofNat 3 op, trBusy := true, trMark := s.nextReq, trFirst := first, trCount := count }
     (exec (.trCmdInvalidateAll part) s = if p.trBusy then .next refused else .next (tlbDrop (started 2 0 (2 ^ 32)) part 0 (2 ^ 32))) ∧
     (exec (.trCmdInvalidateRange part) s =
       if p.trBusy ∨ n = 0 then .next refused else .next (tlbDrop (started 3 lo n) part lo n)) ∧
     (scanHeld s part = false → exec (.trCmdHarvest part) s =
       if p.trBusy ∨ n = 0 then .next refused else .next (tlbDrop (harvest (started 4 lo n) part) part lo n))) ∧
    (let t := tlbDrop (writeBackAll s) part p.trFirst p.trCount
     let done := fun (u : State) => setPart u part { partOf u part with trBusy := false, harvest := none }
     p.trBusy = true → cmdDrained s part = true → cachesReady s = true →
      (p.harvest = none → exec (.trCmdComplete part) s = .next (done t)) ∧
      (∀ h u, p.harvest = some h → h.place = none → isTranslated h.bmap = true → bitmapHeld t part h = false →
        writeBitmap part ((h.bits.length + 63) / 64) h.bmap h.bits t = .ok u → exec (.trCmdComplete part) s = .next (done u))) ∧
    (unperformed s part s.nextReq = false → cachesReady s = true →
      let t := tlbDrop (writeBackAll s) part 0 (2 ^ 32)
      exec (.trRootWrite part v) s = .next (setPart t part { partOf t part with trRoot := BitVec.ofNat 64 (fieldOf v 8 32 * 256) })) ∧
    (∀ quay,
      let beyond := ∃ j < 16, nibble (limitOf p quay) j < nibble v j
      (beyond → exec (.l2SplitWrite part quay v) s = .next refused) ∧
      (¬ beyond → (∀ n ∈ grownSlices p quay v, sliceReady s n = true) →
        exec (.l2SplitWrite part quay v) s = .next (changeSplit s part quay v)) ∧
      (let sum := fun (j : Nat) => ((List.range 16).map fun q => nibble (if q = part then v else limitOf (partOf s q) quay) j).sum
       let t := setPart s part (setLimit p quay v)
       ((∃ j < 16, 14 < sum j) → exec (.l2LimitWrite part quay v) s = .next { s with glob := { s.glob with pmErr := true } }) ∧
       ((∀ j < 16, sum j ≤ 14) → (∀ j < 16, nibble (splitOf (partOf t part) quay) j ≤ nibble v j) →
        exec (.l2LimitWrite part quay v) s = .next t))) ∧
    exec (.irqInject v) s = .next { s with glob := { s.glob with
      irqInject := keepBits v 8 8 ||| keepBits v 0 4
      injected := s.glob.injected ++ [if s.glob.endpoint then .msix (fieldOf v 0 4 + 1) (fieldOf v 8 8)
        else .guest (fieldOf v 0 4) (fieldOf v 8 8)] } } ∧
    exec (.partitionReset part) s = .next (setPart s part { p with trGen := p.trGen + 1 }) ∧
    (s.glob.periodAt + 1024 ≤ s.clk →
      exec .bandwidthPeriodStart s = .next { s with
        parts := s.parts.map (fun e => (e.1, newCredits e.2))
        glob := { s.glob with periodAt := s.clk / 1024 * 1024 } }) ∧
    (∀ b line l, tabFind? (berthOf s b).l1 line = some l →
      (l.dirty = 0 ∨ (storeHeld s (line * 64) 64 = false ∧
        (l2Fits s (berthQuay b) line = true ∨ writeBackHeld s (berthQuay b) line = false))) →
      let t := l1WriteBack s b line
      exec (.l1WriteBack (.l1 b) line) s = .next (setBerth t b { berthOf t b with l1 := tabErase (berthOf t b).l1 line })) ∧
    (∀ q line l, tabFind? (quayOf s q).l2 line = some l →
      (l.dirty = 0 ∨ (storeHeld s (line * 64) 64 = false ∧ writeBackHeld s q line = false)) →
      let t := l2WriteBack s q line
      exec (.l1WriteBack (.l2 q) line) s = .next (setQuay t q { quayOf t q with l2 := tabErase (quayOf t q).l2 line })) ∧
    (∀ k line l, tabFind? (coreOf s k).icache line = some l →
      exec (.l1WriteBack (.icache k) line) s = .next (setCore s k { coreOf s k with icache := tabErase (coreOf s k).icache line }))

/-- R368 to R372, R383, R384, R387: halting and resuming a berth (resume is refused above 95 °C), a debug access while it is halted
and its refusal while it is not, the cross-trigger within 64 clk, the thermal trip at 105 °C, the trace buffer; a power command of a kind is taken up or refused with err; a transition takes its state at the end; an
invalidation leaves no cache in its scope with a line of the range.
Where the model reads the rules further than their words, it follows its own log entries 9, 45, 46, 47. -/
def Obligations.DebugAndPower : Prop :=
  ∀ (s : State) (b : Nat),
    let y := berthOf s b
    let d := y.dbg
    exec (.dbgHaltWrite b) s = .next (haltBerth s b 1 (4 * b) 0) ∧
    (d.halted = true → s.glob.temp.toNat ≤ 95 →
      exec (.dbgResumeWrite b) s = .next ((List.range 16).foldl (fun t i => takeAnswer t (4 * b + i / 4) (i % 4))
        (setBerth s b { y with dbg := { d with halted := false } }))) ∧
    (d.halted = false ∨ 95 < s.glob.temp.toNat → exec (.dbgResumeWrite b) s = .next s) ∧
    (∀ k c t, takeAnswer t k c = t ∨ ∃ deny, (ctxOf t k c).mode = .parked (.answered deny)) ∧
    (∀ v : Dbl, v.getLsbD 63 = true →
      (d.halted = false → exec (.dbgAccess b v) s = .next (setBerth s b { y with dbg := { d with err := true } })) ∧
      (d.halted = true →
        let a := fieldOf v 0 48
        let t := setBerth s b { y with dbg := { d with acc := BitVec.ofNat 64 (fieldOf v 60 3 * 2 ^ 60 + a) } }
        accessWaits t b v = false → exec (.dbgAccess b v) s = .next (if v.getLsbD 60 then dbgContext t b (v.getLsbD 62) (v.getLsbD 61) a
          else dbgMemory t b (v.getLsbD 62) (v.getLsbD 61) a) ∧
        (v.getLsbD 60 = false → dbgWindow b a = true → v.getLsbD 61 = false →
          (v.getLsbD 62 = false → dbgMemory t b false false a = dbgPut t b (homeDouble t a)) ∧
          (v.getLsbD 62 = true → windowOf a ≠ 0xF → marksMet t ⟨a, 0, 64, false⟩ = [] → dbgMemory t b true false a = homeWrite t a (dblBytes d.data))))) ∧
    (∀ t, s.glob.xtrig = some t → d.ctl.getLsbD 4 = true → d.halted = false → s.clk ≤ t + 64 →
      exec (.crossTriggerHalt b) s = .next (haltBerth s b 4 (4 * b) 0)) ∧
    (∀ c : Nat,
      let g := { s.glob with temp := BitVec.ofNat 8 (min 255 c) }
      (c < 105 → exec (.thermalTrip c) s = .next { s with glob := g }) ∧
      (105 ≤ c → exec (.thermalTrip c) s = .next (raiseIrq
        ((List.range 128).foldl (fun u k => haltBerth u k 6 (4 * k) 0) { s with glob := { g with trip := true } }) 640 0))) ∧
    exec (.dbgStatRead b) s = .next
      (let t := setBerth s b { y with dbg := { d with lost := 0 } }
       { t with glob := { t.glob with readOut := dbgStat d } }) ∧
    (∀ r rest, y.traceQ = r :: rest → fieldOf d.trace 12 28 * 4096 + 32 * (d.traceAt % 2 ^ (fieldOf d.trace 0 4 + 7)) + 32 ≤ extEnd →
      storeHeld s (fieldOf d.trace 12 28 * 4096 + 32 * (d.traceAt % 2 ^ (fieldOf d.trace 0 4 + 7))) 32 = false →
      let t := setBerth s b { y with traceQ := rest, dbg := { d with traceAt := d.traceAt + 1 } }
      exec (.traceBufferWrite b) s = .next
        (unitWrite t (fieldOf d.trace 12 28 * 4096 + 32 * (d.traceAt % 2 ^ (fieldOf d.trace 0 4 + 7))) (bytesOf 32 r.toNat))) ∧
    (∀ e ∈ ([(1, Instr.pwBerthTransition), (2, Instr.pwSliceTransition), (3, Instr.pwChannelTransition)] : List (Nat × (Dbl → Instr))),
      ∀ v : Dbl, fieldOf v 0 3 = e.1 →
      let off := fieldOf v 16 2 = 3
      let broken := (fieldOf v 0 3 = 1 ∧ 128 ≤ fieldOf v 8 8) ∨ (fieldOf v 0 3 = 2 ∧ (32 ≤ fieldOf v 8 8 ∨
          (off ∧ ∃ p < 16, nibble (splitOf (partOf s p) (fieldOf v 8 8 / 16)) (fieldOf v 8 8 % 16) ≠ 0))) ∨
        (fieldOf v 0 3 = 3 ∧ (16 ≤ fieldOf v 8 8 ∨ off))
      (s.glob.pwBusy = true ∨ broken → exec (e.2 v) s = .next { s with glob := { s.glob with pmErr := true } }) ∧
      (s.glob.pwBusy = false → ¬ broken → exec (e.2 v) s = .next { s with glob := { s.glob with
        pwCmd := BitVec.ofNat 64 (fieldOf v 16 2 * 2 ^ 16 + fieldOf v 8 8 * 2 ^ 8 + fieldOf v 0 3), pwBusy := true } })) ∧
    (s.glob.pwBusy = true →
      let i := fieldOf s.glob.pwCmd 8 8
      let target := BitVec.ofNat 2 (fieldOf s.glob.pwCmd 16 2)
      (fieldOf s.glob.pwCmd 0 3 = 1 → holdsGroup s i = false → ∃ t, exec .pwTransitionDone s = .next t ∧ t.glob.pwBusy = false ∧
        (berthOf t i).power = target ∧ (target ≠ 3 → t.mem = s.mem)) ∧
      (fieldOf s.glob.pwCmd 0 3 = 2 → (target = 3 → sliceUnsplit s i = true) → cachesReady s = true → ∃ t, exec .pwTransitionDone s = .next t ∧ t.glob.pwBusy = false ∧
        (sliceOf t i).power = target) ∧
      (fieldOf s.glob.pwCmd 0 3 = 3 → exec .pwTransitionDone s =
        .next { s with glob := { s.glob with chanPower := tabPut s.glob.chanPower i target, pwBusy := false } })) ∧
    (∀ e ∈ ([(1, Instr.icInvalidateBerth), (2, Instr.icInvalidateQuay), (3, Instr.icInvalidatePackage)] : List (Nat × (Dbl → Instr))),
      ∀ v : Dbl, fieldOf v 0 3 = e.1 → s.glob.icBusy = false →
      exec (e.2 v) s = .next { s with glob := { s.glob with
        icInv := BitVec.ofNat 64 (fieldOf v 8 7 * 2 ^ 8 + fieldOf v 0 3), icBusy := true } }) ∧
    (s.glob.icBusy = true → ∃ t, exec .icInvalidateDone s = .next t ∧ t.glob.icBusy = false ∧ t.mem = s.mem ∧
      ∀ e ∈ t.cores, (fieldOf s.glob.icInv 0 3 = 1 → e.1 / 4 = fieldOf s.glob.icInv 8 7) →
        (fieldOf s.glob.icInv 0 3 = 2 → e.1 / 256 = fieldOf s.glob.icInv 8 1) →
        ∀ l ∈ e.2.icache, fieldOf s.glob.icArg 0 40 + fieldOf s.glob.icArg 40 24 ≤ l.1 * 64 ∨ l.1 * 64 + 64 ≤ fieldOf s.glob.icArg 0 40)

/-- R309, R360, R361: a quay that is Up is fenced by command or by a fault of why 1 to 3; when its ports are closed it is Fenced
and the other harbourmaster is the master; reset clears what its berths held, and the self-test brings it back, not as the master, or leaves
it Fenced. R379 to
R381: the states of a Quayline port, and an access of the partner, checked against the grants of the partition that it names. R366,
R367, R382: power-on reset with the stored image or with one given later, which a recovery writes to flash; an object becomes resident under a free handle and its
handlers are bound to the channels that they name.
Where the model reads the rules further than their words, it follows its own log entries 2, 7, 11, 12, 34, 41, 48, 49, 52. -/
def Obligations.QuaysAndBoot : Prop :=
  ∀ (s : State),
    (∀ q < 2,
      let fencing := fun (why : Nat) =>
        raiseIrq (setQuay s q { quayOf s q with mode := .fencing, why := BitVec.ofNat 4 why }) (644 + q) 0
      ((quayOf s q).mode = .up →
        exec (.quayFenceCommand q) s = .next (fencing 0) ∧
        (∀ why, 1 ≤ why → why ≤ 3 → exec (.quayFenceFault q why) s = .next (fencing why))) ∧
      ((quayOf s q).mode = .fencing →
        ∃ t, exec (.quayPortsClosed q) s = .next t ∧ (quayOf t q).mode = .fenced ∧ t.glob.master = 1 - q) ∧
      ((quayOf s q).mode = .fenced →
        ∃ t, exec (.quayResetCommand q) s = .next t ∧ (quayOf t q).mode = .resetting ∧
          (∀ k c, coreQuay k = q → (ctxOf t k c).mode = .free) ∧ (∀ k, coreQuay k = q → (coreOf t k).inbox = []) ∧
          ∀ e ∈ t.mem, ¬ (0xC ≤ windowOf e.1 ∧ isL2Key e.1 = false ∧ winBerth e.1 / 64 = q)) ∧
      ((quayOf s q).mode = .resetting →
        (∃ t, exec (.selfTestPass q) s = .next t ∧ (quayOf t q).mode = .up ∧ t.glob.master = 1 - q ∧
          ∀ e ∈ t.berths, berthQuay e.1 = q → e.2.owner = 0x40) ∧
        exec (.selfTestFail q) s = .next (raiseIrq (setQuay s q { quayOf s q with mode := .fenced }) (644 + q) 0))) ∧
    (∀ port < 2,
      let p := portOf s port
      let failed := fun (st : QlState) (lanes : Byte) => raiseIrq (setPort s port { p with state := st, lanes := lanes }) (641 + port) 0
      (p.state = .down →
        exec (.qlEnable port) s = .next (setPort s port { p with en := true, state := .train, lanes := 0, trainFrom := s.clk })) ∧
      (p.state = .up →
        exec (.qlDisable port) s = .next (portDown (setPort s port { p with en := false }) port) ∧
        exec (.qlLinkFailure port) s = .next (portDown s port) ∧
        exec (.qlFlitCrcReplay port) s = .next (setPort s port { p with replays := p.replays + 1 })) ∧
      (p.state = .fail →
        exec (.qlDisable port) s = .next (setPort s port { p with en := false, state := .down, lanes := 0 })) ∧
      (∀ i : QlIdentity,
        (p.state = .train → s.clk ≤ p.trainFrom + 700000000 →
          exec (.qlLanesLocked port i) s = .next (setPort s port { p with state := .check, lanes := 0xFF })) ∧
        (p.state = .check → exec (.qlLanesLocked port i) s = .next
          (if (i.product = .w20 ∨ i.product = .d40) ∧ i.sameArithmetic = true then setPort s port { p with state := .up }
           else failed .fail p.lanes))) ∧
      (p.state = .train → p.trainFrom + 700000000 ≤ s.clk → exec (.qlTrainTimeout port) s = .next (failed .down 0)) ∧
      (p.state = .up → ∀ part addr n bs, portBarred s port part = false →
        let told := fun (t : State) (v : Nat) (no : Bool) => { t with glob := { t.glob with readOut := BitVec.ofNat 64 v, accessFault := no } }
        (outsideOk s part addr n = false → exec (.quaylinePartnerAccess port (.read part addr n)) s = .next (told s 0 true)) ∧
        (outsideOk s part addr n = true → isBad s addr n = false → unitWaits s part addr n false = false →
          let t := recallRange s addr n
          exec (.quaylinePartnerAccess port (.read part addr n)) s = .next (told t (natOfBytes (memRead t.mem addr n)) false)) ∧
        (∀ bit width v, outsideOk s part addr ((bit + width + 7) / 8) = true → meetsMark s addr ((bit + width + 7) / 8) = false →
          unitWaits s part addr ((bit + width + 7) / 8) true = false →
          let t := recallRange s addr ((bit + width + 7) / 8)
          exec (.quaylinePartnerAccess port (.writeBits part addr bit width v)) s =
            .next (told (wideWrite t addr (pieceMerge ⟨addr, bit, width, true⟩ (memRead t.mem addr ((bit + width + 7) / 8)) v)) 0 false)) ∧
        (outsideOk s part addr bs.length = true → meetsMark s addr bs.length = false → unitWaits s part addr bs.length true = false →
          exec (.quaylinePartnerAccess port (.write part addr bs)) s =
            .next (told (wideWrite (recallRange s addr bs.length) addr bs) 0 false)) ∧
        (∀ p u, partnerPhase s part = some (p, u) → unitHeld s part (fieldOf (partOf s part).qlPhase 0 48) 8 true = false →
          storeHeld u p.key 8 = false →
          let a := phaseServe (recallRange u p.key 8) 1 p.key 0 none
          exec (.quaylinePartnerAccess port (.arrive part)) s = .next (told a.2 a.1.toNat false)))) ∧
    (∀ b : BootInput,
      let z := { State.reset with agenda := s.agenda, freeCtr := s.freeCtr }
      let t := { z with glob := { z.glob with fusedRollback := s.glob.fusedRollback, flash := s.glob.flash } }
      exec (.powerOnReset b) s = .next (if imageAccepted t (s.glob.flash.getD b.image) = true ∧ b.recoveryStrap = false then bringUp t b
        else { t with glob := { t.glob with boot := .waitImage, bootInput := some b } }) ∧
      (∀ i, s.glob.boot = .waitImage → s.glob.bootInput = some b →
        exec (.recoveryImageLoad i) s =
          .next (if imageAccepted s i = true then bringUp { s with glob := { s.glob with flash := some i } } b else s)) ∧
      (bringUp s b).glob.boot = .done) ∧
    (∀ part h o, part < 16 → h < 256 → tabFind? (partOf s part).objs h = none →
      exec (.codeObjectLoad part h o) s = .next (if objectAccepted part o = true then
        setPart s part { partOf s part with objs := tabPut (partOf s part).objs h o } else s)) ∧
    (∀ v : ServiceInstall, ∀ o, v.core < 512 → berthPart s (coreBerth v.core) = some v.part →
      (quayOf s (coreQuay v.core)).mode = .up → tabFind? (partOf s v.part).objs v.handle = some o →
      let t := giveBerth s (coreBerth v.core) v.part
      let c := (v.which.filterMap fun i => o.handlers[i]?).foldl
        (fun c h => bindChannel c h.channel.toNat (bindingOf o h v.root residentLaunch v.part) h.prio.toNat) (coreOf t v.core)
      exec (.residentServiceInstall v) s = .next (refreshSince (setCore t v.core c) v.core))

/-- R356 to R360: a corrected error is counted; an uncorrectable one marks the line bad, drops a clean line of an L1, an L2, an instruction cache or the tag
cache, spoils a register or the staged operands of an adapter product, or fences the quay whose tables it strikes. R362 to R365: a checkpoint is cut every T and when the log area is full; at its end seq
advances, or checkpoints stop for want of room, and a bad line that it met is reported (the model's choice: log entry 50); replay starts from a retained checkpoint with the log that followed it, and ends when
the log has run out.
Where the model reads the rules further than their words, it follows its own log entries 10, 34, 50, 51. -/
def Obligations.ErrorsAndCheckpoints : Prop :=
  ∀ (s : State),
    (∀ a,
      let n := tabGet 0 s.glob.ceCount a + 1
      let t := { s with glob := { s.glob with ceCount := tabPut s.glob.ceCount a n } }
      exec (.correctableError a) s = .next (if n = s.glob.ceThresh.toNat then raiseIrq t 647 0 else t)) ∧
    (∀ loc,
      let q := keyQuay (loc / 64 * 64)
      let old := (quayOf s q).badLines.filter fun e => e.1 != loc / 64
      old.length < 256 →
        exec (.uncorrectableError (.line loc)) s = .next (setQuay s q { quayOf s q with badLines := (loc / 64, []) :: old })) ∧
    (∀ b line l, tabFind? (berthOf s b).l1 line = some l → l.dirty = 0 →
      exec (.uncorrectableError (.l1 b line)) s = .next (setBerth s b { berthOf s b with l1 := tabErase (berthOf s b).l1 line })) ∧
    (∀ q line l, tabFind? (quayOf s q).l2 line = some l → l.dirty = 0 →
      exec (.uncorrectableError (.l2 q line)) s = .next (setQuay s q { quayOf s q with l2 := tabErase (quayOf s q).l2 line })) ∧
    (∀ k c n, 1 ≤ n → n < 28 → (ctxOf s k c).mode ≠ .free → tabGet .full (ctxOf s k c).xs n = .full →
      exec (.uncorrectableError (.xreg k c n)) s =
        .next (setCtx s k c { ctxOf s k c with xs := tabPut (ctxOf s k c).xs n (.error (errorDetail 3 n)) })) ∧
    (∀ k c n, n < 64 → n < 28 ∨ 32 ≤ n → (ctxOf s k c).mode ≠ .free → tabGet .full (ctxOf s k c).vs n = .full →
      exec (.uncorrectableError (.vreg k c n)) s =
        .next (setCtx s k c { ctxOf s k c with vs := tabPut (ctxOf s k c).vs n (.error (errorDetail 3 n)) })) ∧
    (∀ k c n, 1 ≤ n → n < 16 → (ctxOf s k c).mode ≠ .free → tabGet .full (ctxOf s k c).cs n = .full →
      exec (.uncorrectableError (.creg k c n)) s =
        .next (setCtx s k c { ctxOf s k c with cs := tabPut (ctxOf s k c).cs n (.error (errorDetail 3 n)) })) ∧
    (∀ k c n, 1 ≤ n → n < 8 → (ctxOf s k c).mode ≠ .free →
      exec (.uncorrectableError (.mreg k c n)) s =
        .next (setCtx s k c { ctxOf s k c with ms := tabPut (ctxOf s k c).ms n (.error (errorDetail 3 n)) })) ∧
    (∀ k line, exec (.uncorrectableError (.icache k line)) s =
      .next (setCore s k { coreOf s k with icache := tabErase (coreOf s k).icache line })) ∧
    (∀ loc, exec (.uncorrectableError (.tags loc true)) s = exec (.uncorrectableError (.line loc)) s ∧
      exec (.uncorrectableError (.tags loc false)) s = .next s) ∧
    (∀ b, let m := (berthOf s b).mat
      exec (.uncorrectableError (.staging b)) s = .next (setBerth s b { berthOf s b with
        mat := { m with queue := m.queue.map fun c => if c.adapters = [] then c else { c with bad := true } } })) ∧
    (∀ q < 2, (quayOf s q).mode = .up → exec (.uncorrectableError (.quayTables q)) s = .next (startFence s q 1)) ∧
    (∀ part < 16,
      let p := partOf s part
      let c := p.ck
      (c.ctl.getLsbD 0 = true → c.busy = false → c.full = false → cutReady s part = true →
        (c.cutAt + fieldOf c.ctl 6 10 * 1400000 ≤ s.clk → exec (.checkpointPeriodExpiry part) s = .next (takeCut s part)) ∧
        (fieldOf c.log 0 12 * 2 ^ 20 ≤ 8 * c.entries.length →
          exec (.logFullCheckpoint part) s = .next (takeCut (setPart s part { p with ck := { c with early := true } }) part))) ∧
      (∀ cp, c.pending = some cp →
        let kept := c.kept ++ [cp]
        let stored := { c with
          busy := false, pending := none, seq := cp.seq, kept := kept.drop (kept.length - fieldOf c.ctl 2 4) }
        let t := touchArea { s with freeCtr := s.freeCtr + 1 } part
        let u := if cp.bad = [] then t else mapError t part
        exec (.checkpointComplete part) s = .next (setPart u part
          { partOf u part with ck := if Config.areaFull s.freeCtr then { c with full := true, busy := false, pending := none } else stored })) ∧
      (∀ seq cp, c.ctl.getLsbD 0 = false → c.busy = false → c.ctl.getLsbD 1 = false →
        c.kept.find? (fun x => x.seq.toNat == seq) = some cp → slotsFree s part cp = true →
        ∃ t, exec (.replayStart part seq) s = .next t ∧ (partOf t part).ck.ctl = c.ctl ||| 2 ∧
          (partOf t part).ck.replaying = if (c.kept.getLast?.map (·.seq)) = some cp.seq then
              ((c.kept.getLast?.map (·.log)).getD []) ++ c.entries else cp.log) ∧
      (c.ctl.getLsbD 1 = true → c.replaying = [] →
        exec (.replayLogsExhausted part) s = .next (setPart s part { p with ck := { c with ctl := c.ctl &&& ~~~ 2 } })))

/-- R6, R31, R118, R129, R135, R137, R296, R335, R351, R375, R377, R378: reads that clear; the counter halves; register writes that keep what
is not writable; `tr.gen`, `pf.stat` and `irq.top` as they read, and the load of any register that a read does not clear where the map places it; a Function Level Reset and its release; device writes and accesses of application cores, checked against the grants
of their partition (16 stands for the partition manager's own accesses). R345: an undecodable word traps with ILLEGAL.
Where the model reads the rules further than their words, it follows its own log entries 41, 53, 54, 61. -/
def Obligations.DeviceRegisters : Prop :=
  ∀ (s : State) (part : Nat),
    let p := partOf s part
    let told := fun (t : State) (v : Dbl) => { t with glob := { t.glob with readOut := v } }
    exec (.tpDropRead part) s = .next (told (setPart s part { p with tpDrop := 0 }) (p.tpDrop.setWidth 64)) ∧
    exec (.tpLostRead part) s = .next (told (setPart s part { p with tpLost := 0 }) p.tpLost) ∧
    exec (.ntErrRead part) s = .next (told (setPart s part { p with ntErr := 0 }) p.ntErr) ∧
    exec (.pfStaleRead part) s = .next (told (setPart s part { p with stale := 0 }) (p.stale.setWidth 64)) ∧
    (∀ k < 512, ∀ n < 8,
      let v := partCounter s part k n
      let l := p.ctLatch
      exec (.counterLowRead part k n) s = .next (told (setPart s part { p with
        ctLatch := BitVec.ofNat 64 (2 ^ 63 + k * 2 ^ 54 + n * 2 ^ 51 + fieldOf v 32 16) }) (BitVec.ofNat 64 (fieldOf v 0 32))) ∧
      exec (.counterHighRead part k n) s = .next (told (setPart s part { p with ctLatch := setField l 63 1 0 })
        (BitVec.ofNat 64 (if l.getLsbD 63 = true ∧ fieldOf l 54 9 = k ∧ fieldOf l 51 3 = n then fieldOf l 0 16 else fieldOf v 32 16)))) ∧
    (∀ v : Dbl,
      let mg := fun (off : Nat) => exec (.registerWrite (.manager part) off v) s
      let gl := fun (off : Nat) => exec (.registerWrite .glob off v) s
      let pt := fun (off : Nat) => exec (.registerWrite (.partition part) off v) s
      (∀ g < 8, mg (8 * g) = .next (setPart s part { p with
          grant := tabPut p.grant g (BitVec.ofNat 64 (fieldOf v 63 1 * 2 ^ 63) ||| BitVec.ofNat 64 (fieldOf v 16 24 * 2 ^ 16)) }) ∧
        mg (0x80 + 8 * g) = .next (setPart s part { p with gsize := tabPut p.gsize g (BitVec.ofNat 64 (fieldOf v 0 32)) })) ∧
      (∀ i < 24, fieldOf v 16 8 < fieldOf v 8 8 → mg (0x100 + 8 * i) = .next s) ∧
      (∀ i < 24, fieldOf v 8 8 ≤ fieldOf v 16 8 →
        ((List.range 16).map fun q => if q = part then fieldOf v 8 8 else fieldOf (tabGet 0 (partOf s q).bands i) 8 8).sum ≤ 240 →
        mg (0x100 + 8 * i) = .next (setPart s part { p with bands := tabPut p.bands i (BitVec.ofNat 64 (fieldOf v 0 24)) })) ∧
      (recordsQueued s part = true ∨ 10 < fieldOf v 0 4 → mg 0x200 = .next { s with glob := { s.glob with pmErr := true } }) ∧
      pt 0x028 = .next (setPart s part { p with pfErr := p.pfErr && !v.getLsbD 9 }) ∧
      pt 0x018 = .next (setPart s part { p with trCnt := BitVec.ofNat 64 (fieldOf v 0 32) }) ∧
      gl 0x008 = .next { s with glob := { s.glob with pmErr := s.glob.pmErr && !v.getLsbD 0 } } ∧
      (∀ i < 1024,
        let q := tabGet Irq.reset s.glob.irq i
        gl (0x2000 + 8 * i) = .next { s with glob := { s.glob with irq := tabPut s.glob.irq i { q with
          pend := q.pend && !v.getLsbD 15, en := v.getLsbD 14, pmonly := v.getLsbD 13, vec := v.setWidth 8 } } }) ∧
      exec (.pmFlrWrite v) s = .next { s with glob := { s.glob with flr := s.glob.flr &&& ~~~ v.setWidth 16 } }) ∧
    (s.glob.endpoint = true → exec (.pcieFlr part) s =
      .next (raiseIrq { s with glob := { s.glob with flr := s.glob.flr ||| BitVec.ofNat 16 (2 ^ part) } } 646 0)) ∧
    readPage s (.partition part) 0x000 = p.trGen.setWidth 64 ∧
    readPage s (.partition part) 0x028 = BitVec.ofNat 64 (boolBit p.pfErr * 2 ^ 9 + boolBit p.dropped * 2 ^ 8 +
      ((List.range 8).map fun i => boolBit (tabFind? p.ents i).isSome * 2 ^ i).sum) ∧
    (∀ e ∈ s.glob.irq, e.2.pend = true → e.2.en = true → (readPage s .glob 0x010).toNat ≤ e.1) ∧
    ((∀ e ∈ s.glob.irq, (e.2.pend && e.2.en) = false) → readPage s .glob 0x010 = 0xFFFF) ∧
    (∀ addr bs,
      let mine := fun (n : Nat) => addr + n ≤ extEnd ∧ (part = 16 ∨ inGrants p addr n = true)
      let fault := fun (t : State) (b : Bool) => { t with glob := { t.glob with accessFault := b } }
      let noPage := fun (n : Nat) => registerSized addr n = false ∨ pageAt part addr = none
      let ok := outsideOk s part addr bs.length = true ∧ meetsMark s addr bs.length = false
      (ok → unitWaits s part addr bs.length true = false → barred s part 23 = false →
        exec (.inboundDeviceWrite part addr bs) s = .next (wideWrite s addr bs)) ∧
      (¬ ok → exec (.inboundDeviceWrite part addr bs) s = .next (raiseIrq s 648 0)) ∧
      (mine bs.length → meetsMark s addr bs.length = false → unitWaits s part addr bs.length true = false →
        exec (.applicationCoreAccess part (.store addr bs)) s = .next (fault (wideWrite s addr bs) false)) ∧
      (noPage bs.length → ¬ mine bs.length ∨ meetsMark s addr bs.length = true →
        exec (.applicationCoreAccess part (.store addr bs)) s = .next (fault s true)) ∧
      (∀ n,
        (mine n → isBad s addr n = false → unitWaits s part addr n false = false →
          exec (.applicationCoreAccess part (.load addr n)) s =
            .next (told (fault s false) (BitVec.ofNat 64 (natOfBytes (memRead s.mem addr n))))) ∧
        (noPage n → ¬ mine n → exec (.applicationCoreAccess part (.load addr n)) s = .next (fault s true)) ∧
        (∀ page at_, registerSized addr n = true → pageAt part addr = some (page, at_) →
          clearingRead page (at_ / 8 * 8) (at_ % 8) n = none →
          exec (.applicationCoreAccess part (.load addr n)) s =
            .next (told (fault s false) (BitVec.ofNat 64 (fieldOf (readPage s page (at_ / 8 * 8)) (8 * (at_ % 8)) (8 * n)))))) ∧
      (∀ a b, exec (.applicationCoreAccess part (.fence a b)) s = .next (fault s false))) ∧
    (∀ short reason word, exec (.illegalEncoding short reason word) s =
      .next (traps s cILLEGAL (illegalDetail reason short word) false))

/-! ### The machine as a whole -/

/-- R56, R74, R114, R129, R346, R360, R379, R382: right after reset the package waits for firmware, every context is free, every register
reads its reset value, memory lists nothing and no granule is tagged, every berth is vacant and no port is open. (That external
memory reads zero, that the other registers of a free context read zero and that harbourmaster 0 is the master are log entries 1 to
4's choices and not the manual's.) -/
def Obligations.ResetState : Prop :=
  let s := State.reset
  Memory.wf s.mem = true ∧ (∀ a, memByte s.mem a = 0) ∧ s.tags = [] ∧ s.phases = [] ∧ s.reqs = [] ∧ s.mesh = [] ∧ s.launches = [] ∧
  s.clk = 0 ∧ s.glob.boot = .held ∧
  (∀ k c, (ctxOf s k c).mode = .free ∧ (ctxOf s k c).seq = 0 ∧ (ctxOf s k c).nonce = 0 ∧ (ctxOf s k c).fflags = 0 ∧
    (ctxOf s k c).rmode = 0 ∧ (ctxOf s k c).krrb = 0 ∧ (ctxOf s k c).klc = 0 ∧ (ctxOf s k c).kec = 0 ∧ (ctxOf s k c).ktrap = 0 ∧
    (ctxOf s k c).ktask = 0 ∧ (ctxOf s k c).mcfg = 0 ∧ (ctxOf s k c).seed = 0) ∧
  (∀ k, (coreOf s k).inbox = [] ∧ (coreOf s k).chmask = 0 ∧ (coreOf s k).chprio = 0 ∧ (coreOf s k).drop = 0 ∧
    (∀ dir, inQueue s k dir = []) ∧ ∀ slot, (boomOf s k slot).armed = false) ∧
  (∀ b, (berthOf s b).owner = 0x40 ∧ berthPart s b = none ∧ (berthOf s b).dbg.halted = false ∧ (berthOf s b).power = 0) ∧
  (∀ p, (partOf s p).trGen = 0 ∧ (partOf s p).ents = [] ∧ (partOf s p).stale = 0 ∧ (partOf s p).split0 = 0 ∧ (partOf s p).split1 = 0) ∧
  (∀ q, (quayOf s q).mode = .up) ∧ s.glob.ql0.state = .down ∧ s.glob.ql1.state = .down ∧ s.glob.pmErr = false

/-- Every step from a state whose memory is canonical, addresses rising and no zero byte listed, leaves it canonical. -/
def Obligations.StepKeepsMemory : Prop :=
  ∀ s t : State, MemSafe s → step s = .next t → MemSafe t

/-- R57 to R63: the decoder gives every well-formed instruction back from its encoding, with every operand. -/
def Obligations.DecodeEncode : Prop :=
  ∀ i : Instr, i.WF = true → decode (encode i) = .ok i

/-- R64, R162, R171, R172, R387: words that the manual writes out decode to the instructions they stand for; a reserved major and cop
15 are refused with their reasons. -/
def Obligations.KnownWords : Prop :=
  decode 0x00C002B3 = .ok (.kread 0x060 5) ∧
  decode 0x20207033 = .ok (.kwrite 0x010 7) ∧
  decode 0xF526 = .ok (.cAddi 0x3D 9) ∧
  decode 0x1FF60013 = .ok (.loop 0xFFB) ∧
  decode 0x20001013 = .ok (.lcset 0 1) ∧
  decode 0x00800483 = .ok (.addi 0x040 0 9) ∧
  decode 0 = .ok .cNop ∧
  (∃ e, decode 0x39 = .error e ∧ e.reason = 0) ∧
  (∃ e, decode 0x1E = .error e ∧ e.reason = 1)

/-- R59, R64, R159, R171, R227, R367, R371, R374, R396: a turn of a core whose first ready context's bytes at the pc decode to an instruction is exec of
that instruction at the state in which its fetch was counted, unless an instruction that goes on with a send or a request for leave was
counted before, and the core issues nothing more in that clk; a watchpoint on the fetch is met where the instruction has not stopped at an
earlier check; a fetch that fails stops the turn as an instruction's check does; an undecodable word traps; a core whose only ready context
stalls changes nothing but what the stall counted. The bytes come through the core's instruction cache. A step whose turn is one of the
manual's steps without an instruction is exec of it; a turn of the firmware raises source 643 or advances the fused rollback counter, never
back. With an empty agenda the core that ran last has its turn and one clk passes.
Where the model reads the rules further than their words, it follows its own log entries 14, 46, 52, 55. -/
def Obligations.StepRunsDecodedInstruction : Prop :=
  ∀ (s : State) (k c : Nat) (r : List Turn),
    (s.agenda = .issue k :: r → (coreOf s k).issuedAt ≠ some s.clk →
      let x := ctxOf s k c
      let rr := (coreOf s k).rr
      let u := { s with agenda := r, stalled := false }
      let v := { u with cur := ⟨k, c⟩ }
      let issued := fun (z : State) => Host.Outcome.next (setCore z k { coreOf z k with rr := c, issuedAt := some s.clk })
      (∃ n < 4, c = (rr + 1 + n) % 4 ∧ ∀ j < n, (ctxOf s k ((rr + 1 + j) % 4)).mode = .free) →
      canIssue u k c = true → x.follows = none →
      (∀ w t i, fetchWord v = .ok (w, t) → followers t k c = [] →
        (decode w = .ok i ∨
          ∃ e, decode w = .error e ∧ i = .illegalEncoding (isShort w) e.reason (if isShort w then w &&& 0xFFFF else w)) →
        let y := ctxOf t k c
        let counted := if y.sendHold.isSome ∨ y.leaveAsk.isSome then t else countEvent t k c 2 1
        let place := [(y.pc.toNat, i.length)]
        (unwatched t 3 place →
          (∀ z, exec i counted = .next z → z.stalled = false → step s = issued z) ∧
          (∀ e, exec i counted = .fault e → step s = .fault e) ∧
          (∀ z q, exec i counted = .next z → z.stalled = true → exec i t = .next q → q.stalled = true →
            (∀ j < 4, j ≠ c → (ctxOf q k j).mode = .free) → step s = .next { q with stalled := false })) ∧
        (∀ e z q, watchTest 3 place counted = .error e → exec i counted = .next z →
          (stoppedBefore i k c z = false → stopped counted e = .next q → q.stalled = false → step s = issued q) ∧
          (stoppedBefore i k c z = true → z.stalled = false → step s = issued z))) ∧
      (∀ e z, fetchWord v = .error e → stopped v e = .next z → z.stalled = false → step s = issued z) ∧
      (let a := x.pc.toNat
       let lines := (coreOf s k).icache
       let word := fun (d : BitVec 512) =>
         let w := d.extractLsb' (8 * (a % 64)) 32
         if w.getLsbD 0 then w else w &&& 0xFFFF
       a < 2 ^ 48 → isTranslated a = false → a % 2 = 0 → a % 64 ≤ 60 →
       x.pcc.tag = true → capSealed x.pcc = false → capHas x.pcc pX = true → (capFmt x.pcc = fRAW8 ∨ capFmt x.pcc = fN8) →
       (∀ j < 4, boxHolds x.pcc (a + j) = true) →
       (∀ j ∈ [a, a + 2], ∃ y, windowCheck (coreBerth k) x.pcc 0 0 j (j + 1) false = .ok y) →
       (∀ d, tabFind? lines (a / 64) = some d → fetchWord v = .ok (word d, v)) ∧
       (tabFind? lines (a / 64) = none → lines.length < 512 → isBad s a 2 = false → sliceIdle s a 2 = false →
        let d := BitVec.ofNat 512 (natOfBytes (memRead s.mem (a / 64 * 64) 64))
        fetchWord v = .ok (word d, setCore v k { coreOf v k with
          icache := tabPut lines (a / 64) d
          itail := match codeTail v k x.part ((a / 64 + 1) * 64) with
            | some e => tabPut (coreOf s k).itail (a / 64) e
            | none => tabErase (coreOf s k).itail (a / 64) })))) ∧
    (s.agenda = .issue k :: r → (coreOf s k).issuedAt = some s.clk → step s = .next { s with agenda := r }) ∧
    (∀ i, s.agenda = .event i :: r → (s.glob.boot = .done ∨ isBoot i = true) → isEvent i = true →
      step s = exec i { s with agenda := r }) ∧
    (s.agenda = .firmware .raise :: r → s.glob.boot = .done → step s = .next (raiseIrq { s with agenda := r } 643 0)) ∧
    (∀ n, s.agenda = .firmware (.advanceRollback n) :: r → s.glob.boot = .done →
      step s = .next { s with agenda := r, glob := { s.glob with fusedRollback := if s.glob.fusedRollback.toNat < n.toNat then n else s.glob.fusedRollback } }) ∧
    (∀ n, s.agenda = .clk n :: r → ∃ t, step s = .next t ∧ t.clk = s.clk + n ∧ t.mem = s.mem ∧ t.agenda = r) ∧
    (∀ t, s.agenda = [] → step { s with agenda := [.issue s.cur.core] } = .next t → step s = .next (tick t 1))
end

