-- ==== Sys2Proof/Laws/Memory.lean ====
section
/-!
SUPPORT. Memory as sorted cells: every operation keeps the canonical form, and what a read answers after a write.
-/
namespace Sys2Proof.Machine

open Sys2Proof

/-! ### The canonical form -/

theorem wf_iff (m : List Host.Cell) : Memory.wf m = true ↔ m.Pairwise (fun c d => c.1 < d.1) ∧ ∀ c ∈ m, c.2 ≠ 0 := by
  induction m with
  | nil => simp [Memory.wf]
  | cons c r ih =>
    cases r with
    | nil => simp [Memory.wf]
    | cons d r =>
      simp only [Memory.wf, Bool.and_eq_true, bne_iff_ne, ne_eq, decide_eq_true_eq, ih]
      constructor
      · rintro ⟨⟨hc, hcd⟩, hp, hz⟩
        refine ⟨List.pairwise_cons.2 ⟨?_, hp⟩, ?_⟩
        · intro e he
          rcases List.mem_cons.1 he with rfl | he
          · exact hcd
          · exact Nat.lt_trans hcd ((List.pairwise_cons.1 hp).1 e he)
        · intro e he
          rcases List.mem_cons.1 he with rfl | he
          · exact hc
          · exact hz e he
      · rintro ⟨hp, hz⟩
        have h := List.pairwise_cons.1 hp
        exact ⟨⟨hz c (by simp), h.1 d (by simp)⟩, h.2, fun e he => hz e (List.mem_cons_of_mem _ he)⟩

theorem wf_filter {m : List Host.Cell} (p : Host.Cell → Bool) (h : Memory.wf m = true) : Memory.wf (m.filter p) = true := by
  rw [wf_iff] at h ⊢
  exact ⟨h.1.filter p, fun c hc => h.2 c (List.mem_filter.1 hc).1⟩

theorem cellsFrom_bounds (a : Nat) (bs : List Byte) : ∀ c ∈ cellsFrom a bs, a ≤ c.1 ∧ c.1 < a + bs.length := by
  induction bs generalizing a with
  | nil => simp [cellsFrom]
  | cons b r ih =>
    intro c hc
    simp only [cellsFrom] at hc
    split at hc
    · have := ih (a + 1) c hc
      simp only [List.length_cons]; omega
    · rcases List.mem_cons.1 hc with rfl | hc
      · simp only [List.length_cons]; omega
      · have := ih (a + 1) c hc
        simp only [List.length_cons]; omega

theorem wf_cellsFrom (a : Nat) (bs : List Byte) : Memory.wf (cellsFrom a bs) = true := by
  rw [wf_iff]
  induction bs generalizing a with
  | nil => simp [cellsFrom]
  | cons b r ih =>
    simp only [cellsFrom]
    split
    · exact ih (a + 1)
    · refine ⟨List.pairwise_cons.2 ⟨fun c hc => ?_, (ih (a + 1)).1⟩, fun c hc => ?_⟩
      · have := cellsFrom_bounds (a + 1) r c hc
        omega
      · rcases List.mem_cons.1 hc with rfl | hc
        · assumption
        · exact (ih (a + 1)).2 c hc

/-- A write keeps the canonical form. -/
theorem wf_memWrite {m : List Host.Cell} (a : Nat) (bs : List Byte) (h : Memory.wf m = true) :
    Memory.wf (memWrite m a bs) = true := by
  have h1 := (wf_iff _).1 (wf_filter (fun c => decide (c.1 < a)) h)
  have h2 := (wf_iff _).1 (wf_cellsFrom a bs)
  have h3 := (wf_iff _).1 (wf_filter (fun c => decide (a + bs.length ≤ c.1)) h)
  rw [wf_iff, memWrite]
  refine ⟨List.pairwise_append.2 ⟨List.pairwise_append.2 ⟨h1.1, h2.1, ?_⟩, h3.1, ?_⟩, ?_⟩
  · intro c hc d hd
    have := (List.mem_filter.1 hc).2
    have := cellsFrom_bounds a bs d hd
    simp_all; omega
  · intro c hc d hd
    have h4 := (List.mem_filter.1 hd).2
    rcases List.mem_append.1 hc with hc | hc
    · have := (List.mem_filter.1 hc).2
      simp_all; omega
    · have := cellsFrom_bounds a bs c hc
      simp_all; omega
  · intro c hc
    rcases List.mem_append.1 hc with hc | hc
    · rcases List.mem_append.1 hc with hc | hc
      · exact h1.2 c hc
      · exact h2.2 c hc
    · exact h3.2 c hc

theorem wf_foldl_memWrite (f : Host.Cell → Nat) (g : Host.Cell → List Byte) (cs m : List Host.Cell)
    (h : Memory.wf m = true) : Memory.wf (cs.foldl (fun m c => memWrite m (f c) (g c)) m) = true := by
  induction cs generalizing m with
  | nil => exact h
  | cons c r ih => exact ih _ (wf_memWrite _ _ h)

/-! ### Reads -/

/-- In canonical memory a byte is what its cell says, and zero without one. -/
theorem memByte_of_mem {m : List Host.Cell} (h : Memory.wf m = true) {a : Nat} {v : Byte} (hc : (a, v) ∈ m) : memByte m a = v := by
  rw [wf_iff] at h
  induction m with
  | nil => simp at hc
  | cons c r ih =>
    obtain ⟨k, w⟩ := c
    have hp := List.pairwise_cons.1 h.1
    simp only [memByte]
    rcases List.mem_cons.1 hc with e | hc
    · cases e; simp
    · have : k < a := hp.1 _ hc
      rw [if_neg (by omega), if_neg (by omega)]
      exact ih ⟨hp.2, fun c hc => h.2 c (List.mem_cons_of_mem _ hc)⟩ hc

theorem memByte_of_not_mem {m : List Host.Cell} {a : Nat} (h : ∀ v, (a, v) ∉ m) : memByte m a = 0 := by
  induction m with
  | nil => rfl
  | cons c r ih =>
    obtain ⟨k, w⟩ := c
    simp only [memByte]
    split
    · rename_i e; subst e; exact absurd (by simp) (h w)
    · split
      · rfl
      · exact ih fun v hv => h v (List.mem_cons_of_mem _ hv)

theorem memByte_ext {m n : List Host.Cell} (hm : Memory.wf m = true) (hn : Memory.wf n = true) {a : Nat}
    (h : ∀ v, (a, v) ∈ m ↔ (a, v) ∈ n) : memByte m a = memByte n a := by
  by_cases e : ∃ v, (a, v) ∈ m
  · obtain ⟨v, hv⟩ := e
    rw [memByte_of_mem hm hv, memByte_of_mem hn ((h v).1 hv)]
  · rw [memByte_of_not_mem fun v hv => e ⟨v, hv⟩, memByte_of_not_mem fun v hv => e ⟨v, (h v).2 hv⟩]

theorem memByte_filter {m : List Host.Cell} (hm : Memory.wf m = true) (p : Host.Cell → Bool) {a : Nat}
    (h : ∀ v, (a, v) ∈ m → p (a, v) = true) : memByte (m.filter p) a = memByte m a :=
  memByte_ext (wf_filter p hm) hm fun v => by
    rw [List.mem_filter]; exact ⟨fun x => x.1, fun x => ⟨x, h v x⟩⟩

/-- A write leaves every other byte. -/
theorem memByte_write_other {m : List Host.Cell} (hm : Memory.wf m = true) {a k : Nat} {bs : List Byte}
    (h : k < a ∨ a + bs.length ≤ k) : memByte (memWrite m a bs) k = memByte m k :=
  memByte_ext (wf_memWrite a bs hm) hm fun v => by
    simp only [memWrite, List.mem_append, List.mem_filter, decide_eq_true_eq]
    constructor
    · rintro ((⟨x, -⟩ | x) | ⟨x, -⟩)
      · exact x
      · have := cellsFrom_bounds a bs _ x
        simp only at this; omega
      · exact x
    · intro x
      rcases h with h | h
      · exact .inl (.inl ⟨x, h⟩)
      · exact .inr ⟨x, h⟩

theorem memByte_cellsFrom (a : Nat) (bs : List Byte) (i : Nat) (h : i < bs.length) : memByte (cellsFrom a bs) (a + i) = bs[i] := by
  induction bs generalizing a i with
  | nil => simp at h
  | cons b r ih =>
    simp only [cellsFrom]
    cases i with
    | zero =>
      split
      · rename_i e
        rw [memByte_of_not_mem]
        · simp [e]
        · intro v hv
          have := cellsFrom_bounds (a + 1) r _ hv
          simp only at this; omega
      · simp [memByte]
    | succ i =>
      have := ih (a + 1) i (by simpa using h)
      rw [show a + (i + 1) = a + 1 + i by omega]
      split
      · simpa using this
      · simp only [memByte]
        rw [if_neg (by omega), if_neg (by omega)]
        simpa using this

/-- A byte read after it was written is what was written. -/
theorem memByte_write_same {m : List Host.Cell} (hm : Memory.wf m = true) (a : Nat) (bs : List Byte) (i : Nat) (h : i < bs.length) :
    memByte (memWrite m a bs) (a + i) = bs[i] := by
  rw [← memByte_cellsFrom a bs i h]
  refine memByte_ext (wf_memWrite a bs hm) (wf_cellsFrom a bs) fun v => ?_
  simp only [memWrite, List.mem_append, List.mem_filter, decide_eq_true_eq]
  constructor
  · rintro ((⟨-, x⟩ | x) | ⟨-, x⟩)
    · omega
    · exact x
    · omega
  · exact fun x => .inl (.inr x)

@[simp] theorem memRead_length (m : List Host.Cell) (a n : Nat) : (memRead m a n).length = n := by simp [memRead]

/-- The bytes read are those at the addresses, one by one. -/
theorem memRead_eq {m : List Host.Cell} (hm : Memory.wf m = true) (a n : Nat) :
    memRead m a n = (List.range n).map fun i => memByte m (a + i) := by
  refine List.map_congr_left fun i hi => ?_
  have := List.mem_range.1 hi
  exact memByte_filter hm _ fun v _ => by simp; omega

theorem memRead_getElem {m : List Host.Cell} (hm : Memory.wf m = true) (a n i : Nat) (h : i < (memRead m a n).length) :
    (memRead m a n)[i] = memByte m (a + i) := by
  simp only [memRead_eq hm, List.getElem_map, List.getElem_range]

/-- Reading back what was written. -/
theorem memRead_write_same {m : List Host.Cell} (hm : Memory.wf m = true) (a : Nat) (bs : List Byte) :
    memRead (memWrite m a bs) a bs.length = bs := by
  refine List.ext_getElem (by simp) fun i h1 h2 => ?_
  rw [memRead_getElem (wf_memWrite a bs hm), memByte_write_same hm a bs i h2]

/-- Reading apart from what was written. -/
theorem memRead_write_other {m : List Host.Cell} (hm : Memory.wf m = true) {a k n : Nat} {bs : List Byte}
    (h : k + n ≤ a ∨ a + bs.length ≤ k) : memRead (memWrite m a bs) k n = memRead m k n := by
  rw [memRead_eq (wf_memWrite a bs hm), memRead_eq hm]
  refine List.map_congr_left fun i hi => ?_
  have := List.mem_range.1 hi
  exact memByte_write_other hm (by omega)

end Sys2Proof.Machine
end

