-- ==== Sys2Proof/Laws/Table.lean ====
section
/-!
SUPPORT. Tables by number: what a read answers after a write, for every table, sorted or not.
-/
namespace Sys2Proof.Machine

open Sys2Proof

theorem tabFind?_put_same {α : Type} (t : Tab α) (n : Nat) (x : α) : tabFind? (tabPut t n x) n = some x := by
  induction t with
  | nil => simp [tabPut, tabFind?]
  | cons e r ih =>
    obtain ⟨k, v⟩ := e
    simp only [tabPut]
    split
    · simp [tabFind?]
    · split
      · simp [tabFind?]
      · simp_all [tabFind?]

theorem tabFind?_put_other {α : Type} (t : Tab α) {n m : Nat} (x : α) (h : n ≠ m) :
    tabFind? (tabPut t n x) m = tabFind? t m := by
  induction t with
  | nil => simp [tabPut, tabFind?, h]
  | cons e r ih =>
    obtain ⟨k, v⟩ := e
    simp only [tabPut]
    split
    · simp [tabFind?, h]
    · split
      · simp_all [tabFind?]
      · simp_all [tabFind?]

@[simp] theorem tabGet_put_same {α : Type} (d : α) (t : Tab α) (n : Nat) (x : α) : tabGet d (tabPut t n x) n = x := by
  simp [tabGet, tabFind?_put_same]

theorem tabGet_put_other {α : Type} (d : α) (t : Tab α) {n m : Nat} (x : α) (h : n ≠ m) :
    tabGet d (tabPut t n x) m = tabGet d t m := by
  simp [tabGet, tabFind?_put_other t x h]

theorem tabGet_put {α : Type} (d : α) (t : Tab α) (n m : Nat) (x : α) :
    tabGet d (tabPut t n x) m = if n = m then x else tabGet d t m := by
  by_cases h : n = m
  · subst h; simp
  · simp [h, tabGet_put_other]

@[simp] theorem tabPut_put {α : Type} (t : Tab α) (n : Nat) (x y : α) : tabPut (tabPut t n x) n y = tabPut t n y := by
  induction t with
  | nil => simp [tabPut]
  | cons e r ih =>
    obtain ⟨k, v⟩ := e
    by_cases h1 : n < k
    · simp [tabPut, h1]
    · by_cases h2 : k = n
      · simp [tabPut, h2]
      · simp [tabPut, h1, h2, ih]

theorem tabFind?_erase_same {α : Type} (t : Tab α) (n : Nat) : tabFind? (tabErase t n) n = none := by
  induction t with
  | nil => rfl
  | cons e r ih =>
    obtain ⟨k, v⟩ := e
    by_cases h : k = n
    · simp_all [tabErase]
    · simp_all [tabErase, tabFind?]

theorem tabFind?_erase_other {α : Type} (t : Tab α) {n m : Nat} (h : n ≠ m) : tabFind? (tabErase t n) m = tabFind? t m := by
  induction t with
  | nil => rfl
  | cons e r ih =>
    obtain ⟨k, v⟩ := e
    by_cases h1 : k = n
    · subst h1; simp_all [tabErase, tabFind?]
    · simp_all [tabErase, tabFind?]

@[simp] theorem tabGet_erase_same {α : Type} (d : α) (t : Tab α) (n : Nat) : tabGet d (tabErase t n) n = d := by
  simp [tabGet, tabFind?_erase_same]

theorem tabGet_erase {α : Type} (d : α) (t : Tab α) (n m : Nat) :
    tabGet d (tabErase t n) m = if n = m then d else tabGet d t m := by
  by_cases h : n = m
  · subst h; simp
  · simp [tabGet, tabFind?_erase_other t h, h]

@[simp] theorem tabGet_nil {α : Type} (d : α) (n : Nat) : tabGet d [] n = d := rfl

end Sys2Proof.Machine
end

