-- ==== Sys2Proof/Laws/State.lean ====
section
/-!
SUPPORT. What each update of the state leaves of each field, and what the accessors answer after it.
-/
namespace Sys2Proof.Machine

open Sys2Proof

@[simp] theorem setCore_agenda (s : State) (k : Nat) (c : Core) : (setCore s k c).agenda = s.agenda := rfl
@[simp] theorem setCore_cur (s : State) (k : Nat) (c : Core) : (setCore s k c).cur = s.cur := rfl
@[simp] theorem setCore_clk (s : State) (k : Nat) (c : Core) : (setCore s k c).clk = s.clk := rfl
@[simp] theorem setCore_freeCtr (s : State) (k : Nat) (c : Core) : (setCore s k c).freeCtr = s.freeCtr := rfl
@[simp] theorem setCore_stalled (s : State) (k : Nat) (c : Core) : (setCore s k c).stalled = s.stalled := rfl
@[simp] theorem setCore_mem (s : State) (k : Nat) (c : Core) : (setCore s k c).mem = s.mem := rfl
@[simp] theorem setCore_tags (s : State) (k : Nat) (c : Core) : (setCore s k c).tags = s.tags := rfl
@[simp] theorem setCore_berths (s : State) (k : Nat) (c : Core) : (setCore s k c).berths = s.berths := rfl
@[simp] theorem setCore_slices (s : State) (k : Nat) (c : Core) : (setCore s k c).slices = s.slices := rfl
@[simp] theorem setCore_quays (s : State) (k : Nat) (c : Core) : (setCore s k c).quays = s.quays := rfl
@[simp] theorem setCore_parts (s : State) (k : Nat) (c : Core) : (setCore s k c).parts = s.parts := rfl
@[simp] theorem setCore_launches (s : State) (k : Nat) (c : Core) : (setCore s k c).launches = s.launches := rfl
@[simp] theorem setCore_glob (s : State) (k : Nat) (c : Core) : (setCore s k c).glob = s.glob := rfl
@[simp] theorem setCore_mesh (s : State) (k : Nat) (c : Core) : (setCore s k c).mesh = s.mesh := rfl
@[simp] theorem setCore_reqs (s : State) (k : Nat) (c : Core) : (setCore s k c).reqs = s.reqs := rfl
@[simp] theorem setCore_nextReq (s : State) (k : Nat) (c : Core) : (setCore s k c).nextReq = s.nextReq := rfl
@[simp] theorem setCore_phases (s : State) (k : Nat) (c : Core) : (setCore s k c).phases = s.phases := rfl

@[simp] theorem setCtx_agenda (s : State) (k c : Nat) (x : Ctx) : (setCtx s k c x).agenda = s.agenda := rfl
@[simp] theorem setCtx_cur (s : State) (k c : Nat) (x : Ctx) : (setCtx s k c x).cur = s.cur := rfl
@[simp] theorem setCtx_clk (s : State) (k c : Nat) (x : Ctx) : (setCtx s k c x).clk = s.clk := rfl
@[simp] theorem setCtx_freeCtr (s : State) (k c : Nat) (x : Ctx) : (setCtx s k c x).freeCtr = s.freeCtr := rfl
@[simp] theorem setCtx_stalled (s : State) (k c : Nat) (x : Ctx) : (setCtx s k c x).stalled = s.stalled := rfl
@[simp] theorem setCtx_mem (s : State) (k c : Nat) (x : Ctx) : (setCtx s k c x).mem = s.mem := rfl
@[simp] theorem setCtx_tags (s : State) (k c : Nat) (x : Ctx) : (setCtx s k c x).tags = s.tags := rfl
@[simp] theorem setCtx_berths (s : State) (k c : Nat) (x : Ctx) : (setCtx s k c x).berths = s.berths := rfl
@[simp] theorem setCtx_slices (s : State) (k c : Nat) (x : Ctx) : (setCtx s k c x).slices = s.slices := rfl
@[simp] theorem setCtx_quays (s : State) (k c : Nat) (x : Ctx) : (setCtx s k c x).quays = s.quays := rfl
@[simp] theorem setCtx_parts (s : State) (k c : Nat) (x : Ctx) : (setCtx s k c x).parts = s.parts := rfl
@[simp] theorem setCtx_launches (s : State) (k c : Nat) (x : Ctx) : (setCtx s k c x).launches = s.launches := rfl
@[simp] theorem setCtx_glob (s : State) (k c : Nat) (x : Ctx) : (setCtx s k c x).glob = s.glob := rfl
@[simp] theorem setCtx_mesh (s : State) (k c : Nat) (x : Ctx) : (setCtx s k c x).mesh = s.mesh := rfl
@[simp] theorem setCtx_reqs (s : State) (k c : Nat) (x : Ctx) : (setCtx s k c x).reqs = s.reqs := rfl
@[simp] theorem setCtx_nextReq (s : State) (k c : Nat) (x : Ctx) : (setCtx s k c x).nextReq = s.nextReq := rfl
@[simp] theorem setCtx_phases (s : State) (k c : Nat) (x : Ctx) : (setCtx s k c x).phases = s.phases := rfl

@[simp] theorem setBerth_agenda (s : State) (b : Nat) (x : Berth) : (setBerth s b x).agenda = s.agenda := rfl
@[simp] theorem setBerth_cur (s : State) (b : Nat) (x : Berth) : (setBerth s b x).cur = s.cur := rfl
@[simp] theorem setBerth_clk (s : State) (b : Nat) (x : Berth) : (setBerth s b x).clk = s.clk := rfl
@[simp] theorem setBerth_freeCtr (s : State) (b : Nat) (x : Berth) : (setBerth s b x).freeCtr = s.freeCtr := rfl
@[simp] theorem setBerth_stalled (s : State) (b : Nat) (x : Berth) : (setBerth s b x).stalled = s.stalled := rfl
@[simp] theorem setBerth_mem (s : State) (b : Nat) (x : Berth) : (setBerth s b x).mem = s.mem := rfl
@[simp] theorem setBerth_tags (s : State) (b : Nat) (x : Berth) : (setBerth s b x).tags = s.tags := rfl
@[simp] theorem setBerth_cores (s : State) (b : Nat) (x : Berth) : (setBerth s b x).cores = s.cores := rfl
@[simp] theorem setBerth_slices (s : State) (b : Nat) (x : Berth) : (setBerth s b x).slices = s.slices := rfl
@[simp] theorem setBerth_quays (s : State) (b : Nat) (x : Berth) : (setBerth s b x).quays = s.quays := rfl
@[simp] theorem setBerth_parts (s : State) (b : Nat) (x : Berth) : (setBerth s b x).parts = s.parts := rfl
@[simp] theorem setBerth_launches (s : State) (b : Nat) (x : Berth) : (setBerth s b x).launches = s.launches := rfl
@[simp] theorem setBerth_glob (s : State) (b : Nat) (x : Berth) : (setBerth s b x).glob = s.glob := rfl
@[simp] theorem setBerth_mesh (s : State) (b : Nat) (x : Berth) : (setBerth s b x).mesh = s.mesh := rfl
@[simp] theorem setBerth_reqs (s : State) (b : Nat) (x : Berth) : (setBerth s b x).reqs = s.reqs := rfl
@[simp] theorem setBerth_nextReq (s : State) (b : Nat) (x : Berth) : (setBerth s b x).nextReq = s.nextReq := rfl
@[simp] theorem setBerth_phases (s : State) (b : Nat) (x : Berth) : (setBerth s b x).phases = s.phases := rfl

@[simp] theorem setSlice_agenda (s : State) (n : Nat) (x : Slice) : (setSlice s n x).agenda = s.agenda := rfl
@[simp] theorem setSlice_cur (s : State) (n : Nat) (x : Slice) : (setSlice s n x).cur = s.cur := rfl
@[simp] theorem setSlice_clk (s : State) (n : Nat) (x : Slice) : (setSlice s n x).clk = s.clk := rfl
@[simp] theorem setSlice_freeCtr (s : State) (n : Nat) (x : Slice) : (setSlice s n x).freeCtr = s.freeCtr := rfl
@[simp] theorem setSlice_stalled (s : State) (n : Nat) (x : Slice) : (setSlice s n x).stalled = s.stalled := rfl
@[simp] theorem setSlice_mem (s : State) (n : Nat) (x : Slice) : (setSlice s n x).mem = s.mem := rfl
@[simp] theorem setSlice_tags (s : State) (n : Nat) (x : Slice) : (setSlice s n x).tags = s.tags := rfl
@[simp] theorem setSlice_cores (s : State) (n : Nat) (x : Slice) : (setSlice s n x).cores = s.cores := rfl
@[simp] theorem setSlice_berths (s : State) (n : Nat) (x : Slice) : (setSlice s n x).berths = s.berths := rfl
@[simp] theorem setSlice_quays (s : State) (n : Nat) (x : Slice) : (setSlice s n x).quays = s.quays := rfl
@[simp] theorem setSlice_parts (s : State) (n : Nat) (x : Slice) : (setSlice s n x).parts = s.parts := rfl
@[simp] theorem setSlice_launches (s : State) (n : Nat) (x : Slice) : (setSlice s n x).launches = s.launches := rfl
@[simp] theorem setSlice_glob (s : State) (n : Nat) (x : Slice) : (setSlice s n x).glob = s.glob := rfl
@[simp] theorem setSlice_mesh (s : State) (n : Nat) (x : Slice) : (setSlice s n x).mesh = s.mesh := rfl
@[simp] theorem setSlice_reqs (s : State) (n : Nat) (x : Slice) : (setSlice s n x).reqs = s.reqs := rfl
@[simp] theorem setSlice_nextReq (s : State) (n : Nat) (x : Slice) : (setSlice s n x).nextReq = s.nextReq := rfl
@[simp] theorem setSlice_phases (s : State) (n : Nat) (x : Slice) : (setSlice s n x).phases = s.phases := rfl

@[simp] theorem setQuay_agenda (s : State) (q : Nat) (x : Quay) : (setQuay s q x).agenda = s.agenda := rfl
@[simp] theorem setQuay_cur (s : State) (q : Nat) (x : Quay) : (setQuay s q x).cur = s.cur := rfl
@[simp] theorem setQuay_clk (s : State) (q : Nat) (x : Quay) : (setQuay s q x).clk = s.clk := rfl
@[simp] theorem setQuay_freeCtr (s : State) (q : Nat) (x : Quay) : (setQuay s q x).freeCtr = s.freeCtr := rfl
@[simp] theorem setQuay_stalled (s : State) (q : Nat) (x : Quay) : (setQuay s q x).stalled = s.stalled := rfl
@[simp] theorem setQuay_mem (s : State) (q : Nat) (x : Quay) : (setQuay s q x).mem = s.mem := rfl
@[simp] theorem setQuay_tags (s : State) (q : Nat) (x : Quay) : (setQuay s q x).tags = s.tags := rfl
@[simp] theorem setQuay_cores (s : State) (q : Nat) (x : Quay) : (setQuay s q x).cores = s.cores := rfl
@[simp] theorem setQuay_berths (s : State) (q : Nat) (x : Quay) : (setQuay s q x).berths = s.berths := rfl
@[simp] theorem setQuay_slices (s : State) (q : Nat) (x : Quay) : (setQuay s q x).slices = s.slices := rfl
@[simp] theorem setQuay_parts (s : State) (q : Nat) (x : Quay) : (setQuay s q x).parts = s.parts := rfl
@[simp] theorem setQuay_launches (s : State) (q : Nat) (x : Quay) : (setQuay s q x).launches = s.launches := rfl
@[simp] theorem setQuay_glob (s : State) (q : Nat) (x : Quay) : (setQuay s q x).glob = s.glob := rfl
@[simp] theorem setQuay_mesh (s : State) (q : Nat) (x : Quay) : (setQuay s q x).mesh = s.mesh := rfl
@[simp] theorem setQuay_reqs (s : State) (q : Nat) (x : Quay) : (setQuay s q x).reqs = s.reqs := rfl
@[simp] theorem setQuay_nextReq (s : State) (q : Nat) (x : Quay) : (setQuay s q x).nextReq = s.nextReq := rfl
@[simp] theorem setQuay_phases (s : State) (q : Nat) (x : Quay) : (setQuay s q x).phases = s.phases := rfl

@[simp] theorem setPart_agenda (s : State) (p : Nat) (x : Partition) : (setPart s p x).agenda = s.agenda := rfl
@[simp] theorem setPart_cur (s : State) (p : Nat) (x : Partition) : (setPart s p x).cur = s.cur := rfl
@[simp] theorem setPart_clk (s : State) (p : Nat) (x : Partition) : (setPart s p x).clk = s.clk := rfl
@[simp] theorem setPart_freeCtr (s : State) (p : Nat) (x : Partition) : (setPart s p x).freeCtr = s.freeCtr := rfl
@[simp] theorem setPart_stalled (s : State) (p : Nat) (x : Partition) : (setPart s p x).stalled = s.stalled := rfl
@[simp] theorem setPart_mem (s : State) (p : Nat) (x : Partition) : (setPart s p x).mem = s.mem := rfl
@[simp] theorem setPart_tags (s : State) (p : Nat) (x : Partition) : (setPart s p x).tags = s.tags := rfl
@[simp] theorem setPart_cores (s : State) (p : Nat) (x : Partition) : (setPart s p x).cores = s.cores := rfl
@[simp] theorem setPart_berths (s : State) (p : Nat) (x : Partition) : (setPart s p x).berths = s.berths := rfl
@[simp] theorem setPart_slices (s : State) (p : Nat) (x : Partition) : (setPart s p x).slices = s.slices := rfl
@[simp] theorem setPart_quays (s : State) (p : Nat) (x : Partition) : (setPart s p x).quays = s.quays := rfl
@[simp] theorem setPart_launches (s : State) (p : Nat) (x : Partition) : (setPart s p x).launches = s.launches := rfl
@[simp] theorem setPart_glob (s : State) (p : Nat) (x : Partition) : (setPart s p x).glob = s.glob := rfl
@[simp] theorem setPart_mesh (s : State) (p : Nat) (x : Partition) : (setPart s p x).mesh = s.mesh := rfl
@[simp] theorem setPart_reqs (s : State) (p : Nat) (x : Partition) : (setPart s p x).reqs = s.reqs := rfl
@[simp] theorem setPart_nextReq (s : State) (p : Nat) (x : Partition) : (setPart s p x).nextReq = s.nextReq := rfl
@[simp] theorem setPart_phases (s : State) (p : Nat) (x : Partition) : (setPart s p x).phases = s.phases := rfl

@[simp] theorem setLaunch_agenda (s : State) (n : Nat) (x : Launch) : (setLaunch s n x).agenda = s.agenda := rfl
@[simp] theorem setLaunch_cur (s : State) (n : Nat) (x : Launch) : (setLaunch s n x).cur = s.cur := rfl
@[simp] theorem setLaunch_clk (s : State) (n : Nat) (x : Launch) : (setLaunch s n x).clk = s.clk := rfl
@[simp] theorem setLaunch_freeCtr (s : State) (n : Nat) (x : Launch) : (setLaunch s n x).freeCtr = s.freeCtr := rfl
@[simp] theorem setLaunch_stalled (s : State) (n : Nat) (x : Launch) : (setLaunch s n x).stalled = s.stalled := rfl
@[simp] theorem setLaunch_mem (s : State) (n : Nat) (x : Launch) : (setLaunch s n x).mem = s.mem := rfl
@[simp] theorem setLaunch_tags (s : State) (n : Nat) (x : Launch) : (setLaunch s n x).tags = s.tags := rfl
@[simp] theorem setLaunch_cores (s : State) (n : Nat) (x : Launch) : (setLaunch s n x).cores = s.cores := rfl
@[simp] theorem setLaunch_berths (s : State) (n : Nat) (x : Launch) : (setLaunch s n x).berths = s.berths := rfl
@[simp] theorem setLaunch_slices (s : State) (n : Nat) (x : Launch) : (setLaunch s n x).slices = s.slices := rfl
@[simp] theorem setLaunch_quays (s : State) (n : Nat) (x : Launch) : (setLaunch s n x).quays = s.quays := rfl
@[simp] theorem setLaunch_parts (s : State) (n : Nat) (x : Launch) : (setLaunch s n x).parts = s.parts := rfl
@[simp] theorem setLaunch_glob (s : State) (n : Nat) (x : Launch) : (setLaunch s n x).glob = s.glob := rfl
@[simp] theorem setLaunch_mesh (s : State) (n : Nat) (x : Launch) : (setLaunch s n x).mesh = s.mesh := rfl
@[simp] theorem setLaunch_reqs (s : State) (n : Nat) (x : Launch) : (setLaunch s n x).reqs = s.reqs := rfl
@[simp] theorem setLaunch_nextReq (s : State) (n : Nat) (x : Launch) : (setLaunch s n x).nextReq = s.nextReq := rfl
@[simp] theorem setLaunch_phases (s : State) (n : Nat) (x : Launch) : (setLaunch s n x).phases = s.phases := rfl

@[simp] theorem berthOf_setCore (s : State) (k : Nat) (c : Core) (j : Nat) : berthOf (setCore s k c) j = berthOf s j := rfl
@[simp] theorem sliceOf_setCore (s : State) (k : Nat) (c : Core) (j : Nat) : sliceOf (setCore s k c) j = sliceOf s j := rfl
@[simp] theorem quayOf_setCore (s : State) (k : Nat) (c : Core) (j : Nat) : quayOf (setCore s k c) j = quayOf s j := rfl
@[simp] theorem partOf_setCore (s : State) (k : Nat) (c : Core) (j : Nat) : partOf (setCore s k c) j = partOf s j := rfl
@[simp] theorem berthOf_setCtx (s : State) (k c : Nat) (x : Ctx) (j : Nat) : berthOf (setCtx s k c x) j = berthOf s j := rfl
@[simp] theorem sliceOf_setCtx (s : State) (k c : Nat) (x : Ctx) (j : Nat) : sliceOf (setCtx s k c x) j = sliceOf s j := rfl
@[simp] theorem quayOf_setCtx (s : State) (k c : Nat) (x : Ctx) (j : Nat) : quayOf (setCtx s k c x) j = quayOf s j := rfl
@[simp] theorem partOf_setCtx (s : State) (k c : Nat) (x : Ctx) (j : Nat) : partOf (setCtx s k c x) j = partOf s j := rfl
@[simp] theorem coreOf_setBerth (s : State) (b : Nat) (x : Berth) (j : Nat) : coreOf (setBerth s b x) j = coreOf s j := rfl
@[simp] theorem ctxOf_setBerth (s : State) (b : Nat) (x : Berth) (j d : Nat) : ctxOf (setBerth s b x) j d = ctxOf s j d := rfl
@[simp] theorem sliceOf_setBerth (s : State) (b : Nat) (x : Berth) (j : Nat) : sliceOf (setBerth s b x) j = sliceOf s j := rfl
@[simp] theorem quayOf_setBerth (s : State) (b : Nat) (x : Berth) (j : Nat) : quayOf (setBerth s b x) j = quayOf s j := rfl
@[simp] theorem partOf_setBerth (s : State) (b : Nat) (x : Berth) (j : Nat) : partOf (setBerth s b x) j = partOf s j := rfl
@[simp] theorem coreOf_setSlice (s : State) (n : Nat) (x : Slice) (j : Nat) : coreOf (setSlice s n x) j = coreOf s j := rfl
@[simp] theorem ctxOf_setSlice (s : State) (n : Nat) (x : Slice) (j d : Nat) : ctxOf (setSlice s n x) j d = ctxOf s j d := rfl
@[simp] theorem berthOf_setSlice (s : State) (n : Nat) (x : Slice) (j : Nat) : berthOf (setSlice s n x) j = berthOf s j := rfl
@[simp] theorem quayOf_setSlice (s : State) (n : Nat) (x : Slice) (j : Nat) : quayOf (setSlice s n x) j = quayOf s j := rfl
@[simp] theorem partOf_setSlice (s : State) (n : Nat) (x : Slice) (j : Nat) : partOf (setSlice s n x) j = partOf s j := rfl
@[simp] theorem coreOf_setQuay (s : State) (q : Nat) (x : Quay) (j : Nat) : coreOf (setQuay s q x) j = coreOf s j := rfl
@[simp] theorem ctxOf_setQuay (s : State) (q : Nat) (x : Quay) (j d : Nat) : ctxOf (setQuay s q x) j d = ctxOf s j d := rfl
@[simp] theorem berthOf_setQuay (s : State) (q : Nat) (x : Quay) (j : Nat) : berthOf (setQuay s q x) j = berthOf s j := rfl
@[simp] theorem sliceOf_setQuay (s : State) (q : Nat) (x : Quay) (j : Nat) : sliceOf (setQuay s q x) j = sliceOf s j := rfl
@[simp] theorem partOf_setQuay (s : State) (q : Nat) (x : Quay) (j : Nat) : partOf (setQuay s q x) j = partOf s j := rfl
@[simp] theorem coreOf_setPart (s : State) (p : Nat) (x : Partition) (j : Nat) : coreOf (setPart s p x) j = coreOf s j := rfl
@[simp] theorem ctxOf_setPart (s : State) (p : Nat) (x : Partition) (j d : Nat) : ctxOf (setPart s p x) j d = ctxOf s j d := rfl
@[simp] theorem berthOf_setPart (s : State) (p : Nat) (x : Partition) (j : Nat) : berthOf (setPart s p x) j = berthOf s j := rfl
@[simp] theorem sliceOf_setPart (s : State) (p : Nat) (x : Partition) (j : Nat) : sliceOf (setPart s p x) j = sliceOf s j := rfl
@[simp] theorem quayOf_setPart (s : State) (p : Nat) (x : Partition) (j : Nat) : quayOf (setPart s p x) j = quayOf s j := rfl
@[simp] theorem coreOf_setLaunch (s : State) (n : Nat) (x : Launch) (j : Nat) : coreOf (setLaunch s n x) j = coreOf s j := rfl
@[simp] theorem ctxOf_setLaunch (s : State) (n : Nat) (x : Launch) (j d : Nat) : ctxOf (setLaunch s n x) j d = ctxOf s j d := rfl
@[simp] theorem berthOf_setLaunch (s : State) (n : Nat) (x : Launch) (j : Nat) : berthOf (setLaunch s n x) j = berthOf s j := rfl
@[simp] theorem sliceOf_setLaunch (s : State) (n : Nat) (x : Launch) (j : Nat) : sliceOf (setLaunch s n x) j = sliceOf s j := rfl
@[simp] theorem quayOf_setLaunch (s : State) (n : Nat) (x : Launch) (j : Nat) : quayOf (setLaunch s n x) j = quayOf s j := rfl
@[simp] theorem partOf_setLaunch (s : State) (n : Nat) (x : Launch) (j : Nat) : partOf (setLaunch s n x) j = partOf s j := rfl

theorem coreOf_setCore (s : State) (k j : Nat) (c : Core) : coreOf (setCore s k c) j = if k = j then c else coreOf s j := by
  simp [coreOf, setCore, tabGet_put]
@[simp] theorem coreOf_setCore_same (s : State) (k : Nat) (c : Core) : coreOf (setCore s k c) k = c := by
  simp [coreOf_setCore]
theorem coreOf_setCtx (s : State) (k c j : Nat) (x : Ctx) :
    coreOf (setCtx s k c x) j = if k = j then { coreOf s k with ctxs := tabPut (coreOf s k).ctxs c x } else coreOf s j := by
  simp [setCtx, coreOf_setCore]
theorem ctxOf_setCtx (s : State) (k c j d : Nat) (x : Ctx) :
    ctxOf (setCtx s k c x) j d = if k = j ∧ c = d then x else ctxOf s j d := by
  simp only [ctxOf, coreOf_setCtx]
  by_cases h : k = j
  · subst h
    simp [tabGet_put]
  · simp [h]
@[simp] theorem ctxOf_setCtx_same (s : State) (k c : Nat) (x : Ctx) : ctxOf (setCtx s k c x) k c = x := by
  simp [ctxOf_setCtx]
theorem berthOf_setBerth (s : State) (b j : Nat) (x : Berth) : berthOf (setBerth s b x) j = if b = j then x else berthOf s j := by
  simp [berthOf, setBerth, tabGet_put]
@[simp] theorem berthOf_setBerth_same (s : State) (b : Nat) (x : Berth) : berthOf (setBerth s b x) b = x := by
  simp [berthOf_setBerth]
theorem sliceOf_setSlice (s : State) (n j : Nat) (x : Slice) : sliceOf (setSlice s n x) j = if n = j then x else sliceOf s j := by
  simp [sliceOf, setSlice, tabGet_put]
@[simp] theorem sliceOf_setSlice_same (s : State) (n : Nat) (x : Slice) : sliceOf (setSlice s n x) n = x := by
  simp [sliceOf_setSlice]
theorem quayOf_setQuay (s : State) (q j : Nat) (x : Quay) : quayOf (setQuay s q x) j = if q = j then x else quayOf s j := by
  simp [quayOf, setQuay, tabGet_put]
@[simp] theorem quayOf_setQuay_same (s : State) (q : Nat) (x : Quay) : quayOf (setQuay s q x) q = x := by
  simp [quayOf_setQuay]
theorem partOf_setPart (s : State) (p j : Nat) (x : Partition) : partOf (setPart s p x) j = if p = j then x else partOf s j := by
  simp [partOf, setPart, tabGet_put]
@[simp] theorem partOf_setPart_same (s : State) (p : Nat) (x : Partition) : partOf (setPart s p x) p = x := by
  simp [partOf_setPart]

@[simp] theorem setCore_setCore (s : State) (k : Nat) (c d : Core) : setCore (setCore s k c) k d = setCore s k d := by
  simp [setCore]
@[simp] theorem setCtx_setCtx (s : State) (k c : Nat) (x y : Ctx) : setCtx (setCtx s k c x) k c y = setCtx s k c y := by
  simp [setCtx]
@[simp] theorem setBerth_setBerth (s : State) (b : Nat) (x y : Berth) : setBerth (setBerth s b x) b y = setBerth s b y := by
  simp [setBerth]
@[simp] theorem setSlice_setSlice (s : State) (n : Nat) (x y : Slice) : setSlice (setSlice s n x) n y = setSlice s n y := by
  simp [setSlice]
@[simp] theorem setQuay_setQuay (s : State) (q : Nat) (x y : Quay) : setQuay (setQuay s q x) q y = setQuay s q y := by
  simp [setQuay]
@[simp] theorem setPart_setPart (s : State) (p : Nat) (x y : Partition) : setPart (setPart s p x) p y = setPart s p y := by
  simp [setPart]

end Sys2Proof.Machine
end

