-- ==== Sys2Proof/Laws/Cache.lean ====
section
/-!
SUPPORT. What an operation on memory and caches can do: only memory, tags, cached lines, the marks of bad lines and the images of
compressed blocks change, and memory keeps its canonical form.
-/
namespace Sys2Proof.Machine

open Sys2Proof

/-- Only memory and its caches differ between two states, and the second's memory is canonical if the first's is. -/
structure MemOnly (s t : State) : Prop where
  rest : t = { s with
    mem := t.mem, tags := t.tags, berths := t.berths, quays := t.quays, glob := { s.glob with blocks := t.glob.blocks } }
  berth : ∀ b, berthOf t b = { berthOf s b with l1 := (berthOf t b).l1 }
  quay : ∀ q, quayOf t q = { quayOf s q with l2 := (quayOf t q).l2, badLines := (quayOf t q).badLines }
  wf : Memory.wf s.mem = true → Memory.wf t.mem = true

namespace MemOnly

theorem refl (s : State) : MemOnly s s := ⟨rfl, fun _ => rfl, fun _ => rfl, id⟩

theorem trans {s t u : State} (h : MemOnly s t) (k : MemOnly t u) : MemOnly s u where
  rest := by
    have h1 := h.rest
    have k1 := k.rest
    rw [h1] at k1
    simpa using k1
  berth b := by
    have h1 := h.berth b
    have k1 := k.berth b
    rw [h1] at k1
    simpa using k1
  quay q := by
    have h1 := h.quay q
    have k1 := k.quay q
    rw [h1] at k1
    simpa using k1
  wf := k.wf ∘ h.wf

theorem foldl {α : Type} {f : State → α → State} (hf : ∀ s x, MemOnly s (f s x)) (l : List α) (s : State) :
    MemOnly s (l.foldl f s) := by
  induction l generalizing s with
  | nil => exact refl s
  | cons x r ih => exact (hf s x).trans (ih _)

theorem cores {s t : State} (h : MemOnly s t) : t.cores = s.cores := by rw [h.rest]
theorem parts {s t : State} (h : MemOnly s t) : t.parts = s.parts := by rw [h.rest]
theorem slices {s t : State} (h : MemOnly s t) : t.slices = s.slices := by rw [h.rest]
theorem launches {s t : State} (h : MemOnly s t) : t.launches = s.launches := by rw [h.rest]
theorem mesh {s t : State} (h : MemOnly s t) : t.mesh = s.mesh := by rw [h.rest]
theorem reqs {s t : State} (h : MemOnly s t) : t.reqs = s.reqs := by rw [h.rest]
theorem nextReq {s t : State} (h : MemOnly s t) : t.nextReq = s.nextReq := by rw [h.rest]
theorem cur {s t : State} (h : MemOnly s t) : t.cur = s.cur := by rw [h.rest]
theorem clk {s t : State} (h : MemOnly s t) : t.clk = s.clk := by rw [h.rest]
theorem phases {s t : State} (h : MemOnly s t) : t.phases = s.phases := by rw [h.rest]
theorem agenda {s t : State} (h : MemOnly s t) : t.agenda = s.agenda := by rw [h.rest]
theorem coreOf {s t : State} (h : MemOnly s t) (k : Nat) : coreOf t k = coreOf s k := by simp [Machine.coreOf, h.cores]
theorem ctxOf {s t : State} (h : MemOnly s t) (k c : Nat) : ctxOf t k c = ctxOf s k c := by simp [Machine.ctxOf, h.coreOf]
theorem partOf {s t : State} (h : MemOnly s t) (p : Nat) : partOf t p = partOf s p := by simp [Machine.partOf, h.parts]

end MemOnly

/-! ### One lemma per operation -/

theorem memOnly_berth (s : State) (b : Nat) (t : Tab Line) : MemOnly s (setBerth s b { berthOf s b with l1 := t }) where
  rest := rfl
  berth o := by
    simp only [berthOf, setBerth, tabGet_put]
    split
    · rename_i h; subst h; rfl
    · rfl
  quay _ := rfl
  wf := id

theorem memOnly_quay (s : State) (q : Nat) (t : Tab Line) (bl : List (Nat × List Nat)) :
    MemOnly s (setQuay s q { quayOf s q with l2 := t, badLines := bl }) where
  rest := rfl
  berth _ := rfl
  quay o := by
    simp only [quayOf, setQuay, tabGet_put]
    split
    · rename_i h; subst h; rfl
    · rfl
  wf := id

theorem memOnly_homeWrite (s : State) (key : Nat) (bs : List Byte) : MemOnly s (homeWrite s key bs) := by
  unfold homeWrite
  extract_lets g u
  have h : MemOnly s u := by
    refine ⟨?_, fun _ => rfl, fun _ => rfl, wf_memWrite key bs⟩
    simp only [u, g]
    split <;> rfl
  clear_value u
  split
  · exact h
  · exact h.trans (MemOnly.foldl (fun s q => memOnly_quay s q (quayOf s q).l2 (badWrite (quayOf s q).badLines key bs.length)) _ _)

theorem memOnly_homeMask (s : State) (line : Nat) (data : BitVec 512) (m : BitVec 64) : MemOnly s (homeMask s line data m) :=
  MemOnly.foldl (fun s i => by
    split
    · exact memOnly_homeWrite ..
    · exact MemOnly.refl s) _ _

theorem memOnly_l2WriteBack (s : State) (q line : Nat) : MemOnly s (l2WriteBack s q line) := by
  unfold l2WriteBack
  split
  · exact MemOnly.refl s
  · split
    · exact MemOnly.refl s
    · exact (memOnly_quay s q _ _).trans (memOnly_homeMask ..)

theorem memOnly_l2Put (s : State) (q line : Nat) (data : BitVec 512) (m : BitVec 64) : MemOnly s (l2Put s q line data m) := by
  unfold l2Put
  split
  · exact memOnly_homeMask ..
  · exact memOnly_quay ..

theorem memOnly_l1WriteBack (s : State) (b line : Nat) : MemOnly s (l1WriteBack s b line) := by
  unfold l1WriteBack
  split
  · exact MemOnly.refl s
  · split
    · exact MemOnly.refl s
    · exact (memOnly_berth s b _).trans (memOnly_l2Put ..)

theorem memOnly_l2Fetch (s : State) (q line : Nat) : MemOnly s (l2Fetch s q line) := by
  unfold l2Fetch
  split
  · exact MemOnly.refl s
  · exact memOnly_quay ..

theorem memOnly_l1Fetch (s : State) (b line : Nat) : MemOnly s (l1Fetch s b line) := by
  unfold l1Fetch
  simp only
  split
  · exact memOnly_l2Fetch ..
  · exact (memOnly_l2Fetch s (berthQuay b) line).trans (memOnly_berth _ b _)

theorem memOnly_syncHome (s : State) (b line : Nat) : MemOnly s (syncHome s b line) :=
  (((memOnly_l1WriteBack s b line).trans (memOnly_l2WriteBack _ _ _)).trans (memOnly_berth _ b _)).trans (memOnly_quay _ _ _ _)

theorem memOnly_wideWrite (s : State) (key : Nat) (bs : List Byte) : MemOnly s (wideWrite s key bs) :=
  (memOnly_homeWrite s key bs).trans
    (MemOnly.foldl (fun s q => by
      split
      · exact MemOnly.refl s
      · exact memOnly_quay s q _ _) _ _)

theorem memOnly_unitWrite (s : State) (key : Nat) (bs : List Byte) : MemOnly s (unitWrite s key bs) := memOnly_wideWrite s key _

theorem memOnly_release (s : State) (b scope : Nat) : MemOnly s (release s b scope) := by
  unfold release
  split
  · exact MemOnly.refl s
  · have h := MemOnly.foldl (fun t (e : Nat × Line) => memOnly_l1WriteBack t b e.1) (berthOf s b).l1 s
    simp only
    split
    · exact h
    · refine h.trans ?_
      generalize (berthOf s b).l1.foldl _ s = t
      have h2 := MemOnly.foldl (fun t (e : Nat × Line) => memOnly_l2WriteBack t (berthQuay b) e.1) (quayOf t (berthQuay b)).l2 t
      split
      · exact h2
      · exact h2.trans (memOnly_quay _ _ _ _)

theorem memOnly_acquire (s : State) (b scope : Nat) : MemOnly s (acquire s b scope) := by
  unfold acquire
  split
  · exact MemOnly.refl s
  · exact memOnly_berth ..

theorem memOnly_readPiece (s : State) (b : Nat) (rev1 : Bool) (p : Piece) : MemOnly s (readPiece s b rev1 p).2 := by
  unfold readPiece
  simp only
  split
  · exact MemOnly.refl s
  · split
    · exact memOnly_syncHome ..
    · split
      · exact MemOnly.refl s
      · exact memOnly_l1Fetch ..

theorem memOnly_readPieces (b : Nat) (rev1 : Bool) (ps : List Piece) (s : State) : MemOnly s (readPieces s b rev1 ps).2 := by
  induction ps generalizing s with
  | nil => exact MemOnly.refl s
  | cons p r ih => exact (memOnly_readPiece s b rev1 p).trans (ih _)

theorem memOnly_writePiece (s : State) (b : Nat) (rev1 : Bool) (p : Piece) (v : Nat) : MemOnly s (writePiece s b rev1 p v) := by
  unfold writePiece
  simp only
  split
  · exact memOnly_homeWrite ..
  · split
    · exact (memOnly_syncHome ..).trans (memOnly_wideWrite ..)
    · split
      · exact memOnly_l2Put ..
      · exact memOnly_berth ..

theorem memOnly_writePieces (b : Nat) (rev1 : Bool) (ps : List Piece) (v : Nat) (s : State) :
    MemOnly s (writePieces s b rev1 ps v) := by
  induction ps generalizing s v with
  | nil => exact MemOnly.refl s
  | cons p r ih => exact (memOnly_writePiece s b rev1 p v).trans (ih _ _)

theorem memOnly_tags (s : State) (t : List Nat) : MemOnly s { s with tags := t } :=
  ⟨rfl, fun _ => rfl, fun _ => rfl, id⟩

theorem memOnly_readGranule (s : State) (b : Nat) (p : Piece) : MemOnly s (readGranule s b p).2 := by
  unfold readGranule
  simp only
  split
  · exact memOnly_syncHome ..
  · exact MemOnly.refl s

theorem memOnly_writeGranule (s : State) (b : Nat) (p : Piece) (c : Cap) : MemOnly s (writeGranule s b p c) := by
  have h : MemOnly s (if p.cached then syncHome s b (p.key / 64) else s) := by
    split
    · exact memOnly_syncHome ..
    · exact MemOnly.refl s
  unfold writeGranule
  simp only
  split
  · exact (h.trans (memOnly_wideWrite ..)).trans (memOnly_tags ..)
  · exact h.trans (memOnly_wideWrite ..)

theorem memOnly_putRecord (s : State) (base : Nat) (x : Ctx) (bs : List Byte) : MemOnly s (putRecord s base x bs) :=
  (memOnly_homeWrite s base _).trans (memOnly_tags ..)

end Sys2Proof.Machine
end

