-- ==== Sys2Proof/Laws/Act.lean ====
section
/-!
SUPPORT. How a meaning runs on a state: one lemma per building block of the monad, so that no proof unfolds the monad itself.
-/
namespace Sys2Proof.Machine

open Sys2Proof

/-- Runs a meaning on a state. Proofs rewrite with the lemmas below. -/
theorem act_pure {α : Type} (x : α) (s : State) : (pure x : Act α) s = .ok (x, s) := rfl

theorem act_bind {α β : Type} (m : Act α) (f : α → Act β) (s : State) :
    (m >>= f) s = match m s with
      | .ok (x, t) => f x t
      | .error e => .error e := by
  show (StateT.bind m f) s = _
  simp only [StateT.bind, bind, Except.bind]
  cases m s with
  | ok p => rfl
  | error e => rfl

theorem act_map {α β : Type} (g : α → β) (m : Act α) (s : State) :
    (g <$> m) s = match m s with
      | .ok (x, t) => .ok (g x, t)
      | .error e => .error e := by
  show (StateT.map g m) s = _
  simp only [StateT.map, bind, Except.bind]
  cases m s with
  | ok p => rfl
  | error e => rfl

theorem act_bind_ok {α β : Type} {m : Act α} {f : α → Act β} {s t : State} {x : α} (h : m s = .ok (x, t)) :
    (m >>= f) s = f x t := by rw [act_bind, h]

theorem act_bind_error {α β : Type} {m : Act α} {f : α → Act β} {s : State} {e : Stop} (h : m s = .error e) :
    (m >>= f) s = .error e := by rw [act_bind, h]

/-- From the success of a sequence, the success of its parts. -/
theorem act_bind_inv {α β : Type} {m : Act α} {f : α → Act β} {s u : State} {y : β} (h : (m >>= f) s = .ok (y, u)) :
    ∃ x t, m s = .ok (x, t) ∧ f x t = .ok (y, u) := by
  rw [act_bind] at h
  cases hm : m s with
  | ok p => exact ⟨p.1, p.2, rfl, by simpa [hm] using h⟩
  | error e => simp [hm] at h

@[simp] theorem act_get (s : State) : (get : Act State) s = .ok (s, s) := rfl
@[simp] theorem act_set (s t : State) : (set t : Act Unit) s = .ok ((), t) := rfl
@[simp] theorem act_modify (f : State → State) (s : State) : (modify f : Act Unit) s = .ok ((), f s) := rfl
@[simp] theorem act_halt {α : Type} (x : Stop) (s : State) : (halt x : Act α) s = .error x := rfl
@[simp] theorem act_here (s : State) : here s = .ok (ctxOf s s.cur.core s.cur.ctx, s) := rfl
@[simp] theorem act_putHere (x : Ctx) (s : State) : putHere x s = .ok ((), setCtx s s.cur.core s.cur.ctx x) := rfl
@[simp] theorem act_hereId (s : State) : hereId s = .ok (s.cur.core, s) := rfl
@[simp] theorem act_hereCore (s : State) : hereCore s = .ok (coreOf s s.cur.core, s) := rfl
@[simp] theorem act_modHere (f : Ctx → Ctx) (s : State) :
    modHere f s = .ok ((), setCtx s s.cur.core s.cur.ctx (f (ctxOf s s.cur.core s.cur.ctx))) := rfl
@[simp] theorem act_modCore (k : Nat) (f : Core → Core) (s : State) : modCore k f s = .ok ((), setCore s k (f (coreOf s k))) := rfl
@[simp] theorem act_modCtx (k c : Nat) (f : Ctx → Ctx) (s : State) :
    modCtx k c f s = .ok ((), setCtx s k c (f (ctxOf s k c))) := rfl
@[simp] theorem act_modBerth (b : Nat) (f : Berth → Berth) (s : State) :
    modBerth b f s = .ok ((), setBerth s b (f (berthOf s b))) := rfl
@[simp] theorem act_modSlice (n : Nat) (f : Slice → Slice) (s : State) :
    modSlice n f s = .ok ((), setSlice s n (f (sliceOf s n))) := rfl
@[simp] theorem act_modQuay (q : Nat) (f : Quay → Quay) (s : State) :
    modQuay q f s = .ok ((), setQuay s q (f (quayOf s q))) := rfl
@[simp] theorem act_modPart (p : Nat) (f : Partition → Partition) (s : State) :
    modPart p f s = .ok ((), setPart s p (f (partOf s p))) := rfl
@[simp] theorem act_modGlob (f : Glob → Glob) (s : State) : modGlob f s = .ok ((), { s with glob := f s.glob }) := rfl

theorem act_need (b : Bool) (s : State) : need b s = if b then .ok ((), s) else .error .disabled := by
  cases b <;> rfl
@[simp] theorem act_need_true (s : State) : need true s = .ok ((), s) := rfl
theorem act_check (b : Bool) (c : BitVec 8) (d : Dbl) (s : State) :
    check b c d s = if b then .ok ((), s) else .error (.trap c d) := by
  cases b <;> rfl
@[simp] theorem act_check_true (c : BitVec 8) (d : Dbl) (s : State) : check true c d s = .ok ((), s) := rfl
@[simp] theorem act_needSome_some {α : Type} (x : α) (s : State) : needSome (some x) s = .ok (x, s) := rfl
@[simp] theorem act_needSome_none {α : Type} (s : State) : (needSome (none : Option α)) s = .error .disabled := rfl

theorem act_ite {α : Type} (p : Prop) [Decidable p] (m n : Act α) (s : State) :
    (if p then m else n) s = if p then m s else n s := by split <;> rfl

end Sys2Proof.Machine
end

