-- ==== Sys2Proof/Laws/Context.lean ====
section
/-!
SUPPORT. What a write of one register leaves of a context's other fields.
-/
namespace Sys2Proof.Machine

open Sys2Proof

@[simp] theorem putX_mode (x : Ctx) (n : Nat) (v : Dbl) : (putX x n v).mode = x.mode := rfl
@[simp] theorem putX_v (x : Ctx) (n : Nat) (v : Dbl) : (putX x n v).v = x.v := rfl
@[simp] theorem putX_m (x : Ctx) (n : Nat) (v : Dbl) : (putX x n v).m = x.m := rfl
@[simp] theorem putX_c (x : Ctx) (n : Nat) (v : Dbl) : (putX x n v).c = x.c := rfl
@[simp] theorem putX_vs (x : Ctx) (n : Nat) (v : Dbl) : (putX x n v).vs = x.vs := rfl
@[simp] theorem putX_cs (x : Ctx) (n : Nat) (v : Dbl) : (putX x n v).cs = x.cs := rfl
@[simp] theorem putX_pcc (x : Ctx) (n : Nat) (v : Dbl) : (putX x n v).pcc = x.pcc := rfl
@[simp] theorem putX_pc (x : Ctx) (n : Nat) (v : Dbl) : (putX x n v).pc = x.pc := rfl
@[simp] theorem putX_kcsa (x : Ctx) (n : Nat) (v : Dbl) : (putX x n v).kcsa = x.kcsa := rfl
@[simp] theorem putX_kcsb (x : Ctx) (n : Nat) (v : Dbl) : (putX x n v).kcsb = x.kcsb := rfl
@[simp] theorem putX_ch (x : Ctx) (n : Nat) (v : Dbl) : (putX x n v).ch = x.ch := rfl
@[simp] theorem putX_rev1 (x : Ctx) (n : Nat) (v : Dbl) : (putX x n v).rev1 = x.rev1 := rfl
@[simp] theorem putX_drain (x : Ctx) (n : Nat) (v : Dbl) : (putX x n v).drain = x.drain := rfl
@[simp] theorem putX_ktask (x : Ctx) (n : Nat) (v : Dbl) : (putX x n v).ktask = x.ktask := rfl
@[simp] theorem putX_kstage (x : Ctx) (n : Nat) (v : Dbl) : (putX x n v).kstage = x.kstage := rfl
@[simp] theorem putX_kgroup (x : Ctx) (n : Nat) (v : Dbl) : (putX x n v).kgroup = x.kgroup := rfl
@[simp] theorem putX_krrb (x : Ctx) (n : Nat) (v : Dbl) : (putX x n v).krrb = x.krrb := rfl
@[simp] theorem putX_klc (x : Ctx) (n : Nat) (v : Dbl) : (putX x n v).klc = x.klc := rfl
@[simp] theorem putX_kec (x : Ctx) (n : Nat) (v : Dbl) : (putX x n v).kec = x.kec := rfl
@[simp] theorem putX_rmode (x : Ctx) (n : Nat) (v : Dbl) : (putX x n v).rmode = x.rmode := rfl
@[simp] theorem putX_seed (x : Ctx) (n : Nat) (v : Dbl) : (putX x n v).seed = x.seed := rfl
@[simp] theorem putX_fflags (x : Ctx) (n : Nat) (v : Dbl) : (putX x n v).fflags = x.fflags := rfl
@[simp] theorem putX_vtrap (x : Ctx) (n : Nat) (v : Dbl) : (putX x n v).vtrap = x.vtrap := rfl
@[simp] theorem putX_ktrap (x : Ctx) (n : Nat) (v : Dbl) : (putX x n v).ktrap = x.ktrap := rfl
@[simp] theorem putX_ktdetail (x : Ctx) (n : Nat) (v : Dbl) : (putX x n v).ktdetail = x.ktdetail := rfl
@[simp] theorem putX_ktrpc (x : Ctx) (n : Nat) (v : Dbl) : (putX x n v).ktrpc = x.ktrpc := rfl
@[simp] theorem putX_mcfg (x : Ctx) (n : Nat) (v : Dbl) : (putX x n v).mcfg = x.mcfg := rfl
@[simp] theorem putX_frames (x : Ctx) (n : Nat) (v : Dbl) : (putX x n v).frames = x.frames := rfl
@[simp] theorem putX_nonce (x : Ctx) (n : Nat) (v : Dbl) : (putX x n v).nonce = x.nonce := rfl
@[simp] theorem putX_seq (x : Ctx) (n : Nat) (v : Dbl) : (putX x n v).seq = x.seq := rfl
@[simp] theorem putX_sh0 (x : Ctx) (n : Nat) (v : Dbl) : (putX x n v).sh0 = x.sh0 := rfl
@[simp] theorem putX_sh1 (x : Ctx) (n : Nat) (v : Dbl) : (putX x n v).sh1 = x.sh1 := rfl
@[simp] theorem putX_xf0 (x : Ctx) (n : Nat) (v : Dbl) : (putX x n v).xf0 = x.xf0 := rfl
@[simp] theorem putX_xf1 (x : Ctx) (n : Nat) (v : Dbl) : (putX x n v).xf1 = x.xf1 := rfl
@[simp] theorem putX_kind (x : Ctx) (n : Nat) (v : Dbl) : (putX x n v).kind = x.kind := rfl
@[simp] theorem putX_launch (x : Ctx) (n : Nat) (v : Dbl) : (putX x n v).launch = x.launch := rfl
@[simp] theorem putX_part (x : Ctx) (n : Nat) (v : Dbl) : (putX x n v).part = x.part := rfl
@[simp] theorem putX_epoch (x : Ctx) (n : Nat) (v : Dbl) : (putX x n v).epoch = x.epoch := rfl
@[simp] theorem putX_popped (x : Ctx) (n : Nat) (v : Dbl) : (putX x n v).popped = x.popped := rfl
@[simp] theorem putX_sendHold (x : Ctx) (n : Nat) (v : Dbl) : (putX x n v).sendHold = x.sendHold := rfl
@[simp] theorem putX_sfuSaved (x : Ctx) (n : Nat) (v : Dbl) : (putX x n v).sfuSaved = x.sfuSaved := rfl
@[simp] theorem putX_sfuLink (x : Ctx) (n : Nat) (v : Dbl) : (putX x n v).sfuLink = x.sfuLink := rfl
@[simp] theorem putX_leaseSaved (x : Ctx) (n : Nat) (v : Dbl) : (putX x n v).leaseSaved = x.leaseSaved := rfl
@[simp] theorem putX_leaseDst (x : Ctx) (n : Nat) (v : Dbl) : (putX x n v).leaseDst = x.leaseDst := rfl
@[simp] theorem putX_watchSkip (x : Ctx) (n : Nat) (v : Dbl) : (putX x n v).watchSkip = x.watchSkip := rfl
@[simp] theorem putX_ackErr (x : Ctx) (n : Nat) (v : Dbl) : (putX x n v).ackErr = x.ackErr := rfl
@[simp] theorem putX_netTask (x : Ctx) (n : Nat) (v : Dbl) : (putX x n v).netTask = x.netTask := rfl
@[simp] theorem putX_follows (x : Ctx) (n : Nat) (v : Dbl) : (putX x n v).follows = x.follows := rfl
@[simp] theorem putX_window (x : Ctx) (n : Nat) (v : Dbl) : (putX x n v).window = x.window := rfl
@[simp] theorem putX_leading (x : Ctx) (n : Nat) (v : Dbl) : (putX x n v).leading = x.leading := rfl
@[simp] theorem putX_leaveAsk (x : Ctx) (n : Nat) (v : Dbl) : (putX x n v).leaveAsk = x.leaveAsk := rfl

@[simp] theorem putV_mode (x : Ctx) (n : Nat) (v : Quad) : (putV x n v).mode = x.mode := rfl
@[simp] theorem putV_x (x : Ctx) (n : Nat) (v : Quad) : (putV x n v).x = x.x := rfl
@[simp] theorem putV_m (x : Ctx) (n : Nat) (v : Quad) : (putV x n v).m = x.m := rfl
@[simp] theorem putV_c (x : Ctx) (n : Nat) (v : Quad) : (putV x n v).c = x.c := rfl
@[simp] theorem putV_xs (x : Ctx) (n : Nat) (v : Quad) : (putV x n v).xs = x.xs := rfl
@[simp] theorem putV_cs (x : Ctx) (n : Nat) (v : Quad) : (putV x n v).cs = x.cs := rfl
@[simp] theorem putV_pcc (x : Ctx) (n : Nat) (v : Quad) : (putV x n v).pcc = x.pcc := rfl
@[simp] theorem putV_pc (x : Ctx) (n : Nat) (v : Quad) : (putV x n v).pc = x.pc := rfl
@[simp] theorem putV_kcsa (x : Ctx) (n : Nat) (v : Quad) : (putV x n v).kcsa = x.kcsa := rfl
@[simp] theorem putV_kcsb (x : Ctx) (n : Nat) (v : Quad) : (putV x n v).kcsb = x.kcsb := rfl
@[simp] theorem putV_ch (x : Ctx) (n : Nat) (v : Quad) : (putV x n v).ch = x.ch := rfl
@[simp] theorem putV_rev1 (x : Ctx) (n : Nat) (v : Quad) : (putV x n v).rev1 = x.rev1 := rfl
@[simp] theorem putV_drain (x : Ctx) (n : Nat) (v : Quad) : (putV x n v).drain = x.drain := rfl
@[simp] theorem putV_ktask (x : Ctx) (n : Nat) (v : Quad) : (putV x n v).ktask = x.ktask := rfl
@[simp] theorem putV_kstage (x : Ctx) (n : Nat) (v : Quad) : (putV x n v).kstage = x.kstage := rfl
@[simp] theorem putV_kgroup (x : Ctx) (n : Nat) (v : Quad) : (putV x n v).kgroup = x.kgroup := rfl
@[simp] theorem putV_krrb (x : Ctx) (n : Nat) (v : Quad) : (putV x n v).krrb = x.krrb := rfl
@[simp] theorem putV_klc (x : Ctx) (n : Nat) (v : Quad) : (putV x n v).klc = x.klc := rfl
@[simp] theorem putV_kec (x : Ctx) (n : Nat) (v : Quad) : (putV x n v).kec = x.kec := rfl
@[simp] theorem putV_rmode (x : Ctx) (n : Nat) (v : Quad) : (putV x n v).rmode = x.rmode := rfl
@[simp] theorem putV_seed (x : Ctx) (n : Nat) (v : Quad) : (putV x n v).seed = x.seed := rfl
@[simp] theorem putV_fflags (x : Ctx) (n : Nat) (v : Quad) : (putV x n v).fflags = x.fflags := rfl
@[simp] theorem putV_vtrap (x : Ctx) (n : Nat) (v : Quad) : (putV x n v).vtrap = x.vtrap := rfl
@[simp] theorem putV_ktrap (x : Ctx) (n : Nat) (v : Quad) : (putV x n v).ktrap = x.ktrap := rfl
@[simp] theorem putV_ktdetail (x : Ctx) (n : Nat) (v : Quad) : (putV x n v).ktdetail = x.ktdetail := rfl
@[simp] theorem putV_ktrpc (x : Ctx) (n : Nat) (v : Quad) : (putV x n v).ktrpc = x.ktrpc := rfl
@[simp] theorem putV_mcfg (x : Ctx) (n : Nat) (v : Quad) : (putV x n v).mcfg = x.mcfg := rfl
@[simp] theorem putV_frames (x : Ctx) (n : Nat) (v : Quad) : (putV x n v).frames = x.frames := rfl
@[simp] theorem putV_nonce (x : Ctx) (n : Nat) (v : Quad) : (putV x n v).nonce = x.nonce := rfl
@[simp] theorem putV_seq (x : Ctx) (n : Nat) (v : Quad) : (putV x n v).seq = x.seq := rfl
@[simp] theorem putV_sh0 (x : Ctx) (n : Nat) (v : Quad) : (putV x n v).sh0 = x.sh0 := rfl
@[simp] theorem putV_sh1 (x : Ctx) (n : Nat) (v : Quad) : (putV x n v).sh1 = x.sh1 := rfl
@[simp] theorem putV_xf0 (x : Ctx) (n : Nat) (v : Quad) : (putV x n v).xf0 = x.xf0 := rfl
@[simp] theorem putV_xf1 (x : Ctx) (n : Nat) (v : Quad) : (putV x n v).xf1 = x.xf1 := rfl
@[simp] theorem putV_kind (x : Ctx) (n : Nat) (v : Quad) : (putV x n v).kind = x.kind := rfl
@[simp] theorem putV_launch (x : Ctx) (n : Nat) (v : Quad) : (putV x n v).launch = x.launch := rfl
@[simp] theorem putV_part (x : Ctx) (n : Nat) (v : Quad) : (putV x n v).part = x.part := rfl
@[simp] theorem putV_epoch (x : Ctx) (n : Nat) (v : Quad) : (putV x n v).epoch = x.epoch := rfl
@[simp] theorem putV_popped (x : Ctx) (n : Nat) (v : Quad) : (putV x n v).popped = x.popped := rfl
@[simp] theorem putV_sendHold (x : Ctx) (n : Nat) (v : Quad) : (putV x n v).sendHold = x.sendHold := rfl
@[simp] theorem putV_sfuSaved (x : Ctx) (n : Nat) (v : Quad) : (putV x n v).sfuSaved = x.sfuSaved := rfl
@[simp] theorem putV_sfuLink (x : Ctx) (n : Nat) (v : Quad) : (putV x n v).sfuLink = x.sfuLink := rfl
@[simp] theorem putV_leaseSaved (x : Ctx) (n : Nat) (v : Quad) : (putV x n v).leaseSaved = x.leaseSaved := rfl
@[simp] theorem putV_leaseDst (x : Ctx) (n : Nat) (v : Quad) : (putV x n v).leaseDst = x.leaseDst := rfl
@[simp] theorem putV_watchSkip (x : Ctx) (n : Nat) (v : Quad) : (putV x n v).watchSkip = x.watchSkip := rfl
@[simp] theorem putV_ackErr (x : Ctx) (n : Nat) (v : Quad) : (putV x n v).ackErr = x.ackErr := rfl
@[simp] theorem putV_netTask (x : Ctx) (n : Nat) (v : Quad) : (putV x n v).netTask = x.netTask := rfl
@[simp] theorem putV_follows (x : Ctx) (n : Nat) (v : Quad) : (putV x n v).follows = x.follows := rfl
@[simp] theorem putV_window (x : Ctx) (n : Nat) (v : Quad) : (putV x n v).window = x.window := rfl
@[simp] theorem putV_leading (x : Ctx) (n : Nat) (v : Quad) : (putV x n v).leading = x.leading := rfl
@[simp] theorem putV_leaveAsk (x : Ctx) (n : Nat) (v : Quad) : (putV x n v).leaveAsk = x.leaveAsk := rfl

@[simp] theorem putC_mode (x : Ctx) (n : Nat) (v : Cap) : (putC x n v).mode = x.mode := rfl
@[simp] theorem putC_x (x : Ctx) (n : Nat) (v : Cap) : (putC x n v).x = x.x := rfl
@[simp] theorem putC_v (x : Ctx) (n : Nat) (v : Cap) : (putC x n v).v = x.v := rfl
@[simp] theorem putC_m (x : Ctx) (n : Nat) (v : Cap) : (putC x n v).m = x.m := rfl
@[simp] theorem putC_xs (x : Ctx) (n : Nat) (v : Cap) : (putC x n v).xs = x.xs := rfl
@[simp] theorem putC_vs (x : Ctx) (n : Nat) (v : Cap) : (putC x n v).vs = x.vs := rfl
@[simp] theorem putC_pcc (x : Ctx) (n : Nat) (v : Cap) : (putC x n v).pcc = x.pcc := rfl
@[simp] theorem putC_pc (x : Ctx) (n : Nat) (v : Cap) : (putC x n v).pc = x.pc := rfl
@[simp] theorem putC_kcsa (x : Ctx) (n : Nat) (v : Cap) : (putC x n v).kcsa = x.kcsa := rfl
@[simp] theorem putC_kcsb (x : Ctx) (n : Nat) (v : Cap) : (putC x n v).kcsb = x.kcsb := rfl
@[simp] theorem putC_ch (x : Ctx) (n : Nat) (v : Cap) : (putC x n v).ch = x.ch := rfl
@[simp] theorem putC_rev1 (x : Ctx) (n : Nat) (v : Cap) : (putC x n v).rev1 = x.rev1 := rfl
@[simp] theorem putC_drain (x : Ctx) (n : Nat) (v : Cap) : (putC x n v).drain = x.drain := rfl
@[simp] theorem putC_ktask (x : Ctx) (n : Nat) (v : Cap) : (putC x n v).ktask = x.ktask := rfl
@[simp] theorem putC_kstage (x : Ctx) (n : Nat) (v : Cap) : (putC x n v).kstage = x.kstage := rfl
@[simp] theorem putC_kgroup (x : Ctx) (n : Nat) (v : Cap) : (putC x n v).kgroup = x.kgroup := rfl
@[simp] theorem putC_krrb (x : Ctx) (n : Nat) (v : Cap) : (putC x n v).krrb = x.krrb := rfl
@[simp] theorem putC_klc (x : Ctx) (n : Nat) (v : Cap) : (putC x n v).klc = x.klc := rfl
@[simp] theorem putC_kec (x : Ctx) (n : Nat) (v : Cap) : (putC x n v).kec = x.kec := rfl
@[simp] theorem putC_rmode (x : Ctx) (n : Nat) (v : Cap) : (putC x n v).rmode = x.rmode := rfl
@[simp] theorem putC_seed (x : Ctx) (n : Nat) (v : Cap) : (putC x n v).seed = x.seed := rfl
@[simp] theorem putC_fflags (x : Ctx) (n : Nat) (v : Cap) : (putC x n v).fflags = x.fflags := rfl
@[simp] theorem putC_vtrap (x : Ctx) (n : Nat) (v : Cap) : (putC x n v).vtrap = x.vtrap := rfl
@[simp] theorem putC_ktrap (x : Ctx) (n : Nat) (v : Cap) : (putC x n v).ktrap = x.ktrap := rfl
@[simp] theorem putC_ktdetail (x : Ctx) (n : Nat) (v : Cap) : (putC x n v).ktdetail = x.ktdetail := rfl
@[simp] theorem putC_ktrpc (x : Ctx) (n : Nat) (v : Cap) : (putC x n v).ktrpc = x.ktrpc := rfl
@[simp] theorem putC_mcfg (x : Ctx) (n : Nat) (v : Cap) : (putC x n v).mcfg = x.mcfg := rfl
@[simp] theorem putC_frames (x : Ctx) (n : Nat) (v : Cap) : (putC x n v).frames = x.frames := rfl
@[simp] theorem putC_nonce (x : Ctx) (n : Nat) (v : Cap) : (putC x n v).nonce = x.nonce := rfl
@[simp] theorem putC_seq (x : Ctx) (n : Nat) (v : Cap) : (putC x n v).seq = x.seq := rfl
@[simp] theorem putC_sh0 (x : Ctx) (n : Nat) (v : Cap) : (putC x n v).sh0 = x.sh0 := rfl
@[simp] theorem putC_sh1 (x : Ctx) (n : Nat) (v : Cap) : (putC x n v).sh1 = x.sh1 := rfl
@[simp] theorem putC_xf0 (x : Ctx) (n : Nat) (v : Cap) : (putC x n v).xf0 = x.xf0 := rfl
@[simp] theorem putC_xf1 (x : Ctx) (n : Nat) (v : Cap) : (putC x n v).xf1 = x.xf1 := rfl
@[simp] theorem putC_kind (x : Ctx) (n : Nat) (v : Cap) : (putC x n v).kind = x.kind := rfl
@[simp] theorem putC_launch (x : Ctx) (n : Nat) (v : Cap) : (putC x n v).launch = x.launch := rfl
@[simp] theorem putC_part (x : Ctx) (n : Nat) (v : Cap) : (putC x n v).part = x.part := rfl
@[simp] theorem putC_epoch (x : Ctx) (n : Nat) (v : Cap) : (putC x n v).epoch = x.epoch := rfl
@[simp] theorem putC_popped (x : Ctx) (n : Nat) (v : Cap) : (putC x n v).popped = x.popped := rfl
@[simp] theorem putC_sendHold (x : Ctx) (n : Nat) (v : Cap) : (putC x n v).sendHold = x.sendHold := rfl
@[simp] theorem putC_sfuSaved (x : Ctx) (n : Nat) (v : Cap) : (putC x n v).sfuSaved = x.sfuSaved := rfl
@[simp] theorem putC_sfuLink (x : Ctx) (n : Nat) (v : Cap) : (putC x n v).sfuLink = x.sfuLink := rfl
@[simp] theorem putC_leaseSaved (x : Ctx) (n : Nat) (v : Cap) : (putC x n v).leaseSaved = x.leaseSaved := rfl
@[simp] theorem putC_leaseDst (x : Ctx) (n : Nat) (v : Cap) : (putC x n v).leaseDst = x.leaseDst := rfl
@[simp] theorem putC_watchSkip (x : Ctx) (n : Nat) (v : Cap) : (putC x n v).watchSkip = x.watchSkip := rfl
@[simp] theorem putC_ackErr (x : Ctx) (n : Nat) (v : Cap) : (putC x n v).ackErr = x.ackErr := rfl
@[simp] theorem putC_netTask (x : Ctx) (n : Nat) (v : Cap) : (putC x n v).netTask = x.netTask := rfl
@[simp] theorem putC_follows (x : Ctx) (n : Nat) (v : Cap) : (putC x n v).follows = x.follows := rfl
@[simp] theorem putC_window (x : Ctx) (n : Nat) (v : Cap) : (putC x n v).window = x.window := rfl
@[simp] theorem putC_leading (x : Ctx) (n : Nat) (v : Cap) : (putC x n v).leading = x.leading := rfl
@[simp] theorem putC_leaveAsk (x : Ctx) (n : Nat) (v : Cap) : (putC x n v).leaveAsk = x.leaveAsk := rfl

end Sys2Proof.Machine
end

