-- ==== Sys2Proof/Laws/Operands.lean ====
section
/-!
SUPPORT. What the operand forms do when their registers are no link ports and are ready: one lemma per reader, writer and form.
-/
namespace Sys2Proof.Machine

open Sys2Proof

theorem toNat_eq_zero_iff {n : Nat} (r : BitVec n) : r.toNat = 0 ↔ r = 0 := by
  constructor
  · intro h; exact BitVec.eq_of_toNat_eq (by simpa using h)
  · rintro rfl; simp

/-! ### How an instruction ends -/

theorem runInstr_ok {legal : Option (BitVec 3)} {word : BitVec 32} {len : Nat} {act : Act Next} {s t : State} {n : Next}
    (hl : legal = none) (h : act s = .ok (n, t)) : runInstr legal word len act s = .next { advance t n len with stalled := false } := by
  subst hl; simp [runInstr, h]

theorem runInstr_seq {legal : Option (BitVec 3)} {word : BitVec 32} {len : Nat} {act : Act Next} {s t : State}
    (hl : legal = none) (h : act s = .ok (.seq, t)) : runInstr legal word len act s = .next (after t len) := by
  subst hl
  simp [runInstr, h, after, advance]

theorem runInstr_jump {legal : Option (BitVec 3)} {word : BitVec 32} {len : Nat} {act : Act Next} {s t : State} {pc : Dbl}
    (hl : legal = none) (h : act s = .ok (.jump pc, t)) : runInstr legal word len act s = .next (afterJump t pc) := by
  subst hl
  simp [runInstr, h, afterJump, advance]

theorem runInstr_stay {legal : Option (BitVec 3)} {word : BitVec 32} {len : Nat} {act : Act Next} {s t : State}
    (hl : legal = none) (h : act s = .ok (.stay, t)) : runInstr legal word len act s = .next (afterStay t) := by
  subst hl
  simp [runInstr, h, afterStay, advance]

theorem runInstr_illegal {word : BitVec 32} {len : Nat} {act : Act Next} {s : State} {reason : BitVec 3} :
    runInstr (some reason) word len act s = .next (traps s cILLEGAL (illegalDetail reason (len == 2) word) false) := by
  simp [runInstr, stopped, traps]

theorem runInstr_stall {legal : Option (BitVec 3)} {word : BitVec 32} {len : Nat} {act : Act Next} {s : State} {w : Wait}
    (hl : legal = none) (h : act s = .error (.stall w)) : runInstr legal word len act s = .next (waits s w) := by
  subst hl
  cases w <;> simp [runInstr, h, stopped, waits]

theorem runInstr_trap {legal : Option (BitVec 3)} {word : BitVec 32} {len : Nat} {act : Act Next} {s : State} {cause : BitVec 8} {d : Dbl}
    (hl : legal = none) (h : act s = .error (.trap cause d)) : runInstr legal word len act s = .next (traps s cause d false) := by
  subst hl
  simp [runInstr, h, stopped, traps]

theorem runInstr_trapNext {legal : Option (BitVec 3)} {word : BitVec 32} {len : Nat} {act : Act Next} {s : State} {cause : BitVec 8} {d : Dbl}
    (hl : legal = none) (h : act s = .error (.trapNext cause d)) : runInstr legal word len act s = .next (traps s cause d true) := by
  subst hl
  simp [runInstr, h, stopped, traps]

/-! ### How a step of spec/95 ends -/

theorem runEvent_ok {act : Act Unit} {s t : State} (h : act s = .ok ((), t)) : runEvent act s = .next t := by
  simp [runEvent, h]

theorem runEvent_disabled {act : Act Unit} {s : State} (h : act s = .error .disabled) : runEvent act s = .next s := by
  simp [runEvent, h]

/-! ### Readiness -/

theorem readableX.writable {s : State} {r : BitVec 5} (h : readableX s r) : writableX s r := by
  refine ⟨h.1, ?_⟩
  rcases h.2 with h0 | h0
  · exact .inl h0
  · exact .inr (by simp [h0])

theorem isPort_false {r : BitVec 5} (h : r.toNat < 28) : isPort r = false := by
  simp [isPort]; omega

theorem fwdRule_zero (l : List (BitVec 5)) : fwdRule 0 l = none := by simp [fwdRule]

theorem forwards_plain {f : BitVec 1} {l : List (BitVec 5)} {r : BitVec 5} (h : r.toNat < 28) : forwards f l r = false := by
  simp [forwards, isPort_false h]

theorem scalarLink_plain {r : BitVec 5} (h : r.toNat < 28) (f : Bool) (s : State) : scalarLink r f s = .ok ((), s) := by
  simp [scalarLink, isPort_false h, act_pure]

theorem vectorLink_plain {r : BitVec 6} (h : isVPort r = false) (s : State) : vectorLink r s = .ok ((), s) := by
  simp [vectorLink, h, act_pure]

theorem readX_plain {s : State} {r : BitVec 5} (h : readableX s r) (t f : Bool) : readX r t f s = .ok (regX s r, s) := by
  obtain ⟨h1, h2⟩ := h
  have h3 : ¬ 28 ≤ r.toNat := by omega
  by_cases h0 : r = 0
  · subst h0; rfl
  · have h4 : r.toNat ≠ 0 := fun h => h0 ((toNat_eq_zero_iff r).1 h)
    have h5 : tabGet .full (me s).xs r.toNat = .full := h2.resolve_left h0
    simp [readX, regX, show ¬ r = 0#5 from h0, h4, h3, act_bind, h5, needFull, act_pure]

theorem writeX_plain {s : State} {r : BitVec 5} (h : writableX s r) (v : Dbl) : writeX r v s = .ok ((), withX s r v) := by
  obtain ⟨h1, h2⟩ := h
  have h3 : ¬ 28 ≤ r.toNat := by omega
  by_cases h0 : r = 0
  · subst h0; rfl
  · have h4 : r.toNat ≠ 0 := fun h => h0 ((toNat_eq_zero_iff r).1 h)
    have h5 : tabGet .full (me s).xs r.toNat ≠ .empty := h2.resolve_left h0
    simp [writeX, withX, show ¬ r = 0#5 from h0, h4, h3, act_bind, h5, waitFilled, act_pure]

theorem readV_plain {s : State} {r : BitVec 6} (h : readableV s r) : readV r s = .ok (regV s r, s) := by
  obtain ⟨h1, h2⟩ := h
  have h3 : ¬ (28 ≤ r.toNat ∧ r.toNat < 32) := by simpa [isVPort] using h1
  simp [readV, act_bind, h3, h2, needFull, act_pure, regV]

theorem writeV_plain {s : State} {r : BitVec 6} (h : writableV s r) (v : Quad) : writeV r v s = .ok ((), withV s r v) := by
  obtain ⟨h1, h2⟩ := h
  have h3 : ¬ (28 ≤ r.toNat ∧ r.toNat < 32) := by simpa [isVPort] using h1
  simp [writeV, act_bind, h3, h2, waitFilled, act_pure, withV]

theorem readC_plain {s : State} {r : BitVec 4} (h : readableC s r) : readC r.toNat s = .ok (regC s r, s) := by
  by_cases h0 : r = 0
  · subst h0; rfl
  · have h4 : r.toNat ≠ 0 := fun h => h0 ((toNat_eq_zero_iff r).1 h)
    have h5 : tabGet .full (me s).cs r.toNat = .full := h.resolve_left h0
    simp [readC, regC, show ¬ r = 0#4 from h0, h4, act_bind, h5, needFull, act_pure]

theorem writeC_plain {s : State} {r : BitVec 4} (h : writableC s r) (v : Cap) : writeC r.toNat v s = .ok ((), withC s r v) := by
  by_cases h0 : r = 0
  · subst h0; rfl
  · have h4 : r.toNat ≠ 0 := fun h => h0 ((toNat_eq_zero_iff r).1 h)
    have h5 : tabGet .full (me s).cs r.toNat ≠ .empty := h.resolve_left h0
    simp [writeC, withC, show ¬ r = 0#4 from h0, h4, act_bind, h5, waitFilled, act_pure]

theorem readM_plain {s : State} {r : BitVec 3} (h : readableM s r) : readM r s = .ok (regM s r, s) := by
  by_cases h0 : r = 0
  · subst h0; rfl
  · have h5 : tabGet .full (me s).ms r.toNat = .full := h.resolve_left h0
    simp [readM, regM, show ¬ r = 0#3 from h0, act_bind, h5, needFull, act_pure]

theorem writeM_eq (r : BitVec 3) (v : BitVec 16) (s : State) : writeM r v s = .ok ((), withM s r v) := by
  by_cases h0 : r = 0
  · subst h0; rfl
  · simp [writeM, withM, show ¬ r = 0#3 from h0]

/-! ### The scalar forms -/

theorem formR_plain {s : State} {b a d : BitVec 5} (ha : readableX s a) (hb : readableX s b) (hd : writableX s d)
    (f eb ea : BitVec 1) (g : Dbl → Dbl → Dbl) :
    formR f eb ea b a d (fun x y => pure (g x y)) s = .ok (.seq, withX s d (g (regX s a) (regX s b))) := by
  simp [formR, act_bind, act_map, scalarLink_plain ha.1, scalarLink_plain hb.1, scalarLink_plain hd.1, readX_plain ha, readX_plain hb,
    writeX_plain hd]

theorem formRD_plain {s : State} {b a d : BitVec 5} (ha : readableX s a) (hb : readableX s b) (hd : readableX s d)
    (f eb ea : BitVec 1) (g : Dbl → Dbl → Dbl → Dbl) :
    formRD f eb ea b a d (fun x y z => pure (g x y z)) s = .ok (.seq, withX s d (g (regX s a) (regX s b) (regX s d))) := by
  simp [formRD, act_bind, act_map, scalarLink_plain ha.1, scalarLink_plain hb.1, readX_plain ha, readX_plain hb, readX_plain hd,
    writeX_plain hd.writable]

theorem formU_plain {s : State} {a d : BitVec 5} (ha : readableX s a) (hd : writableX s d) (f ea : BitVec 1) (g : Dbl → Dbl) :
    formU f ea a d (fun x => pure (g x)) s = .ok (.seq, withX s d (g (regX s a))) := by
  simp [formU, act_bind, act_map, scalarLink_plain ha.1, scalarLink_plain hd.1, readX_plain ha, writeX_plain hd]

theorem formK_plain {s : State} {a d : BitVec 5} (ha : readableX s a) (hd : writableX s d) (g : Dbl → Dbl) :
    formK a d (fun x => pure (g x)) s = .ok (.seq, withX s d (g (regX s a))) := by
  simp [formK, act_bind, act_map, scalarLink_plain ha.1, scalarLink_plain hd.1, readX_plain ha, writeX_plain hd]

theorem formC2_plain {s : State} {b d : BitVec 5} (hb : readableX s b) (hd : readableX s d) (g : Dbl → Dbl → Dbl) :
    formC2 b d g s = .ok (.seq, withX s d (g (regX s d) (regX s b))) := by
  simp [formC2, act_bind, act_map, scalarLink_plain hb.1, scalarLink_plain hd.1, readX_plain hb, readX_plain hd,
    writeX_plain hd.writable]

theorem formB_plain {s : State} {b a : BitVec 5} (ha : readableX s a) (hb : readableX s b) (o : BitVec 12) (g : Dbl → Dbl → Bool) :
    formB o b a g s = .ok (if g (regX s a) (regX s b) then .jump ((me s).pc + 2 * o.signExtend 64) else .seq, s) := by
  simp only [formB, act_bind, scalarLink_plain ha.1, scalarLink_plain hb.1, readX_plain ha, readX_plain hb, act_here]
  split <;> simp_all [act_pure]

/-! ### The destinations of requests -/

theorem claimX_plain {s : State} {r : BitVec 5} (h : writableX s r) (id : Nat) : claimX r id s = .ok (destX r, emptyX s r) := by
  obtain ⟨h1, h2⟩ := h
  have h3 : ¬ 28 ≤ r.toNat := by omega
  by_cases h0 : r = 0
  · subst h0; rfl
  · have h4 : r.toNat ≠ 0 := fun h => h0 ((toNat_eq_zero_iff r).1 h)
    have h5 : tabGet .full (me s).xs r.toNat ≠ .empty := h2.resolve_left h0
    simp [claimX, destX, emptyX, show ¬ r = 0#5 from h0, h4, h3, act_bind, act_map, h5, waitFilled, act_pure]

theorem claimV_plain {s : State} {r : BitVec 6} (h : writableV s r) (id : Nat) : claimV r id s = .ok (destV s r, emptyV s r) := by
  obtain ⟨h1, h2⟩ := h
  have h3 : ¬ (28 ≤ r.toNat ∧ r.toNat < 32) := by simpa [isVPort] using h1
  simp [claimV, act_bind, act_map, h3, h2, waitFilled, act_pure, destV, emptyV]

theorem claimC_plain {s : State} {r : BitVec 4} (h : writableC s r) : claimC r.toNat s = .ok (destC r, emptyC s r) := by
  by_cases h0 : r = 0
  · subst h0; rfl
  · have h4 : r.toNat ≠ 0 := fun h => h0 ((toNat_eq_zero_iff r).1 h)
    have h5 : tabGet .full (me s).cs r.toNat ≠ .empty := h.resolve_left h0
    simp [claimC, destC, emptyC, show ¬ r = 0#4 from h0, h4, act_bind, act_map, h5, waitFilled, act_pure]

/-- Numbering a request changes its context alone. -/
theorem numberRequest_frame (s : State) (k c : Nat) (body : Body) :
    numberRequest s k c body = { s with cores := (numberRequest s k c body).cores } := by
  unfold numberRequest
  split <;> rfl

/-- A request that takes no place in a home order takes no number. -/
@[simp] theorem numberRequest_none {body : Body} (h : bodyPlaces body = 0) (s : State) (k c : Nat) : numberRequest s k c body = s := by
  simp [numberRequest, h]

theorem request_sent (dst : Dest) (addr : Nat) (body : Body) (s : State) :
    request dst (BitVec.ofNat 64 addr) body s = .ok ((), sent s dst addr body) := rfl

theorem requestQueued_sent {s : State} (h : queueOpen s) (dst : Dest) (addr : Nat) (body : Body) :
    requestQueued dst (BitVec.ofNat 64 addr) body s = .ok ((), sentQueued s dst addr body) := by
  simp [requestQueued, act_bind, Nat.not_le.mpr h, sentQueued]

theorem readOld_plain {s : State} {m : BitVec 3} {v : BitVec 6} (h : m ≠ 0 → readableV s v) :
    readOld m v s = .ok (oldV s m v, s) := by
  by_cases h0 : m = 0
  · subst h0; rfl
  · simp [readOld, oldV, show ¬ m = 0#3 from h0, readV_plain (h h0)]

theorem takeRound_seeded (s : State) : takeRound s = .ok (((me s).rmode.toNat, (me s).seed.toNat), seeded s) := by
  simp only [takeRound, seeded, act_bind, act_here, act_ite]
  split <;> rfl

end Sys2Proof.Machine
end

