-- ==== Sys2Proof/Laws/Accesses.lean ====
section
/-!
SUPPORT. What the checks and waits of an access do when nothing stands in its way.
-/
namespace Sys2Proof.Machine

open Sys2Proof

theorem watchMatch_none {s : State} {b kind addr n : Nat} (h : watchMatch s b none kind addr n = none) (skip : Option Nat) :
    watchMatch s b skip kind addr n = none := by
  simp only [watchMatch, List.findSome?_eq_none_iff] at *
  intro w hw
  have := h w hw
  split
  · rename_i hk
    have hk2 := (Bool.and_eq_true _ _ ▸ hk).1
    simp only [hk2, Bool.true_and] at this
    simpa using this
  · rfl

theorem watchTest_clear {s : State} {kind : Nat} {parts : List (Nat × Nat)} (h : unwatched s kind parts) :
    watchTest kind parts s = .ok ((), s) := by
  have hs : ∀ skip, parts.findSome? (fun p => watchMatch s (coreBerth s.cur.core) skip kind p.1 p.2) = none := by
    intro skip
    simp only [unwatched, List.findSome?_eq_none_iff] at *
    exact fun p hp => watchMatch_none (h p hp) skip
  simp only [watchTest, act_bind, act_get, act_ite, act_here, hs, act_pure]
  split <;> rfl

theorem waitPieces_clear {s : State} {ps : List Piece} {write : Bool} (h : unhindered s ps write) :
    waitPieces ps write s = .ok ((), s) := by
  unfold unhindered at h
  simp only [waitPieces, act_bind, act_get, h, act_ite, act_pure]
  rfl

theorem liftChk_ok {α : Type} {c : Chk α} {x : α} (h : c = .ok x) (s : State) : liftChk c s = .ok (x, s) := by
  subst h; rfl

theorem liftChk_error {α : Type} {c : Chk α} {cause : BitVec 8} {d : Dbl} (h : c = .error (cause, d)) (s : State) :
    liftChk c s = .error (.trap cause d) := by
  subst h; rfl

theorem readPair_plain {s : State} {j i : BitVec 5} (hi : readableX s i) (hj : readableX s j) (f eb ea : BitVec 1) :
    readPair f eb ea j i s = .ok ((regX s i, regX s j), s) := by
  simp [readPair, act_bind, act_map, readX_plain hi, readX_plain hj]

theorem readTuple_plain {s : State} {j i : BitVec 5} (hi : readableX s i) (hj : readableX s j) (f eb ea : BitVec 1) :
    readTuple f eb ea j i s = .ok (tuple (regX s i) (regX s j), s) := by
  simp [readTuple, act_bind, readPair_plain hi hj]; rfl

theorem waitDelivered_settled {s : State} (h : settledHere s) : waitDelivered s = .ok ((), s) := by
  have h2 : (ctxOf s s.cur.core s.cur.ctx).ackErr = none := h.2
  simp [waitDelivered, act_bind, h.1, h2, act_pure]

theorem waitAccesses_done {s : State} (h : accessesDone s) : waitAccesses s = .ok ((), s) := by
  have h2 : (ctxOf s s.cur.core s.cur.ctx).ackErr = none := h.2
  simp [waitAccesses, act_bind, h.1, h2, act_pure]

theorem releaseHere_done {s : State} {scope : Nat} (h : accessesDone s) (hr : releaseReady s (myBerth s) scope = true) :
    releaseHere scope s = .ok ((), release s (myBerth s) scope) := by
  simp [releaseHere, act_bind, waitAccesses_done h, hr]

@[simp] theorem acquireHere_eq (s : State) (scope : Nat) : acquireHere scope s = .ok ((), acquire s (myBerth s) scope) := rfl

/-! ### Windows -/

/-- An address of a window is its own location, and its translation changes nothing. -/
theorem translate_window {va : Nat} (h : isTranslated va = false) (b part kind : Nat) (remote : Bool) (s : State) :
    translate b part va kind remote s = .ok (⟨va, false, true⟩, s) := by
  simp [translate, h]

end Sys2Proof.Machine
end

