-- ==== Sys2Proof/Laws/Keeps.lean ====
section
/-!
SUPPORT. What keeps memory canonical: the operations that leave memory alone, those that write it through `memWrite`, and how a meaning
inherits it from its parts.
-/
namespace Sys2Proof.Machine

open Sys2Proof

/-! ### Operations that leave memory alone -/

@[simp] theorem countEvent_mem (s : State) (k c e n : Nat) : (countEvent s k c e n).mem = s.mem := by
  unfold countEvent
  simp only
  split <;> rfl

@[simp] theorem traceRecord_mem (s : State) (b ty ca k c ch : Nat) (d2 d3 : Dbl) :
    (traceRecord s b ty ca k c ch d2 d3).mem = s.mem := by
  unfold traceRecord
  simp only
  split
  · rfl
  · split <;> rfl

@[simp] theorem haltBerth_mem (s : State) (b why k c : Nat) : (haltBerth s b why k c).mem = s.mem := by
  unfold haltBerth
  simp only
  split
  · rfl
  · split <;> simp

@[simp] theorem raiseIrq_mem (s : State) (src o : Nat) : (raiseIrq s src o).mem = s.mem := rfl
@[simp] theorem raisePart_mem (s : State) (p k : Nat) : (raisePart s p k).mem = s.mem := rfl
@[simp] theorem mapError_mem (s : State) (part : Nat) : (mapError s part).mem = s.mem := rfl
@[simp] theorem post_mem (s : State) (f : Flight) : (post s f).mem = s.mem := rfl

@[simp] theorem enterFault_mem (s : State) (p q : Nat) (d : Dbl) : (enterFault s p q d).2.mem = s.mem := by
  unfold enterFault
  simp only
  split
  · rfl
  · split <;> rfl

@[simp] theorem changeQueue_mem (s : State) (k key id : Nat) (f g : List LinkEntry → List LinkEntry) :
    (changeQueue s k key id f g).mem = s.mem := by
  unfold changeQueue
  simp only
  split <;> rfl

@[simp] theorem fillEntry_mem (s : State) (k key id : Nat) (e : LinkEntry) : (fillEntry s k key id e).mem = s.mem :=
  changeQueue_mem s k key id _ _

@[simp] theorem dropEntry_mem (s : State) (k key id : Nat) : (dropEntry s k key id).mem = s.mem :=
  changeQueue_mem s k key id _ _

@[simp] theorem fillLease_mem (s : State) (k c : Nat) (dst : Option (Dest × Nat)) (v : Dbl) : (fillLease s k c dst v).mem = s.mem := by
  unfold fillLease
  split
  · rfl
  · split <;> simp
  · rfl

@[simp] theorem leaseEnds_mem (s : State) (b : Nat) : (leaseEnds s b).mem = s.mem := rfl
@[simp] theorem enterLease_mem (s : State) (b : Nat) (r : LeaseReq) : (enterLease s b r).mem = s.mem := rfl
@[simp] theorem dropLeaseReq_mem (s : State) (k c : Nat) : (dropLeaseReq s k c).mem = s.mem := rfl

@[simp] theorem suspendLease_mem (s : State) (k c : Nat) : (suspendLease s k c).mem = s.mem := by
  unfold suspendLease
  simp only
  split
  · rfl
  · split <;> rfl

@[simp] theorem resumeLease_mem (s : State) (k c : Nat) : (resumeLease s k c).mem = s.mem := by
  unfold resumeLease
  simp only
  split <;> rfl

@[simp] theorem endLease_mem (s : State) (k c : Nat) : (endLease s k c).mem = s.mem := by
  unfold endLease
  simp only
  split
  · rfl
  · split
    · rfl
    · simp

@[simp] theorem suspendSfu_mem (s : State) (k c : Nat) : (suspendSfu s k c).mem = s.mem := rfl
@[simp] theorem reenterSfu_mem (s : State) (k c : Nat) : (reenterSfu s k c).mem = s.mem := rfl

theorem foldl_mem {α : Type} (f : State → α → State) (hf : ∀ s x, (f s x).mem = s.mem) (l : List α) (s : State) :
    (l.foldl f s).mem = s.mem := by
  induction l generalizing s with
  | nil => rfl
  | cons x r ih => rw [List.foldl_cons, ih, hf]

@[simp] theorem detach_mem (s : State) (k c : Nat) : (detach s k c).mem = s.mem := by
  unfold detach
  extract_lets x u
  have h : u.mem = s.mem := by
    simp only [u]
    split <;> rfl
  split
  · rw [foldl_mem _ (fun s i => ?_), h]
    split <;> rfl
  · split
    · exact h
    · split
      · exact h
      · exact h

@[simp] theorem sendTrap_mem (s : State) (k c : Nat) : (sendTrap s k c).mem = s.mem := by
  unfold sendTrap
  simp only
  split
  · rfl
  · split <;> rfl

@[simp] theorem discardSfu_mem (s : State) (k : Nat) (x : Ctx) : (discardSfu s k x).mem = s.mem := by
  refine foldl_mem _ (fun s r => ?_) _ s
  split <;> simp

@[simp] theorem endTask_mem (s : State) (k c : Nat) : (endTask s k c).mem = s.mem := by
  simp [endTask]

@[simp] theorem advance_mem (s : State) (n : Next) (len : Nat) : (advance s n len).mem = s.mem := by
  unfold advance
  split <;> rfl

@[simp] theorem tick_mem (s : State) (n : Nat) : (tick s n).mem = s.mem := rfl
@[simp] theorem tlbDrop_mem (s : State) (p first n : Nat) : (tlbDrop s p first n).mem = s.mem := rfl

/-! ### Traps and their end -/

theorem memSafe_of_eq {s t : State} (h : t.mem = s.mem) (m : MemSafe s) : MemSafe t := by
  unfold MemSafe at *
  rw [h]; exact m

theorem memSafe_stall {s : State} (b : Bool) (m : MemSafe s) : MemSafe { s with stalled := b } := m

theorem memSafe_settleTrap {s : State} (k c : Nat) (m : MemSafe s) : MemSafe (settleTrap s k c) := by
  unfold settleTrap
  split
  · have h : MemSafe (release s (coreBerth k) 4) := (memOnly_release _ _ _).wf m
    extract_lets u x parks rpc nested status trpc r y
    have hr : MemSafe r := (memOnly_putRecord _ _ _ _).wf h
    clear_value y r
    split
    · split
      rename_i place v e
      have : v.mem = r.mem := by
        have := congrArg (fun z => (Prod.snd z).mem) e
        simpa using this.symm
      exact memSafe_of_eq (by simp [this]) hr
    · exact memSafe_of_eq ((sendTrap_mem _ _ _).trans ((traceRecord_mem _ _ _ _ _ _ _ _ _).trans rfl)) hr
  · exact m

theorem memSafe_trapAt {s : State} (k c : Nat) (cause : BitVec 8) (d : Dbl) (n : Bool) (m : MemSafe s) :
    MemSafe (trapAt s k c cause d n) := by
  unfold trapAt
  extract_lets x u v
  have h : MemSafe v := memSafe_of_eq (by simp [v, u]) m
  clear_value v
  split
  · exact memSafe_settleTrap k c h
  · exact h

theorem memSafe_takeTrap {s : State} (cause : BitVec 8) (d : Dbl) (n : Bool) (m : MemSafe s) : MemSafe (takeTrap s cause d n) :=
  memSafe_trapAt _ _ _ _ _ m

theorem memSafe_stopped {s t : State} {x : Stop} (m : MemSafe s) (h : stopped s x = .next t) : MemSafe t := by
  unfold stopped at h
  split at h
  · cases h; exact m
  · cases h; exact memSafe_of_eq (by simp) m
  · cases h; exact memSafe_of_eq (by simp) m
  · cases h; exact m
  · cases h; exact memSafe_stall _ (memSafe_takeTrap _ _ _ m)
  · cases h; exact memSafe_stall _ (memSafe_takeTrap _ _ _ m)
  · cases h; exact memSafe_stall _ (memSafe_takeTrap _ _ _ m)
  · cases h; exact memSafe_of_eq (by simp) m
  · cases h; exact memSafe_of_eq (by simp) m

theorem memSafe_resume {s : State} (k c : Nat) (m : MemSafe s) : MemSafe (resume s k c) := by
  unfold resume
  extract_lets base u
  have h : MemSafe u := (memOnly_acquire _ _ _).wf m
  clear_value u
  split
  · exact memSafe_of_eq (by simp) h
  · exact memSafe_of_eq ((sendTrap_mem _ _ _).trans ((traceRecord_mem _ _ _ _ _ _ _ _ _).trans rfl)) ((memOnly_homeWrite u base _).wf h)

/-! ### Meanings -/

/-- A meaning that, where it does not stop, leaves canonical memory canonical. -/
def KeepsMem {α : Type} (a : Act α) : Prop := ∀ s x t, a s = .ok (x, t) → MemSafe s → MemSafe t

namespace KeepsMem

theorem pure {α : Type} (x : α) : KeepsMem (Pure.pure x : Act α) := by
  intro s y t h m; cases h; exact m

theorem bind {α β : Type} {a : Act α} {f : α → Act β} (ha : KeepsMem a) (hf : ∀ x, KeepsMem (f x)) : KeepsMem (a >>= f) := by
  intro s y u h m
  obtain ⟨x, t, h1, h2⟩ := act_bind_inv h
  exact hf x t y u h2 (ha s x t h1 m)

theorem get : KeepsMem (MonadState.get : Act State) := by
  intro s x t h m; cases h; exact m

theorem halt {α : Type} (x : Stop) : KeepsMem (Machine.halt x : Act α) := by
  intro s y t h m; cases h

theorem here : KeepsMem Machine.here := by
  intro s x t h m; cases h; exact m

/-- A change of state that leaves memory alone. -/
theorem modify {f : State → State} (hf : ∀ s, (f s).mem = s.mem) : KeepsMem (modifyGet fun s => ((), f s) : Act Unit) := by
  intro s x t h m; cases h; exact memSafe_of_eq (hf s) m

/-- A new state computed from the one that was read. -/
theorem get_set {α : Type} {f : State → State} {g : State → Act α} (hf : ∀ s, MemSafe s → MemSafe (f s)) (hg : ∀ s, KeepsMem (g s)) :
    KeepsMem (do let s ← MonadState.get; set (f s); g s : Act α) := by
  intro s x t h m
  exact hg s (f s) x t h (hf s m)

theorem ite {α : Type} {p : Prop} [Decidable p] {a b : Act α} (ha : p → KeepsMem a) (hb : ¬ p → KeepsMem b) :
    KeepsMem (if p then a else b) := by
  split
  · exact ha ‹_›
  · exact hb ‹_›

theorem need (b : Bool) : KeepsMem (Machine.need b) := ite (fun _ => pure ()) (fun _ => halt _)
theorem check (b : Bool) (c : BitVec 8) (d : Dbl) : KeepsMem (Machine.check b c d) := ite (fun _ => pure ()) (fun _ => halt _)

theorem each {α : Type} {f : α → Act Unit} (hf : ∀ x, KeepsMem (f x)) (l : List α) : KeepsMem (Machine.each f l) := by
  induction l with
  | nil => exact pure ()
  | cons x r ih => exact bind (hf x) fun _ => ih

theorem collect {α β : Type} {f : α → Act β} (hf : ∀ x, KeepsMem (f x)) (l : List α) : KeepsMem (Machine.collect f l) := by
  induction l with
  | nil => exact pure []
  | cons x r ih => exact bind (hf x) fun _ => bind ih fun _ => pure _

end KeepsMem

/-- An instruction whose meaning keeps memory canonical does so, whether it completes, waits or traps. -/
theorem memSafe_runInstr {legal : Option (BitVec 3)} {word : BitVec 32} {len : Nat} {act : Act Next} (ha : KeepsMem act) {s t : State}
    (m : MemSafe s) (h : runInstr legal word len act s = .next t) : MemSafe t := by
  unfold runInstr at h
  split at h
  · exact memSafe_stopped m h
  · split at h
    · exact memSafe_stopped m h
    · rename_i n u e
      cases h
      exact memSafe_of_eq (by simp) (ha s n u e m)

/-! ### Translation -/

theorem leafFor_mem {s t : State} {b p va : Nat} {e : TlbEntry} (h : leafFor s b p va = .ok (e, t)) : t.mem = s.mem := by
  unfold leafFor at h
  simp only at h
  split at h
  · cases h; rfl
  · split at h
    · cases h; rfl
    · split at h
      · cases h
      · cases h; rfl

theorem memSafe_setDirty {s : State} (b : Nat) (e : TlbEntry) (m : MemSafe s) : MemSafe (setDirty s b e) := by
  unfold setDirty
  split
  · exact m
  · exact memSafe_of_eq rfl ((memOnly_unitWrite s _ _).wf m)

theorem keepsMem_translate (b p va kind : Nat) (remote : Bool) : KeepsMem (translate b p va kind remote) := by
  intro s x t h m
  unfold translate at h
  split at h
  · cases h; exact m
  split at h
  · cases h
  split at h
  · cases h
  rename_i e u hl
  have hu : MemSafe u := memSafe_of_eq (leafFor_mem hl) m
  split at h
  · cases h
  split at h
  · cases h
  split at h
  · cases h
  · cases h
    split
    · exact memSafe_setDirty _ _ hu
    · exact hu

theorem keepsMem_pieces (b p kind fuel bit w : Nat) : KeepsMem (pieces b p kind fuel bit w) := by
  induction fuel generalizing bit w with
  | zero => exact KeepsMem.pure []
  | succ n ih =>
    unfold pieces
    refine KeepsMem.ite (fun _ => KeepsMem.pure []) fun _ => ?_
    exact KeepsMem.bind (keepsMem_translate _ _ _ _ _) fun _ => KeepsMem.bind (ih _ _) fun _ => KeepsMem.pure _

theorem keepsMem_herePieces (kind bit w : Nat) : KeepsMem (herePieces kind bit w) :=
  KeepsMem.bind KeepsMem.get fun _ => KeepsMem.bind KeepsMem.here fun _ => keepsMem_pieces _ _ _ _ _ _

end Sys2Proof.Machine
end

