-- ==== Sys2Proof/Tests/Slice0.lean ====
section
/-!
SUPPORT. Tests: the well-formedness checks, one written-out word per instruction, single steps with results calculated by hand
from the rules, and for every statement of Certificates/Slice0/Obligations.lean states that meet its hypotheses.
-/
open Sys2Proof Sys2Proof.Machine

namespace Sys2Proof.Tests

-- One proof at a time: many at once ask for more threads than the checks' memory limit allows.
set_option Elab.async false

/-! ### Helpers -/

/-- A package that has come up, with berth 0 given to partition 0 and running it. -/
def upState : State :=
  { State.reset with
    glob := { Glob.reset with boot := .done }
    berths := [(0, { Berth.reset with owner := 0, runs := some 0, holds := some 0 })] }

/-- That package with a task on core 0, context 0. -/
def taskState (x : Ctx) : State :=
  setCtx upState 0 0 { x with
    mode := .running, pc := BitVec.ofNat 64 (localBase 0), pcc := capMake1 (localBase 0) fRAW8 64 (pL + pX) 0 }

/-- Whether an outcome is a next state with a property. -/
def nextHas (o : Host.Outcome State Fault Refusal) (p : State → Bool) : Bool :=
  match o with
  | .next t => p t
  | _ => false
def nextIs (o : Host.Outcome State Fault Refusal) (t : State) : Bool := nextHas o fun u => u == t

/-- Whether the executing context has trapped with a cause and detail. -/
def trapped (cause : BitVec 8) (detail : Dbl) (t : State) : Bool :=
  (me t).mode == .trapped && (me t).ktrap == cause && (me t).ktdetail == detail

/-- Whether a check or an action passes with a property of its answer. -/
def passes {α : Type} (r : Chk α) : Bool := match r with | .ok _ => true | .error _ => false
def checkIs {α : Type} [BEq α] (r : Chk α) (x : α) : Bool := match r with | .ok y => y == x | .error _ => false
def answers {ε α : Type} (r : Except ε (α × State)) (p : α → State → Bool) : Bool :=
  match r with
  | .ok (a, t) => p a t
  | .error _ => false

noncomputable def decodesAll (l : List (BitVec 32 × Instr)) : Bool :=
  l.all fun e => match decode e.1 with
    | .ok i => i == e.2
    | .error _ => false

/-! ### Well-formedness: an ill-formed term for each check -/

theorem test_ill_formed_terms :
    ([(.kread 0x005 1, 4), (.kcset 1 2, 4), (.tret 1 28, 3), (.add 1 0 0 2 1 3, 3), (.bins 0 0 0 2 1 31, 3), (.cget 16 1 2, 4),
      (.ccall 1 2 12, 4), (.sendRq 0 0 0 1 28 0, 3), (.enq 0 0 1 2 28, 3), (.fence 0 0, 1), (.fence 6 1, 4), (.pinit 0 1 2, 4),
      (.parriveRel 6 1 2, 4), (.pwait 1 25, 3), (.aadd 0 0 1 2, 3), (.aadd 0 26 1 2, 3), (.acas 0 25 1 2, 3), (.aredVAdd 28 1 1, 3),
      (.aredVAdd 1 1 27, 3), (.cpstat 3 0 1, 1), (.mlease 0 1, 4), (.mlease 65 1, 4), (.nlink 27 1 1, 3), (.npush 0 1, 3),
      (.sexp2 1 2 28, 3), (.vfadd 0 1 2 3 3, 1), (.vfma 0 1 2 28 2, 3), (.vmxsc 0x15 1 2, 4), (.vzipLo 4 1 2 3, 1),
      (.vbcast 3 2 1 2, 4), (.vdot4 0 1 2 28, 3), (.vcmpEq 7 1 2 3, 1), (.vcmpLtu 4 1 2 3, 1), (.vfcmpUn 3 1 2 3, 1),
      (.vmvXv 2 4 1 2, 4)] :
      List (Instr × BitVec 3)).all (fun e => e.1.fieldFault == some e.2 && !e.1.WF) = true := by
  decide +kernel

/-- The same fields at the last permitted values, and a step that no encoding names. -/
theorem test_well_formed_boundaries :
    ([.kread 0x004 1, .kcset 1 1, .tret 1 27, .add 1 0 0 28 1 3, .cget 15 1 2, .ccall 1 2 11, .fence 5 3, .pinit 1 1 2, .pwait 1 24,
      .aadd 0 25 1 2, .acas 0 24 1 2, .aredVAdd 27 1 26, .cpstat 2 0 1, .mlease 64 1, .nlink 26 1 1, .sexp2 0 2 28, .vfadd 0 1 2 3 2,
      .vmxsc 0x16 1 2, .vzipLo 3 1 2 3, .vbcast 3 1 1 2, .vcmpEq 6 1 2 3, .vcmpLtu 3 1 2 3, .vfcmpUn 4 1 2 3] :
      List Instr).all (fun i => i.WF) = true ∧ (Instr.sliceBegin).WF = false := by
  decide +kernel

/-! ### Decoding: a word written out from the encoding of each instruction -/

theorem test_decode_kread_to_cLi : decodesAll [
    (0x02940AB3, .kread 0x14a 0x15), (0x22955033, .kwrite 0x14a 0x15),
    (0x42955533, .kswap 0x14a 0x15 0xa), (0xA00090B5, .kcset 9 1),
    (0x14B80035, .svc 0xa5c), (0x20015535, .tret 0x15 0xa),
    (0x40015535, .tdrop 0x15 0xa), (0x74B80035, .brk 0xa5c),
    (0x80000035, .halt), (0x0000, .cNop),
    (0x5542, .cMv 0x15 0xa), (0x96A4, .cLi 0x25 0x15)] = true := by
  decide +kernel

theorem test_decode_cAddi_to_cDone : decodesAll [
    (0x96A6, .cAddi 0x25 0x15), (0x5548, .cAdd 0x15 0xa),
    (0x554A, .cSub 0x15 0xa), (0x554C, .cAnd 0x15 0xa),
    (0x554E, .cOr 0x15 0xa), (0x96B0, .cSlli 0x25 0x15),
    (0x96B2, .cSrli 0x25 0x15), (0x96B4, .cBeqz 0x25 0x15),
    (0x96B6, .cBnez 0x25 0x15), (0xB478, .cJ 0x5a3),
    (0x001A, .cRet), (0x001C, .cDone)] = true := by
  decide +kernel

theorem test_decode_add_to_min : decodesAll [
    (0x202AA681, .add 0 0 1 0x15 0xa 0xd), (0x206AA681, .sub 0 0 1 0x15 0xa 0xd),
    (0x20AAA681, .and 0 0 1 0x15 0xa 0xd), (0x20EAA681, .or 0 0 1 0x15 0xa 0xd),
    (0x212AA681, .xor 0 0 1 0x15 0xa 0xd), (0x216AA681, .andn 0 0 1 0x15 0xa 0xd),
    (0x21AAA681, .sll 0 0 1 0x15 0xa 0xd), (0x21EAA681, .srl 0 0 1 0x15 0xa 0xd),
    (0x222AA681, .sra 0 0 1 0x15 0xa 0xd), (0x226AA681, .slt 0 0 1 0x15 0xa 0xd),
    (0x22AAA681, .sltu 0 0 1 0x15 0xa 0xd), (0x22EAA681, .min 0 0 1 0x15 0xa 0xd)] = true := by
  decide +kernel

theorem test_decode_max_to_srlw : decodesAll [
    (0x232AA681, .max 0 0 1 0x15 0xa 0xd), (0x236AA681, .minu 0 0 1 0x15 0xa 0xd),
    (0x23AAA681, .maxu 0 0 1 0x15 0xa 0xd), (0x03C15501, .clz 0 0 0x15 0xa),
    (0x04015501, .ctz 0 0 0x15 0xa), (0x04415501, .pop 0 0 0x15 0xa),
    (0x24AAA681, .bext 0 0 1 0x15 0xa 0xd), (0x24EAA681, .bins 0 0 1 0x15 0xa 0xd),
    (0x202AA685, .addw 0 0 1 0x15 0xa 0xd), (0x206AA685, .subw 0 0 1 0x15 0xa 0xd),
    (0x20AAA685, .sllw 0 0 1 0x15 0xa 0xd), (0x20EAA685, .srlw 0 0 1 0x15 0xa 0xd)] = true := by
  decide +kernel

theorem test_decode_sraw_to_maxi : decodesAll [
    (0x212AA685, .sraw 0 0 1 0x15 0xa 0xd), (0x14B95503, .addi 0xa5c 0x15 0xa),
    (0x34B95503, .andi 0xa5c 0x15 0xa), (0x54B95503, .ori 0xa5c 0x15 0xa),
    (0x74B95503, .xori 0xa5c 0x15 0xa), (0x94B95503, .slti 0xa5c 0x15 0xa),
    (0xB4B95503, .sltiu 0xa5c 0x15 0xa), (0xC04B5503, .slli 0x25 0x15 0xa),
    (0xC0CB5503, .srli 0x25 0x15 0xa), (0xC14B5503, .srai 0x25 0x15 0xa),
    (0xE58B5503, .mini 0x2c5 0x15 0xa), (0xED8B5503, .maxi 0x2c5 0x15 0xa)] = true := by
  decide +kernel

theorem test_decode_minui_to_beq : decodesAll [
    (0xF58B5503, .minui 0x2c5 0x15 0xa), (0xFD8B5503, .maxui 0x2c5 0x15 0xa),
    (0x14B95507, .addiw 0xa5c 0x15 0xa), (0xA5C3EA89, .lui 0xa5c3e 0x15),
    (0x202AA68B, .mul 0 0 1 0x15 0xa 0xd), (0x206AA68B, .mulh 0 0 1 0x15 0xa 0xd),
    (0x20AAA68B, .mulhu 0 0 1 0x15 0xa 0xd), (0x20EAA68B, .div 0 0 1 0x15 0xa 0xd),
    (0x212AA68B, .divu 0 0 1 0x15 0xa 0xd), (0x216AA68B, .rem 0 0 1 0x15 0xa 0xd),
    (0x21AAA68B, .remu 0 0 1 0x15 0xa 0xd), (0xA42AAE0D, .beq 0xa5c 0x15 0xa)] = true := by
  decide +kernel

theorem test_decode_bne_to_ldBu : decodesAll [
    (0xA46AAE0D, .bne 0xa5c 0x15 0xa), (0xA4AAAE0D, .blt 0xa5c 0x15 0xa),
    (0xA4EAAE0D, .bge 0xa5c 0x15 0xa), (0xA52AAE0D, .bltu 0xa5c 0x15 0xa),
    (0xA56AAE0D, .bgeu 0xa5c 0x15 0xa), (0xAD1E388F, .jal 0x15a3c71),
    (0x14B95511, .jalr 0 0 0xa5c 0x15 0xa), (0x14B80013, .loop 0xa5c),
    (0x214D5013, .lcset 0xa6 0x15), (0x40000013, .follow),
    (0x22AA9695, .ldB 0 0 1 0x15 0xa 9 0xd), (0x26AA9695, .ldBu 0 0 1 0x15 0xa 9 0xd)] = true := by
  decide +kernel

theorem test_decode_ldH_to_stv : decodesAll [
    (0x2AAA9695, .ldH 0 0 1 0x15 0xa 9 0xd), (0x2EAA9695, .ldHu 0 0 1 0x15 0xa 9 0xd),
    (0x32AA9695, .ldW 0 0 1 0x15 0xa 9 0xd), (0x36AA9695, .ldWu 0 0 1 0x15 0xa 9 0xd),
    (0x3AAA9695, .ldD 0 0 1 0x15 0xa 9 0xd), (0x22AA9697, .stB 0 0 1 0x15 0xa 9 0xd),
    (0x26AA9697, .stH 0 0 1 0x15 0xa 9 0xd), (0x2AAA9697, .stW 0 0 1 0x15 0xa 9 0xd),
    (0x2EAA9697, .stD 0 0 1 0x15 0xa 9 0xd), (0x05553299, .ldv 0x15 0xa 9 0x25),
    (0x0D553299, .ldvS 0x15 0xa 9 0x25), (0x0555329B, .stv 0x15 0xa 9 0x25)] = true := by
  decide +kernel

theorem test_decode_stvS_to_clc : decodesAll [
    (0x0D55329B, .stvS 0x15 0xa 9 0x25), (0x002A931D, .cslice 0 0 0x15 9 6),
    (0x006A931D, .cstep 0 0 0x15 9 6), (0x00AA931D, .cperm 0 0 0x15 9 6),
    (0x00EA931D, .cfold 0 0 0x15 9 6), (0x012A931D, .crestrict 0 0 0x15 9 6),
    (0x016A931D, .cscope 0 0 0x15 9 6), (0x01AA931D, .cfmt 0 0 0x15 9 6),
    (0x01D6951D, .cget 0xb 9 0xa), (0x0200931D, .cmove 9 6),
    (0x0252669D, .cseal 9 6 0xd), (0x22AA931F, .clc 0 0 1 0x15 0xa 9 6)] = true := by
  decide +kernel

theorem test_decode_csc_to_sendnW : decodesAll [
    (0x26AA931F, .csc 0 0 1 0x15 0xa 9 6), (0x2AAA969F, .ctag 0 0 1 0x15 0xa 9 0xd),
    (0x001265A1, .ccall 9 6 0xb), (0x004005A1, .cret 0xb),
    (0x009266A1, .cunseal 9 6 0xd), (0x202AA4A3, .sendRq 0 0 1 0x15 0xa 9),
    (0x206AA4A3, .sendRp 0 0 1 0x15 0xa 9), (0x20AAA4A3, .sendSy 0 0 1 0x15 0xa 9),
    (0x20EAA4A3, .sendnN 0 0 1 0x15 0xa 9), (0x212AA4A3, .sendnE 0 0 1 0x15 0xa 9),
    (0x216AA4A3, .sendnS 0 0 1 0x15 0xa 9), (0x21AAA4A3, .sendnW 0 0 1 0x15 0xa 9)] = true := by
  decide +kernel

theorem test_decode_sendv_to_pinit : decodesAll [
    (0x21EAA023, .sendv 0 0 1 0x15 0xa), (0x222A54A3, .reply 0 0 1 0x15 5 9),
    (0x02400023, .bounce), (0x02800023, .done),
    (0x22EAA6A3, .chmask 0 0 1 0x15 0xa 0xd), (0x232AA6A3, .chprio 0 0 1 0x15 0xa 0xd),
    (0x002A9525, .enq 0 0 0x15 9 0xa), (0x006A9525, .launch 0 0 0x15 9 0xa),
    (0x00800025, .gdone), (0x00240027, .fence 4 2),
    (0x20009AA7, .dcfence 9 0x15), (0x54B89AA7, .pinit 0xa5c 9 0x15)] = true := by
  decide +kernel

theorem test_decode_parriveRlx_to_amaxu : decodesAll [
    (0x60029AA7, .parriveRlx 9 0x15), (0x60249AA7, .parriveRel 4 9 0x15),
    (0x80009AA7, .pwait 9 0x15), (0xA0009AA7, .pinval 9 0x15),
    (0xD2055527, .boomset 9 2 0x15 0xa), (0xE0080AA7, .boomRlx 2 0x15),
    (0xE00A0AA7, .boomRel 2 0x15), (0x402A9529, .aadd 1 0x15 9 0xa),
    (0x406A9529, .amin 1 0x15 9 0xa), (0x40AA9529, .amax 1 0x15 9 0xa),
    (0x40EA9529, .aminu 1 0x15 9 0xa), (0x412A9529, .amaxu 1 0x15 9 0xa)] = true := by
  decide +kernel

theorem test_decode_aand_to_cpsetDst : decodesAll [
    (0x416A9529, .aand 1 0x15 9 0xa), (0x41AA9529, .aor 1 0x15 9 0xa),
    (0x41EA9529, .axor 1 0x15 9 0xa), (0x422A9529, .aswp 1 0x15 9 0xa),
    (0x426A9529, .acas 1 0x15 9 0xa), (0x42AA9529, .afadd 1 0x15 9 0xa),
    (0x02EA9529, .aredVAdd 0x15 9 0xa), (0x032A9529, .aredVMax 0x15 9 0xa),
    (0x036A9529, .aredVMin 0x15 9 0xa), (0x03AA9529, .aredVFadd 0x15 9 0xa),
    (0x0001902B, .cpsetSrc 1 9), (0x0011902B, .cpsetDst 1 9)] = true := by
  decide +kernel

theorem test_decode_cpsetAux_to_mlease : decodesAll [
    (0x0021902B, .cpsetAux 1 9), (0x1531002B, .cpsetCtl 0x15 1),
    (0x1541002B, .cpsetMlo 0x15 1), (0x1551002B, .cpsetMhi 0x15 1),
    (0x20010AAB, .cpgo 1 0x15), (0x40210AAB, .cpstat 2 1 0x15),
    (0x7501052B, .cpnote 0x15 1 0xa), (0x80010AAB, .cpgath 1 0x15),
    (0xA0010AAB, .cpscat 1 0x15), (0xC0010AAB, .cpcast 1 0x15),
    (0xE0010AAB, .cpred 1 0x15), (0x00330AAD, .mlease 0x33 0x15)] = true := by
  decide +kernel

theorem test_decode_mrel_to_nstore : decodesAll [
    (0x2000002D, .mrel), (0x5500002D, .mcfg 0x15),
    (0x6096DAAD, .mma 9 6 0xd 0x15), (0x8096DAAD, .mmaZ 9 6 0xd 0x15),
    (0xB596D1AD, .mad 0x15 9 6 0xd 3), (0xD590652D, .mcvt 0x15 9 6 0xa),
    (0xE0900AAD, .mzero 9 0x15), (0x00009AAF, .nalloc 9 0x15),
    (0x3500902F, .nfree 0x15 9), (0x5500952F, .nlink 0x15 9 0xa),
    (0x7505952F, .nload 0x15 5 9 0xa), (0x9505952F, .nstore 0x15 5 9 0xa)] = true := by
  decide +kernel

theorem test_decode_npush_to_fmul : decodesAll [
    (0xB500902F, .npush 0x15 9), (0xD500952F, .nbagBind 0x15 9 0xa),
    (0x0A04B531, .sexp2 5 0x25 0x2a), (0x1A04B531, .slog2 5 0x25 0x2a),
    (0x2A04B531, .srcp 5 0x25 0x2a), (0x3A04B531, .srsqrt 5 0x25 0x2a),
    (0x4A04B531, .ssqrt 5 0x25 0x2a), (0x5A04B531, .ssin 5 0x25 0x2a),
    (0x6A04B531, .scos 5 0x25 0x2a), (0x202AA6B7, .fadd 0 0 1 0x15 0xa 0xd),
    (0x206AA6B7, .fsub 0 0 1 0x15 0xa 0xd), (0x20AAA6B7, .fmul 0 0 1 0x15 0xa 0xd)] = true := by
  decide +kernel

theorem test_decode_fmadd_to_fsgnj : decodesAll [
    (0x20EAA6B7, .fmadd 0 0 1 0x15 0xa 0xd), (0x212AA6B7, .fmin 0 0 1 0x15 0xa 0xd),
    (0x216AA6B7, .fmax 0 0 1 0x15 0xa 0xd), (0x21AAA6B7, .fcmpEq 0 0 1 0x15 0xa 0xd),
    (0x21EAA6B7, .fcmpLt 0 0 1 0x15 0xa 0xd), (0x222AA6B7, .fcmpLe 0 0 1 0x15 0xa 0xd),
    (0x226AA6B7, .fcmpUn 0 0 1 0x15 0xa 0xd), (0x02815537, .fcvtLF 0 0 0x15 0xa),
    (0x02C15537, .fcvtLuF 0 0 0x15 0xa), (0x03015537, .fcvtFL 0 0 0x15 0xa),
    (0x03415537, .fcvtFLu 0 0 0x15 0xa), (0x23AAA6B7, .fsgnj 0 0 1 0x15 0xa 0xd)] = true := by
  decide +kernel

theorem test_decode_fsgnjn_to_vmax : decodesAll [
    (0x23EAA6B7, .fsgnjn 0 0 1 0x15 0xa 0xd), (0x242AA6B7, .fsgnjx 0 0 1 0x15 0xa 0xd),
    (0x0B2D4CC5, .vadd 5 0x25 0x2a 0x19 2), (0x1B2D4CC5, .vsub 5 0x25 0x2a 0x19 2),
    (0x2B2D4CC5, .vadds 5 0x25 0x2a 0x19 2), (0x3B2D4CC5, .vaddus 5 0x25 0x2a 0x19 2),
    (0x4B2D4CC5, .vsubs 5 0x25 0x2a 0x19 2), (0x5B2D4CC5, .vsubus 5 0x25 0x2a 0x19 2),
    (0x6B2D4CC5, .vmul 5 0x25 0x2a 0x19 2), (0x7B2D4CC5, .vmulh 5 0x25 0x2a 0x19 2),
    (0x8B2D4CC5, .vmin 5 0x25 0x2a 0x19 2), (0x9B2D4CC5, .vmax 5 0x25 0x2a 0x19 2)] = true := by
  decide +kernel

theorem test_decode_vminu_to_vandn : decodesAll [
    (0xAB2D4CC5, .vminu 5 0x25 0x2a 0x19 2), (0xBB2D4CC5, .vmaxu 5 0x25 0x2a 0x19 2),
    (0xCB2D4CC5, .vsll 5 0x25 0x2a 0x19 2), (0xDB2D4CC5, .vsrl 5 0x25 0x2a 0x19 2),
    (0xEB2D4CC5, .vsra 5 0x25 0x2a 0x19 2), (0xF12D4CC5, .vmulhu 0x25 0x2a 0x19 2),
    (0xF32D4CC5, .vavgu 0x25 0x2a 0x19 2), (0xF404B545, .vabs 0x25 0x2a 2),
    (0xF72D4CC5, .vand 0x25 0x2a 0x19 2), (0xF92D4CC5, .vor 0x25 0x2a 0x19 2),
    (0xFB2D4CC5, .vxor 0x25 0x2a 0x19 2), (0xFD2D4CC5, .vandn 0x25 0x2a 0x19 2)] = true := by
  decide +kernel

theorem test_decode_vfadd_to_vzipLo : decodesAll [
    (0x0B2D4CCB, .vfadd 5 0x25 0x2a 0x19 1), (0x1B2D4CCB, .vfsub 5 0x25 0x2a 0x19 1),
    (0x2B2D4CCB, .vfmul 5 0x25 0x2a 0x19 1), (0x3B2D4CCB, .vfma 5 0x25 0x2a 0x19 1),
    (0x4B2D4CCB, .vfmin 5 0x25 0x2a 0x19 1), (0x5B2D4CCB, .vfmax 5 0x25 0x2a 0x19 1),
    (0x6A04B54B, .vfabs 5 0x25 0x2a 1), (0x7A04B54B, .vfneg 5 0x25 0x2a 1),
    (0x0AACB54F, .vcvt 5 0x15 0x25 0x2a), (0x10D2A54F, .vmxsc 0x1a 0x15 0xa),
    (0x0B2D4CD1, .vshuf 5 0x25 0x2a 0x19), (0x152D4CD1, .vzipLo 2 0x25 0x2a 0x19)] = true := by
  decide +kernel

theorem test_decode_vzipHi_to_vredamax : decodesAll [
    (0x252D4CD1, .vzipHi 2 0x25 0x2a 0x19), (0x352D4CD1, .vunzipEv 2 0x25 0x2a 0x19),
    (0x452D4CD1, .vunzipOd 2 0x25 0x2a 0x19), (0x541D4CD1, .vbcast 2 3 0x2a 0x19),
    (0x6B2D4CD1, .vextLo 5 0x25 0x2a 0x19), (0x7B2D4CD1, .vextHi 5 0x25 0x2a 0x19),
    (0x8B2D4CD1, .vsel 5 0x25 0x2a 0x19), (0x2A04AAD3, .vredaddInt 2 5 0x25 0x15),
    (0x6A04AAD3, .vredmaxInt 2 5 0x25 0x15), (0x8A04AAD3, .vredaddF32 5 0x25 0x15),
    (0x9A04AAD3, .vredmaxF32 5 0x25 0x15), (0xAAACA553, .vredamax 5 0x15 0x25 0xa)] = true := by
  decide +kernel

theorem test_decode_vdot4_to_mandn : decodesAll [
    (0xBB2D4CD3, .vdot4 5 0x25 0x2a 0x19), (0xCB2D4CD3, .vdot2 5 0x25 0x2a 0x19),
    (0x0B2D4155, .vcmpEq 5 0x25 0x2a 2), (0x1B2D4155, .vcmpLt 5 0x25 0x2a 2),
    (0x2B2D4155, .vcmpLe 5 0x25 0x2a 2), (0x372D4155, .vcmpLtu 3 0x25 0x2a 2),
    (0x472D4155, .vcmpLeu 3 0x25 0x2a 2), (0x5B2D4155, .vfcmpUn 5 0x25 0x2a 2),
    (0x602841D5, .mand 5 2 3), (0x702841D5, .mor 5 2 3),
    (0x802841D5, .mxor 5 2 3), (0x902841D5, .mandn 5 2 3)] = true := by
  decide +kernel

theorem test_decode_mnot_to_vmv : decodesAll [
    (0xA000A155, .mnot 5 2), (0xB002A2D5, .mmvMx 0x15 5),
    (0xC000AAD5, .mmvXm 5 0x15), (0xD000AAD5, .mpop 5 0x15),
    (0x041D4AD7, .vmvXv 2 3 0x2a 0x15), (0x1A12B2D7, .vmvVx 5 2 0x15 0x25),
    (0x254B92D7, .vli 2 0xa5c 0x25), (0x3A04B557, .vmv 5 0x25 0x2a)] = true := by
  decide +kernel


/-! ### Single steps: what an instruction writes, calculated by hand -/

/-- x1 to x7 of the arithmetic tests. -/
def arith : State := taskState { Ctx.reset with
  x := [(1, 5), (2, 7), (3, 0xFFFFFFFFFFFFFFFF), (4, 0x8000000000000000), (5, 0x123456789ABCDEF0), (6, 0x0F04), (7, 0x7FFFFFFF),
    (9, 31), (10, 0xFFFFFFFF0000FFFF)] }

/-- Whether each instruction leaves the given value in x8. -/
def givesX (s : State) (l : List (Instr × Dbl)) : Bool :=
  l.all fun e => nextHas (exec e.1 s) fun t => regX t 8 == e.2 && (me t).pc == (me s).pc + BitVec.ofNat 64 e.1.length

theorem test_scalar_pairs : givesX arith [
    (.add 0 0 0 3 1 8, 4), (.sub 0 0 0 2 1 8, 0xFFFFFFFFFFFFFFFE), (.and 0 0 0 2 1 8, 5), (.or 0 0 0 6 1 8, 0x0F05),
    (.xor 0 0 0 2 1 8, 2), (.andn 0 0 0 1 2 8, 2), (.sll 0 0 0 2 1 8, 0x280), (.srl 0 0 0 2 3 8, 0x01FFFFFFFFFFFFFF),
    (.sra 0 0 0 2 4 8, 0xFF00000000000000), (.slt 0 0 0 1 3 8, 1), (.sltu 0 0 0 1 3 8, 0), (.min 0 0 0 1 3 8, 0xFFFFFFFFFFFFFFFF),
    (.max 0 0 0 1 3 8, 5), (.minu 0 0 0 1 3 8, 5), (.maxu 0 0 0 1 3 8, 0xFFFFFFFFFFFFFFFF), (.bext 0 0 0 6 5 8, 0xCDEF)] = true := by
  decide +kernel

theorem test_scalar_words_and_products : givesX arith [
    (.addw 0 0 0 1 7 8, 0xFFFFFFFF80000004), (.subw 0 0 0 2 1 8, 0xFFFFFFFFFFFFFFFE), (.sllw 0 0 0 9 1 8, 0xFFFFFFFF80000000),
    (.srlw 0 0 0 2 3 8, 0x01FFFFFF), (.sraw 0 0 0 2 3 8, 0xFFFFFFFFFFFFFFFF), (.mul 0 0 0 3 1 8, 0xFFFFFFFFFFFFFFFB),
    (.mulh 0 0 0 3 1 8, 0xFFFFFFFFFFFFFFFF), (.mulhu 0 0 0 3 3 8, 0xFFFFFFFFFFFFFFFE), (.div 0 0 0 3 4 8, 0x8000000000000000),
    (.div 0 0 0 0 1 8, 0xFFFFFFFFFFFFFFFF), (.divu 0 0 0 1 2 8, 1), (.rem 0 0 0 3 4 8, 0), (.rem 0 0 0 0 2 8, 7),
    (.remu 0 0 0 1 2 8, 2), (.clz 0 0 1 8, 61), (.ctz 0 0 4 8, 63), (.pop 0 0 10 8, 48), (.clz 0 0 0 8, 64)] = true := by
  decide +kernel

theorem test_scalar_immediates : givesX arith [
    (.addi 0xFFF 1 8, 4), (.andi 0xFF0 3 8, 0xFFFFFFFFFFFFFFF0), (.ori 0x00A 1 8, 15), (.xori 0xFFF 1 8, 0xFFFFFFFFFFFFFFFA),
    (.slti 0xFFF 1 8, 0), (.sltiu 0xFFF 1 8, 1), (.slli 63 1 8, 0x8000000000000000), (.srli 60 3 8, 15), (.srai 63 4 8, 0xFFFFFFFFFFFFFFFF),
    (.mini 0x3FF 1 8, 0xFFFFFFFFFFFFFFFF), (.maxi 0x3FF 1 8, 5), (.minui 0x3FF 1 8, 5), (.maxui 0x200 1 8, 0xFFFFFFFFFFFFFE00),
    (.addiw 0x001 7 8, 0xFFFFFFFF80000000), (.lui 0x80001 8, 0xFFFFFFFF80001000), (.lui 0x12345 8, 0x12345000)] = true := by
  decide +kernel

theorem test_compact_forms : givesX (withX arith 8 0x10) [
    (.cMv 2 8, 7), (.cLi 0x3F 8, 0xFFFFFFFFFFFFFFFF), (.cAddi 0x3D 8, 13), (.cAdd 1 8, 21), (.cSub 1 8, 11), (.cAnd 10 8, 0x10),
    (.cOr 1 8, 0x15), (.cSlli 59 8, 0x8000000000000000), (.cSrli 4 8, 1)] = true := by
  decide +kernel

/-- R162, R163: a 64-bit constant; R49: x0 reads zero and a write to it is discarded. -/
theorem test_x0 : nextHas (exec (.addi 0x040 0 9) arith) (fun t => regX t 9 == 64) = true ∧
    nextIs (exec (.add 0 0 0 2 1 0) arith) (after arith 4) = true := by decide +kernel

theorem test_branches :
    ([(.beq 0x004 1 1, 8), (.beq 0x004 2 1, 4), (.bne 0xFFF 2 1, -2), (.blt 0x7FF 1 3, 0xFFE), (.bge 0x800 3 1, -4096),
      (.bltu 0x004 1 3, 4), (.bgeu 0x004 1 3, 8), (.cBeqz 0x20 0, -64), (.cBnez 0x1F 1, 62), (.cJ 0x400, -2048)] :
      List (Instr × Int)).all (fun e => nextHas (exec e.1 arith) fun t => (me t).pc == (me arith).pc + BitVec.ofInt 64 e.2) = true := by
  decide +kernel

theorem test_jumps :
    nextHas (exec (.jal 0x1FFFFFF) arith) (fun t => (me t).pc == (me arith).pc - 2 && regX t 26 == (me arith).pc + 4) = true ∧
    nextHas (exec (.jalr 0 0 0x001 2 8) arith) (fun t => (me t).pc == 8 && regX t 8 == (me arith).pc + 4) = true ∧
    nextHas (exec (.jalr 0 0 0 2 8) arith) (fun t => (me t).ktrap == cALIGN && (me t).mode == .trapped) = true := by
  decide +kernel

/-- R172: three passes' worth of counts: one kernel pass, then a drain pass, then none left. -/
theorem test_loop :
    nextHas (exec (.lcset 2 1) arith) (fun t => (me t).klc == 5 && (me t).kec == 2) = true ∧
    nextHas (exec (.loop 0xFFB) (withMe arith { me arith with klc := 1, kec := 1 }))
      (fun t => (me t).klc == 0 && (me t).kec == 1 && !(me t).drain && (me t).krrb == 31 && (me t).pc == (me arith).pc - 10) = true ∧
    nextHas (exec (.loop 0xFFB) (withMe arith { me arith with kec := 1, krrb := 31 }))
      (fun t => (me t).kec == 0 && (me t).drain && (me t).krrb == 30) = true ∧
    nextHas (exec (.loop 0xFFB) arith) (fun t => (me t).pc == (me arith).pc + 4) = true := by decide +kernel

/-- R166: 1.5 and 2.25, 0.1 + 0.2 in FP32, the conversion examples of the manual; R157, R167: the sum of opposite infinities sets NV. -/
def floats : State := taskState { Ctx.reset with
  x := [(1, 0x3FC00000), (2, 0x40100000), (3, 0x3DCCCCCD), (4, 0x3E4CCCCD), (5, 0x7F800000), (6, 0xFF800000), (7, 0x7FC00001), (9, 0xC0200000), (10, 0x7FC00000)] }

theorem test_scalar_floats : givesX floats [
    (.fadd 0 0 0 2 1 8, 0x40700000), (.fsub 0 0 0 2 1 8, 0xBF400000), (.fmul 0 0 0 2 1 8, 0x40580000), (.fadd 0 0 0 4 3 8, 0x3E99999A),
    (.fadd 0 0 0 6 5 8, 0x7FC00000), (.fmin 0 0 0 2 1 8, 0x3FC00000), (.fmax 0 0 0 2 1 8, 0x40100000), (.fcmpLt 0 0 0 2 1 8, 1),
    (.fcmpEq 0 0 0 7 7 8, 0), (.fcmpUn 0 0 0 7 1 8, 1), (.fcmpLe 0 0 0 1 1 8, 1), (.fcvtLF 0 0 9 8, 0xFFFFFFFFFFFFFFFE), (.fcvtLF 0 0 10 8, 0), (.fcvtLuF 0 0 6 8, 0),
    (.fsgnj 0 0 0 6 1 8, 0xBFC00000), (.fsgnjn 0 0 0 6 1 8, 0x3FC00000), (.fsgnjx 0 0 0 6 6 8, 0x7F800000),
    (.fcvtFL 0 0 7 8, 0x4EFF8000), (.fcvtFLu 0 0 1 8, 0x4E7F0000)] = true ∧
    nextHas (exec (.fadd 0 0 0 6 5 8) floats) (fun t => (me t).fflags == 0x10) = true := by
  decide +kernel


/-! ### Vectors -/

/-- v1 holds bytes 0 to 15, v2 bytes 0xF0 to 0xFF, v3 four FP32 ones; m1 selects bytes 0 to 3; x1 is 300. -/
def vectors : State := taskState { Ctx.reset with
  x := [(1, 300), (2, 0x0302)]
  v := [(1, 0x0F0E0D0C0B0A09080706050403020100), (2, 0xFFFEFDFCFBFAF9F8F7F6F5F4F3F2F1F0), (3, 0x3F8000003F8000003F8000003F800000)]
  m := [(1, 0x000F)] }

def givesV (l : List (Instr × Quad)) : Bool := l.all fun e => nextHas (exec e.1 vectors) fun t => regV t 4 == e.2

theorem test_vector_integers : givesV [
    (.vadd 0 2 1 4 0, 0x0E0C0A0806040200FEFCFAF8F6F4F2F0),
    (.vaddus 0 2 1 4 0, 0xFFFFFFFFFFFFFFFFFEFCFAF8F6F4F2F0), (.vsubus 0 1 2 4 0, 0xF0F0F0F0F0F0F0F0F0F0F0F0F0F0F0F0),
    (.vminu 0 2 1 4 0, 0x0F0E0D0C0B0A09080706050403020100), (.vmax 0 2 1 4 0, 0x0F0E0D0C0B0A09080706050403020100),
    (.vand 2 1 4 0, 0x0F0E0D0C0B0A09080706050403020100), (.vor 2 1 4 0, 0xFFFEFDFCFBFAF9F8F7F6F5F4F3F2F1F0),
    (.vabs 2 4 0, 0x0102030405060708090A0B0C0D0E0F10), (.vavgu 1 1 4 0, 0x0F0E0D0C0B0A09080706050403020100),
    (.vsub 1 2 1 4 0, 0x10101010)] = true := by
  decide +kernel

theorem test_vector_moves : givesV [
    (.vzipLo 0 2 1 4, 0xF707F606F505F404F303F202F101F000), (.vzipHi 0 2 1 4, 0xFF0FFE0EFD0DFC0CFB0BFA0AF909F808),
    (.vunzipEv 0 2 1 4, 0xFEFCFAF8F6F4F2F00E0C0A0806040200), (.vunzipOd 0 2 1 4, 0xFFFDFBF9F7F5F3F10F0D0B0907050301),
    (.vextLo 3 2 1 4, 0xF2F1F00F0E0D0C0B0A09080706050403), (.vbcast 0 15 1 4, 0x0F0F0F0F0F0F0F0F0F0F0F0F0F0F0F0F),
    (.vsel 1 2 1 4, 0xFFFEFDFCFBFAF9F8F7F6F5F403020100), (.vli 2 0xFFF 4, 0xFFFFFFFFFFFFFFFFFFFFFFFFFFFFFFFF),
    (.vmv 1 1 4, 0x03020100), (.vmvVx 0 1 1 4, 0x012C012C012C012C012C012C012C012C)] = true := by
  decide +kernel

theorem test_vector_floats_and_masks :
    givesV [(.vfadd 0 3 3 4 2, 0x40000000400000004000000040000000), (.vfneg 1 3 4 2, 0xBF800000),
      (.vfmul 0 3 3 4 2, 0x3F8000003F8000003F8000003F800000)] = true ∧
    nextHas (exec (.vcmpLt 0 2 1 3) vectors) (fun t => regM t 3 == 0x0000) = true ∧
    nextHas (exec (.vcmpLtu 0 2 1 3) vectors) (fun t => regM t 3 == 0xFFFF) = true ∧
    nextHas (exec (.mnot 1 3) vectors) (fun t => regM t 3 == 0xFFF0) = true ∧
    nextHas (exec (.mandn 1 0 3) vectors) (fun t => regM t 3 == 0xFFF0) = true ∧
    nextHas (exec (.mpop 1 8) vectors) (fun t => regX t 8 == 4) = true ∧
    nextHas (exec (.mnot 0 0) vectors) (fun t => regM t 0 == 0xFFFF) = true := by decide +kernel

/-- R188: 0 to 3 sum to 6, with x2 = 770; R187: element 7 of v1 as 16-bit elements is 0x0F0E. -/
theorem test_vector_reductions :
    nextHas (exec (.vredaddInt 0 1 1 2) vectors) (fun t => regX t 2 == 776) = true ∧
    nextHas (exec (.vredmaxInt 0 0 2 8) vectors) (fun t => regX t 8 == 0) = true ∧
    nextHas (exec (.vredaddF32 0 3 8) vectors) (fun t => regX t 8 == 0x40800000) = true ∧
    nextHas (exec (.vmvXv 1 7 1 8) vectors) (fun t => regX t 8 == 0x0F0E) = true ∧
    nextHas (exec (.vdot4 0 1 1 5) vectors) (fun t => regV t 5 == 0x000002DE0000016E0000007E0000000E) = true := by
  decide +kernel


/-! ### Witnesses: states and operands that meet the hypotheses of the statements -/

theorem witness_ScalarArithmetic : readableX arith 1 ∧ readableX arith 27 ∧ writableX arith 8 ∧ readableX arith 8 ∧ readableX arith 0 := by
  decide +kernel

theorem witness_ImmediateForms : readableX arith 1 ∧ writableX arith 27 ∧ readableX arith 27 := by decide +kernel

/-- Core 41 has a neighbour in every direction; core 0 has none to the north and the west. -/
def portState (k : Nat) (q : List LinkEntry) : State :=
  let s := { arith with cur := ⟨k, 0⟩ }
  withQueue (setCtx s k 0 { ctxOf arith 0 0 with xs := [(20, .empty)] }) k 2 q

theorem witness_LinkPorts_pop : let s := portState 41 [.ready 9, .flying 8]
    readableX s 1 ∧ writableX s 3 ∧ (neighbour 41 2).isSome ∧ inQueue s 41 2 = [.ready 9, .flying 8] ∧
    neighbour 41 (opposite 2) = some 11 ∧ queueFull s (me s).part 11 2 = false ∧
    queueFull (withQueue s 11 2 [.ready 1, .ready 2, .flying 3, .reserved 4]) (me s).part 11 2 = true ∧
    nextIs (exec (.sub 1 0 0 1 30 3) (withQueue s 11 2 [.ready 1, .ready 2, .flying 3, .reserved 4]))
      (waits (withQueue s 11 2 [.ready 1, .ready 2, .flying 3, .reserved 4]) .link) ∧
    nextIs (exec (.sub 0 0 0 1 30 3) s) (after (withX (withQueue s 41 2 [.flying 8]) 3 4) 4) ∧
    nextIs (exec (.sub 1 0 0 1 30 3) s)
      (after (withX (withQueue (withQueue s 41 2 [.flying 8]) 11 2 [.flying 9]) 3 4) 4) := by decide +kernel

theorem witness_LinkPorts_wait : let s := portState 9 [.flying 8]; let e := portState 9 []
    (inQueue s 9 2 = [] ∨ inQueue s 9 2 = .flying 8 :: []) ∧ inQueue e 9 2 = [] ∧ readableX e 1 ∧ writableX e 3 ∧
    nextIs (exec (.add 0 0 0 1 30 3) e) (waits e .link) ∧ nextHas (exec (.add 0 0 1 1 30 3) s) (trapped cEMPTY 30) ∧
    tabGet .full (me s).xs 20 = .empty ∧ nextIs (exec (.add 0 0 0 1 20 3) s) (waits s .empty) ∧
    (let r := portState 9 [.reserved 4]; inQueue r 9 2 = .reserved 4 :: [] ∧ nextIs (exec (.add 0 0 1 1 30 3) r) (waits r .link)) := by decide +kernel

theorem witness_LinkPorts_push : let s := portState 9 []; let n := 41
    neighbour 9 2 = some 11 ∧ queueFull s (me s).part 11 0 = false ∧ heldSaved s (me s).part (coreBerth 11) = false ∧ s.reqs = [] ∧ readableX s 1 ∧ readableX s 2 ∧
    nextIs (exec (.add 0 0 0 2 1 30) s) (after (withQueue s 11 0 [.flying 12]) 4) ∧
    queueFull (withQueue s 11 0 [.ready 1, .ready 2, .flying 3, .reserved n]) (me s).part 11 0 = true ∧
    neighbour 0 0 = none ∧ neighbour 0 3 = none ∧ neighbour 511 1 = none ∧ neighbour 511 2 = none ∧
    nextHas (exec (.add 0 0 0 2 28 3) (portState 0 [])) (trapped cNOLINK 0) := by decide +kernel

theorem witness_ScalarFrames : (me arith).mode = .running ∧
    nextHas (exec (.add 0 0 0 2 1 3) arith) (fun t => (me t).mode == .running) = true ∧
    nextHas (exec (.fadd 0 0 0 2 1 3) floats) (fun t => (me t).mode == .running) = true := by decide +kernel

theorem witness_ControlTransfers : readableX arith 26 ∧ writableX arith 26 ∧ readableX arith 1 ∧ readableX arith 2 ∧
    nextIs (exec .cRet arith) (afterJump arith 0) = true := by decide +kernel

theorem witness_CountedLoops : readableX arith 1 ∧ (me arith).klc.toNat + (me arith).kec.toNat = 0 ∧
    (me (withMe arith { me arith with klc := 0xFFFFFFFF, kec := 0xFF })).klc.toNat ≠ 0 := by decide +kernel

/-- Cores 0 and 1 of berth 0 in one group, core 1 executing. -/
def groupState (k : Nat) (x y : Ctx) : State :=
  let p : Place := ⟨0, 0, 0, 0, 0, 0⟩
  let s := setCore upState 0 { Core.reset with place := some p, ctxs := [(0, { x with mode := .running, pc := 64 })] }
  { setCore s 1 { Core.reset with place := some { p with member := 1 }, ctxs := [(0, { y with mode := .running, pc := 64 })] } with
    cur := ⟨k, 0⟩ }

theorem witness_FollowAttaches : let s := groupState 0 Ctx.reset Ctx.reset; let t := groupState 1 { Ctx.reset with window := some 0 } Ctx.reset
    (me (groupState 1 Ctx.reset { Ctx.reset with follows := some 0 })).follows.isSome ∧ groupOf arith 0 = none ∧ (me arith).follows = none ∧
    (me s).leading = false ∧ groupOf s 0 ≠ none ∧ followersOf s 0 ≠ [] ∧
    nextIs (exec .follow s) (afterStay (withMe s { me s with window := some s.clk })) ∧
    groupOf t 1 ≠ none ∧ groupOf t 1 = groupOf t 0 ∧ (ctxOf t 0 0).window = some 0 ∧ t.clk < 0 + 64 ∧ capBase (ctxOf t 0 0).pcc = capBase (me t).pcc ∧ (ctxOf t 0 0).pc = (me t).pc ∧
    nextHas (exec .follow { t with clk := 64 }) (fun u => (me u).follows == none && (me u).pc == 68) ∧
    nextHas (exec .follow t) (fun u => (me u).follows == some 0 && (ctxOf u 0 0).leading && (me u).pc == 68) := by decide +kernel

/-- The windows and cores to which nothing attaches: another address, another `pcc` base, no window, another group, and a leader alone. -/
theorem witness_FollowAttaches_not :
    let t := groupState 1 { Ctx.reset with window := some 0 } Ctx.reset
    let moved := withMe t { me t with pc := 68 }
    let based := withMe t { me t with pcc := capMake1 4096 fRAW8 64 (pL + pX) 0 }
    let closed := groupState 1 Ctx.reset Ctx.reset
    let other := setCore t 1 { coreOf t 1 with place := some ⟨1, 0, 0, 0, 0, 0⟩ }
    let alone := setCore (groupState 0 Ctx.reset Ctx.reset) 1 Core.reset
    (ctxOf moved 0 0).pc ≠ (me moved).pc ∧ (ctxOf moved 0 0).window = some 0 ∧ groupOf moved 1 = groupOf moved 0 ∧
    capBase (ctxOf based 0 0).pcc ≠ capBase (me based).pcc ∧ (ctxOf based 0 0).window = some 0 ∧ (ctxOf closed 0 0).window = none ∧
    groupOf other 1 ≠ groupOf other 0 ∧ groupOf alone 0 ≠ none ∧ followersOf alone 0 = [] ∧
    ([moved, based, closed, other, alone].all fun s => nextIs (exec .follow s) (after s 4)) := by decide +kernel

theorem witness_ControlRegisters : writableX arith 8 ∧ readableX arith 1 ∧ readableX arith 7 ∧ readableC arith 15 ∧ writableX arith 0 ∧
    (berthOf arith (myBerth arith)).sfuQ = [] ∧ (berthOf arith (myBerth arith)).sfuRun = [] ∧ (me arith).sfuSaved = [] := by
  decide +kernel

/-- R374: counter 7 with an event of its own and with a fabric event, selector 0 and 7, and the delay registers 0x140 and 0x16F. -/
theorem witness_ControlRegisters_observation :
    let s := setCore arith 0 { coreOf arith 0 with obs := [(0x107, 9), (0x10F, 0x10002), (0x140, 3), (0x16F, 4)] }
    let f := setCore arith 0 { coreOf arith 0 with obs := [(0x107, 9), (0x10F, 0x10100)] }
    readableX s 1 ∧ writableX s 8 ∧ regX s 0 = 0 ∧ regX s 1 ≠ 0 ∧
    nextHas (exec (.kread 0x107 8) s) (fun t => regX t 8 == 9) ∧ nextHas (exec (.kread 0x107 8) f) (fun t => regX t 8 == 0) ∧
    nextHas (exec (.kswap 0x107 1 8) s) (fun t => regX t 8 == 9 && tabGet 0 (coreOf t 0).obs 0x107 == 5) ∧
    nextHas (exec (.kwrite 0x108 7) s) (fun t => tabGet 0 (coreOf t 0).obs 0x108 == 0xF3FFFF) ∧
    nextHas (exec (.kwrite 0x10F 1) s) (fun t => tabGet 0 (coreOf t 0).obs 0x10F == 5) ∧
    nextHas (exec (.kwrite 0x140 1) s) (fun t => tabGet 0 (coreOf t 0).obs 0x140 == 3) ∧
    nextHas (exec (.kswap 0x16F 0 8) s) (fun t => regX t 8 == 4 && tabGet 0 (coreOf t 0).obs 0x16F == 0) ∧
    nextHas (exec (.kswap 0x030 1 8) s) (fun t => (coreOf t 0).chmask == 5 && regX t 8 == 0) ∧
    nextHas (exec (.kswap 0x031 1 8) s) (fun t => (coreOf t 0).chprio == 5 && regX t 8 == 0) ∧
    nextHas (exec (.kswap 0x011 1 8) s) (fun t => (me t).fflags == 5 && regX t 8 == 0) ∧
    nextHas (exec (.kswap 0x010 1 8) s) (fun t => (me t).ktrap == cILLEGAL) ∧
    nextHas (exec (.kswap 0x010 0 8) (withMe s { me s with rmode := 2, seed := 1 })) (fun t => regX t 8 == 0x100000002 && (me t).rmode == 0) := by
  decide +kernel

/-- R56, R57: `kround` with mode 5 traps; mode 4 is written with its seed. -/
theorem test_kround :
    nextHas (exec (.kwrite 0x010 1) arith) (fun t => (me t).ktrap == cILLEGAL && (me t).rmode == 0) = true ∧
    nextHas (exec (.kwrite 0x010 1) (withX arith 1 0x0000000900000004)) (fun t => (me t).rmode == 4 && (me t).seed == 9) = true ∧
    nextHas (exec (.kread 0x002 8) { arith with cur := ⟨0, 0⟩ }) (fun t => regX t 8 == 0) = true ∧
    nextHas (exec (.kswap 0x012 1 8) arith) (fun t => (me t).vtrap && regX t 8 == 0) = true := by decide +kernel

def leaseState (l : Option Lease) (r : List LeaseReq) : State :=
  setBerth arith 0 { berthOf arith 0 with mat := { MatArray.reset with lease := l, reqs := r } }

theorem witness_LeaseCountReads :
    let s := leaseState (some ⟨0, 0, 127, 0⟩) []; let z := leaseState (some ⟨0, 0, 0, 0⟩) []
    let r := leaseState none [⟨0, 0, 64, none, 0, none⟩]
    writableX s 8 ∧ (berthOf s 0).mat.lease = some ⟨0, 0, 127, 0⟩ ∧ (berthOf z 0).mat.lease = some ⟨0, 0, 0, 0⟩ ∧
    holdsLease (berthOf r 0).mat 0 0 = false ∧ ((berthOf r 0).mat.reqs.find? (isLeaseReq 0 0)).isSome ∧
    holdsLease (berthOf arith 0).mat 0 0 = false ∧ (berthOf arith 0).mat.reqs.find? (isLeaseReq 0 0) = none ∧
    nextHas (exec (.kread 0x040 8) s) (fun t => regX t 8 == 255) ∧ nextHas (exec (.kread 0x040 8) r) (fun t => regX t 8 == 64) := by
  decide +kernel

/-- A task that waits for a load, one that does not, and one whose trap handler would be its own core's. -/
def waitingState : State :=
  { arith with reqs := [(0, ⟨0, 0, 0, 0, .x 9, 0, .load [] false, none, 0, false, true, 0, 0⟩)], nextReq := 1 }

theorem witness_TrapEntry :
    let h := { arith with parts := [(0, { Partition.reset with comp := [(0, 0x8005)] })] }
    trapSettles waitingState 0 0 = false ∧ trapSettles arith 0 0 = true ∧ MemSafe arith ∧ recordBase 0 0 = localBase 0 + 0x3C000 ∧ cBREAK ≠ cPAGENR ∧ cBREAK ≠ cPAGEPERM ∧
    trapNested h 0 (me h) = false ∧ (compEntry h 0 (otypeOf (me h))).isSome ∧ trapNested arith 0 (me arith) = true ∧
    (me (trapAt h 0 0 cBREAK 7 true)).mode = .trapped ∧ (me (trapAt h 0 0 cBREAK 7 true)).seq = 1 ∧
    (trapAt h 0 0 cBREAK 7 true).mesh.length = 1 := by decide +kernel

/-- R346 to R348: the trap of `svc 5` is written to the context's record in the local store. -/
theorem test_trap_record :
    nextHas (exec (.svc 5) arith) (fun t => (me t).ktrap == cSVC && (me t).ktdetail == 5 &&
      (me t).ktrpc == (me arith).pc.setWidth 48 && memByte t.mem (localBase 0 + 0x3C000 + 8) == 5) = true := by decide +kernel

theorem witness_FieldRulesTrap : (Instr.add 1 0 0 2 1 3).encoded = true ∧ (Instr.add 1 0 0 2 1 3).fieldFault = some 3 ∧
    nextHas (exec (.add 1 0 0 2 1 3) arith) (trapped cILLEGAL 0x0000000680041181) = true := by
  decide +kernel

/-- A request of context 0 of core 0 for the context that handle 0x10000 names: core 0, context 0, sequence number 1. -/
def resumeState (mode : CtxMode) (berth : Berth) (r : Req) : State :=
  { setCtx (setBerth upState 0 berth) 0 0 { Ctx.reset with mode := mode, seq := 1 } with reqs := [(3, r)] }

def resumeReq : Req := ⟨1, 0, 0, 0, .x 5, 0, .resume 0x10000 false, none, 0, false, true, 0, 0⟩

theorem witness_TrapInstructions : readableX arith 6 ∧ writableX arith 8 ∧ fieldOf (regX arith 6) 32 32 = 0 ∧
    fieldOf (regX (withX arith 6 0x10000) 6) 11 5 = 0 ∧ outstanding arith 0 0 = false ∧ accessesDone arith ∧ releaseReady arith (myBerth arith) 4 = true ∧ fieldOf (regX arith 5) 32 32 ≠ 0 ∧
    nextHas (exec .halt arith) (trapped cBREAK 0x1000) ∧
    nextHas (exec (.brk 3) (setBerth arith 0 { berthOf arith 0 with dbg := { Debug.reset with ctl := 8 } }))
      (fun t => (berthOf t 0).dbg.halted && (berthOf t 0).dbg.why == 2) := by decide +kernel

theorem witness_ResumeCommands :
    let own := { Berth.reset with owner := 0 }
    let s := resumeState .trapped own resumeReq
    let held := resumeState .trapped { Berth.reset with owner := 0x80, saved := [⟨0, [], [], [], []⟩] } resumeReq
    coreRuns s 0 0 = true ∧ coreRuns (resumeState .trapped Berth.reset resumeReq) 0 0 = false ∧
    coreHolds (resumeState .trapped Berth.reset resumeReq) 0 0 = false ∧ coreRuns held 0 0 = false ∧ coreHolds held 0 0 = true ∧ s.reqs.length = 1 ∧ (berthOf s 0).dbg.halted = false ∧ (ctxOf s 0 0).netTask.isSome = false ∧
    crossingHeld s resumeReq.part (coreQuay resumeReq.core) (coreQuay (handleCore 0x10000)) = false ∧
    (let h := setBerth s 0 { own with dbg := { own.dbg with halted := true } }; coreRuns h 0 0 = true ∧ nextIs (exec (.tretCommandServe 3) h) h) ∧
    nextHas (exec (.tretCommandServe 3) s) (fun t => (ctxOf t 0 0).mode == .running &&
      (tabFind? t.reqs 3).map (·.reply) == some (some (.value 0))) ∧
    nextHas (exec (.tretCommandServe 3) held) (fun t => (tabFind? t.reqs 3).map (·.held) == some true) ∧
    nextHas (exec (.tretStatusDelivery 3) (resumeState .running own { resumeReq with core := 0, reply := some (.value 4) }))
      (fun t => tabGet 0 (ctxOf t 0 0).x 5 == 4) := by decide +kernel


/-! ### Memory and capabilities -/

/-- c1: the core's local store as bytes; c2 as doubles; c3 as capabilities; c4 the A buffer as FP32, two rows of four; c5 untagged.
The double at offset 64 is 0x8877665544332211. -/
def store : State :=
  let s := taskState { Ctx.reset with
    x := [(1, 64), (2, 8), (3, 0xFFFFFFFFFFFFFF80), (6, 2)]
    v := [(1, 0x0F0E0D0C0B0A09080706050403020100)]
    c := [(1, capMake1 (localBase 0) fRAW8 4096 0xFF 4), (2, capMake1 (localBase 0) 0x07 512 0xFF 4), (3, capMake1 (localBase 0) fCAP 128 0xFF 4),
      (4, capMake1 (winBase 0xD 0 0) fFP32 4 0xFF 4), (5, capUntag (capMake1 (localBase 0) fRAW8 4096 0xFF 4)),
      (6, capMake1 (localBase 0 + 64) 0x01 16 0xFF 4)] }
  { s with mem := memWrite [] (localBase 0 + 64) [0x11, 0x22, 0x33, 0x44, 0x55, 0x66, 0x77, 0x88] }

def bits64 : Nat := 8 * (localBase 0 + 64)

/-- Whether an access check answers a bit address and a width. -/
def accessIs (r : Chk (Nat × Nat)) (bit w : Nat) : Bool := match r with | .ok x => x == (bit, w) | .error _ => false

theorem witness_Loads :
    readableX store 1 ∧ readableX store 0 ∧ readableC store 1 ∧ readableC store 2 ∧
    accessIs (capAccess 0 (regC store 1) 1 0 pL (tuple 64 0) 8) bits64 8 ∧ accessIs (capAccess 0 (regC store 1) 1 0 pL (tuple 64 0) 32) bits64 32 ∧
    accessIs (capAccess 0 (regC store 1) 1 0 pL (tuple 4088 0) 64) (8 * (localBase 0 + 4088)) 64 ∧
    accessIs (capAccess 0 (regC store 2) 2 0 pL (tuple 8 0) 64) bits64 64 ∧ unwatched store 0 [bitsBytes bits64 64] ∧
    answers (herePieces 0 bits64 64 store) (fun ps t => t == store && decide (ps = [⟨localBase 0 + 64, 0, 64, false⟩] ∧
      unhindered t ps false ∧ writableX t 8)) := by decide +kernel

/-- R82, R83: a load's request and its delivery: the byte at 64 + 7 is 0x88, signed and unsigned. -/
theorem test_loads :
    ([(.ldB 0 0 0 0 4 1 8, 0xFFFFFFFFFFFFFF88), (.ldBu 0 0 0 0 4 1 8, 0x88), (.ldH 0 0 0 0 1 1 8, 0x2211), (.ldW 0 0 0 0 1 1 8, 0x44332211),
      (.ldD 0 0 0 0 2 2 8, 0x8877665544332211)] : List (Instr × Dbl)).all (fun e =>
        nextHas (exec e.1 (withX store 4 71)) fun t => tabGet .full (me t).xs 8 == .empty &&
          nextHas (exec (.loadDelivery 0) t) fun u => regX u 8 == e.2 && tabGet .full (me u).xs 8 == .full) = true ∧
    nextHas (exec (.ldB 0 0 0 0 1 5 8) store) (trapped cTAG 0x1500000000000000) = true ∧
    nextHas (exec (.ldB 0 0 0 0 3 1 8) store) (trapped cBOUNDS 0x5100FFFFFFFFFF80) = true := by decide +kernel

def loadState : State :=
  { store with reqs := [(2, ⟨0, 0, 0, 0, .x 8, 0, .load [⟨localBase 0 + 128, 0, 8, false⟩] true, none, 0, false, true, 0, 0⟩),
    (3, ⟨0, 0, 0, 0, .c 8, 0, .clc ⟨localBase 0 + 64, 0, 256, false⟩ true, none, 0, false, true, 0, 0⟩)] }

theorem witness_LoadsDeliver : let r := (tabFind? loadState.reqs 2).getD resumeReq; let q := (tabFind? loadState.reqs 3).getD resumeReq
    taskGone loadState r = false ∧ taskGone loadState q = false ∧ (coreOf loadState 0).obs = [] ∧ firstOfOverlap loadState 2 r = true ∧
    firstOfOverlap loadState 3 q = true ∧ recalled loadState [⟨localBase 0 + 128, 0, 8, false⟩] = false ∧
    unreadable loadState 0 ⟨localBase 0 + 128, 0, 8, false⟩ = false ∧ (ctxOf loadState 0 0).rev1 = false ∧
    piecesReady loadState 0 [⟨localBase 0 + 64, 0, 256, false⟩] = true ∧
    mapHeld loadState 0 (readGranule loadState 0 ⟨localBase 0 + 64, 0, 256, false⟩).1 = false ∧ bandHeld loadState 0 0 [⟨localBase 0 + 128, 0, 8, false⟩] = false ∧
    bandHeld loadState 0 0 [⟨localBase 0 + 64, 0, 256, false⟩] = false ∧ recalled loadState [⟨localBase 0 + 64, 0, 256, false⟩] = false ∧
    unreadable loadState 0 ⟨localBase 0 + 64, 0, 256, false⟩ = false ∧ nextHas (exec (.clcDelivery 3) loadState) (fun t => (regC t 8).tag == false &&
      (regC t 8).bits == 0x8877665544332211) := by decide +kernel

/-- Loads of 8 bits into v8 and into the scalar and the vector queue of core 1, to the east. -/
def wideLoads : State :=
  let r := fun (n : Nat) (d : Dest) (signed : Bool) => (⟨0, 0, 0, 0, d, 0, .load [⟨localBase 0 + n, 0, 8, false⟩] signed, none, 0, false, true, 0, 0⟩ : Req)
  let s := setCore loadState 1 { Core.reset with links := [(linkKey 3 false, [.reserved 5]), (linkKey 3 true, [.ready 1, .reserved 6])] }
  { s with reqs := [(4, r 70 (.v 8) false), (5, r 71 (.port 1 false) true), (6, r 69 (.port 1 true) false)] }

theorem witness_LoadsDeliver_wide : neighbour 0 1 = some 1 ∧
    (wideLoads.reqs.all fun e => !taskGone wideLoads e.2 && firstOfOverlap wideLoads e.1 e.2) = true ∧
    recalled wideLoads [⟨localBase 0 + 71, 0, 8, false⟩] = false ∧ bandHeld wideLoads 0 0 [⟨localBase 0 + 71, 0, 8, false⟩] = false ∧
    unreadable wideLoads 0 ⟨localBase 0 + 71, 0, 8, false⟩ = false ∧ (ctxOf wideLoads 0 0).rev1 = false ∧
    nextHas (exec (.loadDelivery 4) wideLoads) (fun t => regV t 8 == 0x77) ∧
    nextHas (exec (.loadDelivery 5) wideLoads) (fun t => tabGet [] (coreOf t 1).links (linkKey 3 false) == [.ready 0xFFFFFFFFFFFFFF88]) ∧
    nextHas (exec (.loadDelivery 6) wideLoads) (fun t => tabGet [] (coreOf t 1).links (linkKey 3 true) == [.ready 1, .ready 0x66]) := by
  decide +kernel

theorem witness_StoresWrite : readableX store 1 ∧ readableX store 3 ∧ readableC store 1 ∧
    accessIs (capAccess 0 (regC store 1) 1 0 pS (tuple 64 0) 8) bits64 8 ∧ unwatched store 1 [bitsBytes bits64 8] ∧
    answers (herePieces 1 bits64 8 store) (fun ps t => t == store && decide (unhindered t ps true) && !lineMarked t (ps.headD ⟨0, 0, 0, false⟩) &&
      decide (homeServed t (homePieces t ps none))) ∧
    lineMarked { store with phases := [(localBase 0 + 72, [])] } ⟨localBase 0 + 64, 0, 8, false⟩ = true ∧
    nextHas (exec (.stH 0 0 0 0 1 1 3) store) (fun t => memByte t.mem (localBase 0 + 64) == 0x80 &&
      memByte t.mem (localBase 0 + 65) == 0xFF && memByte t.mem (localBase 0 + 66) == 0x33) := by decide +kernel

/-- A package whose berth 0 holds 1,024 dirty lines in its L1, so that the cache is full. -/
def fullL1 : State := setBerth store 0 { berthOf store 0 with l1 := (List.range 1024).map fun n => (0x1000 + n, ⟨0, 1, 1⟩) }

/-- A copy that owns the first of those lines until its element 3 is written. -/
def ownedState : State :=
  let c : Copy := ⟨1, 4, 0, 0, 0, 0, 1, 0, Cap.null, Cap.null, Cap.null, 0, [], none, [], 0, true, none, none, 0, [(0x1000, 3)], [], [], [], false⟩
  setBerth store 0 { berthOf store 0 with l1 := [(0x1000, ⟨0, 1, 1⟩)], chans := [(4, [c])] }

/-- A cached piece of translated memory at the end of a line, whole and not, with room in the L1 and without. -/
theorem witness_StoreFrames : MemSafe store ∧ MemSafe State.reset ∧
    (let p : Piece := ⟨0x1038, 0, 64, true⟩; p.bit = 0 ∧ p.width % 8 = 0 ∧ p.key % 64 + pieceBytes p ≤ 64 ∧
      (readPiece (writePiece store 0 false p 0xABCD) 0 false p).1 = 0xABCD ∧ memByte (writePiece store 0 false p 0xABCD).mem 0x1038 = 0 ∧
      memByte (writePiece store 0 true p 0xABCD).mem 0x1038 = 0xCD) ∧
    lineFits (berthOf store 0).l1 (0x1038 / 64) l1Lines = true ∧ lineFits (berthOf fullL1 0).l1 (0x1038 / 64) l1Lines = false ∧
    lineFits (berthOf fullL1 0).l1 0x13FF l1Lines = true ∧ MemSafe fullL1 ∧
    ¬ ((⟨0x1038, 4, 4, true⟩ : Piece).bit = 0) ∧ ¬ inPiece ⟨0x1038, 0, 64, true⟩ 0x1040 ∧ inPiece ⟨0x1038, 0, 64, true⟩ 0x103F ∧
    isTranslated (bits64 / 8) = false ∧ isTranslated ((bits64 + min 512 (512 - bits64 % 512)) / 8) = false := by decide +kernel

theorem witness_VectorAccesses : readableV store 1 ∧ writableV store 2 ∧
    answers ((vecAccess 0 (regC store 6) 6 pL (tuple 0 0) false).map fun x => (x, store)) (fun x _ =>
      unwatched store 0 (x.1.map fun a => bitsBytes a x.2) &&
      answers (collect (fun a => herePieces 0 a x.2) x.1 store) (fun ps t => decide (unhindered t ps.flatten false)) &&
      x.1.length == 16 && x.2 == 8) ∧
    answers ((vecAccess 0 (regC store 6) 6 pS (tuple 0 0) false).map fun x => (x, store)) (fun x _ =>
      unwatched store 1 (x.1.map fun a => bitsBytes a x.2) && answers (collect (fun a => herePieces 1 a x.2) x.1 store) (fun ps t =>
        decide (unhindered t ps.flatten true ∧ homeServed t (homePieces t ps.flatten none)) && !(ps.flatten.any fun p => lineMarked t p))) ∧
    nextHas (exec (.stv 0 0 6 1) store) (fun t => memByte t.mem (localBase 0 + 79) == 0x0F && memByte t.mem (localBase 0 + 64) == 0) ∧
    nextHas (exec (.ldv 0 0 6 2) store) (fun t => nextHas (exec (.loadDelivery 0) t) fun u => regV u 2 == 0x8877665544332211) := by
  decide +kernel

theorem witness_CapabilityAccesses : readableC store 3 ∧ writableC store 8 ∧ readableC store 1 ∧ (regC store 1).tag = true ∧
    accessIs (granuleAccess 0 (regC store 3) 3 pL (tuple 2 0)) bits64 256 ∧ accessIs (granuleAccess 0 (regC store 3) 3 pS (tuple 2 0)) bits64 256 ∧
    capHas (regC store 3) pSC = true ∧ regionScope (localBase 0 + 64) ≤ capScope (regC store 1) ∧
    answers (translate 0 0 (localBase 0 + 64) 3 false store) (fun p t => t == store && p.key == localBase 0 + 64 && !p.cached &&
      decide (unhindered t [⟨p.key, 0, 256, p.cached⟩] true) && !lineMarked t ⟨p.key, 0, 256, p.cached⟩ &&
      decide (homeServed t (homePieces t [⟨p.key, 0, 256, p.cached⟩] (some (regC store 1))) ∧ homeServed t [⟨p.key, 0, 256, p.cached⟩])) ∧
    (let noSc := withC store 3 (capMake1 (localBase 0) fCAP 128 (0xFF - pSC) 4); let far := withC store 3 (capMake1 0x1000 fCAP 128 0xFF 4); let near := withC far 1 (capMake1 (localBase 0) fRAW8 64 0xFF 0)
      capHas (regC noSc 3) pSC = false ∧ accessIs (granuleAccess 0 (regC noSc 3) 3 pS (tuple 2 0)) bits64 256 ∧
      nextHas (exec (.csc 0 0 0 0 6 3 1) noSc) (fun t => (me t).ktrap == cPERM) ∧
      (regC near 1).tag = true ∧ accessIs (granuleAccess 0 (regC near 3) 3 pS (tuple 2 0)) (8 * 0x1040) 256 ∧ capScope (regC near 1) < regionScope 0x1040 ∧
      nextHas (exec (.csc 0 0 0 0 6 3 1) near) (fun t => (me t).ktrap == cSCOPE)) ∧
    accessIs (capAccess 0 (regC store 3) 3 0 pL (tuple 2 0) 0) bits64 0 ∧ unwatched store 0 [(bits64 / 8, 1)] ∧
    ownConflict store 0 0 ⟨localBase 0 + 64, 0, 256, false⟩ true = false ∧ writableX store 8 ∧
    nextHas (exec (.csc 0 0 0 0 6 3 1) store) (fun t => tagAt t (localBase 0 + 64) &&
      nextHas (exec (.ctag 0 0 0 0 6 3 8) t) (fun u => regX u 8 == 1) &&
      nextHas (exec (.clc 0 0 0 0 6 3 8) t) fun u => nextHas (exec (.clcDelivery 0) u) fun w => regC w 8 == regC store 1) := by
  decide +kernel

theorem witness_FencesOrder : accessesDone store ∧ accessesDone ownedState ∧ releaseReady store (myBerth store) 4 = true ∧
    releaseReady store (myBerth store) 0 = true ∧ releaseReady store (myBerth store) 5 = true ∧ releaseReady ownedState (myBerth ownedState) 1 = false ∧
    nextIs (exec (.fence 1 2) ownedState) (waits ownedState .other) ∧ (0 : BitVec 3).toNat < 6 ∧ (5 : BitVec 3).toNat < 6 ∧ writableX store 8 ∧
    (let c := capMake1 0x1000 fRAW8 512 0xFF 4
     c.tag = true ∧ capSealed c = false ∧ capHas c pL = true ∧ isTranslated (capBase c) = true ∧ elemBits (capFmt c) = some 8 ∧
     (boxRange c 8).2 - (boxRange c 8).1 < 2 ^ 24 ∧
     let up := fun (b : Dbl) => withC { store with parts := [(0, { Partition.reset with trRoot := BitVec.ofNat 64 extSplit, grant := [(0, BitVec.ofNat 64 (2 ^ 63 + extSplit))], gsize := [(0, 1)], bands := (List.range 24).map fun i => (i, b) })] } 7 c
     let join := fun (s : State) => joinRange (myBerth s) (me s).part ((List.range 3).map (· + 0x10)) (release s (myBerth s) 4)
     answers (join (up 0x060501)) (fun n _ => n == 0) ∧ nextHas (exec (.dcfence 7 8) (up 0x060501)) (fun t => regX t 8 == 0) ∧
     (match join (up 0) with | .error e => e == .stall .other | .ok _ => false : Bool) = true ∧ nextIs (exec (.dcfence 7 8) (up 0)) (waits (up 0) .other)) ∧
    nextHas (exec (.fence 5 3) store) (fun t => (me t).pc == (me store).pc + 4) := by decide +kernel

theorem witness_CapabilityInstructions : readableX store 6 ∧ readableC store 1 ∧ writableC store 8 ∧
    (let key := capSet (capMake1 0 fRAW8 1 pK 4) 236 12 0x123
     let s := withC store 7 key
     readableC s 7 ∧ (regC s 7).tag = true ∧ capSealed (regC s 7) = false ∧ capHas (regC s 7) pK = true ∧ capSealed (regC s 1) = false ∧
     nextHas (exec (.cseal 7 1 8) s) (fun t => capSealed (regC t 8) && capOtype (regC t 8) == 0x123 && capFmt (regC t 8) != fTOKEN &&
       nextHas (exec (.cunseal 7 8 9) t) fun u => !capSealed (regC u 9) && capBase (regC u 9) == localBase 0)) ∧
    nextHas (exec (.crestrict 0 0 6 1 8) store) (fun t => capPerm (regC t 8) == pS && (regC t 8).tag) ∧
    nextHas (exec (.cslice 0 0 4 1 8) (withX store 4 0x2000100)) (fun t => capBase (regC t 8) == localBase 0 + 16 && capExt (regC t 8) 0 == 8) ∧
    nextHas (exec (.cscope 0 0 2 5 8) store) (trapped cTAG 0x1500000000000000) ∧
    nextHas (exec (.cget 15 1 8) store) (fun _ => true) := by decide +kernel

def callState : State :=
  let f := capSet (capSet (capMake1 0x4000 fRAW8 64 (pL + pX) 4) 236 12 7) 235 1 1
  withC (withC store 8 f) 9 (capSet (capSet (capMake1 0x8000 fRAW8 64 pL 4) 236 12 7) 235 1 1)

theorem witness_CallsAndReturns : (11 : BitVec 5).toNat < 12 ∧ settledHere callState ∧ readableC callState 8 ∧ readableC callState 9 ∧ readableC callState 14 ∧ readableC callState 15 ∧
    (regC callState 8).tag = true ∧ (regC callState 9).tag = true ∧ capSealed (regC callState 8) = true ∧ capSealed (regC callState 9) = true ∧
    capFmt (regC callState 8) ≠ fTOKEN ∧ capFmt (regC callState 9) ≠ fTOKEN ∧ capOtype (regC callState 8) = capOtype (regC callState 9) ∧
    capHas (regC callState 8) pX = true ∧ capFmt (regC callState 8) ≠ fN8 ∧ releaseReady callState (myBerth callState) 3 = true ∧ (me callState).frames.length < 8 ∧
    nextHas (exec (.ccall 9 8 1) callState) (fun t => (me t).pc == 0x4000 && regC t 1 == Cap.null && regC t 2 == regC callState 2 &&
      regC t 3 == Cap.null && capBase (regC t 14) == 0x8000 && !capSealed (regC t 14) && decide (readableC t 15) &&
      (regC t 15).tag && capSealed (regC t 15) && capFmt (regC t 15) == fTOKEN && bitsAt (capBase (regC t 15)) 0 32 == 1 &&
      bitsAt (capBase (regC t 15)) 32 4 == 1 &&
      nextHas (exec (.cret 0) t) fun u => (me u).pc == (me store).pc + 4 && (me u).frames == [] && regC u 2 == Cap.null) := by
  decide +kernel


/-! ### Translated memory, sweeps, messages and tasks -/

/-- Partition 0 with the first 2 GiB of its addresses mapped to the same physical addresses. -/
def mappedPart : Partition := { Partition.reset with bands := (List.range 24).map (fun i => (i, 0x060501)), trRoot := 0x1000, grant := [(0, 0x8000000000000000)], gsize := [(0, 0x10000)] }
def mappedMem : List Host.Cell :=
  memWrite (memWrite (memWrite [] 0x1000 (bytesOf 8 0x2001)) 0x2000 (bytesOf 8 0x3F)) 0x2008 (bytesOf 8 0x4000003F)
def mapped (s : State) : State := { s with parts := [(0, mappedPart)], mem := mappedMem }

/-- R116 to R120: the walk of an address in the second GiB, and of one whose entry is not valid. -/
theorem test_walk :
    answers (translate 0 0 0x40001234 0 false (mapped arith)) (fun p _ => p.key == 0x40001234 && p.cached && p.tagOk) = true ∧
    (match translate 0 0 0x80000000 1 false (mapped arith) with
      | .error e => e == .page 0 0x4100000080000000
      | .ok _ => false) = true := by decide +kernel

/-- A sweep of the heap at 0x10000, whose map at 0x20000 revokes its first granule, at a stage. -/
def sweepState (stage : BitVec 3) (pend : Bool) : State :=
  let s := mapped (taskState { Ctx.reset with c := [(1, capMake1 0x10100 fRAW8 16 3 4), (2, capMake1 0x10200 fRAW8 16 3 4)] })
  { s with
    parts := [(0, { mappedPart with dr := { Dredger.reset with
      heap := 0x10000, size := 4, map := 0x20000, ctl := 0x30000, begun := if pend then 0 else 1, pend := pend, stage := stage } })]
    mem := memWrite mappedMem 0x20000 [1] }

theorem witness_SweepsClear :
    sweeping (partOf (sweepState 0 true) 0).dr = false ∧ (partOf (sweepState 0 true) 0).dr.pend = true ∧
    fieldOf (partOf (sweepState 0 true) 0).dr.size 0 28 ≠ 0 ∧
    ([3, 4, 5, 6] : List (BitVec 3)).all (fun g => sweeping (partOf (sweepState g false) 0).dr && (partOf (sweepState g false) 0).dr.stage == g) ∧
    ((sweepState 6 false).berths.all fun b => b.2.mat.queue.isEmpty) ∧ fieldOf 0x8000001 0 28 = 0x8000001 ∧ 0x8000000 < 0x8000001 ∧
    counterHeld (sweepState 0 true) 0 = false ∧ mapsHeld (sweepState 0 true) 0 (lighterCaps (sweepState 0 true) 0) = false ∧
    (let s := sweepState 3 false; let seen := heldCaps s 0 ++ lighterCaps s 0; mapsHeld s 0 seen = false ∧ seen.length ≠ 0 ∧
      mapsHeld s 0 (seen ++ tagCaps s (localGranule s 0)) = false ∧
      mapsHeld s 0 (seen ++ tagCaps s (fun t => localGranule s 0 t || (decide (t * 32 < extEnd) && inGrants (partOf s 0) (t * 32) 32)) ++ keptCaps s 0) = false ∧
      s.tags = []) ∧
    cachesReady (sweepState 6 false) = true ∧ counterHeld (sweepState 6 false) 0 = false ∧
    mapsHeld (sweepState 6 false) 0 (lighterCaps (sweepState 6 false) 0) = false ∧
    nextHas (exec (.sweepStart 0) (sweepState 0 true)) (fun t => (partOf t 0).dr.begun == 1 && (partOf t 0).dr.stage == 3) ∧
    nextHas (exec (.sweepRegisters 0) (sweepState 3 false)) (fun t => !(regC t 1).tag && (regC t 2).tag && (partOf t 0).dr.stage == 4) ∧
    nextHas (exec (.sweepEnd 0) (sweepState 6 false)) (fun t => (partOf t 0).dr.ended == 1 && (partOf t 0).dr.stage == 0) := by
  decide +kernel

/-- x1: a header with one word for core 0, channel 3; x2: one with a capability word; x4: seven words. -/
def sender : State := taskState { Ctx.reset with
  x := [(1, 0x10C00), (2, 0xF0C00), (4, 0x70C00), (5, 0x55), (11, 0x11), (12, 0x12)]
  v := [(1, 0x22)]
  c := [(1, localCap 0)] }

theorem witness_SendsQueue : readableX sender 1 ∧ sendable sender (regX sender 1) 0 ∧ blockReady sender 5 1 ∧ blockReady sender 27 1 ∧
    sendable sender (setField (regX sender 2) 14 2 2) 1 ∧ payloadCount (regX sender 2) = 3 ∧ blockReady sender 11 3 := by
  refine ⟨?_, ?_, ?_, ?_, ?_, ?_, ?_⟩ <;> decide +kernel

theorem witness_SendsQueue_neighbour :
    (neighbour sender.cur.core 0).isNone ∧ (neighbour sender.cur.core 1).isSome ∧
    sendable sender (setField (setField (regX sender 1) 0 9 1) 9 1 0) 0 ∧ hdrCapword (regX sender 1) = false ∧
    (1 : BitVec 5).toNat + (hdrN (regX sender 1) + 1) / 2 ≤ 28 ∧ (24 : BitVec 5).toNat + (hdrN (regX sender 4) + 1) / 2 ≤ 28 := by
  decide +kernel

theorem test_sends :
    nextIs (exec (.sendRq 0 0 0 5 1 0) sender) (after (queued sender (sentMessage sender 0x10C00 [0x55] 0)) 4) ∧
    nextIs (exec (.sendSy 0 0 0 11 2 1) sender) (after (queued sender (sentMessage sender 0xF8C00 [0x11, 0x12, 0] 1)) 4) ∧
    nextIs (exec (.sendnE 0 0 0 5 1 0) sender) (after (queued sender (sentMessage sender 0x10C01 [0x55] 0)) 4) ∧
    nextIs (exec (.sendv 0 0 0 1 1) sender) (after (queued sender (sentMessage sender 0x10C00 [0x22] 0)) 4) ∧
    nextHas (exec (.sendnN 0 0 0 5 1 0) sender) (trapped cNOLINK 0) := by decide +kernel

/-- A task that a message from core 7 started, one word, reply channel 2, with and without bounce. -/
def started (kind : MsgKind) (bounce : Bool) : State :=
  withMe sender { me sender with ktask := header 0x99 0 1 (boolBit bounce) 2 7 0 1 0 3 0, kind := kind }

/-- The same task as one that a NET request counts, and with a capability in c13 of which its header speaks and whose scope ends at the core. -/
def netTasked (s : State) : State := withMe s { me s with netTask := some 0 }
def farCap (s : State) : State :=
  let x := me s
  withC (withMe s { x with ktask := header 0x99 0 1 1 2 7 1 1 0 3 0 }) 13 (capMake1 (localBase 0) fRAW8 64 pL 0)

theorem witness_RepliesAndTaskEnds : replies (me (started .sent true)).kind = true ∧
    sendable (started .sent true) (replyHeader (me (started .sent true)).ktask 1 false) 0 ∧ blockReady (started .sent true) 5 1 ∧
    (hdrBounce (me (started .sent false)).ktask && replies .sent) = false ∧ (hdrBounce (me (started .sent true)).ktask && replies .sent) = true ∧
    sendQueued (started .sent true) 0 1 < 8 ∧ endable (started .sent true) ∧ endable (netTasked (started .sent true)) ∧
    (me (netTasked (started .sent true))).netTask.isSome = true ∧
    nextHas (exec .cDone (netTasked (started .sent true))) (fun t => (ctxOf t 0 0).mode == .free) ∧
    (let s := farCap (started .sent true); hdrCapword (me s).ktask = true ∧ readableC s 13 ∧ (regC s 13).tag = true ∧
      capScope (regC s 13) < distance s.cur.core (hdrSrc (me s).ktask) ∧ nextHas (exec .bounce s) (fun t => (me t).ktrap == cSCOPE) ∧
      distance s.cur.core 0 ≤ capScope (regC s 13)) ∧ readableX (started .sent true) 1 ∧ readableC (started .sent true) 13 ∧
    nextHas (exec (.reply 0 0 0 5 1 0) (started .sent true)) (fun t => ((tabGet [] (coreOf t 0).sendq 1).map fun f =>
      (hdrDst f.header, hdrCh f.header, hdrVn f.header, hdrUtag f.header, f.words)) == [(7, 2, 1, 0x99, [0x55])]) ∧
    nextHas (exec .bounce (started .sent true)) (fun t => (ctxOf t 0 0).mode == .free && (coreOf t 0).drop == 0 &&
      (tabGet [] (coreOf t 0).sendq 1).length == 1) ∧
    nextHas (exec .bounce (started .sent false)) (fun t => (ctxOf t 0 0).mode == .free && (coreOf t 0).drop == 1) ∧
    nextHas (exec .cDone (started .sent false)) (fun t => (ctxOf t 0 0).mode == .free) := by decide +kernel

theorem witness_ChannelControls : let s := withX (withX sender 6 0xFFFF) 7 0x10000; let z := withX (withX sender 6 15) 7 3
    readableX s 6 ∧ readableX s 7 ∧ writableX s 8 ∧ (regX s 6).toNat < 2 ^ 16 ∧ ¬ ((regX s 7).toNat < 2 ^ 16 ∧ (regX s 6).toNat < 2 ^ 16) ∧
    (regX z 6).toNat < 16 ∧ (regX z 7).toNat < 4 ∧ ¬ ((regX s 7).toNat < 16 ∧ (regX s 6).toNat < 4) ∧
    nextHas (exec (.chmask 0 0 0 6 6 8) s) (fun t => (coreOf t 0).chmask == 0xFFFF && regX t 8 == 0) ∧
    nextHas (exec (.chprio 0 0 0 7 6 8) z) (fun t => (coreOf t 0).chprio == 0xC0000000 && regX t 8 == 0) ∧
    nextHas (exec (.chmask 0 0 0 6 7 8) s) (fun t => (me t).ktrap == cILLEGAL) := by decide +kernel

/-- A message for core 0 on channel 3, and a core that binds the channel. -/
def flight : Flight := ⟨header 0x99 0 1 0 2 7 0 1 0 3 0, [0x77], Cap.null, 0, .sent, .core 7, 7, none, none, false, 0, 0⟩
def binding : Binding := ⟨capMake1 (localBase 0) fRAW8 64 (pL + pX) 0, BitVec.ofNat 48 (localBase 0), localCap 0, false, 0, false, 0⟩
def travelling (bound : Bool) : State :=
  { setCore upState 0 { Core.reset with
      bind := if bound then [(3, binding)] else []
      sendq := [(0, [flight])]
      links := [(6, [.ready 1, .flying 2])]
      ctxs := [(0, { Ctx.reset with mode := .running, window := some 0 })] } with
    mesh := [flight]
    clk := 64 }

theorem witness_MessagesTravel : let s := travelling true; let w := takeReserved { s with mesh := [] } flight; let u := w.2
    tabGet [] (coreOf s 0).sendq 0 = [flight] ∧ s.mesh[0]? = some flight ∧ hdrLogical flight.header = false ∧ hdrDst flight.header = 0 ∧
    w.1 = flight ∧ flight.kind = .sent ∧ quayLost u (coreQuay 0) = false ∧ berthPart u (coreBerth 0) = some flight.part ∧ (coreOf u 0).preempted = false ∧
    tabGet [] (coreOf u 0).spill flight.part = [] ∧ (handlerOf u binding flight).isSome = true ∧ inboxRoom (inboxOf u 0) 0 = true ∧ repliesBefore s flight = false ∧
    orderable u flight.part ∧ messageHeld s flight = false ∧ sameStream s flight flight = true ∧ (berthOf s 0).dbg.halted = false ∧
    beforeArrivals s flight flight = false ∧ hdrClass flight.header ≠ 0 ∧
    (let r := setCore { s with reqs := [(5, { resumeReq with sent := false })] } 0
      { coreOf s 0 with sendq := [(0, [{ flight with kind := .request 5 }])] };
      nextHas (exec (.messageLeavesSendQueue 0 0) r) (fun t => t.mesh == s.mesh && (tabFind? t.reqs 5).map (·.sent) == some true)) ∧ tabFind? (coreOf (travelling false) 0).bind 3 = none ∧
    tabGet [] (coreOf s 0).links (linkKey 2 true) = [.ready 1] ++ .flying 2 :: [] ∧ (ctxOf s 0 0).window = some 0 ∧ 0 + 64 ≤ s.clk ∧
    nextHas (exec (.messageLeavesSendQueue 0 0) s) (fun t => t.mesh == [flight, flight] && tabGet [] (coreOf t 0).sendq 0 == []) ∧
    nextHas (exec (.messageDelivery 0) s) (fun t => (coreOf t 0).inbox == [flight] && t.mesh == []) ∧
    nextHas (exec (.messageDelivery 0) (travelling false)) (fun t => (coreOf t 0).inbox == [] && (coreOf t 0).drop == 1) ∧
    nextHas (exec (.linkValueArrive 0 2 true) s) (fun t => tabGet [] (coreOf t 0).links 6 == [.ready 1, .ready 2]) ∧
    nextHas (exec (.followWindowClose 0 0) s) (fun t => (ctxOf t 0 0).window == none && (ctxOf t 0 0).pc == 4) := by decide +kernel

theorem witness_ready_links (v w : Quad) : LinkEntry.flying w ∉ [LinkEntry.ready v] := by simp

theorem witness_TasksStart :
    let s := setCore upState 0 { Core.reset with bind := [(3, binding)], inbox := [flight], ctxs := [(0, { Ctx.reset with mode := .running })] }
    (coreOf s 0).preempted = false ∧ (berthOf s 0).dbg.halted = false ∧ (quayOf s 0).mode = .up ∧ (ctxOf s 0 1).mode = .free ∧
    (∀ j < 1, (ctxOf s 0 j).mode ≠ .free) ∧ selectChannel (coreOf s 0) s.clk = some (3, 0) ∧
    (coreOf s 0).inbox.find? (fun f => hdrCh f.header == 3) = some flight ∧ handlerOf s binding flight = some (binding.entry, binding.epc) ∧
    capFmt binding.entry ≠ fN8 ∧ hdrCapword flight.header = false ∧ mapHeld s binding.part flight.cap = false ∧ releaseReady s (coreBerth 0) 3 = true ∧
    nextHas (exec (.taskStart 0) s) (fun t => let x := ctxOf t 0 1; x.mode == .running && x.pc == BitVec.ofNat 64 (localBase 0) &&
      tabGet 0 x.x 1 == 0x77 && tabGet 0 x.x 8 == flight.header && tabGet Cap.null x.c 1 == localCap 0 &&
      tabGet Cap.null x.c 14 == localCap 0 && (coreOf t 0).inbox == []) := by decide +kernel


/-! ### Synchronisation -/

/-- Atomics on the core's own local store: c2 as 32-bit words; x1 the index 16, x2 its other indices, x3 and x4 the operands. The word is 100. -/
def atomics : State :=
  let s := taskState { Ctx.reset with
    x := [(1, 16), (3, 7), (4, 9), (10, 16), (12, 100), (13, 55)]
    v := [(1, 0x00000004000000030000000200000001)]
    c := [(2, capMake1 (localBase 0) 0x05 512 0xFF 4), (3, capMake1 (localBase 0) 0x07 512 0xFF 4)] }
  { s with mem := memWrite [] (localBase 0 + 64) (bytesOf 4 100) }

/-- The state in which the request that an instruction has put into core 0's send queue has left it for its owner. -/
noncomputable def accepted (o : Host.Outcome State Fault Refusal) : Host.Outcome State Fault Refusal :=
  match o with
  | .next t => exec (.messageLeavesSendQueue 0 0) t
  | _ => o

theorem witness_Atomics : readableX atomics 1 ∧ readableX atomics 25 ∧ readableX atomics 27 ∧ readableC atomics 2 ∧
    accessIs (atomicAccess 0 (regC atomics 2) 2 0 (atomicFormats 0) (tuple 16 0)) (localBase 0 + 64) 32 ∧
    accessIs (atomicAccess 0 (regC atomics 2) 2 0 (atomicFormats 9) (tuple 16 0)) (localBase 0 + 64) 32 ∧
    unwatched atomics 1 [(localBase 0 + 64, 4)] ∧ answers (translate 0 0 (localBase 0 + 64) 1 false atomics) (fun p t =>
      t == atomics && p.key == localBase 0 + 64 && markAddr t (⟨p.key, 0, 32, p.cached⟩, 0, localBase 0 + 64) == none &&
      !ownConflict t 0 0 ⟨p.key, 0, 32, p.cached⟩ true && piecesReady t 0 [⟨p.key, 0, 32, p.cached⟩]) ∧
    writableX atomics 8 ∧ queueOpen atomics := by decide +kernel

/-- The same core with eight requests of other contexts in its send queue. -/
def crowded : State := setCore atomics 0 { coreOf atomics 0 with
  sendq := [(0, List.replicate 8 ⟨0, [], Cap.null, 0, .request 9, .core 0, 0, none, none, false, 0, 0⟩)] }

theorem witness_Atomics_full : ¬ queueOpen crowded ∧ writableX crowded 8 ∧ nextIs (exec (.aadd 0 1 2 8) crowded) (waits crowded .other) ∧
    nextIs (exec (.aredVAdd 1 2 1) crowded) (waits crowded .other) := by decide +kernel

/-- R276: what each atomic on 100 and 7 leaves, and that it gives back 100. -/
theorem test_atomics :
    ([(.aadd 0 1 2 8, 107), (.amin 0 1 2 8, 7), (.amaxu 0 1 2 8, 100), (.aor 0 1 2 8, 103), (.axor 0 1 2 8, 99), (.aswp 0 1 2 8, 7),
      (.acas 0 1 2 8, 100), (.acas 0 10 2 8, 55)] : List (Instr × Nat)).all (fun e =>
        nextHas (accepted (exec e.1 atomics)) fun t => nextHas (exec (.atomicServe 0) t) fun u =>
          natOfBytes (memRead u.mem (localBase 0 + 64) 4) == e.2 && nextHas (exec (.atomicReplyDelivery 0) u) fun w => regX w 8 == 100) = true := by
  decide +kernel

theorem witness_VectorReductions : readableX atomics 1 ∧ readableX atomics 26 ∧ readableX atomics 2 ∧ readableV atomics 27 ∧
    checkIs (capUse (regC atomics 2) 2 0 (pL + pS)) 32 ∧ vecCount 32 = 4 ∧
    (List.range 4).all (fun j => accessIs (atomicAccess 0 (regC atomics 2) 2 j [0x01, 0x02, 0x03, 0x04, 0x05, 0x06, 0x07]
      (vecTuple (tuple 16 0) false j)) (localBase 0 + 64 + 4 * j) 32) ∧
    queueOpen atomics ∧ nextHas (accepted (exec (.aredVAdd 1 2 1) atomics)) (fun t => nextHas (exec (.aredElementUpdate 0 0) t) fun u =>
      natOfBytes (memRead u.mem (localBase 0 + 64) 4) == 101 && nextHas (exec (.aredElementUpdate 0 1) u) fun v =>
      nextHas (exec (.aredElementUpdate 0 2) v) fun w => nextHas (exec (.aredElementUpdate 0 3) w) fun z =>
        natOfBytes (memRead z.mem (localBase 0 + 76) 4) == 4 && nextHas (exec (.aredAcknowledge 0) z) fun y => y.reqs == []) := by
  decide +kernel

theorem witness_AtomicsServed :
    nextHas (accepted (exec (.aadd 0 1 2 8) atomics)) (fun t => match tabFind? t.reqs 0 with
      | some r => r.sent && (marksMet t ⟨localBase 0 + 64, 0, 32, false⟩ == []) && !ownerLost t (localBase 0 + 64) && ownerServes t r (localBase 0 + 64) && ownerFree t r ⟨localBase 0 + 64, 0, 32, false⟩ &&
        decide (orderable t r.part) && !isBad t (localBase 0 + 64) 4 && r.reply == none && r.dst == .x 8 && !taskGone t r && (coreOf t 0).obs == []
      | none => false) ∧
    (marksMet { atomics with phases := [(localBase 0 + 64, [])] } ⟨localBase 0 + 64, 0, 32, false⟩).length = 1 ∧
    nextHas (accepted (exec (.aadd 0 1 2 8) atomics)) (fun t => nextHas (exec (.atomicServe 0) t) fun u => match tabFind? u.reqs 0 with
      | some r => r.reply == some (.value 100) && !earlierReply u 0 r && piecesReady u 0 [⟨localBase 0 + 64, 0, 32, false⟩]
      | none => false) ∧
    ownerLost (setQuay atomics 0 { Quay.reset with mode := .fenced }) (localBase 0 + 64) = true ∧
    isBad (setQuay atomics 0 { Quay.reset with badLines := [(localBase 0 / 64 + 1, [])] }) (localBase 0 + 64) 4 = true := by decide +kernel

/-- x5 the index 8 of a double, x6 a header for channel 3 of core 0, x7 the generation 0, x8 the user's word. -/
def phaser : State := withX (withX (withX atomics 5 8) 6 0xC00) 7 0

theorem witness_Phases : readableX phaser 5 ∧ readableC phaser 3 ∧
    checkIs (phaseAccess 0 (regC phaser 3) 3 ⟨8, 0, 0, 0⟩) (localBase 0 + 64) ∧
    unwatched phaser 1 [(localBase 0 + 64, 8)] ∧ answers (translate 0 0 (localBase 0 + 64) 1 false phaser) (fun p t =>
      t == phaser && !ownConflict t 0 0 ⟨p.key, 0, 64, p.cached⟩ true && piecesReady t 0 [⟨p.key, 0, 64, p.cached⟩] &&
      piecesReady (release t 0 4) 0 [⟨p.key, 0, 64, p.cached⟩]) ∧ accessesDone phaser ∧ releaseReady phaser (myBerth phaser) 4 = true ∧ readableX phaser 6 ∧ readableX phaser 8 ∧
    (regX phaser 7).toNat < 2 ^ 16 ∧ (5 : BitVec 5).toNat ≤ 24 ∧ (24 : BitVec 5).toNat ≤ 24 ∧
    hdrVn (setField (setField (regX phaser 6) 16 3 2) 19 1 0) < 2 ∧
    logicalOk phaser 0 (setField (setField (regX phaser 6) 16 3 2) 19 1 0) = true ∧
    tabFind? phaser.phases (localBase 0 + 64) = none := by decide +kernel

/-- R281 to R286: a phase of two arrivals; the second starts generation 1 and sends the continuation; a store meets the mark. -/
theorem test_phases :
    nextHas (exec (.pinit 2 3 5) phaser) (fun a => nextHas (exec (.phaseOperationServe 0) a) fun b =>
      tabFind? b.phases (localBase 0 + 64) == some [] && natOfBytes (memRead b.mem (localBase 0 + 64) 8) == 0x20002 &&
      nextHas (exec (.phaseStatusDelivery 0) b) fun c =>
      nextHas (exec (.pwait 3 5) (withX c 5 8)) fun d => nextHas (exec (.phaseOperationServe 2) d) fun e =>
      nextHas (exec (.phaseStatusDelivery 2) e) fun e =>
      nextHas (exec (.parriveRlx 3 5) (withX e 5 8)) fun f => nextHas (exec (.phaseOperationServe 4) f) fun g =>
        natOfBytes (memRead g.mem (localBase 0 + 64) 8) == 0x10002 &&
      nextHas (exec (.phaseStatusDelivery 4) g) fun g =>
      nextHas (exec (.parriveRel 1 3 5) (withX g 5 8)) fun h => nextHas (exec (.phaseOperationServe 6) h) fun k =>
        natOfBytes (memRead k.mem (localBase 0 + 64) 8) == 0x100020002 && k.mesh.length == 1) = true := by decide +kernel

def markedStore : State :=
  let s := withMe { phaser with phases := [(localBase 0 + 64, [])] } { me phaser with mode := .waiting 4 }
  { s with reqs := [(4, ⟨0, 0, 0, 0, .none, 0, .store [(⟨localBase 0 + 68, 0, 8, false⟩, 5, localBase 0 + 68)] none [], none, 0, false, true, 0, 0⟩)] }

theorem witness_PhaseStores : (ctxOf markedStore 0 0).mode = .waiting 4 ∧ piecesReady markedStore 0 [⟨localBase 0 + 68, 0, 8, false⟩] = true ∧
    (engineHolds markedStore ⟨localBase 0 + 68, 0, 8, false⟩ true || homeHeld markedStore 0 0 (localBase 0 + 68)) = false ∧
    markAddr markedStore (⟨localBase 0 + 68, 0, 8, false⟩, 5, localBase 0 + 68) = some (localBase 0 + 64) ∧
    markAddr { markedStore with phases := [] } (⟨localBase 0 + 68, 0, 8, false⟩, 5, localBase 0 + 68) = none ∧
    nextHas (exec (.phaseProtectedWrite 4) markedStore) (trapped cPHASE (BitVec.ofNat 64 (localBase 0 + 64))) ∧
    nextHas (exec (.phaseProtectedWrite 4) { markedStore with phases := [] }) (fun t => memByte t.mem (localBase 0 + 68) == 5 &&
      (me t).mode == .running) ∧
    (let s := withMe { markedStore with phases := [] } { me markedStore with epoch := 1 };
      taskGone s ((tabFind? s.reqs 4).getD resumeReq) = true ∧
        nextHas (exec (.phaseProtectedWrite 4) s) (fun t => memByte t.mem (localBase 0 + 68) == 5 && t.reqs == [])) := by decide +kernel

/-- A slot armed for cores 0 and 1, and how far core 0's arrival has gone. -/
def armed (arrived rowTok rowDone releasing : Bool) (k : Nat) : Boom :=
  { Boom.reset with armed := true, rect := 0x20, ch := 3, utag := 9, arrived := arrived, rowTok := rowTok, rowDone := rowDone, releasing := releasing
                    gen := BitVec.ofNat 16 k }
def boomState (a b : Boom) : State := setBoom (setBoom arith 0 2 a) 1 2 b

theorem witness_Booms :
    let s := boomState (armed true false false false 0) (armed true true false false 0)
    let done := boomState (armed true false true false 0) (armed true true true true 0)
    (boomOf arith 0 2).armed = false ∧ (regX (withX arith 9 0x8000000000000000) 9).getLsbD 63 = true ∧
    (regX (withX arith 9 0x0009000000000020) 9).getLsbD 63 = false ∧ fieldOf (regX (withX arith 9 0x0000000900000020) 9) 48 15 = 0 ∧
    rectX0 0x20 ≤ rectX1 0x20 ∧ rectY0 0x20 ≤ rectY1 0x20 ∧ rectHolds 0x20 (meshX 0) (meshY 0) = true ∧
    rectCores 0x20 = [0, 1] ∧ ownedBerth arith 0 0 = true ∧ accessesDone arith ∧ releaseReady arith (myBerth arith) 4 = true ∧
    (boomOf s 0 2).rowDone = false ∧ meshX 0 = rectX0 0x20 ∧ meshX 0 < rectX1 0x20 ∧ boomMatches s 1 2 0x20 = true ∧
    boomMatches arith 1 2 0x20 = false ∧ boomMatches (setBoom arith 0 2 (armed true false true false 0)) 2 2 0x4000 = false ∧
    (boomOf s 1 2).rowTok = true ∧ rectX1 0x20 ≤ meshX 1 ∧ (boomOf done 1 2).releasing = true ∧
    rectX0 0x20 < meshX 1 ∧ coreAt (meshX 1 - 1) (meshY 1) = 0 ∧ boomTakes done 0 2 0x20 = true ∧ meshX 0 ≤ rectX0 0x20 ∧
    meshX 1 = rectX1 0x20 ∧ meshY 1 ≤ rectY0 0x20 ∧
    (let r : BitVec 18 := 0x4000
     let u := setBoom (setBoom arith 0 2 { armed true true true false 0 with rect := r }) 2 2 { armed true true true true 0 with rect := r }
     meshX 2 = rectX1 r ∧ rectY0 r < meshY 2 ∧ coreAt (meshX 2) (meshY 2 - 1) = 0 ∧ boomTakes u 0 2 r = true ∧ meshX 2 ≤ rectX0 r ∧
     nextHas (exec (.boomRelease 2 2) u) (fun t => (boomOf t 0 2).releasing)) := by decide +kernel

theorem test_booms :
    let s := boomState (armed true false false false 0) (armed true true false false 0)
    let done := boomState (armed true false true false 0) (armed true true true true 0)
    nextHas (exec (.boomset 3 2 9 8) (withX arith 9 0x0000000900000020)) (fun t => (boomOf t 0 2).armed && (boomOf t 0 2).ch == 3 &&
      (boomOf t 0 2).utag == 9 && (boomOf t 0 2).rect == 0x20 && regX t 8 == 0) ∧
    nextHas (exec (.boomRlx 2 8) (boomState (armed false false false false 0) Boom.reset)) (fun t => regX t 8 == 0 && (boomOf t 0 2).arrived) ∧
    nextHas (exec (.boomRel 2 8) s) (fun t => regX t 8 == 1 && (boomOf t 0 2).held) ∧
    nextHas (exec (.boomTokenPass 0 2 false) s) (fun t => (boomOf t 1 2).rowTok && (boomOf t 0 2).rowDone) ∧
    nextHas (exec (.boomTokenPass 0 2 false) (setBoom arith 0 2 (armed true false false false 0))) (fun t =>
      (coreOf t 1).boomWait == [(2, 0x20, false)] && boomWaits t 1 2 0x20 false && (boomTaken t 1 2 0x20).cores != t.cores) ∧
    nextHas (exec (.boomTokenPass 1 2 false) s) (fun t => (boomOf t 1 2).rowDone && (boomOf t 1 2).releasing) ∧
    nextHas (exec (.boomRelease 1 2) done) (fun t => (boomOf t 1 2).gen == 1 && (boomOf t 0 2).releasing && t.mesh.length == 1) := by
  decide +kernel

/-- A column of two rows, cores 0 and 2, whose northern row is done. -/
theorem witness_Booms_columns :
    let r : BitVec 18 := 0x4000
    let s := setBoom (setBoom arith 0 2 { armed true false true false 0 with rect := r }) 2 2 { armed true true false false 0 with rect := r }
    meshX 0 = rectX1 r ∧ meshY 0 < rectY1 r ∧ meshY 0 = rectY0 r ∧ coreAt (meshX 0) (meshY 0 + 1) = 2 ∧ boomMatches s 2 2 r = true ∧
    (boomOf s 2 2).colTok = false ∧ (boomOf s 0 2).colDone = false ∧ nextHas (exec (.boomTokenPass 0 2 true) s) (fun t => (boomOf t 2 2).colTok) := by decide +kernel


/-! ### Scheduling -/

/-- A code object with a handler on channel 3 and a template for core 0, channel 2, whose capability has instances in its second dimension. -/
def codeObject : CodeObject :=
  let dim2 : Cap := capSetStr (capSetExt (capSetRank (capMake1 (localBase 0 + 0x100) fRAW8 16 (pL + pS) 4) 2) 1 4) 1 16
  ⟨.w20, none, [⟨BitVec.ofNat 48 (localBase 0), 3, 1, false⟩], [⟨1, 2, BitVec.ofNat 48 (localBase 0)⟩], [⟨0, 2, 0, 4⟩], capMake1 (localBase 0) fRAW8 64 (pL + pX) 0,
    [dim2], [], [], [], 0, 0, 0⟩

/-- A floor, a ceiling and a weight for every band. -/
def openBands : Tab Dbl := (List.range 24).map fun i => (i, 0x060501)

/-- The record at c3's granule 2: object 1, template 0, instance 2, affinity 5. -/
def recordGran : Gran := BitVec.ofNat 256 (0x10000 + 2 * 2 ^ 32 + 5 * 2 ^ 64)
def enqueuer : State :=
  let s := taskState { Ctx.reset with x := [(1, 8)], c := [(3, capMake1 (localBase 0) 0x07 512 0xFF 4)] }
  { s with parts := [(0, { Partition.reset with objs := [(1, codeObject)], bands := openBands })], mem := memWrite [] (localBase 0 + 64) (bytesOf 32 recordGran.toNat)
           clk := 10 }

theorem witness_TaskRecords : readableX enqueuer 1 ∧ readableC enqueuer 3 ∧ capFmt (regC enqueuer 3) = 0x07 ∧
    (∀ j < 4, accessIs (capAccess 0 (regC enqueuer 3) 3 0 pL ⟨(regX enqueuer 1).toNat + j, 0, 0, 0⟩ 64) (8 * (localBase 0 + 64 + 8 * j)) 64) ∧
    (localBase 0 + 64) % 32 = 0 ∧ unwatched enqueuer 0 [(localBase 0 + 64, 32)] ∧
    answers (readNow (localBase 0 + 64) 32 enqueuer) (fun v t => v == recordGran.toNat && decide (writableX t 8)) ∧
    recWord recordGran 0 / 2 ^ 24 = 0 ∧ recWord recordGran 3 / 4 = 0 ∧ foldSlice (recWord recordGran 2) = 5 ∧ queueOpen enqueuer ∧
    crossingHeld enqueuer 0 (coreQuay 0) (5 / 16) = false := by decide +kernel

def queuedRecord (clk : Nat) (part : Nat) : TaskRec := ⟨recordGran, 0, part, none, clk⟩

/-- R298, R389: into the segment; a full segment, into the ring; no template; a grant; a dequeue. -/
theorem test_records :
    nextHas (accepted (exec (.enq 0 0 1 3 8) enqueuer)) (fun t => nextHas (exec (.enqueueServe 0) t) fun u =>
      (sliceOf u 5).seg == [queuedRecord 10 0] && nextHas (exec (.enqStatusDelivery 0) u) (fun w => regX w 8 == enqStatus 0 5 1) &&
      nextHas (exec (.inboxReservationGrant 0 5 0) { u with clk := 11 }) fun v => (coreOf v 0).reserved == [(5, 0)] &&
      nextHas (exec (.recordDequeue 5 0) v) fun w => (sliceOf w 5).seg == [] && w.mesh.length == 1) ∧
    nextHas (accepted (exec (.enq 0 0 1 3 8) enqueuer)) (fun t =>
      nextHas (exec (.enqueueServe 0) (setSlice t 5 { Slice.reset with seg := List.replicate 32 (queuedRecord 9 1) })) fun u =>
        tabGet [] (sliceOf u 5).rings 0 == [queuedRecord 10 0]) ∧
    nextHas (accepted (exec (.enq 0 0 1 3 8) enqueuer)) (fun t => nextHas (exec (.enqueueServe 0) { t with parts := [] }) fun u =>
      (tabFind? u.reqs 0).map (·.reply) == some (some (.value (enqStatus 3 5 0)))) := by decide +kernel

theorem witness_TaskRecords_grants :
    let s := { setSlice enqueuer 5 { Slice.reset with seg := [queuedRecord 9 0] } with clk := 10 }
    let full := setCore s 0 { coreOf s 0 with owed := List.replicate 26 (1, 0) }
    headRecord (sliceOf s 5) 0 = some (queuedRecord 9 0) ∧ needsEntry s 5 (queuedRecord 9 0) = true ∧ recordCore s (queuedRecord 9 0) = some 0 ∧
    (coreOf s 0).refused = [] ∧ goesAway s 0 0 = false ∧ goesAway full 0 0 = false ∧
    (let g := setCore s 0 { coreOf s 0 with reserved := [(5, 0)] }; (5, 0) ∈ (coreOf g 0).reserved ∧ recordCore g (queuedRecord 9 0) = some 0 ∧
      (recordCap g (queuedRecord 9 0)).isSome ∧ entryOf g 5 (queuedRecord 9 0) = some 0 ∧ (coreOf (useEntry g 5 (queuedRecord 9 0)) 0).owed = [(5, 0)]) ∧ (inboxOf full 0).owed.length = 26 ∧ (inboxOf full 0).refused.contains (5, 0) = false ∧
    (inboxOf (setCore s 0 { coreOf s 0 with reserved := [(1, 0)], refused := [(1, 0)] }) 0).reserved = [] ∧
    needsEntry full 5 (queuedRecord 9 0) = true ∧ recordCap { s with parts := [] } (queuedRecord 9 0) = none ∧ (recordCap s (queuedRecord 9 0)).isSome ∧
    ((List.range 16).map fun i => ((sliceOf s 5).turn + 1 + i) % 16).find? (fun p => match headRecord (sliceOf s 5) p with
      | none => false
      | some r => decide (r.at_ < s.clk) && !needsEntry { s with parts := [] } 5 r) = some 0 ∧
    nextHas (exec (.inboxReservationGrant 0 5 0) full) (fun t => (coreOf t 0).refused == [(5, 0)]) := by decide +kernel

/-- A launch of one core, grid 1 by 1 by 1, object 1, start channel 3, root the core's local store. -/
def d0Plain : Dbl := 0x0001000100010130
def launcher : State :=
  let s := taskState { Ctx.reset with x := [(1, 2)], c := [(3, capMake1 (localBase 0) fCAP 128 0xFF 4)] }
  { s with
    parts := [(0, { Partition.reset with objs := [(1, codeObject)], bands := openBands })], tags := [localBase 0 / 32 + 3]
    mem := memWrite (memWrite [] (localBase 0 + 64) (bytesOf 8 d0Plain.toNat)) (localBase 0 + 96) (bytesOf 32 (localCap 0).bits.toNat) }

def plainLaunch : Launch := { newLaunch launcher 0 d0Plain 0 0 0 (localCap 0) with leave := true }

theorem witness_Launches : readableX launcher 1 ∧ readableC launcher 3 ∧ checkIs (capUse (regC launcher 3) 3 0 (pL + pLC)) 256 ∧
    accessIs (granuleAccess 0 (regC launcher 3) 3 (pL + pLC) ⟨2, 0, 0, 0⟩) bits64 256 ∧
    accessIs (granuleAccess 0 (regC launcher 3) 3 (pL + pLC) ⟨3, 0, 0, 0⟩) (bits64 + 256) 256 ∧
    unwatched launcher 0 [(localBase 0 + 64, 32), (localBase 0 + 96, 32)] ∧ accessesDone launcher ∧ releaseReady launcher (myBerth launcher) 4 = true ∧
    answers (readNow (localBase 0 + 64) 32 (release launcher 0 4)) (fun v t => v == d0Plain.toNat &&
      answers (readTagged (regC launcher 3) (localBase 0 + 96) t) fun root u => root == localCap 0 && decide (writableX u 8)) ∧
    launchReason launcher 0 (some 0) plainLaunch = 0 ∧ launchReason launcher 0 (some 1) plainLaunch = 6 ∧
    launchReason { launcher with parts := [] } 0 none plainLaunch = 4 ∧
    (partOf launcher 0).hmStat.getLsbD 62 = false ∧ doorHeld launcher 0 0x40 = false ∧
    (List.range 32).find? (fun i => (tabFind? launcher.launches (32 * 0 + i)).isNone) = some 0 := by decide +kernel

/-- R302, R306: a launch accepted in slot 0 and placed on core 0, which then holds the group and its bindings. -/
theorem test_launch :
    nextHas (exec (.launch 0 0 1 3 8) launcher) (fun t => nextHas (exec (.launchRequestServe 0) t) fun u =>
      (tabFind? u.launches 0).isSome && nextHas (exec (.launchStatusDelivery 0) u) fun w => regX w 8 == 0) ∧
    nextHas (exec (.hmDoorWrite 0 false 0x40) launcher) (fun t => (partOf t 0).hmStat.getLsbD 63) ∧
    nextHas (exec (.launchLeaveRetry 0) { launcher with launches := [(0, { plainLaunch with leave := false })] })
      (fun t => (tabFind? t.launches 0).map (·.leave) == some true) := by decide +kernel

theorem witness_Launches_placement :
    let s := { launcher with launches := [(0, { plainLaunch with acceptedAt := 0 })], clk := 65536 }
    placementOk s 0 plainLaunch 0 [0] = true ∧ coreQuay 0 = 0 ∧ (launchObject s plainLaunch).isSome ∧ orderable s 0 ∧
    waitingGroup s 0 { plainLaunch with acceptedAt := 0 } = some 0 ∧ berthOpen s 0 0 0 0 = true ∧ (berthOf s 0).reservedFor = none ∧
    (∀ i < 4, coreFree s (4 * 0 + i) = true) ∧ placeable s 0 plainLaunch 0 = true ∧
    nextHas (exec (.placementWaitReservation 0 0) s) (fun t => (berthOf t 0).reservedFor == some (0, 0)) := by decide +kernel

theorem witness_GroupDoneMarks : let s := groupState 0 Ctx.reset Ctx.reset
    (coreOf s 0).place.isSome = true ∧ (coreOf arith 0).place = none ∧
    (coreOf (setCore s 0 { coreOf s 0 with gdone := true }) 0).gdone = true ∧
    nextHas (exec .gdone s) (fun t => (coreOf t 0).gdone && !(coreOf t 1).gdone) ∧ nextHas (exec .gdone arith) (fun t => (me t).ktrap == cILLEGAL) := by
  decide +kernel

/-- Berth 0 sliced, partition 0 in schedule entry 0 with 1 µs slices and a deadline of 2 µs, its save area mapped. -/
def sliced (runs : Option Nat) (slice : Option Nat) (fin : Option SliceEnd) (halted : Bool) : State :=
  { mapped State.reset with
    glob := { Glob.reset with boot := .done, tsEnt := [(0, 0x100210)], slice := slice }
    berths := [(0, { Berth.reset with owner := 0x80, runs := runs, holds := runs, sliceEnd := fin, dbg := { Debug.reset with halted := halted } })]
    clk := 2800 }

theorem witness_SlicesSwitch :
    let s := sliced (some 0) none none false; let r := sliced (some 0) (some 0) none false
    betweenSlices s = true ∧ slicedBerths s = [0] ∧ nextEntry s = some 0 ∧ tsPart (tabGet 0 s.glob.tsEnt 0) = 0 ∧ (berthOf s 0).runs = some 0 ∧
    r.glob.slice = some 0 ∧ r.glob.sliceEnding = false ∧ r.glob.sliceAt + tsLength (tabGet 0 r.glob.tsEnt 0) * 1400 ≤ r.clk ∧
    nextHas (exec .sliceBegin s) (fun t => t.glob.slice == some 0) ∧
    nextHas (exec .sliceEnd r) (fun t => t.glob.sliceEnding && (berthOf t 0).sliceEnd.isSome) := by decide +kernel

theorem witness_SlicesSwitch_ends : let e : SliceEnd := ⟨0, 2800, true, false, false⟩
    let s := sliced (some 0) (some 0) (some e) false; let h := sliced (some 0) (some 0) (some { e with draining := false }) true
    (berthOf s 0).sliceEnd = some e ∧ (berthOf s 0).runs = some 0 ∧ (berthOf s 0).dbg.halted = false ∧ groupsOn s 0 = [] ∧
    saveReady s 0 0 = true ∧ (∀ i < 4, listReady s (4 * 0 + i) = true) ∧ orderable s 0 ∧ (berthOf h 0).dbg.halted = true ∧ e.at_ + e.deadline ≤ h.clk ∧ e.overrunRaised = false ∧
    nextHas (exec (.haltedSliceEndOverrun 0) h) (fun t => (tabGet Irq.reset t.glob.irq 12).pend) := by decide +kernel

theorem witness_SlicesSwitch_cores :
    let s := sliced (some 0) (some 0) none false
    let f := setCore s 0 { Core.reset with preempted := true }
    (coreOf s 0).preempted = false ∧ coreFreezable s 0 = true ∧ (coreOf f (4 * 0 + 0)).preempted = true ∧
    answers (drainBerth 0 ((List.range 4).foldl (fun s i => thawCore s (4 * 0 + i)) f)) (fun _ u => !(coreOf u 0).preempted) ∧
    nextHas (exec (.preemption 0) s) (fun t => (coreOf t 0).preempted) ∧ nextHas (exec (.coreResumption 0) f) (fun t => !(coreOf t 0).preempted) := by
  decide +kernel

theorem witness_SlicesSwitch_restore :
    let s := sliced none none none false
    let t := setBerth s 0 { berthOf s 0 with saved := [⟨0, [], [], [], []⟩] }
    (∀ i < 4, (coreOf t (4 * 0 + i)).preempted = false) ∧ isSliced t 0 = true ∧ (berthOf t 0).runs = none ∧ betweenSlices t = true ∧
    nextEntry t = some 0 ∧ ((berthOf t 0).saved.find? fun y => y.part == 0).isSome ∧ areaReady t 0 (saveBase t 0 0) 193 = true := by decide +kernel

theorem witness_SlicesSwitch_retirement :
    let p : Placed := ⟨0, [0], 0, 0⟩
    let l := { plainLaunch with placed := [p], dlLeft := 2 }
    let s := { setCore (sliced (some 0) none none false) 0 { Core.reset with gdone := true, place := some ⟨0, 0, 0, 0, 0, 0⟩ } with launches := [(0, l)] }
    l.placed.find? (fun p => p.idx == 0) = some p ∧ p.gen = tabGet 0 l.gens 0 ∧ (coreOf s 0).gdone = true ∧ taskOf (coreOf s 0) 0 = false ∧
    copyOf s 0 0 = false ∧ (coreOf s 0).preempted = false ∧ (coreOf s 0).place.map (fun y => (y.seq, y.idx)) = some (l.seqNo, 0) ∧ orderable s l.part ∧
    releaseReady s (coreBerth 0) 4 = true ∧ listReady s 0 = true ∧ updatesLeft s 0 = false ∧
    l.dlLeft ≠ 0 ∧ l.deadlineRaised = false ∧ l.acceptedAt + l.dlLeft * 1400 ≤ s.clk ∧
    nextHas (exec (.launchDeadlineExpiry 0) s) (fun t => (tabFind? t.launches 0).map (·.deadlineRaised) == some true) := by decide +kernel

theorem witness_SlicesSwitch_suspension :
    let s := { sliced none none none false with launches := [(0, plainLaunch)] }
    partitionIdle s 0 = true ∧ (s.launches.filter fun e => e.2.part == 0) ≠ [] ∧ areaReady s 0 (blockPage s 0 0) 1 = true := by decide +kernel

theorem witness_Launches_order :
    let s := { launcher with launches := [(0, { plainLaunch with acceptedAt := 0 })], clk := 65536 }
    (placementOrder s).find? (fun e => (e.2.1.leave || e.2.1.askedAt == 0) && placeable s e.1 e.2.1 e.2.2) = some (0, { plainLaunch with acceptedAt := 0 }, 0) := by decide +kernel
theorem test_placement :
    nextHas (exec (.groupPlacement 0 [0]) { launcher with launches := [(0, plainLaunch)] }) (fun t =>
      (coreOf t 0).place.isSome && t.mesh.length == 1 && (tabFind? (coreOf t 0).bind 3).isSome && (tabFind? (coreOf t 0).bind 0).isSome) = true := by
  decide +kernel


/-! ### Numbers and vectors -/

theorem witness_ScaleBytes : 0xFF < 256 ∧ 0xFE < 0xFF ∧ 0 < 0xFF ∧ decodeE8M0 0xFF = .nan ∧ decodeE8M0 0xFE = .fin false 1 127 false ∧
    decodeE8M0 0 = .fin false 1 (-127) false := by decide +kernel

theorem witness_ScalarFloats : readableX floats 1 ∧ readableX floats 27 ∧ readableX floats 2 ∧ readableX floats 8 ∧ writableX floats 8 := by
  decide +kernel

theorem witness_VectorStatements : (me vectors).mode = .running ∧ readableV vectors 1 ∧ readableV vectors 27 ∧ readableV vectors 63 ∧ readableM vectors 1 ∧ readableM vectors 7 ∧
    writableV vectors 4 ∧ readableX vectors 1 ∧ writableX vectors 8 ∧ (3 : BitVec 2) = 3 ∧ (2 : BitVec 2) ≠ 3 ∧
    (3 : BitVec 3).toNat < 4 ∧ (15 : BitVec 6).toNat < 128 / (8 * 2 ^ (0 : BitVec 3).toNat) ∧
    (1 : BitVec 6).toNat < 128 / (8 * 2 ^ (3 : BitVec 3).toNat) := by decide +kernel

theorem witness_VectorFrames : nextHas (exec (.vadd 1 2 1 4 0) vectors) (fun t => (me t).mode == .running) = true ∧
    nextHas (exec (.vfadd 0 3 3 4 2) vectors) (fun t => (me t).mode == .running) = true := by decide +kernel

/-- R192's worked packing: v10 holds 20.0, 0.3, -6.0 and 2.8; v20 keeps its other bytes. -/
def packing : State := taskState { Ctx.reset with
  x := [(1, 0x08), (7, 0x81001A08), (6, 0x8100081A), (2, 0x81201A08)]
  v := [(10, 0x40333333C0C000003E99999A41A00000), (20, 0xEEEEEEEEEEEEEEEEEEEEEEEEEEEEEEEE), (21, 0x1B06)] }

theorem test_packing :
    nextHas (exec (.vredamax 0 1 10 9) packing) (fun t => regX t 9 == 0x41A00000 &&
      nextHas (exec (.vmxsc 0x1A 9 8) t) fun u => regX u 8 == 0x81) ∧
    nextHas (exec (.vcvt 0 7 10 20) packing) (fun t => regV t 20 == 0xEEEEEEEEEEEEEEEEEEEEEEEEEEEE1B06 && (me t).fflags == 0x03) ∧
    nextHas (exec (.vcvt 0 6 21 22) packing) (fun t => regV t 22 == 0x40000000C0C000000000000041800000) := by decide +kernel

theorem witness_ConversionsCompute : readableX packing 7 ∧ readableV packing 10 ∧ writableV packing 20 ∧ readableV packing 20 ∧
    ctlOk (regX packing 7) = true ∧ ctlOk (regX packing 2) = false ∧ (convKeeps (regX packing 7) || (0 : BitVec 3) != 0) = true ∧
    (regX packing 1).toNat < 64 ∧ amaxFormat (ctlSrc (regX packing 1)) = true ∧ scaledFormat 0x16 = true ∧ scaledFormat 0x21 = true ∧
    readableX packing 9 ∧ writableX packing 8 := by decide +kernel

/-- R194 to R196: 2^1.0 is 2.0, through the queue of the berth's unit. -/
theorem witness_SpecialFunctionsQueue : readableV vectors 3 ∧ writableV vectors 4 ∧ readableV vectors 4 ∧ readableM vectors 1 ∧ readableM vectors 0 ∧ (berthOf vectors 0).sfuQ.length < 16 ∧
    nextHas (exec (.sexp2 1 3 4) vectors) (fun t => tabGet .full (me t).vs 4 == .empty && (berthOf t 0).sfuQ.length == 1 &&
      !(berthOf t 0).dbg.halted && nextHas (exec (.sfuRequestStart 0) t) fun u => (berthOf u 0).sfuQ == [] &&
        nextHas (exec (.sfuResultDelivery 0 0) u) fun w => regV w 4 == 0x40000000 && tabGet .full (me w).vs 4 == .full &&
          (berthOf w 0).sfuRun == []) := by decide +kernel

/-- R197, R347: a suspension saves the requests that have not started, those for link ports apart; a resumption puts them in order again. -/
theorem test_suspended_link_request : let q := fun (d : Nat) => SfuReq.mk 0 0 2 d 0 0 0xFFFF 0 0 (d + 5) 0
    let t := suspendSfu (setBerth vectors 0 { berthOf vectors 0 with sfuQ := [q 29, q 4, q 28] }) 0 0
    (berthOf t 0).sfuQ = [] ∧ (ctxOf t 0 0).sfuSaved = [q 4] ∧ (ctxOf t 0 0).sfuLink = [(0, q 29), (1, q 28)] ∧
    (rejoinSfu (ctxOf t 0 0)).sfuSaved = [q 29, q 4, q 28] := by decide +kernel

/-- No request of the special-function unit is saved in any context of that state. -/
theorem witness_no_saved_requests (k c : Nat) : (ctxOf vectors k c).sfuSaved = [] := by
  by_cases hk : 0 = k
  · subst hk
    by_cases hc : 0 = c
    · subst hc; rfl
    · simp [hc, vectors, taskState, upState, ctxOf, coreOf, setCtx, setCore, tabGet, tabPut, tabFind?, State.reset, Ctx.reset, Core.reset]
  · simp [hk, vectors, taskState, upState, ctxOf, coreOf, setCtx, setCore, tabGet, tabPut, tabFind?, State.reset, Ctx.reset, Core.reset]

/-! ### Copies -/

/-- Channel 0 of core 0 set up to copy 64 bytes of the local store to the A buffer; x1 to x3 operands. -/
def copier : State :=
  let l := capMake1 (localBase 0) 0x01 64 0xFF 4
  let a := capMake1 (winBase 0xD 0 0) 0x01 64 0xFF 4
  let s := taskState { Ctx.reset with
    x := [(1, 0), (2, 0x20001), (3, 0x100000), (4, 0x30000)]
    c := [(1, l), (2, a)]
    sh0 := { Shadow.null with src := l, dst := a } }
  { s with mem := memWrite [] (localBase 0) [0x11, 0x22, 0x33] }

theorem witness_CopiesStart_registers : readableC copier 1 ∧ readableX copier 1 ∧ writableX copier 8 ∧ fieldOf (regX copier 3) 20 28 ≠ 0 ∧
    fieldOf (regX copier 2) 20 28 = 0 ∧ nextHas (exec (.cpnote 2 0 8) copier) (fun t => regX t 8 == 3) ∧
    nextHas (exec (.cpnote 1 0 8) copier) (fun t => regX t 8 == 1 && t.mesh.length == 1) ∧
    nextHas (exec (.cpstat 0 0 8) copier) (fun t => regX t 8 == 1) ∧
    nextHas (exec (.cpsetMlo 2 1) copier) (fun t => (me t).sh1.mlo == 0x20001) := by decide +kernel

theorem witness_CopiesStart : let h := shadowOf (me copier) 0; let o : CopyOps := ⟨h.src, h.dst, h.aux, h.ctl, h.mlo, h.mhi, 0⟩
    (27 : BitVec 5).toNat < 28 ∧ ctlReservedZero h.ctl = true ∧ ctlPlan h.ctl = false ∧ passes (copyOperands 0 1 o) ∧
    (∀ x ∈ revocable 1 none o, mapHeld copier 0 x.1 = false) ∧ revocable 1 none o ≠ [] ∧
    usesList 1 = false ∧ usesList 4 = true ∧ listWaits copier 0 (newCopy copier 4 0 { o with aux := capMake1 (localBase 0) 0x04 2 0xFF 4 }) = false ∧
    (revokedOperand copier 0 (revocable 1 none o)).1 = none ∧ passes (copyShape (revokedOperand copier 0 (revocable 1 none o)).2 0 1 o) ∧
    accessesDone copier ∧ releaseReady copier (myBerth copier) 1 = true ∧ (castLeave copier).1 = .yes ∧
    (castLeave (setBerth copier 0 { berthOf copier 0 with power := 1 })).1 = .no ∧ (chanOf (release copier 0 1) 0 0).length < 16 ∧ writableX copier 8 := by decide +kernel

/-- R257 to R270: a copy of 64 bytes begins, writes its first element and, once all are written, ends. -/
theorem test_copy :
    nextHas (exec (.cpgo 0 8) copier) (fun t => regX t 8 == 1 && (chanOf t 0 0).length == 1 && nextHas (exec (.copyBegin 0) t) fun u =>
      nextHas (exec (.copyElementWrite 0 0) u) fun v => memByte v.mem (winBase 0xD 0 0) == 0x11 &&
        (chanOf v 0 0).map (·.count) == [1] &&
        nextHas (exec (.copyEnd 0 0) (setChan v 0 0 ((chanOf v 0 0).map fun c => { c with count := 64 }))) fun w =>
          chanOf w 0 0 == [] && (me w).xf0.count == 1) = true := by decide +kernel

def copyOf0 : Copy := ⟨1, 0, 0, 0, 0, 0, 1, 0, (me copier).sh0.src, (me copier).sh0.dst, Cap.null, 0, [], none, [], 0, true, none, none, 0, [], [], [], [], false⟩

theorem witness_CopiesRun :
    let s := setChan copier 0 0 [copyOf0]
    let gather := { copyOf0 with fn := 4, list := some [1, 0], src := (me copier).sh0.src }
    let cast := { copyOf0 with fn := 6, mask := [3], count := 64 }
    lighterRuns s 0 = true ∧ chanOf s 0 0 = [copyOf0] ∧ nextChannel (setChan s 0 0 [{ copyOf0 with running := false }]) 0 = some 0 ∧
    usesList 1 = false ∧ copyOf0.count < copyTotal copyOf0 ∧ rowReady s 0 copyOf0 = true ∧
    answers (copyElement 0 copyOf0 s) (fun c t => c.count == 0 && memByte t.mem (winBase 0xD 0 0) == 0x11) ∧
    usesList gather.fn.toNat = true ∧ (rowOwners (setChan copier 0 0 [gather]) 0 gather)[0]?.isSome ∧ rowLost s 0 = false ∧
    rowLost (setQuay s 0 { Quay.reset with mode := .fenced }) 0 = true ∧
    cast.count = copyTotal cast ∧ (3 ∈ cast.mask ∧ 3 ∉ cast.castDone) ∧ { cast with castDone := [3] }.castDone = cast.mask := by decide +kernel

theorem witness_CopiesRun_leave :
    let u := withMe { copier with clk := 200 } { me copier with leaveAsk := some (0, 0, 8) }
    (ctxOf u (4 * 0 + 0 / 2) 0).leaveAsk = some (0 % 2, 0, 8) ∧ 0 + 200 ≤ u.clk ∧ (ctxOf u 0 0).mode = .running ∧ writableX u 8 ∧
    nextHas (exec (.cpcastLeaveRefused 0 0) u) (fun t => regX t 8 == 0xC000000000000000) := by decide +kernel


/-! ### The matrix array -/

/-- A rank-2 capability with contiguous dimension 0. -/
def cap2 (base fmt e0 e1 s1 perm : Nat) : Cap := capSetStr (capSetExt (capSetRank (capMake1 base fmt e0 perm 4) 2) 1 e1) 1 s1

/-- The lease holder: c1 a 64 by 1 I8 tile A, c2 B, c3 a 1 by 1 FP32 C, c4 a 4-bit B of depth 128, c5 an I8 A of depth 128, c6 an adapter
table, c7 an FP32 tile in the A buffer; A(0, 0) is 2 and B(0, 0) is 3; x1 the control of `mcvt` to FP32, x2 α = 1 with tag 4. -/
def mathState (left : Nat) : State :=
  let s := taskState { Ctx.reset with
    x := [(1, 0x0800), (2, 0x43F800000), (3, 64)]
    c := [(1, cap2 (winBase 0xD 0 0) 0x01 64 1 64 pM), (2, cap2 (winBase 0xF 0 0) 0x01 64 1 65536 pM), (3, cap2 (winBase 0xE 0 0) fFP32 1 1 1 (pM + pS)),
      (4, cap2 (winBase 0xF 0 0) 0x10 128 1 131072 pM), (5, cap2 (winBase 0xD 0 0) 0x01 128 1 128 pM),
      (6, capMake1 (winBase 0xD 0 0 + 0x1000) fCAP 3 (pM + pLC) 4), (7, cap2 (winBase 0xD 0 0 + 0x2000) fFP32 1 1 1 (pM + pS))] }
  let ix := capMake1 (localBase 0 + 0x100) 0x04 1 pM 4
  { setBerth s 0 { berthOf s 0 with mat := { MatArray.reset with lease := some ⟨0, 0, left, 0⟩ } } with
    tags := [(winBase 0xD 0 0 + 0x1000) / 32]
    mem := memWrite (memWrite (memWrite (memWrite [] (winBase 0xD 0 0) [2]) (winBase 0xF 0 0) [3]) (winBase 0xD 0 0 + 0x1000) (bytesOf 32 ix.bits.toNat))
      (localBase 0 + 0x100) [0xFF, 0xFF] }

theorem witness_MatrixLeases :
    let s := leaseState none [⟨0, 0, 64, some (.x 8, 3), 0, some 0⟩]
    let idle := { leaseState (some ⟨0, 0, 5, 0⟩) [⟨1, 0, 1, none, 0, none⟩] with clk := 1024 }
    writableX arith 8 ∧ (1 : BitVec 8).toNat ≤ 64 ∧ (64 : BitVec 8).toNat ≤ 64 ∧ 64 < (65 : BitVec 8).toNat ∧ holdsLease (matOf arith 0) 0 0 = false ∧
    (matOf arith 0).reqs.any (isLeaseReq 0 0) = false ∧ (berthOf arith 0).power = 0 ∧
    holdsLease (matOf (mathState 1) 0) 0 0 = true ∧ ((matOf s 0).reqs.find? (isLeaseReq 0 0)).isSome ∧ readableX (mathState 1) 3 ∧
    (matOf s 0).lease = none ∧ (0 + 200 ≤ ({ s with clk := 200 } : State).clk) ∧ (matOf idle 0).lease = some ⟨0, 0, 5, 0⟩ ∧ 0 + 1024 ≤ idle.clk ∧
    nextHas (exec (.mlease 64 8) arith) (fun t => tabGet .full (me t).xs 8 == .empty && (matOf t 0).reqs.length == 1) ∧
    nextHas (exec (.mlease 65 8) arith) (fun t => (me t).ktrap == cILLEGAL) ∧
    nextHas (exec .mrel (mathState 1)) (fun t => (matOf t 0).lease == none) ∧
    nextHas (exec (.mcfg 3) (mathState 1)) (fun t => (me t).ktrap == cILLEGAL) ∧ nextHas (exec (.mcfg 3) (withX arith 3 63)) (fun t => (me t).mcfg == 63) := by
  decide +kernel

theorem test_lease_events :
    let s := setMat (leaseState none [⟨0, 0, 64, some (.x 8, 3), 0, some 0⟩]) 0
      { matOf (leaseState none [⟨0, 0, 64, some (.x 8, 3), 0, some 0⟩]) 0 with leave := true }
    let idle := { leaseState (some ⟨0, 0, 5, 0⟩) [⟨1, 0, 1, none, 0, none⟩] with clk := 1024 }
    nextHas (exec (.leaseGrant 0) s) (fun t => (matOf t 0).lease == some ⟨0, 0, 64, 0⟩ && regX t 8 == 1) ∧
    nextHas (exec (.leaveRefusalTimeout 0) { s with clk := 200 }) (fun t => regX t 8 == 6) ∧
    nextHas (exec (.leaseIdleExpiry 0) idle) (fun t => (matOf t 0).lease == none && (matOf t 0).reqs.length == 2) ∧
    nextHas (exec (.powerLeaveRelease 0) { setMat arith 0 { MatArray.reset with leave := true } with clk := 256 }) (fun t => !(matOf t 0).leave) := by
  decide +kernel

theorem witness_MatrixCommandsAccepted : let s := mathState 2; let ca := regC s 1; let cb := regC s 2; let cc := regC s 3
    readableC s 1 ∧ readableC s 2 ∧ readableC s 3 ∧ holdsLease (matOf s 0) 0 0 = true ∧ (matOf s 0).queue.length < 4 ∧ accessesDone s ∧
    releaseReady s (myBerth s) 1 = true ∧
    passes (productOperands 0 ca cb cc (me s).kcsa (me s).kcsb 1 2 3 none) ∧ passes (checkShape (productRules ca cb cc (me s).kcsa (me s).kcsb 1 2 3)) ∧
    productCycles (max (matClass (capFmt ca)) (matClass (capFmt cb))) (capExt ca 0) (capExt ca 1) = 28 ∧
    answers (rangesOf 0 0 ([ca, cb, cc] ++ sampledScales ca cb (me s).kcsa (me s).kcsb) s) (fun r u => u == s && r.length == 3) ∧
    answers (rangesOf 0 0 [cc] s) (fun r u => u == s && r == [(winBase 0xE 0 0, 4)]) ∧
    passes (matOperand 0 cc 3 0 (pM + pS) (fun f => f == fFP32) [0xE]) ∧ capRank cc = 2 ∧ capStr cc 0 = 1 ∧
    (capExt cc 0 * capExt cc 1 + 127) / 128 + 12 ≤ 1048576 := by decide +kernel

theorem witness_MatrixConversions : let s := mathState 2; let cb := regC s 7; let cc := regC s 3
    readableX s 1 ∧ fieldOf (regX s 1) 14 50 = 0 ∧ fieldOf (regX s 1) 0 8 = 0 ∧ fieldOf (regX s 1) 8 6 = fFP32 ∧
    passes (matOperand 0 cb 7 0 (pM + pS) (fun g => g == fFP32) [0xD]) ∧ passes (matOperand 0 cc 3 0 pM (fun g => g == fFP32) [0xE]) ∧
    isScaled fFP32 = false ∧ capRank cb = 2 ∧ capExt cb 1 = capExt cc 1 ∧ capExt cb 0 = capExt cc 0 ∧ capStr cb 0 = 1 ∧
    capStr cb 1 * (elemBits fFP32).getD 8 % 8 = 0 ∧ passes (checkShape (scaleRules (me s).kcsa fFP32 7 1 1 1)) ∧
    answers (rangesOf 0 0 [cb] s) (fun r _ => r.length == 1) ∧ nextHas (exec (.mcvt 1 3 7 0) s) (fun t => (matOf t 0).queue.length == 1) := by
  decide +kernel

theorem witness_FusedProducts : let s := mathState 2; let ca := regC s 5; let cb := regC s 4; let cc := regC s 3; let ct := regC s 6
    readableX s 2 ∧ fieldOf (regX s 2) 37 27 = 0 ∧ passes (productOperands 0 ca cb cc (me s).kcsa (me s).kcsb 5 4 3 (some (ct, 6))) ∧
    mapHeld s 0 ct = false ∧ (revokedOperand s 0 [(ct, 6, 0)]).1 = none ∧
    (let t1 := (revokedOperand s 0 [(ct, 6, 0)]).2; accessesDone t1 ∧ releaseReady t1 (myBerth s) 1 = true) ∧
    answers (tableGranule ct 6 0 (release (revokedOperand s 0 [(ct, 6, 0)]).2 (myBerth s) 1)) (fun ix t => passes (matOperand 0 ix 6 3 pM (fun f => f == 0x04) [0, 0xC, 0xD]) &&
      answers (collect (fun i => adapterCode ix ⟨i, 0, 0, 0⟩) (List.range (min 1 (capExt ix 0))) t) fun rows u => rows == [0xFFFF] &&
      answers (loadAdapters ct 6 [] u) fun l v => l.isEmpty && passes (checkShape (productRules ca cb cc (me s).kcsa (me s).kcsb 5 4 3 ++
        [⟨matClass (capFmt cb) != 4, 9, 4, 0, capFmt cb⟩, ⟨capRank ct != 1, 1, 6, 6, capRank ct⟩, ⟨capRank ix != 1, 1, 6, 3, capRank ix⟩,
         ⟨decide (capExt ix 0 < 1), 3, 6, 3, capExt ix 0⟩])) && answers (rangesOf 0 0 [ca, cb, cc, ct, ix] v) fun _ w =>
           decide ((matOf w 0).queue.length < 4 ∧ accessesDone w ∧ releaseReady w (myBerth s) 1 = true)) ∧
    nextHas (exec (.mad 2 3 4 5 6) s) (fun t => (matOf t 0).queue.map (·.tag) == [4]) := by decide +kernel

/-- R212, R224: 2 times 3 leaves 6.0 in C, and a tagged command sends its message. -/
theorem test_mma :
    nextHas (exec (.mmaZ 3 2 1 5) (mathState 1)) (fun t => (matOf t 0).lease == none && (matOf t 0).queue.length == 1 &&
      nextHas (exec (.matrixCommandStart 0) t) fun u => nextHas (exec (.matrixCommandComplete 0) { u with clk := 28 }) fun v =>
        natOfBytes (memRead v.mem (winBase 0xE 0 0) 4) == 0x40C00000 && v.mesh.length == 1) = true := by decide +kernel

theorem witness_MatrixCommandsRun : let c := { freshCommand arith 7 0 with c := regC (mathState 1) 3, reads := [(winBase 0xE 0 0, 4)] }
    let s := setMat arith 0 { MatArray.reset with queue := [c] }; let bad := setQuay s 0 { Quay.reset with badLines := [(winBase 0xE 0 0 / 64, [])] }
    (quayOf s 0).mode = .up ∧ (matOf s 0).queue = [c] ∧ c.started = none ∧ ({ c with started := some 0, cycles := 13 }).started = some 0 ∧
    c.bad = false ∧ ({ c with bad := true }.bad || (c.reads.any fun e => isBad s e.1 e.2)) = true ∧
    (c.reads.any fun e => isBad s e.1 e.2) = false ∧ (c.reads.any fun e => isBad bad e.1 e.2) = true ∧
    nextHas (exec (.matrixCommandComplete 0) (setMat bad 0 { MatArray.reset with queue := [{ c with started := some 0 }] }))
      (fun t => (tabGet Irq.reset t.glob.irq 512).pend && natOfBytes (memRead t.mem (winBase 0xE 0 0) 4) == 0x7FC00000 && t.mesh.length == 1) := by
  decide +kernel


/-! ### Graph rewriting -/

/-- Core 0 in a net launch whose heap of 16 nodes lies at 0x40000; nodes 1 and 2 point at each other, node 3 is free; x1, x2 their port words. -/
def heapCap : Cap := capMake1 0x40000 fNODE 16 0xFF 5
def netLaunch (bound : Bool) : Launch := { plainLaunch with d2 := 0x00B0000000000000, net := some ⟨if bound then some heapCap else none, 0, 1, none⟩ }
def netState (bound : Bool) : State :=
  let s := mapped (taskState { Ctx.reset with
    x := [(1, 4), (2, 8), (3, 0x1000000000), (4, 1), (5, 2), (6, 3), (7, 0x501), (10, 0x302), (11, 0x100000003), (12, 0x100000004)]
    c := [(1, heapCap)] })
  { setCore s 0 { coreOf s 0 with place := some ⟨0, 0, 0, 0, 0, 0⟩, bind := [(5, { binding with rewrite := true })] } with
    launches := [(0, netLaunch bound)]
    mem := memWrite (memWrite (memWrite mappedMem 0x40024 [8]) 0x40044 [4]) 0x40062 [0x10] }

/-- Whether an action ends in a trap of a cause. -/
def endsIn {α : Type} (r : Except Stop (α × State)) (cause : BitVec 8) : Bool :=
  match r with
  | .error (.trap c _) => c == cause
  | _ => false

theorem witness_NetInstructionsAsk : let s := netState true; let c := heapCap
    readableC s 1 ∧ netOf s 0 = some (0, netLaunch true, ⟨some c, 0, 1, none⟩) ∧ netOf (netState false) 0 = some (0, netLaunch false, ⟨none, 0, 1, none⟩) ∧
    readableX s 1 ∧ readableX s 26 ∧ readableX s 2 ∧ writableX s 8 ∧ regX s 4 ≠ 0 ∧ (regX s 4).toNat < 2 ^ 32 ∧ 4 ≤ (regX s 1).toNat ∧
    (regX s 2).toNat < 2 ^ 30 ∧ regX s 4 ≠ regX s 5 ∧ fieldOf (regX s 3) 4 4 = 0 ∧ fieldOf (regX s 3) 12 20 = 0 ∧ fieldOf (regX s 3) 0 4 = 0 ∧
    answers (nodeIssue c 1 (pL + pS) 0 0 32 s) (fun a t => a == 0x40000 && decide (writableX t 8)) ∧
    answers (nodeIssue c 1 pL 1 (4 * 7) 4 s) (fun a t => a == 0x40020 && decide (writableX t 8)) ∧
    answers (nodeIssue c 1 (pL + pS) 1 (4 * 7) 4 s) (fun a _ => a == 0x40020) ∧
    ([pL, pL + pS].all fun perm => answers (nodeCheck c 1 perm 1 s) (fun a t => a == 0x40020 && t == s) &&
      answers (nodeCheck c 1 perm 2 s) (fun a t => a == 0x40040 && t == s) &&
      answers (nodeReach perm [(0x40020, 0, 32), (0x40040, 0, 32)] s) fun _ u =>
        decide (accessesDone u ∧ releaseReady u (myBerth u) 4 = true ∧ writableX u 8)) ∧
    answers (nodeCheck c 1 pL 0 s) (fun a t => a == 0x40000 && t == s) ∧ answers (nodeIssue c 1 (pL + pS) 1 0 4 s) (fun a _ => a == 0x40020) ∧
    answers (bindCheck c 1 (regX s 3) s) (fun _ t => t == s) := by decide +kernel

/-- The replies of each NET instruction: R329 to R337. -/
theorem test_net :
    ([(true, .nload 4 1 1 8, 8), (true, .nlink 1 1 8, 1), (false, .nbagBind 3 1 8, 0), (true, .nbagBind 3 1 8, 1), (true, .nbagBind 4 1 8, 0x10000),
      (true, .nbagBind 10 1 8, 0), (true, .nbagBind 11 1 8, 0), (true, .nbagBind 12 1 8, 1)] : List (Bool × Instr × Dbl)).all (fun e =>
        nextHas (exec e.2.1 (netState e.1)) fun t => (me t).mode == .waiting 0 && nextHas (exec (.netHomeRequest 0) t) fun u =>
          nextHas (exec (.netReplyDelivery 0) u) fun w => regX w 8 == e.2.2 && (me w).mode == .running) = true := by decide +kernel

theorem test_net_stores :
    nextHas (exec (.nstore 4 5 1 2) (netState true)) (fun t => nextHas (exec (.netHomeRequest 0) t) fun u => memByte u.mem 0x40034 == 8) ∧
    nextHas (exec (.npush 4 1) (netState true)) (fun t => nextHas (exec (.netHomeRequest 0) t) fun u => (berthOf u 0).bag == [⟨1, 2, 0, 0⟩] &&
      nextHas (exec (.pairPop 0) u) fun v => (berthOf v 0).bag == [] && v.mesh.length == 1 && memByte v.mem 0x40022 == 4) ∧
    nextHas (exec (.nfree 4 1) (netState true)) (fun t => nextHas (exec (.netHomeRequest 0) t) fun u => (coreOf u 0).freeList == [1] &&
      nextHas (exec (.netReplyDelivery 0) u) fun v => nextHas (exec (.nalloc 1 8) v) fun w => nextHas (exec (.netHomeRequest 2) w) fun x =>
        nextHas (exec (.netReplyDelivery 2) x) fun y => regX y 8 == 1 && (coreOf y 0).freeList == []) ∧
    nextHas (exec (.nfree 6 1) (netState true)) (fun t => nextHas (exec (.netHomeRequest 0) t) fun u =>
      nextHas (exec (.netReplyDelivery 0) u) fun v => (me v).ktrap == cNETFREE && (me v).ktdetail == 0x2000000300000003) := by decide +kernel

theorem witness_NetRequestsServed :
    let s := netState true
    let p : Pair := ⟨1, 2, 0, 0⟩
    let o : Overflow := ⟨1, p, 9, 7, false⟩
    let badMem := setQuay s 0 { Quay.reset with badLines := [(0x40040 / 64, [])] }
    let t := { s with glob := { s.glob with overflow := [o] } }
    let pool := setSlice s 3 { Slice.reset with pairs := List.replicate 20 p }
    let v : NodeView := ⟨0, 0, heapCap, 0, pL + pS, true, none⟩
    t.glob.overflow[0]? = some o ∧ answers (markPair v p s) (fun r u => r == some (0, 0) && pairCore u 0 0 (netLaunch true) 0 0 == some 0) ∧
    answers (markPair v ⟨1, 3, 0, 0⟩ s) (fun r _ => r == none) ∧
    endsIn (markPair v p badMem) cUNCORR ∧ badNode v p badMem = 2 ∧
    pairGoes (setBerth s 0 { berthOf s 0 with bag := [p] }) 0 p = true ∧ pairGoes { s with launches := [] } 0 p = true ∧
    (((List.range 4).filterMap fun i => (coreOf s (4 * 0 + i)).place.map (·.launch)).eraseDups.filter (wantsPairs s 0)) = [0] ∧
    nextHas (exec (.pairOverflowPlace 0) t) (fun u => (sliceOf u 1).pairs == [p] && u.glob.overflow == []) ∧
    nextHas (exec (.bagRefill 0 3) pool) (fun u => (berthOf u 0).bag.length == 16 && (sliceOf u 3).pairs.length == 4) := by decide +kernel

/-! ### The package -/

/-- The replies of the homes to a context that waits: a value, an unreadable node, a trap that the homes found. -/
theorem witness_NetReplies :
    let r : Req := ⟨0, 0, 0, 0, .x 8, 0x40020, .net (.load 8 1 1) heapCap 1 [], none, 0, false, true, 0, 0⟩
    let s := withMe { netState true with reqs := [(4, r)] } { me (netState true) with mode := .waiting 4 }
    let with_ := fun (y : Reply) => { s with reqs := [(4, { r with reply := some y })] }
    (ctxOf s 0 0).mode = .waiting 4 ∧ (ctxOf s 0 0).epoch = r.epoch ∧ r.held = false ∧
    answers (netServe 4 0 0 (some (0, 0)) (.load 8 1 1) heapCap 1 s) (fun v _ => v == some 8) ∧
    endsIn (netServe 4 0 0 (some (0, 0)) (.load 8 1 1) heapCap 1 (setQuay s 0 { Quay.reset with badLines := [(0x40020 / 64, [])] })) cUNCORR ∧
    nextHas (exec (.netReplyDelivery 4) (with_ (.error 7))) (fun t => tabGet .full (me t).xs 8 == .error 7 && (me t).mode == .running) ∧
    nextHas (exec (.netReplyDelivery 4) (with_ (.lost 7))) (fun t => tabGet .full (me t).xs 8 == .lost 7) ∧
    nextHas (exec (.netReplyDelivery 4) (with_ (.trap cNETFREE 1))) (trapped cNETFREE 1) := by decide +kernel

def faulted : State := { mapped arith with parts := [(0, { mappedPart with ents := [(0, ⟨false, false, false, 0, 0, 1, 5, 0⟩)] })] }

theorem witness_PagingAnswers :
    let s := mapped arith
    let busy := { s with parts := [(0, { mappedPart with trBusy := true })] }
    let bits := { s with parts := [(0, { mappedPart with trBusy := true, trOp := 4, trFirst := 0, trCount := 1, trBmap := 0x50000, harvest := some ⟨[true], none, 0x50000⟩ })] }
    fieldOf 0x100000000 32 32 ≠ 0 ∧ fieldOf 0x8 3 5 ≠ 0 ∧ tabFind? (partOf s 0).ents 1 = none ∧ (tabFind? (partOf faulted 0).ents 0).isSome ∧
    fieldOf 0x10000 16 16 ≠ (partOf faulted 0).trGen.toNat ∧ fieldOf 0 16 16 = (partOf faulted 0).trGen.toNat ∧
    (partOf busy 0).trBusy = true ∧ cmdDrained busy 0 = true ∧ cmdDrained bits 0 = true ∧ cachesReady busy = true ∧ cachesReady bits = true ∧ (partOf busy 0).harvest = none ∧
    isTranslated 0x50000 = true ∧ bitmapHeld (tlbDrop (writeBackAll bits) 0 0 1) 0 ⟨[true], none, 0x50000⟩ = false ∧
    cmdCount { mappedPart with trCnt := 1 } = 1 ∧ scanHeld { s with parts := [(0, { mappedPart with trCnt := 1 })] } 0 = false ∧
    (∀ n ∈ grownSlices (partOf s 0) 0 5, sliceReady s n = true) ∧ grownSlices (partOf s 0) 0 5 = [0] ∧
    (match writeBitmap 0 1 0x50000 [true] (writeBackAll bits) with | .ok t => memByte t.mem 0x50000 == 1 | .error _ => false) = true ∧
    unperformed s 0 s.nextReq = false ∧ 0 + 1024 ≤ ({ s with clk := 1024 } : State).clk ∧
    nextHas (exec (.pfRespWrite 0 0) faulted) (fun t => (partOf t 0).ents == [] && (partOf t 0).stale == 0) ∧
    nextHas (exec (.pfRespWrite 0 1) s) (fun t => (partOf t 0).stale == 1) ∧
    nextHas (exec (.l2LimitWrite 0 0 0xE) s) (fun t => (partOf t 0).lim0 == 0xE) ∧
    nextHas (exec (.l2LimitWrite 0 0 0xF) s) (fun t => (partOf t 0).lim0 == 0 && t.glob.pmErr) := by decide +kernel

theorem witness_PagingAnswers_lines : let l : Line := ⟨5, 0xFF, 1⟩; let s := setBerth arith 0 { berthOf arith 0 with l1 := [(64, l)] }
    let q := setQuay arith 0 { Quay.reset with l2 := [(0x1000000000 / 64, l)] }
    tabFind? (berthOf s 0).l1 64 = some l ∧ l.dirty ≠ 0 ∧ storeHeld s (64 * 64) 64 = false ∧ l2Fits s (berthQuay 0) 64 = true ∧
    writeBackHeld s (berthQuay 0) 64 = false ∧ storeHeld q 0x1000000000 64 = false ∧ writeBackHeld q 0 (0x1000000000 / 64) = false ∧
    nextHas (exec (.l1WriteBack (.icache 0) 64) (setCore arith 0 { coreOf arith 0 with icache := [(64, 5)] })) (fun t => (coreOf t 0).icache == []) ∧
    nextHas (exec (.irqInject 0x503) arith) (fun t => t.glob.injected == [.guest 3 5]) ∧
    nextHas (exec (.irqInject 0x503) { arith with glob := { arith.glob with endpoint := true } }) (fun t => t.glob.injected == [.msix 4 5]) ∧ (tabFind? (quayOf q 0).l2 (0x1000000000 / 64)) = some l ∧
    nextHas (exec (.l1WriteBack (.l1 0) 64) s) (fun t => (berthOf t 0).l1 == [] && memByte t.mem 4096 == 5) ∧
    nextHas (exec (.l1WriteBack (.l2 0) (0x1000000000 / 64)) q) (fun t => (quayOf t 0).l2 == [] && memByte t.mem 0x1000000000 == 5) := by
  decide +kernel

def haltedState (d : Debug) : State := setBerth arith 0 { berthOf arith 0 with dbg := { d with halted := true }, traceQ := [7] }

theorem witness_DebugAndPower :
    let s := haltedState { Debug.reset with trace := 0x50000 * 2 ^ 12 }
    let pw := { arith with glob := { arith.glob with pwBusy := true, pwCmd := 0x30001 } }
    (berthOf s 0).dbg.halted = true ∧ s.glob.temp.toNat ≤ 95 ∧ (0x8000000000000040 : Dbl).getLsbD 63 = true ∧ (berthOf arith 0).dbg.halted = false ∧
    dbgWindow 0 (localBase 0) = true ∧ windowOf (localBase 0) ≠ 0xF ∧
    ({ arith with glob := { arith.glob with xtrig := some 0 }, clk := 64 } : State).glob.xtrig = some 0 ∧
    fieldOf (berthOf s 0).dbg.trace 12 28 * 4096 + 32 ≤ extEnd ∧ storeHeld s (fieldOf (berthOf s 0).dbg.trace 12 28 * 4096) 32 = false ∧
    accessWaits s 0 (BitVec.ofNat 64 (0xC000000000000000 + localBase 0)) = false ∧ marksMet s ⟨localBase 0, 0, 64, false⟩ = [] ∧
    95 < { s.glob with temp := 96 }.temp.toNat ∧ nextIs (exec (.dbgResumeWrite 0) { s with glob := { s.glob with temp := 96 } }) { s with glob := { s.glob with temp := 96 } } ∧ (berthOf s 0).traceQ = [7] ∧
    pw.glob.pwBusy = true ∧ cachesReady pw = true ∧
    (ctxOf (takeAnswer (setCtx arith 0 1 { Ctx.reset with mode := .parked (.answered false) }) 0 1) 0 1).mode = .running ∧ fieldOf pw.glob.pwCmd 0 3 = 1 ∧ holdsGroup pw 0 = false ∧ sliceUnsplit pw 0 = true ∧
    fieldOf 0x30001 0 3 = 1 ∧ fieldOf 0x30001 8 8 < 128 ∧ fieldOf 0x38001 8 8 = 128 ∧
    nextHas (exec (.dbgHaltWrite 0) arith) (fun t => (berthOf t 0).dbg.halted && (berthOf t 0).dbg.why == 1) ∧
    nextHas (exec (.thermalTrip 104) arith) (fun t => t.glob.temp == 104 && !t.glob.trip) ∧
    nextHas (exec (.traceBufferWrite 0) s) (fun t => (berthOf t 0).traceQ == [] && memByte t.mem 0x50000000 == 7) := by decide +kernel

theorem test_power_and_invalidation :
    let pw := { arith with glob := { arith.glob with pwBusy := true, pwCmd := 0x10001 } }
    nextHas (exec (.pwBerthTransition 0x38001) arith) (fun t => t.glob.pmErr && !t.glob.pwBusy) ∧
    nextHas (exec (.pwBerthTransition 0x10001) arith) (fun t => t.glob.pwBusy && t.glob.pwCmd == 0x10001) ∧
    nextHas (exec .pwTransitionDone pw) (fun t => !t.glob.pwBusy && (berthOf t 0).power == 1) ∧
    nextHas (exec (.icInvalidatePackage 3) arith) (fun t => t.glob.icBusy && nextHas (exec .icInvalidateDone t) fun u => !u.glob.icBusy) ∧
    nextHas (exec (.dbgAccess 0 0x8000000000000000) arith) (fun t => (berthOf t 0).dbg.err) := by decide +kernel


def bootInput : BootInput := ⟨⟨0, 0, 0, 0, 0, 0, [], []⟩, true, true, true, true⟩
def quayState (m : QuayMode) : State := setQuay arith 0 { Quay.reset with mode := m }
/-- Partition 0 with a floor, a ceiling and a weight in every band, so that every resource serves it. -/
def served (s : State) : State := { mapped s with parts := [(0, { mappedPart with
  bands := (List.range 24).map (fun i => (i, 0x060501)), qlPhase := 0x50010 })] }
def portState' (st : QlState) : State := { served arith with glob := { arith.glob with ql0 := { QlPort.reset with state := st } } }

theorem witness_QuaysAndBoot :
    (quayOf arith 0).mode = .up ∧ (quayOf (quayState .fencing) 0).mode = .fencing ∧ (quayOf (quayState .fenced) 0).mode = .fenced ∧
    (quayOf (quayState .resetting) 0).mode = .resetting ∧ (portOf arith 0).state = .down ∧ (portOf (portState' .up) 0).state = .up ∧
    (portOf (portState' .fail) 0).state = .fail ∧ (portOf (portState' .train) 0).state = .train ∧ arith.clk ≤ 0 + 700000000 ∧
    0 + 700000000 ≤ ({ portState' .train with clk := 700000000 } : State).clk ∧
    outsideOk (mapped arith) 0 0x50000 8 = true ∧ outsideOk arith 0 0x50000 8 = false ∧ isBad (mapped arith) 0x50000 8 = false ∧
    portBarred (served arith) 0 0 = false ∧ portBarred arith 0 0 = true ∧ unitWaits (served arith) 0 0x50000 8 true = false ∧
    unitWaits (served arith) 0 0x50000 8 false = false ∧ fieldOf (partOf (served arith) 0).qlPhase 0 48 = 0x50010 ∧ unitHeld (served arith) 0 0x50010 8 true = false ∧ (portOf (portState' .check) 0).state = .check ∧
    ((partnerPhase (served arith) 0).map fun x => (x.1.key, storeHeld x.2 x.1.key 8)) = some (0x50010, false) ∧ meetsMark (mapped arith) 0x50000 8 = false ∧ (partPhys (mapped arith) 0 0x50000).isSome ∧
    berthPart arith (coreBerth 0) = some 0 ∧ tabFind? (partOf enqueuer 0).objs 1 = some codeObject ∧ tabFind? (partOf enqueuer 0).objs 255 = none := by
  decide +kernel

theorem test_quays :
    nextHas (exec (.quayFenceCommand 0) arith) (fun t => (quayOf t 0).mode == .fencing && (quayOf t 0).why == 0) ∧
    nextHas (exec (.quayFenceFault 0 3) arith) (fun t => (quayOf t 0).mode == .fencing && (quayOf t 0).why == 3) ∧
    nextHas (exec (.quayPortsClosed 0) (quayState .fencing)) (fun t => (quayOf t 0).mode == .fenced && t.glob.master == 1) ∧
    nextHas (exec (.quayResetCommand 0) (quayState .fenced)) (fun t => (quayOf t 0).mode == .resetting && (ctxOf t 0 0).mode == .free) ∧
    nextHas (exec (.selfTestPass 0) (quayState .resetting)) (fun t => (quayOf t 0).mode == .up && (berthOf t 0).owner == 0x40) ∧
    nextHas (exec (.selfTestFail 0) (quayState .resetting)) (fun t => (quayOf t 0).mode == .fenced) := by decide +kernel

theorem test_quayline :
    nextHas (exec (.qlEnable 0) arith) (fun t => t.glob.ql0.state == .train) ∧
    nextHas (exec (.qlLanesLocked 0 ⟨.w20, 2, true⟩) (portState' .train)) (fun t => t.glob.ql0.state == .check && t.glob.ql0.lanes == 0xFF &&
      nextHas (exec (.qlLanesLocked 0 ⟨.w20, 2, true⟩) t) fun u => u.glob.ql0.state == .up && u.glob.ql0.lanes == 0xFF) ∧
    nextHas (exec (.qlLanesLocked 0 ⟨.other, 2, true⟩) (portState' .check)) (fun t => t.glob.ql0.state == .fail) ∧
    nextHas (exec (.quaylinePartnerAccess 0 (.writeBits 0 0x50000 4 4 0xB)) (portState' .up)) (fun t => memByte t.mem 0x50000 == 0xB0) ∧
    nextHas (exec (.quaylinePartnerAccess 0 (.arrive 0)) (portState' .up)) (fun t => t.glob.readOut == 0x8000000000000000 && !t.glob.accessFault) ∧
    nextHas (exec (.qlDisable 0) (portState' .fail)) (fun t => t.glob.ql0.state == .down) ∧
    nextHas (exec (.quaylinePartnerAccess 0 (.write 0 0x50000 [9])) (portState' .up)) (fun t => memByte t.mem 0x50000 == 9) ∧
    nextHas (exec (.quaylinePartnerAccess 0 (.read 0 0x4000000000 1)) (portState' .up)) (fun t => t.glob.accessFault) := by decide +kernel

theorem test_boot :
    nextHas (exec (.powerOnReset bootInput) State.reset) (fun t => t.glob.boot == .waitImage) ∧
    nextIs (exec (.codeObjectLoad 0 2 { codeObject with maxBerth := 128 }) enqueuer) enqueuer ∧
    nextHas (exec (.residentServiceInstall ⟨0, 0, 1, localCap 0, [0]⟩) { enqueuer with cores := [] }) (fun t =>
      (tabFind? (coreOf t 0).bind 3).map (·.root) == some (localCap 0)) := by decide +kernel

def ckptState (ctl : Dbl) (busy : Bool) : State :=
  { mapped arith with parts := [(0, { mappedPart with ck := { Ckpt.reset with ctl := ctl, busy := busy } })], clk := 1400000 }

theorem witness_ErrorsAndCheckpoints :
    let cp : Checkpoint := ⟨4, [], [], [], [], [], [], [], [], [], [], [], [], [], [], []⟩
    let s := { ckptState 0x0 false with parts := [(0, { mappedPart with ck := { Ckpt.reset with kept := [cp] } })] }
    let r := { ckptState 0x2 false with parts := [(0, { mappedPart with ck := { Ckpt.reset with ctl := 2 } })] }
    let l1 := setBerth arith 0 { berthOf arith 0 with l1 := [(64, ⟨5, 0xFF, 0⟩)] }
    let l2 := setQuay arith 1 { Quay.reset with l2 := [(64, ⟨5, 0xFF, 0⟩)] }
    (tabFind? (quayOf l2 1).l2 64).isSome ∧ tabGet .full (me arith).cs 15 = .full ∧ (7 : Nat) < 8 ∧ (1 : Nat) ≤ 7 ∧
    (tabFind? (berthOf l1 0).l1 64).isSome ∧ (me arith).mode ≠ .free ∧ tabGet .full (me arith).xs 27 = .full ∧ tabGet .full (me arith).vs 63 = .full ∧
    ((quayOf arith 0).badLines.filter fun e => e.1 != 0x1000 / 64).length < 256 ∧
    (partOf (ckptState 0x41 false) 0).ck.ctl.getLsbD 0 = true ∧ cutReady (ckptState 0x41 false) 0 = true ∧
    0 + fieldOf (partOf (ckptState 0x41 false) 0).ck.ctl 6 10 * 1400000 ≤ (ckptState 0x41 false).clk ∧
    fieldOf (partOf (ckptState 0x41 false) 0).ck.log 0 12 * 2 ^ 20 ≤ 8 * 0 ∧
    (partOf s 0).ck.ctl.getLsbD 0 = false ∧ (partOf s 0).ck.busy = false ∧ (partOf s 0).ck.ctl.getLsbD 1 = false ∧
    (partOf s 0).ck.kept.find? (fun x => x.seq.toNat == 4) = some cp ∧ slotsFree s 0 cp = true ∧
    (partOf r 0).ck.ctl.getLsbD 1 = true ∧ (partOf r 0).ck.replaying = [] := by decide +kernel

theorem test_errors :
    nextHas (exec (.correctableError 5) arith) (fun t => tabGet 0 t.glob.ceCount 5 == 1) ∧
    nextHas (exec (.uncorrectableError (.xreg 0 0 5)) arith) (fun t =>
      nextHas (exec (.add 0 0 0 5 1 8) t) fun u => (me u).ktrap == cUNCORR) ∧
    nextHas (exec (.uncorrectableError (.mreg 0 0 1)) vectors) (fun t => decide (¬ readableM t 1) &&
      nextHas (exec (.vadd 1 2 1 4 0) t) fun u => (me u).ktrap == cUNCORR) ∧
    nextHas (exec (.uncorrectableError (.quayTables 0)) arith) (fun t => (quayOf t 0).mode == .fencing) ∧
    nextHas (exec (.replayLogsExhausted 0) (ckptState 0x2 false)) (fun t => (partOf t 0).ck.ctl == 0) := by decide +kernel

theorem witness_DeviceRegisters :
    let s := served arith
    let word := 0xF000100000 + 0x28
    unitWaits s 0 0x50000 2 true = false ∧ unitWaits s 0 0x50000 2 false = false ∧ barred s 0 23 = false ∧ barred arith 0 23 = true ∧
    registerSized word 8 = true ∧ pageAt 0 word = some (.partition 0, 0x28) ∧ pageAt 16 (0xF000000000 + 0x10) = some (.glob, 0x10) ∧
    pageAt 1 word = none ∧ registerSized word 3 = false ∧ (clearingRead (.partition 0) 0x28 0 8).isNone ∧ pageAt 0 0x50000 = none ∧
    pageAt 0 0x2000000000 = none ∧ fieldOf 0x000500 16 8 < fieldOf 0x000500 8 8 ∧ fieldOf 0x060500 8 8 ≤ fieldOf 0x060500 16 8 ∧
    ((List.range 16).map fun q => if q = 0 then fieldOf 0x060500 8 8 else fieldOf (tabGet 0 (partOf s q).bands 23) 8 8).sum ≤ 240 ∧
    recordsQueued (setSlice s 0 { Slice.reset with seg := [queuedRecord 0 0] }) 0 = true ∧ 10 < fieldOf 11 0 4 ∧
    ({ s with glob := { s.glob with endpoint := true } } : State).glob.endpoint = true ∧
    outsideOk s 0 0x50000 2 = true ∧ outsideOk s 0 0x2000000000 2 = false ∧ meetsMark s 0x50000 2 = false ∧
    meetsMark { s with phases := [(0x50000, [])] } 0x50000 2 = true := by decide +kernel

theorem test_device_registers :
    let s := served arith
    nextHas (exec (.tpDropRead 0) { s with parts := [(0, { mappedPart with tpDrop := 3 })] }) (fun t => t.glob.readOut == 3 && (partOf t 0).tpDrop == 0) ∧
    nextHas (exec (.registerWrite (.manager 0) 0x100 0x060500) s) (fun t => tabGet 0 (partOf t 0).bands 0 == 0x060500) ∧
    nextHas (exec (.registerWrite .glob 0x2000 0x6A5A) s) (fun t => (tabGet Irq.reset t.glob.irq 0).vec == 0x5A && (tabGet Irq.reset t.glob.irq 0).en) ∧
    nextHas (exec (.inboundDeviceWrite 0 0x50000 [1, 2]) s) (fun t => memByte t.mem 0x50001 == 2) ∧
    nextHas (exec (.applicationCoreAccess 0 (.load 0xF000100028 8)) 
      { s with parts := [(0, { mappedPart with pfErr := true, ents := [(3, ⟨false, false, false, 0, 0, 1, 5, 0⟩)] })] }) (fun t => t.glob.readOut == 0x208 && !t.glob.accessFault) ∧
    nextHas (exec (.applicationCoreAccess 16 (.load 0xF000000010 8)) s) (fun t => t.glob.readOut == 0xFFFF) ∧
    nextHas (exec (.applicationCoreAccess 1 (.load 0xF000100028 8)) s) (fun t => t.glob.accessFault) ∧
    nextHas (exec (.applicationCoreAccess 0 (.load 0x2008 1)) s) (fun t => t.glob.readOut == 0x3F && !t.glob.accessFault) := by decide +kernel

/-! ### The machine -/

/-- R64: the detail words that the manual writes out. -/
theorem test_illegal_details :
    nextHas (exec (.illegalEncoding false 0 0x39) arith) (trapped cILLEGAL 0x39) ∧
    nextHas (exec (.illegalEncoding true 1 0x1E) arith) (trapped cILLEGAL 0x30000001E) := by decide +kernel

/-- One step fetches and runs `addi x9, x0, 64` from the local store, and traps on a reserved word. -/
theorem test_step :
    nextHas (step (State.reset.withFetchWord 32 0x00800483)) (fun t => regX t 9 == 64 && (me t).pc == BitVec.ofNat 64 (localBase 0 + 4)) = true ∧
    nextHas (step (State.reset.withFetchWord 16 0xF526)) (fun t => regX t 9 == 0xFFFFFFFFFFFFFFFD && (me t).pc == BitVec.ofNat 64 (localBase 0 + 2)) = true ∧
    nextHas (step (State.reset.withFetchWord 32 0x39)) (fun t => (me t).ktrap == cILLEGAL && (me t).ktdetail == 0x39) = true := by decide +kernel

theorem witness_StepKeepsMemory : MemSafe State.reset ∧ MemSafe (State.reset.withFetchWord 32 0x00800483) ∧
    nextHas (step (State.reset.withFetchWord 32 0x00800483)) (fun t => Memory.wf t.mem) = true := by decide +kernel

theorem witness_DecodeEncode : (Instr.add 1 1 1 28 31 0).WF = true ∧ (Instr.beq 0x800 31 31).WF = true ∧ (Instr.cNop).WF = true := by decide +kernel

theorem witness_StepRunsDecodedInstruction :
    let s := State.reset.withFetchWord 32 0x00800483
    let u := { s with agenda := [], stalled := false, cur := ⟨0, 0⟩ }
    let a := (ctxOf s 0 0).pc.toNat
    s.agenda = [.issue 0] ∧ (ctxOf s 0 0).mode = .running ∧ (ctxOf s 0 0).sfuSaved = [] ∧ (ctxOf s 0 0).follows = none ∧
    (ctxOf s 0 0).sendHold = none ∧ canIssue u 0 0 = true ∧ followers u 0 0 = [] ∧
    answers (fetchWord u) (fun w t => w == 0x00800483 && { t with cores := u.cores } == u) ∧ isTranslated a = false ∧ isTranslated (a + 2) = false ∧ a % 2 = 0 ∧
    (ctxOf s 0 0).pcc.tag = true ∧ capSealed (ctxOf s 0 0).pcc = false ∧ capHas (ctxOf s 0 0).pcc pX = true ∧ capFmt (ctxOf s 0 0).pcc = fRAW8 ∧
    (∀ j < 4, boxHolds (ctxOf s 0 0).pcc (a + j) = true) ∧ passes (windowCheck 0 (ctxOf s 0 0).pcc 0 0 a (a + 1) false) ∧
    passes (windowCheck 0 (ctxOf s 0 0).pcc 0 0 (a + 2) (a + 3) false) ∧ isBad s a 2 = false ∧ sliceIdle s a 2 = false ∧ unwatched u 3 [(a, 4)] ∧
    (ctxOf s 0 0).leaveAsk.isSome = false ∧
    (coreOf s 0).issuedAt ≠ some s.clk ∧ (0 = ((coreOf s 0).rr + 1 + 0) % 4) ∧ a < 2 ^ 48 ∧ a % 64 ≤ 60 ∧
    (tabFind? (coreOf s 0).icache (a / 64)).isNone ∧ (coreOf s 0).icache.length < 512 ∧
    (let z := setCore s 0 { coreOf s 0 with issuedAt := some 0 }; (coreOf z 0).issuedAt = some z.clk ∧ nextIs (step z) { z with agenda := [] }) ∧
    (let z := setCore s 0 { coreOf s 0 with icache := [(a / 64, 0x00C00483)] }; (tabFind? (coreOf z 0).icache (a / 64)) = some 0x00C00483 ∧
      nextHas (step z) (fun t => regX t 9 == 0x60)) := by decide +kernel

/-- R371: a watchpoint on the fetch is met by an instruction that is well encoded, and not by one that stops at an earlier check. -/
theorem witness_StepRunsDecodedInstruction_watched :
    let armed := fun (w : Nat) => let s := State.reset.withFetchWord 32 w
      setBerth s 0 { berthOf s 0 with dbg := { (berthOf s 0).dbg with wp := [(0, BitVec.ofNat 64 (7 * 2 ^ 61 + localBase 0))] } }
    let s := armed 0x00800483
    let bad := armed 0x39
    let u := fun (s : State) => { s with agenda := [], stalled := false, cur := ⟨0, 0⟩ }
    (match watchTest 3 [(localBase 0, 4)] (u s) with | .error e => e == .trap cWATCH (BitVec.ofNat 64 (3 * 2 ^ 60 + localBase 0)) | .ok _ => false : Bool) = true ∧
    nextHas (exec (.addi 0x040 0 9) (u s)) (fun z => stoppedBefore (.addi 0x040 0 9) 0 0 z == false) ∧
    nextHas (exec (.illegalEncoding false 0 0x39) (u bad)) (fun z => stoppedBefore (.illegalEncoding false 0 0x39) 0 0 z == true && z.stalled == false) ∧
    nextHas (step s) (fun t => (me t).ktrap == cWATCH && regX t 9 == 0) ∧ nextHas (step bad) (fun t => (me t).ktrap == cILLEGAL) := by decide +kernel

/-- R367, R396: what the firmware does on its own. -/
theorem witness_StepRunsDecodedInstruction_firmware :
    let s := { arith with agenda := [.firmware .raise, .firmware (.advanceRollback 5), .firmware (.advanceRollback 3)] }
    s.glob.boot = .done ∧ nextHas (step s) (fun t => (tabGet Irq.reset t.glob.irq 643).pend && nextHas (step t) fun u =>
      u.glob.fusedRollback == 5 && nextHas (step u) fun v => v.glob.fusedRollback == 5 && v.agenda == []) := by decide +kernel

/-- A fetch that fails, a step of the manual, a clock advance and a core's own turn. -/
theorem test_turns :
    nextHas (step { State.reset.withFetchWord 32 0 with agenda := [.clk 9, .issue 0] }) (fun t => t.clk == 9 && t.agenda == [.issue 0]) = true ∧
    nextHas (step { arith with agenda := [.event (.thermalTrip 20)] }) (fun t => t.glob.temp == 20 && t.agenda == []) = true ∧
    isEvent (.thermalTrip 20) = true ∧
    nextHas (step { State.reset.withFetchWord 32 0x00800483 with agenda := [] }) (fun t => regX t 9 == 64 && t.clk == 1) = true ∧
    nextHas (step (withMe (State.reset.withFetchWord 32 0) { me (State.reset.withFetchWord 32 0) with pcc := Cap.null }))
      (fun t => (me t).ktrap == cTAG) = true := by decide +kernel

end Sys2Proof.Tests
end

section
/-!
SUPPORT. A trap stops its context: what taking a trap leaves of the modes of the contexts.
-/
namespace Sys2Proof.Machine

open Sys2Proof

/-- The same context executes, and every context has kept its mode. -/
structure SameModes (s t : State) : Prop where
  cur : t.cur = s.cur
  mode : ∀ k c, (ctxOf t k c).mode = (ctxOf s k c).mode

namespace SameModes

theorem refl (s : State) : SameModes s s := ⟨rfl, fun _ _ => rfl⟩

theorem trans {s t u : State} (h : SameModes s t) (g : SameModes t u) : SameModes s u :=
  ⟨g.cur.trans h.cur, fun k c => (g.mode k c).trans (h.mode k c)⟩

theorem foldl {α : Type} {f : State → α → State} (hf : ∀ s x, SameModes s (f s x)) (l : List α) (s : State) :
    SameModes s (l.foldl f s) := by
  induction l generalizing s with
  | nil => exact refl s
  | cons x r ih => exact (hf s x).trans (ih _)

theorem of_cores {s t : State} (hcur : t.cur = s.cur) (hcores : t.cores = s.cores) : SameModes s t :=
  ⟨hcur, fun k c => by simp [ctxOf, coreOf, hcores]⟩

theorem of_memOnly {s t : State} (h : MemOnly s t) : SameModes s t := of_cores h.cur h.cores

theorem setCtx {s : State} {k c : Nat} {x : Ctx} (h : x.mode = (ctxOf s k c).mode) : SameModes s (setCtx s k c x) := by
  refine ⟨rfl, fun j e => ?_⟩
  rw [ctxOf_setCtx]
  split
  · rename_i hk
    obtain ⟨rfl, rfl⟩ := hk
    exact h
  · rfl

theorem setCore {s : State} {k : Nat} {c : Core} (h : c.ctxs = (coreOf s k).ctxs) : SameModes s (setCore s k c) := by
  refine ⟨rfl, fun j e => ?_⟩
  simp only [ctxOf, coreOf_setCore]
  split
  · rename_i hk
    rw [← hk, h]
  · rfl

theorem setBerth {s t : State} {b : Nat} {x : Berth} (h : SameModes s t) : SameModes s (setBerth t b x) :=
  h.trans (of_cores rfl rfl)

/-- What follows the write of a stopped context's fields leaves it stopped. -/
theorem stops {s t : State} {k c : Nat} {x : Ctx} (h : SameModes (Machine.setCtx s k c x) t) (hx : x.mode ≠ .running) :
    t.cur = s.cur ∧ (ctxOf t k c).mode ≠ .running :=
  ⟨h.cur, by rw [h.mode, ctxOf_setCtx_same]; exact hx⟩

end SameModes

theorem sameModes_traceRecord (s : State) (b ty ca k c ch : Nat) (d2 d3 : Dbl) :
    SameModes s (traceRecord s b ty ca k c ch d2 d3) := by
  unfold traceRecord
  simp only
  split
  · exact SameModes.refl s
  · split
    · exact SameModes.of_cores rfl rfl
    · exact SameModes.of_cores rfl rfl

theorem sameModes_enterFault (s : State) (part quay : Nat) (d : Dbl) : SameModes s (enterFault s part quay d).2 := by
  unfold enterFault
  simp only
  split
  · exact SameModes.of_cores rfl rfl
  · split
    · exact SameModes.of_cores rfl rfl
    · exact SameModes.of_cores rfl rfl

theorem sameModes_post (s : State) (f : Flight) : SameModes s (post s f) :=
  (SameModes.setCore rfl : SameModes s (nextNumber s f.header).2).trans (SameModes.of_cores rfl rfl)

theorem sameModes_sendTrap (s : State) (k c : Nat) : SameModes s (sendTrap s k c) := by
  unfold sendTrap
  simp only
  split
  · exact SameModes.of_cores rfl rfl
  · split
    · exact SameModes.refl s
    · exact sameModes_post _ _

theorem sameModes_suspendSfu (s : State) (k c : Nat) : SameModes s (suspendSfu s k c) :=
  .setBerth (.setCtx rfl)

theorem sameModes_suspendLease (s : State) (k c : Nat) : SameModes s (suspendLease s k c) := by
  unfold suspendLease
  simp only
  split
  · exact .setBerth (.setCtx rfl)
  · split
    · exact .setBerth (.setCtx rfl)
    · exact SameModes.setCtx rfl

theorem sameModes_detach (s : State) (k c : Nat) : SameModes s (detach s k c) := by
  unfold detach
  extract_lets x u
  have h : SameModes s u := by
    simp only [u]
    split
    · exact SameModes.refl s
    · exact SameModes.setCtx rfl
  clear_value u
  split
  · refine h.trans (SameModes.foldl (fun s i => ?_) _ _)
    split
    · exact SameModes.setCtx rfl
    · exact SameModes.refl s
  · split
    · exact h
    · split
      · exact h
      · exact h.trans (SameModes.setCtx rfl)

/-- A context whose trap settles stays stopped, and the same context executes. -/
theorem settleTrap_stops (s : State) (k c : Nat) (h : (ctxOf s k c).mode ≠ .running) :
    (settleTrap s k c).cur = s.cur ∧ (ctxOf (settleTrap s k c) k c).mode ≠ .running := by
  unfold settleTrap
  split
  · rename_i cause detail next _
    extract_lets u x parks rpc nested status trpc r y
    have hr : SameModes s r :=
      .of_memOnly ((memOnly_release s (coreBerth k) 4).trans (memOnly_putRecord u _ _ _))
    clear_value r y
    split
    · have hv := sameModes_enterFault r y.part (coreQuay k) detail
      obtain ⟨hcur, hmode⟩ := SameModes.stops (sameModes_traceRecord (setCtx (enterFault r y.part (coreQuay k) detail).2 k c
        { y with mode := .parked (enterFault r y.part (coreQuay k) detail).1 }) (coreBerth k) 4 cause.toNat k c y.ch.toNat y.pc y.ktask)
        nofun
      exact ⟨hcur.trans (hv.cur.trans hr.cur), hmode⟩
    · obtain ⟨hcur, hmode⟩ := SameModes.stops ((sameModes_traceRecord (setCtx r k c { y with mode := .trapped })
        (coreBerth k) 3 cause.toNat k c y.ch.toNat y.pc y.ktask).trans (sameModes_sendTrap _ k c)) nofun
      exact ⟨hcur.trans hr.cur, hmode⟩
  · exact ⟨rfl, h⟩

theorem trapAt_stops (s : State) (k c : Nat) (cause : BitVec 8) (d : Dbl) (n : Bool) :
    (trapAt s k c cause d n).cur = s.cur ∧ (ctxOf (trapAt s k c cause d n) k c).mode ≠ .running := by
  unfold trapAt
  extract_lets x u v
  have hv : SameModes u v :=
    ((sameModes_detach u k c).trans (sameModes_suspendSfu _ k c)).trans (sameModes_suspendLease _ k c)
  have hu : (ctxOf v k c).mode ≠ .running := by simp [hv.mode, u]
  have hcur : v.cur = s.cur := hv.cur
  clear_value v
  split
  · obtain ⟨h1, h2⟩ := settleTrap_stops v k c hu
    exact ⟨h1.trans hcur, h2⟩
  · exact ⟨hcur, hu⟩

/-- R345: a context that takes a trap no longer runs. -/
theorem takeTrap_stops (s : State) (cause : BitVec 8) (d : Dbl) (n : Bool) : (me (takeTrap s cause d n)).mode ≠ .running := by
  obtain ⟨h1, h2⟩ := trapAt_stops s s.cur.core s.cur.ctx cause d n
  simp only [me, takeTrap, h1]
  exact h2

theorem me_stalled (s : State) (b : Bool) : me { s with stalled := b } = me s := rfl

theorem traps_stops (s : State) (cause : BitVec 8) (d : Dbl) (n : Bool) : (me (traps s cause d n)).mode ≠ .running := by
  rw [traps, me_stalled]
  exact takeTrap_stops s cause d n

end Sys2Proof.Machine
end

section
/-!
SUPPORT. The frame of an instruction on registers (R8, R9): what such an instruction may change besides its own context are link queues
and event counters. Which fields of its own context may change is a relation between contexts that each family of instructions supplies.
-/
namespace Sys2Proof.Machine

open Sys2Proof

/-! ### The relation between two states -/

/-- A relation between an executing context before and after that a sequence of changes keeps, the move to another pc among them. -/
structure CtxFrame (P : Ctx → Ctx → Prop) : Prop where
  refl : ∀ x, P x x
  trans : ∀ {x y z}, P x y → P y z → P x z
  pc : ∀ x (pc : Dbl), P x { x with pc := pc, watchSkip := none }

/-- Besides the executing context, which a relation describes, only link queues, event counters and the stall mark differ. -/
structure Framed (P : Ctx → Ctx → Prop) (s t : State) : Prop where
  rest : t = { s with cores := t.cores, berths := t.berths, stalled := t.stalled }
  saved : savedLinksOnly s t
  core : ∀ k, coreOf t k = { coreOf s k with ctxs := (coreOf t k).ctxs, links := (coreOf t k).links, obs := (coreOf t k).obs }
  other : ∀ k c, (k, c) ≠ (s.cur.core, s.cur.ctx) → ctxOf t k c = ctxOf s k c
  own : P (me s) (me t)

theorem savedLinksOnly_refl (s : State) : savedLinksOnly s s := fun _ => ⟨rfl, rfl, fun _ _ => rfl⟩

theorem savedLinksOnly_trans {s t u : State} (h : savedLinksOnly s t) (g : savedLinksOnly t u) : savedLinksOnly s u := by
  intro b
  obtain ⟨hb, hs, hc⟩ := h b
  obtain ⟨gb, gs, gc⟩ := g b
  refine ⟨?_, gs.trans hs, fun part n => ?_⟩
  · rw [hb] at gb
    exact gb
  · have := gc part n
    rw [hc part n] at this
    exact this

/-- What the berths hold alone decides what they hold saved. -/
theorem savedLinksOnly_of_berths {s t : State} (h : t.berths = s.berths) : savedLinksOnly s t := by
  have hb : ∀ b, berthOf t b = berthOf s b := fun b => by simp [berthOf, h]
  exact fun b => ⟨by simp [hb], by simp [hb], fun part n => by simp [savedCore, hb]⟩

namespace Framed

variable {P : Ctx → Ctx → Prop}

theorem cur {s t : State} (h : Framed P s t) : t.cur = s.cur := by rw [h.rest]

theorem refl (hP : CtxFrame P) (s : State) : Framed P s s :=
  ⟨rfl, savedLinksOnly_refl s, fun _ => rfl, fun _ _ _ => rfl, hP.refl _⟩

theorem trans (hP : CtxFrame P) {s t u : State} (h : Framed P s t) (g : Framed P t u) : Framed P s u where
  rest := by
    have hr := h.rest
    have gr := g.rest
    rw [hr] at gr
    exact gr
  saved := savedLinksOnly_trans h.saved g.saved
  core k := by
    have gk := g.core k
    rw [h.core k] at gk
    exact gk
  other k c hkc := (g.other k c (by rw [h.cur]; exact hkc)).trans (h.other k c hkc)
  own := hP.trans h.own g.own

theorem mono {Q : Ctx → Ctx → Prop} {s t : State} (h : Framed P s t) (hQ : ∀ {x y}, P x y → Q x y) : Framed Q s t :=
  ⟨h.rest, h.saved, h.core, h.other, hQ h.own⟩

theorem stalled (hP : CtxFrame P) (s : State) (b : Bool) : Framed P s { s with stalled := b } :=
  ⟨rfl, savedLinksOnly_refl s, fun _ => rfl, fun _ _ _ => rfl, hP.refl _⟩

/-- A core whose link queues and event counters alone change. -/
theorem setCore (hP : CtxFrame P) (s : State) (k : Nat) (l : Tab (List LinkEntry)) (o : Tab Dbl) :
    Framed P s (setCore s k { coreOf s k with links := l, obs := o }) := by
  have hctx : ∀ j c, ctxOf (Machine.setCore s k { coreOf s k with links := l, obs := o }) j c = ctxOf s j c :=
    fun j c => by
      simp only [ctxOf, coreOf_setCore]
      split
      · rename_i hk
        rw [← hk]
      · rfl
  refine ⟨rfl, savedLinksOnly_of_berths rfl, fun j => ?_, fun j c _ => hctx j c, ?_⟩
  · rw [coreOf_setCore]
    split
    · rename_i hk
      rw [← hk]
    · rfl
  · simp only [me, setCore_cur, hctx]
    exact hP.refl _

/-- The executing context alone changes. -/
theorem withMe (s : State) {x : Ctx} (h : P (me s) x) : Framed P s (withMe s x) where
  rest := rfl
  saved := savedLinksOnly_of_berths rfl
  core k := by
    rw [coreOf_setCtx]
    split
    · rename_i hk
      rw [← hk]
    · rfl
  other k c hkc := by
    rw [ctxOf_setCtx, if_neg]
    rintro ⟨rfl, rfl⟩
    exact hkc rfl
  own := by simpa only [me, setCtx_cur, ctxOf_setCtx_same] using h

end Framed

/-- A saved berth with a core of one partition replaced, as `setSavedCore` does it. -/
def putSavedCore (part n : Nat) (c : Core) (x : SavedBerth) : SavedBerth :=
  if x.part = part then { x with cores := tabPut x.cores n c } else x

@[simp] theorem putSavedCore_part (part n : Nat) (c : Core) (x : SavedBerth) : (putSavedCore part n c x).part = x.part := by
  unfold putSavedCore
  split <;> rfl

theorem putSavedCore_but_cores (part n : Nat) (c : Core) (x : SavedBerth) :
    { putSavedCore part n c x with cores := [] } = { x with cores := [] } := by
  unfold putSavedCore
  split <;> rfl

theorem setSavedCore_eq (s : State) (part n : Nat) (c : Core) :
    setSavedCore s part n c = setBerth s (coreBerth n)
      { berthOf s (coreBerth n) with saved := (berthOf s (coreBerth n)).saved.map (putSavedCore part n c) } := rfl

theorem savedCore_eq (s : State) (part n : Nat) :
    savedCore s part n = (((berthOf s (coreBerth n)).saved.find? fun x => x.part == part).map
      fun x => tabGet Core.reset x.cores n).getD Core.reset := by
  unfold savedCore
  split <;> rename_i h <;> rw [h] <;> rfl

theorem tabGet_putSavedCore (part n : Nat) (c : Core) (x : SavedBerth) (m : Nat) :
    tabGet Core.reset (putSavedCore part n c x).cores m =
      if x.part = part ∧ n = m then c else tabGet Core.reset x.cores m := by
  unfold putSavedCore
  by_cases hp : x.part = part <;> simp [hp, tabGet_put]

/-- R51: what a saved core is once one has been replaced: the new one at its own place, and what it was everywhere else. -/
theorem savedCore_setSavedCore (s : State) (part n : Nat) (c : Core) (p m : Nat) :
    savedCore (setSavedCore s part n c) p m = savedCore s p m ∨
      p = part ∧ m = n ∧ savedCore (setSavedCore s part n c) p m = c := by
  by_cases hb : coreBerth n = coreBerth m
  · rw [savedCore_eq, savedCore_eq, setSavedCore_eq, ← hb, berthOf_setBerth_same]
    have hfind : ((berthOf s (coreBerth n)).saved.map (putSavedCore part n c)).find? (fun x => x.part == p) =
        ((berthOf s (coreBerth n)).saved.find? fun x => x.part == p).map (putSavedCore part n c) := by
      simp only [List.find?_map, Function.comp_def, putSavedCore_part]
    rw [hfind]
    cases hx : (berthOf s (coreBerth n)).saved.find? fun x => x.part == p with
    | none => exact .inl rfl
    | some x =>
      have hpart : x.part = p := by simpa using List.find?_some hx
      simp only [Option.map_some, Option.getD_some, tabGet_putSavedCore]
      split
      · rename_i h
        exact .inr ⟨hpart.symm.trans h.1, h.2.symm, rfl⟩
      · exact .inl rfl
  · refine .inl ?_
    rw [savedCore_eq, savedCore_eq, setSavedCore_eq, berthOf_setBerth, if_neg hb]

/-- R51: the links of a core that a berth holds saved change. -/
theorem savedLinksOnly_setSavedCore (s : State) (part n : Nat) (l : Tab (List LinkEntry)) :
    savedLinksOnly s (setSavedCore s part n { savedCore s part n with links := l }) := by
  intro b
  refine ⟨?_, ?_, fun p m => ?_⟩
  · rw [setSavedCore_eq, berthOf_setBerth]
    split
    · rename_i hb
      rw [← hb]
    · rfl
  · rw [setSavedCore_eq, berthOf_setBerth]
    split
    · rename_i hb
      rw [← hb, List.map_map]
      exact List.map_congr_left fun x _ => putSavedCore_but_cores part n _ x
    · rfl
  · rcases savedCore_setSavedCore s part n { savedCore s part n with links := l } p m with h | ⟨rfl, rfl, h⟩
    · rw [h]
    · rw [h]

namespace Framed

variable {P : Ctx → Ctx → Prop}

theorem setSavedCore (hP : CtxFrame P) (s : State) (part n : Nat) (l : Tab (List LinkEntry)) :
    Framed P s (setSavedCore s part n { savedCore s part n with links := l }) :=
  ⟨rfl, savedLinksOnly_setSavedCore s part n l, fun _ => rfl, fun _ _ _ => rfl, hP.refl _⟩

theorem setInbound (hP : CtxFrame P) (s : State) (part n key : Nat) (q : List LinkEntry) : Framed P s (setInbound s part n key q) := by
  unfold Machine.setInbound
  extract_lets put
  split
  · exact setSavedCore hP s part n _
  · exact setCore hP s n _ _

theorem joinQueue (hP : CtxFrame P) (s : State) (part n key : Nat) (e : LinkEntry) : Framed P s (joinQueue s part n key e) :=
  setInbound hP s part n key _

theorem countEvent (hP : CtxFrame P) (s : State) (k c e n : Nat) : Framed P s (countEvent s k c e n) := by
  unfold Machine.countEvent
  extract_lets core bump
  split
  · exact refl hP s
  · exact setCore hP s k _ _

theorem advance (hP : CtxFrame P) (s : State) (n : Next) (len : Nat) : Framed P s (advance s n len) := by
  unfold Machine.advance
  cases n with
  | seq => exact withMe s (hP.pc _ _)
  | jump pc => exact withMe s (hP.pc _ _)
  | stay => exact refl hP s

theorem waits (hP : CtxFrame P) (s : State) (w : Wait) : Framed P s (waits s w) := by
  cases w with
  | empty => exact (countEvent hP s _ _ _ _).trans hP (.stalled hP _ _)
  | link => exact (countEvent hP s _ _ _ _).trans hP (.stalled hP _ _)
  | other => exact .stalled hP s true

end Framed

/-! ### Meanings -/

/-- Why an instruction on registers stops: it waits, or it traps. -/
def Stop.waitsOrTraps : Stop → Prop
  | .stall _ => True
  | .trap _ _ => True
  | _ => False

/-- A meaning that, run on a state, ends in its frame, or stops because it waits or traps. -/
structure EndsFramed {α : Type} (P : Ctx → Ctx → Prop) (m : Act α) (s : State) : Prop where
  ok : ∀ {x t}, m s = .ok (x, t) → Framed P s t
  stop : ∀ {e}, m s = .error e → e.waitsOrTraps

/-- R8, R9: an instruction whose meaning keeps its frame keeps it where its context still runs: complete, or waiting. -/
theorem framed_of_runInstr {P : Ctx → Ctx → Prop} (hP : CtxFrame P) {legal : Option (BitVec 3)} {word : BitVec 32} {len : Nat}
    {act : Act Next} {s t : State} (ha : EndsFramed P act s) (h : runInstr legal word len act s = .next t)
    (ht : (me t).mode = .running) : Framed P s t := by
  cases legal with
  | some reason =>
    rw [runInstr_illegal] at h
    exact absurd ht (Host.Outcome.next.inj h ▸ traps_stops _ _ _ _)
  | none =>
    cases hm : act s with
    | ok p =>
      rw [runInstr_ok rfl hm] at h
      exact Host.Outcome.next.inj h ▸ ((ha.ok hm).trans hP (.advance hP _ _ _)).trans hP (.stalled hP _ _)
    | error e =>
      have hw := ha.stop hm
      cases e with
      | stall w =>
        rw [runInstr_stall rfl hm] at h
        exact Host.Outcome.next.inj h ▸ .waits hP s w
      | trap cause d =>
        rw [runInstr_trap rfl hm] at h
        exact absurd ht (Host.Outcome.next.inj h ▸ traps_stops _ _ _ _)
      | _ => exact hw.elim

/-- A meaning that keeps its frame from every state, for a relation that a sequence keeps. -/
def Keeps {α : Type} (P : Ctx → Ctx → Prop) (m : Act α) : Prop := CtxFrame P → ∀ s, EndsFramed P m s

/-- An instruction that is run as a meaning that keeps a frame. -/
def RunsKeeping (P : Ctx → Ctx → Prop) (i : Instr) : Prop :=
  ∃ legal word len act, exec i = runInstr legal word len act ∧ Keeps P act

theorem RunsKeeping.framed {P : Ctx → Ctx → Prop} {i : Instr} (h : RunsKeeping P i) (hP : CtxFrame P) {s t : State}
    (hi : exec i s = .next t) (ht : (me t).mode = .running) : Framed P s t := by
  obtain ⟨legal, word, len, act, hrun, hact⟩ := h
  exact framed_of_runInstr hP (hact hP s) (hrun ▸ hi) ht

theorem RunsKeeping.mono {P Q : Ctx → Ctx → Prop} {i : Instr} (h : RunsKeeping P i) (hP : CtxFrame P)
    (hQ : ∀ {x y}, P x y → Q x y) : RunsKeeping Q i := by
  obtain ⟨legal, word, len, act, hrun, hact⟩ := h
  exact ⟨legal, word, len, act, hrun, fun _ s => ⟨fun e => ((hact hP s).ok e).mono hQ, (hact hP s).stop⟩⟩

end Sys2Proof.Machine
end

section
/-!
SUPPORT. The frame of each step that an instruction on registers is made of: the rules of `EndsFramed`, from the parts of a meaning to the operand
forms.
-/
namespace Sys2Proof.Machine

open Sys2Proof

namespace EndsFramed

variable {P : Ctx → Ctx → Prop} {α β : Type} {s : State}

/-! ### Sequences and checks -/

theorem of_ok {m : Act α} {x : α} {t : State} (h : m s = .ok (x, t)) (ht : Framed P s t) : EndsFramed P m s where
  ok e := by
    rw [h] at e
    cases e
    exact ht
  stop e := by
    rw [h] at e
    cases e

theorem pure (hP : CtxFrame P) (x : α) : EndsFramed P (Pure.pure x : Act α) s := of_ok rfl (.refl hP s)

theorem bind (hP : CtxFrame P) {m : Act α} {f : α → Act β} (hm : EndsFramed P m s)
    (hf : ∀ x t, m s = .ok (x, t) → EndsFramed P (f x) t) : EndsFramed P (m >>= f) s where
  ok h := by
    obtain ⟨x, t, h1, h2⟩ := act_bind_inv h
    exact (hm.ok h1).trans hP ((hf x t h1).ok h2)
  stop h := by
    cases hms : m s with
    | ok p =>
      rw [act_bind_ok hms] at h
      exact (hf p.1 p.2 hms).stop h
    | error e =>
      rw [act_bind_error hms] at h
      cases h
      exact hm.stop hms

/-- A sequence whose first part answers at once. -/
theorem bind_ok {m : Act α} {f : α → Act β} {x : α} (h : m s = .ok (x, s)) (hf : EndsFramed P (f x) s) :
    EndsFramed P (m >>= f) s where
  ok e := by
    rw [act_bind_ok h] at e
    exact hf.ok e
  stop e := by
    rw [act_bind_ok h] at e
    exact hf.stop e

/-- A sequence of meanings that keep the frame from every state. -/
theorem seq (hP : CtxFrame P) {m : Act α} {f : α → Act β} (hm : EndsFramed P m s) (hf : ∀ x t, EndsFramed P (f x) t) :
    EndsFramed P (m >>= f) s := bind hP hm fun x t _ => hf x t

theorem ite {p : Prop} [Decidable p] {a b : Act α} (ha : p → EndsFramed P a s) (hb : ¬ p → EndsFramed P b s) :
    EndsFramed P (if p then a else b) s := by
  split
  · exact ha ‹_›
  · exact hb ‹_›

theorem halt {e : Stop} (he : e.waitsOrTraps) : EndsFramed P (Machine.halt e : Act α) s where
  ok h := by cases h
  stop h := by
    cases h
    exact he

theorem check (hP : CtxFrame P) (b : Bool) (c : BitVec 8) (d : Dbl) : EndsFramed P (Machine.check b c d) s :=
  ite (fun _ => pure hP ()) fun _ => halt trivial

/-! ### Link ports -/

theorem linkCheck (hP : CtxFrame P) (dir : Nat) (vec fwd : Bool) : EndsFramed P (Machine.linkCheck dir vec fwd) s :=
  bind_ok (act_hereId s) <| seq hP (check hP _ _ _) fun _ _ => ite (fun _ => check hP _ _ _) fun _ => pure hP ()

theorem scalarLink (hP : CtxFrame P) (r : BitVec 5) (fwd : Bool) : EndsFramed P (Machine.scalarLink r fwd) s :=
  ite (fun _ => linkCheck hP _ _ _) fun _ => pure hP ()

theorem vectorLink (hP : CtxFrame P) (r : BitVec 6) : EndsFramed P (Machine.vectorLink r) s :=
  ite (fun _ => linkCheck hP _ _ _) fun _ => pure hP ()

theorem intoLink (hP : CtxFrame P) (dir : Nat) (vec : Bool) (e : LinkEntry) : EndsFramed P (Machine.intoLink dir vec e) s := by
  refine bind_ok (act_get s) ?_
  split
  · exact halt trivial
  · exact bind_ok (act_here s) <| ite (fun _ => halt trivial) fun _ => of_ok (act_set _ _) (.joinQueue hP s _ _ _ _)

theorem pushLink (hP : CtxFrame P) (dir : Nat) (vec : Bool) (v : Quad) : EndsFramed P (Machine.pushLink dir vec v) s :=
  intoLink hP dir vec _

theorem popLink (hP : CtxFrame P) (dir : Nat) (vec trapBit : Bool) (reg : Nat) : EndsFramed P (Machine.popLink dir vec trapBit reg) s := by
  refine bind_ok (act_get s) ?_
  simp only
  split
  · exact seq hP (of_ok (act_set _ _) (.setCore hP s _ _ _)) fun _ _ => pure hP _
  · exact halt trivial
  · exact halt trivial
  · exact ite (fun _ => halt trivial) fun _ => halt trivial

theorem popForward (hP : CtxFrame P) (dir : Nat) (vec fwd trapBit : Bool) (reg : Nat) :
    EndsFramed P (Machine.popForward dir vec fwd trapBit reg) s := by
  refine ite (fun _ => bind_ok (act_get s) ?_) fun _ => popLink hP _ _ _ _
  split
  · exact halt trivial
  · exact bind_ok (act_here s) <| ite (fun _ => halt trivial) fun _ =>
      seq hP (popLink hP _ _ _ _) fun _ _ => seq hP (pushLink hP _ _ _) fun _ _ => pure hP _

/-! ### Registers -/

theorem needFull (hP : CtxFrame P) (st : RegState) (trapBit : Bool) (file reg : Nat) :
    EndsFramed P (Machine.needFull st trapBit file reg) s := by
  cases st with
  | full => exact pure hP ()
  | empty => exact ite (fun _ => halt trivial) fun _ => halt trivial
  | error d => exact halt trivial
  | lost d => exact halt trivial

theorem waitFilled_ok {st : RegState} {t : State} {x : Unit} (h : Machine.waitFilled st s = .ok (x, t)) : t = s := by
  unfold Machine.waitFilled at h
  rw [act_ite] at h
  split at h
  · cases h
  · cases h
    rfl

theorem waitFilled (hP : CtxFrame P) (st : RegState) : EndsFramed P (Machine.waitFilled st) s :=
  ite (fun _ => halt trivial) fun _ => pure hP ()

theorem readX (hP : CtxFrame P) (r : BitVec 5) (trapBit fwd : Bool) : EndsFramed P (Machine.readX r trapBit fwd) s :=
  ite (fun _ => pure hP 0) fun _ =>
    ite (fun _ => seq hP (popForward hP _ _ _ _ _) fun _ _ => pure hP _) fun _ =>
      bind_ok (act_here s) <| seq hP (needFull hP _ _ _ _) fun _ _ => pure hP _

theorem readV (hP : CtxFrame P) (r : BitVec 6) : EndsFramed P (Machine.readV r) s :=
  bind_ok (act_here s) <| ite (fun _ => popLink hP _ _ _ _) fun _ => seq hP (needFull hP _ _ _ _) fun _ _ => pure hP _

theorem readM (hP : CtxFrame P) (r : BitVec 3) : EndsFramed P (Machine.readM r) s :=
  ite (fun _ => pure hP _) fun _ => bind_ok (act_here s) <| seq hP (needFull hP _ _ _ _) fun _ _ => pure hP _

theorem readOld (hP : CtxFrame P) (m : BitVec 3) (v : BitVec 6) : EndsFramed P (Machine.readOld m v) s :=
  ite (fun _ => pure hP _) fun _ => readV hP v

/-- The executing context alone changes once an earlier producer has filled the register that is written. -/
theorem putFilled (hP : CtxFrame P) (st : RegState) {x : Ctx} (h : P (me s) x) :
    EndsFramed P (do Machine.waitFilled st; putHere x) s :=
  bind hP (waitFilled hP st) fun _ t ht => by
    rw [waitFilled_ok ht]
    exact of_ok (act_putHere x s) (.withMe s h)

theorem writeX (hP : CtxFrame P) (r : BitVec 5) (v : Dbl) (h : ∀ x, P x (putX x r.toNat v)) : EndsFramed P (Machine.writeX r v) s :=
  ite (fun _ => pure hP ()) fun _ =>
    ite (fun _ => pushLink hP _ _ _) fun _ => bind_ok (act_here s) <| putFilled hP _ (h _)

theorem writeV (hP : CtxFrame P) (r : BitVec 6) (v : Quad) (h : ∀ x, P x (putV x (physV x r.toNat) v)) :
    EndsFramed P (Machine.writeV r v) s :=
  bind_ok (act_here s) <| ite (fun _ => pushLink hP _ _ _) fun _ => putFilled hP _ (h _)

/-! ### Rounding -/

theorem addFlags (f : BitVec 5) (h : ∀ x : Ctx, P x { x with fflags := x.fflags ||| f }) : EndsFramed P (Machine.addFlags f) s :=
  of_ok (act_modHere _ s) (.withMe s (h _))

theorem takeRound (hP : CtxFrame P) (h : ∀ x : Ctx, P x { x with seed := x.seed + 1 }) : EndsFramed P Machine.takeRound s := by
  refine of_ok (takeRound_seeded s) ?_
  unfold seeded
  split
  · exact .withMe s (h _)
  · exact .refl hP s

end EndsFramed
namespace Keeps

variable {P : Ctx → Ctx → Prop} {α β : Type}

theorem pure (x : α) : Keeps P (Pure.pure x : Act α) := fun hP _ => .pure hP x

theorem bind {m : Act α} {f : α → Act β} (hm : Keeps P m) (hf : ∀ x, Keeps P (f x)) : Keeps P (m >>= f) :=
  fun hP s => .seq hP (hm hP s) fun x t => hf x hP t

theorem ite {p : Prop} [Decidable p] {a b : Act α} (ha : Keeps P a) (hb : Keeps P b) : Keeps P (if p then a else b) :=
  fun hP s => .ite (fun _ => ha hP s) fun _ => hb hP s

/-- Two ways to a value, one rest. -/
theorem join {p : Prop} [Decidable p] {a b : Act α} {f : α → Act β} (ha : Keeps P a) (hb : Keeps P b) (hf : ∀ x, Keeps P (f x)) :
    Keeps P (if p then a >>= f else b >>= f) := ite (bind ha hf) (bind hb hf)

theorem check (b : Bool) (c : BitVec 8) (d : Dbl) : Keeps P (Machine.check b c d) := fun hP _ => .check hP b c d

theorem here : Keeps P Machine.here := fun hP s => .of_ok (act_here s) (.refl hP s)

theorem scalarLink (r : BitVec 5) (fwd : Bool) : Keeps P (Machine.scalarLink r fwd) := fun hP _ => .scalarLink hP r fwd

theorem vectorLink (r : BitVec 6) : Keeps P (Machine.vectorLink r) := fun hP _ => .vectorLink hP r

theorem readX (r : BitVec 5) (trapBit fwd : Bool) : Keeps P (Machine.readX r trapBit fwd) := fun hP _ => .readX hP r trapBit fwd

theorem readV (r : BitVec 6) : Keeps P (Machine.readV r) := fun hP _ => .readV hP r

theorem readM (r : BitVec 3) : Keeps P (Machine.readM r) := fun hP _ => .readM hP r

theorem readOld (m : BitVec 3) (v : BitVec 6) : Keeps P (Machine.readOld m v) := fun hP _ => .readOld hP m v

end Keeps

end Sys2Proof.Machine
end

section
/-!
The frame of the instructions on scalar registers (R8, R9, R160 to R168).
-/
namespace Sys2Proof.Machine

open Sys2Proof

/-! ### What an instruction on scalar registers may change of its context -/

/-- Of a context only the scalar register `d`, the pc, the flags, the seed and the watchpoint to be passed over differ; without `rounds`
the flags and the seed are kept too. -/
structure ScalarFrame (rounds : Bool) (d : BitVec 5) (x y : Ctx) : Prop where
  rest : y = { x with x := y.x, xs := y.xs, pc := y.pc, fflags := y.fflags, seed := y.seed, watchSkip := y.watchSkip }
  reg : ∀ r, r ≠ d → tabGet 0 y.x r.toNat = tabGet 0 x.x r.toNat ∧ tabGet .full y.xs r.toNat = tabGet .full x.xs r.toNat
  steady : rounds = false → y.fflags = x.fflags ∧ y.seed = x.seed

theorem CtxFrame.scalars (rounds : Bool) (d : BitVec 5) : CtxFrame (ScalarFrame rounds d) where
  refl _ := ⟨rfl, fun _ _ => ⟨rfl, rfl⟩, fun _ => ⟨rfl, rfl⟩⟩
  trans h g := by
    refine ⟨?_, fun r hr => ?_, fun hq => ?_⟩
    · have gr := g.rest
      rw [h.rest] at gr
      exact gr
    · exact ⟨(g.reg r hr).1.trans (h.reg r hr).1, (g.reg r hr).2.trans (h.reg r hr).2⟩
    · exact ⟨(g.steady hq).1.trans (h.steady hq).1, (g.steady hq).2.trans (h.steady hq).2⟩
  pc _ _ := ⟨rfl, fun _ _ => ⟨rfl, rfl⟩, fun _ => ⟨rfl, rfl⟩⟩

namespace ScalarFrame

theorem putX (rounds : Bool) (d : BitVec 5) (v : Dbl) (x : Ctx) : ScalarFrame rounds d x (putX x d.toNat v) where
  rest := rfl
  reg r hr := by
    have hn : d.toNat ≠ r.toNat := fun h => hr (BitVec.eq_of_toNat_eq h.symm)
    exact ⟨tabGet_put_other _ _ _ hn, by simp [Machine.putX, tabGet_erase, hn]⟩
  steady _ := ⟨rfl, rfl⟩

theorem flags (d : BitVec 5) (f : BitVec 5) (x : Ctx) : ScalarFrame true d x { x with fflags := f } :=
  ⟨rfl, fun _ _ => ⟨rfl, rfl⟩, nofun⟩

theorem seed (d : BitVec 5) (n : BitVec 32) (x : Ctx) : ScalarFrame true d x { x with seed := n } :=
  ⟨rfl, fun _ _ => ⟨rfl, rfl⟩, nofun⟩

end ScalarFrame

/-- The statement's form of the frame. -/
theorem Framed.scalarsOnly {rounds : Bool} {d : BitVec 5} {s t : State} (h : Framed (ScalarFrame rounds d) s t) :
    scalarsOnly s t d ∧ (rounds = false → (me t).fflags = (me s).fflags ∧ (me t).seed = (me s).seed) := by
  refine ⟨⟨h.rest, h.saved, h.core, h.other, h.own.rest, fun r hr => ⟨?_, (h.own.reg r hr).2⟩⟩, h.own.steady⟩
  unfold regX
  rw [(h.own.reg r hr).1]

/-! ### The operand forms -/

namespace Keeps

variable {rounds : Bool} {d : BitVec 5}

/-- The last steps of every form that writes a register. -/
theorem write (v : Dbl) (n : Next) : Keeps (ScalarFrame rounds d) (do writeX d v; Pure.pure n) :=
  bind (fun hP _ => .writeX hP d v (.putX rounds d v)) fun _ => pure n

theorem formR {f eb ea : BitVec 1} {b a : BitVec 5} {g : Dbl → Dbl → Act Dbl} (hg : ∀ x y, Keeps (ScalarFrame rounds d) (g x y)) :
    Keeps (ScalarFrame rounds d) (formR f eb ea b a d g) :=
  bind (scalarLink _ _) fun _ => bind (scalarLink _ _) fun _ => bind (scalarLink _ _) fun _ =>
    bind (readX _ _ _) fun _ => bind (readX _ _ _) fun _ => bind (hg _ _) fun _ => write _ _

theorem formRD {f eb ea : BitVec 1} {b a : BitVec 5} {g : Dbl → Dbl → Dbl → Act Dbl} (hg : ∀ x y z, Keeps (ScalarFrame rounds d) (g x y z)) :
    Keeps (ScalarFrame rounds d) (formRD f eb ea b a d g) :=
  bind (scalarLink _ _) fun _ => bind (scalarLink _ _) fun _ =>
    bind (readX _ _ _) fun _ => bind (readX _ _ _) fun _ => bind (readX _ _ _) fun _ => bind (hg _ _ _) fun _ => write _ _

theorem formU {f ea : BitVec 1} {a : BitVec 5} {g : Dbl → Act Dbl} (hg : ∀ x, Keeps (ScalarFrame rounds d) (g x)) :
    Keeps (ScalarFrame rounds d) (formU f ea a d g) :=
  bind (scalarLink _ _) fun _ => bind (scalarLink _ _) fun _ => bind (readX _ _ _) fun _ => bind (hg _) fun _ => write _ _

theorem formK {a : BitVec 5} {g : Dbl → Act Dbl} (hg : ∀ x, Keeps (ScalarFrame rounds d) (g x)) : Keeps (ScalarFrame rounds d) (formK a d g) :=
  bind (scalarLink _ _) fun _ => bind (scalarLink _ _) fun _ => bind (readX _ _ _) fun _ => bind (hg _) fun _ => write _ _

theorem formC2 (b : BitVec 5) (g : Dbl → Dbl → Dbl) : Keeps (ScalarFrame rounds d) (formC2 b d g) :=
  bind (scalarLink _ _) fun _ => bind (scalarLink _ _) fun _ => bind (readX _ _ _) fun _ => bind (readX _ _ _) fun _ => write _ _

/-- R63, R163: a constant into a register. -/
theorem constant (v : Dbl) : Keeps (ScalarFrame rounds d) (do Machine.scalarLink d false; writeX d v; Pure.pure Next.seq) :=
  bind (scalarLink _ _) fun _ => write _ _

theorem formB (o : BitVec 12) (b a : BitVec 5) (g : Dbl → Dbl → Bool) : Keeps (ScalarFrame rounds d) (formB o b a g) :=
  bind (scalarLink _ _) fun _ => bind (scalarLink _ _) fun _ => bind (readX _ _ _) fun _ => bind (readX _ _ _) fun _ =>
    bind here fun _ => ite (pure _) (pure _)

theorem compactBranch (o : BitVec 6) (b : BitVec 5) (g : Dbl → Bool) : Keeps (ScalarFrame rounds d) (compactBranch o b g) :=
  bind (scalarLink _ _) fun _ => bind (readX _ _ _) fun _ => bind here fun _ => ite (pure _) (pure _)

/-- R166, R167: a rounding instruction adds flags and takes the seed. -/
theorem roundedF (g : Rounding → Nat × BitVec 5) : Keeps (ScalarFrame true d) (roundedF g) :=
  bind (fun hP _ => .takeRound hP fun _ => .seed d _ _) fun _ =>
    bind (fun _ _ => .addFlags _ fun _ => .flags d _ _) fun _ => pure _

theorem rounded (g : Rounding → Nat × BitVec 5) (res : Nat → Dbl) :
    Keeps (ScalarFrame true d) (do Pure.pure (res (← Machine.roundedF g))) := bind (roundedF g) fun _ => pure _

end Keeps

/-! ### Each instruction by its form -/

namespace RunsKeeping

variable {i : Instr} {d a b : BitVec 5} {legal : Option (BitVec 3)} {word : BitVec 32} {len : Nat}

theorem formR {f eb ea : BitVec 1} {g : Dbl → Dbl → Dbl}
    (h : exec i = runInstr legal word len (Machine.formR f eb ea b a d fun x y => pure (g x y))) : RunsKeeping (ScalarFrame false d) i :=
  ⟨_, _, _, _, h, .formR fun _ _ => .pure _⟩

theorem formRD {f eb ea : BitVec 1} {g : Dbl → Dbl → Dbl → Dbl}
    (h : exec i = runInstr legal word len (Machine.formRD f eb ea b a d fun x y z => pure (g x y z))) : RunsKeeping (ScalarFrame false d) i :=
  ⟨_, _, _, _, h, .formRD fun _ _ _ => .pure _⟩

theorem formU {f ea : BitVec 1} {g : Dbl → Dbl} (h : exec i = runInstr legal word len (Machine.formU f ea a d fun x => pure (g x))) :
    RunsKeeping (ScalarFrame false d) i :=
  ⟨_, _, _, _, h, .formU fun _ => .pure _⟩

theorem formK {g : Dbl → Dbl} (word : BitVec 32) (h : exec i = runInstr none word len (Machine.formK a d fun x => pure (g x))) :
    RunsKeeping (ScalarFrame false d) i :=
  ⟨_, _, _, _, h, .formK fun _ => .pure _⟩

theorem formC2 {g : Dbl → Dbl → Dbl} (word : BitVec 32) (h : exec i = runInstr none word len (Machine.formC2 b d g)) :
    RunsKeeping (ScalarFrame false d) i :=
  ⟨_, _, _, _, h, .formC2 _ _⟩

theorem constant {v : Dbl} (word : BitVec 32)
    (h : exec i = runInstr none word len (do scalarLink d false; writeX d v; pure .seq)) : RunsKeeping (ScalarFrame false d) i :=
  ⟨_, _, _, _, h, .constant _⟩

theorem formB (o : BitVec 12) (b a : BitVec 5) (g : Dbl → Dbl → Bool) (word : BitVec 32)
    (h : exec i = runInstr none word 4 (Machine.formB o b a g)) : RunsKeeping (ScalarFrame false 0) i :=
  ⟨_, _, _, _, h, .formB o b a g⟩

theorem compactBranch (o : BitVec 6) (b : BitVec 5) (g : Dbl → Bool) (word : BitVec 32)
    (h : exec i = runInstr none word 2 (Machine.compactBranch o b g)) : RunsKeeping (ScalarFrame false 0) i :=
  ⟨_, _, _, _, h, .compactBranch o b g⟩

/-- R166, R167: the forms with one rounding. -/
theorem roundsR {f eb ea : BitVec 1} {g : Dbl → Dbl → Rounding → Nat × BitVec 5} {res : Nat → Dbl}
    (h : exec i = runInstr legal word len (Machine.formR f eb ea b a d fun x y => do pure (res (← roundedF (g x y))))) :
    RunsKeeping (ScalarFrame true d) i :=
  ⟨_, _, _, _, h, .formR fun _ _ => .rounded _ _⟩

theorem roundsRD {f eb ea : BitVec 1} {g : Dbl → Dbl → Dbl → Rounding → Nat × BitVec 5} {res : Nat → Dbl}
    (h : exec i = runInstr legal word len (Machine.formRD f eb ea b a d fun x y z => do pure (res (← roundedF (g x y z))))) :
    RunsKeeping (ScalarFrame true d) i :=
  ⟨_, _, _, _, h, .formRD fun _ _ _ => .rounded _ _⟩

theorem roundsU {f ea : BitVec 1} {g : Dbl → Rounding → Nat × BitVec 5} {res : Nat → Dbl}
    (h : exec i = runInstr legal word len (Machine.formU f ea a d fun x => do pure (res (← roundedF (g x))))) :
    RunsKeeping (ScalarFrame true d) i :=
  ⟨_, _, _, _, h, .formU fun _ => .rounded _ _⟩

/-- R168: a form whose instruction may round, and does not. -/
theorem mayRound (h : RunsKeeping (ScalarFrame false d) i) : RunsKeeping (ScalarFrame true d) i :=
  h.mono (.scalars false d) fun h => ⟨h.rest, h.reg, nofun⟩

end RunsKeeping

/-- R160, R165: each of the instructions on two scalar sources is a form on two sources with a value and no flags. -/
theorem runsKeeping_pairForms (f eb ea : BitVec 1) (b a d : BitVec 5) :
    ∀ e ∈ pairForms, RunsKeeping (ScalarFrame false d) (e.1 f eb ea b a d) := by
  simp only [pairForms, List.forall_mem_cons]
  refine ⟨.formR rfl, .formR rfl, .formR rfl, .formR rfl, .formR rfl, .formR rfl, .formR rfl, .formR rfl, .formR rfl, .formR rfl,
    .formR rfl, .formR rfl, .formR rfl, .formR rfl, .formR rfl, .formR rfl, .formR rfl, .formR rfl, .formR rfl, .formR rfl,
    .formR rfl, .formR rfl, .formR rfl, .formR rfl, .formR rfl, .formR rfl, .formR rfl, .formR rfl, List.forall_mem_nil _⟩

/-- Settles O4: the steps of which each form is made keep the frame, and a context that still runs has completed its form or waits. -/
theorem scalarFrames : Obligations.ScalarFrames := by
  unfold Obligations.ScalarFrames
  intro s t f eb ea b a d k12 sh k10 i20 _ e he hexec ht
  suffices h : RunsKeeping (ScalarFrame e.2.2 e.2.1) e.1 from (h.framed (.scalars _ _) hexec ht).scalarsOnly
  clear hexec
  revert e
  simp only [List.forall_mem_append, List.forall_mem_map, List.forall_mem_cons]
  refine ⟨runsKeeping_pairForms f eb ea b a d,
    .formU rfl, .formU rfl, .formU rfl, .formRD rfl,
    .formK (encAddi k12 a d) rfl, .formK (encAndi k12 a d) rfl, .formK (encOri k12 a d) rfl, .formK (encXori k12 a d) rfl,
    .formK (encSlti k12 a d) rfl, .formK (encSltiu k12 a d) rfl, .formK (encSlli sh a d) rfl, .formK (encSrli sh a d) rfl,
    .formK (encSrai sh a d) rfl, .formK (encMini k10 a d) rfl, .formK (encMaxi k10 a d) rfl, .formK (encMinui k10 a d) rfl,
    .formK (encMaxui k10 a d) rfl, .formK (encAddiw k12 a d) rfl, .constant (encLui i20 d) rfl,
    .formK (encCMv b d) rfl, .constant (encCLi sh d) rfl, .formK (encCAddi sh d) rfl, .formC2 (encCAdd b d) rfl, .formC2 (encCSub b d) rfl,
    .formC2 (encCAnd b d) rfl, .formC2 (encCOr b d) rfl, .formK (encCSlli sh d) rfl, .formK (encCSrli sh d) rfl,
    ⟨none, encCNop, 2, pure .seq, rfl, .pure _⟩,
    .formB k12 b a (· == ·) (encBeq k12 b a) rfl, .formB k12 b a (· != ·) (encBne k12 b a) rfl,
    .formB k12 b a BitVec.slt (encBlt k12 b a) rfl, .formB k12 b a (!·.slt ·) (encBge k12 b a) rfl,
    .formB k12 b a BitVec.ult (encBltu k12 b a) rfl, .formB k12 b a (!·.ult ·) (encBgeu k12 b a) rfl,
    .compactBranch sh d (· == 0) (encCBeqz sh d) rfl, .compactBranch sh d (· != 0) (encCBnez sh d) rfl,
    .roundsR rfl, .roundsR rfl, .roundsR rfl, .roundsRD rfl,
    .mayRound (.formR rfl), .mayRound (.formR rfl), .mayRound (.formR rfl), .mayRound (.formR rfl), .mayRound (.formR rfl),
    .mayRound (.formR rfl), .roundsU rfl, .roundsU rfl, .roundsU rfl, .roundsU rfl,
    .formR rfl, .formR rfl, .formR rfl, List.forall_mem_nil _⟩

end Sys2Proof.Machine
end

section
/-!
The frame of the instructions whose destination is a vector register (R8, R9, R177 to R189).
-/
namespace Sys2Proof.Machine

open Sys2Proof

/-! ### What such an instruction may change of its context -/

/-- R53: different numbers name different physical vector registers. -/
theorem physV_inj (x : Ctx) {r d : BitVec 6} (h : physV x r.toNat = physV x d.toNat) : r = d := by
  refine BitVec.eq_of_toNat_eq ?_
  have hr := r.isLt
  have hd := d.isLt
  have hk := x.krrb.isLt
  unfold physV at h
  split at h <;> split at h <;> omega

/-- Of a context only the vector register `d`, the pc, the flags, the seed and the watchpoint to be passed over differ; without `rounds`
the flags and the seed are kept too. -/
structure VectorFrame (rounds : Bool) (d : BitVec 6) (x y : Ctx) : Prop where
  rest : y = { x with v := y.v, vs := y.vs, pc := y.pc, fflags := y.fflags, seed := y.seed, watchSkip := y.watchSkip }
  reg : ∀ r : BitVec 6, r ≠ d → tabGet 0 y.v (physV x r.toNat) = tabGet 0 x.v (physV x r.toNat) ∧
    tabGet .full y.vs (physV x r.toNat) = tabGet .full x.vs (physV x r.toNat)
  steady : rounds = false → y.fflags = x.fflags ∧ y.seed = x.seed

/-- The rotation is none of what changes. -/
theorem VectorFrame.physV {rounds : Bool} {d : BitVec 6} {x y : Ctx} (h : VectorFrame rounds d x y) (n : Nat) :
    physV y n = physV x n := by
  rw [h.rest]
  rfl

theorem CtxFrame.vectors (rounds : Bool) (d : BitVec 6) : CtxFrame (VectorFrame rounds d) where
  refl _ := ⟨rfl, fun _ _ => ⟨rfl, rfl⟩, fun _ => ⟨rfl, rfl⟩⟩
  trans h g := by
    refine ⟨?_, fun r hr => ?_, fun hq => ?_⟩
    · have gr := g.rest
      rw [h.rest] at gr
      exact gr
    · have gr := g.reg r hr
      rw [h.physV] at gr
      exact ⟨gr.1.trans (h.reg r hr).1, gr.2.trans (h.reg r hr).2⟩
    · exact ⟨(g.steady hq).1.trans (h.steady hq).1, (g.steady hq).2.trans (h.steady hq).2⟩
  pc _ _ := ⟨rfl, fun _ _ => ⟨rfl, rfl⟩, fun _ => ⟨rfl, rfl⟩⟩

namespace VectorFrame

theorem putV (rounds : Bool) (d : BitVec 6) (v : Quad) (x : Ctx) : VectorFrame rounds d x (putV x (Machine.physV x d.toNat) v) where
  rest := rfl
  reg r hr := by
    have hn : Machine.physV x d.toNat ≠ Machine.physV x r.toNat := fun h => hr (physV_inj x h).symm
    exact ⟨tabGet_put_other _ _ _ hn, by simp [Machine.putV, tabGet_erase, hn]⟩
  steady _ := ⟨rfl, rfl⟩

theorem flags (d : BitVec 6) (f : BitVec 5) (x : Ctx) : VectorFrame true d x { x with fflags := f } :=
  ⟨rfl, fun _ _ => ⟨rfl, rfl⟩, nofun⟩

theorem seed (d : BitVec 6) (n : BitVec 32) (x : Ctx) : VectorFrame true d x { x with seed := n } :=
  ⟨rfl, fun _ _ => ⟨rfl, rfl⟩, nofun⟩

end VectorFrame

/-- The statement's form of the frame. -/
theorem Framed.vectorsOnly {rounds : Bool} {d : BitVec 6} {s t : State} (h : Framed (VectorFrame rounds d) s t) :
    vectorsOnly s t d ∧ (rounds = false → (me t).fflags = (me s).fflags ∧ (me t).seed = (me s).seed) := by
  refine ⟨⟨h.rest, h.saved, h.core, h.other, h.own.rest, fun r hr => ⟨?_, ?_⟩⟩, h.own.steady⟩
  · unfold regV
    rw [h.own.physV, (h.own.reg r hr).1]
  · exact (h.own.reg r hr).2

/-! ### The operand forms -/

namespace Keeps

variable {rounds : Bool} {v : BitVec 6}

/-- The last steps of every form that writes a vector register. -/
theorem writeV (q : Quad) : Keeps (VectorFrame rounds v) (do Machine.writeV v q; Pure.pure Next.seq) :=
  bind (fun hP _ => .writeV hP v q (.putV rounds v q)) fun _ => pure _

theorem formV (m : BitVec 3) (e : Nat) (b a : BitVec 6) (g : Nat → Nat → Nat → Nat) :
    Keeps (VectorFrame rounds v) (formV m e b a v g) :=
  bind (vectorLink _) fun _ => bind (vectorLink _) fun _ => bind (vectorLink _) fun _ => bind (readV _) fun _ => bind (readV _) fun _ =>
    bind (readOld _ _) fun _ => bind (readM _) fun _ => writeV _

theorem formV1 (m : BitVec 3) (e : Nat) (a : BitVec 6) (g : Nat → Nat → Nat) : Keeps (VectorFrame rounds v) (formV1 m e a v g) :=
  bind (vectorLink _) fun _ => bind (vectorLink _) fun _ => bind (readV _) fun _ => bind (readOld _ _) fun _ => bind (readM _) fun _ =>
    writeV _

theorem permuteV (e : Nat) (b a : BitVec 6) (pick : Nat → Nat) : Keeps (VectorFrame rounds v) (permuteV e b a v pick) :=
  bind (vectorLink _) fun _ => bind (vectorLink _) fun _ => bind (vectorLink _) fun _ => bind (readV _) fun _ => bind (readV _) fun _ =>
    writeV _

theorem dotV (m : BitVec 3) (b a : BitVec 6) (g : Nat → Nat → Nat → Nat → Nat) : Keeps (VectorFrame rounds v) (dotV m b a v g) :=
  bind (readV _) fun _ => bind (readV _) fun _ => bind (readV _) fun _ => bind (readM _) fun _ => writeV _

/-- R183: the mode and seed are taken, flags are added, and the result is written. -/
theorem takeRoundV : Keeps (VectorFrame true v) takeRound := fun hP _ => .takeRound hP fun _ => .seed v _ _

theorem addFlagsV (f : BitVec 5) : Keeps (VectorFrame true v) (addFlags f) := fun _ _ => .addFlags f fun _ => .flags v _ _

theorem formVF (m : BitVec 3) (fmt : Nat) (b a : BitVec 6) (acc : Bool) (g : Nat → Rounding → Nat → Nat → Nat → Nat × BitVec 5) :
    Keeps (VectorFrame true v) (formVF m fmt b a v acc g) :=
  bind (vectorLink _) fun _ => bind (vectorLink _) fun _ => bind (vectorLink _) fun _ => bind (readV _) fun _ => bind (readV _) fun _ =>
    join (readV _) (readOld _ _) fun _ => bind (readM _) fun _ => bind takeRoundV fun _ => bind (addFlagsV _) fun _ => writeV _

end Keeps

/-! ### Instructions with a meaning of their own -/

section Own

variable {rounds : Bool}

theorem runsKeeping_vshuf (m : BitVec 3) (b a v : BitVec 6) : RunsKeeping (VectorFrame rounds v) (.vshuf m b a v) :=
  ⟨_, _, _, _, rfl, .bind (.vectorLink _) fun _ => .bind (.vectorLink _) fun _ => .bind (.vectorLink _) fun _ => .bind (.readV _) fun _ =>
    .bind (.readV _) fun _ => .bind (.readOld _ _) fun _ => .bind (.readM _) fun _ => .writeV _⟩

theorem runsKeeping_vbcast (w : BitVec 3) (k a v : BitVec 6) : RunsKeeping (VectorFrame rounds v) (.vbcast w k a v) :=
  ⟨_, _, _, _, rfl, .bind (.vectorLink _) fun _ => .bind (.vectorLink _) fun _ => .bind (.readV _) fun _ => .writeV _⟩

theorem runsKeeping_vsel (sel : BitVec 3) (b a v : BitVec 6) : RunsKeeping (VectorFrame rounds v) (.vsel sel b a v) :=
  ⟨none, encVsel sel b a v, 4, _, rfl, .bind (.vectorLink _) fun _ => .bind (.vectorLink _) fun _ => .bind (.vectorLink _) fun _ =>
    .bind (.readV _) fun _ => .bind (.readV _) fun _ => .bind (.readM _) fun _ => .writeV _⟩

theorem runsKeeping_vmvVx (m : BitVec 3) (w : BitVec 2) (x : BitVec 5) (v : BitVec 6) :
    RunsKeeping (VectorFrame rounds v) (.vmvVx m w x v) :=
  ⟨_, _, _, _, rfl, .bind (.scalarLink _ _) fun _ => .bind (.vectorLink _) fun _ => .bind (.readX _ _ _) fun _ =>
    .bind (.readOld _ _) fun _ => .bind (.readM _) fun _ => .writeV _⟩

theorem runsKeeping_vli (w : BitVec 3) (i : BitVec 12) (v : BitVec 6) : RunsKeeping (VectorFrame rounds v) (.vli w i v) :=
  ⟨_, _, _, _, rfl, .bind (.vectorLink _) fun _ => .writeV _⟩

theorem runsKeeping_vdot4 (m : BitVec 3) (b a v : BitVec 6) : RunsKeeping (VectorFrame rounds v) (.vdot4 m b a v) :=
  ⟨_, _, _, _, rfl, .bind (.vectorLink _) fun _ => .bind (.vectorLink _) fun _ => .dotV _ _ _ _⟩

theorem runsKeeping_vdot2 (m : BitVec 3) (b a v : BitVec 6) : RunsKeeping (VectorFrame true v) (.vdot2 m b a v) :=
  ⟨_, _, _, _, rfl, .bind (.vectorLink _) fun _ => .bind (.vectorLink _) fun _ => .bind (.readV _) fun _ => .bind (.readV _) fun _ =>
    .bind (.readV _) fun _ => .bind (.readM _) fun _ => .bind .takeRoundV fun _ => .bind (.addFlagsV _) fun _ => .writeV _⟩

theorem runsKeeping_vcvt (m : BitVec 3) (b : BitVec 5) (a v : BitVec 6) : RunsKeeping (VectorFrame true v) (.vcvt m b a v) :=
  ⟨_, _, _, _, rfl, .bind (.vectorLink _) fun _ => .bind (.scalarLink _ _) fun _ => .bind (.vectorLink _) fun _ => .bind (.readV _) fun _ =>
    .bind (.readX _ _ _) fun _ => .join (.readV _) (.pure _) fun _ => .bind (.check _ _ _) fun _ => .bind (.check _ _ _) fun _ =>
    .join (.readV _) (.pure _) fun _ => .bind (.readM _) fun _ => .bind .takeRoundV fun _ => .bind (.addFlagsV _) fun _ =>
    .writeV _⟩

end Own

/-! ### Each instruction by its form -/

namespace RunsKeeping

variable {rounds : Bool} {i : Instr} {legal : Option (BitVec 3)} {word : BitVec 32} {m : BitVec 3} {e : Nat} {b a v : BitVec 6}

theorem formV {g : Nat → Nat → Nat → Nat} (h : exec i = runInstr legal word 4 (Machine.formV m e b a v g)) :
    RunsKeeping (VectorFrame rounds v) i := ⟨_, _, _, _, h, .formV _ _ _ _ _⟩

theorem formV1 {g : Nat → Nat → Nat} (h : exec i = runInstr legal word 4 (Machine.formV1 m e a v g)) :
    RunsKeeping (VectorFrame rounds v) i := ⟨_, _, _, _, h, .formV1 _ _ _ _⟩

theorem formVF {acc : Bool} {g : Nat → Rounding → Nat → Nat → Nat → Nat × BitVec 5}
    (h : exec i = runInstr legal word 4 (Machine.formVF m e b a v acc g)) : RunsKeeping (VectorFrame true v) i :=
  ⟨_, _, _, _, h, .formVF _ _ _ _ _ _⟩

theorem permuteV {pick : Nat → Nat} (h : exec i = runInstr legal word 4 (Machine.permuteV e b a v pick)) :
    RunsKeeping (VectorFrame rounds v) i := ⟨_, _, _, _, h, .permuteV _ _ _ _⟩

/-- The forms that no field value makes illegal, whose word stands in the call alone. -/
theorem plainV {g : Nat → Nat → Nat → Nat} (word : BitVec 32) (h : exec i = runInstr none word 4 (Machine.formV m e b a v g)) :
    RunsKeeping (VectorFrame rounds v) i := formV h

theorem plainV1 {g : Nat → Nat → Nat} (word : BitVec 32) (h : exec i = runInstr none word 4 (Machine.formV1 m e a v g)) :
    RunsKeeping (VectorFrame rounds v) i := formV1 h

theorem plainPermute {pick : Nat → Nat} (word : BitVec 32) (h : exec i = runInstr none word 4 (Machine.permuteV e b a v pick)) :
    RunsKeeping (VectorFrame rounds v) i := permuteV h

end RunsKeeping

/-- Settles O43: the same as for scalar registers, by the vector forms. -/
theorem vectorFrames : Obligations.VectorFrames := by
  unfold Obligations.VectorFrames
  intro s t m b a v w w3 k6 x i12 _ e he hexec ht
  suffices h : RunsKeeping (VectorFrame e.2 v) e.1 from (h.framed (.vectors _ _) hexec ht).vectorsOnly
  clear hexec
  revert e
  simp only [List.forall_mem_cons]
  refine ⟨.formV rfl, .formV rfl, .formV rfl, .formV rfl, .formV rfl, .formV rfl, .formV rfl, .formV rfl, .formV rfl, .formV rfl,
    .formV rfl, .formV rfl, .formV rfl, .formV rfl, .formV rfl, .plainV (encVmulhu b a v w) rfl, .plainV (encVavgu b a v w) rfl,
    .plainV1 (encVabs a v w) rfl, .plainV (encVand b a v w) rfl, .plainV (encVor b a v w) rfl, .plainV (encVxor b a v w) rfl,
    .plainV (encVandn b a v w) rfl,
    .formVF rfl, .formVF rfl, .formVF rfl, .formVF rfl, .formV rfl, .formV rfl, .formV1 rfl, .formV1 rfl, runsKeeping_vcvt m x a v,
    runsKeeping_vshuf m b a v, .permuteV rfl, .permuteV rfl, .permuteV rfl, .permuteV rfl, runsKeeping_vbcast w3 k6 a v,
    .plainPermute (encVextLo w3 b a v) rfl, .plainPermute (encVextHi w3 b a v) rfl, runsKeeping_vsel w3 b a v,
    runsKeeping_vdot4 m b a v, runsKeeping_vdot2 m b a v, runsKeeping_vmvVx m w x v, runsKeeping_vli w3 i12 v, .formV1 rfl,
    List.forall_mem_nil _⟩

end Sys2Proof.Machine
end

section
/-!
The control registers (R56 to R58, R374): what `kread`, `kwrite` and `kswap` do with a register whose read and write are known.
-/
namespace Sys2Proof.Machine

open Sys2Proof

/-! ### What the executing context keeps when its core or caches change -/

theorem me_withMe (s : State) (x : Ctx) : me (withMe s x) = x := ctxOf_setCtx_same s _ _ x

theorem me_setCore {s : State} {k : Nat} {c : Core} (h : c.ctxs = (coreOf s k).ctxs) : me (setCore s k c) = me s := by
  simp only [me, setCore_cur, ctxOf, coreOf_setCore]
  split
  · rename_i hk
    rw [h, hk]
  · rfl

theorem me_acquire (s : State) (b scope : Nat) : me (acquire s b scope) = me s := by
  have h := memOnly_acquire s b scope
  rw [me, h.cur, h.ctxOf]

theorem me_refreshSince (s : State) (k : Nat) : me (refreshSince s k) = me s := by
  unfold refreshSince
  simp only
  split
  · rfl
  · refine me_setCore ?_
    rfl

theorem me_setMask (s : State) (k : Nat) (m : BitVec 16) : me (setMask s k m) = me s := by
  refine (me_refreshSince _ k).trans (me_setCore ?_)
  rfl

theorem writableX_of_me {s t : State} {r : BitVec 5} (h : (me t).xs = (me s).xs) (hr : writableX s r) : writableX t r :=
  ⟨hr.1, by rw [h]; exact hr.2⟩

/-! ### Reads, writes and swaps -/

theorem waitFlags_other {k : Nat} (h : k ≠ 0x011) (s : State) : waitFlags k s = .ok ((), s) := by
  simp [waitFlags, h, act_pure]

/-- R57: no flag is still to arrive where no SFU request is. -/
theorem waitFlags_idle {s : State} (hq : (berthOf s (myBerth s)).sfuQ = []) (hr : (berthOf s (myBerth s)).sfuRun = [])
    (hs : (me s).sfuSaved = []) (k : Nat) : waitFlags k s = .ok ((), s) := by
  simp [waitFlags, act_ite, act_bind, act_pure, hq, hr, hs]

theorem checkRound_passes {k : Nat} {v : Dbl} (h : k = 0x010 → v.toNat % 8 ≤ 4) (word : BitVec 32) (s : State) :
    checkRound k v word s = .ok ((), s) := by
  have hb : (k != 0x010 || decide (fieldOf v 0 3 ≤ 4)) = true := by
    by_cases hk : k = 0x010
    · simpa [hk, fieldOf, bitsAt] using h hk
    · simp [hk]
  rw [checkRound, hb, act_check_true]

theorem checkRound_traps {k : Nat} {v : Dbl} (hk : k = 0x010) (h : ¬ v.toNat % 8 ≤ 4) (word : BitVec 32) (s : State) :
    checkRound k v word s = .error (.trap cILLEGAL (illegalDetail 4 false word)) := by
  have hb : (k != 0x010 || decide (fieldOf v 0 3 ≤ 4)) = false := by
    simpa [hk, fieldOf, bitsAt] using h
  rw [checkRound, hb, act_check]
  rfl

section Access

variable {k : BitVec 12} {a d : BitVec 5} {s t u : State} {v : Dbl}

/-- R57: a read of a register that can be read now. -/
theorem exec_kread (hk : kAssigned k = true) (hflags : waitFlags k.toNat s = .ok ((), s)) (hread : readK k.toNat s = .ok (v, t))
    (hs : writableX s d) (ht : (me t).xs = (me s).xs) : exec (.kread k d) s = .next (after (withX t d v) 4) := by
  refine runInstr_seq (if_pos hk) ?_
  rw [act_bind_ok (scalarLink_plain hs.1 _ s), act_bind_ok hflags, act_bind_ok hread,
    act_bind_ok (writeX_plain (writableX_of_me ht hs) v)]
  rfl

/-- R57: a write whose mode is permitted. -/
theorem exec_kwrite (hk : kAssigned k = true) (ha : readableX s a) (hround : k.toNat = 0x010 → (regX s a).toNat % 8 ≤ 4)
    (hwrite : writeK k.toNat (regX s a) s = .ok ((), t)) : exec (.kwrite k a) s = .next (after t 4) := by
  refine runInstr_seq (if_pos hk) ?_
  rw [act_bind_ok (scalarLink_plain ha.1 _ s), act_bind_ok (readX_plain ha _ _), act_bind_ok (checkRound_passes hround _ s),
    act_bind_ok hwrite]
  rfl

/-- R57: a swap is a read, then a write, then the old value's way into xd. -/
theorem exec_kswap (hk : kAssigned k = true) (ha : readableX s a) (hs : writableX s d)
    (hround : k.toNat = 0x010 → (regX s a).toNat % 8 ≤ 4) (hflags : waitFlags k.toNat s = .ok ((), s))
    (hread : readK k.toNat s = .ok (v, t)) (hwrite : writeK k.toNat (regX s a) t = .ok ((), u)) (hu : (me u).xs = (me s).xs) :
    exec (.kswap k a d) s = .next (after (withX u d v) 4) := by
  refine runInstr_seq (if_pos hk) ?_
  rw [act_bind_ok (scalarLink_plain ha.1 _ s), act_bind_ok (scalarLink_plain hs.1 _ s), act_bind_ok (readX_plain ha _ _),
    act_bind_ok (checkRound_passes hround _ s), act_bind_ok hflags, act_bind_ok hread, act_bind_ok hwrite,
    act_bind_ok (writeX_plain (writableX_of_me hu hs) v)]
  rfl

/-- R57: a `kround` mode above 4 traps before anything is written. -/
theorem exec_kwrite_badMode (hk : kAssigned k = true) (hround : k.toNat = 0x010) (ha : readableX s a)
    (h : ¬ (regX s a).toNat % 8 ≤ 4) :
    exec (.kwrite k a) s = .next (traps s cILLEGAL (illegalDetail 4 false (encode (.kwrite k a))) false) := by
  refine runInstr_trap (if_pos hk) ?_
  rw [act_bind_ok (scalarLink_plain ha.1 _ s), act_bind_ok (readX_plain ha _ _)]
  exact act_bind_error (checkRound_traps hround h _ s)

theorem exec_kswap_badMode (hk : kAssigned k = true) (hround : k.toNat = 0x010) (ha : readableX s a) (hs : writableX s d)
    (h : ¬ (regX s a).toNat % 8 ≤ 4) :
    exec (.kswap k a d) s = .next (traps s cILLEGAL (illegalDetail 4 false (encode (.kswap k a d))) false) := by
  refine runInstr_trap (if_pos hk) ?_
  rw [act_bind_ok (scalarLink_plain ha.1 _ s), act_bind_ok (scalarLink_plain hs.1 _ s), act_bind_ok (readX_plain ha _ _)]
  exact act_bind_error (checkRound_traps hround h _ s)

end Access

/-! ### Registers without RW fields -/

theorem linkCheck_state {dir : Nat} {vec fwd : Bool} {s t : State} (h : linkCheck dir vec fwd s = .ok ((), t)) : t = s := by
  unfold linkCheck at h
  rw [act_bind_ok (act_hereId s)] at h
  obtain ⟨x, u, h1, h2⟩ := act_bind_inv h
  rw [act_check] at h1
  split at h1
  · cases h1
    rw [act_ite, act_check] at h2
    split at h2
    · split at h2
      · cases h2
        rfl
      · cases h2
    · cases h2
      rfl
  · cases h1

theorem scalarLink_state {r : BitVec 5} {fwd : Bool} {s t : State} (h : scalarLink r fwd s = .ok ((), t)) : t = s := by
  unfold scalarLink at h
  rw [act_ite] at h
  split at h
  · exact linkCheck_state h
  · cases h
    rfl

/-- R5, R57: where a write changes nothing, a swap is a read. -/
theorem exec_kswap_of_readOnly {k : BitVec 12} {a : BitVec 5} {s : State} (hk : kAssigned k = true) (hround : k.toNat ≠ 0x010)
    (hwrite : ∀ v u, writeK k.toNat v u = .ok ((), u)) (ha : readableX s a) (d : BitVec 5) :
    exec (.kswap k a d) s = exec (.kread k d) s := by
  have hlegal : (if kAssigned k then none else some (4 : BitVec 3)) = none := if_pos hk
  show runInstr _ _ _ _ _ = runInstr _ _ _ _ _
  simp only [hlegal, runInstr]
  rw [act_bind_ok (scalarLink_plain ha.1 _ s)]
  cases hl : scalarLink d false s with
  | error e => rw [act_bind_error hl, act_bind_error hl]
  | ok p =>
    obtain ⟨x, t⟩ := p
    obtain rfl : t = s := scalarLink_state hl
    rw [act_bind_ok hl, act_bind_ok hl, act_bind_ok (readX_plain ha _ _),
      act_bind_ok (checkRound_passes (fun h => absurd h hround) _ _)]
    simp only [act_bind, hwrite]

end Sys2Proof.Machine
end

section
/-!
The map of the control registers (R56, R374), and the statement about it.
-/
namespace Sys2Proof.Machine

open Sys2Proof

theorem boolDbl_eq (b : Bool) : boolDbl b = BitVec.ofNat 64 (boolBit b) := by cases b <;> rfl

/-! ### Observation registers -/

/-- R374: the numbers of the counters, selectors and delay accumulators. -/
def isObs (n : Nat) : Prop := (0x100 ≤ n ∧ n < 0x110) ∨ (0x140 ≤ n ∧ n < 0x170)

theorem isObs.toNat {n : Nat} (h : isObs n) : (BitVec.ofNat 12 n).toNat = n := by
  unfold isObs at h
  rw [BitVec.toNat_ofNat, Nat.mod_eq_of_lt (by omega)]

theorem isObs.assigned {n : Nat} (h : isObs n) : kAssigned (BitVec.ofNat 12 n) = true := by
  simp only [kAssigned, h.toNat, Bool.or_eq_true, Bool.and_eq_true, decide_eq_true_eq]
  unfold isObs at h
  omega

/-- R374: a selector as written keeps mask, enable and event, and nothing else of the value. -/
theorem selector_bits (v : Dbl) (u : Nat) (hu : u < 2) :
    BitVec.ofNat 64 (fieldOf v 20 4 * 2 ^ 20 + u * 2 ^ 17 + fieldOf v 16 1 * 2 ^ 16 + fieldOf v 0 16) =
      (v &&& 0xF1FFFF) ||| BitVec.ofNat 64 (u * 2 ^ 17) := by
  have hlow : fieldOf v 16 1 * 2 ^ 16 + fieldOf v 0 16 = v.toNat % 2 ^ 17 := by
    simp only [fieldOf, bitsAt]; omega
  have hr : v.toNat % 2 ^ 17 < 2 ^ 17 := Nat.mod_lt _ (Nat.two_pow_pos 17)
  have hor : fieldOf v 20 4 * 2 ^ 20 + u * 2 ^ 17 + fieldOf v 16 1 * 2 ^ 16 + fieldOf v 0 16 =
      fieldOf v 20 4 <<< 20 ||| (u <<< 17 ||| v.toNat % 2 ^ 17) := by
    have hu17 : u <<< 17 + v.toNat % 2 ^ 17 < 2 ^ 20 := by
      rw [Nat.shiftLeft_eq]; omega
    rw [← Nat.shiftLeft_add_eq_or_of_lt hr, ← Nat.shiftLeft_add_eq_or_of_lt hu17, Nat.shiftLeft_eq, Nat.shiftLeft_eq, ← hlow]
    simp only [Nat.add_assoc]
  have hmask : (0xF1FFFF#64) = BitVec.ofNat 64 ((2 ^ 4 - 1) <<< 20 ||| (2 ^ 17 - 1)) := by decide
  rw [hor]
  refine BitVec.eq_of_getLsbD_eq fun i hi => ?_
  rw [show (0xF1FFFF : Dbl) = BitVec.ofNat 64 ((2 ^ 4 - 1) <<< 20 ||| (2 ^ 17 - 1)) from hmask]
  simp only [BitVec.getLsbD_or, BitVec.getLsbD_and, BitVec.getLsbD_ofNat, Nat.testBit_or, Nat.testBit_shiftLeft, Nat.testBit_mod_two_pow,
    Nat.testBit_two_pow_sub_one, hi, decide_true, Bool.true_and, fieldOf, bitsAt, Nat.testBit_div_two_pow, ← Nat.shiftLeft_eq]
  rw [← BitVec.testBit_toNat]
  by_cases h : 20 ≤ i
  · simp [h, show ¬ i < 17 by omega, Bool.and_comm]
  · simp [h, Bool.and_comm, Bool.or_comm]

theorem eventKnown_iff (e : Nat) : eventKnown e = true ↔ (1 ≤ e ∧ e ≤ 0xC) ∨ (0x100 ≤ e ∧ e ≤ 0x1FF) := by
  simp [eventKnown]

theorem fieldOf_zero (v : Dbl) (n : Nat) : fieldOf v 0 n = v.toNat % 2 ^ n := by simp [fieldOf, bitsAt]

theorem selectorOf_eq (v : Dbl) :
    selectorOf v = (v &&& 0xF1FFFF) |||
      if (1 ≤ v.toNat % 2 ^ 16 ∧ v.toNat % 2 ^ 16 ≤ 0xC) ∨ (0x100 ≤ v.toNat % 2 ^ 16 ∧ v.toNat % 2 ^ 16 ≤ 0x1FF) then 0 else 0x20000 := by
  have hb : boolBit (!eventKnown (fieldOf v 0 16)) < 2 := by
    unfold boolBit
    split <;> decide
  rw [selectorOf, selector_bits v _ hb, fieldOf_zero]
  simp only [← eventKnown_iff]
  cases eventKnown (v.toNat % 2 ^ 16) <;> rfl

/-- R374: a counter reads zero while its selector, eight numbers on, names an event that no core counts. -/
theorem counterOf_eq (t : Tab Dbl) {n : Nat} (h : 0x100 ≤ n) :
    counterOf t (n - 0x100) = if (tabGet 0 t (n + 8)).getLsbD 17 = true ∨ 0x100 ≤ (tabGet 0 t (n + 8)).toNat % 2 ^ 16 then 0
      else tabGet 0 t n := by
  have h8 : 0x108 + (n - 0x100) = n + 8 := by omega
  have h0 : 0x100 + (n - 0x100) = n := by omega
  simp only [counterOf, h8, h0, fieldOf_zero, Bool.or_eq_true, decide_eq_true_eq]

/-- R374: what an observation register reads. -/
theorem readK_obs {n : Nat} (h : isObs n) (s : State) :
    readK n s = .ok (if n < 0x108 ∧ ((tabGet 0 (coreOf s s.cur.core).obs (n + 8)).getLsbD 17 = true ∨
      0x100 ≤ (tabGet 0 (coreOf s s.cur.core).obs (n + 8)).toNat % 2 ^ 16) then 0 else tabGet 0 (coreOf s s.cur.core).obs n, s) := by
  unfold isObs at h
  have hlow : 0x100 ≤ n := by omega
  have hcounter : (0x100 ≤ n ∧ n < 0x108) ↔ n < 0x108 := by omega
  unfold readK
  simp only [act_bind, act_get, act_here]
  split
  case h_22 =>
    rw [act_ite]
    simp only [hcounter]
    by_cases hc : n < 0x108
    · simp only [hc, if_true, true_and, ← counterOf_eq _ hlow]
      rfl
    · simp only [hc, if_false, false_and]
      rfl
  all_goals omega

/-- R374: what a write of an observation register leaves. -/
def obsWritten (s : State) (n : Nat) (v : Dbl) : State :=
  if n < 0x108 then withObs s n (BitVec.ofNat 64 (fieldOf v 0 48))
  else if n < 0x110 then withObs s n (selectorOf v)
  else if v = 0 then withObs s n 0
  else s

theorem writeK_obs {n : Nat} (h : isObs n) (v : Dbl) (s : State) : writeK n v s = .ok ((), obsWritten s n v) := by
  unfold isObs at h
  have hcounter : (0x100 ≤ n ∧ n < 0x108) ↔ n < 0x108 := by omega
  unfold writeK
  simp only [act_bind, act_get]
  split
  case h_9 =>
    simp only [hcounter, act_ite, act_modCore, act_pure, obsWritten]
    split
    · rfl
    · rename_i h8
      have hselector : (0x108 ≤ n ∧ n < 0x110) ↔ n < 0x110 := by omega
      simp only [hselector]
      split
      · rfl
      · rename_i h10
        have hdelay : (0x140 ≤ n ∧ n < 0x170 ∧ v = 0) ↔ v = 0 := by
          have hn : 0x140 ≤ n ∧ n < 0x170 := by omega
          exact ⟨fun hz => hz.2.2, fun hz => ⟨hn.1, hn.2, hz⟩⟩
        simp only [hdelay]
        split <;> rfl
  all_goals omega

theorem me_obsWritten (s : State) (n : Nat) (v : Dbl) : me (obsWritten s n v) = me s := by
  have h : ∀ w, me (withObs s n w) = me s := fun w => me_setCore rfl
  unfold obsWritten
  split
  · exact h _
  · split
    · exact h _
    · split
      · exact h _
      · rfl

/-! ### The statement -/

section Access

variable {k : BitVec 12} {a d : BitVec 5} {s t : State} {v : Dbl}

/-- R56: a register that reads without waiting, and whose read changes nothing. -/
theorem exec_kread_plain (hk : kAssigned k = true) (hn : k.toNat ≠ 0x011) (hread : readK k.toNat s = .ok (v, s)) (hs : writableX s d) :
    exec (.kread k d) s = .next (after (withX s d v) 4) :=
  exec_kread hk (waitFlags_other hn s) hread hs rfl

/-- R5, R57: such a register with RW fields, of any mode: what is written, and what a swap gives besides. -/
theorem exec_write_and_swap (hk : kAssigned k = true) (h10 : k.toNat ≠ 0x010) (h11 : k.toNat ≠ 0x011)
    (hread : readK k.toNat s = .ok (v, s)) (hwrite : writeK k.toNat (regX s a) s = .ok ((), t)) (ht : (me t).xs = (me s).xs)
    (ha : readableX s a) :
    exec (.kwrite k a) s = .next (after t 4) ∧
      (writableX s d → exec (.kswap k a d) s = .next (after (withX t d v) 4)) :=
  ⟨exec_kwrite hk ha (absurd · h10) hwrite, fun hs => exec_kswap hk ha hs (absurd · h10) (waitFlags_other h11 s) hread hwrite ht⟩

/-- R5: a register without RW fields. -/
theorem exec_readOnly (hk : kAssigned k = true) (h10 : k.toNat ≠ 0x010) (hwrite : ∀ v u, writeK k.toNat v u = .ok ((), u))
    (ha : readableX s a) : exec (.kwrite k a) s = .next (after s 4) ∧ exec (.kswap k a d) s = exec (.kread k d) s :=
  ⟨exec_kwrite hk ha (absurd · h10) (hwrite _ s), exec_kswap_of_readOnly hk h10 hwrite ha d⟩

/-- R58: `kcset` copies a capability register, its tag with it. -/
theorem exec_kcset {c : BitVec 4} {d : BitVec 5} (hc : readableC s c) (hd : d.toNat < 2) :
    exec (.kcset c d) s = .next (after (withMe s (if d = 0 then { me s with kcsa := regC s c } else { me s with kcsb := regC s c })) 4) := by
  refine runInstr_seq (if_pos hd) ?_
  rw [act_bind_ok (readC_plain hc), act_bind_ok (act_modHere _ s)]
  rfl

end Access

/-- Settles O8: for each register, how it is read and written, and the three instructions by those. -/
theorem controlRegisters : Obligations.ControlRegisters := by
  unfold Obligations.ControlRegisters
  refine ⟨fun s d hd => ?reads, fun s a d ha => ?writes, fun s a d n hn ha hd => ?observation, fun s a ha => ?capabilities⟩
  case reads =>
    simp only [List.forall_mem_cons, BitVec.ofNat_toNat, ← boolDbl_eq]
    have h : ∀ (k : BitVec 12) (v : Dbl), kAssigned k = true → k.toNat ≠ 0x011 → readK k.toNat s = .ok (v, s) →
        exec (.kread k d) s = .next (after (withX s d v) 4) := fun k v hk hn hread => exec_kread_plain hk hn hread hd
    refine ⟨⟨h _ _ rfl (by decide) rfl, h _ _ rfl (by decide) rfl, h _ _ rfl (by decide) rfl, h _ _ rfl (by decide) rfl,
      h _ _ rfl (by decide) rfl, h _ _ rfl (by decide) rfl, h _ _ rfl (by decide) rfl, h _ _ rfl (by decide) rfl,
      h _ _ rfl (by decide) rfl, h _ _ rfl (by decide) rfl, h _ _ rfl (by decide) rfl, h _ _ rfl (by decide) rfl,
      h _ _ rfl (by decide) rfl, h _ _ rfl (by decide) rfl, h _ _ rfl (by decide) rfl, h _ _ rfl (by decide) rfl,
      List.forall_mem_nil _⟩, fun hq hr hs => ?flags, ?drop, ?count0, ?count1⟩
    case flags => exact exec_kread rfl (waitFlags_idle hq hr hs _) rfl hd rfl
    case drop => exact exec_kread rfl (waitFlags_other (by decide) s) rfl hd (by rw [me_setCore]; rfl)
    case count0 => exact exec_kread rfl (waitFlags_other (by decide) s) rfl hd (by rw [me_acquire])
    case count1 => exact exec_kread rfl (waitFlags_other (by decide) s) rfl hd (by rw [me_acquire])
  case writes =>
    simp only [List.forall_mem_cons, BitVec.ofNat_toNat, ← boolDbl_eq]
    have hme : ∀ x, x.xs = (me s).xs → (me (withMe s x)).xs = (me s).xs := fun x hx => by rw [me_withMe, hx]
    have hprio : (me (setCore s s.cur.core { coreOf s s.cur.core with chprio := (regX s a).setWidth 32 })).xs = (me s).xs := by
      rw [me_setCore]
      rfl
    have hmask : (me (setMask s s.cur.core ((regX s a).setWidth 16))).xs = (me s).xs := by rw [me_setMask]
    have hwmask := @exec_write_and_swap 0x030 a d s _ _ rfl (by decide) (by decide) rfl rfl hmask ha
    have hwprio := @exec_write_and_swap 0x031 a d s _ _ rfl (by decide) (by decide) rfl rfl hprio ha
    refine ⟨⟨exec_write_and_swap rfl (by decide) (by decide) rfl rfl (hme _ rfl) ha,
      exec_write_and_swap rfl (by decide) (by decide) rfl rfl (hme _ rfl) ha,
      exec_write_and_swap rfl (by decide) (by decide) rfl rfl (hme _ rfl) ha,
      exec_write_and_swap rfl (by decide) (by decide) rfl rfl (hme _ rfl) ha, List.forall_mem_nil _⟩,
      exec_kwrite rfl ha (absurd · (by decide)) rfl, ?round, hwprio.1, hwmask.1,
      fun hd => ⟨fun hq hr hs => ?flagsSwap, ?roundSwap, hwmask.2 hd, hwprio.2 hd⟩, ?readOnly⟩
    case round =>
      split
      · exact exec_kwrite rfl ha (fun _ => ‹_›) rfl
      · exact exec_kwrite_badMode rfl rfl ha ‹_›
    case flagsSwap => exact exec_kswap rfl ha hd (absurd · (by decide)) (waitFlags_idle hq hr hs _) rfl rfl (hme _ rfl)
    case roundSwap =>
      split
      · exact exec_kswap rfl ha hd (fun _ => ‹_›) (waitFlags_other (by decide) s) rfl rfl (hme _ rfl)
      · exact exec_kswap_badMode rfl rfl ha hd ‹_›
    case readOnly =>
      have h : ∀ k : BitVec 12, kAssigned k = true → k.toNat ≠ 0x010 → (∀ v u, writeK k.toNat v u = .ok ((), u)) →
          exec (.kwrite k a) s = .next (after s 4) ∧ exec (.kswap k a d) s = exec (.kread k d) s :=
        fun k hk h10 hwrite => exec_readOnly hk h10 hwrite ha
      exact ⟨h _ rfl (by decide) fun _ _ => rfl, h _ rfl (by decide) fun _ _ => rfl, h _ rfl (by decide) fun _ _ => rfl,
        h _ rfl (by decide) fun _ _ => rfl, h _ rfl (by decide) fun _ _ => rfl, h _ rfl (by decide) fun _ _ => rfl,
        h _ rfl (by decide) fun _ _ => rfl, h _ rfl (by decide) fun _ _ => rfl, h _ rfl (by decide) fun _ _ => rfl,
        h _ rfl (by decide) fun _ _ => rfl, h _ rfl (by decide) fun _ _ => rfl, h _ rfl (by decide) fun _ _ => rfl,
        h _ rfl (by decide) fun _ _ => rfl, List.forall_mem_nil _⟩
  case observation =>
    have hobs : isObs n := hn
    intro obs sel v e known old t
    have hread : readK n s = .ok (old, s) := readK_obs hobs s
    have hwritten : obsWritten s n v = t := by rw [obsWritten, selectorOf_eq, fieldOf_zero]
    have hwrite : writeK n v s = .ok ((), t) := hwritten ▸ writeK_obs hobs v s
    have ht : (me t).xs = (me s).xs := by rw [← hwritten, me_obsWritten]
    rw [← hobs.toNat] at hread hwrite
    have h10 : (BitVec.ofNat 12 n).toNat ≠ 0x010 := by rw [hobs.toNat]; omega
    have h11 : (BitVec.ofNat 12 n).toNat ≠ 0x011 := by rw [hobs.toNat]; omega
    obtain ⟨hw, hs⟩ := exec_write_and_swap hobs.assigned h10 h11 hread hwrite ht ha
    exact ⟨exec_kread_plain hobs.assigned h11 hread hd, hw, hs hd⟩
  case capabilities =>
    exact ⟨exec_kcset ha (by decide), exec_kcset ha (by decide)⟩

end Sys2Proof.Machine
end

section
/-!
The device registers and the accesses of application cores (R6, R31, R118, R129, R135, R137, R296, R335, R351, R375, R377, R378).
-/
namespace Sys2Proof.Machine

open Sys2Proof

/-! ### Fields of a written value -/

theorem keepBits_zero (v : Dbl) (n : Nat) : keepBits v 0 n = BitVec.ofNat 64 (fieldOf v 0 n) := by simp [keepBits]

/-- A field of the low bits that are kept is that field of the value. -/
theorem fieldOf_keepBits_zero (v : Dbl) {lo n m : Nat} (h : lo + n ≤ m) (hm : m ≤ 64) : fieldOf (keepBits v 0 m) lo n = fieldOf v lo n := by
  rw [keepBits_zero]
  have hlt : v.toNat % 2 ^ m < 2 ^ 64 := Nat.lt_of_lt_of_le (Nat.mod_lt _ (Nat.two_pow_pos m)) (Nat.pow_le_pow_right (by decide) hm)
  simp only [fieldOf, bitsAt, Nat.pow_zero, Nat.div_one, BitVec.toNat_ofNat, Nat.mod_eq_of_lt hlt]
  refine Nat.eq_of_testBit_eq fun i => ?_
  simp only [Nat.testBit_mod_two_pow, Nat.testBit_div_two_pow]
  by_cases hi : i < n
  · simp [hi, show i + lo < m by omega]
  · simp [hi]

/-! ### Counter halves and resets -/

/-- What the outside has read. -/
def answering (s : State) (v : Dbl) : State := { s with glob := { s.glob with readOut := v } }

/-- R375: the low half latches the high one with the core and the counter that it belongs to. -/
theorem exec_counterLowRead (s : State) (part : Nat) {k n : Nat} (hk : k < 512) (hn : n < 8) :
    exec (.counterLowRead part k n) s = .next (answering (setPart s part { partOf s part with
      ctLatch := BitVec.ofNat 64 (2 ^ 63 + k * 2 ^ 54 + n * 2 ^ 51 + fieldOf (partCounter s part k n) 32 16) })
      (BitVec.ofNat 64 (fieldOf (partCounter s part k n) 0 32))) := by
  have h : exec (.counterLowRead part k n) s = .next (answering (setPart s part { partOf s part with
      ctLatch := BitVec.ofNat 64 (2 ^ 63 + k % 512 * 2 ^ 54 + n % 8 * 2 ^ 51 + fieldOf (partCounter s part k n) 32 16) })
      (BitVec.ofNat 64 (fieldOf (partCounter s part k n) 0 32))) := rfl
  rw [h, Nat.mod_eq_of_lt hk, Nat.mod_eq_of_lt hn]

/-- R375: the high half comes from the latch that is valid for it, and live otherwise. -/
theorem exec_counterHighRead (s : State) (part k n : Nat) :
    let l := (partOf s part).ctLatch
    exec (.counterHighRead part k n) s = .next (answering (setPart s part { partOf s part with ctLatch := setField l 63 1 0 })
      (BitVec.ofNat 64 (if l.getLsbD 63 = true ∧ fieldOf l 54 9 = k ∧ fieldOf l 51 3 = n then fieldOf l 0 16
        else fieldOf (partCounter s part k n) 32 16))) := by
  intro l
  have h : exec (.counterHighRead part k n) s = .next (answering (setPart s part { partOf s part with ctLatch := setField l 63 1 0 })
      (BitVec.ofNat 64 (if (l.getLsbD 63 && fieldOf l 54 9 == k && fieldOf l 51 3 == n) = true then fieldOf l 0 16
        else fieldOf (partCounter s part k n) 32 16))) := rfl
  rw [h]
  simp only [Bool.and_eq_true, beq_iff_eq, and_assoc]

/-- R378: a Function Level Reset holds the function's configuration requests and raises the shared source. -/
theorem exec_pcieFlr {s : State} (h : s.glob.endpoint = true) (part : Nat) :
    exec (.pcieFlr part) s =
      .next (raiseIrq { s with glob := { s.glob with flr := s.glob.flr ||| BitVec.ofNat 16 (2 ^ part) } } 646 0) := by
  refine runEvent_ok ?_
  rw [act_bind_ok (act_get s), h, act_bind_ok (act_need_true s)]
  rfl

/-! ### Writes without a step of their own -/

section Writes

variable (s : State) (part : Nat) (v : Dbl)

theorem exec_registerWrite_manager (off : Nat) :
    exec (.registerWrite (.manager part) off v) s = .next (writeManagerPage s part off v) := rfl

theorem exec_registerWrite_partition (off : Nat) :
    exec (.registerWrite (.partition part) off v) s = .next (writePartPage s part off v) := rfl

/-- R114: only the owner table makes a write wait. -/
theorem exec_registerWrite_glob {off : Nat} (h : ¬ (0x800 ≤ off ∧ off < 0x880)) :
    exec (.registerWrite .glob off v) s = .next (writeGlobalPage s off v) := by
  refine runEvent_ok ?_
  simp only [act_bind, act_get, if_neg h]
  rfl

/-- R118: the grants of a partition and their sizes. -/
theorem writeManagerPage_grant {g : Nat} (h : g < 8) :
    writeManagerPage s part (8 * g) v = setPart s part { partOf s part with
      grant := tabPut (partOf s part).grant g (keepBits v 63 1 ||| keepBits v 16 24) } := by
  have hg : 8 * g / 8 = g := by omega
  unfold writeManagerPage
  rw [if_pos (by omega), hg]

theorem writeManagerPage_gsize {g : Nat} (h : g < 8) :
    writeManagerPage s part (0x80 + 8 * g) v = setPart s part { partOf s part with
      gsize := tabPut (partOf s part).gsize g (keepBits v 0 32) } := by
  have hg : (0x80 + 8 * g - 0x080) / 8 = g := by omega
  unfold writeManagerPage
  rw [if_neg (by omega), if_pos (by omega), hg]

/-- R135: a band whose ceiling is below its floor, or with which the floors are too large, is refused. -/
theorem writeManagerPage_band {i : Nat} (h : i < 24) :
    writeManagerPage s part (0x100 + 8 * i) v =
      if bandCeil (keepBits v 0 24) < bandFloor (keepBits v 0 24) ∨ 240 < floorSum s part i (keepBits v 0 24) then s
      else setPart s part { partOf s part with bands := tabPut (partOf s part).bands i (keepBits v 0 24) } := by
  have hi : (0x100 + 8 * i - 0x100) / 8 = i := by omega
  unfold writeManagerPage
  rw [if_neg (by omega), if_neg (by omega), if_pos (by omega), hi]

theorem floorSum_keepBits (i : Nat) :
    floorSum s part i (keepBits v 0 24) =
      ((List.range 16).map fun q => if q = part then fieldOf v 8 8 else fieldOf (tabGet 0 (partOf s q).bands i) 8 8).sum := by
  refine congrArg List.sum (List.map_congr_left fun q _ => ?_)
  split
  · exact fieldOf_keepBits_zero v (by decide) (by decide)
  · rfl

/-- R296: the task ring of a partition with records queued, or a size above its largest, is refused. -/
theorem writeManagerPage_ring (h : recordsQueued s part = true ∨ 10 < fieldOf v 0 4) :
    writeManagerPage s part 0x200 v = pmRefuse s := by
  have hb : (recordsQueued s part || decide (10 < fieldOf v 0 4)) = true := by simpa using h
  show (if (recordsQueued s part || decide (10 < fieldOf v 0 4)) = true then _ else _) = _
  exact if_pos hb

/-- R137: a source of the cause table. -/
theorem writeGlobalPage_irq {i : Nat} (h : i < 1024) :
    writeGlobalPage s (0x2000 + 8 * i) v =
      { s with glob := { s.glob with irq := tabPut s.glob.irq i (writeIrq (tabGet Irq.reset s.glob.irq i) v) } } := by
  have hi : (0x2000 + 8 * i - 0x2000) / 8 = i := by omega
  unfold writeGlobalPage
  simp only
  rw [if_neg (by omega), if_neg (by omega), if_neg (by omega), if_pos (by omega), hi]

end Writes

/-! ### The lowest interrupt -/

theorem foldl_min_le {a x : Nat} {l : List Nat} (h : x ∈ a :: l) : l.foldl min a ≤ x :=
  (List.min?_eq_some_iff.1 List.min?_cons').2 x h

/-- R137: what `irq.top` reads is the number itself. -/
theorem readPage_irqTop (s : State) : (readPage s .glob 0x010).toNat = irqTop s.glob := by
  have h : irqTop s.glob ≤ 0xFFFF := foldl_min_le List.mem_cons_self
  show (BitVec.ofNat 64 (irqTop s.glob)).toNat = _
  rw [BitVec.toNat_ofNat, Nat.mod_eq_of_lt (by omega)]

theorem irqTop_le {g : Glob} {e : Nat × Irq} (he : e ∈ g.irq) (hp : e.2.pend = true) (hn : e.2.en = true) : irqTop g ≤ e.1 :=
  foldl_min_le (List.mem_cons_of_mem _ (List.mem_map_of_mem (List.mem_filter.2 ⟨he, by simp [hp, hn]⟩)))

theorem irqTop_none {g : Glob} (h : ∀ e ∈ g.irq, (e.2.pend && e.2.en) = false) : irqTop g = 0xFFFF := by
  have hf : (g.irq.filter fun e => e.2.pend && e.2.en) = [] := List.filter_eq_nil_iff.2 fun e he => by simp [h e he]
  rw [irqTop, hf]
  rfl

/-! ### Accesses from outside -/

section Outside

variable {s : State} {part addr n : Nat}

/-- R377: memory and registers lie apart. -/
theorem pageAt_memory (h : addr + n ≤ extEnd) : pageAt part addr = none := by
  unfold extEnd at h
  exact if_pos (by omega)

theorem appOk_iff : appOk s part addr n = true ↔ addr + n ≤ extEnd ∧ (part = 16 ∨ inGrants (partOf s part) addr n = true) := by
  simp [appOk]

theorem appPlace_none (h : registerSized addr n = false ∨ pageAt part addr = none) :
    (if registerSized addr n then pageAt part addr else none) = none := by
  rcases h with h | h <;> simp [h]

theorem exec_app (acc : AppAccess) : exec (.applicationCoreAccess part acc) s = execApplicationCoreAccess part acc s := rfl

/-- R239, R376: an access where the map places no register is one of memory. -/
theorem exec_appLoad_memory (h : registerSized addr n = false ∨ pageAt part addr = none) :
    exec (.applicationCoreAccess part (.load addr n)) s = runEvent (appMemory part (.load addr n)) s := by
  simp only [exec_app, execApplicationCoreAccess, appPlace_none h]

theorem exec_appStore_memory {bs : List Byte} (h : registerSized addr bs.length = false ∨ pageAt part addr = none) :
    exec (.applicationCoreAccess part (.store addr bs)) s = runEvent (appMemory part (.store addr bs)) s := by
  simp only [exec_app, execApplicationCoreAccess, appPlace_none h]

theorem exec_appLoad_register {page : RegPage} {at_ : Nat} (hn : registerSized addr n = true) (hp : pageAt part addr = some (page, at_)) :
    exec (.applicationCoreAccess part (.load addr n)) s = loadRegister page at_ n s := by
  simp only [exec_app, execApplicationCoreAccess, hn, hp, if_true]

/-- R239: a load of granted memory that no bad line and no engine holds up. -/
theorem appMemory_load (hok : addr + n ≤ extEnd ∧ (part = 16 ∨ inGrants (partOf s part) addr n = true)) (hbad : isBad s addr n = false)
    (hwait : unitWaits s part addr n false = false) :
    runEvent (appMemory part (.load addr n)) s =
      .next (answerApp false (BitVec.ofNat 64 (natOfBytes (memRead s.mem addr n))) s) := by
  refine runEvent_ok ?_
  simp only [appMemory, act_bind, act_get, appOk_iff.2 hok, hbad, hwait, act_ite]
  rfl

/-- R118: memory that is not granted is not read. -/
theorem appMemory_load_refused (hok : ¬ (addr + n ≤ extEnd ∧ (part = 16 ∨ inGrants (partOf s part) addr n = true))) :
    runEvent (appMemory part (.load addr n)) s = .next (answerApp true s.glob.readOut s) := by
  have h : appOk s part addr n = false := Bool.eq_false_iff.2 fun h => hok (appOk_iff.1 h)
  refine runEvent_ok ?_
  simp only [appMemory, act_bind, act_get, h, act_ite]
  rfl

theorem appMemory_store {bs : List Byte}
    (hok : addr + bs.length ≤ extEnd ∧ (part = 16 ∨ inGrants (partOf s part) addr bs.length = true))
    (hmark : meetsMark s addr bs.length = false) (hwait : unitWaits s part addr bs.length true = false) :
    runEvent (appMemory part (.store addr bs)) s = .next (answerApp false s.glob.readOut (wideWrite s addr bs)) := by
  refine runEvent_ok ?_
  simp only [appMemory, act_bind, act_get, appOk_iff.2 hok, hmark, hwait, act_ite]
  rfl

/-- R118, R281: memory that is not granted, or that a phase object marks, is not written. -/
theorem appMemory_store_refused {bs : List Byte}
    (h : ¬ (addr + bs.length ≤ extEnd ∧ (part = 16 ∨ inGrants (partOf s part) addr bs.length = true)) ∨
      meetsMark s addr bs.length = true) :
    runEvent (appMemory part (.store addr bs)) s = .next (answerApp true s.glob.readOut s) := by
  have hb : (appOk s part addr bs.length && !meetsMark s addr bs.length) = false := by
    rw [← appOk_iff, Bool.not_eq_true] at h
    rcases h with h | h <;> simp [h]
  refine runEvent_ok ?_
  simp only [appMemory, act_bind, act_get, hb, act_ite]
  rfl

/-- R6, R377: a load of a register that no read of it clears. -/
theorem loadRegister_plain {page : RegPage} {at_ : Nat} (h : clearingRead page (at_ / 8 * 8) (at_ % 8) n = none) :
    loadRegister page at_ n s =
      .next (answerApp false (BitVec.ofNat 64 (fieldOf (readPage s page (at_ / 8 * 8)) (8 * (at_ % 8)) (8 * n))) s) := by
  simp only [loadRegister, h]

/-- What a write of memory answers has the value that the outside read before. -/
theorem answerApp_wideWrite (b : Bool) (bs : List Byte) :
    answerApp b s.glob.readOut (wideWrite s addr bs) =
      { wideWrite s addr bs with glob := { (wideWrite s addr bs).glob with accessFault := b } } := by
  have h : (wideWrite s addr bs).glob.readOut = s.glob.readOut := by rw [(memOnly_wideWrite s addr bs).rest]
  rw [answerApp, ← h]

/-- R378: a device's write of granted memory that no phase object marks and no engine holds up. -/
theorem exec_inboundDeviceWrite {bs : List Byte} (hok : outsideOk s part addr bs.length = true ∧ meetsMark s addr bs.length = false)
    (hwait : unitWaits s part addr bs.length true = false) (hband : barred s part 23 = false) :
    exec (.inboundDeviceWrite part addr bs) s = .next (wideWrite s addr bs) := by
  refine runEvent_ok ?_
  simp only [act_bind, act_get, hok.1, hok.2, hwait, hband, act_ite]
  rfl

/-- R378: any other write of a device is dropped, and the shared source is raised. -/
theorem exec_inboundDeviceWrite_dropped {bs : List Byte}
    (h : ¬ (outsideOk s part addr bs.length = true ∧ meetsMark s addr bs.length = false)) :
    exec (.inboundDeviceWrite part addr bs) s = .next (raiseIrq s 648 0) := by
  have hb : (outsideOk s part addr bs.length && !meetsMark s addr bs.length) = false := by
    rw [Bool.eq_false_iff]
    simpa using h
  refine runEvent_ok ?_
  simp only [act_bind, act_get, hb, act_ite]
  rfl

end Outside

/-! ### The statement -/

/-- Settles O55: each register by the equation of its page, each access by the page or the memory that it reaches. -/
theorem deviceRegisters : Obligations.DeviceRegisters := by
  unfold Obligations.DeviceRegisters
  intro s part p told
  refine ⟨rfl, rfl, rfl, rfl, fun k hk n hn => ⟨exec_counterLowRead s part hk hn, exec_counterHighRead s part k n⟩, fun v => ?writes,
    fun he => exec_pcieFlr he part, rfl, rfl, fun e he hp hn => ?top, fun h => ?noTop, fun addr bs => ?accesses, fun _ _ _ => rfl⟩
  case writes =>
    intro mg gl pt
    refine ⟨fun g hg => ⟨?grant, ?gsize⟩, fun i hi hlt => ?noBand, fun i hi hle hsum => ?band, fun h => ?ring, rfl, ?count, ?manager,
      fun i hi => ?source, rfl⟩
    case grant => exact congrArg Host.Outcome.next (writeManagerPage_grant s part v hg)
    case gsize => exact congrArg Host.Outcome.next (keepBits_zero v 32 ▸ writeManagerPage_gsize s part v hg)
    case noBand =>
      refine congrArg Host.Outcome.next ((writeManagerPage_band s part v hi).trans (if_pos (.inl ?_)))
      rwa [bandCeil, bandFloor, fieldOf_keepBits_zero v (by decide) (by decide), fieldOf_keepBits_zero v (by decide) (by decide)]
    case band =>
      rw [← keepBits_zero]
      refine congrArg Host.Outcome.next ((writeManagerPage_band s part v hi).trans (if_neg ?_))
      rw [bandCeil, bandFloor, fieldOf_keepBits_zero v (by decide) (by decide), fieldOf_keepBits_zero v (by decide) (by decide),
        floorSum_keepBits]
      exact not_or.2 ⟨Nat.not_lt.2 hle, Nat.not_lt.2 hsum⟩
    case ring => exact congrArg Host.Outcome.next (writeManagerPage_ring s part v h)
    case count =>
      rw [← keepBits_zero]
      rfl
    case manager => exact exec_registerWrite_glob s v (by decide)
    case source => exact (exec_registerWrite_glob s v (by omega)).trans (congrArg Host.Outcome.next (writeGlobalPage_irq s v hi))
  case top => exact readPage_irqTop s ▸ irqTop_le he hp hn
  case noTop =>
    show BitVec.ofNat 64 (irqTop s.glob) = 0xFFFF
    rw [irqTop_none h]
    rfl
  case accesses =>
    intro mine fault noPage ok
    refine ⟨fun hok hwait hband => exec_inboundDeviceWrite hok hwait hband, fun h => exec_inboundDeviceWrite_dropped h,
      fun hm hmark hwait => ?store, fun hp h => ?storeRefused, fun n => ⟨fun hm hbad hwait => ?load, fun hp h => ?loadRefused,
      fun page at_ hn hp hc => ?register⟩, fun _ _ => rfl⟩
    case store =>
      rw [exec_appStore_memory (.inr (pageAt_memory hm.1)), appMemory_store hm hmark hwait, answerApp_wideWrite]
    case storeRefused =>
      rw [exec_appStore_memory hp, appMemory_store_refused h]
      rfl
    case load =>
      rw [exec_appLoad_memory (.inr (pageAt_memory hm.1)), appMemory_load hm hbad hwait]
      rfl
    case loadRefused =>
      rw [exec_appLoad_memory hp, appMemory_load_refused h]
      rfl
    case register =>
      rw [exec_appLoad_register hn hp, loadRegister_plain hc]
      rfl

end Sys2Proof.Machine
end

section
/-!
The room of a link queue (R8, R50, R281): a store to a line that holds a phase mark keeps the values that it popped until its owner's
verdict, and their places in the queue with them, as a NET instruction does. The hypothesis of O3's clause on the room excludes the NET
requests alone, so a store that waits refutes it.
-/
namespace Sys2Proof.Machine

open Sys2Proof

/-! ### A store that waits for its verdict -/

/-- R281: the marked double, in the L window of core 0. -/
def markedDouble : Nat := localBase 0 + 64

/-- The double behind it on its line, to which the store goes. -/
def storedDouble : Nat := localBase 0 + 72

/-- Core 0 runs with four values in its east inbound queue; c3 names its L window in doubles, and x1 is the index of the stored double. -/
def storingCore : Core :=
  { Core.reset with
    links := [(1, [.ready 9, .ready 5, .ready 6, .ready 7])]
    ctxs := [(0, { Ctx.reset with
      mode := .running
      x := [(1, 9)]
      c := [(3, capMake1 (localBase 0) 0x07 512 0xFF 4)] })] }

/-- Core 1, its east neighbour, runs too. -/
def pushingCore : Core := { Core.reset with ctxs := [(0, { Ctx.reset with mode := .running })] }

/-- The state before the store. -/
def beforeStore : State :=
  { setCore (setCore State.reset 0 storingCore) 1 pushingCore with phases := [(markedDouble, [])] }

/-- The store's request: it holds the value 9 that it popped from the queue with key 1. -/
def storeBody : Body := .store [(⟨storedDouble, 0, 64, false⟩, 9, storedDouble)] none [(1, 9)]

/-- The state after it: three values are left in the queue, the request is under way, and its context waits. -/
def afterStore : State :=
  let t := sent (withQueue beforeStore 0 1 [.ready 5, .ready 6, .ready 7]) .none storedDouble storeBody
  afterStay (withMe t { me t with mode := .waiting 0 })

/-- R52, R83, R281: the model reaches this state by one store whose data register is the east port. -/
theorem exec_stD_waits : exec (.stD 0 0 0 0 1 3 29) beforeStore = .next afterStore := rfl

/-- The state in which core 1 executes next. -/
def pushingState : State := { afterStore with cur := ⟨1, 0⟩ }

/-! ### The room that its neighbour sees -/

/-- No request in flight is one of a NET instruction. -/
theorem pushingState_no_net : ∀ e ∈ pushingState.reqs, ∀ op h reg back, e.2.body ≠ .net op h reg back := by
  have h : pushingState.reqs.map (fun e => e.2.body) = [storeBody] := by decide +kernel
  intro e he op hp reg back hb
  have hm : Body.net op hp reg back ∈ [storeBody] := h ▸ hb ▸ List.mem_map_of_mem he
  simp [storeBody] at hm

/-- R50: the queue into which core 1 pushes to the west has room by its length. -/
theorem pushingState_length : (inQueue pushingState 0 1).length = 3 := by decide +kernel

/-- R8: the value that the store may have to put back takes the fourth place. -/
theorem pushingState_full : queueFull pushingState (me pushingState).part 0 1 = true := by decide +kernel

/-- Refutes O3: core 0's store waits for its owner's verdict with the value that it popped from its east queue. Three values are left
there, so that the clause on the room of a queue gives core 1's push to the west a place, while the queue is full. No request is one of
a NET instruction, and core 0 is not held saved. -/
theorem not_linkPorts : ¬ Obligations.LinkPorts := by
  unfold Obligations.LinkPorts
  intro h
  have hx0 : readableX pushingState 0 := by decide
  have hwest : neighbour pushingState.cur.core 3 = some 0 := by decide
  have hlive : heldSaved pushingState (me pushingState).part (coreBerth 0) = false := by decide +kernel
  obtain ⟨-, -, -, -, -, hpush, -⟩ := h pushingState 0 0 0 0 0 31 3 (by decide) rfl _ List.mem_cons_self
  obtain ⟨-, -, hroom⟩ := hpush 0 hx0 hx0 hwest
  obtain ⟨hfull, -⟩ := hroom hlive pushingState_no_net
  have hsize : (inQueue pushingState 0 (opposite 3)).length = 3 := pushingState_length
  rw [hsize] at hfull
  exact Bool.noConfusion (pushingState_full.symm.trans hfull)

end Sys2Proof.Machine
end

section
/-!
How an access of the executing context ends once its checks have passed (R80 to R87): one lemma for each wait and for each way a store
performs.
-/
namespace Sys2Proof.Machine

open Sys2Proof

/-! ### Waits that nothing holds up -/

theorem waitOwn_clear {s : State} {p : Piece} (h : ownConflict s s.cur.core s.cur.ctx p true = false) : waitOwn [p] s = .ok ((), s) := by
  simp [waitOwn, act_bind, h, act_pure]

theorem waitHome_served {s : State} {ps : List Piece} (h : homeServed s ps) : waitHome ps s = .ok ((), s) := by
  obtain ⟨hheld, hready⟩ := h
  simp only [waitHome, act_bind, act_get, act_here, hheld, hready, act_ite]
  rfl

theorem portPops_plain {l : List (BitVec 5 × Dbl)} (h : ∀ e ∈ l, e.1.toNat < 28) : portPops l = [] := by
  have hf : (l.filter fun e => isPort e.1) = [] := List.filter_eq_nil_iff.2 fun e he => by simp [isPort_false (h e he)]
  rw [portPops, hf, List.map_nil]

theorem forwardDir_zero (l : List (BitVec 5)) : forwardDir 0 l = none := by simp [forwardDir]

/-! ### Stores -/

section Stores

variable {t : State} {ws : List (Piece × Nat × Nat)} {addr : Nat} {back : List (Nat × Quad)} {fwd : Option Nat}

/-- R281: a store to a line that holds a phase mark goes to the owner, and its context waits for the verdict. -/
theorem storePieces_marked {cap : Option Cap} (h : (ws.any fun x => lineMarked t x.1) = true) :
    storePieces ws addr cap back none t =
      .ok (.stay, withMe (sent t .none addr (.store ws cap back))
        { me (sent t .none addr (.store ws cap back)) with mode := .waiting t.nextReq }) := by
  simp only [storePieces, act_bind, act_get, act_here, h, if_true, request_sent, act_modHere]
  rfl

/-- R83: any other store writes each piece, the first lowest. -/
theorem storePieces_unmarked (h : (ws.any fun x => lineMarked t x.1) = false) (hs : homeServed t (homePieces t (ws.map (·.1)) none)) :
    storePieces ws addr none back fwd t =
      .ok (.seq, ws.foldl (fun u x => writePiece u (myBerth t) (me t).rev1 x.1 x.2.1) t) := by
  have hw : waitHome ((ws.map (·.1)).filter (performsHome (ctxOf t t.cur.core t.cur.ctx).rev1 none)) t = .ok ((), t) := waitHome_served hs
  simp only [storePieces, act_bind, act_get, act_here, act_ite, h, hw]
  rfl

/-- R87: a store of a capability writes its granule and its tag as one. -/
theorem storePieces_granule {p : Piece} {v : Nat} {c : Cap} (h : lineMarked t p = false) (hs : homeServed t (homePieces t [p] (some c))) :
    storePieces [(p, v, addr)] addr (some c) back fwd t = .ok (.seq, writeGranule t (myBerth t) p c) := by
  have hm : ([(p, v, addr)].any fun x => lineMarked t x.1) = false := by simp [h]
  have hw : waitHome (([(p, v, addr)].map (·.1)).filter (performsHome (ctxOf t t.cur.core t.cur.ctx).rev1 (some c))) t = .ok ((), t) :=
    waitHome_served hs
  simp only [storePieces, act_bind, act_get, act_here, act_ite, hm, hw]
  rfl

end Stores

end Sys2Proof.Machine
end

section
/-!
The scalar stores and the vector loads and stores (R80, R82, R83, R85, R281).
-/
namespace Sys2Proof.Machine

open Sys2Proof

/-! ### Scalar stores -/

section Scalar

variable {s t : State} {eb ea : BitVec 1} {j i d : BitVec 5} {c : BitVec 4} {bit w width : Nat} {ps : List Piece}

/-- R80, R83: what a store whose access passes its checks does with the pieces of its element. -/
theorem scalarStore_checked (hi : readableX s i) (hj : readableX s j) (hc : readableC s c) (hd : readableX s d)
    (hacc : capAccess (myBerth s) (regC s c) c.toNat 0 pS (tuple (regX s i) (regX s j)) width = .ok (bit, w))
    (hwatch : unwatched s 1 [bitsBytes bit w]) (hps : herePieces 1 bit w s = .ok (ps, t)) (hfree : unhindered t ps true) :
    scalarStore 0 eb ea j i c d width s = storePieces (pieceValues ps (regX s d).toNat bit) (bit / 8) none [] none t := by
  have hback : portPops [(i, regX s i), (j, regX s j), (d, regX s d)] = [] := portPops_plain (by simp [hi.1, hj.1, hd.1])
  simp only [scalarStore, act_bind, scalarLink_plain hi.1, scalarLink_plain hj.1, scalarLink_plain hd.1, readPair_plain hi hj, readX_plain hd,
    readC_plain hc, act_get, liftChk_ok hacc, watchTest_clear hwatch, hps, waitPieces_clear hfree, hback, forwardDir_zero]

theorem exec_scalarStore {x : Instr} {l : List (BitVec 5)} {word : BitVec 32}
    (hx : exec x s = runInstr (fwdRule 0 l) word 4 (scalarStore 0 eb ea j i c d width) s) {ws : List (Piece × Nat × Nat)}
    (hrun : scalarStore 0 eb ea j i c d width s = storePieces ws (bit / 8) none [] none t)
    (hs : (ws.any fun x => lineMarked t x.1) = false → homeServed t (homePieces t (ws.map (·.1)) none)) :
    exec x s =
      if ws.any fun x => lineMarked t x.1 then
        let u := sent t .none (bit / 8) (.store ws none [])
        .next (afterStay (withMe u { me u with mode := .waiting t.nextReq }))
      else .next (after (ws.foldl (fun u x => writePiece u (myBerth t) (me t).rev1 x.1 x.2.1) t) 4) := by
  rw [hx]
  split
  next hm => exact runInstr_stay (fwdRule_zero l) (hrun.trans (storePieces_marked hm))
  next hm =>
    have hm := Bool.eq_false_iff.2 hm
    exact runInstr_seq (fwdRule_zero l) (hrun.trans (storePieces_unmarked hm (hs hm)))

end Scalar

/-- Settles O14: the four widths are one store, whose line is marked or not. -/
theorem storesWrite : Obligations.StoresWrite := by
  unfold Obligations.StoresWrite
  intro s t eb ea j i c d bit w ps hi hj hc hd e he
  obtain ⟨word, hx⟩ : ∃ word, exec (e.1 0 eb ea j i c d) s = runInstr (fwdRule 0 [i, j, d]) word 4 (scalarStore 0 eb ea j i c d e.2) s := by
    revert e
    simp only [List.forall_mem_cons]
    exact ⟨⟨encStB 0 eb ea j i c d, rfl⟩, ⟨encStH 0 eb ea j i c d, rfl⟩, ⟨encStW 0 eb ea j i c d, rfl⟩, ⟨encStD 0 eb ea j i c d, rfl⟩,
      List.forall_mem_nil _⟩
  intro hacc hwatch hps hfree ws hserved
  exact exec_scalarStore hx (scalarStore_checked hi hj hc hd hacc hwatch hps hfree) hserved

/-! ### Vector loads and stores -/

section Vector

variable {s t : State} {j i : BitVec 5} {c : BitVec 4} {v : BitVec 6} {as_ : List Nat} {w : Nat} {strided : Bool}

theorem vectorLoad_checked (hi : readableX s i) (hj : readableX s j) (hc : readableC s c) {ps : List (List Piece)}
    (hacc : vecAccess (myBerth s) (regC s c) c.toNat pL (tuple (regX s i) (regX s j)) strided = .ok (as_, w))
    (hwatch : unwatched s 0 (as_.map fun a => bitsBytes a w)) (hps : collect (fun a => herePieces 0 a w) as_ s = .ok (ps, t))
    (hfree : unhindered t ps.flatten false) (hv : writableV t v) :
    vectorLoad j i c v strided s = .ok (.seq, sent (emptyV t v) (destV t v) (as_.headD 0 / 8) (.load ps.flatten false)) := by
  simp only [vectorLoad, act_bind, scalarLink_plain hi.1, scalarLink_plain hj.1, vectorLink_plain hv.1, readTuple_plain hi hj, readC_plain hc,
    act_get, liftChk_ok hacc, watchTest_clear hwatch, hps, waitPieces_clear hfree, claimV_plain hv, sendLoad, request_sent, act_pure]

theorem vectorStore_checked (hi : readableX s i) (hj : readableX s j) (hc : readableC s c) (hv : readableV s v)
    {ws : List (List (Piece × Nat × Nat))}
    (hacc : vecAccess (myBerth s) (regC s c) c.toNat pS (tuple (regX s i) (regX s j)) strided = .ok (as_, w))
    (hwatch : unwatched s 1 (as_.map fun a => bitsBytes a w))
    (hps : collect (fun (a : Nat × Nat) => do
        let p ← herePieces 1 a.1 w
        pure (pieceValues p (elemOf (regV s v).toNat w a.2) a.1)) as_.zipIdx s = .ok (ws, t))
    (hfree : unhindered t (ws.flatten.map (·.1)) true) (hmark : (ws.flatten.any fun x => lineMarked t x.1) = false)
    (hserved : homeServed t (homePieces t (ws.flatten.map (·.1)) none)) :
    vectorStore j i c v strided s =
      .ok (.seq, ws.flatten.foldl (fun u x => writePiece u (myBerth t) (me t).rev1 x.1 x.2.1) t) := by
  simp only [vectorStore, act_bind, scalarLink_plain hi.1, scalarLink_plain hj.1, vectorLink_plain hv.1, readPair_plain hi hj, readV_plain hv,
    readC_plain hc, act_get, liftChk_ok hacc, watchTest_clear hwatch, hps, waitPieces_clear hfree]
  exact storePieces_unmarked hmark hserved

end Vector

/-- Settles O16: a vector load is one request for the pieces of all elements, a vector store one write of them, along either dimension. -/
theorem vectorAccesses : Obligations.VectorAccesses := by
  unfold Obligations.VectorAccesses
  intro s t j i c v as_ w hi hj hc e he
  obtain ⟨hload, hstore⟩ : exec (e.1 j i c v) s = runInstr none (if e.2.2 then encLdvS j i c v else encLdv j i c v) 4 (vectorLoad j i c v e.2.2) s ∧
      exec (e.2.1 j i c v) s = runInstr none (if e.2.2 then encStvS j i c v else encStv j i c v) 4 (vectorStore j i c v e.2.2) s := by
    revert e
    simp only [List.forall_mem_cons]
    exact ⟨⟨rfl, rfl⟩, ⟨rfl, rfl⟩, List.forall_mem_nil _⟩
  refine ⟨fun ps hacc hwatch hps hfree hv => ?load, fun ws hv hacc hwatch hps hfree hmark hserved => ?store⟩
  case load => exact hload.trans (runInstr_seq rfl (vectorLoad_checked hi hj hc hacc hwatch hps hfree hv))
  case store => exact hstore.trans (runInstr_seq rfl (vectorStore_checked hi hj hc hv hacc hwatch hps hfree hmark hserved))

end Sys2Proof.Machine
end

section
/-!
The capability loads and stores (R86, R87).
-/
namespace Sys2Proof.Machine

open Sys2Proof

/-! ### Translation -/

theorem leafFor_cur {s t : State} {b p va : Nat} {e : TlbEntry} (h : leafFor s b p va = .ok (e, t)) : t.cur = s.cur := by
  unfold leafFor at h
  simp only at h
  split at h
  · cases h; rfl
  · split at h
    · cases h; rfl
    · split at h
      · cases h
      · cases h; rfl

theorem setDirty_cur (s : State) (b : Nat) (e : TlbEntry) : (setDirty s b e).cur = s.cur := by
  unfold setDirty
  split
  · rfl
  · simp only [setQuay_cur, setBerth_cur, (memOnly_unitWrite s _ _).cur]

/-- A translation leaves the executing context as it is. -/
theorem translate_cur {s t : State} {b p va kind : Nat} {remote : Bool} {x : Phys} (h : translate b p va kind remote s = .ok (x, t)) :
    t.cur = s.cur := by
  unfold translate at h
  split at h
  · cases h; rfl
  split at h
  · cases h
  split at h
  · cases h
  rename_i e u hl
  split at h
  · cases h
  split at h
  · cases h
  split at h
  · cases h
  · obtain rfl := congrArg Prod.snd (Except.ok.inj h)
    rw [apply_ite State.cur, setDirty_cur, ite_self, leafFor_cur hl]

/-! ### The accesses -/

section Capability

variable {s t : State} {eb ea : BitVec 1} {j i : BitVec 5} {c : BitVec 4} {perm bit w : Nat} {p : Phys}

/-- R86: an access of a granule whose checks pass answers its capability and bit address. -/
theorem capMemAccess_granule (hi : readableX s i) (hj : readableX s j) (hc : readableC s c)
    (h : granuleAccess (myBerth s) (regC s c) c.toNat perm (tuple (regX s i) (regX s j)) = .ok (bit, w)) :
    capMemAccess 0 eb ea j i c perm 256 s = .ok ((regC s c, bit), s) := by
  simp only [capMemAccess, act_bind, readTuple_plain hi hj, readC_plain hc, act_get, if_neg (by decide : ¬ 256 = 0), liftChk_ok h, act_pure]

/-- R86: that of `ctag`, which moves no bits. -/
theorem capMemAccess_tag (hi : readableX s i) (hj : readableX s j) (hc : readableC s c)
    (h : capAccess (myBerth s) (regC s c) c.toNat 0 perm (tuple (regX s i) (regX s j)) 0 = .ok (bit, w)) :
    capMemAccess 0 eb ea j i c perm 0 s = .ok ((regC s c, bit), s) := by
  simp only [capMemAccess, act_bind, readTuple_plain hi hj, readC_plain hc, act_get, if_true, liftChk_ok h, act_pure]

theorem exec_clc (hi : readableX s i) (hj : readableX s j) (hc : readableC s c) {d : BitVec 4}
    (hacc : granuleAccess (myBerth s) (regC s c) c.toNat pL (tuple (regX s i) (regX s j)) = .ok (bit, w))
    (hwatch : unwatched s 0 [(bit / 8, 32)]) (hp : translate (myBerth s) (me s).part (bit / 8) 0 false s = .ok (p, t))
    (hfree : unhindered t [⟨p.key, 0, 256, p.cached⟩] false) (hd : writableC t d) :
    exec (.clc 0 eb ea j i c d) s =
      .next (after (sent (emptyC t d) (destC d) (bit / 8) (.clc ⟨p.key, 0, 256, p.cached⟩ (capHas (regC s c) pLC && p.tagOk))) 4) := by
  refine runInstr_seq (word := encClc 0 eb ea j i c d) (fwdRule_zero [i, j]) ?_
  simp only [act_bind, scalarLink_plain hi.1, scalarLink_plain hj.1, capMemAccess_granule hi hj hc hacc, watchTest_clear hwatch, act_get,
    act_here, hp, waitPieces_clear hfree, claimC_plain hd, request_sent, act_pure]

theorem exec_csc (hi : readableX s i) (hj : readableX s j) (hc : readableC s c) {d : BitVec 4} (hd : readableC s d)
    (hacc : granuleAccess (myBerth s) (regC s c) c.toNat pS (tuple (regX s i) (regX s j)) = .ok (bit, w))
    (htag : (regC s d).tag = true → capHas (regC s c) pSC = true ∧ regionScope (bit / 8) ≤ capScope (regC s d))
    (hwatch : unwatched s 1 [(bit / 8, 32)])
    (hp : translate (myBerth s) (me s).part (bit / 8) (if (regC s d).tag then 3 else 1) false s = .ok (p, t))
    (hfree : unhindered t [⟨p.key, 0, 256, p.cached⟩] true) (hmark : lineMarked t ⟨p.key, 0, 256, p.cached⟩ = false)
    (hserved : homeServed t (homePieces t [⟨p.key, 0, 256, p.cached⟩] (some (regC s d)))) :
    exec (.csc 0 eb ea j i c d) s = .next (after (writeGranule t (myBerth t) ⟨p.key, 0, 256, p.cached⟩ (regC s d)) 4) := by
  refine runInstr_seq (word := encCsc 0 eb ea j i c d) (fwdRule_zero [i, j]) ?_
  simp only [act_bind, scalarLink_plain hi.1, scalarLink_plain hj.1, readPair_plain hi hj, readC_plain hd, readC_plain hc, act_get,
    liftChk_ok hacc]
  cases hv : (regC s d).tag with
  | false =>
    rw [hv, if_neg Bool.false_ne_true] at hp
    simp only [Bool.false_eq_true, if_false, act_bind, watchTest_clear hwatch, act_here, hp, waitPieces_clear hfree, storePieces_granule hmark hserved]
  | true =>
    obtain ⟨hsc, hscope⟩ := htag hv
    rw [hv, if_pos rfl] at hp
    simp only [if_true, act_bind, hsc, hscope, decide_true, act_check_true, watchTest_clear hwatch, act_here, hp, waitPieces_clear hfree,
      storePieces_granule hmark hserved]

theorem exec_csc_noSC (hi : readableX s i) (hj : readableX s j) (hc : readableC s c) {d : BitVec 4} (hd : readableC s d)
    (hv : (regC s d).tag = true) (hacc : granuleAccess (myBerth s) (regC s c) c.toNat pS (tuple (regX s i) (regX s j)) = .ok (bit, w))
    (hsc : capHas (regC s c) pSC = false) :
    exec (.csc 0 eb ea j i c d) s = .next (traps s cPERM (det 3 c.toNat 0 0 pSC) false) := by
  refine runInstr_trap (word := encCsc 0 eb ea j i c d) (fwdRule_zero [i, j]) ?_
  simp only [act_bind, scalarLink_plain hi.1, scalarLink_plain hj.1, readPair_plain hi hj, readC_plain hd, readC_plain hc, act_get,
    liftChk_ok hacc, hv, hsc, act_check, if_true]
  rfl

theorem exec_csc_beyondScope (hi : readableX s i) (hj : readableX s j) (hc : readableC s c) {d : BitVec 4} (hd : readableC s d)
    (hv : (regC s d).tag = true) (hacc : granuleAccess (myBerth s) (regC s c) c.toNat pS (tuple (regX s i) (regX s j)) = .ok (bit, w))
    (hsc : capHas (regC s c) pSC = true) (hscope : capScope (regC s d) < regionScope (bit / 8)) :
    exec (.csc 0 eb ea j i c d) s =
      .next (traps s cSCOPE (det 9 c.toNat 0 0 (capScope (regC s d) + 256 * regionScope (bit / 8))) false) := by
  refine runInstr_trap (word := encCsc 0 eb ea j i c d) (fwdRule_zero [i, j]) ?_
  simp only [act_bind, scalarLink_plain hi.1, scalarLink_plain hj.1, readPair_plain hi hj, readC_plain hd, readC_plain hc, act_get,
    liftChk_ok hacc, hv, hsc, Nat.not_le.2 hscope, act_check, if_true]
  rfl

theorem exec_ctag (hi : readableX s i) (hj : readableX s j) (hc : readableC s c) {d : BitVec 5}
    (hacc : capAccess (myBerth s) (regC s c) c.toNat 0 pL (tuple (regX s i) (regX s j)) 0 = .ok (bit, w))
    (hwatch : unwatched s 0 [(bit / 8, 1)]) (hp : translate (myBerth s) (me s).part (bit / 8) 0 false s = .ok (p, t))
    (hfree : unhindered t [⟨p.key / 32 * 32, 0, 256, p.cached⟩] false)
    (hown : ownConflict t t.cur.core t.cur.ctx ⟨p.key / 32 * 32, 0, 256, p.cached⟩ true = false)
    (hserved : homeServed t [⟨p.key / 32 * 32, 0, 256, p.cached⟩]) {u m : State}
    (hm : m = countMisses t t.cur.core t.cur.ctx [⟨p.key, 0, 8, p.cached⟩])
    (hu : u = if p.cached then syncHome m (myBerth t) (p.key / 64) else m) (hd : writableX u d) :
    exec (.ctag 0 eb ea j i c d) s = .next (after (withX u d (if p.tagOk && tagAt u p.key then 1 else 0)) 4) := by
  refine runInstr_seq (word := encCtag 0 eb ea j i c d) (fwdRule_zero [i, j]) ?_
  have hb : coreBerth s.cur.core = myBerth t := by rw [myBerth, translate_cur hp]
  simp only [act_bind, scalarLink_plain hi.1, scalarLink_plain hj.1, scalarLink_plain hd.1, capMemAccess_tag hi hj hc hacc,
    watchTest_clear hwatch, act_get, act_here, hp]
  simp only [hb, waitPieces_clear hfree, waitOwn_clear hown, waitHome_served hserved, act_set, ← hm, ← hu, writeX_plain hd, act_pure, boolDbl]

end Capability

/-- Settles O17: each instruction by its own equation. -/
theorem capabilityAccesses : Obligations.CapabilityAccesses := by
  unfold Obligations.CapabilityAccesses
  intro s t eb ea j i c bit w p hi hj hc
  refine ⟨fun d hacc hwatch hp hfree hd => exec_clc hi hj hc hacc hwatch hp hfree hd,
    fun d hd hacc htag hwatch hp hfree hmark hserved => exec_csc hi hj hc hd hacc htag hwatch hp hfree hmark hserved,
    fun d hd hv hacc => ⟨exec_csc_noSC hi hj hc hd hv hacc, exec_csc_beyondScope hi hj hc hd hv hacc⟩,
    fun d hacc hwatch hp hfree hown hserved hd => exec_ctag hi hj hc hacc hwatch hp hfree hown hserved rfl rfl hd⟩

end Sys2Proof.Machine
end

section
/-!
The instructions on capability registers (R88 to R93, R102).
-/
namespace Sys2Proof.Machine

open Sys2Proof

/-! ### Derivations -/

/-- R88, R89: a derivation's check, then its own, decide between the derived capability and a trap. -/
theorem exec_derive {s : State} {eb : BitVec 1} {b : BitVec 5} {a d : BitVec 4} {needsD : Bool} {used : Nat} {g : Cap → Nat → Dbl → Chk Cap}
    {x : Instr} {word : BitVec 32} (hb : readableX s b) (ha : readableC s a) (hd : writableC s d)
    (hx : exec x s = runInstr (fwdRule 0 [b]) word 4 (derive 0 eb b a d needsD used g) s) :
    exec x s =
      match deriveCheck (regC s a) a.toNat needsD (regX s b) used, g (regC s a) a.toNat (regX s b) with
      | .ok (), .ok r => .next (after (withC s d { r with tag := true }) 4)
      | .ok (), .error (cause, detail) => .next (traps s cause detail false)
      | .error (cause, detail), _ => .next (traps s cause detail false) := by
  have hrun : derive 0 eb b a d needsD used g s = (do
      liftChk (deriveCheck (regC s a) a.toNat needsD (regX s b) used)
      let r ← liftChk (g (regC s a) a.toNat (regX s b))
      writeC d.toNat { r with tag := true }
      pure .seq : Act Next) s := by
    simp only [derive, act_bind, scalarLink_plain hb.1, readC_plain ha, readX_plain hb]
  rw [hx]
  cases hcheck : deriveCheck (regC s a) a.toNat needsD (regX s b) used with
  | error e => exact runInstr_trap (fwdRule_zero [b]) (hrun.trans (act_bind_error (liftChk_error hcheck s)))
  | ok _ =>
    rw [act_bind_ok (liftChk_ok hcheck s)] at hrun
    cases hg : g (regC s a) a.toNat (regX s b) with
    | error e => exact runInstr_trap (fwdRule_zero [b]) (hrun.trans (act_bind_error (liftChk_error hg s)))
    | ok r =>
      refine runInstr_seq (fwdRule_zero [b]) (hrun.trans ?_)
      simp only [act_bind, liftChk_ok hg, writeC_plain hd, act_pure]

/-- R90: the reserved bits of a merge are checked before the merge itself. -/
theorem foldCap_reserved (c : Cap) (r : Nat) (v : Dbl) :
    (do demand (v.getLsbD 2 || fieldOf v 3 19 == 0) cILLEGAL v; foldCap c r v) =
      if v.getLsbD 2 = false ∧ fieldOf v 3 19 ≠ 0 then .error (cILLEGAL, v) else foldCap c r v := by
  cases v.getLsbD 2 with
  | true => rfl
  | false =>
    by_cases h : fieldOf v 3 19 = 0
    · rw [h]
      rfl
    · rw [if_pos ⟨rfl, h⟩, beq_eq_false_iff_ne.2 h]
      rfl

/-! ### Fields, moves and seals -/

section Seals

variable {s : State} {a b d : BitVec 4}

theorem exec_cget {n r : BitVec 5} (ha : readableC s a) (hn : n.toNat < 16) (hr : writableX s r) :
    exec (.cget n a r) s = .next (after (withX s r (BitVec.ofNat 64 (capGet (regC s a) n.toNat))) 4) := by
  refine runInstr_seq (word := encCget n a r) (if_pos hn) ?_
  simp only [act_bind, scalarLink_plain hr.1, readC_plain ha, writeX_plain hr, act_pure]

theorem exec_cmove (ha : readableC s a) (hd : writableC s d) : exec (.cmove a d) s = .next (after (withC s d (regC s a)) 4) := by
  refine runInstr_seq (word := encCmove a d) rfl ?_
  simp only [act_bind, readC_plain ha, writeC_plain hd, act_pure]

theorem exec_cseal (ha : readableC s a) (hb : readableC s b) (hd : writableC s d) (hbt : (regC s b).tag = true)
    (hbs : capSealed (regC s b) = false) (hk : capHas (regC s b) pK = true) (hat : (regC s a).tag = true) (has : capSealed (regC s a) = false) :
    exec (.cseal b a d) s = .next (after (withC s d (capSet (capSet (regC s a) 235 1 1) 236 12 (capOtype (regC s b)))) 4) := by
  refine runInstr_seq (word := encCseal b a d) rfl ?_
  simp only [act_bind, readC_plain ha, readC_plain hb, hbt, hbs, hk, hat, has, Bool.not_false, act_check_true, writeC_plain hd, act_pure]

theorem exec_cunseal (ha : readableC s a) (hb : readableC s b) (hd : writableC s d) (hbt : (regC s b).tag = true)
    (hbs : capSealed (regC s b) = false) (hk : capHas (regC s b) pK = true) (hat : (regC s a).tag = true) (has : capSealed (regC s a) = true)
    (hf : capFmt (regC s a) ≠ fTOKEN) (ho : capOtype (regC s a) = capOtype (regC s b)) :
    exec (.cunseal b a d) s = .next (after (withC s d (capSet (regC s a) 235 1 0)) 4) := by
  refine runInstr_seq (word := encCunseal b a d) rfl ?_
  simp only [act_bind, readC_plain ha, readC_plain hb, hbt, hbs, hk, hat, has, bne_iff_ne.2 hf, beq_iff_eq.2 ho, Bool.not_false, act_check_true,
    writeC_plain hd, act_pure]

end Seals

/-- Settles O19: every derivation is one check and one of its own, every other instruction its own equation. -/
theorem capabilityInstructions : Obligations.CapabilityInstructions := by
  unfold Obligations.CapabilityInstructions
  refine ⟨fun s eb b a d hb ha hd => ?derive, fun s b a ha => ⟨fun n r hn hr => exec_cget ha hn hr, fun d hd => exec_cmove ha hd,
    fun d hd hb hbt hbs hk hat => ⟨exec_cseal ha hb hd hbt hbs hk hat, exec_cunseal ha hb hd hbt hbs hk hat⟩⟩⟩
  intro e he
  obtain ⟨word, hx⟩ : ∃ word, exec (e.1 0 eb b a d) s = runInstr (fwdRule 0 [b]) word 4 (derive 0 eb b a d e.2.1 e.2.2.1 e.2.2.2) s := by
    have hlow : ∀ v : Dbl, v.toNat % 256 = fieldOf v 0 8 := fun v => (fieldOf_zero v 8).symm
    revert e
    simp only [List.forall_mem_cons, ← foldCap_reserved, hlow]
    exact ⟨⟨encCslice 0 eb b a d, rfl⟩, ⟨encCstep 0 eb b a d, rfl⟩, ⟨encCperm 0 eb b a d, rfl⟩, ⟨encCfold 0 eb b a d, rfl⟩,
      ⟨encCrestrict 0 eb b a d, rfl⟩, ⟨encCscope 0 eb b a d, rfl⟩, ⟨encCfmt 0 eb b a d, rfl⟩, List.forall_mem_nil _⟩
  exact exec_derive hb ha hd hx

end Sys2Proof.Machine
end

section
/-!
Where the bytes of a store go (R83, R230, R245, R383): a store that performs at its home sends what the berth's L1 and its quay's L2 hold of the
line ahead, the L1's bytes first. Where the L2 holds the line in a slice that is not in run, the L1's bytes pass it by and go home, and the
L2's older bytes follow and overwrite them. The statement lets the L1's bytes win, so such a state refutes it. A transition out of run writes the
lines back before it ends, but the statement assumes canonical memory alone.
-/
namespace Sys2Proof.Machine

open Sys2Proof

/-- A line of berth 0 that is homed at the other quay. -/
def remoteLine : Nat := extSplit / 64

/-- Berth 0 has written 1 to the first byte of the line in its L1, after 2 had reached its quay's L2; the slice that keeps that copy has left
run. -/
def staleCopy : State :=
  let s := setBerth State.reset 0 { Berth.reset with l1 := [(remoteLine, ⟨1, 1, 1⟩)] }
  let s := setQuay s 0 { Quay.reset with l2 := [(remoteLine, ⟨2, 1, 1⟩)] }
  setSlice s (copySlice 0 remoteLine) { Slice.reset with power := 1 }

/-- The second byte of the line. -/
def secondByte : Piece := ⟨extSplit + 1, 0, 8, true⟩

/-- R245: a store of that byte in ordering revision 1 leaves the L2's older value in the first byte. -/
theorem memByte_store_staleCopy : memByte (writePiece staleCopy 0 true secondByte 0).mem extSplit = 2 := by decide +kernel

/-- R230: the L1's byte is the berth's last write. -/
theorem releasedByte_staleCopy : releasedByte staleCopy 0 remoteLine extSplit = 1 := by decide +kernel

/-- Refutes O15: a store at its home of the second byte of a line whose first byte both caches hold, the L2 in a slice that is not in run. -/
theorem not_storeFrames : ¬ Obligations.StoreFrames := by
  unfold Obligations.StoreFrames
  intro h
  obtain ⟨-, -, hhome, -⟩ := h staleCopy 0 0 true secondByte (by decide)
  obtain ⟨hbyte, -⟩ := hhome rfl (.inl rfl)
  have hsame := hbyte extSplit (by decide)
  rw [memByte_store_staleCopy, show secondByte.key / 64 = remoteLine from rfl, releasedByte_staleCopy] at hsame
  exact absurd hsame (by decide)

end Sys2Proof.Machine
end

section
/-!
Capability calls and returns (R98 to R101, R244).
-/
namespace Sys2Proof.Machine

open Sys2Proof

/-! ### Installing `pcc` -/

/-- R244: an installation waits only where it enters revision 1 and the release of that entry cannot be made. -/
theorem waitInstall_ready {s : State} {pcc : Cap}
    (h : capFmt pcc = fN8 → (me s).rev1 = false → releaseReady s (myBerth s) 3 = true) : waitInstall pcc s = .ok ((), s) := by
  have hgo : ¬ (capFmt pcc = fN8 ∧ (me s).rev1 = false ∧ releaseReady s (myBerth s) 3 = false) := fun ⟨hf, hr, hw⟩ =>
    Bool.noConfusion ((h hf hr).symm.trans hw)
  simp only [waitInstall, act_bind, act_get, act_here, act_ite, if_neg hgo, act_pure]

@[simp] theorem installPcc_cur (s : State) (k c : Nat) (pcc : Cap) (pc : Dbl) : (installPcc s k c pcc pc).cur = s.cur := by
  simp only [installPcc, setCtx_cur, apply_ite State.cur, (memOnly_release s (coreBerth k) 3).cur, ite_self]

@[simp] theorem ctxOf_installPcc_pc (s : State) (k c : Nat) (pcc : Cap) (pc : Dbl) :
    (ctxOf (installPcc s k c pcc pc) k c).pc = pc := by
  simp only [installPcc, ctxOf_setCtx_same]

/-! ### Calls and returns -/

section Calls

variable {s : State} {n : BitVec 5}

/-- R100: a call whose checks pass pushes its frame, clears what it does not pass and installs the unsealed code. -/
theorem exec_ccall {a b : BitVec 4} (hn : n.toNat < 12) (hs : settledHere s) (ha : readableC s a) (hb : readableC s b)
    (h14 : readableC s 14) (h15 : readableC s 15) (hat : (regC s a).tag = true) (hbt : (regC s b).tag = true)
    (has : capSealed (regC s a) = true) (hbs : capSealed (regC s b) = true) (haf : capFmt (regC s a) ≠ fTOKEN)
    (hbf : capFmt (regC s b) ≠ fTOKEN) (ho : capOtype (regC s a) = capOtype (regC s b)) (hx : capHas (regC s a) pX = true)
    (hroom : (me s).frames.length < 8)
    (hready : capFmt (regC s a) = fN8 → (me s).rev1 = false → releaseReady s (myBerth s) 3 = true) :
    let code := capSet (regC s a) 235 1 0
    let nonce := (me s).nonce + 1
    let x := { keepArgs (me s) n.toNat with
      nonce := nonce
      frames := (me s).frames ++ [⟨(me s).pcc, (me s).pc + 4, regC s 14, regC s 15, nonce⟩] }
    let y := putC (putC x 14 (capSet (regC s b) 235 1 0)) 15
      (tokenCap nonce.toNat ((me s).frames.length + 1) s.cur.core s.cur.ctx)
    let pc := BitVec.ofNat 64 (capBase code)
    exec (.ccall b a n) s = .next (afterJump (installPcc (withMe s y) s.cur.core s.cur.ctx code pc) pc) := by
  refine runInstr_jump (word := encCcall b a n) (if_pos hn) ?_
  have hr14 : readC 14 s = .ok (regC s 14, s) := readC_plain h14
  have hr15 : readC 15 s = .ok (regC s 15, s) := readC_plain h15
  simp only [act_bind, readC_plain ha, readC_plain hb, act_here, hat, hbt, has, hbs, bne_iff_ne.2 haf, bne_iff_ne.2 hbf,
    beq_iff_eq.2 ho, hx, decide_eq_true hroom, act_check_true, waitDelivered_settled hs, waitInstall_ready hready, hr14, hr15, act_get,
    act_putHere, act_modify, setCtx_cur, installPcc_cur, ctxOf_installPcc_pc, act_pure]

/-- R101: a return through the token of the last frame pops it and restores what it saved. -/
theorem exec_cret {f : Frame} (hn : n.toNat < 12) (hs : settledHere s) (hf : (me s).frames.getLast? = some f) (h15 : readableC s 15)
    (ht : (regC s 15).tag = true) (hseal : capSealed (regC s 15) = true) (hfmt : capFmt (regC s 15) = fTOKEN)
    (hnonce : bitsAt (capBase (regC s 15)) 0 32 = f.nonce.toNat)
    (hdepth : bitsAt (capBase (regC s 15)) 32 4 = (me s).frames.length) (hcore : bitsAt (capBase (regC s 15)) 36 9 = s.cur.core)
    (hctx : bitsAt (capBase (regC s 15)) 45 2 = s.cur.ctx)
    (hready : capFmt f.pcc = fN8 → (me s).rev1 = false → releaseReady s (myBerth s) 3 = true) :
    let y := putC (putC { keepArgs (me s) n.toNat with frames := (me s).frames.dropLast } 14 f.root) 15 f.ret
    exec (.cret n) s = .next (afterJump (installPcc (withMe s y) s.cur.core s.cur.ctx f.pcc f.rpc) f.rpc) := by
  refine runInstr_jump (word := encCret n) (if_pos hn) ?_
  have hr15 : readC 15 s = .ok (regC s 15, s) := readC_plain h15
  have hsome : (me s).frames.isEmpty = false := by
    rw [List.isEmpty_eq_false_iff]
    rintro hnil
    simp [hnil] at hf
  simp only [act_bind, hr15, act_here, ht, hseal, hfmt, hsome, hf, hnonce, hdepth, hcore, hctx, beq_self_eq_true, Bool.and_self,
    Bool.not_false, act_check_true, act_get, waitDelivered_settled hs, waitInstall_ready hready, act_putHere, act_modify, setCtx_cur, act_pure]

end Calls

/-- Settles O20: a call and a return are one equation each. -/
theorem callsAndReturns : Obligations.CallsAndReturns := by
  unfold Obligations.CallsAndReturns
  intro s n hn hs
  exact ⟨fun a b => exec_ccall hn hs, fun f => exec_cret hn hs⟩

end Sys2Proof.Machine
end

section
/-!
Tables whose values a sweep maps: what a read answers then.
-/
namespace Sys2Proof.Machine

open Sys2Proof

theorem tabFind?_map {α β : Type} (g : α → β) (t : Tab α) (n : Nat) :
    tabFind? (t.map fun e => (e.1, g e.2)) n = (tabFind? t n).map g := by
  induction t with
  | nil => rfl
  | cons e r ih =>
    simp only [List.map_cons, tabFind?, ih]
    split <;> rfl

/-- A map that keeps the default maps what is read. -/
theorem tabGet_map {α β : Type} {g : α → β} {d : α} {d' : β} (hd : g d = d') (t : Tab α) (n : Nat) :
    tabGet d' (t.map fun e => (e.1, g e.2)) n = g (tabGet d t n) := by
  subst hd
  rw [tabGet, tabGet, tabFind?_map, Option.getD_map]

end Sys2Proof.Machine
end

section
/-!
What noting an unreadable map word (R105) leaves: the revocation map and everything that a sweep finds outside memory.
-/
namespace Sys2Proof.Machine

open Sys2Proof

/-! ### The same revocation map -/

/-- Two states with the same memory, cores and messages in the mesh, between which the revocation map of a partition says the same: its
dredger has at most noted a map word that it could not read. -/
structure SameMap (part : Nat) (s t : State) : Prop where
  mem : t.mem = s.mem
  quays : t.quays = s.quays
  cores : t.cores = s.cores
  mesh : t.mesh = s.mesh
  part : partOf t part = { partOf s part with dr := { (partOf s part).dr with err := (partOf t part).dr.err } }

namespace SameMap

variable {part : Nat} {s t u : State}

theorem refl (part : Nat) (s : State) : SameMap part s s := ⟨rfl, rfl, rfl, rfl, rfl⟩

theorem trans (h : SameMap part s t) (g : SameMap part t u) : SameMap part s u where
  mem := g.mem.trans h.mem
  quays := g.quays.trans h.quays
  cores := g.cores.trans h.cores
  mesh := g.mesh.trans h.mesh
  part := by
    have hp := g.part
    rw [h.part] at hp
    exact hp

theorem foldl {α : Type} {f : State → α → State} (hf : ∀ s x, SameMap part s (f s x)) (l : List α) (s : State) :
    SameMap part s (l.foldl f s) := by
  induction l generalizing s with
  | nil => exact refl part s
  | cons x r ih => exact (hf s x).trans (ih _)

theorem homeDouble (h : SameMap part s t) (key : Nat) : homeDouble t key = homeDouble s key := by
  rw [Machine.homeDouble, Machine.homeDouble, h.mem]

theorem isBad (h : SameMap part s t) (key n : Nat) : isBad t key n = isBad s key n := by
  simp only [Machine.isBad, quayOf, h.quays]

theorem granCap (h : SameMap part s t) (g : Nat) : granCap t g = granCap s g := by
  rw [Machine.granCap, Machine.granCap, h.mem]

/-- R116 to R119: the walk reads memory and the grants alone. -/
theorem walkFrom (h : SameMap part s t) (va fuel table level : Nat) :
    walkFrom t (partOf t part) va fuel table level = walkFrom s (partOf s part) va fuel table level := by
  induction fuel generalizing table level with
  | zero => rfl
  | succ fuel ih =>
    have htable : ∀ n, tableGranted (partOf t part) table n = tableGranted (partOf s part) table n := fun n => by rw [h.part]; rfl
    have hframe : ∀ pa n, frameGranted (partOf t part) pa n = frameGranted (partOf s part) pa n := fun pa n => by rw [h.part]; rfl
    simp only [Machine.walkFrom, htable, hframe, h.homeDouble, h.isBad, ih]

theorem walk (h : SameMap part s t) (va : Nat) : walk t part va = walk s part va := by
  have hroot : (partOf t part).trRoot = (partOf s part).trRoot := by rw [h.part]
  simp only [Machine.walk, h.walkFrom, hroot]

theorem dredgerKey (h : SameMap part s t) (va : Nat) : dredgerKey t part va = dredgerKey s part va := by
  have hleaf : ∀ leaf kind remote, leafCheck (partOf t part) leaf kind remote = leafCheck (partOf s part) leaf kind remote :=
    fun leaf kind remote => by rw [h.part]; rfl
  simp only [Machine.dredgerKey, h.walk, hleaf]

theorem mapWord (h : SameMap part s t) (gran : Nat) : mapWord t part gran = mapWord s part gran := by
  have hmap : (partOf t part).dr.map = (partOf s part).dr.map := by rw [h.part]
  simp only [Machine.mapWord, hmap, h.dredgerKey, h.isBad, h.homeDouble]

/-- R106: an address is revoked in both states or in neither. -/
theorem revoked (h : SameMap part s t) (addr : Nat) : (revoked t part addr).1 = (revoked s part addr).1 := by
  have hgran : heapGranule (partOf t part) addr = heapGranule (partOf s part) addr := by rw [h.part]; rfl
  simp only [Machine.revoked, hgran, h.mapWord]
  split
  · rfl
  · split <;> rfl

theorem isRevoked (h : SameMap part s t) (c : Cap) : isRevoked t part c = isRevoked s part c := by
  rw [Machine.isRevoked, Machine.isRevoked, h.revoked]

theorem swept (h : SameMap part s t) : swept t part = swept s part :=
  funext fun c => by rw [Machine.swept, Machine.swept, h.isRevoked]

end SameMap

/-! ### The note of a map word -/

theorem sameMap_mapError (s : State) (part : Nat) : SameMap part s (mapError s part) where
  mem := rfl
  quays := rfl
  cores := rfl
  mesh := rfl
  part := by
    have h : partOf (mapError s part) part = { partOf s part with dr := { (partOf s part).dr with err := true } } :=
      partOf_setPart_same s part _
    rw [h]

/-- R105: a look at the map at most notes an error. -/
theorem revoked_state (s : State) (part addr : Nat) : (revoked s part addr).2 = s ∨ (revoked s part addr).2 = mapError s part := by
  unfold revoked
  extract_lets p
  split
  · exact .inl rfl
  · split
    · exact .inl rfl
    · exact .inr rfl

theorem sameMap_revoked (s : State) (part addr : Nat) : SameMap part s (revoked s part addr).2 := by
  rcases revoked_state s part addr with h | h
  · rw [h]
    exact SameMap.refl part s
  · rw [h]
    exact sameMap_mapError s part

theorem revoked_tags (s : State) (part addr : Nat) : (revoked s part addr).2.tags = s.tags := by
  rcases revoked_state s part addr with h | h
  · rw [h]
  · rw [h]
    rfl

theorem sameMap_noteMap (s : State) (part : Nat) (cs : List Cap) : SameMap part s (noteMap s part cs) := by
  refine SameMap.foldl (fun s c => ?_) cs s
  split
  · exact sameMap_revoked s part (capBase c)
  · exact SameMap.refl part s

@[simp] theorem noteMap_tags (s : State) (part : Nat) (cs : List Cap) : (noteMap s part cs).tags = s.tags := by
  refine List.foldlRecOn (motive := fun (t : State) => t.tags = s.tags) cs _ rfl fun t ht c _ => ?_
  split
  · exact (revoked_tags t part (capBase c)).trans ht
  · exact ht

end Sys2Proof.Machine
end

section
/-!
The parts of a sweep (R110, R111): what each leaves of memory and tags, and what it does to what a partition holds outside memory.
-/
namespace Sys2Proof.Machine

open Sys2Proof

/-! ### Memory and tags -/

section Memory

variable (s : State) (part : Nat)

@[simp] theorem setStage_mem (n : BitVec 3) : (setStage s part n).mem = s.mem := rfl
@[simp] theorem setStage_tags (n : BitVec 3) : (setStage s part n).tags = s.tags := rfl
@[simp] theorem stopCopies_mem : (stopCopies s part).mem = s.mem := (sameMap_noteMap s part _).mem
@[simp] theorem stopCopies_tags : (stopCopies s part).tags = s.tags := noteMap_tags s part _
@[simp] theorem sweepHeld_mem : (sweepHeld s part).mem = s.mem := (sameMap_noteMap s part _).mem
@[simp] theorem sweepHeld_tags : (sweepHeld s part).tags = s.tags := noteMap_tags s part _
@[simp] theorem sweepKept_mem : (sweepKept s part).mem = s.mem := (sameMap_noteMap s part _).mem
@[simp] theorem sweepKept_tags : (sweepKept s part).tags = s.tags := noteMap_tags s part _

theorem sameMap_sweepTags (pick : Nat → Bool) : SameMap part s (sweepTags s part pick) := by
  obtain ⟨mem, quays, cores, mesh, hpart⟩ := sameMap_noteMap s part (tagCaps s pick)
  exact ⟨mem, quays, cores, mesh, hpart⟩

theorem sameMap_sweepImages : SameMap part s (sweepImages s part) := by
  obtain ⟨mem, quays, cores, mesh, hpart⟩ := sameMap_noteMap s part (imageCaps s part)
  unfold sweepImages
  extract_lets u own one
  split
  · exact ⟨mem, quays, cores, mesh, hpart⟩
  · exact ⟨mem, quays, cores, mesh, hpart⟩

@[simp] theorem sweepTags_mem (pick : Nat → Bool) : (sweepTags s part pick).mem = s.mem := (sameMap_sweepTags s part pick).mem
@[simp] theorem sweepImages_mem : (sweepImages s part).mem = s.mem := (sameMap_sweepImages s part).mem

@[simp] theorem sweepImages_tags : (sweepImages s part).tags = s.tags := by
  unfold sweepImages
  extract_lets u own one
  split
  · exact noteMap_tags s part _
  · exact noteMap_tags s part _

/-- R110 stages 4 and 5: of the granules that are picked, the revoked ones lose their tags. -/
theorem mem_sweepTags (pick : Nat → Bool) (g : Nat) :
    g ∈ (sweepTags s part pick).tags ↔ g ∈ s.tags ∧ ¬ (pick g = true ∧ isRevoked s part (granCap s g) = true) := by
  have h := sameMap_noteMap s part (tagCaps s pick)
  simp only [sweepTags, noteMap_tags, List.mem_filter, h.isRevoked, h.granCap, Bool.not_eq_true', ← Bool.not_eq_true, Bool.and_eq_true]

/-- R110 stage 4: the granules of the local stores and A buffers that hold the partition's data. -/
theorem localGranule_iff (g : Nat) :
    localGranule s part g = true ↔ (windowOf (g * 32) = 0xC ∨ windowOf (g * 32) = 0xD) ∧ isL2Key (g * 32) = false ∧
      (berthOf s (winBerth (g * 32))).holds = some part := by
  simp only [localGranule, Bool.and_eq_true, Bool.or_eq_true, beq_iff_eq, Bool.not_eq_true', and_assoc]

end Memory

/-! ### What a partition holds outside memory -/

section Held

variable {s t u : State} {part : Nat} {f : Cap → Cap}

/-- R110 stage 3: a context of a core after the sweep. -/
def sweptTask (part : Nat) (f : Cap → Cap) (x : Ctx) : Ctx := if x.mode != .free && x.part == part then sweptCtx f x else x

theorem sweptTask_own {x : Ctx} (hm : x.mode ≠ .free) (hp : x.part = part) : sweptTask part f x = sweptCtx f x := by
  rw [sweptTask, bne_iff_ne.2 hm, beq_iff_eq.2 hp]
  rfl

theorem sweptTask_other {x : Ctx} (hp : x.part ≠ part) : sweptTask part f x = x := by
  rw [sweptTask, beq_eq_false_iff_ne.2 hp, Bool.and_false]
  rfl

theorem swept_null (s : State) (part : Nat) : swept s part Cap.null = Cap.null := rfl

theorem coreOf_sweepHeld (h : SameMap part s u) (k : Nat) : coreOf (sweepHeld u part) k = sweptCore part (swept s part) (coreOf s k) := by
  have hv := h.trans (sameMap_noteMap u part (heldCaps u part))
  have hcores : (sweepHeld u part).cores = s.cores.map fun e => (e.1, sweptCore part (swept s part) e.2) := by
    rw [← hv.swept, ← hv.cores]
    rfl
  rw [coreOf, hcores]
  exact tabGet_map (g := sweptCore part (swept s part)) (d := Core.reset) rfl s.cores k

theorem ctxOf_sweepHeld (h : SameMap part s u) (k c : Nat) :
    ctxOf (sweepHeld u part) k c = sweptTask part (swept s part) (ctxOf s k c) := by
  rw [ctxOf, coreOf_sweepHeld h]
  exact tabGet_map (g := sweptTask part (swept s part)) (d := Ctx.reset) rfl (coreOf s k).ctxs c

/-- R110 stage 3, R111: where the map says what it said in `s`, the sweep clears what it revokes. -/
theorem heldSwept_sweepHeld (h : SameMap part s u) : heldSwept s (sweepHeld u part) part := by
  have hv := h.trans (sameMap_noteMap u part (heldCaps u part))
  refine ⟨fun k c hm hp => ?own, fun k c hp => ?other, fun k ch => ?bind, fun k => ?inbox, fun k vn => ?sendq, ?mesh⟩
  case own =>
    rw [ctxOf_sweepHeld h, sweptTask_own hm hp]
    exact ⟨fun r => tabGet_map (swept_null s part) _ r, rfl, rfl, rfl, rfl, rfl, rfl⟩
  case other => rw [ctxOf_sweepHeld h, sweptTask_other hp]
  case bind =>
    rw [coreOf_sweepHeld h]
    exact tabFind?_map (sweptBinding part (swept s part)) _ ch
  case inbox =>
    rw [coreOf_sweepHeld h]
    rfl
  case sendq =>
    rw [coreOf_sweepHeld h]
    exact tabGet_map (g := List.map (sweptFlight part (swept s part))) (d := []) rfl (coreOf s k).sendq vn
  case mesh =>
    rw [← hv.mesh, ← hv.swept]
    rfl

/-- What comes after it changes at most the spill queues of the cores. -/
theorem heldSwept_of_spill (h : heldSwept s t part) (hcore : ∀ k, coreOf u k = { coreOf t k with spill := (coreOf u k).spill })
    (hmesh : u.mesh = t.mesh) : heldSwept s u part := by
  have hctx : ∀ k c, ctxOf u k c = ctxOf t k c := fun k c => by rw [ctxOf, hcore k]; rfl
  have hbind : ∀ k, (coreOf u k).bind = (coreOf t k).bind := fun k => by rw [hcore k]
  have hinbox : ∀ k, (coreOf u k).inbox = (coreOf t k).inbox := fun k => by rw [hcore k]
  have hsendq : ∀ k, (coreOf u k).sendq = (coreOf t k).sendq := fun k => by rw [hcore k]
  simpa only [heldSwept, hctx, hbind, hinbox, hsendq, hmesh] using h

theorem coreOf_stopCopies_setStage (s : State) (part : Nat) (n : BitVec 3) (k : Nat) :
    coreOf (stopCopies (setStage s part n) part) k = coreOf s k :=
  congrArg (fun cores => tabGet Core.reset cores k) (sameMap_noteMap (setStage s part n) part _).cores

/-- R110: the end of a stage, at which the lighters compare their copies and the next stage begins. -/
theorem heldSwept_nextStage (h : heldSwept s t part) (n : BitVec 3) : heldSwept s (stopCopies (setStage t part n) part) part :=
  heldSwept_of_spill h (fun k => by rw [coreOf_stopCopies_setStage]) (sameMap_noteMap (setStage t part n) part _).mesh

/-- R110 stage 5: what is swept beside memory. -/
theorem heldSwept_sweepKept (h : heldSwept s t part) : heldSwept s (sweepKept t part) part := by
  have hv := sameMap_noteMap t part (keptCaps t part)
  have hcore : ∀ k, coreOf (sweepKept t part) k = sweptSpill part (swept t part) (coreOf t k) := fun k => by
    have hcores : (sweepKept t part).cores = t.cores.map fun e => (e.1, sweptSpill part (swept t part) e.2) := by
      rw [← hv.swept, ← hv.cores]
      rfl
    rw [coreOf, hcores]
    exact tabGet_map (g := sweptSpill part (swept t part)) (d := Core.reset) rfl t.cores k
  exact heldSwept_of_spill h (fun k => by rw [hcore]; rfl) hv.mesh

end Held

end Sys2Proof.Machine
end

section
/-!
The dredger through a sweep (R105, R107, R108, R110): what its registers hold at the beginning and the end, and the meaning of each stage.
-/
namespace Sys2Proof.Machine

open Sys2Proof

/-! ### What leaves a dredger's registers -/

section Dredgers

/-- Two states between which a partition's dredger has at most noted an error. -/
def SameDredger (part : Nat) (s t : State) : Prop :=
  (partOf t part).dr = { (partOf s part).dr with err := (partOf t part).dr.err }

variable {part : Nat} {s t u : State}

theorem SameDredger.trans (h : SameDredger part s t) (g : SameDredger part t u) : SameDredger part s u := by
  unfold SameDredger at *
  rw [h] at g
  exact g

theorem SameMap.sameDredger (h : SameMap part s t) : SameDredger part s t := congrArg Partition.dr h.part

theorem MemOnly.sameDredger (h : MemOnly s t) (part : Nat) : SameDredger part s t := by
  rw [SameDredger, h.partOf]

theorem memOnly_recallRange (s : State) (key n : Nat) : MemOnly s (recallRange s key n) :=
  MemOnly.foldl (fun s line => (memOnly_l2WriteBack s 0 line).trans (memOnly_l2WriteBack _ 1 line)) _ s

theorem memOnly_unitStore {va : Nat} {p : Phys} (h : unitStore s part va = .ok (p, t)) : MemOnly s t := by
  unfold unitStore at h
  split at h
  · cases h
  · split at h
    · cases h
    · cases h
      split
      · exact MemOnly.refl s
      · exact memOnly_unitWrite s _ _

theorem sameDredger_updateCounters (s : State) (part : Nat) : SameDredger part s (updateCounters s part) := by
  have hfailed : SameDredger part s (mapError s part) := (sameMap_mapError s part).sameDredger
  unfold updateCounters
  extract_lets d failed va
  split
  · exact hfailed
  · split
    · exact hfailed
    · rename_i p t hstore
      split
      · exact hfailed
      · exact (((memOnly_unitStore hstore).trans (memOnly_recallRange t _ _)).trans (memOnly_unitWrite _ _ _)).sameDredger part

theorem sameDredger_stopCopies (s : State) (part : Nat) : SameDredger part s (stopCopies s part) :=
  (sameMap_noteMap s part _).sameDredger

theorem memOnly_writeBackAll (s : State) : MemOnly s (writeBackAll s) :=
  MemOnly.foldl (fun s (e : Nat × Berth) => memOnly_release s e.1 3) s.berths s

/-- R105: the stage that a dredger goes to. -/
theorem stage_nextStage (s : State) (part : Nat) (n : BitVec 3) : (partOf (stopCopies (setStage s part n) part) part).dr.stage = n := by
  rw [sameDredger_stopCopies (setStage s part n) part, setStage, partOf_setPart_same]

end Dredgers

/-! ### The beginning -/

/-- R108: a dredger whose sweep begins. -/
def begunDredger (d : Dredger) (clk : Nat) : Dredger := { d with begun := d.begun + 1, pend := false, stage := 3, startedAt := clk }

section Stages

variable {s : State} {part : Nat}

/-- R108: a requested sweep of a heap begins. -/
theorem exec_sweepStart (hidle : sweeping (partOf s part).dr = false) (hpend : (partOf s part).dr.pend = true)
    (hsize : fieldOf (partOf s part).dr.size 0 28 ≠ 0) (hcounter : counterHeld s part = false)
    (hmaps : mapsHeld s part (lighterCaps s part) = false) :
    exec (.sweepStart part) s = .next (stopCopies (updateCounters
      (setPart s part { partOf s part with dr := begunDredger (partOf s part).dr s.clk }) part) part) := by
  refine runEvent_ok ?_
  simp only [act_bind, act_get, hidle, hpend, bne_iff_ne.2 hsize, hcounter, hmaps, Bool.not_false, Bool.and_self, act_need_true, act_set]
  rfl

/-- R108: what the dredger's registers hold then. -/
theorem dr_sweepStart (s : State) (part : Nat) (d : Dredger) :
    ∃ err, (partOf (stopCopies (updateCounters (setPart s part { partOf s part with dr := d }) part) part) part).dr =
      { d with err := err } := by
  have h := (sameDredger_updateCounters (setPart s part { partOf s part with dr := d }) part).trans (sameDredger_stopCopies _ part)
  rw [SameDredger, partOf_setPart_same] at h
  exact ⟨_, h⟩

/-! ### Stages 3 to 5 -/

theorem needStage_running {n : BitVec 3} (hrun : sweeping (partOf s part).dr = true) (hstage : (partOf s part).dr.stage = n) :
    needStage part n s = .ok ((), s) := by
  simp only [needStage, act_bind, act_get, hrun, beq_iff_eq.2 hstage, Bool.and_self, act_need_true]

theorem exec_sweepRegisters (hrun : sweeping (partOf s part).dr = true) (hstage : (partOf s part).dr.stage = 3)
    (hmaps : mapsHeld s part (heldCaps s part ++ lighterCaps s part) = false) :
    exec (.sweepRegisters part) s = .next (stopCopies (setStage (sweepHeld s part) part 4) part) := by
  refine runEvent_ok ?_
  simp only [act_bind, needStage_running hrun hstage, act_get, hmaps, Bool.not_false, act_need_true, act_set]

theorem exec_sweepLocalStores (hrun : sweeping (partOf s part).dr = true) (hstage : (partOf s part).dr.stage = 4)
    (hmaps : mapsHeld s part (heldCaps s part ++ lighterCaps s part ++ tagCaps s (localGranule s part)) = false) :
    exec (.sweepLocalStores part) s =
      .next (stopCopies (setStage (sweepHeld (sweepTags s part (localGranule s part)) part) part 5) part) := by
  refine runEvent_ok ?_
  simp only [act_bind, needStage_running hrun hstage, act_get, hmaps, Bool.not_false, act_need_true, act_set]

/-- R110 stage 5: the granules that it looks at, those of stage 4 among them. -/
def sweptGranule (s : State) (part t : Nat) : Bool :=
  localGranule s part t || (decide (t * 32 < extEnd) && inGrants (partOf s part) (t * 32) 32)

theorem sweptGranule_iff (g : Nat) :
    sweptGranule s part g = true ↔ ((windowOf (g * 32) = 0xC ∨ windowOf (g * 32) = 0xD) ∧ isL2Key (g * 32) = false ∧
      (berthOf s (winBerth (g * 32))).holds = some part) ∨ (g * 32 < extEnd ∧ inGrants (partOf s part) (g * 32) 32 = true) := by
  simp only [sweptGranule, Bool.or_eq_true, localGranule_iff, Bool.and_eq_true, decide_eq_true_eq]

theorem exec_sweepMemory (hrun : sweeping (partOf s part).dr = true) (hstage : (partOf s part).dr.stage = 5)
    (hmaps : mapsHeld s part (heldCaps s part ++ lighterCaps s part ++ tagCaps s (sweptGranule s part) ++ imageCaps s part ++ keptCaps s part) =
      false)
    (hlines : ∀ t ∈ s.tags, sweptGranule s part t = true → t * 32 < extEnd → unitWaits s part (t * 32) 32 false = false) :
    exec (.sweepMemory part) s = .next (stopCopies (setStage (sweepKept (sweepHeld (sweepImages
      (sweepTags s part (sweptGranule s part)) part) part) part) part 6) part) := by
  have hall : ((s.tags.filter (sweptGranule s part)).all fun t => t * 32 ≥ extEnd || !unitWaits s part (t * 32) 32 false) = true := by
    refine List.all_eq_true.2 fun t ht => ?_
    obtain ⟨hmem, hpick⟩ := List.mem_filter.1 ht
    rcases Nat.lt_or_ge (t * 32) extEnd with hlow | hhigh
    · simp only [hlines t hmem hpick hlow, Bool.not_false, Bool.or_true]
    · simp only [hhigh, decide_true, Bool.true_or]
  have hneed : (!mapsHeld s part (heldCaps s part ++ lighterCaps s part ++ tagCaps s (sweptGranule s part) ++ imageCaps s part ++
      keptCaps s part) && (s.tags.filter (sweptGranule s part)).all fun t => t * 32 ≥ extEnd || !unitWaits s part (t * 32) 32 false) = true := by
    rw [hmaps, hall]
    rfl
  exact runEvent_ok ((act_bind_ok (needStage_running hrun hstage)).trans ((act_bind_ok (act_get s)).trans
    ((act_bind_ok (congrArg (need · s) hneed)).trans (act_set s _))))

/-! ### The end -/

/-- R105, R110: a dredger whose sweep ends. -/
def endedDredger (begun : BitVec 16) (err : Bool) (d : Dredger) : Dredger :=
  { d with begun := begun, ended := begun, stage := 0, err := err, deferred := [] }

/-- R105: the writes that waited. -/
def applyDeferred (d : Dredger) (ws : List (Nat × Dbl)) : Dredger := ws.foldl (fun d e => setDredger d e.1 e.2) d

/-- R105: a write of a revocation register touches none of the fields that the end of a sweep sets. -/
theorem setDredger_endedDredger (begun : BitVec 16) (err : Bool) (d : Dredger) (off : Nat) (v : Dbl) :
    setDredger (endedDredger begun err d) off v = endedDredger begun err (setDredger d off v) := by
  unfold setDredger
  split <;> rfl

theorem applyDeferred_endedDredger (begun : BitVec 16) (err : Bool) (d : Dredger) (ws : List (Nat × Dbl)) :
    applyDeferred (endedDredger begun err d) ws = endedDredger begun err (applyDeferred d ws) :=
  List.foldl_hom (endedDredger begun err) fun d e => setDredger_endedDredger begun err d e.1 e.2

/-- R110 stage 6: `ended` advances. -/
def setEnded (s : State) (part : Nat) : State :=
  setPart s part { partOf s part with dr := { (partOf s part).dr with ended := (partOf s part).dr.begun, stage := 0 } }

/-- R107, R110 stage 6: the counters in memory tell of the end, once the caches have been written back. -/
def sweepClosed (s : State) (part : Nat) : State := updateCounters (writeBackAll (setEnded (stopCopies s part) part)) part

theorem exec_sweepEnd (hrun : sweeping (partOf s part).dr = true) (hstage : (partOf s part).dr.stage = 6)
    (hmads : ∀ b ∈ s.berths, ∀ c ∈ b.2.mat.queue, ¬ (c.fn = 5 ∧ c.part = part ∧ c.issued ≤ (partOf s part).dr.startedAt))
    (hcaches : cachesReady s = true) (hcounter : counterHeld s part = false) (hmaps : mapsHeld s part (lighterCaps s part) = false) :
    exec (.sweepEnd part) s = .next (setPart (sweepClosed s part) part { partOf (sweepClosed s part) part with
      dr := applyDeferred { (partOf (sweepClosed s part) part).dr with deferred := [] } (partOf (sweepClosed s part) part).dr.deferred }) := by
  have hnone : (s.berths.any fun b => b.2.mat.queue.any fun c =>
      c.fn == 5 && c.part == part && decide (c.issued ≤ (partOf s part).dr.startedAt)) = false := by
    refine List.any_eq_false.2 fun b hb => ?_
    rw [Bool.not_eq_true, List.any_eq_false]
    intro c hc
    simpa only [Bool.and_eq_true, beq_iff_eq, decide_eq_true_eq, and_assoc] using hmads b hb c hc
  refine runEvent_ok ?_
  simp only [act_bind, needStage_running hrun hstage, act_get, hnone, hcaches, hcounter, hmaps, Bool.not_false, Bool.and_self, act_need_true,
    act_set]
  rfl

/-- R105, R110: what the dredger's registers hold after a sweep. -/
theorem dr_sweepEnd (s : State) (part : Nat) : ∃ err,
    applyDeferred { (partOf (sweepClosed s part) part).dr with deferred := [] } (partOf (sweepClosed s part) part).dr.deferred =
      endedDredger (partOf s part).dr.begun err (applyDeferred (partOf s part).dr (partOf s part).dr.deferred) := by
  have hstop := sameDredger_stopCopies s part
  have hclosed : SameDredger part (setEnded (stopCopies s part) part) (sweepClosed s part) :=
    ((memOnly_writeBackAll _).sameDredger part).trans (sameDredger_updateCounters _ part)
  rw [SameDredger, setEnded, partOf_setPart_same, hstop] at hclosed
  refine ⟨(partOf (sweepClosed s part) part).dr.err, ?_⟩
  rw [← applyDeferred_endedDredger, hclosed]
  rfl

/-! ### Writes of revocation registers -/

theorem exec_dredgerRegisterWrite_refused {v : Dbl} (hv : 0x8000000 < fieldOf v 0 28) :
    exec (.dredgerRegisterWrite part 0x08 v) s = .next { s with glob := { s.glob with pmErr := true } } := by
  have hrefused : sizeRefused 0x08 v = true := decide_eq_true hv
  refine runEvent_ok ?_
  simp only [act_bind, act_get, hrefused, if_true, act_set]

/-- R105: a write of a revocation register performs, or waits for the end of the sweep. -/
theorem exec_dredgerRegisterWrite {off : Nat} {v : Dbl} (hoff : off ∈ [0x00, 0x08, 0x10, 0x18])
    (hv : off = 0x08 → fieldOf v 0 28 ≤ 0x8000000) :
    exec (.dredgerRegisterWrite part off v) s = .next (setPart s part { partOf s part with
      dr := if sweeping (partOf s part).dr then { (partOf s part).dr with deferred := (partOf s part).dr.deferred ++ [(off, v)] }
        else setDredger (partOf s part).dr off v }) := by
  have hrefused : sizeRefused off v = false := by
    rw [sizeRefused, Bool.and_eq_false_imp]
    exact fun h8 => decide_eq_false (Nat.not_lt.2 (hv (beq_iff_eq.1 h8)))
  have hregs : off = 0x00 ∨ off = 0x08 ∨ off = 0x10 ∨ off = 0x18 := by simpa using hoff
  have hstat : off ≠ 0x28 := by
    rintro rfl
    simp at hoff
  refine runEvent_ok ?_
  simp only [act_bind, act_get, hrefused, Bool.false_eq_true, if_false, if_neg hstat, if_pos hregs, act_set]

end Stages

end Sys2Proof.Machine
end

section
/-!
The statement on sweeps (R105 to R113).
-/
namespace Sys2Proof.Machine

open Sys2Proof

section Clauses

variable {s : State} {part : Nat}

theorem sweepStart_begins (hidle : sweeping (partOf s part).dr = false) (hpend : (partOf s part).dr.pend = true)
    (hsize : fieldOf (partOf s part).dr.size 0 28 ≠ 0) (hcounter : counterHeld s part = false)
    (hmaps : mapsHeld s part (lighterCaps s part) = false) :
    ∃ t, exec (.sweepStart part) s = .next t ∧ (partOf t part).dr.begun = (partOf s part).dr.begun + 1 ∧
      (partOf t part).dr.ended = (partOf s part).dr.ended ∧ (partOf t part).dr.pend = false ∧ (partOf t part).dr.stage = 3 := by
  obtain ⟨err, hdr⟩ := dr_sweepStart s part (begunDredger (partOf s part).dr s.clk)
  refine ⟨_, exec_sweepStart hidle hpend hsize hcounter hmaps, ?_⟩
  rw [hdr]
  exact ⟨rfl, rfl, rfl, rfl⟩

/-- R110 stage 4: what is swept there comes after the tags of the granules, on which the map does not depend. -/
theorem heldSwept_localStores (s : State) (part : Nat) (pick : Nat → Bool) (n : BitVec 3) :
    heldSwept s (stopCopies (setStage (sweepHeld (sweepTags s part pick) part) part n) part) part :=
  heldSwept_nextStage (heldSwept_sweepHeld (sameMap_sweepTags s part pick)) n

/-- R110 stage 5: the same with the images of compressed blocks, and what is kept beside memory. -/
theorem heldSwept_memory (s : State) (part : Nat) (pick : Nat → Bool) (n : BitVec 3) :
    heldSwept s (stopCopies (setStage (sweepKept (sweepHeld (sweepImages (sweepTags s part pick) part) part) part) part n) part) part :=
  heldSwept_nextStage (heldSwept_sweepKept (heldSwept_sweepHeld
    ((sameMap_sweepTags s part pick).trans (sameMap_sweepImages _ part)))) n

theorem sweepEnd_ends (hrun : sweeping (partOf s part).dr = true) (hstage : (partOf s part).dr.stage = 6)
    (hmads : ∀ b ∈ s.berths, ∀ c ∈ b.2.mat.queue, ¬ (c.fn = 5 ∧ c.part = part ∧ c.issued ≤ (partOf s part).dr.startedAt))
    (hcaches : cachesReady s = true) (hcounter : counterHeld s part = false) (hmaps : mapsHeld s part (lighterCaps s part) = false) :
    ∃ t err, exec (.sweepEnd part) s = .next t ∧ (partOf t part).dr =
      endedDredger (partOf s part).dr.begun err (applyDeferred (partOf s part).dr (partOf s part).dr.deferred) := by
  obtain ⟨err, hdr⟩ := dr_sweepEnd s part
  refine ⟨_, err, exec_sweepEnd hrun hstage hmads hcaches hcounter hmaps, ?_⟩
  rw [partOf_setPart_same]
  exact hdr

end Clauses

/-- Settles O21: each stage by its own equation; the map says the same throughout, so that each sweeps by what it said before. -/
theorem sweepsClear : Obligations.SweepsClear := by
  unfold Obligations.SweepsClear
  intro s part p localTag seen
  refine ⟨fun hidle hpend hsize hcounter hmaps => sweepStart_begins hidle hpend hsize hcounter hmaps,
    fun hrun hstage hmaps => ⟨_, exec_sweepRegisters hrun hstage hmaps, ?registers⟩,
    fun hrun hstage hmaps => ⟨_, exec_sweepLocalStores hrun hstage hmaps, ?localStores⟩,
    fun hrun hstage hmaps hlines => ⟨_, exec_sweepMemory hrun hstage hmaps hlines, ?memory⟩,
    fun hrun hstage hmads hcaches hcounter hmaps => ?ends,
    fun off v => ⟨fun h8 hv => ?refused, fun hoff hv => exec_dredgerRegisterWrite hoff hv⟩⟩
  case registers =>
    exact ⟨stage_nextStage _ part 4, heldSwept_nextStage (heldSwept_sweepHeld (.refl part s)) 4, by simp, by simp⟩
  case localStores =>
    refine ⟨stage_nextStage _ part 5, heldSwept_localStores s part _ 5, by simp, fun g => ?_⟩
    simp only [stopCopies_tags, setStage_tags, sweepHeld_tags, mem_sweepTags, localGranule_iff]
    rfl
  case memory =>
    refine ⟨stage_nextStage _ part 6, heldSwept_memory s part _ 6, by simp, fun g => ?_⟩
    simp only [stopCopies_tags, setStage_tags, sweepKept_tags, sweepHeld_tags, sweepImages_tags, mem_sweepTags, sweptGranule_iff]
    rfl
  case ends =>
    obtain ⟨t, err, hexec, hdr⟩ := sweepEnd_ends hrun hstage hmads hcaches hcounter hmaps
    refine ⟨t, hexec, ?_⟩
    rw [hdr]
    exact ⟨rfl, rfl, rfl, rfl, rfl, rfl, rfl⟩
  case refused =>
    subst h8
    exact exec_dredgerRegisterWrite_refused hv

end Sys2Proof.Machine
end

section
/-!
Answers to the fault buffer and commands to the TLBs (R116, R122, R127 to R130).
-/
namespace Sys2Proof.Machine

open Sys2Proof

section Paging

variable {s : State} {part : Nat} {v : Dbl}

/-! ### Answers to the fault buffer -/

/-- R129: a response with a reserved bit. -/
def malformedResp (v : Dbl) : Prop := fieldOf v 32 32 ≠ 0 ∨ fieldOf v 9 7 ≠ 0 ∨ fieldOf v 3 5 ≠ 0

theorem malformedResp_iff : malformedResp v ↔ (fieldOf v 32 32 != 0 || fieldOf v 9 7 != 0 || fieldOf v 3 5 != 0) = true := by
  simp only [malformedResp, Bool.or_eq_true, bne_iff_ne, or_assoc]

/-- R128: a partition that has dropped one more response; the count saturates. -/
def droppedResp (p : Partition) : Partition := { p with stale := if p.stale = 0xFFFFFFFF then p.stale else p.stale + 1 }

/-- R128: the entry of an accepted response is free, and its page has left the TLBs. -/
def freedEntry (s : State) (part : Nat) (v : Dbl) (e : FaultEntry) : State :=
  tlbDrop (setPart s part { partOf s part with pfResp := v, ents := tabErase (partOf s part).ents (fieldOf v 0 3) }) part e.page 1

theorem exec_pfRespWrite_malformed (hbad : malformedResp v) : exec (.pfRespWrite part v) s = .next (pfRefuse s part) := by
  refine runEvent_ok ?_
  simp only [act_bind, act_get, if_pos (malformedResp_iff.1 hbad), act_set]

theorem exec_pfRespWrite_noEntry (hok : ¬ malformedResp v) (hent : tabFind? (partOf s part).ents (fieldOf v 0 3) = none) :
    exec (.pfRespWrite part v) s = .next (setPart s part (droppedResp (partOf s part))) := by
  refine runEvent_ok ?_
  simp only [act_bind, act_get, if_neg (mt malformedResp_iff.2 hok), hent, act_set]
  rfl

theorem exec_pfRespWrite_oldGeneration {e : FaultEntry} (hok : ¬ malformedResp v)
    (hent : tabFind? (partOf s part).ents (fieldOf v 0 3) = some e) (hgen : fieldOf v 16 16 ≠ (partOf s part).trGen.toNat) :
    exec (.pfRespWrite part v) s = .next (setPart s part (droppedResp (partOf s part))) := by
  refine runEvent_ok ?_
  simp only [act_bind, act_get, if_neg (mt malformedResp_iff.2 hok), hent, if_pos hgen, act_set]
  rfl

theorem exec_pfRespWrite_accepted {e : FaultEntry} (hok : ¬ malformedResp v)
    (hent : tabFind? (partOf s part).ents (fieldOf v 0 3) = some e) (hgen : fieldOf v 16 16 = (partOf s part).trGen.toNat) :
    exec (.pfRespWrite part v) s =
      .next (answer (freedEntry s part v e) part (fun q => q == .entry (fieldOf v 0 3)) (v.getLsbD 8) e.reason.toNat) := by
  refine runEvent_ok ?_
  simp only [act_bind, act_get, if_neg (mt malformedResp_iff.2 hok), hent, if_neg (not_not_intro hgen), act_set]
  rfl

/-- R127: replay-all is refused while a command runs, and is otherwise one step. -/
theorem exec_trCmdReplayAll : exec (.trCmdReplayAll part) s =
    if (partOf s part).trBusy then .next (pfRefuse s part) else .next (replayAll (setPart s part { partOf s part with trOp := 1 }) part) := by
  cases hbusy : (partOf s part).trBusy with
  | true =>
    refine runEvent_ok ?_
    simp only [act_bind, act_get, hbusy, if_true, act_set]
  | false =>
    refine runEvent_ok ?_
    simp only [act_bind, act_get, hbusy, Bool.false_eq_true, if_false, act_set]

/-- R127: on an entry or on the drop list. -/
def awaitsAnswer : ParkPlace → Bool
  | .answered _ => false
  | _ => true

theorem replayAll_setPart (p : Partition) : replayAll (setPart s part p) part =
    answer (setPart s part { p with trGen := p.trGen + 1, ents := [], dropped := false }) part awaitsAnswer false 0 := by
  rw [replayAll, partOf_setPart_same, setPart_setPart]
  rfl

/-! ### The beginning of a command -/

theorem cmdRefused_invalidateAll (p : Partition) : cmdRefused p 2 = p.trBusy := by
  simp only [cmdRefused, show ¬ 3 ≤ 2 by omega, decide_false, Bool.false_and, Bool.or_false]

theorem cmdRefused_ranged {op : Nat} (hop : 3 ≤ op) (p : Partition) : cmdRefused p op = true ↔ p.trBusy = true ∨ cmdCount p = 0 := by
  simp only [cmdRefused, hop, decide_true, Bool.true_and, Bool.or_eq_true, beq_iff_eq]

/-- R122: the state in which a write of `tr.cmd` leaves the device. -/
def cmdWritten (s : State) (part op : Nat) (effect : State → State) : State :=
  if cmdRefused (partOf s part) op then pfRefuse s part
  else
    tlbDrop (effect (setPart s part (cmdStarted (partOf s part) op s.nextReq))) part
      (cmdStarted (partOf s part) op s.nextReq).trFirst (cmdStarted (partOf s part) op s.nextReq).trCount

theorem startCommand_ok (op : Nat) (effect : State → State) : startCommand part op effect s = .ok ((), cmdWritten s part op effect) := by
  unfold startCommand cmdWritten
  rw [act_bind_ok (act_get s)]
  split
  · rfl
  · rfl

theorem exec_trCmdInvalidateAll : exec (.trCmdInvalidateAll part) s = .next (cmdWritten s part 2 id) := runEvent_ok (startCommand_ok 2 id)

theorem exec_trCmdInvalidateRange : exec (.trCmdInvalidateRange part) s = .next (cmdWritten s part 3 id) := runEvent_ok (startCommand_ok 3 id)

theorem exec_trCmdHarvest (hscan : scanHeld s part = false) :
    exec (.trCmdHarvest part) s = .next (cmdWritten s part 4 fun t => harvest t part) := by
  refine runEvent_ok ?_
  simp only [act_bind, act_get, hscan, Bool.not_false, Bool.or_true, act_need_true, startCommand_ok]

/-- R122: op 2 covers every unit of the partition's addresses. -/
theorem next_cmdWritten_invalidateAll : Host.Outcome.next (cmdWritten s part 2 id) =
    (if (partOf s part).trBusy then .next (pfRefuse s part)
      else .next (tlbDrop (setPart s part (cmdStarted (partOf s part) 2 s.nextReq)) part 0 allUnits) : Outcome) := by
  rw [cmdWritten, cmdRefused_invalidateAll, apply_ite Host.Outcome.next]
  rfl

/-- R122: the other commands cover the range that the registers name. -/
theorem next_cmdWritten_ranged {op : Nat} (hop : 3 ≤ op) (effect : State → State) : Host.Outcome.next (cmdWritten s part op effect) =
    (if (partOf s part).trBusy = true ∨ cmdCount (partOf s part) = 0 then .next (pfRefuse s part)
      else .next (tlbDrop (effect (setPart s part (cmdStarted (partOf s part) op s.nextReq))) part
        (cmdFirst (partOf s part)) (cmdCount (partOf s part))) : Outcome) := by
  have hop2 : op ≠ 2 := by omega
  have hfirst : (cmdStarted (partOf s part) op s.nextReq).trFirst = cmdFirst (partOf s part) := if_neg hop2
  have hcount : (cmdStarted (partOf s part) op s.nextReq).trCount = cmdCount (partOf s part) := if_neg hop2
  rw [cmdWritten, apply_ite Host.Outcome.next, hfirst, hcount]
  exact ite_congr (propext (cmdRefused_ranged hop _)) (fun _ => rfl) (fun _ => rfl)

/-! ### The end of a command -/

/-- R122: busy returns to 0. -/
def commandEnded (s : State) (part : Nat) : State := setPart s part { partOf s part with trBusy := false, harvest := none }

/-- R122: what the range's accesses have written has reached its point of coherence, and no TLB holds an entry of the range. -/
def drainedRange (s : State) (part : Nat) : State :=
  tlbDrop (writeBackAll s) part (partOf s part).trFirst (partOf s part).trCount

theorem exec_trCmdComplete (hbusy : (partOf s part).trBusy = true) (hdrained : cmdDrained s part = true) (hcaches : cachesReady s = true)
    (hnone : (partOf s part).harvest = none) :
    exec (.trCmdComplete part) s = .next (commandEnded (drainedRange s part) part) := by
  refine runEvent_ok ?_
  simp only [act_bind, act_get, hbusy, hdrained, hcaches, Bool.and_self, act_need_true, hnone, act_set]
  rfl

/-- R130: a harvest writes its bitmap before busy returns to 0. -/
theorem exec_trCmdComplete_harvest {h : Harvest} {u : State} (hbusy : (partOf s part).trBusy = true) (hdrained : cmdDrained s part = true)
    (hcaches : cachesReady s = true) (hsome : (partOf s part).harvest = some h) (hplace : h.place = none)
    (hmap : isTranslated h.bmap = true) (hheld : bitmapHeld (drainedRange s part) part h = false)
    (hwrite : writeBitmap part ((h.bits.length + 63) / 64) h.bmap h.bits (drainedRange s part) = .ok u) :
    exec (.trCmdComplete part) s = .next (commandEnded u part) := by
  rw [drainedRange] at hheld hwrite
  refine runEvent_ok ?_
  simp only [act_bind, act_get, hbusy, hdrained, hcaches, Bool.and_self, act_need_true, hsome, hplace, Option.isNone_none, hheld,
    Bool.not_false, hmap, Bool.true_eq_false, if_false, hwrite, act_set]
  rfl

/-- R116, R122: a write of `tr.root` after op 2. -/
theorem exec_trRootWrite (hperformed : unperformed s part s.nextReq = false) (hcaches : cachesReady s = true) :
    let t := tlbDrop (writeBackAll s) part 0 allUnits
    exec (.trRootWrite part v) s =
      .next (setPart t part { partOf t part with trRoot := BitVec.ofNat 64 (fieldOf v 8 32 * 256) }) := by
  refine runEvent_ok ?_
  simp only [act_bind, act_get, hperformed, hcaches, Bool.not_false, Bool.and_self, act_need_true, act_set]

end Paging

end Sys2Proof.Machine
end

section
/-!
The L2-direct share, bandwidth periods, injected interrupts, and lines that leave a cache (R127, R132, R133, R136, R138, R230).
-/
namespace Sys2Proof.Machine

open Sys2Proof

/-! ### The L2-direct share -/

/-- Writing a field's own value changes nothing. -/
theorem setField_fieldOf (v : Dbl) (lo n : Nat) : setField v lo n (fieldOf v lo n) = v := by
  have hlt : bitsAt v.toNat lo n < 2 ^ n := Nat.mod_lt _ (Nat.two_pow_pos n)
  have hle : bitsAt v.toNat lo n * 2 ^ lo ≤ v.toNat :=
    Nat.le_trans (Nat.mul_le_mul_right _ (Nat.mod_le _ _)) (Nat.div_mul_le_self _ _)
  rw [setField, fieldOf, Nat.mod_eq_of_lt hlt, Nat.sub_add_cancel hle, BitVec.ofNat_toNat, BitVec.setWidth_eq]

section Share

variable {s : State} {part quay : Nat} {v : Dbl}

/-- R132: splits lowered to a limit that they do not exceed stay as they are. -/
theorem lowered_eq_self {old : Dbl} {l : List Nat} (hle : ∀ i ∈ l, nibble old i ≤ nibble v i) :
    l.foldl (fun (w : Dbl) i => setField w (4 * i) 4 (min (nibble old i) (nibble v i))) old = old := by
  refine List.foldlRecOn (motive := (· = old)) l _ rfl fun w hw i hi => ?_
  rw [hw, Nat.min_eq_left (hle i hi)]
  exact setField_fieldOf old (4 * i) 4

/-- R132: the sum of all partitions' limits on a slice if a partition's limits become `v`. -/
def limitSum (s : State) (part quay : Nat) (v : Dbl) (j : Nat) : Nat :=
  ((List.range 16).map fun q => nibble (if q = part then v else limitOf (partOf s q) quay) j).sum

theorem splitOf_setLimit (p : Partition) (quay : Nat) (v : Dbl) (q : Nat) : splitOf (setLimit p quay v) q = splitOf p q := by
  unfold setLimit
  split
  · rfl
  · rfl

/-- R132: whether the limits would leave some slice with less than its cache. -/
theorem limitsExceed_iff (s : State) (part quay : Nat) (v : Dbl) : ((List.range 16).any fun j => decide (14 < limitSum s part quay v j)) = true ↔
    ∃ j < 16, 14 < limitSum s part quay v j := by
  simp only [List.any_eq_true, List.mem_range, decide_eq_true_eq]

theorem exec_l2LimitWrite_eq : exec (.l2LimitWrite part quay v) s = execL2LimitWrite part quay v s := rfl

theorem exec_l2LimitWrite_refused (hsum : ∃ j < 16, 14 < limitSum s part quay v j) :
    exec (.l2LimitWrite part quay v) s = .next (pmRefuse s) := by
  have hany := (limitsExceed_iff s part quay v).2 hsum
  unfold limitSum at hany
  rw [exec_l2LimitWrite_eq, execL2LimitWrite]
  refine runEvent_ok ?_
  simp only [act_bind, act_get, hany, if_true, act_set]
  rfl

/-- R132: limits that the splits do not exceed. -/
theorem exec_l2LimitWrite (hsum : ∀ j < 16, limitSum s part quay v j ≤ 14)
    (hsplit : ∀ j < 16, nibble (splitOf (partOf s part) quay) j ≤ nibble v j) :
    exec (.l2LimitWrite part quay v) s = .next (setPart s part (setLimit (partOf s part) quay v)) := by
  have hany := mt (limitsExceed_iff s part quay v).1 fun ⟨j, hj, hlt⟩ => Nat.not_lt.2 (hsum j hj) hlt
  unfold limitSum at hany
  have hlow := lowered_eq_self (v := v) fun i hi => hsplit i (List.mem_range.1 hi)
  rw [exec_l2LimitWrite_eq, execL2LimitWrite]
  refine runEvent_ok ?_
  simp only [act_bind, act_get, if_neg hany, partOf_setPart_same, splitOf_setLimit, hlow, if_true, act_set]

theorem exec_l2SplitWrite_refused (hbeyond : ∃ j < 16, nibble (limitOf (partOf s part) quay) j < nibble v j) :
    exec (.l2SplitWrite part quay v) s = .next (pfRefuse s part) := by
  have hany : ((List.range 16).any fun j => nibble (limitOf (partOf s part) quay) j < nibble v j) = true := by
    simpa only [List.any_eq_true, List.mem_range, decide_eq_true_eq] using hbeyond
  refine runEvent_ok ?_
  simp only [act_bind, act_get, if_pos hany, act_set]

/-- R133: splits within the limits, once the slices on which they grow are ready to give units up. -/
theorem exec_l2SplitWrite (hwithin : ¬ ∃ j < 16, nibble (limitOf (partOf s part) quay) j < nibble v j)
    (hready : ∀ n ∈ grownSlices (partOf s part) quay v, sliceReady s n = true) :
    exec (.l2SplitWrite part quay v) s = .next (changeSplit s part quay v) := by
  have hany : ¬ ((List.range 16).any fun j => nibble (limitOf (partOf s part) quay) j < nibble v j) = true := by
    simpa only [List.any_eq_true, List.mem_range, decide_eq_true_eq] using hwithin
  refine runEvent_ok ?_
  simp only [act_bind, act_get, if_neg hany, List.all_eq_true.2 hready, act_need_true, act_set]

/-! ### Bandwidth, interrupts and resets -/

/-- R136: a period that is over is followed by the next. -/
theorem exec_bandwidthPeriodStart (hover : s.glob.periodAt + 1024 ≤ s.clk) :
    exec .bandwidthPeriodStart s = .next { s with
      parts := s.parts.map (fun e => (e.1, newCredits e.2))
      glob := { s.glob with periodAt := s.clk / 1024 * 1024 } } := by
  refine runEvent_ok ?_
  simp only [act_bind, act_get, decide_eq_true hover, act_need_true, act_set]

theorem exec_irqInject : exec (.irqInject v) s = .next { s with glob := { s.glob with
    irqInject := keepBits v 8 8 ||| keepBits v 0 4
    injected := s.glob.injected ++ [injection s.glob.endpoint (fieldOf v 0 4) (fieldOf v 8 8)] } } :=
  rfl

theorem exec_partitionReset :
    exec (.partitionReset part) s = .next (setPart s part { partOf s part with trGen := (partOf s part).trGen + 1 }) :=
  rfl

end Share

/-! ### Lines that leave a cache -/

section Lines

variable {s : State} {line : Nat}

/-- R230: a berth's L1 gives a line up once it may be written back to the quay's L2 or, past that, to its home. -/
theorem exec_l1WriteBack_l1 {b : Nat} {l : Line} (hline : tabFind? (berthOf s b).l1 line = some l)
    (hready : l.dirty = 0 ∨ (storeHeld s (line * 64) 64 = false ∧
      (l2Fits s (berthQuay b) line = true ∨ writeBackHeld s (berthQuay b) line = false))) :
    let t := l1WriteBack s b line
    exec (.l1WriteBack (.l1 b) line) s = .next (setBerth t b { berthOf t b with l1 := tabErase (berthOf t b).l1 line }) := by
  have hneed : (l.dirty == 0 || (!storeHeld s (line * 64) 64 && (l2Fits s (berthQuay b) line || !writeBackHeld s (berthQuay b) line))) = true := by
    simpa only [Bool.or_eq_true, Bool.and_eq_true, beq_iff_eq, Bool.not_eq_true'] using hready
  refine runEvent_ok ?_
  simp only [act_bind, act_get, hline, act_needSome_some, hneed, act_need_true, act_set]

/-- R230: a quay's L2 gives a line up once it may be written back to its home. -/
theorem exec_l1WriteBack_l2 {q : Nat} {l : Line} (hline : tabFind? (quayOf s q).l2 line = some l)
    (hready : l.dirty = 0 ∨ (storeHeld s (line * 64) 64 = false ∧ writeBackHeld s q line = false)) :
    let t := l2WriteBack s q line
    exec (.l1WriteBack (.l2 q) line) s = .next (setQuay t q { quayOf t q with l2 := tabErase (quayOf t q).l2 line }) := by
  have hneed : (l.dirty == 0 || (!storeHeld s (line * 64) 64 && !writeBackHeld s q line)) = true := by
    simpa only [Bool.or_eq_true, Bool.and_eq_true, beq_iff_eq, Bool.not_eq_true'] using hready
  refine runEvent_ok ?_
  simp only [act_bind, act_get, hline, act_needSome_some, hneed, act_need_true, act_set]

/-- R230: an instruction cache holds no dirty line. -/
theorem exec_l1WriteBack_icache {k : Nat} {l : BitVec 512} (hline : tabFind? (coreOf s k).icache line = some l) :
    exec (.l1WriteBack (.icache k) line) s = .next (setCore s k { coreOf s k with icache := tabErase (coreOf s k).icache line }) := by
  refine runEvent_ok ?_
  simp only [act_bind, act_get, hline, act_needSome_some, act_modCore]

end Lines

/-- Settles O51: each register write and each line's way out by its own equation. -/
theorem pagingAnswers : Obligations.PagingAnswers := by
  unfold Obligations.PagingAnswers
  intro s part v p i bad refused stale
  refine ⟨exec_pfRespWrite_malformed, exec_pfRespWrite_noEntry, fun _ => exec_pfRespWrite_oldGeneration,
    fun _ => exec_pfRespWrite_accepted, ?replay, ?commands, ?complete, exec_trRootWrite, fun quay => ⟨exec_l2SplitWrite_refused,
      exec_l2SplitWrite, exec_l2LimitWrite_refused, ?limits⟩, exec_irqInject, exec_partitionReset, exec_bandwidthPeriodStart,
    fun _ _ _ => exec_l1WriteBack_l1, fun _ _ _ => exec_l1WriteBack_l2, fun _ _ _ => exec_l1WriteBack_icache⟩
  case replay =>
    rw [exec_trCmdReplayAll, replayAll_setPart]
    rfl
  case commands =>
    intro lo n started
    refine ⟨exec_trCmdInvalidateAll.trans next_cmdWritten_invalidateAll, ?range, fun hscan => ?harvest⟩
    case range => exact exec_trCmdInvalidateRange.trans (next_cmdWritten_ranged (Nat.le_refl 3) id)
    case harvest => exact (exec_trCmdHarvest hscan).trans (next_cmdWritten_ranged (Nat.le_succ 3) _)
  case complete =>
    intro t done hbusy hdrained hcaches
    exact ⟨exec_trCmdComplete hbusy hdrained hcaches,
      fun h u hsome hplace => exec_trCmdComplete_harvest hbusy hdrained hcaches hsome hplace⟩
  case limits =>
    intro hsum hsplit
    rw [partOf_setPart_same, splitOf_setLimit] at hsplit
    exact exec_l2LimitWrite hsum hsplit

end Sys2Proof.Machine
end

section
/-!
The statement on E8M0 scale bytes (R149).
-/
namespace Sys2Proof.Machine

open Sys2Proof

/-- R149: the one code without a value. -/
@[simp] theorem decodeE8M0_nan : decodeE8M0 0xFF = .nan := rfl

/-- R149: every smaller code is its power of two, positive and exact. -/
theorem decodeE8M0_of_lt {x : Nat} (hx : x < 0xFF) : decodeE8M0 x = .fin false 1 ((x : Int) - 127) false := by
  have hbyte : x % 256 = x := Nat.mod_eq_of_lt (Nat.lt_succ_of_lt hx)
  rw [decodeE8M0, hbyte, if_neg (Nat.ne_of_lt hx)]

/-- Settles O34: the NaN code and the codes below it. -/
theorem scaleBytes : Obligations.ScaleBytes := by
  unfold Obligations.ScaleBytes
  intro x _
  refine ⟨?nan, decodeE8M0_of_lt⟩
  case nan =>
    rintro rfl
    exact decodeE8M0_nan

end Sys2Proof.Machine
end

section
/-!
The scalar integer instructions (R160, R161, R163, R165): how an instruction of each operand form completes once its value is computed, and the
values of the rows that the model computes in another way than the statement.
-/
namespace Sys2Proof.Machine

open Sys2Proof

/-! ### How an instruction of each form completes -/

section Forms
variable {s t : State} {b a d : BitVec 5} {eb ea : BitVec 1} {word : BitVec 32} {v : Dbl} {i : Instr}

/-- R64: a destination that is no link port is no reason to refuse an instruction. -/
theorem portRule_plain {r : BitVec 5} (h : r.toNat < 28) : portRule r = none := by simp [portRule, isPort_false h]

/-- R60: an instruction on two sources completes with what they compute, in the state that computing it leaves. -/
theorem exec_formR {g : Dbl → Dbl → Act Dbl} (h : exec i = runInstr (fwdRule 0 [a, b]) word 4 (formR 0 eb ea b a d g))
    (ha : readableX s a) (hb : readableX s b) (hd : writableX t d) (hg : g (regX s a) (regX s b) s = .ok (v, t)) :
    exec i s = .next (after (withX t d v) 4) := by
  rw [h]
  refine runInstr_seq (fwdRule_zero _) ?_
  simp only [formR, act_bind, scalarLink_plain ha.1, scalarLink_plain hb.1, scalarLink_plain hd.1, readX_plain ha, readX_plain hb, hg,
    writeX_plain hd, act_pure]

/-- R60, R160: the same where the destination is the third source. -/
theorem exec_formRD {g : Dbl → Dbl → Dbl → Act Dbl}
    (h : exec i = runInstr ((fwdRule 0 [a, b]).or (portRule d)) word 4 (formRD 0 eb ea b a d g))
    (ha : readableX s a) (hb : readableX s b) (hs : readableX s d) (hd : writableX t d)
    (hg : g (regX s a) (regX s b) (regX s d) s = .ok (v, t)) : exec i s = .next (after (withX t d v) 4) := by
  rw [h]
  refine runInstr_seq (by rw [fwdRule_zero, portRule_plain hd.1]; rfl) ?_
  simp only [formRD, act_bind, scalarLink_plain ha.1, scalarLink_plain hb.1, readX_plain ha, readX_plain hb, readX_plain hs, hg,
    writeX_plain hd, act_pure]

/-- R60: the same for one source. -/
theorem exec_formU {g : Dbl → Act Dbl} (h : exec i = runInstr (fwdRule 0 [a]) word 4 (formU 0 ea a d g))
    (ha : readableX s a) (hd : writableX t d) (hg : g (regX s a) s = .ok (v, t)) : exec i s = .next (after (withX t d v) 4) := by
  rw [h]
  refine runInstr_seq (fwdRule_zero _) ?_
  simp only [formU, act_bind, scalarLink_plain ha.1, scalarLink_plain hd.1, readX_plain ha, hg, writeX_plain hd, act_pure]

/-- R163: `lui` has no source. -/
theorem exec_lui (hd : writableX s d) (k : BitVec 20) : exec (.lui k d) s = .next (after (withX s d ((k ++ 0#12).signExtend 64)) 4) := by
  refine runInstr_seq (word := encLui k d) rfl ?_
  simp only [act_bind, scalarLink_plain hd.1, writeX_plain hd, act_pure]

end Forms

/-! ### Comparisons -/

theorem boolDbl_slt (x y : Dbl) : boolDbl (x.slt y) = if x.toInt < y.toInt then 1 else 0 := by simp [boolDbl, BitVec.slt_iff_toInt_lt]

theorem boolDbl_ult (x y : Dbl) : boolDbl (x.ult y) = if x.toNat < y.toNat then 1 else 0 := by simp [boolDbl, BitVec.ult_iff_toNat_lt]

theorem pick_slt (x y u v : Dbl) : (if x.slt y then u else v) = if x.toInt < y.toInt then u else v := by simp [BitVec.slt_iff_toInt_lt]

theorem pick_ult (x y u v : Dbl) : (if x.ult y then u else v) = if x.toNat < y.toNat then u else v := by simp [BitVec.ult_iff_toNat_lt]

/-- R160: the low 32 bits of a left shift are the left shift of the low 32 bits. -/
theorem sextW_shiftLeft (x : Dbl) (n : Nat) : sextW (x <<< n) = ((x.extractLsb' 0 32) <<< n).signExtend 64 := by
  have hle : 32 ≤ 64 := by decide
  rw [sextW, ← BitVec.setWidth_eq_extractLsb' hle, ← BitVec.setWidth_eq_extractLsb' hle, BitVec.setWidth_shiftLeft_of_le hle]

/-! ### Instructions on two sources -/

/-- R160, R165: an instruction is form R with a value of its two sources alone. -/
def Computes (g : Dbl → Dbl → Dbl) (f eb ea : BitVec 1) (b a d : BitVec 5) (i : Instr) : Prop :=
  ∃ word, exec i = runInstr (fwdRule f [a, b]) word 4 (formR f eb ea b a d fun x y => pure (g x y))

theorem Computes.exec {g : Dbl → Dbl → Dbl} {eb ea : BitVec 1} {b a d : BitVec 5} {i : Instr} {s : State} (h : Computes g 0 eb ea b a d i)
    (ha : readableX s a) (hb : readableX s b) (hd : writableX s d) :
    exec i s = .next (after (withX s d (g (regX s a) (regX s b))) 4) := by
  obtain ⟨word, h⟩ := h
  exact exec_formR h ha hb hd rfl

theorem Computes.congr {g r : Dbl → Dbl → Dbl} {f eb ea : BitVec 1} {b a d : BitVec 5} {i : Instr} (h : Computes g f eb ea b a d i)
    (hg : ∀ x y, g x y = r x y) : Computes r f eb ea b a d i := by
  obtain rfl : g = r := funext fun x => funext (hg x)
  exact h

/-- R160, R165: each instruction on two scalar sources computes what its row gives. -/
theorem computes_pairForms (f eb ea : BitVec 1) (b a d : BitVec 5) : ∀ e ∈ pairForms, Computes e.2 f eb ea b a d (e.1 f eb ea b a d) := by
  simp only [pairForms, List.forall_mem_cons]
  refine ⟨⟨_, rfl⟩, ⟨_, rfl⟩, ⟨_, rfl⟩, ⟨_, rfl⟩, ⟨_, rfl⟩, ⟨_, rfl⟩, ⟨_, rfl⟩, ⟨_, rfl⟩, ⟨_, rfl⟩, ?slt, ?sltu, ?min, ?max, ?minu, ?maxu,
    ⟨_, rfl⟩, ⟨_, rfl⟩, ⟨_, rfl⟩, ?sllw, ⟨_, rfl⟩, ⟨_, rfl⟩, ⟨_, rfl⟩, ⟨_, rfl⟩, ⟨_, rfl⟩, ⟨_, rfl⟩, ⟨_, rfl⟩, ⟨_, rfl⟩, ⟨_, rfl⟩,
    List.forall_mem_nil _⟩
  case slt => exact Computes.congr ⟨_, rfl⟩ boolDbl_slt
  case sltu => exact Computes.congr ⟨_, rfl⟩ boolDbl_ult
  case min => exact Computes.congr ⟨_, rfl⟩ fun x y => pick_slt y x y x
  case max => exact Computes.congr ⟨_, rfl⟩ fun x y => pick_slt x y y x
  case minu => exact Computes.congr ⟨_, rfl⟩ fun x y => pick_ult y x y x
  case maxu => exact Computes.congr ⟨_, rfl⟩ fun x y => pick_ult x y y x
  case sllw => exact Computes.congr ⟨_, rfl⟩ fun x y => sextW_shiftLeft x (y.toNat % 32)

/-! ### Counting bits -/

theorem lt_two_pow_bitLength (v : Nat) : v < 2 ^ bitLength v := by
  unfold bitLength
  split
  next h => simp [h]
  next => exact Nat.lt_log2_self

theorem two_pow_le_of_bitLength {n v : Nat} (h : n < bitLength v) : 2 ^ n ≤ v := by
  unfold bitLength at h
  split at h
  next => exact absurd h (Nat.not_lt_zero n)
  next hv => exact Nat.le_trans (Nat.pow_le_pow_right Nat.two_pos (Nat.le_of_lt_succ h)) (Nat.log2_self_le hv)

theorem bitLength_le {n v : Nat} (h : v < 2 ^ n) : bitLength v ≤ n :=
  Nat.not_lt.1 fun hn => Nat.not_le_of_lt h (two_pow_le_of_bitLength hn)

theorem trailingZeros_le (n v : Nat) : trailingZeros n v ≤ n := by
  induction n generalizing v with
  | zero => exact Nat.le_refl 0
  | succ n ih =>
    unfold trailingZeros
    split
    · exact Nat.zero_le _
    · have := ih (v / 2)
      omega

/-- The bits below the count are 0. -/
theorem testBit_of_lt_trailingZeros {n v i : Nat} (h : i < trailingZeros n v) : v.testBit i = false := by
  induction n generalizing v i with
  | zero => exact absurd h (Nat.not_lt_zero i)
  | succ n ih =>
    unfold trailingZeros at h
    split at h
    next => exact absurd h (Nat.not_lt_zero i)
    next hv =>
      cases i with
      | zero => simpa using hv
      | succ i =>
        rw [Nat.testBit_succ]
        exact ih (by omega)

/-- The bit at the count is 1, where there is one. -/
theorem testBit_trailingZeros {n v : Nat} (h : trailingZeros n v < n) : v.testBit (trailingZeros n v) = true := by
  induction n generalizing v with
  | zero => exact absurd h (Nat.not_lt_zero _)
  | succ n ih =>
    unfold trailingZeros at h ⊢
    split
    next hv => simpa using hv
    next hv =>
      rw [if_neg hv] at h
      rw [Nat.add_comm, Nat.testBit_succ]
      exact ih (by omega)

theorem popCount_eq_countP (n v : Nat) : popCount n v = (List.range n).countP v.testBit := by
  induction n generalizing v with
  | zero => rfl
  | succ n ih =>
    have hbit : v % 2 = if v.testBit 0 then 1 else 0 := by
      rw [Nat.testBit_zero]
      rcases Nat.mod_two_eq_zero_or_one v with h | h <;> simp [h]
    rw [popCount, ih, List.range_succ_eq_map, List.countP_cons, List.countP_map, hbit, Nat.add_comm]
    simp only [Function.comp_def, Nat.testBit_succ]

/-! ### The other instructions -/

section One
variable {s : State} {a d : BitVec 5} {ea : BitVec 1}

/-- R160: `clz` gives how far the highest 1 is from the top. -/
theorem exec_clz (ha : readableX s a) (hd : writableX s d) :
    ∃ n ≤ 64, exec (.clz 0 ea a d) s = .next (after (withX s d (BitVec.ofNat 64 n)) 4) ∧
      (regX s a).toNat < 2 ^ (64 - n) ∧ (n < 64 → 2 ^ (63 - n) ≤ (regX s a).toNat) := by
  have hle : bitLength (regX s a).toNat ≤ 64 := bitLength_le (regX s a).isLt
  refine ⟨64 - bitLength (regX s a).toNat, Nat.sub_le _ _, exec_formU (word := encClz 0 ea a d) rfl ha hd rfl, ?_, fun h => ?_⟩
  · rw [Nat.sub_sub_self hle]
    exact lt_two_pow_bitLength _
  · exact two_pow_le_of_bitLength (by omega)

/-- R160: `ctz` gives the place of the lowest 1. -/
theorem exec_ctz (ha : readableX s a) (hd : writableX s d) :
    ∃ n ≤ 64, exec (.ctz 0 ea a d) s = .next (after (withX s d (BitVec.ofNat 64 n)) 4) ∧
      (∀ i < n, (regX s a).getLsbD i = false) ∧ (n < 64 → (regX s a).getLsbD n = true) :=
  ⟨trailingZeros 64 (regX s a).toNat, trailingZeros_le _ _, exec_formU (word := encCtz 0 ea a d) rfl ha hd rfl,
    fun _ => testBit_of_lt_trailingZeros, testBit_trailingZeros⟩

/-- R160: `pop` counts the 1 bits. -/
theorem exec_pop (ha : readableX s a) (hd : writableX s d) : exec (.pop 0 ea a d) s =
    .next (after (withX s d (BitVec.ofNat 64 ((List.range 64).countP fun i => (regX s a).getLsbD i))) 4) := by
  have h : exec (.pop 0 ea a d) s = .next (after (withX s d (BitVec.ofNat 64 (popCount 64 (regX s a).toNat))) 4) :=
    exec_formU (word := encPop 0 ea a d) rfl ha hd rfl
  rw [h, popCount_eq_countP]
  rfl

end One

/-- Settles O1: the rows on two sources are one form, every other instruction its own equation. -/
theorem scalarArithmetic : Obligations.ScalarArithmetic := by
  unfold Obligations.ScalarArithmetic
  refine ⟨fun s eb ea b a d ha hb hd e he => (computes_pairForms 0 eb ea b a d e he).exec ha hb hd,
    fun s eb ea b a d ha hd => ⟨exec_clz ha hd, exec_ctz ha hd, exec_pop ha hd, exec_lui hd, fun hb hs => ?bins⟩⟩
  case bins => exact exec_formRD (word := encBins 0 eb ea b a d) rfl ha hb hs hd rfl

end Sys2Proof.Machine
end

section
/-!
The scalar floating-point instructions (R166 to R168): those that round once, by the operand form that carries the rounding, and those that do not,
by the value of their two sources.
-/
namespace Sys2Proof.Machine

open Sys2Proof

/-! ### Rounding -/

theorem xs_flagged_seeded (s : State) (f : BitVec 5) : (me (flagged (seeded s) f)).xs = (me s).xs := by
  rw [flagged, me_withMe]
  unfold seeded
  split
  · rw [me_withMe]
  · rfl

/-- R166, R167: one rounding takes the seed, then adds the flags of its result. -/
theorem roundedF_eq (g : Rounding → Nat × BitVec 5) (s : State) :
    let r := g (roundingOf ((me s).rmode.toNat, (me s).seed.toNat) 0)
    roundedF g s = .ok (r.1, flagged (seeded s) r.2) := by
  simp only [roundedF, act_bind, takeRound_seeded]
  rfl

/-- R166: the value of a rounding instruction from the code of its result. -/
theorem rounded_eq (g : Rounding → Nat × BitVec 5) (res : Nat → Dbl) (s : State) :
    let r := g (roundingOf ((me s).rmode.toNat, (me s).seed.toNat) 0)
    (do pure (res (← roundedF g)) : Act Dbl) s = .ok (res r.1, flagged (seeded s) r.2) :=
  act_bind_ok (roundedF_eq g s)

section Rounds
variable {s : State} {b a d : BitVec 5} {eb ea : BitVec 1} {word : BitVec 32} {i : Instr} {res : Nat → Dbl}

/-- R166, R167: an instruction that rounds a value of two sources once. -/
theorem exec_roundsR {g : Dbl → Dbl → Rounding → Nat × BitVec 5}
    (h : exec i = runInstr (fwdRule 0 [a, b]) word 4 (formR 0 eb ea b a d fun x y => do pure (res (← roundedF (g x y)))))
    (ha : readableX s a) (hb : readableX s b) (hd : writableX s d) :
    let r := g (regX s a) (regX s b) (roundingOf ((me s).rmode.toNat, (me s).seed.toNat) 0)
    exec i s = .next (after (withX (flagged (seeded s) r.2) d (res r.1)) 4) :=
  exec_formR h ha hb (writableX_of_me (xs_flagged_seeded s _) hd) (rounded_eq _ _ s)

/-- R166, R167: the same for xd as the third source. -/
theorem exec_roundsRD {g : Dbl → Dbl → Dbl → Rounding → Nat × BitVec 5}
    (h : exec i = runInstr ((fwdRule 0 [a, b]).or (portRule d)) word 4
      (formRD 0 eb ea b a d fun x y z => do pure (res (← roundedF (g x y z)))))
    (ha : readableX s a) (hb : readableX s b) (hs : readableX s d) :
    let r := g (regX s a) (regX s b) (regX s d) (roundingOf ((me s).rmode.toNat, (me s).seed.toNat) 0)
    exec i s = .next (after (withX (flagged (seeded s) r.2) d (res r.1)) 4) :=
  exec_formRD h ha hb hs (writableX_of_me (xs_flagged_seeded s _) hs.writable) (rounded_eq _ _ s)

/-- R166, R167: the same for one source. -/
theorem exec_roundsU {g : Dbl → Rounding → Nat × BitVec 5}
    (h : exec i = runInstr (fwdRule 0 [a]) word 4 (formU 0 ea a d fun x => do pure (res (← roundedF (g x)))))
    (ha : readableX s a) (hd : writableX s d) :
    let r := g (regX s a) (roundingOf ((me s).rmode.toNat, (me s).seed.toNat) 0)
    exec i s = .next (after (withX (flagged (seeded s) r.2) d (res r.1)) 4) :=
  exec_formU h ha (writableX_of_me (xs_flagged_seeded s _) hd) (rounded_eq _ _ s)

end Rounds

/-! ### Instructions that do not round -/

theorem boolDbl_or (p q : Bool) : boolDbl (p || q) = if p ∨ q then 1 else 0 := by simp [boolDbl]

/-- R168: a sign injection by the bit that its row adds for the sign. -/
theorem signInject_eq {x : Dbl} {sign : Bool} {n : Nat} (h : n = if sign then 2 ^ 31 else 0) :
    signInject x sign = if isNan (f32Of x) then 0x7FC00000 else BitVec.ofNat 64 (x.toNat % 2 ^ 31 + n) := by
  subst h
  cases sign <;> rfl

/-- Settles O35: an instruction that rounds is a form with one rounding, every other one a form with a value of its sources. -/
theorem scalarFloats : Obligations.ScalarFloats := by
  unfold Obligations.ScalarFloats
  refine ⟨fun s eb ea b a d ha hd => ⟨fun hb => ?pairs, fun hb hs => ?fmadd, ?conversions⟩, fun s eb ea b a d ha hb hd => ?plain⟩
  case pairs =>
    simp only [List.forall_mem_cons]
    refine ⟨?fadd, ?fsub, ?fmul, List.forall_mem_nil _⟩
    case fadd => exact exec_roundsR (g := fun x y r => fpAdd fFP32 r (f32Of x) (f32Of y)) (word := encFadd 0 eb ea b a d) rfl ha hb hd
    case fsub =>
      exact exec_roundsR (g := fun x y r => fpAdd fFP32 r (f32Of x) (negNum (f32Of y))) (word := encFsub 0 eb ea b a d) rfl ha hb hd
    case fmul => exact exec_roundsR (g := fun x y r => fpMul fFP32 r (f32Of x) (f32Of y)) (word := encFmul 0 eb ea b a d) rfl ha hb hd
  case fmadd =>
    exact exec_roundsRD (g := fun x y z r => fpFma fFP32 r (f32Of x) (f32Of y) (f32Of z)) (word := encFmadd 0 eb ea b a d) rfl ha hb hs
  case conversions =>
    simp only [List.forall_mem_cons]
    refine ⟨?fcvtLF, ?fcvtLuF, ?fcvtFL, ?fcvtFLu, List.forall_mem_nil _⟩
    case fcvtLF => exact exec_roundsU (g := fun x r => encodeElem 0x07 r (f32Of x)) (word := encFcvtLF 0 ea a d) rfl ha hd
    case fcvtLuF =>
      exact exec_roundsU (word := encFcvtLuF 0 ea a d) rfl ha hd
        (g := fun x r => ((encodeRange 0 (2 ^ 64 - 1) r (f32Of x)).1.toNat, (encodeRange 0 (2 ^ 64 - 1) r (f32Of x)).2))
    case fcvtFL => exact exec_roundsU (g := fun x r => encF32 r (numInt x.toInt)) (word := encFcvtFL 0 ea a d) rfl ha hd
    case fcvtFLu => exact exec_roundsU (g := fun x r => encF32 r (numInt x.toNat)) (word := encFcvtFLu 0 ea a d) rfl ha hd
  case plain =>
    intro e he
    suffices h : Computes e.2 0 eb ea b a d (e.1 0 eb ea b a d) from h.exec ha hb hd
    revert e
    simp only [List.forall_mem_cons]
    refine ⟨⟨encFmin 0 eb ea b a d, rfl⟩, ⟨encFmax 0 eb ea b a d, rfl⟩, ⟨encFcmpEq 0 eb ea b a d, rfl⟩, ⟨encFcmpLt 0 eb ea b a d, rfl⟩,
      ⟨encFcmpLe 0 eb ea b a d, rfl⟩, ?unordered, ?sign, ?negated, ?xored, List.forall_mem_nil _⟩
    case unordered => exact Computes.congr ⟨encFcmpUn 0 eb ea b a d, rfl⟩ fun _ _ => boolDbl_or _ _
    case sign => exact Computes.congr ⟨encFsgnj 0 eb ea b a d, rfl⟩ fun _ _ => signInject_eq rfl
    case negated => exact Computes.congr ⟨encFsgnjn 0 eb ea b a d, rfl⟩ fun _ y => signInject_eq (by cases y.getLsbD 31 <;> rfl)
    case xored => exact Computes.congr ⟨encFsgnjx 0 eb ea b a d, rfl⟩ fun _ _ => signInject_eq (by simp)

end Sys2Proof.Machine
end

section
/-!
Counted loops (R172).
-/
namespace Sys2Proof.Machine

open Sys2Proof

/-! ### The counts -/

/-- R172: a count that is not yet zero is taken down by one. -/
theorem sub_one_eq_ofNat {n : Nat} {c : BitVec n} (h : c ≠ 0) : c - 1 = BitVec.ofNat n (c.toNat - 1) := by
  have hpos : 1 ≤ c.toNat := Nat.pos_of_ne_zero fun h0 => h ((toNat_eq_zero_iff c).1 h0)
  have hone : 1 < 2 ^ n := Nat.lt_of_le_of_lt hpos c.isLt
  rw [← BitVec.ofNat_sub_ofNat_of_le _ _ hone hpos, BitVec.ofNat_toNat, BitVec.setWidth_eq]
  rfl

/-- R172: `krrb` goes down by one modulo 32. -/
theorem krrb_down (c : BitVec 5) : c - 1 = BitVec.ofNat 5 ((c.toNat + 31) % 32) := by
  revert c
  decide

section Loop
variable {s : State}

/-- R172: `lcset` sets both counts and clears the drain bit. -/
theorem exec_lcset {a : BitVec 5} (ha : readableX s a) (c : BitVec 8) : exec (.lcset c a) s =
    .next (after (withMe s { me s with klc := (regX s a).extractLsb' 0 32, kec := c, drain := false }) 4) := by
  refine runInstr_seq (word := encLcset c a) rfl ?_
  simp only [act_bind, scalarLink_plain ha.1, readX_plain ha, act_modHere, act_pure]

/-- R172: with nothing left `loop` falls through. -/
theorem exec_loop_done (hk : (me s).klc = 0) (he : (me s).kec = 0) (k : BitVec 12) :
    exec (.loop k) s = .next (after (withMe s { me s with drain := false }) 4) := by
  refine runInstr_seq (word := encLoop k) rfl ?_
  simp only [act_bind, act_here, hk, he, and_self, if_true, act_putHere, act_pure]

/-- R172: while passes of the kernel are left, `loop` takes one of them. -/
theorem exec_loop_kernel (hk : (me s).klc ≠ 0) (k : BitVec 12) :
    exec (.loop k) s = .next (afterJump (withMe s { me s with klc := (me s).klc - 1, drain := false, krrb := (me s).krrb - 1 })
      ((me s).pc + 2 * k.signExtend 64)) := by
  have hleft : ¬ ((me s).klc = 0 ∧ (me s).kec = 0) := fun h => hk h.1
  refine runInstr_jump (word := encLoop k) rfl ?_
  simp only [act_bind, act_here, if_neg hleft, if_pos hk, act_putHere, decide_eq_true hk, Bool.not_true, act_pure]

/-- R172: once the kernel count is zero, `loop` takes one pass of the drain. -/
theorem exec_loop_drain (hk : (me s).klc = 0) (he : (me s).kec ≠ 0) (k : BitVec 12) :
    exec (.loop k) s = .next (afterJump (withMe s { me s with kec := (me s).kec - 1, drain := true, krrb := (me s).krrb - 1 })
      ((me s).pc + 2 * k.signExtend 64)) := by
  have hleft : ¬ ((me s).klc = 0 ∧ (me s).kec = 0) := fun h => he h.2
  have hdrain : ¬ (me s).klc ≠ 0 := fun h => h hk
  refine runInstr_jump (word := encLoop k) rfl ?_
  simp only [act_bind, act_here, if_neg hleft, if_neg hdrain, act_putHere, decide_eq_false hdrain, Bool.not_false, act_pure]

end Loop

/-- Settles O6: `lcset` is one equation, `loop` one for each of the kernel, the drain and the end. -/
theorem countedLoops : Obligations.CountedLoops := by
  unfold Obligations.CountedLoops
  refine fun s => ⟨fun c a ha => exec_lcset ha c, fun k => ?_⟩
  by_cases hk : (me s).klc = 0
  · have hk0 : (me s).klc.toNat = 0 := (toNat_eq_zero_iff _).2 hk
    have hklc : BitVec.ofNat 32 0 = (me s).klc := hk.symm
    by_cases he : (me s).kec = 0
    · rw [if_pos (by rw [hk0, (toNat_eq_zero_iff _).2 he])]
      exact exec_loop_done hk he k
    · have he0 : (me s).kec.toNat ≠ 0 := mt (toNat_eq_zero_iff _).1 he
      rw [if_neg (by omega), exec_loop_drain hk he, sub_one_eq_ofNat he, krrb_down]
      simp only [hk0, Nat.zero_min, Nat.sub_zero, hklc, decide_true]
  · have hk0 : (me s).klc.toNat ≠ 0 := mt (toNat_eq_zero_iff _).1 hk
    have htake : min (me s).klc.toNat 1 = 1 := by omega
    rw [if_neg (by omega), exec_loop_kernel hk, sub_one_eq_ofNat hk, krrb_down]
    simp only [htake, Nat.sub_self, Nat.sub_zero, BitVec.ofNat_toNat, BitVec.setWidth_eq, Nat.one_ne_zero, decide_false]

end Sys2Proof.Machine
end

section
/-!
Following (R173).
-/
namespace Sys2Proof.Machine

open Sys2Proof

/-! ### After the instruction -/

theorem me_after (s : State) (len : Nat) : me (after s len) = { me s with pc := (me s).pc + BitVec.ofNat 64 len, watchSkip := none } :=
  me_withMe s _

theorem ctxOf_after_other {s : State} {k c : Nat} (hk : s.cur.core ≠ k) (len : Nat) : ctxOf (after s len) k c = ctxOf s k c :=
  (ctxOf_setCtx s _ _ k c _).trans (if_neg fun h => hk h.1)

/-! ### Attaching -/

/-- R173: what the executing context needs to attach to its leader's window: an open one, the leader's group, and the same `pcc` base and
address. -/
def attachable (s : State) : Prop :=
  let l := s.cur.core / 4 * 4
  let y := ctxOf s l s.cur.ctx
  windowOpen s y = true ∧ (groupOf s s.cur.core).isSome ∧ groupOf s s.cur.core = groupOf s l ∧ capBase y.pcc = capBase (me s).pcc ∧
    y.pc = (me s).pc

theorem windowOpen_iff {s : State} {y : Ctx} {from_ : Nat} (h : y.window = some from_) : windowOpen s y = true ↔ s.clk < from_ + 64 := by
  simp [windowOpen, h]

theorem windowOpen_none {s : State} {y : Ctx} (h : y.window = none) : windowOpen s y = false := by
  simp [windowOpen, h]

/-- R173: the state in which the executing context follows its leader, which leads; the window closes with the last follower. -/
def attached (s : State) : State :=
  let l := s.cur.core / 4 * 4
  let c := s.cur.ctx
  let y := ctxOf s l c
  let t := withMe s { me s with follows := some l }
  let all := (followersOf t l).all fun j => (ctxOf t j c).follows == some l
  setCtx t l c { ctxOf t l c with
    leading := true
    window := if all then none else y.window
    pc := if all then y.pc + 4 else y.pc }

theorem me_attached {s : State} (hk : s.cur.core ≠ s.cur.core / 4 * 4) :
    me (attached s) = { me s with follows := some (s.cur.core / 4 * 4) } := by
  simp [attached, me, ctxOf_setCtx, hk.symm]

theorem leading_attached (s : State) : (ctxOf (attached s) (s.cur.core / 4 * 4) s.cur.ctx).leading = true := by
  simp [attached]

/-! ### The cases of `follow` -/

section Follow
variable {s : State}

/-- R173: a context that follows or leads already does nothing. -/
theorem exec_follow_related (h : (me s).follows.isSome = true ∨ (me s).leading = true) : exec .follow s = .next (after s 4) := by
  refine runInstr_seq (word := encFollow) rfl ?_
  simp only [followNow, act_bind, act_get, act_here, h, if_true, act_pure]

variable (hf : (me s).follows = none) (hl : (me s).leading = false)
include hf hl

theorem not_followsOrLeads : ¬ ((me s).follows.isSome = true ∨ (me s).leading = true) := by simp [hf, hl]

/-- R173: a leader with nobody to lead does nothing. -/
theorem exec_follow_alone (hk : s.cur.core = s.cur.core / 4 * 4)
    (h : groupOf s s.cur.core = none ∨ followersOf s s.cur.core = []) : exec .follow s = .next (after s 4) := by
  have halone : (groupOf s s.cur.core).isNone = true ∨ (followersOf s s.cur.core).isEmpty = true := by simpa using h
  refine runInstr_seq (word := encFollow) rfl ?_
  simp only [followNow, act_bind, act_get, act_here, if_neg (not_followsOrLeads hf hl), if_pos hk, if_pos halone, act_pure]

/-- R173: a leader with other cores of its group in its berth opens a window. -/
theorem exec_follow_opens (hk : s.cur.core = s.cur.core / 4 * 4) (hg : groupOf s s.cur.core ≠ none)
    (h : followersOf s s.cur.core ≠ []) : exec .follow s = .next (afterStay (withMe s { me s with window := some s.clk })) := by
  have hled : ¬ ((groupOf s s.cur.core).isNone = true ∨ (followersOf s s.cur.core).isEmpty = true) := by simp [hg, h]
  refine runInstr_stay (word := encFollow) rfl ?_
  simp only [followNow, act_bind, act_get, act_here, if_neg (not_followsOrLeads hf hl), if_pos hk, if_neg hled, act_putHere, act_pure]

/-- R173: another core that cannot attach does nothing. -/
theorem exec_follow_unattachable (hk : s.cur.core ≠ s.cur.core / 4 * 4) (h : ¬ attachable s) : exec .follow s = .next (after s 4) := by
  refine runInstr_seq (word := encFollow) rfl ?_
  unfold attachable at h
  simp only [followNow, act_bind, act_get, act_here, if_neg (not_followsOrLeads hf hl), if_neg hk, if_neg h, act_pure]

/-- R173: another core that can attach does. -/
theorem exec_follow_attaches (hk : s.cur.core ≠ s.cur.core / 4 * 4) (h : attachable s) : exec .follow s = .next (after (attached s) 4) := by
  refine runInstr_seq (word := encFollow) rfl ?_
  unfold attachable at h
  simp only [followNow, act_bind, act_get, act_here, if_neg (not_followsOrLeads hf hl), if_neg hk, if_pos h, act_putHere, act_set, act_pure]
  rfl

end Follow

/-- Settles O7: each case is one equation, and another core than the leader attaches exactly when `attachable` says so. -/
theorem followAttaches : Obligations.FollowAttaches := by
  unfold Obligations.FollowAttaches
  intro s k c l
  refine ⟨exec_follow_related, fun hf hl hg => ?noGroup, fun hf hl => exec_follow_opens hf hl,
    fun hf hl hk _ hn => exec_follow_alone hf hl hk (.inr hn), fun hf hl hk hg => ?otherGroup,
    fun hf hl hk hg hsame => ⟨?missed, ?closed, ?attaches⟩⟩
  case noGroup =>
    by_cases hk : k = l
    · exact exec_follow_alone hf hl hk (.inl hg)
    · refine exec_follow_unattachable hf hl hk fun ⟨_, hsome, _⟩ => ?_
      rw [hg] at hsome
      cases hsome
  case otherGroup => exact exec_follow_unattachable hf hl hk fun ⟨_, _, hsame, _⟩ => hg hsame
  case missed =>
    intro from_ hw hmiss
    refine exec_follow_unattachable hf hl hk fun ⟨hopen, _, _, hbase, hpc⟩ => ?_
    have hclk := (windowOpen_iff hw).1 hopen
    rcases hmiss with h | h | h
    · omega
    · exact h hbase
    · exact h hpc
  case closed =>
    intro hw
    refine exec_follow_unattachable hf hl hk fun ⟨hopen, _⟩ => ?_
    exact Bool.false_ne_true ((windowOpen_none hw).symm.trans hopen)
  case attaches =>
    intro from_ hw hclk hbase hpc
    have hsome : (groupOf s k).isSome = true := Option.isSome_iff_ne_none.2 hg
    refine ⟨after (attached s) 4, exec_follow_attaches hf hl hk ⟨(windowOpen_iff hw).2 hclk, hsome, hsame, hbase, hpc⟩, ?_, ?_, ?_⟩
    · rw [me_after, me_attached hk]
    · rw [ctxOf_after_other (s := attached s) hk]
      exact leading_attached s
    · rw [me_after, me_attached hk]
      rfl

end Sys2Proof.Machine
end

section
/-!
The operand forms of the vector instructions (R177, R178, R183) on registers that are no link ports and are ready: what each does, and how an
instruction of each form completes.
-/
namespace Sys2Proof.Machine

open Sys2Proof

/-! ### Registers -/

theorem readableV.writable {s : State} {r : BitVec 6} (h : readableV s r) : writableV s r := ⟨h.1, by simp [h.2]⟩

/-- R9, R53: what the executing context says of a vector register is the same in two states that agree on its states and its rotation. -/
theorem writableV_of_me {s t : State} {r : BitVec 6} (hvs : (me t).vs = (me s).vs) (hk : (me t).krrb = (me s).krrb) (hr : writableV s r) :
    writableV t r := by
  obtain ⟨hport, hfilled⟩ := hr
  refine ⟨hport, ?_⟩
  rw [hvs]
  unfold physV at hfilled ⊢
  rwa [hk]

/-- R156: an issue under SR changes the seed alone. -/
theorem me_seeded (s : State) : me (seeded s) = { me s with seed := (me (seeded s)).seed } := by
  unfold seeded
  split
  · rw [me_withMe]
  · rfl

theorem writableV_seeded {s : State} {r : BitVec 6} (h : writableV s r) : writableV (seeded s) r :=
  writableV_of_me (by rw [me_seeded]) (by rw [me_seeded]) h

theorem writableV_flagged_seeded {s : State} {r : BitVec 6} (h : writableV s r) (f : BitVec 5) : writableV (flagged (seeded s) f) r :=
  writableV_of_me (by rw [flagged, me_withMe]) (by rw [flagged, me_withMe]) (writableV_seeded h)

/-- R178: a destination that is no link port may be read as a source. -/
theorem vportRule_plain {v : BitVec 6} (h : isVPort v = false) : vportRule v = none := by simp [vportRule, h]

theorem mergeRule_plain {v : BitVec 6} (h : isVPort v = false) (m : BitVec 3) : mergeRule m v = none := by
  simp [mergeRule, vportRule_plain h]

/-! ### Parts of the forms -/

/-- A choice between two ways to a value, of which the taken one is known, goes on with that value. -/
theorem act_ite_bind {α β : Type} {p : Prop} [Decidable p] {x y : Act α} {f : α → Act β} {s t : State} {q : α}
    (h : (if p then x else y) s = .ok (q, t)) : (if p then x >>= f else y >>= f) s = f q t := by
  split at h
  next hp => rw [if_pos hp, act_bind_ok h]
  next hp => rw [if_neg hp, act_bind_ok h]

theorem addFlags_flagged (f : BitVec 5) (s : State) : addFlags f s = .ok ((), flagged s f) := rfl

/-! ### The forms -/

section Forms
variable {s : State} {m : BitVec 3} {b a v : BitVec 6} {legal : Option (BitVec 3)} {word : BitVec 32} {e : Nat} {i : Instr}

/-- R178: an instruction on two vector sources completes with what its row gives of each pair of elements. -/
theorem exec_formV {f : Nat → Nat → Nat → Nat} (h : exec i = runInstr legal word 4 (formV m e b a v f)) (hl : legal = none)
    (hm : readableM s m) (ha : readableV s a) (hb : readableV s b) (hv : writableV s v) (hold : m ≠ 0 → readableV s v) :
    exec i s = .next (after (withV s v (mergeElems (regM s m) e (oldV s m v)
      fun j => f e (elemOf (regV s a).toNat e j) (elemOf (regV s b).toNat e j))) 4) := by
  rw [h]
  refine runInstr_seq hl ?_
  simp only [formV, act_bind, vectorLink_plain ha.1, vectorLink_plain hb.1, vectorLink_plain hv.1, readV_plain ha, readV_plain hb,
    readOld_plain hold, readM_plain hm, writeV_plain hv, act_pure]

/-- R178: the same for one vector source. -/
theorem exec_formV1 {f : Nat → Nat → Nat} (h : exec i = runInstr legal word 4 (formV1 m e a v f)) (hl : legal = none)
    (hm : readableM s m) (ha : readableV s a) (hv : writableV s v) (hold : m ≠ 0 → readableV s v) :
    exec i s = .next (after (withV s v (mergeElems (regM s m) e (oldV s m v) fun j => f e (elemOf (regV s a).toNat e j))) 4) := by
  rw [h]
  refine runInstr_seq hl ?_
  simp only [formV1, act_bind, vectorLink_plain ha.1, vectorLink_plain hv.1, readV_plain ha, readOld_plain hold, readM_plain hm,
    writeV_plain hv, act_pure]

/-- R182, R183: a rounding instruction takes the seed, then adds the flags of the active elements, then writes them. -/
theorem exec_formVF {fmt : Nat} {acc : Bool} {f : Nat → Rounding → Nat → Nat → Nat → Nat × BitVec 5} {old : Quad}
    (h : exec i = runInstr legal word 4 (formVF m fmt b a v acc f)) (hl : legal = none) (he : (elemBits fmt).getD 32 = e)
    (hm : readableM s m) (ha : readableV s a) (hb : readableV s b) (hv : writableV s v)
    (hold : (if acc then readV v else readOld m v) s = .ok (old, s)) :
    let r := fun j => f fmt (roundingOf ((me s).rmode.toNat, (me s).seed.toNat) j) (elemOf (regV s a).toNat e j) (elemOf (regV s b).toNat e j)
      (elemOf old.toNat e j)
    exec i s = .next (after (withV (flagged (seeded s) (flagsOf (regM s m) e fun j => (r j).2)) v
      (mergeElems (regM s m) e old fun j => (r j).1)) 4) := by
  subst he
  rw [h]
  refine runInstr_seq hl ?_
  simp only [formVF, act_bind, vectorLink_plain ha.1, vectorLink_plain hb.1, vectorLink_plain hv.1, readV_plain ha, readV_plain hb,
    act_ite_bind hold, readM_plain hm, takeRound_seeded, addFlags_flagged, writeV_plain (writableV_flagged_seeded hv _), act_pure]

end Forms

end Sys2Proof.Machine
end

section
/-!
The integer vector instructions (R180, R181): each row is a function of the elements of its sources.
-/
namespace Sys2Proof.Machine

open Sys2Proof

/-- R180, R181: an instruction on two vector sources whose element is a function of theirs. -/
def Lanes (g : Nat → Nat → Nat) (legal : Option (BitVec 3)) (m : BitVec 3) (e : Nat) (b a v : BitVec 6) (i : Instr) : Prop :=
  ∃ word f, exec i = runInstr legal word 4 (formV m e b a v f) ∧ f e = g

theorem Lanes.exec {g : Nat → Nat → Nat} {legal : Option (BitVec 3)} {m : BitVec 3} {e : Nat} {b a v : BitVec 6} {i : Instr} {s : State}
    (h : Lanes g legal m e b a v i) (hl : legal = none) (hm : readableM s m) (ha : readableV s a) (hb : readableV s b) (hv : writableV s v)
    (hold : m ≠ 0 → readableV s v) :
    exec i s = .next (after (withV s v (mergeElems (regM s m) e (oldV s m v)
      fun j => g (elemOf (regV s a).toNat e j) (elemOf (regV s b).toNat e j))) 4) := by
  obtain ⟨word, f, h, rfl⟩ := h
  exact exec_formV h hl hm ha hb hv hold

/-- Settles O37: a masked row merges into vd, a row of m0 has no mask and no old value. -/
theorem vectorIntegersCompute : Obligations.VectorIntegersCompute := by
  unfold Obligations.VectorIntegersCompute
  intro s m b a v w ha hv n
  refine ⟨fun hm hb hold e he => ?masked, fun hb e he => ?unmasked, ?vabs⟩
  case masked =>
    suffices h : Lanes e.2 (mergeRule m v) m n b a v (e.1 m b a v w) from h.exec (mergeRule_plain hv.1 m) hm ha hb hv hold
    revert e
    simp only [List.forall_mem_cons]
    exact ⟨⟨_, _, rfl, rfl⟩, ⟨_, _, rfl, rfl⟩, ⟨_, _, rfl, rfl⟩, ⟨_, _, rfl, rfl⟩, ⟨_, _, rfl, rfl⟩, ⟨_, _, rfl, rfl⟩, ⟨_, _, rfl, rfl⟩,
      ⟨_, _, rfl, rfl⟩, ⟨_, _, rfl, rfl⟩, ⟨_, _, rfl, rfl⟩, ⟨_, _, rfl, rfl⟩, ⟨_, _, rfl, rfl⟩, ⟨_, _, rfl, rfl⟩, ⟨_, _, rfl, rfl⟩,
      ⟨_, _, rfl, rfl⟩, List.forall_mem_nil _⟩
  case unmasked =>
    suffices h : Lanes e.2 none 0 n b a v (e.1 b a v w) from h.exec rfl (.inl rfl) ha hb hv (absurd rfl)
    revert e
    simp only [List.forall_mem_cons]
    exact ⟨⟨encVmulhu b a v w, _, rfl, rfl⟩, ⟨encVavgu b a v w, _, rfl, rfl⟩, ⟨encVand b a v w, _, rfl, rfl⟩,
      ⟨encVor b a v w, _, rfl, rfl⟩, ⟨encVxor b a v w, _, rfl, rfl⟩, ⟨encVandn b a v w, _, rfl, rfl⟩, List.forall_mem_nil _⟩
  case vabs =>
    exact exec_formV1 (m := 0) (f := fun n x => absElem n x) (word := encVabs a v w) (legal := none) rfl rfl
      (.inl rfl) ha hv (absurd rfl)

end Sys2Proof.Machine
end

section
/-!
The floating vector instructions (R182, R183): those that round once per element, and those that only choose or change a sign.
-/
namespace Sys2Proof.Machine

open Sys2Proof

/-- R182: the types of the floating vector instructions are those below 3. -/
def floatRule (w : BitVec 2) (rest : Option (BitVec 3)) : Option (BitVec 3) := (if w = 3 then some 1 else none).or rest

theorem floatRule_plain {w : BitVec 2} (h : w ≠ 3) {rest : Option (BitVec 3)} (hr : rest = none) : floatRule w rest = none := by
  rw [floatRule, if_neg h, hr]
  rfl

/-- R182: an instruction that rounds a function of the numbers of its two vector sources. -/
def RoundsLanes (g : Rounding → FpNum → FpNum → Nat × BitVec 5) (legal : Option (BitVec 3)) (m : BitVec 3) (fmt : Nat) (b a v : BitVec 6)
    (i : Instr) : Prop :=
  ∃ word f, exec i = runInstr legal word 4 (formVF m fmt b a v false f) ∧
    f fmt = fun r x y _ => g r (decodeElem fmt x) (decodeElem fmt y)

theorem RoundsLanes.exec {g : Rounding → FpNum → FpNum → Nat × BitVec 5} {legal : Option (BitVec 3)} {m : BitVec 3} {fmt : Nat}
    {b a v : BitVec 6} {i : Instr} {s : State} (h : RoundsLanes g legal m fmt b a v i) (hl : legal = none) (hm : readableM s m)
    (ha : readableV s a) (hb : readableV s b) (hv : writableV s v) (hold : m ≠ 0 → readableV s v) :
    let n := (elemBits fmt).getD 32
    let r := fun j => g (roundingOf ((me s).rmode.toNat, (me s).seed.toNat) j) (decodeElem fmt (elemOf (regV s a).toNat n j))
      (decodeElem fmt (elemOf (regV s b).toNat n j))
    exec i s = .next (after (withV (flagged (seeded s) (flagsOf (regM s m) n fun j => (r j).2)) v
      (mergeElems (regM s m) n (oldV s m v) fun j => (r j).1)) 4) := by
  obtain ⟨word, f, h, hf⟩ := h
  have hrun := exec_formVF h hl rfl hm ha hb hv (readOld_plain hold)
  rw [hf] at hrun
  exact hrun

/-- Settles O38: a rounding row is one form with one seed, every other row a function of its elements. -/
theorem vectorFloatsCompute : Obligations.VectorFloatsCompute := by
  unfold Obligations.VectorFloatsCompute
  intro s m b a v w hw hm ha hv hold fmt n ms x y
  have hl : floatRule w (mergeRule m v) = none := floatRule_plain hw (mergeRule_plain hv.1 m)
  refine ⟨fun hb e he => ?rounded, fun hb hd => ?vfma, fun hb => ⟨?vfmin, ?vfmax⟩, ?vfabs, ?vfneg⟩
  case rounded =>
    suffices h : RoundsLanes e.2 (floatRule w (mergeRule m v)) m fmt b a v (e.1 m b a v w) from h.exec hl hm ha hb hv hold
    revert e
    simp only [List.forall_mem_cons]
    exact ⟨⟨_, _, rfl, rfl⟩, ⟨_, _, rfl, rfl⟩, ⟨_, _, rfl, rfl⟩, List.forall_mem_nil _⟩
  case vfma =>
    exact exec_formVF (acc := true) (f := fun f r x y z => fpFma f r (decodeElem f x) (decodeElem f y) (decodeElem f z)) rfl
      (floatRule_plain hw (vportRule_plain hv.1)) rfl hm ha hb hv (readV_plain hd)
  case vfmin => exact exec_formV (f := fun _ x y => fpPick fmt false x y) rfl hl hm ha hb hv hold
  case vfmax => exact exec_formV (f := fun _ x y => fpPick fmt true x y) rfl hl hm ha hb hv hold
  case vfabs => exact exec_formV1 (f := fun _ x => signElem fmt true x) rfl hl hm ha hv hold
  case vfneg => exact exec_formV1 (f := fun _ x => signElem fmt false x) rfl hl hm ha hv hold

end Sys2Proof.Machine
end

section
/-!
The vector compares and the mask instructions (R184, R185).
-/
namespace Sys2Proof.Machine

open Sys2Proof

/-! ### Compares -/

/-- R184: the bit of an element that a compare computes, of numbers for a floating type and of integers for the others. -/
def compareBit (t : BitVec 3) (gi : Nat → Nat → Nat → Bool) (gf : FpNum → FpNum → Bool) (x y : Nat) : Bool :=
  match cmpFmt t with
  | some f => gf (decodeElem f x) (decodeElem f y)
  | none => gi (cmpWidth t) x y

/-- R184: a compare writes to a mask register what it computes of each pair of elements. -/
theorem compareV_plain {s : State} {b a : BitVec 6} (ha : readableV s a) (hb : readableV s b) (t d : BitVec 3)
    (gi : Nat → Nat → Nat → Bool) (gf : FpNum → FpNum → Bool) :
    let n := cmpWidth t
    compareV t b a d gi gf s = .ok (.seq, withM s d (cmpMask n fun j =>
      compareBit t gi gf (elemOf (regV s a).toNat n j) (elemOf (regV s b).toNat n j))) := by
  simp only [compareV, act_bind, vectorLink_plain ha.1, vectorLink_plain hb.1, readV_plain ha, readV_plain hb, writeM_eq, act_pure]
  rfl

/-- R184: an instruction that compares by two predicates, for the types of its row. -/
def Compares (ok : Bool) (gi : Nat → Nat → Nat → Bool) (gf : FpNum → FpNum → Bool) (t : BitVec 3) (b a : BitVec 6) (d : BitVec 3)
    (i : Instr) : Prop :=
  ∃ legal, exec i = runInstr legal (encode i) 4 (compareV t b a d gi gf) ∧ legal = if ok then none else some 1

theorem Compares.exec {ok : Bool} {gi : Nat → Nat → Nat → Bool} {gf : FpNum → FpNum → Bool} {t : BitVec 3} {b a : BitVec 6} {d : BitVec 3}
    {i : Instr} {s : State} (h : Compares ok gi gf t b a d i) (ha : readableV s a) (hb : readableV s b) :
    exec i s =
      if ok then .next (after (withM s d (cmpMask (cmpWidth t) fun j =>
        compareBit t gi gf (elemOf (regV s a).toNat (cmpWidth t) j) (elemOf (regV s b).toNat (cmpWidth t) j))) 4)
      else .next (traps s cILLEGAL (illegalDetail 1 false (encode i)) false) := by
  obtain ⟨legal, h, rfl⟩ := h
  rw [h]
  cases ok with
  | true => exact runInstr_seq rfl (compareV_plain ha hb t d gi gf)
  | false => exact runInstr_illegal

/-- R184: the type 7 is no type of the rows that compare integers and numbers alike. -/
theorem typeRule_eq (t : BitVec 3) : (if t = 7 then some 1 else none : Option (BitVec 3)) = if decide (t ≠ 7) then none else some 1 := by
  simp only [decide_eq_true_eq, ne_eq, ite_not]

theorem integerTypeRule_eq (t : BitVec 3) :
    (if t.toNat < 4 then none else some 1 : Option (BitVec 3)) = if decide (t.toNat < 4) then none else some 1 := by
  simp only [decide_eq_true_eq]

theorem floatTypeRule_eq (t : BitVec 3) : (if t.toNat < 4 ∨ t = 7 then some 1 else none : Option (BitVec 3)) =
    if decide (4 ≤ t.toNat ∧ t ≠ 7) then none else some 1 := by
  simp only [decide_eq_true_eq, ne_eq, ← Nat.not_lt, ← not_or, ite_not]

/-! ### Mask instructions -/

section Masks
variable {s : State} {b a d : BitVec 3}

/-- R185: an instruction on two masks. -/
theorem exec_maskOp {i : Instr} {word : BitVec 32} {g : BitVec 16 → BitVec 16 → BitVec 16}
    (h : exec i = runInstr none word 4 (maskOp b a d g)) (ha : readableM s a) (hb : readableM s b) :
    exec i s = .next (after (withM s d (g (regM s a) (regM s b))) 4) := by
  rw [h]
  refine runInstr_seq rfl ?_
  simp only [maskOp, act_bind, readM_plain ha, readM_plain hb, writeM_eq, act_pure]

/-- R185: a mask from the low bits of a scalar register. -/
theorem exec_mmvMx {x : BitVec 5} (hx : readableX s x) : exec (.mmvMx x d) s = .next (after (withM s d ((regX s x).setWidth 16)) 4) := by
  refine runInstr_seq (word := encMmvMx x d) rfl ?_
  simp only [act_bind, scalarLink_plain hx.1, readX_plain hx, writeM_eq, act_pure]

/-- R185: a mask into a scalar register. -/
theorem exec_mmvXm {x : BitVec 5} (ha : readableM s a) (hx : writableX s x) :
    exec (.mmvXm a x) s = .next (after (withX s x (BitVec.ofNat 64 (regM s a).toNat)) 4) := by
  refine runInstr_seq (word := encMmvXm a x) rfl ?_
  simp only [act_bind, scalarLink_plain hx.1, readM_plain ha, writeX_plain hx, act_pure, BitVec.ofNat_toNat]

/-- R185: the number of ones of a mask. -/
theorem exec_mpop {x : BitVec 5} (ha : readableM s a) (hx : writableX s x) : exec (.mpop a x) s =
    .next (after (withX s x (BitVec.ofNat 64 ((List.range 16).countP fun i => (regM s a).getLsbD i))) 4) := by
  refine runInstr_seq (word := encMpop a x) rfl ?_
  simp only [act_bind, scalarLink_plain hx.1, readM_plain ha, writeX_plain hx, act_pure, popCount_eq_countP]
  rfl

/-- R357: a mask that an uncorrectable error has struck stops its reader. -/
theorem readM_struck {e : Dbl} (h0 : a ≠ 0) (he : tabGet .full (me s).ms a.toNat = .error e) : readM a s = .error (.trap cUNCORR e) := by
  simp only [readM, if_neg h0, act_bind, act_here, he, needFull, act_halt]

theorem exec_mnot_struck {e : Dbl} (h0 : a ≠ 0) (he : tabGet .full (me s).ms a.toNat = .error e) :
    exec (.mnot a d) s = .next (traps s cUNCORR e false) := by
  refine runInstr_trap (word := encMnot a d) rfl ?_
  rw [maskOp, act_bind_error (readM_struck h0 he)]

end Masks

/-- Settles O39: each compare by its two predicates, each mask instruction by its own equation. -/
theorem comparesAndMasks : Obligations.ComparesAndMasks := by
  unfold Obligations.ComparesAndMasks
  refine ⟨fun s t b a d ha hb e he => ?compares, fun s b a d x ha hb => ⟨?mand, ?mor, ?mxor, ?mandn, ?mnot, exec_mmvMx, exec_mmvXm ha,
    exec_mpop ha, fun r e h0 he => exec_mnot_struck h0 he⟩⟩
  case compares =>
    suffices h : Compares e.2.1 e.2.2.1 e.2.2.2 t b a d (e.1 t b a d) from h.exec ha hb
    revert e
    simp only [List.forall_mem_cons]
    exact ⟨⟨_, rfl, typeRule_eq t⟩, ⟨_, rfl, typeRule_eq t⟩, ⟨_, rfl, typeRule_eq t⟩, ⟨_, rfl, integerTypeRule_eq t⟩,
      ⟨_, rfl, integerTypeRule_eq t⟩, ⟨_, rfl, floatTypeRule_eq t⟩, List.forall_mem_nil _⟩
  case mand => exact exec_maskOp (word := encMand b a d) (g := fun x y => x &&& y) rfl ha hb
  case mor => exact exec_maskOp (word := encMor b a d) (g := fun x y => x ||| y) rfl ha hb
  case mxor => exact exec_maskOp (word := encMxor b a d) (g := fun x y => x ^^^ y) rfl ha hb
  case mandn => exact exec_maskOp (word := encMandn b a d) (g := fun x y => x &&& ~~~ y) rfl ha hb
  case mnot => exact exec_maskOp (b := 0) (word := encMnot a d) (g := fun x _ => ~~~ x) rfl ha (.inl rfl)

end Sys2Proof.Machine
end

section
/-!
The permutes and the moves between register files (R186, R187).
-/
namespace Sys2Proof.Machine

open Sys2Proof

/-! ### The field rules -/

/-- R186: the width codes are those below 4. -/
theorem widthRule_plain {w : BitVec 3} (hw : w.toNat < 4) {rest : Option (BitVec 3)} (hr : rest = none) :
    (if w.toNat < 4 then rest else some 1) = none := by rw [if_pos hw, hr]

/-- R186: a quad holds 16 >> w elements of the width code w. -/
theorem elemRule_plain {w : BitVec 3} (hw : w.toNat < 4) {i : BitVec 6} (hi : i.toNat < 128 / (8 * 2 ^ w.toNat)) :
    (if w.toNat < 4 then below i.toNat (16 >>> w.toNat) else some 1) = none := by
  refine widthRule_plain hw (if_pos ?_)
  rwa [Nat.shiftRight_eq_div_pow, ← Nat.mul_div_mul_left 16 _ (by decide : 0 < 8)]

section Moves
variable {s : State} {m : BitVec 3} {b a v : BitVec 6} {legal : Option (BitVec 3)} {word : BitVec 32} {i : Instr}

/-! ### Permutes -/

/-- R186: a permute chooses its elements from the two sources in a row. -/
theorem exec_permuteV {e : Nat} {f : Nat → Nat} (h : exec i = runInstr legal word 4 (permuteV e b a v f)) (hl : legal = none)
    (ha : readableV s a) (hb : readableV s b) (hv : writableV s v) :
    exec i s = .next (after (withV s v (BitVec.ofNat 128 (packElems e ((List.range (128 / e)).map fun j =>
      elemOf ((regV s a).toNat + (regV s b).toNat * 2 ^ 128) e (f j))))) 4) := by
  rw [h]
  refine runInstr_seq hl ?_
  simp only [permuteV, act_bind, vectorLink_plain ha.1, vectorLink_plain hb.1, vectorLink_plain hv.1, readV_plain ha, readV_plain hb,
    writeV_plain hv, act_pure]

/-- R186: `vsel` takes the bytes of its second source where the mask has a 0. -/
theorem exec_vsel {sel : BitVec 3} (hsel : readableM s sel) (ha : readableV s a) (hb : readableV s b) (hv : writableV s v) :
    exec (.vsel sel b a v) s =
      .next (after (withV s v (mergeElems (regM s sel) 8 (regV s b) fun j => elemOf (regV s a).toNat 8 j)) 4) := by
  refine runInstr_seq (word := encVsel sel b a v) rfl ?_
  simp only [act_bind, vectorLink_plain ha.1, vectorLink_plain hb.1, vectorLink_plain hv.1, readV_plain ha, readV_plain hb, readM_plain hsel,
    writeV_plain hv, act_pure]

/-- R186: a selector below 16 names a byte of the first source, every other one gives 0. -/
theorem shufByte_eq (x y : Quad) (j : Nat) : shufByte x y j =
    if elemOf y.toNat 8 j / 16 = 0 then elemOf x.toNat 8 (elemOf y.toNat 8 j % 16) else 0 := by simp only [shufByte, ne_eq, ite_not]

theorem exec_vshuf (hm : readableM s m) (ha : readableV s a) (hb : readableV s b) (hv : writableV s v) (hold : m ≠ 0 → readableV s v) :
    exec (.vshuf m b a v) s = .next (after (withV s v (mergeElems (regM s m) 8 (oldV s m v) fun j =>
      if elemOf (regV s b).toNat 8 j / 16 = 0 then elemOf (regV s a).toNat 8 (elemOf (regV s b).toNat 8 j % 16) else 0)) 4) := by
  refine runInstr_seq (word := encVshuf m b a v) (mergeRule_plain hv.1 m) ?_
  simp only [act_bind, vectorLink_plain ha.1, vectorLink_plain hb.1, vectorLink_plain hv.1, readV_plain ha, readV_plain hb,
    readOld_plain hold, readM_plain hm, writeV_plain hv, act_pure, ← shufByte_eq]

/-! ### Moves -/

variable {w : BitVec 3} {k : BitVec 6} {x : BitVec 5}

theorem exec_vbcast (hw : w.toNat < 4) (hk : k.toNat < 128 / (8 * 2 ^ w.toNat)) (ha : readableV s a) (hv : writableV s v) :
    let n := 8 * 2 ^ w.toNat
    exec (.vbcast w k a v) s = .next (after (withV s v (mergeElems 0xFFFF n 0 fun _ => elemOf (regV s a).toNat n k.toNat)) 4) := by
  refine runInstr_seq (word := encVbcast w k a v) (elemRule_plain hw hk) ?_
  simp only [act_bind, vectorLink_plain ha.1, vectorLink_plain hv.1, readV_plain ha, writeV_plain hv, act_pure]
  rfl

/-- R187: an element into a scalar register. -/
theorem exec_vmvXv (hw : w.toNat < 4) (hk : k.toNat < 128 / (8 * 2 ^ w.toNat)) (ha : readableV s a) (hx : writableX s x) :
    exec (.vmvXv w k a x) s = .next (after (withX s x (BitVec.ofNat 64 (elemOf (regV s a).toNat (8 * 2 ^ w.toNat) k.toNat))) 4) := by
  refine runInstr_seq (word := encVmvXv w k a x) (elemRule_plain hw hk) ?_
  simp only [act_bind, vectorLink_plain ha.1, scalarLink_plain hx.1, readV_plain ha, writeX_plain hx, act_pure]
  rfl

/-- R187: a scalar register into each active element. -/
theorem exec_vmvVx (hm : readableM s m) (hv : writableV s v) (hold : m ≠ 0 → readableV s v) (hx : readableX s x) (w : BitVec 2) :
    exec (.vmvVx m w x v) s =
      .next (after (withV s v (mergeElems (regM s m) (8 * 2 ^ w.toNat) (oldV s m v) fun _ => (regX s x).toNat)) 4) := by
  refine runInstr_seq (word := encVmvVx m w x v) (mergeRule_plain hv.1 m) ?_
  simp only [act_bind, scalarLink_plain hx.1, vectorLink_plain hv.1, readX_plain hx, readOld_plain hold, readM_plain hm, writeV_plain hv,
    act_pure]
  rfl

/-- R187: an immediate into each element. -/
theorem exec_vli (hw : w.toNat < 4) (hv : writableV s v) (l : BitVec 12) :
    let n := 8 * 2 ^ w.toNat
    exec (.vli w l v) s = .next (after (withV s v (mergeElems 0xFFFF n 0 fun _ => wrapInt l.toInt n)) 4) := by
  refine runInstr_seq (word := encVli w l v) (widthRule_plain hw rfl) ?_
  simp only [act_bind, vectorLink_plain hv.1, writeV_plain hv, act_pure]
  rfl

end Moves

/-- Settles O40: the permutes of two sources are one form, every other instruction its own equation. -/
theorem vectorMoves : Obligations.VectorMoves := by
  unfold Obligations.VectorMoves
  intro s m sel w k i b a v x hm hsel ha hv n c both pick
  refine ⟨fun hw hb => ⟨?zipLo, ?zipHi, ?unzipEv, ?unzipOd⟩,
    fun hb => ⟨?extLo, ?extHi, exec_vsel hsel ha hb hv, exec_vshuf hm ha hb hv⟩,
    fun hw hi => ⟨exec_vbcast hw hi ha hv, exec_vmvXv hw hi ha⟩, exec_vmvVx hm hv, fun hw => exec_vli hw hv, fun hold => ?vmv⟩
  case zipLo => exact exec_permuteV rfl (widthRule_plain hw rfl) ha hb hv
  case zipHi => exact exec_permuteV rfl (widthRule_plain hw rfl) ha hb hv
  case unzipEv => exact exec_permuteV rfl (widthRule_plain hw rfl) ha hb hv
  case unzipOd => exact exec_permuteV rfl (widthRule_plain hw rfl) ha hb hv
  case extLo => exact exec_permuteV (word := encVextLo k b a v) (legal := none) rfl rfl ha hb hv
  case extHi => exact exec_permuteV (word := encVextHi k b a v) (legal := none) rfl rfl ha hb hv
  case vmv => exact exec_formV1 (f := fun _ x => x) rfl (mergeRule_plain hv.1 m) hm ha hv hold

end Sys2Proof.Machine
end

section
/-!
The reductions and the dot products (R188, R189).
-/
namespace Sys2Proof.Machine

open Sys2Proof

/-! ### Reductions -/

/-- A sum that begins at an integer. -/
theorem foldl_add_map_eq {α : Type} (f : α → Int) (l : List α) (z : Int) : l.foldl (fun i x => i + f x) z = z + (l.map f).sum := by
  induction l generalizing z with
  | nil => simp
  | cons x xs ih => rw [List.foldl_cons, ih, List.map_cons, List.sum_cons, Int.add_assoc]

section Reductions
variable {s : State} {m : BitVec 3} {a : BitVec 6} {d : BitVec 5} {w : BitVec 2}

/-- R188: a reduction completes with what it makes of the accumulator and the active elements, in the state that making it leaves. -/
theorem exec_reduceV {t : State} {word : BitVec 32} {i : Instr} {e : Nat} {q : Dbl} {g : Dbl → List (Nat × Nat) → Act Dbl}
    (h : exec i = runInstr (portRule d) word 4 (reduceV m e a d g)) (hm : readableM s m) (ha : readableV s a) (hd : readableX s d)
    (ht : writableX t d) (hg : g (regX s d) (activeElems (regM s m) e (regV s a)) s = .ok (q, t)) :
    exec i s = .next (after (withX t d q) 4) := by
  rw [h]
  refine runInstr_seq (portRule_plain hd.1) ?_
  simp only [reduceV, act_bind, vectorLink_plain ha.1, readV_plain ha, readX_plain hd, readM_plain hm, hg, writeX_plain ht, act_pure]

variable (hm : readableM s m) (ha : readableV s a) (hd : readableX s d)
include hm ha hd

theorem exec_vredaddInt :
    let n := 8 * 2 ^ w.toNat
    let es := (activeElems (regM s m) n (regV s a)).map fun e => signedNat e.2 n
    exec (.vredaddInt w m a d) s = .next (after (withX s d (BitVec.ofInt 64 ((regX s d).toInt + es.sum))) 4) := by
  refine exec_reduceV (word := encVredaddInt w m a d) rfl hm ha hd hd.writable ?_
  rw [foldl_add_map_eq]
  rfl

theorem exec_vredmaxInt :
    let n := 8 * 2 ^ w.toNat
    let es := (activeElems (regM s m) n (regV s a)).map fun e => signedNat e.2 n
    exec (.vredmaxInt w m a d) s = .next (after (withX s d (BitVec.ofInt 64 (es.foldl max (regX s d).toInt))) 4) := by
  refine exec_reduceV (word := encVredmaxInt w m a d) rfl hm ha hd hd.writable ?_
  rw [List.foldl_map]
  rfl

/-- R188: each sum is rounded, and their flags are added at the end. -/
theorem exec_vredaddF32 :
    let ms := ((me s).rmode.toNat, (me s).seed.toNat)
    let r := (activeElems (regM s m) 32 (regV s a)).foldl (fun (p : Nat × BitVec 5) e =>
      ((fpAdd fFP32 (roundingOf ms e.1) (decF32 p.1) (decF32 e.2)).1,
        p.2 ||| (fpAdd fFP32 (roundingOf ms e.1) (decF32 p.1) (decF32 e.2)).2)) ((regX s d).toNat % 2 ^ 32, 0)
    exec (.vredaddF32 m a d) s = .next (after (withX (flagged (seeded s) r.2) d (BitVec.ofNat 64 r.1)) 4) := by
  refine exec_reduceV (word := encVredaddF32 m a d) rfl hm ha hd (writableX_of_me (xs_flagged_seeded s _) hd.writable) ?_
  simp only [act_bind, takeRound_seeded, addFlags_flagged, act_pure]

theorem exec_vredmaxF32 : exec (.vredmaxF32 m a d) s = .next (after (withX s d (BitVec.ofNat 64
    ((activeElems (regM s m) 32 (regV s a)).foldl (fun c e => fpPick fFP32 true c e.2) ((regX s d).toNat % 2 ^ 32)))) 4) :=
  exec_reduceV (word := encVredmaxF32 m a d) rfl hm ha hd hd.writable rfl

end Reductions

/-! ### Dot products -/

section Dots
variable {s : State} {m : BitVec 3} {b a v : BitVec 6}

variable (hm : readableM s m) (ha : readableV s a) (hb : readableV s b) (hv : readableV s v)
include hm ha hb hv

/-- R189: `vdot4` adds four products of signed bytes to each active lane. -/
theorem exec_vdot4 :
    let x := fun j => elemOf (regV s a).toNat 32 j
    let y := fun j => elemOf (regV s b).toNat 32 j
    let z := fun j => elemOf (regV s v).toNat 32 j
    let p := fun j i => signedNat (elemOf (x j) 8 i) 8 * signedNat (elemOf (y j) 8 i) 8
    exec (.vdot4 m b a v) s = .next (after (withV s v (mergeElems (regM s m) 32 (regV s v) fun j =>
      wrapInt ((z j : Int) + p j 0 + p j 1 + p j 2 + p j 3) 32)) 4) := by
  refine runInstr_seq (word := encVdot4 m b a v) (vportRule_plain hv.1) ?_
  simp only [dotV, act_bind, vectorLink_plain ha.1, vectorLink_plain hb.1, readV_plain ha, readV_plain hb, readV_plain hv, readM_plain hm,
    writeV_plain hv.writable, act_pure]
  rfl

/-- R183, R189: `vdot2` rounds each active lane once. -/
theorem exec_vdot2 :
    let r := fun j => dot2Lane (roundingOf ((me s).rmode.toNat, (me s).seed.toNat) j) (elemOf (regV s a).toNat 32 j)
      (elemOf (regV s b).toNat 32 j) (elemOf (regV s v).toNat 32 j)
    exec (.vdot2 m b a v) s = .next (after (withV (flagged (seeded s) (flagsOf (regM s m) 32 fun j => (r j).2)) v
      (mergeElems (regM s m) 32 (regV s v) fun j => (r j).1)) 4) := by
  refine runInstr_seq (word := encVdot2 m b a v) (vportRule_plain hv.1) ?_
  simp only [act_bind, vectorLink_plain ha.1, vectorLink_plain hb.1, readV_plain ha, readV_plain hb, readV_plain hv, readM_plain hm,
    takeRound_seeded, addFlags_flagged, writeV_plain (writableV_flagged_seeded hv.writable _), act_pure]

end Dots

/-- Settles O41: each reduction is one form with its own fold, each dot product its own equation. -/
theorem reductionsCompute : Obligations.ReductionsCompute := by
  unfold Obligations.ReductionsCompute
  intro s m b a v d hm ha mask ms
  exact ⟨fun hd w => ⟨exec_vredaddInt hm ha hd, exec_vredmaxInt hm ha hd⟩,
    fun hd => ⟨exec_vredaddF32 hm ha hd, exec_vredmaxF32 hm ha hd⟩,
    fun hb hv => ⟨exec_vdot4 hm ha hb hv, exec_vdot2 hm ha hb hv⟩⟩

end Sys2Proof.Machine
end

section
/-!
The conversions of vectors, the largest magnitude and the block scale (R190 to R192).
-/
namespace Sys2Proof.Machine

open Sys2Proof

/-! ### Conversion -/

/-- R191: the destination elements that a conversion writes, each with its source element. -/
def convWritten (c : Dbl) (mask : BitVec 16) : List (Nat × Nat) :=
  (convPairs c).filter fun e => active mask ((elemBits (ctlDst c)).getD 8) e.1

/-- R191: the code and the flags of one of them; a source element past the end of the quad gives 0. -/
def convCode (c : Dbl) (ms : Nat × Nat) (x : Quad) (e : Nat × Nat) : Nat × BitVec 5 :=
  if fmtCount (ctlSrc c) ≤ e.2 then (0, 0) else convElem c (roundingOf ms e.1) (elemOf x.toNat ((elemBits (ctlSrc c)).getD 8) e.2)

/-- R191: the results of a conversion by destination element. -/
def convTable (c : Dbl) (mask : BitVec 16) (ms : Nat × Nat) (x : Quad) : Tab (Nat × BitVec 5) :=
  (convWritten c mask).map fun e => (e.1, convCode c ms x e)

/-- R191: the destination of a conversion: its results, the other elements as they were. -/
def convMerged (c : Dbl) (results : Tab (Nat × BitVec 5)) (old : Quad) : Quad :=
  let ed := (elemBits (ctlDst c)).getD 8
  BitVec.ofNat 128 (packElems ed ((List.range (fmtCount (ctlDst c))).map fun j =>
    match tabFind? results j with
    | some e => e.1
    | none => elemOf old.toNat ed j))

/-- A table made from another by a function of its entries lists the same keys. -/
theorem tabFind?_map_entry {α β : Type} (f : Nat × α → β) (t : Tab α) (k : Nat) :
    tabFind? (t.map fun e => (e.1, f e)) k = (tabFind? t k).map fun x => f (k, x) := by
  induction t with
  | nil => rfl
  | cons e t ih =>
    rw [List.map_cons, tabFind?, tabFind?]
    split
    next h => rw [← h]; rfl
    next => exact ih

/-- R191: the destination by the written elements and their codes. -/
theorem convMerged_table (c : Dbl) (mask : BitVec 16) (ms : Nat × Nat) (x old : Quad) :
    let ed := (elemBits (ctlDst c)).getD 8
    convMerged c (convTable c mask ms x) old = BitVec.ofNat 128 (packElems ed ((List.range (fmtCount (ctlDst c))).map fun j =>
      match tabFind? (convWritten c mask) j with
      | some i => (convCode c ms x (j, i)).1
      | none => elemOf old.toNat ed j)) := by
  refine congrArg (fun l => BitVec.ofNat 128 (packElems _ l)) (List.map_congr_left fun j _ => ?_)
  rw [convTable, tabFind?_map_entry]
  cases tabFind? (convWritten c mask) j <;> rfl

theorem convTable_flags (c : Dbl) (mask : BitVec 16) (ms : Nat × Nat) (x : Quad) :
    (convTable c mask ms x).foldl (fun acc e => acc ||| e.2.2) 0 =
      (convWritten c mask).foldl (fun acc e => acc ||| (convCode c ms x e).2) 0 := List.foldl_map

section Conversion
variable {s : State} {m : BitVec 3} {b : BitVec 5} {a v : BitVec 6}

/-- R178: vd is read first where a mask may merge into it. -/
theorem readMerged_plain (hold : m ≠ 0 → readableV s v) :
    (if (m != 0) = true then readV v else pure 0) s = .ok (oldV s m v, s) := by
  by_cases h0 : m = 0
  · subst h0
    rfl
  · rw [oldV, if_neg h0, if_pos (bne_iff_ne.2 h0)]
    exact readV_plain (hold h0)

/-- R191: and under m0 where the part does not fill it. -/
theorem readKept_plain {keeps : Bool} (hold : (keeps || m != 0) = true → readableV s v) :
    (if m = 0 ∧ keeps = true then readV v else pure (oldV s m v)) s = .ok (if keeps || m != 0 then regV s v else 0, s) := by
  by_cases h0 : m = 0
  · subst h0
    cases keeps with
    | false => rfl
    | true => exact readV_plain (hold rfl)
  · have hor : (keeps || m != 0) = true := by rw [bne_iff_ne.2 h0, Bool.or_true]
    rw [oldV, if_neg h0, if_neg fun h => h0 h.1, if_pos hor]
    rfl

/-- R190: an illegal control word is found once the sources that it does not choose are read. -/
theorem exec_vcvt_illegal (hb : readableX s b) (ha : readableV s a) (hv : writableV s v) (hold : m ≠ 0 → readableV s v)
    (hc : ctlOk (regX s b) = false) : exec (.vcvt m b a v) s = .next (traps s cILLEGAL (regX s b) false) := by
  refine runInstr_trap (word := encVcvt m b a v) (mergeRule_plain hv.1 m) ?_
  simp only [act_bind, vectorLink_plain ha.1, scalarLink_plain hb.1, vectorLink_plain hv.1, readV_plain ha, readX_plain hb,
    act_ite_bind (readMerged_plain hold), act_check, hc, Bool.false_eq_true, if_false]

/-- R190, R191: a conversion under a legal control word. -/
theorem exec_vcvt (hb : readableX s b) (hm : readableM s m) (ha : readableV s a) (hv : writableV s v) (hc : ctlOk (regX s b) = true)
    (hold : (convKeeps (regX s b) || m != 0) = true → readableV s v) :
    let c := regX s b
    let results := convTable c (regM s m) ((me s).rmode.toNat, (me s).seed.toNat) (regV s a)
    exec (.vcvt m b a v) s = .next (after (withV (flagged (seeded s) (results.foldl (fun acc e => acc ||| e.2.2) 0)) v
      (convMerged c results (if convKeeps c || m != 0 then regV s v else 0))) 4) := by
  refine runInstr_seq (word := encVcvt m b a v) (mergeRule_plain hv.1 m) ?_
  have hmerged : m ≠ 0 → readableV s v := fun h0 => hold (by rw [bne_iff_ne.2 h0, Bool.or_true])
  simp only [act_bind, vectorLink_plain ha.1, scalarLink_plain hb.1, vectorLink_plain hv.1, readV_plain ha, readX_plain hb,
    act_ite_bind (readMerged_plain hmerged), hc, hv.1, Bool.and_false, Bool.not_false, act_check_true, act_ite_bind (readKept_plain hold),
    readM_plain hm, takeRound_seeded, addFlags_flagged, writeV_plain (writableV_flagged_seeded hv _), act_pure]
  rfl

end Conversion

/-! ### Magnitudes -/

/-- R192: the magnitudes of the accumulator and of the active elements, of which the largest is taken. -/
theorem exec_vredamax {s : State} {m : BitVec 3} {b d : BitVec 5} {a : BitVec 6} (hb : readableX s b) (hm : readableM s m)
    (ha : readableV s a) (hd : readableX s d) (hc : (regX s b).toNat < 64) (hf : amaxFormat (ctlSrc (regX s b)) = true) :
    let f := ctlSrc (regX s b)
    let vs := decF32 (regX s d).toNat :: (activeElems (regM s m) ((elemBits f).getD 8) (regV s a)).map fun e => decodeElem f e.2
    let top := vs.foldl (fun t x => if cmpNum t (absNum x) = .lt then absNum x else t) (.zero false)
    exec (.vredamax m b a d) s = .next (after (withX s d
      (if vs.any notFinite then 0x7F800000 else BitVec.ofNat 64 (encF32 ⟨0, 0⟩ top).1)) 4) := by
  refine runInstr_seq (word := encVredamax m b a d) (portRule_plain hd.1) ?_
  simp only [act_bind, vectorLink_plain ha.1, scalarLink_plain hb.1, readV_plain ha, readX_plain hb, readX_plain hd, hc, hf, decide_true,
    Bool.and_self, act_check_true, readM_plain hm, writeX_plain hd.writable, act_pure, beq_iff_eq]

/-- R152, R192: the block scale of a magnitude. -/
theorem exec_vmxsc {s : State} {b d : BitVec 5} {f : BitVec 6} (hb : readableX s b) (hd : writableX s d) (hf : scaledFormat f = true) :
    exec (.vmxsc f b d) s = .next (after (withX s d (BitVec.ofNat 64 (mxScale f.toNat (absNum (decF32 (regX s b).toNat))))) 4) := by
  refine runInstr_seq (word := encVmxsc f b d) (if_pos hf) ?_
  simp only [act_bind, scalarLink_plain hb.1, scalarLink_plain hd.1, readX_plain hb, writeX_plain hd, act_pure]

/-- Settles O42: a conversion by its control word, the others by their equations. -/
theorem conversionsCompute : Obligations.ConversionsCompute := by
  unfold Obligations.ConversionsCompute
  intro s m b a v d hb c ms
  refine ⟨fun hm ha hv hc hold => ?vcvt, fun ha hv hold hc => exec_vcvt_illegal hb ha hv hold hc,
    fun hm ha hd hc hf => exec_vredamax hb hm ha hd hc hf, fun f hf hd => exec_vmxsc hb hd hf⟩
  case vcvt =>
    intro old es ed written code
    have hrun := exec_vcvt hb hm ha hv hc hold
    simp only [convTable_flags, convMerged_table] at hrun
    exact hrun

end Sys2Proof.Machine
end

section
/-!
The special-function unit (R194 to R196): a request enters the queue of its berth, starts, and delivers.
-/
namespace Sys2Proof.Machine

open Sys2Proof

/-! ### The request -/

/-- R194: the request that the executing context makes. -/
def sfuRequest (s : State) (fn : Nat) (m : BitVec 3) (a v : BitVec 6) : SfuReq :=
  ⟨s.cur.core, s.cur.ctx, BitVec.ofNat 4 fn, physV (me s) v.toNat, regV s a, oldV s m v, regM s m, (me s).rmode, (me s).seed, s.nextReq,
    (me s).epoch⟩

/-- R194: the state after a request has entered the queue of its berth. -/
def sfuQueued (s : State) (fn : Nat) (m : BitVec 3) (a v : BitVec 6) : State :=
  let y := berthOf s (myBerth s)
  setBerth { emptyV (seeded s) v with nextReq := s.nextReq + 1 } (myBerth s) { y with sfuQ := y.sfuQ ++ [sfuRequest s fn m a v] }

theorem berthOf_seeded (s : State) (b : Nat) : berthOf (seeded s) b = berthOf s b := by
  unfold seeded
  split <;> rfl

theorem physV_seeded (s : State) (n : Nat) : physV (me (seeded s)) n = physV (me s) n := by
  unfold physV
  rw [me_seeded]

/-- R197: no resumed context of a berth has a request to enter again where no context has one. -/
theorem rejoining_none {s : State} (hsaved : ∀ k c, (ctxOf s k c).sfuSaved = []) (b : Nat) :
    ((List.range 4).any fun i => (List.range 4).any fun c =>
      let y := ctxOf s (4 * b + i) c
      y.mode == .running && !y.sfuSaved.isEmpty && !(coreOf s (4 * b + i)).preempted) = false := by
  simp [hsaved]

/-- R194: a special function whose registers are ready enters a queue that has room. -/
theorem sfuIssue_queued {s : State} {m : BitVec 3} {a v : BitVec 6} (hm : readableM s m) (ha : readableV s a) (hv : writableV s v)
    (hold : m ≠ 0 → readableV s v) (hroom : (berthOf s (myBerth s)).sfuQ.length < 16) (hsaved : ∀ k c, (ctxOf s k c).sfuSaved = [])
    (fn : Nat) : sfuIssue fn m a v s = .ok (.seq, sfuQueued s fn m a v) := by
  have hopen : ¬ 16 ≤ (berthOf s (coreBerth s.cur.core)).sfuQ.length := Nat.not_le.2 hroom
  have hberth : berthOf { emptyV (seeded s) v with nextReq := s.nextReq + 1 } (coreBerth s.cur.core) = berthOf s (coreBerth s.cur.core) :=
    berthOf_seeded s _
  simp only [sfuIssue, act_bind, vectorLink_plain ha.1, vectorLink_plain hv.1, readV_plain ha, readOld_plain hold, readM_plain hm, act_get,
    rejoining_none hsaved, Bool.false_or, hopen, decide_false, Bool.false_eq_true, if_false, act_pure, takeRound_seeded,
    claimV_plain (writableV_seeded hv), destV, physV_seeded, act_modify, act_modBerth, hberth, BitVec.ofNat_toNat, BitVec.setWidth_eq]
  rfl

/-! ### Its start and its delivery -/

/-- R194: the head of the queue starts. -/
theorem exec_sfuRequestStart {s : State} {b : Nat} {r : SfuReq} {rest : List SfuReq} (hrun : (berthOf s b).dbg.halted = false)
    (hq : (berthOf s b).sfuQ = r :: rest) : exec (.sfuRequestStart b) s =
      .next (setBerth s b { berthOf s b with sfuQ := rest, sfuRun := (berthOf s b).sfuRun ++ [r] }) := by
  refine runEvent_ok ?_
  simp only [act_bind, act_get, hrun, Bool.not_false, act_need_true, hq, act_modBerth]

/-- R195: a result fills its register and its flags join those of its task. -/
theorem exec_sfuResultDelivery {s : State} {b i : Nat} {r : SfuReq} (hr : (berthOf s b).sfuRun[i]? = some r)
    (hdst : r.dst < 28 ∨ 32 ≤ r.dst) (hmode : (ctxOf s r.core r.ctx).mode ≠ .free) (hepoch : (ctxOf s r.core r.ctx).epoch = r.epoch) :
    let x := putV (ctxOf s r.core r.ctx) r.dst (sfuResult r).1
    exec (.sfuResultDelivery b i) s =
      .next (setCtx (setBerth s b { berthOf s b with sfuRun := removeAt (berthOf s b).sfuRun i }) r.core r.ctx
        { x with fflags := x.fflags ||| (sfuResult r).2 }) := by
  refine runEvent_ok ?_
  have hport : ¬ (28 ≤ r.dst ∧ r.dst < 32) := by omega
  simp only [act_bind, act_get, hr, act_needSome_some, act_modBerth, hport, if_false, act_modCtx, ctxOf_setBerth, ctxOf_setCtx_same,
    putV_mode, putV_epoch, hepoch, beq_eq_false_iff_ne.2 hmode, bne_self_eq_false, Bool.or_self, Bool.false_eq_true, setCtx_setCtx]

/-- Settles O36: an issue, a start and a delivery are one equation each. -/
theorem specialFunctionsQueue : Obligations.SpecialFunctionsQueue := by
  unfold Obligations.SpecialFunctionsQueue
  intro s
  refine ⟨fun m a v hm ha hv hold hroom hsaved => ?issue, fun b r rest => exec_sfuRequestStart, fun b i r => exec_sfuResultDelivery⟩
  case issue =>
    have hissue := fun fn (word : BitVec 32) => runInstr_seq (word := word) (len := 4) (mergeRule_plain hv.1 m)
      (sfuIssue_queued hm ha hv hold hroom hsaved fn)
    simp only [List.forall_mem_cons]
    exact ⟨hissue 0 _, hissue 1 _, hissue 2 _, hissue 3 _, hissue 4 _, hissue 5 _, hissue 6 _, List.forall_mem_nil _⟩

end Sys2Proof.Machine
end

section
/-!
The matrix lease (R202, R203, R205, R209 to R211): the read of `klease`, the three instructions, and how the array grants, refuses and ends
leases.
-/
namespace Sys2Proof.Machine

open Sys2Proof

/-! ### The read of `klease` -/

section LeaseCount

variable {s : State}

theorem holdsLease_of_lease {m : MatArray} {l : Lease} {k c : Nat} (hl : m.lease = some l) (hcore : l.core = k) (hctx : l.ctx = c) :
    holdsLease m k c = true := by simp [holdsLease, hl, hcore, hctx]

/-- R205: the commands remaining, for the holder. -/
theorem kleaseOf_holder {l : Lease} (hl : (matOf s (myBerth s)).lease = some l) (hcore : l.core = s.cur.core) (hctx : l.ctx = s.cur.ctx) :
    kleaseOf s = BitVec.ofNat 64 (2 ^ 7 + l.left) := by
  refine (if_pos (holdsLease_of_lease hl hcore hctx)).trans ?_
  rw [show (berthOf s (coreBerth s.cur.core)).mat.lease = some l from hl]
  rfl

/-- R205: the count requested, or zero, for any other context. -/
theorem kleaseOf_other (h : holdsLease (matOf s (myBerth s)) s.cur.core s.cur.ctx = false) :
    kleaseOf s = BitVec.ofNat 64 ((((matOf s (myBerth s)).reqs.find? (isLeaseReq s.cur.core s.cur.ctx)).map (·.n)).getD 0) :=
  if_neg (Bool.eq_false_iff.1 h)

theorem exec_kread_klease {d : BitVec 5} {v : Dbl} (hd : writableX s d) (hv : kleaseOf s = v) :
    exec (.kread 0x040 d) s = .next (after (withX s d v) 4) :=
  hv ▸ exec_kread_plain rfl (by decide) rfl hd

end LeaseCount

/-- Settles O9: one value of `klease` for each of the three cases. -/
theorem leaseCountReads : Obligations.LeaseCountReads := by
  unfold Obligations.LeaseCountReads
  intro s d hd m k c
  refine ⟨fun l hl hcore hctx _ => exec_kread_klease hd (kleaseOf_holder hl hcore hctx), fun r hfree hr => ?asked, fun hfree hnone => ?neither⟩
  case asked =>
    refine exec_kread_klease hd ((kleaseOf_other hfree).trans ?_)
    rw [show (matOf s (myBerth s)).reqs.find? _ = some r from hr]
    rfl
  case neither =>
    refine exec_kread_klease hd ((kleaseOf_other hfree).trans ?_)
    rw [show (matOf s (myBerth s)).reqs.find? _ = none from hnone]
    rfl

/-! ### The instructions -/

section LeaseInstructions

variable {s : State} {n : BitVec 8} {d : BitVec 5}

theorem me_emptyX_epoch (s : State) (d : BitVec 5) : (me (emptyX s d)).epoch = (me s).epoch := by
  unfold emptyX
  split
  · rfl
  · rw [me_withMe]

theorem emptyX_cur (s : State) (d : BitVec 5) : (emptyX s d).cur = s.cur := by
  unfold emptyX
  split <;> rfl

theorem emptyX_nextReq (s : State) (d : BitVec 5) : (emptyX s d).nextReq = s.nextReq := by
  unfold emptyX
  split <;> rfl

theorem countRule_plain (h1 : 1 ≤ n.toNat) (h64 : n.toNat ≤ 64) : (if n.toNat < 1 ∨ n.toNat > 64 then some 4 else none : Option (BitVec 3)) = none :=
  if_neg (by omega)

section Asked

variable (hd : writableX s d) (h1 : 1 ≤ n.toNat) (h64 : n.toNat ≤ 64)
include hd h1 h64

/-- R202, R209: a request of the array that is not gated enters its queue. -/
theorem exec_mlease_enters (hholds : holdsLease (matOf s (myBerth s)) s.cur.core s.cur.ctx = false)
    (hreq : (matOf s (myBerth s)).reqs.any (isLeaseReq s.cur.core s.cur.ctx) = false) (hpower : (berthOf s (myBerth s)).power = 0) :
    exec (.mlease n d) s = .next (after (enterLease { emptyX s d with nextReq := s.nextReq + 1 } (myBerth s)
      ⟨s.cur.core, s.cur.ctx, n.toNat, some (destX d, s.nextReq), (me s).epoch, none⟩) 4) := by
  refine runInstr_seq (word := encMlease n d) (countRule_plain h1 h64) ?_
  have hepoch : (ctxOf (emptyX s d) s.cur.core s.cur.ctx).epoch = (me s).epoch := by
    rw [← me_emptyX_epoch s d, me, emptyX_cur]
  simp only [act_bind, scalarLink_plain hd.1, act_get, hholds, hreq, Bool.not_false, Bool.and_self, act_check_true, hpower, ne_eq,
    not_true_eq_false, if_false, claimX_plain hd, act_here, emptyX_cur, act_modify, emptyX_nextReq, hepoch, act_pure]

/-- R202: a gated array refuses at once. -/
theorem exec_mlease_gated (hholds : holdsLease (matOf s (myBerth s)) s.cur.core s.cur.ctx = false)
    (hreq : (matOf s (myBerth s)).reqs.any (isLeaseReq s.cur.core s.cur.ctx) = false) (hpower : (berthOf s (myBerth s)).power ≠ 0) :
    exec (.mlease n d) s = .next (after (withX s d 2) 4) := by
  refine runInstr_seq (word := encMlease n d) (countRule_plain h1 h64) ?_
  simp only [act_bind, scalarLink_plain hd.1, act_get, hholds, hreq, Bool.not_false, Bool.and_self, act_check_true, hpower, ne_eq,
    not_false_eq_true, if_true, writeX_plain hd, act_pure]

/-- R209: a context asks once. -/
theorem exec_mlease_again
    (h : (holdsLease (matOf s (myBerth s)) s.cur.core s.cur.ctx ||
      (matOf s (myBerth s)).reqs.any (isLeaseReq s.cur.core s.cur.ctx)) = true) :
    exec (.mlease n d) s = .next (traps s cLEASE 1 false) := by
  refine runInstr_trap (word := encMlease n d) (countRule_plain h1 h64) ?_
  simp only [act_bind, scalarLink_plain hd.1, act_get, ← Bool.not_or, h, Bool.not_true, act_check, Bool.false_eq_true, if_false]

end Asked

/-- R209: a count outside 1 to 64. -/
theorem exec_mlease_illegal (h : n.toNat = 0 ∨ 64 < n.toNat) (d : BitVec 5) :
    exec (.mlease n d) s = .next (traps s cILLEGAL (illegalDetail 4 false (encode (.mlease n d))) false) := by
  have hrule : (if n.toNat < 1 ∨ n.toNat > 64 then some 4 else none : Option (BitVec 3)) = some 4 := if_pos (by omega)
  show runInstr _ (encMlease n d) 4 _ s = _
  rw [hrule, runInstr_illegal]
  rfl

/-- R203, R210: `mrel` ends what the context has of the lease. -/
theorem exec_mrel (s : State) : exec .mrel s = .next (after (endLease s s.cur.core s.cur.ctx) 4) :=
  show execMrel s = _ from runInstr_seq rfl rfl

theorem endLease_holder (h : holdsLease (matOf s (myBerth s)) s.cur.core s.cur.ctx = true) :
    endLease s s.cur.core s.cur.ctx = leaseEnds s (myBerth s) := if_pos h

/-- R210: a request that waits is withdrawn. -/
theorem endLease_asked {r : LeaseReq} (h : holdsLease (matOf s (myBerth s)) s.cur.core s.cur.ctx = false)
    (hr : (matOf s (myBerth s)).reqs.find? (isLeaseReq s.cur.core s.cur.ctx) = some r) :
    endLease s s.cur.core s.cur.ctx = fillLease (dropLeaseReq s s.cur.core s.cur.ctx) s.cur.core s.cur.ctx r.dst 4 := by
  refine (if_neg (Bool.eq_false_iff.1 h)).trans ?_
  rw [show (berthOf s (coreBerth s.cur.core)).mat.reqs.find? _ = some r from hr]

theorem endLease_neither (h : holdsLease (matOf s (myBerth s)) s.cur.core s.cur.ctx = false)
    (hr : (matOf s (myBerth s)).reqs.any (isLeaseReq s.cur.core s.cur.ctx) = false) : endLease s s.cur.core s.cur.ctx = s := by
  refine (if_neg (Bool.eq_false_iff.1 h)).trans ?_
  rw [show (berthOf s (coreBerth s.cur.core)).mat.reqs.find? _ = none from List.find?_eq_none.2 (List.any_eq_false.1 hr)]

/-- R211: the bits above the configuration are zero where the value is small. -/
theorem fieldOf_high_eq_zero_iff (v : Dbl) : fieldOf v 6 58 = 0 ↔ v.toNat < 64 := by
  have hv := v.isLt
  simp only [fieldOf, bitsAt]
  omega

theorem exec_mcfg {r : BitVec 5} (hr : readableX s r) :
    exec (.mcfg r) s = if (regX s r).toNat < 64 then .next (after (withMe s { me s with mcfg := (regX s r).setWidth 6 }) 4)
      else .next (traps s cILLEGAL (regX s r) false) := by
  split
  · rename_i h
    refine runInstr_seq (word := encMcfg r) rfl ?_
    simp only [act_bind, scalarLink_plain hr.1, readX_plain hr, (fieldOf_high_eq_zero_iff _).2 h, beq_self_eq_true, act_check_true, act_modHere,
      act_pure]
  · rename_i h
    refine runInstr_trap (word := encMcfg r) rfl ?_
    simp only [act_bind, scalarLink_plain hr.1, readX_plain hr, beq_eq_false_iff_ne.2 (mt (fieldOf_high_eq_zero_iff _).1 h), act_check,
      Bool.false_eq_true, if_false]

end LeaseInstructions

/-! ### The array -/

section LeaseEvents

variable {s : State} {b : Nat}

/-- R202, R209: the head request is granted. -/
theorem exec_leaseGrant {r : LeaseReq} {rest : List LeaseReq} (hr : (matOf s b).reqs = r :: rest) (hfree : (matOf s b).lease = none)
    (hpower : (berthOf s b).power = 0) (hleave : (matOf s b).leave = true) :
    exec (.leaseGrant b) s = .next (setMat (answerLease s b r 1) b
      { matOf s b with reqs := rest, leave := true, lease := some ⟨r.core, r.ctx, r.n, s.clk⟩, lastHolder := some r.core }) := by
  refine runEvent_ok ?_
  simp only [act_bind, act_get, hr, hfree, Option.isNone_none, act_need_true, hpower, ne_eq, not_true_eq_false, if_false, hleave, if_true,
    act_set]

/-- R202, R209: the head request has waited too long for leave. -/
theorem exec_leaveRefusalTimeout {r : LeaseReq} {rest : List LeaseReq} {asked : Nat} (hr : (matOf s b).reqs = r :: rest)
    (hasked : r.askedAt = some asked) (hlong : asked + 200 ≤ s.clk) :
    exec (.leaveRefusalTimeout b) s = .next (answerLease s b r 6) := by
  refine runEvent_ok ?_
  simp only [act_bind, act_get, hr, hasked, act_needSome_some, hlong, decide_true, act_need_true, act_set]

/-- R203: an idle lease ends and is requested again. -/
theorem exec_leaseIdleExpiry {r : LeaseReq} {rest : List LeaseReq} {l : Lease} (hr : (matOf s b).reqs = r :: rest)
    (hl : (matOf s b).lease = some l) (hidle : l.idleFrom + 1024 ≤ s.clk) :
    exec (.leaseIdleExpiry b) s =
      .next (enterLease (leaseEnds s b) b ⟨l.core, l.ctx, l.left, none, (ctxOf s l.core l.ctx).epoch, none⟩) := by
  refine runEvent_ok ?_
  simp only [act_bind, act_get, hr, hl, act_needSome_some, hidle, List.isEmpty_cons, Bool.not_false, decide_true, Bool.and_self, act_need_true,
    act_set]

/-- R202: the array gives its leave up. -/
theorem exec_powerLeaveRelease (hleave : (matOf s b).leave = true) (hfree : (matOf s b).lease = none) (hr : (matOf s b).reqs = [])
    (hq : (matOf s b).queue = []) (hidle : (matOf s b).lastDone + 256 ≤ s.clk) :
    exec (.powerLeaveRelease b) s = .next (setMat s b { matOf s b with leave := false }) := by
  refine runEvent_ok ?_
  simp only [act_bind, act_get, hleave, hfree, hr, hq, Option.isNone_none, List.isEmpty_nil, hidle, decide_true, Bool.and_self, act_need_true,
    act_set]

end LeaseEvents

/-- Settles O46: each instruction and each step of the array by its own equation. -/
theorem matrixLeases : Obligations.MatrixLeases := by
  unfold Obligations.MatrixLeases
  intro s k c m
  refine ⟨fun n d hd => ⟨fun h1 h64 hh hr => ⟨exec_mlease_enters hd h1 h64 hh hr, exec_mlease_gated hd h1 h64 hh hr⟩,
      fun h1 h64 => exec_mlease_again hd h1 h64, fun h => exec_mlease_illegal h d⟩,
    fun h => ?released, fun h r hr => ?withdrawn, fun h hr => ?neither, fun r hr => exec_mcfg hr,
    fun b r rest hr => ⟨exec_leaseGrant hr, fun asked => exec_leaveRefusalTimeout hr, fun l => exec_leaseIdleExpiry hr⟩,
    fun b => exec_powerLeaveRelease⟩
  case released => rw [exec_mrel, endLease_holder h]
  case withdrawn => rw [exec_mrel, endLease_asked h hr]
  case neither => rw [exec_mrel, endLease_neither h hr]

end Sys2Proof.Machine
end

section
/-!
The array queue (R214, R222 to R224): its head starts, and completes with its message.
-/
namespace Sys2Proof.Machine

open Sys2Proof

section Run

variable {s : State} {b : Nat} {c : MatCmd} {r : List MatCmd}

/-- R214: the head of the queue starts. -/
theorem exec_matrixCommandStart (hup : (quayOf s (berthQuay b)).mode = .up) (hq : (matOf s b).queue = c :: r) (hc : c.started = none) :
    exec (.matrixCommandStart b) s = .next (setMat s b { matOf s b with queue := { c with started := some s.clk } :: r }) := by
  refine runEvent_ok ?_
  simp only [act_bind, act_get, hup, beq_self_eq_true, act_need_true, hq, hc, Option.isNone_none, act_set]

/-- R222: the trace record of a completion. -/
def completionTraced (s : State) (b : Nat) (c : MatCmd) : State :=
  traceRecord s b 10 0 c.core c.ctx (ctxOf s c.core c.ctx).ch.toNat (c.tag.setWidth 64) (ctxOf s c.core c.ctx).ktask

variable {started : Nat}

/-- R222, R223: a command that read what it was to read writes its results, and sends its message when it has a tag. -/
theorem exec_matrixCommandComplete_clean (hup : (quayOf s (berthQuay b)).mode = .up) (hq : (matOf s b).queue = c :: r)
    (hs : c.started = some started) (hdone : started + c.cycles ≤ s.clk)
    (hclean : (c.bad || c.reads.any fun e => isBad s e.1 e.2) = false) :
    let results := runCommand (setMat s b { matOf s b with queue := r, lastDone := s.clk }) c
    let t := completionTraced results.1 b c
    exec (.matrixCommandComplete b) s = .next (if c.tag = 0 then t else post t (matMessage c results.2 false)) := by
  refine runEvent_ok ?_
  simp only [act_bind, act_get, hup, beq_self_eq_true, act_need_true, hq, hs, act_needSome_some, hdone, decide_true, hclean,
    Bool.false_eq_true, if_false, and_true, act_set, completionTraced]

/-- R224: one that did not writes the default NaN, and always sends its message. -/
theorem exec_matrixCommandComplete_unreadable (hup : (quayOf s (berthQuay b)).mode = .up) (hq : (matOf s b).queue = c :: r)
    (hs : c.started = some started) (hdone : started + c.cycles ≤ s.clk)
    (hbad : (c.bad || c.reads.any fun e => isBad s e.1 e.2) = true) :
    let u := setMat s b { matOf s b with queue := r, lastDone := s.clk }
    exec (.matrixCommandComplete b) s =
      .next (post (completionTraced (raiseIrq (writeNans u c) (512 + b) c.part) b c) (matMessage c 0 true)) := by
  refine runEvent_ok ?_
  simp only [act_bind, act_get, hup, beq_self_eq_true, act_need_true, hq, hs, act_needSome_some, hdone, decide_true, hbad, if_true,
    Bool.true_eq_false, and_false, if_false, act_set, completionTraced]

end Run

/-- Settles O48: a start, and a completion with readable or unreadable data. -/
theorem matrixCommandsRun : Obligations.MatrixCommandsRun := by
  unfold Obligations.MatrixCommandsRun
  intro s b c r hup hq
  refine ⟨exec_matrixCommandStart hup hq, fun started hs hdone => ⟨fun hgood hread => ?clean, fun hbad => ?unreadable⟩⟩
  case clean => exact exec_matrixCommandComplete_clean hup hq hs hdone (by rw [hgood, hread, Bool.or_self])
  case unreadable => exact exec_matrixCommandComplete_unreadable hup hq hs hdone hbad

end Sys2Proof.Machine
end

section
/-!
SUPPORT. Conditions on the state that a meaning keeps where it does not stop, and what the accesses of matrix commands keep: sampling operands
leaves the executing context what it is.
-/
namespace Sys2Proof.Machine

open Sys2Proof

/-- A meaning that, where it does not stop, keeps a condition. -/
def KeepsCond {α : Type} (I : State → Prop) (a : Act α) : Prop := ∀ s x t, I s → a s = .ok (x, t) → I t

namespace KeepsCond

variable {α β : Type} {I : State → Prop}

theorem pure (x : α) : KeepsCond I (Pure.pure x : Act α) := by
  intro s y t hs h
  cases h
  exact hs

theorem halt (e : Stop) : KeepsCond I (Machine.halt e : Act α) := fun _ _ _ _ h => nomatch h

theorem bind {a : Act α} {f : α → Act β} (ha : KeepsCond I a) (hf : ∀ x, KeepsCond I (f x)) : KeepsCond I (a >>= f) := by
  intro s y u hs h
  obtain ⟨x, t, h1, h2⟩ := act_bind_inv h
  exact hf x t y u (ha s x t hs h1) h2

/-- What follows a read of the state may use that the state meets the condition. -/
theorem get_bind {f : State → Act β} (hf : ∀ s, I s → KeepsCond I (f s)) : KeepsCond I (get >>= f) :=
  fun s y u hs h => hf s hs s y u hs h

theorem here_bind {f : Ctx → Act β} (hf : ∀ x, KeepsCond I (f x)) : KeepsCond I (Machine.here >>= f) :=
  fun s y u hs h => hf _ s y u hs h

theorem set {t : State} (ht : I t) : KeepsCond I (MonadStateOf.set t : Act Unit) := by
  intro s y u _ h
  cases h
  exact ht

theorem ite {p : Prop} [Decidable p] {a b : Act α} (ha : KeepsCond I a) (hb : KeepsCond I b) : KeepsCond I (if p then a else b) := by
  split
  · exact ha
  · exact hb

theorem check (b : Bool) (c : BitVec 8) (d : Dbl) : KeepsCond I (Machine.check b c d) := ite (pure ()) (halt _)

theorem liftChk (c : Chk α) : KeepsCond I (Machine.liftChk c) := by
  unfold Machine.liftChk
  split
  · exact pure _
  · exact halt _

theorem collect {f : α → Act β} (hf : ∀ x, KeepsCond I (f x)) (l : List α) : KeepsCond I (Machine.collect f l) := by
  induction l with
  | nil => exact pure []
  | cons x r ih => exact bind (hf x) fun _ => bind ih fun _ => pure _

theorem waitPieces (ps : List Piece) (write : Bool) : KeepsCond I (Machine.waitPieces ps write) :=
  get_bind fun _ _ => ite (halt _) (pure ())

theorem waitOwn (ps : List Piece) : KeepsCond I (Machine.waitOwn ps) := get_bind fun _ _ => ite (halt _) (pure ())

theorem waitHome (ps : List Piece) : KeepsCond I (Machine.waitHome ps) :=
  get_bind fun _ _ => here_bind fun _ => ite (halt _) (pure ())

theorem noteFirst (part : Nat) (c : Cap) : KeepsCond I (Machine.noteFirst part c) :=
  get_bind fun _ _ => ite (halt _) (ite (halt _) (pure ()))

/-- R218, R223: the ranges of operands are found by translations alone. -/
theorem rangesOf {b part : Nat} (hI : ∀ va, KeepsCond I (translate b part va 0 false)) (cs : List Cap) :
    KeepsCond I (Machine.rangesOf b part cs) := by
  refine bind (collect (fun c => ?_) cs) fun _ => pure _
  refine bind (collect (fun j => ?_) _) fun _ => pure _
  exact ite (collect (fun i => bind (hI _) fun _ => pure _) _) (pure _)

theorem pieces {b part kind : Nat} (hI : ∀ va, KeepsCond I (translate b part va kind false)) (fuel bit w : Nat) :
    KeepsCond I (Machine.pieces b part kind fuel bit w) := by
  induction fuel generalizing bit w with
  | zero => exact pure []
  | succ n ih => exact ite (pure []) (bind (hI _) fun _ => bind (ih _ _) fun _ => pure _)

end KeepsCond

/-! ### The executing context's place -/

section Place

variable {c : Cur} {s t : State}

theorem keepsCur_translate (b part va kind : Nat) (remote : Bool) : KeepsCond (·.cur = c) (translate b part va kind remote) :=
  fun _ _ _ hs h => (translate_cur h).trans hs

theorem countEvent_cur (s : State) (k ctx e n : Nat) : (countEvent s k ctx e n).cur = s.cur := by
  unfold countEvent
  extract_lets core bump
  split <;> rfl

theorem addDelay_cur (s : State) (k acc : Nat) : (addDelay s k acc).cur = s.cur := by
  unfold addDelay
  extract_lets core
  split <;> rfl

theorem missDelay_cur (s : State) (k key : Nat) : (missDelay s k key).cur = s.cur := by
  rw [missDelay, apply_ite State.cur, addDelay_cur, addDelay_cur, ite_self]

theorem countMisses_cur (s : State) (k ctx : Nat) (ps : List Piece) : (countMisses s k ctx ps).cur = s.cur := by
  refine List.foldlRecOn (motive := fun (t : State) => t.cur = s.cur) ps _ rfl fun t ht p _ => ?_
  extract_lets m
  split
  · exact (missDelay_cur _ k p.key).trans ((countEvent_cur t k ctx 6 1).trans ht)
  · exact ht

theorem revoked_cur (s : State) (part addr : Nat) : (revoked s part addr).2.cur = s.cur := by
  rcases revoked_state s part addr with h | h <;> rw [h]
  rfl

theorem barrier_cur (s : State) (part : Nat) (g : Cap) : (barrier s part g).2.cur = s.cur := by
  unfold barrier
  split
  · exact revoked_cur s part (capBase g)
  · rfl

theorem keepsCur_loadGranule (addr : Nat) (p : Phys) (keep : Bool) : KeepsCond (·.cur = c) (loadGranule addr p keep) := by
  refine .bind (.waitPieces _ _) fun _ => .bind (.waitOwn _) fun _ => .bind (.waitHome _) fun _ => .get_bind fun s hs =>
    .bind (.check _ _ _) fun _ => .bind (.noteFirst _ _) fun _ => .bind (.set ?_) fun _ => .pure _
  exact (barrier_cur _ _ _).trans (((memOnly_readGranule _ _ _).cur.trans (countMisses_cur _ _ _ _)).trans hs)

/-- R216: the loads of granules leave the executing context where it is. -/
theorem keepsCur_tableGranule (g : Cap) (reg k : Nat) : KeepsCond (·.cur = c) (tableGranule g reg k) :=
  .get_bind fun _ _ => .here_bind fun _ => .bind (.check _ _ _) fun _ => .bind (.check _ _ _) fun _ =>
    .bind (keepsCur_translate _ _ _ _ _) fun _ => keepsCur_loadGranule _ _ _

theorem keepsCur_quaylinePort (part key : Nat) : KeepsCond (·.cur = c) (quaylinePort part key) :=
  .get_bind fun _ hs => .ite (.halt _) (.bind (.set hs) fun _ => .ite (.halt _) (.pure _))

theorem keepsCur_sourceBits (q part : Nat) (comp : Bool) (ps : List Piece) : KeepsCond (·.cur = c) (sourceBits q part comp ps) := by
  induction ps with
  | nil => exact .pure 0
  | cons p r ih =>
    refine .get_bind fun _ _ => .ite ?_ ?_
    · exact .bind (keepsCur_quaylinePort _ _) fun _ => .bind (.pure _) fun _ => .bind ih fun _ => .pure _
    · exact .bind (.pure _) fun _ => .bind ih fun _ => .pure _

/-- R218: so do the samples of adapter operands. -/
theorem keepsCur_adapterCode (g : Cap) (x : Idx) : KeepsCond (·.cur = c) (adapterCode g x) :=
  .get_bind fun _ _ => .here_bind fun _ => .bind (.pieces (fun _ => keepsCur_translate _ _ _ _ _) _ _ _) fun _ =>
    .bind (.waitPieces _ _) fun _ => keepsCur_sourceBits _ _ _ _

theorem keepsCur_loadAdapters (g : Cap) (reg : Nat) (ids : List Nat) : KeepsCond (·.cur = c) (loadAdapters g reg ids) :=
  .collect (fun _ => .bind (keepsCur_tableGranule _ _ _) fun _ => .bind (keepsCur_tableGranule _ _ _) fun _ => .get_bind fun _ _ =>
    .bind (.liftChk _) fun _ => .bind (.liftChk _) fun _ => .pure _) ids

theorem keepsCur_sampleAdapter (k n : Nat) (x : Nat × Cap × Cap) : KeepsCond (·.cur = c) (sampleAdapter k n x) :=
  .bind (.collect (fun _ => keepsCur_adapterCode _ _) _) fun _ => .bind (.collect (fun _ => keepsCur_adapterCode _ _) _) fun _ => .pure _

theorem revokedOperand_cur (s : State) (part : Nat) (l : List (Cap × Nat × Nat)) : (revokedOperand s part l).2.cur = s.cur := by
  induction l generalizing s with
  | nil => rfl
  | cons e r ih =>
    unfold revokedOperand
    simp only
    split
    · split
      · exact revoked_cur s part _
      · exact (ih _).trans (revoked_cur s part _)
    · exact ih s

end Place

/-! ### The ranges of operands -/

/-- Only what berths and quays hold differs between two states. -/
def BerthsAndQuays (s t : State) : Prop := t = { s with berths := t.berths, quays := t.quays }

theorem BerthsAndQuays.trans {s t u : State} (h : BerthsAndQuays s t) (g : BerthsAndQuays t u) : BerthsAndQuays s u := by
  unfold BerthsAndQuays at *
  rw [h] at g
  exact g

/-- R121: the search for a leaf fills TLBs. -/
theorem leafFor_tlbs {s t : State} {b part va : Nat} {e : TlbEntry} (h : leafFor s b part va = .ok (e, t)) : BerthsAndQuays s t := by
  unfold leafFor at h
  simp only at h
  split at h
  · cases h; rfl
  · split at h
    · cases h; rfl
    · split at h
      · cases h
      · cases h; rfl

/-- R120, R121: so does a translation for a read, which sets no D bit. -/
theorem translate_read_tlbs {s t : State} {b part va : Nat} {remote : Bool} {p : Phys}
    (h : translate b part va 0 remote s = .ok (p, t)) : BerthsAndQuays s t := by
  unfold translate at h
  split at h
  · cases h; rfl
  split at h
  · cases h
  split at h
  · cases h
  rename_i e u hleaf
  split at h
  · cases h
  split at h
  · cases h
  split at h
  · cases h
  · cases h
    exact leafFor_tlbs hleaf

section Ranges

variable {s t : State} {b part : Nat} {cs : List Cap} {l : List (Nat × Nat)}

theorem rangesOf_tlbs (h : rangesOf b part cs s = .ok (l, t)) : BerthsAndQuays s t :=
  KeepsCond.rangesOf (fun _ _ _ _ hs ht => hs.trans (translate_read_tlbs ht)) cs s l t rfl h

theorem rangesOf_cur (h : rangesOf b part cs s = .ok (l, t)) : t.cur = s.cur := by rw [rangesOf_tlbs h]

/-- R218: finding the ranges of operands changes no context. -/
theorem rangesOf_me (h : rangesOf b part cs s = .ok (l, t)) : me t = me s := by
  rw [rangesOf_tlbs h]
  rfl

end Ranges

end Sys2Proof.Machine
end

section
/-!
The matrix commands (R207, R211 to R221): acceptance, and what each command asks before it.
-/
namespace Sys2Proof.Machine

open Sys2Proof

/-- A step that is taken only under a condition, and changes nothing. -/
theorem act_when_bind {α : Type} {p : Prop} [Decidable p] {x : Act Unit} {f : Unit → Act α} {s : State} (h : p → x s = .ok ((), s)) :
    (if p then x >>= f else f ()) s = f () s := by
  split
  · exact act_bind_ok (h ‹_›)
  · rfl

/-! ### Acceptance -/

section Acceptance

variable {s : State} {k : Nat}

/-- R201: the holder of the lease goes on. -/
theorem matLease_holder (h : holdsLease (matOf s (myBerth s)) s.cur.core s.cur.ctx = true) : matLease s = .ok ((), s) := by
  simp only [matLease, act_bind, act_get, h, if_true, act_pure]

theorem releaseHere_at {scope : Nat} (hk : myBerth s = k) (hdone : accessesDone s) (hready : releaseReady s k scope = true) :
    releaseHere scope s = .ok ((), release s k scope) := by
  subst hk
  exact releaseHere_done hdone hready

/-- R207, R233: what acceptance waits for does not hold a command up. -/
structure Accepts (s : State) (k : Nat) : Prop where
  berth : myBerth s = k
  slot : (matOf s k).queue.length < 4
  accesses : accessesDone s
  release : releaseReady s k 1 = true

/-- R207 steps 7 and 8: a command that is short enough is accepted. -/
theorem acceptMatrix_commanded (h : Accepts s k) {c : MatCmd} (hc : c.cycles ≤ 1048576) (extra : Nat) :
    acceptMatrix c extra s = .ok (.seq, commanded s c extra) := by
  obtain ⟨rfl, hslot, hdone, hready⟩ := h
  have hopen : ¬ 4 ≤ (matOf s (coreBerth s.cur.core)).queue.length := Nat.not_le.2 hslot
  simp only [acceptMatrix, act_bind, matLimit, hc, decide_true, act_check_true, act_get, hopen, if_false, act_pure, releaseHere_done hdone hready,
    act_here, act_modify, commanded, me, myBerth, (memOnly_release s (coreBerth s.cur.core) 1).cur]

/-- R156: the advance of the seed changes nothing that acceptance waits for. -/
theorem Accepts.seeded (h : Accepts s k) : Accepts (seeded s) k := by
  obtain ⟨hberth, hslot, ⟨hdone, herr⟩, hready⟩ := h
  unfold Machine.seeded
  split
  · refine ⟨hberth, hslot, ⟨?_, ?_⟩, hready⟩
    · simp only [accessOutstanding, setCtx_cur, ctxOf_setCtx_same]
      exact hdone
    · rw [me_withMe]
      exact herr
  · exact ⟨hberth, hslot, ⟨hdone, herr⟩, hready⟩

/-- R219: nor does a free value that has been taken. -/
theorem Accepts.freeCtr (h : Accepts s k) (n : Nat) : Accepts { s with freeCtr := n } k := ⟨h.berth, h.slot, h.accesses, h.release⟩

end Acceptance

/-! ### Shapes -/

/-- R208: rules that nothing breaks may be left out. -/
theorem checkShape_append {l r : List Breach} (hl : ∀ x ∈ l, x.broken = false) : checkShape (l ++ r) = checkShape r := by
  have hnone : ∀ n, (l.find? fun x => x.broken && x.reason == n) = none := fun n =>
    List.find?_eq_none.2 fun x hx => by simp [hl x hx]
  simp only [checkShape, firstBreach, List.find?_append, hnone, Option.none_or]

theorem checkShape_ok {l : List Breach} (hl : ∀ x ∈ l, x.broken = false) : checkShape l = .ok () := by
  have h := checkShape_append (r := []) hl
  rwa [List.append_nil] at h

/-- R216: no index value lies past the table. -/
theorem indexPast_none {rows : List Nat} {n : Nat} (h : ∀ i ∈ rows, i = 0xFFFF ∨ 2 + 2 * i < n) :
    (rows.zipIdx.find? fun e => e.1 != 0xFFFF && decide (n ≤ 2 + 2 * e.1)) = none := by
  refine List.find?_eq_none.2 fun e he => ?_
  rcases h e.1 (List.fst_mem_of_mem_zipIdx he) with h | h
  · simp [h]
  · simp [Nat.not_le.2 h]

/-! ### The commands -/

section Commands

variable {s u v : State} {b c : BitVec 4} {reads writes : List (Nat × Nat)}

/-- R199, R207, R212: `mma` and `mma.z`, which differ in whether C is read. -/
theorem product_commanded {fn : Nat} {a : BitVec 4} {t : BitVec 5} (ha : readableC s a) (hb : readableC s b) (hc : readableC s c)
    (hlease : holdsLease (matOf s (myBerth s)) s.cur.core s.cur.ctx = true) (hv : Accepts v (myBerth s))
    (hops : productOperands (myBerth s) (regC s a) (regC s b) (regC s c) (me s).kcsa (me s).kcsb a.toNat b.toNat c.toNat none = .ok ())
    (hshape : checkShape (productRules (regC s a) (regC s b) (regC s c) (me s).kcsa (me s).kcsb a.toNat b.toNat c.toNat) = .ok ())
    (hcycles : productCycles (max (matClass (capFmt (regC s a))) (matClass (capFmt (regC s b)))) (capExt (regC s a) 0)
      (capExt (regC s a) 1) ≤ 1048576)
    (hreads : rangesOf (myBerth s) (me s).part ([regC s a, regC s b] ++ (if fn = 3 then [regC s c] else []) ++
      sampledScales (regC s a) (regC s b) (me s).kcsa (me s).kcsb) s = .ok (reads, u))
    (hwrites : rangesOf (myBerth s) (me s).part [regC s c] u = .ok (writes, v)) :
    product fn c b a t s = .ok (.seq, commanded v { freshCommand s fn t.toNat with
      a := regC s a, b := regC s b, c := regC s c, sa := (me s).kcsa, sb := (me s).kcsb, reads := reads, writes := writes
      cycles := productCycles (max (matClass (capFmt (regC s a))) (matClass (capFmt (regC s b)))) (capExt (regC s a) 0)
        (capExt (regC s a) 1) } 0) := by
  simp only [product, act_bind, readC_plain ha, readC_plain hb, readC_plain hc, matLease_holder hlease, act_get, act_here, liftChk_ok hops,
    liftChk_ok hshape, hreads, hwrites]
  exact acceptMatrix_commanded hv hcycles 0

end Commands

/-- Settles O47: each command passes its checks and is accepted with what it samples; sampling is translations, loads and releases, which leave
the executing context in its berth. -/
theorem matrixCommandsAccepted : Obligations.MatrixCommandsAccepted := by
  unfold Obligations.MatrixCommandsAccepted
  refine ⟨fun s u v b c reads writes => ?plain, fun s t1 t2 t3 t4 t5 t6 t7 x c b a t ix rows loaded adapters reads writes => ?fused⟩
  case plain =>
    dsimp only
    intro hb hc hlease hslot hdone hready
    have accepts : v.cur = s.cur → Accepts v (myBerth s) := fun h => ⟨by rw [myBerth, h], hslot, hdone, hready⟩
    refine ⟨fun a t ha hops hshape hcycles hwrites => ?products, fun t hop hrank hstr hwrites hcycles => ?zero, fun x t hx => ?conversion⟩
    case products =>
      exact ⟨fun hreads => runInstr_seq (word := encMma c b a t) rfl (product_commanded (fn := 3) ha hb hc hlease
          (accepts ((rangesOf_cur hwrites).trans (rangesOf_cur hreads))) hops hshape hcycles hreads hwrites),
        fun hreads => runInstr_seq (word := encMmaZ c b a t) rfl (product_commanded (fn := 4) ha hb hc hlease
          (accepts ((rangesOf_cur hwrites).trans (rangesOf_cur hreads))) hops hshape hcycles hreads hwrites)⟩
    case zero =>
      refine runInstr_seq (word := encMzero c t) rfl ?_
      simp only [act_bind, readC_plain hc, matLease_holder hlease, act_get, act_here, liftChk_ok hop]
      rw [liftChk_ok (checkShape_ok ?rules)]
      case rules => simp [hrank, hstr]
      simp only [hwrites]
      exact acceptMatrix_commanded (accepts (rangesOf_cur hwrites)) hcycles 0
    case conversion =>
      intro hhigh hlow hfmt hd hop hsa hrankB hrankC hext1 hext0 hstrB hbyte hstrC hscale hreads hwrites hcycles
      refine runInstr_seq (word := encMcvt x c b t) rfl ?_
      have hctl : (fieldOf (regX s x) 14 50 == 0 && fieldOf (regX s x) 0 8 == 0 &&
          (matClass (fieldOf (regX s x) 8 6) != 0 || fieldOf (regX s x) 8 6 == fFP32)) = true := by
        simpa [hhigh, hlow] using hfmt
      have hme : me v = me s := (rangesOf_me hwrites).trans (rangesOf_me hreads)
      simp only [act_bind, scalarLink_plain hx.1, readX_plain hx, readC_plain hb, readC_plain hc, matLease_holder hlease, hctl, act_check_true,
        act_get, act_here, liftChk_ok hd, liftChk_ok hop, act_when_bind fun h => liftChk_ok (hsa h) s]
      rw [liftChk_ok ((checkShape_append ?rules).trans hscale)]
      case rules => simp [hrankB, hrankC, hext1, hext0, hstrB, hbyte, hstrC]
      simp only [hreads, hwrites, takeRound_seeded, hme, BitVec.ofNat_toNat, BitVec.setWidth_eq]
      exact acceptMatrix_commanded (accepts ((rangesOf_cur hwrites).trans (rangesOf_cur hreads))).seeded hcycles 0
  case fused =>
    dsimp only
    intro hx ha hb hc ht hlease hhigh hops hmap hrevoked hdone hready hix hixOp hrows hin hload hshape hsample hreads hwrites hcycles hslot
      hdone7 hready7
    refine runInstr_seq (word := encMad x c b a t) rfl ?_
    have h1 : t1.cur = s.cur := by
      have h := revokedOperand_cur s (me s).part [(regC s t, t.toNat, 0)]
      rwa [hrevoked] at h
    have h2 : t2.cur = s.cur := keepsCur_tableGranule _ _ _ _ _ _ ((memOnly_release t1 (myBerth s) 1).cur.trans h1) hix
    have h3 : t3.cur = s.cur := KeepsCond.collect (fun _ => keepsCur_adapterCode _ _) _ _ _ _ h2 hrows
    have h4 : t4.cur = s.cur := keepsCur_loadAdapters _ _ _ _ _ _ h3 hload
    have h5 : t5.cur = s.cur := KeepsCond.collect (keepsCur_sampleAdapter _ _) _ _ _ _ h4 hsample
    have h7 : t7.cur = s.cur := (rangesOf_cur hwrites).trans ((rangesOf_cur hreads).trans h5)
    have hrelease := releaseHere_at (k := myBerth s) (by rw [myBerth, h1]) hdone hready
    have hv : Accepts t7 (myBerth s) := ⟨by rw [myBerth, h7], hslot, hdone7, hready7⟩
    simp only [act_bind, act_get, scalarLink_plain hx.1, readX_plain hx, readC_plain ha, readC_plain hb, readC_plain hc, readC_plain ht,
      matLease_holder hlease, hhigh, beq_self_eq_true, act_check_true, act_here, liftChk_ok hops, hmap, Bool.false_eq_true, if_false, hrevoked,
      act_set, hrelease, hix, liftChk_ok hixOp, hrows, hload, indexPast_none hin, List.append_nil, liftChk_ok hshape, hsample, hreads, hwrites]
    exact acceptMatrix_commanded (hv.freeCtr _) hcycles _

end Sys2Proof.Machine
end
